-- ==== Sys2Proof/Word.lean ====
section
/-! DEFINITION. The word types of the Lysvar 4 and the plainest things over them: bytes, 32-bit words, 64-bit pairs
(R2, R42), the 32-lane vectors of a strip (R1) and lane masks. -/

namespace Sys2Proof

/-- A byte of memory (R2). -/
abbrev Byte := BitVec 8

/-- A 32-bit word: a register of one item, an instruction word (R42, R71). -/
abbrev Word := BitVec 32

/-- A 64-bit value: a pair, an address, an engine register (R42, R58, R161). -/
abbrev DWord := BitVec 64

/-- One bit for each lane of a strip, bit l for lane l (R46, R61). -/
abbrev Mask := BitVec 32

/-- One 32-bit value for each lane of a strip. -/
abbrev Lanes := Vector Word 32

end Sys2Proof
end

