-- ==== Sys2Proof/Config.lean ====
section
/-! DEFINITION. What the Lysvar 4's manual leaves open: the free values (constants without a body, of which nothing can
be proved) and the few sizes that the manual does not fix. Each is named in notes/assumptions. -/

namespace Sys2Proof.Config

/-- A free bit for each number: which of two allowed values a read returns (R68, R170, R205, R246, R253, R260), log 6. -/
opaque freeBit : Nat → Bool

/-- A free byte: which value a scratchpad byte holds when a gang starts, of those that R165 allows (log 7). The first number
is the gang's. -/
opaque scratchByte : Nat → Nat → Byte

/-- A free number below 16: the entry of a C group through which an access is translated (R246), log 6. -/
opaque groupEntry : Nat → Fin 16

/-- Whether the uniform operands of LDT and STASH are looked at before a guard that is false in every active lane (R84, R345,
R366), log 22. -/
opaque operandsFirst : Bool

/-- The scale of a block that holds an infinity, for which R204 gives none: a function of the destination's entry and its
scale's, of RND and SAT, and of the block's elements, log 6. -/
opaque blockScale : DWord → DWord → Nat → Bool → List (Nat × Int) → Word

/-- A free byte: what a page that maps the count shadow reads as (R177), log 15. The first number is the tick. -/
opaque shadowByte : Nat → Nat → Byte

/-- Whether the root complex answers an atomic operation on a host address as Unsupported Request or Completer Abort (R284),
log 6. -/
opaque hostAborts : Nat → Bool

/-- The device's public key, the two coordinates of a point of the curve P-384 (R296), log 8. -/
opaque publicKey : BitVec 768

/-- A byte of the certificate chain in slot 0 outside its leaf's public key (R296), log 8. -/
opaque chainByte : Nat → Byte

/-- A free word: what another device's generator draws (R214), or a count that no read gives (R305), log 6. -/
opaque freeWord : Nat → Word

/-- A free signature of the assay processor (R297), log 8. -/
opaque signature : Nat → BitVec 768

/-- How many bytes of the certificate chain in slot 0 stand before and behind its leaf's public key (R296), log 8. -/
opaque chainHead : Fin 32000
opaque chainTail : Fin 32000

/-- A free key of the HBM controllers, generated at LOCK_INTERFACE (R298), log 8. -/
opaque regionKey : Nat → BitVec 512

/-- Bytes of DRAM traffic and estimated energy of a step, which no rule computes (R301), log 9. -/
opaque trafficBytes : Nat → DWord

/-- Of two allowed values one, which one is left open. When both are equal nothing is left open. -/
def pick {α : Type} [DecidableEq α] (n : Nat) (a b : α) : α :=
  if a = b then a else if freeBit n then a else b

/-- Places in a command processor's intake for one context (R152 names the intake and gives no size), log 10. -/
def intakePlaces : Nat := 16

end Sys2Proof.Config
end

