-- ==== Sys2Proof/Machine/Num.lean ====
section
/-! DEFINITION. Exact numbers, the entries of the format table and what their codes mean (R99 to R105, R116). -/

namespace Sys2Proof.Machine

/-- The value of a code or of an exact computation: NaN (signalling or not), an infinity, or the number
(−1)^neg · m · 2^e. -/
inductive Num where
  | nan (sig : Bool)
  | inf (neg : Bool)
  | fin (neg : Bool) (m : Nat) (e : Int)
  deriving DecidableEq, Repr

/-- The fields of a format-table entry (R99); wid is the storage width in bits. -/
structure Ent where
  kind : Nat
  sgn : Bool
  ew : Nat
  fw : Nat
  bias : Int
  pol : Nat
  blk : Nat
  sidx : Nat
  wid : Nat
  deriving DecidableEq, Repr

/-- Bits lo to lo + len − 1 of a natural number. -/
def bitsOf (n lo len : Nat) : Nat := (n >>> lo) % 2 ^ len

/-- Bit i of a natural number. -/
def bitAt (n i : Nat) : Bool := bitsOf n i 1 == 1

/-- The storage widths by code (R99); an unknown code gives 0. -/
def widthOfCode (c : Nat) : Nat := [4, 6, 8, 12, 16, 32, 64].getD c 0

/-- The fields of a 64-bit entry (R99). -/
def Ent.of (w : DWord) : Ent where
  kind := bitsOf w.toNat 61 3
  sgn := bitAt w.toNat 60
  ew := bitsOf w.toNat 56 4
  fw := bitsOf w.toNat 50 6
  bias := (w.extractLsb' 38 12).toInt
  pol := bitsOf w.toNat 35 3
  blk := bitsOf w.toNat 32 3
  sidx := bitsOf w.toNat 26 6
  wid := widthOfCode (bitsOf w.toNat 22 4)

/-- The accumulator form of R116 as an entry: 48 bits, exponent width 10, 37 fraction bits, IEEE policy. -/
def Ent.acc : Ent := Ent.mk 1 true 10 37 511 0 0 0 48

/-- FP32 and FP64, the fixed entries 0 and 1 (R105). -/
def entFp32 : Ent := Ent.of 0x385C1FC001400000
def entFp64 : Ent := Ent.of 0x3BD0FFC001800000

/-- Entries 0 to 15 (R105). -/
def fixedEntries : List DWord :=
  [0x385C1FC001400000, 0x3BD0FFC001800000, 0x352803C001000000, 0x381C1FC001000000,
   0x340C01C800800000, 0x350803C000800000, 0x330800D000400000, 0x320C005000400000,
   0x3204005000000000, 0x501C001800800000, 0x6020001800800000, 0x500C001800000000,
   0x507C001801400000, 0x9210002000800000, 0x28001FC800800000, 0x3204005100000000]

/-- A pure-exponent format (R101). -/
def Ent.pure (f : Ent) : Bool := f.kind == 1 && !f.sgn && f.fw == 0

/-- The largest finite magnitude code of a kind-1 entry (R102). -/
def Ent.maxMag (f : Ent) : Nat :=
  match f.pol with
  | 0 => (2 ^ f.ew - 1) * 2 ^ f.fw - 1
  | 1 => 2 ^ (f.ew + f.fw) - 2
  | _ => 2 ^ (f.ew + f.fw) - 1

/-- The magnitude of code c of a kind-1 entry, its exponent field taken as unbounded (R100, R101, R112). -/
def Ent.mag (f : Ent) (c : Nat) : Nat × Int :=
  let e := c / 2 ^ f.fw
  let fr := c % 2 ^ f.fw
  if f.pure then (1, (c : Int) - f.bias)
  else if e = 0 then (fr, 1 - f.bias - f.fw)
  else (2 ^ f.fw + fr, (e : Int) - f.bias - f.fw)

/-- The bottom of T8's exponent range and its fraction width for z leading zeros (R103). -/
def t8Range (z : Nat) : Int × Nat :=
  match z with
  | 0 => (-2, 4) | 1 => (2, 3) | 2 => (-6, 2) | 3 => (6, 1) | 4 => (-10, 0) | 5 => (10, 0) | _ => (-11, 0)

/-- The value of a T8 code (R103). -/
def t8Decode (c : Nat) : Num :=
  let b := c % 128
  if b = 0 then (if c = 128 then .nan false else .fin false 0 0)
  else
    let m := b.log2
    let z := 6 - m
    let (bot, fw) := t8Range z
    let below := b - 2 ^ m
    .fin (c ≥ 128) (2 ^ fw + below % 2 ^ fw) (bot + (below / 2 ^ fw : Nat) - fw)

/-- The T8 magnitude code of 2^E · (1 + F / 2^FW), for E from −11 to 11 (R103). -/
def t8Code (e : Int) (fr : Nat) : Nat :=
  let go (z : Nat) : Nat :=
    let (bot, fw) := t8Range z
    2 ^ (6 - z) + (e - bot).toNat * 2 ^ fw + fr
  if e = -11 then 1 else if e ≤ -7 then go 4 else if e ≤ -3 then go 2 else if e ≤ 1 then go 0
  else if e ≤ 5 then go 1 else if e ≤ 9 then go 3 else go 5

/-- T8's fraction width at exponent E; above its range the magnitudes are powers of two (R112). -/
def t8Fw (e : Int) : Nat :=
  if -2 ≤ e ∧ e ≤ 1 then 4 else if 2 ≤ e ∧ e ≤ 5 then 3 else if -6 ≤ e ∧ e ≤ -3 then 2
  else if 6 ≤ e ∧ e ≤ 9 then 1 else 0

/-- The value of a code of an entry without its block scale (R100 to R103). -/
def Ent.decode (f : Ent) (code : Nat) : Num :=
  let c := code % 2 ^ f.wid
  match f.kind with
  | 1 =>
    let neg := f.sgn && bitAt c (f.ew + f.fw)
    let g := c % 2 ^ (f.ew + f.fw)
    let fr := g % 2 ^ f.fw
    let top := g / 2 ^ f.fw
    if f.pol = 0 ∧ top = 2 ^ f.ew - 1 then
      (if fr = 0 then .inf neg else .nan (!bitAt fr (f.fw - 1)))
    else if f.pol = 1 ∧ g = 2 ^ (f.ew + f.fw) - 1 then .nan false
    else if f.pol = 4 ∧ neg ∧ g = 0 then .nan false
    else
      let (m, e) := f.mag g
      .fin neg m e
  | 2 => if bitAt c (f.wid - 1) then .fin true (2 ^ f.wid - c) 0 else .fin false c 0
  | 3 => .fin false c 0
  | 4 => t8Decode c
  | _ => .fin false 0 0

/-- Whether a number is zero. -/
def Num.isZero : Num → Bool
  | .fin _ m _ => m == 0
  | _ => false

/-- The sign bit of a number; NaN has none. -/
def Num.neg : Num → Bool
  | .nan _ => false
  | .inf s => s
  | .fin s _ _ => s

/-- The same number with the other sign. -/
def Num.negate : Num → Num
  | .nan s => .nan s
  | .inf s => .inf (!s)
  | .fin s m e => .fin (!s) m e

/-- Whether a number is NaN, and whether it is a signalling one. -/
def Num.isNan : Num → Bool
  | .nan _ => true
  | _ => false
def Num.isSig : Num → Bool
  | .nan s => s
  | _ => false
def Num.isInf : Num → Bool
  | .inf _ => true
  | _ => false

/-- floor(log2) of a non-zero finite magnitude. -/
def exponentOf (m : Nat) (e : Int) : Int := e + (m.log2 : Int)

/-- The signed integer s · 2^sh for a shift that is not negative. -/
def signedShift (neg : Bool) (m : Nat) (sh : Int) : Int :=
  let v : Int := (m * 2 ^ sh.toNat : Nat)
  if neg then -v else v

/-- The exact sum of two finite numbers; down is whether an exact zero of unlike signs is −0 (round toward −∞). -/
def finAdd (down : Bool) (s1 : Bool) (m1 : Nat) (e1 : Int) (s2 : Bool) (m2 : Nat) (e2 : Int) : Num :=
  let e := if e1 ≤ e2 then e1 else e2
  let v := signedShift s1 m1 (e1 - e) + signedShift s2 m2 (e2 - e)
  if v = 0 then .fin (if s1 == s2 then s1 else down) 0 0
  else .fin (v < 0) v.natAbs e

/-- The exact sum with the specials of IEEE 754; ∞ − ∞ is NaN. -/
def Num.add (down : Bool) (a b : Num) : Num :=
  match a, b with
  | .nan s, .nan t => .nan (s || t)
  | .nan s, _ => .nan s
  | _, .nan t => .nan t
  | .inf s, .inf t => if s == t then .inf s else .nan false
  | .inf s, .fin _ _ _ => .inf s
  | .fin _ _ _, .inf t => .inf t
  | .fin s m e, .fin t n g => finAdd down s m e t n g

/-- The exact product; ∞ × 0 is NaN. -/
def Num.mul (a b : Num) : Num :=
  match a, b with
  | .nan s, .nan t => .nan (s || t)
  | .nan s, _ => .nan s
  | _, .nan t => .nan t
  | .inf s, .inf t => .inf (s != t)
  | .inf s, .fin t m _ => if m = 0 then .nan false else .inf (s != t)
  | .fin s m _, .inf t => if m = 0 then .nan false else .inf (s != t)
  | .fin s m e, .fin t n g => .fin (s != t) (m * n) (e + g)

/-- Whether a product of these is ∞ × 0. -/
def Num.mulInvalid (a b : Num) : Bool := (a.isInf && b.isZero) || (a.isZero && b.isInf)

/-- Whether a sum of these is ∞ − ∞. -/
def Num.addInvalid (a b : Num) : Bool := a.isInf && b.isInf && a.neg != b.neg

/-- The order of two numbers that are not NaN: less, equal or greater; the zeros are equal. -/
def Num.cmp (a b : Num) : Ordering :=
  match a, b with
  | .inf s, .inf t => if s == t then .eq else if s then .lt else .gt
  | .inf s, _ => if s then .lt else .gt
  | _, .inf t => if t then .gt else .lt
  | .fin s m e, .fin t n g =>
    let x := if e ≤ g then e else g
    compare (signedShift s m (e - x)) (signedShift t n (g - x))
  | _, _ => .eq

/-- A number times a power of two. -/
def Num.scale (a : Num) (k : Int) : Num :=
  match a with
  | .fin s m e => .fin s m (e + k)
  | a => a

end Sys2Proof.Machine
end

