-- ==== Sys2Proof/Syntax.lean ====
section
/-! DEFINITION. The syntax of the Lysvar 4's steps: one constructor of Instr for each row of spec/opcode_table.json.
The first part holds the instruction words of strips and engine programs, with the fields that the formats of R73, R76,
R88 to R90 give them. The second part holds the device, host and scheduler events of the table, which have no encoding
and carry what the outside world or the schedule decides. -/

namespace Sys2Proof

/-- The type of an integer ALU word (R82, R310). -/
inductive IntType where
  | i32 | n32 | i64 | n64
  deriving DecidableEq, Repr

/-- The integer comparisons (R339). -/
inductive ICond where
  | eq | ne | lt | le | gt | ge | ltn | gen
  deriving DecidableEq, Repr

/-- The float comparisons (R332). -/
inductive FCond where
  | eq | ne | lt | le | gt | ge | un | od
  deriving DecidableEq, Repr

/-- The lane moves of SHFL (R137). -/
inductive ShflOp where
  | lane | back | ahead | pair
  deriving DecidableEq, Repr

/-- The folds of REAP (R356). -/
inductive ReapOp where
  | add | min | max | and | or | xor | fadd | fmax
  deriving DecidableEq, Repr

/-- The conditions of WAIT (R190). -/
inductive WaitCond where
  | eq | ne | gen | ltn
  deriving DecidableEq, Repr

/-- The operations of COLL (R90, R214). -/
inductive CollOp where
  | allReduce | reduceScatter | allGather | broadcast
  deriving DecidableEq, Repr

/-- The modifier form of the extension word (R76). -/
structure XWord where
  fmt : BitVec 6
  rnd : BitVec 3
  sat : Bool
  vc : BitVec 6
  lc : Bool
  ge : Bool
  gn : Bool
  gp : BitVec 5
  cls : BitVec 8
  deriving DecidableEq, Repr

/-- A word of format LR or GR with two source registers (R73). -/
structure W3 where
  s : Bool
  d : BitVec 6
  a : BitVec 6
  b : BitVec 6
  la : Bool
  lb : Bool
  x : Option XWord
  deriving DecidableEq, Repr

/-- A word of format LR or GR with one source register; its vb and lb are zero (R82). -/
structure W2 where
  s : Bool
  d : BitVec 6
  a : BitVec 6
  la : Bool
  x : Option XWord
  deriving DecidableEq, Repr

/-- A word with two 6-bit fields, or one 6-bit and one narrower, and no last-read bit. -/
structure WNoLa where
  s : Bool
  d : BitVec 6
  a : BitVec 6
  x : Option XWord
  deriving DecidableEq, Repr

/-- A word with one source register in va and its last-read bit (JMPI, RDV, FMTSEL vK, MODESET vK, BWSET). -/
structure WSrc where
  s : Bool
  a : BitVec 6
  la : Bool
  x : Option XWord
  deriving DecidableEq, Repr

/-- A word with one source pair in va and no last-read bit (CKPT, REPLAY, LAUNCH, TLBINV). -/
structure WAddr where
  s : Bool
  a : BitVec 6
  x : Option XWord
  deriving DecidableEq, Repr

/-- A word with sources in va and vb and no last-read bit (WAIT, ICINV, CFLUSH, PGMAP, HARVEST). -/
structure WAddr2 where
  s : Bool
  a : BitVec 6
  b : BitVec 6
  x : Option XWord
  deriving DecidableEq, Repr

/-- An immediate word of format LI or GI (R73, R312). -/
structure WImm where
  s : Bool
  d : BitVec 6
  a : BitVec 6
  la : Bool
  imm : BitVec 10
  lit : Option Word
  deriving DecidableEq, Repr

/-- MOVI and MOVI.G: no source register (R312). -/
structure WMovi where
  s : Bool
  d : BitVec 6
  imm : BitVec 10
  lit : Option Word
  deriving DecidableEq, Repr

/-- A memory word of format LM (R73). -/
structure WMem where
  s : Bool
  d : BitVec 6
  a : BitVec 6
  la : Bool
  off : BitVec 7
  sz : BitVec 3
  x : Option XWord
  deriving DecidableEq, Repr

/-- PREF: LM without a destination and a size (R353). -/
structure WPref where
  s : Bool
  a : BitVec 6
  la : Bool
  off : BitVec 7
  x : Option XWord
  deriving DecidableEq, Repr

/-- A predicate destination with one source field (VOTE, PMOV to a predicate). -/
structure WPred where
  s : Bool
  p : BitVec 5
  a : BitVec 6
  la : Bool
  x : Option XWord
  deriving DecidableEq, Repr

/-- A predicate destination with a predicate source (VOTE.ALL, VOTE.ANY). -/
structure WPP where
  s : Bool
  p : BitVec 5
  q : BitVec 5
  x : Option XWord
  deriving DecidableEq, Repr

/-- A register destination with a predicate source (VOTE.MASK, PMOV to a register). -/
structure WRP where
  s : Bool
  d : BitVec 6
  q : BitVec 5
  x : Option XWord
  deriving DecidableEq, Repr

/-- A comparison: a predicate destination and two sources (R332, R339). -/
structure WCmp where
  s : Bool
  p : BitVec 5
  a : BitVec 6
  b : BitVec 6
  la : Bool
  lb : Bool
  x : Option XWord
  deriving DecidableEq, Repr

/-- A mill word: an accumulator tile and two blocks (R348). -/
structure WMma where
  s : Bool
  acc : BitVec 4
  a : BitVec 6
  b : BitVec 6
  ovw : Bool
  x : Option XWord
  deriving DecidableEq, Repr

/-- ACCRD and ACCWR: a register block and a tile (R308, R309). -/
structure WAcc where
  s : Bool
  r : BitVec 6
  acc : BitVec 4
  x : Option XWord
  deriving DecidableEq, Repr

/-- A tile memory word of format LT (R345, R366, R367). -/
structure WTile where
  s : Bool
  d : BitVec 6
  a : BitVec 6
  b : BitVec 6
  t : Bool
  x : Option XWord
  deriving DecidableEq, Repr

/-- FORK's own layout (R88): the source words are taken as one 64-bit value, byte i for source i. -/
structure WFork where
  s : Bool
  d : BitVec 6
  cls : BitVec 5
  scope : BitVec 3
  n : BitVec 4
  low : BitVec 5
  off : Option Word
  src : BitVec 64
  deriving DecidableEq, Repr

/-- FENCE's own layout (R89). -/
structure WFence where
  s : Bool
  pre : BitVec 8
  succ : BitVec 8
  scope : BitVec 3
  deriving DecidableEq, Repr

/-- Four engine registers of an engine-class word (R90). -/
structure WEng where
  ea : BitVec 4
  eb : BitVec 4
  ec : BitVec 4
  ed : BitVec 4
  deriving DecidableEq, Repr

/-- Who issues, waits or is meant: a strip of a gang, a span, an engine program, or nobody. -/
inductive Agent where
  | nobody
  | strip (gang idx : Nat)
  | span (id : Nat)
  | prog (id : Nat)
  deriving DecidableEq, Repr

/-- A host access through HDM or BAR2: little-endian bytes at a device physical address (R280, R282). The stream is the
number of the TDI whose IDE stream carries it, if one does (R298). -/
structure HostAccess where
  addr : Nat
  len : Nat
  write : Option (List Byte)
  stream : Option Nat
  deriving DecidableEq, Repr

/-- What a peer's request does (R293, R314, R320). -/
inductive PeerOp where
  | read | write | atomic (op : BitVec 3) | cas
  deriving DecidableEq, Repr

/-- One lane's part of a peer's request (R293): an offset in the export window and a length, the bytes of a write or the
operand of an atomic, and the comparand of a CAS. -/
structure PeerLane where
  off : Nat
  len : Nat
  data : List Byte
  cmp : List Byte
  deriving DecidableEq, Repr

/-- A peer's request to this device's memory: the exporting context, what it does, whether it is a read that does not count
(R226), the format entry of a typed store (R228), the active lanes of the peer's instruction, and the clock at which the
request reached this device. -/
structure PeerRequest where
  ctx : Nat
  op : PeerOp
  nc : Bool
  entry : Option DWord
  lanes : List PeerLane
  since : DWord
  deriving DecidableEq, Repr

/-- A firmware image as the assay processor checks it (R295, R300). -/
structure Image where
  signed : Bool
  version : Nat
  digest : BitVec 384
  deriving DecidableEq, Repr

/-- An image that the host supplies in RECOVERY, and whether its write to flash is interrupted (R300). -/
structure Upload where
  image : Image
  interrupted : Bool
  deriving DecidableEq, Repr

/-- A Sniarnio port's link as it comes out of resending a flit: whether it is up (R289, R292). -/
structure FabricLink where
  port : Nat
  up : Bool
  deriving DecidableEq, Repr

/-- The signed configuration record (R299): signature, power shares, twin pool, dump region, minimum security version. -/
structure Record where
  signed : Bool
  digest : BitVec 384
  shares : List Nat
  twpool : Word
  dumpBase : Nat
  dumpSize : Nat
  minVersion : Nat
  deriving DecidableEq, Repr

/-- A region of device memory bound to a TDI, in bytes, 2 MiB-aligned (R298). -/
structure Region where
  base : Nat
  size : Nat
  deriving DecidableEq, Repr

/-- Another rank's part of a collective: its rank, its descriptor, the value of its wire entry, whether its own checks
passed, and the codes of its buffer elements (R214, R216). -/
structure CollPeer where
  rank : Nat
  tag : Word
  count : Nat
  op : CollOp
  red : BitVec 2
  bfmt : DWord
  wfmtCode : BitVec 6
  bfmtCode : BitVec 6
  wfmt : DWord
  rnd : BitVec 3
  sat : Bool
  root : Word
  ok : Bool
  data : List DWord
  deriving DecidableEq, Repr

/-- A block whose clock a power share or the flux bound can lower (R24, R25). -/
inductive Block where
  | compute (die : Nat)
  | hub (die : Nat)
  | stack (n : Nat)
  deriving DecidableEq, Repr

/-- One constructor for each row of spec/opcode_table.json, in the table's order. -/
inductive Instr where
  | add (t : IntType) (w : W3) | sub (t : IntType) (w : W3) | mul (t : IntType) (w : W3)
  | mulh (t : IntType) (w : W3) | min (t : IntType) (w : W3) | max (t : IntType) (w : W3)
  | addc (t : IntType) (w : W3) | mad (t : IntType) (w : W3)
  | addG (u : Bool) (w : W3) | subG (u : Bool) (w : W3) | mulG (u : Bool) (w : W3)
  | mulhG (u : Bool) (w : W3) | minG (u : Bool) (w : W3) | maxG (u : Bool) (w : W3)
  | addcG (u : Bool) (w : W3) | madG (u : Bool) (w : W3)
  | and (w : W3) | or (w : W3) | xor (w : W3) | andn (w : W3) | shl (w : W3) | shr (w : W3) | sar (w : W3)
  | andG (w : W3) | orG (w : W3) | xorG (w : W3) | andnG (w : W3) | shlG (w : W3) | shrG (w : W3) | sarG (w : W3)
  | popc (w : W2) | clz (w : W2) | brev (w : W2) | bfx (w : W3)
  | bfi (w : W3) | prmt (w : W3) | lea (w : W3) | sel (w : W3)
  | icmp (c : ICond) (w : WCmp) | icmpG (c : ICond) (w : WCmp)
  | addi (w : WImm) | muli (w : WImm) | andi (w : WImm) | ori (w : WImm) | xori (w : WImm)
  | shli (w : WImm) | shri (w : WImm) | sari (w : WImm) | movi (w : WMovi) | addiG (w : WImm) | moviG (w : WMovi)
  | mov (w : W2) | mku (w : W2) | movs (w : WNoLa) | pmovToReg (w : WRP) | pmovToPred (w : WPred)
  | movG (w : W2) | movsG (w : WNoLa)
  | plop (s : Bool) (pd pa pb : BitVec 5) (t : BitVec 4) (x : Option XWord)
  | fadd (f : Bool) (w : W3) | fsub (f : Bool) (w : W3) | fmul (f : Bool) (w : W3)
  | fmin (f : Bool) (w : W3) | fmax (f : Bool) (w : W3) | ffma (f : Bool) (w : W3) | fscl (f : Bool) (w : W3)
  | fcmp (f : Bool) (c : FCond) (w : WCmp)
  | frcp (w : W2) | frsq (w : W2) | fsqrt (w : W2) | fexp2 (w : W2) | flog2 (w : W2)
  | fsin (w : W2) | fcos (w : W2) | ftanh (w : W2) | fclass (w : W2) | frnd (w : W2)
  | cvt (fn : BitVec 3) (w : W3) | vdot (w : W3)
  | shfl (op : ShflOp) (w : W3)
  | voteAll (w : WPP) | voteAny (w : WPP) | voteMask (w : WRP) | voteSame (w : WPred)
  | reap (op : ReapOp) (w : W2)
  | rng (fn : BitVec 3) (w : WNoLa)
  | ld (w : WMem) | st (w : WMem) | lds (w : WMem) | sts (w : WMem)
  | atom (w : WMem) | atoms (w : WMem) | cas (w : WMem) | pref (w : WPref)
  | ldt (w : WTile) | stt (w : WTile) | stash (w : WTile)
  | mma (w : WMma) | smma (w : WMma)
  | accrd (w : WAcc) | accrdZero (w : WAcc) | accwr (w : WAcc) | accwrZero (s : Bool) (acc : BitVec 4) (x : Option XWord)
  | ldG (w : WMem) | stG (w : WMem)
  | bra (s : Bool) (p : BitVec 5) (neg : Bool) (off : BitVec 16) (lit : Option Word)
  | join (s : Bool)
  | call (s : Bool) (off : BitVec 16) (lit : Option Word)
  | ret (s : Bool)
  | jmpi (w : WSrc)
  | exit (s : Bool) (x : Option XWord)
  | barSync (s : Bool) (n : BitVec 4) (x : Option XWord)
  | barArrive (s : Bool) (n : BitVec 4) (x : Option XWord)
  | barWait (s : Bool) (n : BitVec 4) (x : Option XWord)
  | elect (s : Bool) | elend (s : Bool)
  | fork (w : WFork)
  | rdv (w : WSrc)
  | fence (w : WFence)
  | tfence (s : Bool)
  | wait (c : WaitCond) (w : WAddr2)
  | nop (s : Bool)
  | trap (s : Bool) (imm : BitVec 10) (lit : Option Word)
  | fmtset (w : W2) | fmtget (w : WNoLa)
  | fmtselSlot (s : Bool) (code : BitVec 6) (n : BitVec 2) (x : Option XWord)
  | fmtselReg (w : WSrc)
  | modeset (w : WSrc) | modesetRm (s : Bool) (rm : BitVec 3) (x : Option XWord) | modesetClr (w : WSrc)
  | ckpt (w : WAddr) | replay (w : WAddr) | replend (s : Bool)
  | qput (s : Bool) (d : BitVec 6) (stage : BitVec 6) (x : Option XWord)
  | qget (s : Bool) (d : BitVec 6) (x : Option XWord)
  | launch (w : WAddr)
  | icinv (w : WAddr2) | cflush (w : WAddr2) | cflushInv (w : WAddr2)
  | rngseed (g : BitVec 2) (w : W3)
  | bwsetMem (w : WSrc) | bwsetLink (w : WSrc)
  | tret (s : Bool) | rqrel (s : Bool)
  | pgmapL0 (w : WAddr2) | pgmapL1 (w : WAddr2)
  | tlbinv (w : WAddr) | tlbinvCtx (s : Bool) (x : Option XWord) | tlbinvAll (s : Bool) (x : Option XWord)
  | harvest (w : WAddr2)
  | setsr (w : W2)
  | cpy (dims : BitVec 2) (cv sg ss : Bool) (w : WEng)
  | rdst (bd : Bool) (w : WEng)
  | merge (ea eb ec : BitVec 4)
  | tmma (ovw : Bool) (w : WEng)
  | smv (wide : Bool) (w : WEng)
  | coll (op : CollOp) (red : BitVec 2) (ea eb ec : BitVec 4)
  | ewait (ea eb : BitVec 4) (cond : BitVec 4)
  | eloop (ea : BitVec 4) (off : BitVec 12)
  | eend
  | esig (ea eb : BitVec 4)
  -- host commands: command processor q (false 0, true 1) takes the entry at QHEAD (R287)
  | create (q : Bool) | destroy (q : Bool) | config (q : Bool) | submit (q : Bool) | cancel (q : Bool)
  | uncancel (q : Bool) | hostIcinv (q : Bool) | resync (q : Bool) | twclr (q : Bool)
  -- the management window (R302 to R304)
  | portreset (mask : BitVec 4)
  | qerrClear (q : Bool) (bits : Word)
  | queueConfigWrite (q : Bool) (size : Bool) (value : DWord)
  | registerWrite (offset : Nat) (value : BitVec 128)
  -- boot, firmware, trust (R23, R295 to R300)
  | deviceReset (rec : Record)
  | benchGroupStart
  | firmwareUpdate (img : Image) (interrupted : Bool)
  | recoveryImage (up : Upload) (rec : Record)
  | getVersion | getCapabilities | negotiateAlgorithms | getDigests
  | getCertificate (slot : BitVec 8) (off len : Nat)
  | challenge (slot : BitVec 8) (nonce : BitVec 256)
  | getMeasurements (index : BitVec 8) (nonce : BitVec 256)
  | keyExchange (nonce : BitVec 256) (session : BitVec 32)
  | finish (session : BitVec 32)
  | endSession (session : BitVec 32)
  | lockInterface (tdi ctx : Nat) (regions : List Region)
  | stopInterface (tdi : Nat)
  -- host link and host accesses (R279 to R282)
  | hostLinkTrain (cxl : Bool) (gen width : Nat)
  | hdmAccess (a : HostAccess)
  | bar2Access (a : HostAccess)
  -- the fabric (R292 to R294) and the second tier (R291)
  | peerAccess (r : PeerRequest)
  | peerTimeout (ag : Agent)
  | peerWriteAck (ag : Agent)
  | flitResend (link : FabricLink)
  | tierLinkDown (p : Fin 4)
  | expanderTimeout (p : Fin 4)
  | tierLinkUp (p : Fin 4)
  | tierTimeout (p : Fin 4)
  -- nodes, spans, gangs (R17, R130, R147, R155, R156)
  | nodeStart (ctx slot : Nat)
  | nodeComplete (launch : Nat)
  | spanJoin (launch group : Nat)
  | gangPlace (gang bench : Nat)
  | droverAction (die : Nat)
  | queueClose (launch : Nat)
  -- waits that end (R67, R154, R189, R190, R197, R199, R203, R232, R285)
  | barrierPhaseComplete (gang bar : Nat)
  | waitConditionMet (gang idx : Nat)
  | hostWaitReread (ag : Agent)
  | ewaitConditionMet (prog : Nat)
  | rdvReturn (gang idx : Nat)
  | queueRoom (gang idx : Nat)
  | forkSlotFree (gang idx : Nat)
  | loadReturn (gang idx k : Nat)
  | twinReadServed (ag : Agent)
  | twinTimeout (ag : Agent)
  -- pre-emption, evictions, errors, throttling (R20, R25, R169, R272, R274, R276, R278, R306)
  | preempt (gang : Nat)
  | resume (gang bench : Nat)
  | lineEviction (tier : Bool) (line : Nat) (uncorrectable : Bool)
  | correctedError (ctx : Nat) (addr : DWord)
  | machineCheck (gang idx : Nat)
  | deviceFatal
  | thermalThrottle (die : Nat)
  | powerThrottle (b : Block)
  | overtempStop (b : Block) (celsius : Nat)
  | dbell (q : Bool) (tail : Word)
  | startInterface (tdi : Nat)
  | tdiError (tdi : Nat)
  | launchIntakeRoom (gang idx : Nat)
  | collJoin (prog : Nat) (peer : CollPeer)
  deriving DecidableEq, Repr

end Sys2Proof
end

