-- ==== Sys2Proof/Machine/State.lean ====
section
/-! DEFINITION. The state of the Lysvar 4 as plain data, and the state after reset. INVENTORY.md lists each piece with
the rule that names it. The faults and refusals of the model stand at the end of the types. -/

namespace Sys2Proof.Machine

/-- A symbolic value base + sx·x + sy·y + sz·z over launch coordinates (R43). -/
structure Aff where
  base : DWord
  sx : DWord
  sy : DWord
  sz : DWord
  deriving DecidableEq, Repr

/-- A v register with its form tag (R43): U, A, the low or high half of an A pair, or L. -/
inductive Reg where
  | u (v : Word)
  | a (f : Aff)
  | aLo (f : Aff)
  | aHi (f : Aff)
  | l (v : Lanes)
  deriving DecidableEq, Repr

/-- The axes of a box (R48, R121). -/
inductive Axis where
  | x | y | z
  deriving DecidableEq, Repr

/-- A predicate with its form tag (R48): U, a range over one axis, or L. -/
inductive Pred where
  | u (b : Bool)
  | range (axis : Axis) (lo hi : Nat)
  | l (m : Mask)
  deriving DecidableEq, Repr

/-- A box of items: a lower corner and an extent on each axis (R121). -/
structure Box where
  ox : Nat
  oy : Nat
  oz : Nat
  ex : Nat
  ey : Nat
  ez : Nat
  deriving DecidableEq, Repr

/-- A generator: the key and counter of Philox4x32-10 (R59). -/
structure Gen where
  key : DWord
  ctr : BitVec 128
  deriving DecidableEq, Repr

/-- An entry of the reconvergence stack (R61). The low bits of the PC tell its kind: 0 a join (R131), 1 a path (R131),
2 a call (R319). -/
structure StackEntry where
  pc : DWord
  mask : Mask
  fmt : Word
  mode : Word
  deriving DecidableEq, Repr

/-- A register's part of a result that has not returned (R68). Registers 0 to 63 are v, 64 to 79 are k. A uniform part
is a U result of the whole register. -/
structure RegPart where
  reg : Nat
  mask : Mask
  vals : Lanes
  uniform : Bool
  deriving DecidableEq, Repr

/-- An outstanding result of a strip (R67): registers to be written when it returns, the lock bits that the mill clears
when it has read the registers of an MMA or SMMA (R66), the flags that the mill then sets (R115), and the tile it works on. -/
structure Landing where
  parts : List RegPart
  locks : BitVec 80
  flags : Word
  tile : Option Nat
  deriving DecidableEq, Repr

/-- Where an address leads (R245): device memory, the second tier, host memory, or a page of a peer's export window. -/
inductive Target where
  | device (pa : Nat)
  | tier (pa : Nat)
  | host (pa : Nat)
  | peer (slot off : Nat)
  deriving DecidableEq, Repr

/-- A part of an access that lies on one page: its virtual address and length, the page's leaf, and where it leads. -/
structure Seg where
  va : Nat
  len : Nat
  leaf : DWord
  tgt : Target
  deriving DecidableEq, Repr

/-- What a memory access of a strip does. -/
inductive AccKind where
  | load | store | atomic | cas | loadT | storeT | stash | save | restore
  deriving DecidableEq, Repr

/-- One lane's or one row's part of an access: its address, the bytes it writes or adds, the comparand of a CAS, the
addresses whose byte a higher lane of the same store has written already (R166), where it leads while it waits at its home
or a port, which it keeps (R254), and, once it has faulted, its cause, the address of the faulting byte and the walk report
(R251, R264). -/
structure LaneReq where
  lane : Nat
  addr : DWord
  len : Nat
  data : List Byte
  cmp : List Byte
  skip : List Nat
  held : List Seg
  cause : Nat
  at_ : DWord
  report : Word
  deriving DecidableEq, Repr

/-- A memory access of a strip, as it is performed at issue, waits, or stands in the replay queue (R264): pos is its
instruction's place in program order, replayed whether RQREL performs it (R267), and bench the bench whose L1 takes what it
writes (R168, R257), none for an access that is performed at its home. -/
structure Access where
  kind : AccKind
  pc : DWord
  pos : Nat
  replayed : Bool
  bench : Option Nat
  lanes : List LaneReq
  active : Mask
  dst : Nat
  regs : Nat
  size : Nat
  uniform : Bool
  whole : Bool
  op : Nat
  entry : Option DWord
  trans : Bool
  scope : Nat
  order : Nat
  nc : Bool
  last : Bool
  flt : Bool
  counts : Bool
  priv : Bool
  srcs : List Nat
  ftz : Bool
  since : DWord
  deriving DecidableEq, Repr

/-- Why a strip that has not issued its instruction waits (R159). drain is a CFLUSH or a TLBINV that waits for accesses or
write-backs on ports and at peers (R171, R254, R291). -/
inductive Reason where
  | barrier (n : Nat) | cond | reread | fence | queue | rdv | fork | intake | lock | ack | drain
  deriving DecidableEq, Repr

/-- What a strip waits for: nothing, a condition under which its instruction issues, a barrier phase after its arrival
(17 barriers: 16 is the recompute barrier), or memory accesses that wait at their home. -/
inductive Wait where
  | none
  | again (r : Reason) (i : Instr)
  | phase (bar n size : Nat)
  | access (l : List Access)
  deriving DecidableEq, Repr

/-- R293: the requests to peers that have had no response yet, each by its key and with the clock at which it was sent. The key
of a request is its virtual address; those of a command processor have 2^64 for each read of the object before it added. -/
abbrev Asked := List (Nat × DWord)

/-- A strip (R46, R50 to R64, R66 to R68, R134, R189, R263, R264). seq counts its memory accesses in program order, image
is the address of its image in the context's pool, 0 while it has none, and away are the 128 B lines of the image that the
register cache does not hold (R61, R62). asked are the requests of a fetch, of the read of a WAIT or of a LAUNCH that a peer
has not answered yet (R293). -/
structure Strip where
  idx : Nat
  live : Mask
  active : Mask
  pc : DWord
  regs : Vector Reg 64
  preds : Vector Pred 32
  kregs : Vector Lanes 16
  fmt : Word
  mode : Word
  fpstat : Word
  cause : Word
  faddr : Vector DWord 32
  fmask : Mask
  epc : DWord
  stack : List StackEntry
  gens : Vector Gen 4
  priv : Bool
  trapMask : Mask
  trapDepth : Nat
  elect : Option (Mask × Nat)
  staged : Option Word
  locks : BitVec 80
  lateFree : BitVec 64
  seq : Nat
  replay : List Access
  outstanding : List Landing
  parked : Bool
  wait : Wait
  retired : Bool
  halted : Bool
  stepped : Bool
  barPhase : Vector (Option Nat) 17
  withdrawn : Option Nat
  unacked : Nat
  image : Nat
  away : List Nat
  asked : Asked
  deriving DecidableEq, Repr

/-- A named barrier of a gang: the phase being counted and the strips that have arrived in it (R135, R189). -/
structure Bar where
  phase : Nat
  arrived : List Nat
  deriving DecidableEq, Repr

/-- The three users of the recompute barrier (R237). -/
inductive RecOp where
  | ckpt | replay | replend
  deriving DecidableEq, Repr

/-- An arrival at the recompute barrier: the strip, its mnemonic and its U pair (R237). -/
structure RecArrival where
  strip : Nat
  op : RecOp
  addr : DWord
  deriving DecidableEq, Repr

/-- A token of a gang: its value, its slot of the sixteen, the program it names, whether one RDV on it has returned
(which frees the slot once the program ended) and whether a later FORK has taken the slot (R198, R199). -/
structure Token where
  value : Word
  slot : Nat
  prog : Nat
  collected : Bool
  overtaken : Bool
  deriving DecidableEq, Repr

/-- An accumulator tile: 16 rows of 16 elements, element (i, j) at 16·i + j (R56, R116). -/
abbrev Tile := Vector (BitVec 48) 256

/-- Where a gang is resident: the bench, its first residency slot and the clock at which it was placed (R17, R158). -/
structure Place where
  bench : Nat
  slot : Nat
  age : DWord
  deriving DecidableEq, Repr

/-- A gang (R56, R123, R127, R135, R164, R165, R198, R238). scratchOld has a bit for each byte value that a byte of its
scratchpad which it has not written may hold besides 0 (R165). -/
structure Gang where
  id : Nat
  ctx : Nat
  launch : Nat
  stage : Nat
  tile : Nat
  cx : Nat
  cy : Nat
  cz : Nat
  box : Box
  die : Nat
  place : Option Place
  saved : Bool
  strips : List Strip
  scratch : List Host.Cell
  scratchOld : BitVec 256
  tiles : List Tile
  bars : Vector Bar 16
  recompute : List RecArrival
  recPhase : Nat
  replayMode : Bool
  tokens : List Token
  nextToken : Nat
  deriving DecidableEq, Repr

/-- A join-stack entry of a span: the JOIN address and the join group (R128, R130). -/
structure JoinEntry where
  pc : DWord
  group : Nat
  deriving DecidableEq, Repr

/-- A span (R124). asked are the requests of a fetch that a peer has not answered yet (R293). -/
structure Span where
  id : Nat
  ctx : Nat
  launch : Nat
  stage : Nat
  die : Nat
  box : Box
  pc : DWord
  regs : Vector Reg 64
  preds : Vector Pred 32
  fmt : Word
  mode : Word
  fpstat : Word
  joins : List JoinEntry
  waiting : Bool
  asked : Asked
  deriving DecidableEq, Repr

/-- The engine classes (R197). -/
inductive EngClass where
  | mill | cart | weav | full
  | stack (n : Nat)
  deriving DecidableEq, Repr

/-- What an engine program is doing (R199, R200, R203, R214): running, waiting to perform its current word, in a
collective with its own part, those of the ranks that have joined and the count words that its command has used (R225),
ended, or stopped with its sub-cause, the faulting address and the address of the stopping word. -/
inductive ProgStatus where
  | running
  | waiting (i : Instr)
  | collective (i : Instr) (own : CollPeer) (joined : List CollPeer) (seen : List Nat)
  | ended
  | stopped (sub : Nat) (addr : DWord) (word : DWord)
  deriving DecidableEq, Repr

/-- An engine program (R58, R197 to R201). table is the format table as its current command took it when it started
(R109), and held are the parts of its reads that wait at their home for an OPEN block, which keep where they lead (R254).
since is the clock at which its command began to wait, and asked are the requests of a fetch or of its command that a peer
has not answered yet (R293). added is the address of the barrier word of an RDST.BD that has made its additions and
waits for peers to acknowledge them (R206, R294). -/
structure Prog where
  id : Nat
  ctx : Nat
  launch : Nat
  gang : Nat
  strip : Nat
  die : Nat
  cls : EngClass
  unit_ : Nat
  pc : DWord
  e : Vector DWord 16
  scope : Nat
  priv : Bool
  replay : Bool
  fmt : Word
  gen : Gen
  status : ProgStatus
  since : DWord
  saved : Bool
  unacked : Nat
  table : Vector DWord 48
  held : List Seg
  asked : Asked
  added : Option DWord
  deriving DecidableEq, Repr

/-- The terminal and other states of a node (R144). -/
inductive NodeState where
  | submitted | waiting | running | done | cancelled | failed
  deriving DecidableEq, Repr

/-- A node record as the command processor read it at submission (R144, R145). -/
structure NodeRec where
  header : DWord
  args : DWord
  pgt : DWord
  box : Box
  token : Nat
  acct : Nat
  slot : Nat
  pred : Nat
  succs : List Nat
  deriving DecidableEq, Repr

/-- A submitted node: the address of its record, the record, its state, and its place in the order of becoming ready
(R146, R147). -/
structure Node where
  addr : DWord
  rcd : NodeRec
  state : NodeState
  readyAt : Option Nat
  deriving DecidableEq, Repr

/-- A node slot of a context with its signed 32-bit counter (R146). -/
structure Slot where
  num : Nat
  counter : BitVec 32
  node : Option Node
  deriving DecidableEq, Repr

/-- A stage's input queue: records of sixteen words, oldest first (R153, R154). -/
structure StageQueue where
  depth : Nat
  recs : List (List Word)
  closed : Bool
  deriving DecidableEq, Repr

/-- A kernel header as the command processor read it (R69). -/
structure Header where
  w16 : Bool
  cores : Bool
  nfw : Bool
  regs : Nat
  acc : Nat
  stages : Nat
  scratch : Nat
  gx : Nat
  gy : Nat
  gz : Nat
  entries : List Word
  depths : List Nat
  presets : List (Nat × DWord)
  deriving DecidableEq, Repr

/-- The copy of the process-group table that a launch holds: this device's rank, the ranks, and PREV and NEXT of each
rank (R141, R142). -/
structure Group where
  rank : Nat
  nrank : Nat
  group : DWord
  links : List (DWord × Nat × Nat)
  deriving DecidableEq, Repr

/-- A started launch (R147, R151, R153, R155), with the stage weights that the Drover of each die holds (R157) and the
agents that have retired or stopped with a peer's acknowledgement of their writes outstanding, one entry for each (R294).
ends is the terminal state with its code that a launch which has been stopped takes once they are acknowledged. -/
structure Launch where
  id : Nat
  ctx : Nat
  slot : Nat
  addr : DWord
  rcd : NodeRec
  hdr : Header
  group : Group
  queues : List StageQueue
  nfr : Bool
  weights : Vector (List Nat) 4
  unacked : List Agent
  ends : Option (NodeState × Nat)
  deriving DecidableEq, Repr

/-- The fields of a context block that the device uses (R286). -/
structure Block286 where
  ptroot : DWord
  handler : DWord
  wglog : Bool
  sstep : Bool
  twto : Word
  logbase : DWord
  logsize : DWord
  brk0 : DWord
  brk1 : DWord
  quota : Word
  hostacct : Nat
  pool : DWord
  poolsize : DWord
  peertab : DWord
  npeer : Nat
  errlog : DWord
  errsize : DWord
  expbase : DWord
  deriving DecidableEq, Repr

/-- What the saved context keeps of the halted strip of a fatal trap (R272). -/
structure FatalReport where
  cause : Word
  epc : DWord
  fmask : Mask
  inner : Nat
  deriving DecidableEq, Repr

/-- A context (R98, R105, R145, R146, R149, R215, R241, R286). starting is the place, in the order of becoming ready, of the
node whose start waits for memory, if one does, with the requests that a peer has not answered yet (R291, R293). -/
structure Ctx where
  id : Nat
  cp : Bool
  cfg : Block286
  pending : Option Block286
  root : DWord
  fmtTable : Vector DWord 48
  weights : Vector Word 4
  linkWeight : Word
  cancelSet : List Nat
  slots : List Slot
  readySeq : Nat
  intake : Nat
  starting : Option (Nat × Asked)
  fatal : Option FatalReport
  deriving DecidableEq, Repr

/-- A dirty line: its address in units of 128 B, the bytes that its backing memory holds, and the account of the access
that dirtied it last, none for one that no account is charged for (R168, R301). -/
structure DirtyLine where
  line : Nat
  old : List Byte
  acct : Option Nat
  deriving DecidableEq, Repr

/-- A memory with what the caches hold of it (R168, R169, R257, R278): the bytes that every agent reads, the lines that
differ from their backing memory, the lines that an L1 owns, each as a bench and a line, the poisoned sectors as ranges in
units of 32 B (the first sector and how many), and the write marks of 4 KiB frames. -/
structure Ram where
  cells : List Host.Cell
  dirty : List DirtyLine
  owned : List (Nat × Nat)
  poison : List (Nat × Nat)
  marks : List Nat
  deriving DecidableEq, Repr

/-- A cached translation (R252): the first page and the size of the page it serves, and the leaf it was built from. -/
structure TlbEntry where
  ctx : Nat
  base : Nat
  size : Nat
  leaf : DWord
  deriving DecidableEq, Repr

/-- A walk-cache entry (R252): the address bits above shift that it serves, and where the walk goes on. -/
structure WalkEntry where
  ctx : Nat
  top : Nat
  shift : Nat
  node : Nat
  level : Nat
  merged : Bool
  deriving DecidableEq, Repr

/-- A fetch line of a bench (R96, R259): its virtual line number and words. -/
structure FetchLine where
  bench : Nat
  ctx : Nat
  line : Nat
  words : List Word
  deriving DecidableEq, Repr

/-- A decoded operation of a bench (R96): the context and the address that filled it, and the instruction's words. -/
structure Decoded where
  bench : Nat
  ctx : Nat
  va : Nat
  words : List Word
  deriving DecidableEq, Repr

/-- A write of STATE, CODE or NFR that the command processor has to make and whose memory does not answer yet (R291, R293,
R371): the record, the address and bytes, the node's slot and account, and the clock at which it began to wait. -/
structure CpWrite where
  ctx : Nat
  rcd : DWord
  addr : DWord
  bytes : List Byte
  slot : Option Nat
  acct : Nat
  since : DWord
  deriving DecidableEq, Repr

/-- A command queue of a command processor (R302, R304). asked are the requests of its next command that a peer has not
answered yet (R293). -/
structure Queue where
  base : DWord
  size : Nat
  head : Nat
  tail : Nat
  cfgErr : Bool
  tailErr : Bool
  asked : Asked
  deriving DecidableEq, Repr

/-- The state of a second-tier port (R290, R291), with the clock at which TIERTO expires. -/
inductive Port where
  | up
  | retrain (deadline : DWord)
  | failed
  deriving DecidableEq, Repr

/-- The host link (R279): down, or trained with its mode, generation and width. -/
inductive HostLink where
  | down
  | up (cxl : Bool) (gen width : Nat)
  deriving DecidableEq, Repr

/-- An account's counters (R301). -/
structure Account where
  bench : DWord
  macs : DWord
  hbmrd : DWord
  hbmwr : DWord
  fabric : DWord
  energy : DWord
  deriving DecidableEq, Repr

/-- What this device sees of one exporting context of a peer (R292, R293): its window's bytes, the pages on which the
peer answers with a fault, and whether the peer answers at all. -/
structure Peer where
  devid : DWord
  xctx : Nat
  cells : List Host.Cell
  faults : List (Nat × Nat)
  answers : Bool
  deriving DecidableEq, Repr

/-- The states of a TDI (R298). -/
inductive TdiState where
  | locked | run | stopped
  deriving DecidableEq, Repr

/-- A TDI with its context, its regions and one key for each (R298). -/
structure Tdi where
  num : Nat
  ctx : Nat
  regions : List Region
  keys : List (BitVec 512)
  state : TdiState
  deriving DecidableEq, Repr

/-- The SPDM connection (R297). -/
structure Spdm where
  version : Nat
  caps : Bool
  algs : Bool
  pendingSession : Option (BitVec 32)
  session : Option (BitVec 32)
  deriving DecidableEq, Repr

/-- The algorithms that the responder selects (R297). -/
inductive Algorithm where
  | ecdsaP384 | sha384 | ecdheP384 | aes256Gcm
  deriving DecidableEq, Repr

/-- What the DOE mailbox last answered (R297, R298, R300). -/
inductive Doe where
  | none
  | error
  | versions (v : List Nat)
  | capabilities
  | algorithms (l : List Algorithm)
  | digests (slots : BitVec 8) (digest : BitVec 384)
  | certificate (bytes : List Byte) (rest : Nat)
  | challengeAuth (slot : BitVec 8) (signature : BitVec 768)
  | measurements (vals : List (Nat × BitVec 384)) (signature : BitVec 768)
  | keyExchangeRsp (session : BitVec 32) (signature : BitVec 768)
  | done
  deriving DecidableEq, Repr

/-- What the host last got from a memory access (R280, R282, R298). -/
inductive HostReply where
  | none
  | bytes (b : List Byte)
  | done
  | poison
  | refused
  deriving DecidableEq, Repr

/-- What one lane of a peer's request was answered (R293): bytes, an acknowledged write, a fault with its cause, or
nothing yet because its twin block is OPEN. -/
inductive PeerLaneReply where
  | bytes (b : List Byte)
  | ack
  | fault (cause : Nat)
  | waits
  deriving DecidableEq, Repr

/-- A peer's request of which some lanes wait at their home for an OPEN block (R232, R293): those lanes, which keep where they
lead (R254), and what the others were answered. -/
structure PeerWait where
  req : PeerRequest
  lanes : List LaneReq
  replies : List PeerLaneReply
  deriving DecidableEq, Repr

/-- The assay processor and the flash (R295, R296, R299, R300): the boot number from which identity values are drawn, its
own firmware, the image in flash and whether its last write was whole, the record in force, and the four measurements. -/
structure Assay where
  boots : Nat
  own : Image
  flash : Image
  flashWhole : Bool
  rcd : Record
  measurements : List (BitVec 384)
  deriving DecidableEq, Repr

/-- The device-wide state (R20, R23, R25, R54, R176, R221, R279 to R306). -/
structure Device where
  ready : Bool
  recovery : Bool
  fatal : Bool
  stopped : Bool
  groups : Nat
  devid : DWord
  c128 : Bool
  twpool : Word
  tierto : Nat
  rowctl : Vector Word 4
  defport : BitVec 12
  routes : List (Nat × BitVec 128)
  q0 : Queue
  q1 : Queue
  accounts : Vector Account 64
  ports : Vector Port 4
  fabricPorts : Vector Bool 12
  link : HostLink
  assay : Assay
  spdm : Spdm
  tdis : List Tdi
  dumped : Bool
  hot : List Nat
  throttled : List Block
  deriving DecidableEq, Repr

/-- Which agent has the turn (the model's own, log 1), or what the host does: it reads a register of the window, or puts a message
of an SPDM version into the DOE mailbox. -/
inductive Turn where
  | issue (ag : Agent)
  | event (i : Instr)
  | queue (q : Bool)
  | readRegister (offset : Nat)
  | mail (version : BitVec 8)
  | idle
  deriving DecidableEq, Repr

/-- The state of one Lysvar 4 package, with the memories it reaches. benchCtx is the context of each bench that has had
one and benchChanged the benches that have changed context (R165, R277), wrote has for each context a bit for each byte
value that an agent of it has written (R165), cpWrites are the writes that the command processors have yet to make, peerWaits
the requests of peers that wait here, and mail is the SPDM version of the message in the DOE mailbox (R297). -/
structure State where
  clock : DWord
  dev : Device
  device : Ram
  tier : Ram
  host : List Host.Cell
  peers : List Peer
  ctxs : List Ctx
  launches : List Launch
  spans : List Span
  gangs : List Gang
  progs : List Prog
  benchCtx : List (Nat × Nat)
  benchChanged : List Nat
  wrote : List (Nat × BitVec 256)
  cpWrites : List CpWrite
  tlb : List TlbEntry
  walks : List WalkEntry
  fetched : List FetchLine
  decoded : List Decoded
  nextId : Nat
  hostReply : HostReply
  peerReply : List PeerLaneReply
  peerWaits : List PeerWait
  doe : Doe
  mail : BitVec 8
  tick : Nat
  cur : Agent
  schedule : List (Nat × Turn)
  deriving DecidableEq, Repr

/-- Why the machine stops. -/
inductive Fault where
  /-- exec is asked to run a word, but no strip, span or engine program has the turn. Raised by every meaning of a word.
  Safe: no state that a step leads to an issue from is like it. -/
  | noIssuer
  deriving DecidableEq, Repr

/-- Why the model refuses. -/
inductive Refusal where
  /-- The instruction has no meaning yet. Raised by arms of exec. Safe. -/
  | notModelled (mnemonic : String)
  deriving DecidableEq, Repr

/-- The outcome of a step of this machine. -/
abbrev Out := Host.Outcome State Fault Refusal

/-- An empty memory. -/
def Ram.empty : Ram := Ram.mk [] [] [] [] []

/-- A command queue after reset (R302). -/
def Queue.reset : Queue := Queue.mk 0 0 0 0 false false []

/-- An account after reset (R301). -/
def Account.reset : Account := Account.mk 0 0 0 0 0 0

/-- The firmware image that flash holds at first (log 3). -/
def Image.initial : Image := Image.mk true 0 0

/-- The configuration record in force at first: no twin pool, no dump region (log 3). -/
def Record.initial : Record := Record.mk true 0 [] 0 0 0 0

/-- The device-wide state right after reset (R23, R301, R302); log 3 names what the spec gives no value for. -/
def Device.reset : Device where
  ready := false
  recovery := false
  fatal := false
  stopped := false
  groups := 0
  devid := 0
  c128 := false
  twpool := 0
  tierto := 50
  rowctl := Vector.replicate 4 0x1040
  defport := 0
  routes := []
  q0 := Queue.reset
  q1 := Queue.reset
  accounts := Vector.replicate 64 Account.reset
  ports := Vector.replicate 4 Port.up
  fabricPorts := Vector.replicate 12 true
  link := HostLink.down
  assay := Assay.mk 0 Image.initial Image.initial true Record.initial []
  spdm := Spdm.mk 0 false false none none
  tdis := []
  dumped := false
  hot := []
  throttled := []

/-- The machine right after reset: no context, nothing resident, memory with nothing listed. -/
def State.reset : State where
  clock := 0
  dev := Device.reset
  device := Ram.empty
  tier := Ram.empty
  host := []
  peers := []
  ctxs := []
  launches := []
  spans := []
  gangs := []
  progs := []
  benchCtx := []
  benchChanged := []
  wrote := []
  cpWrites := []
  tlb := []
  walks := []
  fetched := []
  decoded := []
  nextId := 0
  hostReply := HostReply.none
  peerReply := []
  peerWaits := []
  doe := Doe.none
  mail := 0x13
  tick := 0
  cur := Agent.nobody
  schedule := []

end Sys2Proof.Machine
end

