-- ==== Sys2Proof/Machine/Memory.lean ====
section
/-! DEFINITION. Bytes of memory in canonical form, little-endian words (R2), and what the caches hold of a memory
(R168 to R171, R257, R278). -/

namespace Sys2Proof.Machine

/-- What an address that memory does not list reads as (log 2). -/
def unlisted : Byte := 0

/-- The byte at an address. -/
def cellGet : List Host.Cell → Nat → Byte
  | [], _ => unlisted
  | (x, b) :: r, a => if a = x then b else cellGet r a

/-- Writes a byte, keeping the canonical form. -/
def cellPut : List Host.Cell → Nat → Byte → List Host.Cell
  | [], a, v => if v = unlisted then [] else [(a, v)]
  | (x, b) :: r, a, v =>
    if a < x then (if v = unlisted then (x, b) :: r else (a, v) :: (x, b) :: r)
    else if a = x then (if v = unlisted then r else (a, v) :: r)
    else (x, b) :: cellPut r a v

/-- Writes a byte without the rule for unlisted bytes: the scratchpad, whose bytes start at free values (R165). -/
def cellSet : List Host.Cell → Nat → Byte → List Host.Cell
  | [], a, v => [(a, v)]
  | (x, b) :: r, a, v =>
    if a < x then (a, v) :: (x, b) :: r else if a = x then (a, v) :: r else (x, b) :: cellSet r a v

/-- Addresses strictly rising from lo, and no byte equal to what an unlisted address reads as. -/
def wfFrom : Nat → List Host.Cell → Bool
  | _, [] => true
  | lo, (x, b) :: r => decide (lo ≤ x) && b != unlisted && wfFrom (x + 1) r

/-- The canonical form of a memory. -/
def Memory.wf (m : List Host.Cell) : Bool := wfFrom 0 m

/-- n bytes from an address upwards. -/
def cellsRead (m : List Host.Cell) (a : Nat) : Nat → List Byte
  | 0 => []
  | n + 1 => cellGet m a :: cellsRead m (a + 1) n

/-- Writes bytes from an address upwards. -/
def cellsWrite (m : List Host.Cell) (a : Nat) : List Byte → List Host.Cell
  | [] => m
  | b :: r => cellsWrite (cellPut m a b) (a + 1) r

/-- The number of a little-endian byte list (R2). -/
def ofBytes : List Byte → Nat
  | [] => 0
  | b :: r => b.toNat + 256 * ofBytes r

/-- n little-endian bytes of a number (R2). -/
def toBytes (v : Nat) : Nat → List Byte
  | 0 => []
  | n + 1 => BitVec.ofNat 8 v :: toBytes (v / 256) n

/-- The first whole multiple of unit at or below a, in units. -/
def firstUnit (unit a : Nat) : Nat := a / unit

/-- The numbers of the units that a range of len bytes at a touches. -/
def unitsOf (unit a len : Nat) : List Nat :=
  if len = 0 then [] else
    (List.range ((a + len - 1) / unit - a / unit + 1)).map (a / unit + ·)

/-- Adds the elements that a list does not hold yet. -/
def addNew (xs : List Nat) (l : List Nat) : List Nat :=
  xs.foldl (fun l x => if l.contains x then l else l ++ [x]) l

/-- A line's number, and the bytes that a memory holds of it. -/
def lineBytes (m : List Host.Cell) (line : Nat) : List Byte := cellsRead m (128 * line) 128

/-- Marks the lines of a range dirty: each new one keeps the bytes that its backing memory holds (R168), and no account is
charged for it until one claims it. -/
def Ram.dirtied (r : Ram) (a len : Nat) : List DirtyLine :=
  (unitsOf 128 a len).foldl
    (fun d n => if d.any (·.line == n) then d else d ++ [DirtyLine.mk n (lineBytes r.cells n) none]) r.dirty

/-- The account to which the write-backs of the lines of a range are charged from now on, or none (R301). -/
def Ram.claim (r : Ram) (acct : Option Nat) (a len : Nat) : Ram :=
  { r with dirty := r.dirty.map fun d =>
      if 128 * d.line < a + len ∧ a < 128 * d.line + 128 then { d with acct := acct } else d }

/-- The frame of a line. -/
def frameOfLine (line : Nat) : Nat := line / 32

/-- L1 copies of lines for which test holds are written back to the home: the write marks of their frames are set, and the
home has granted ownership of them to no L1 (R168, R257). -/
def Ram.recall (r : Ram) (test : Nat × Nat → Bool) : Ram :=
  if r.owned.any test then
    { r with
      owned := r.owned.filter fun o => !test o
      marks := addNew ((r.owned.filter test).map fun o => frameOfLine o.2) r.marks }
  else r

/-- Whether an L1 other than the one named owns a line of a range. -/
def ownedElsewhere (bench : Option Nat) (a len : Nat) (o : Nat × Nat) : Bool :=
  some o.1 != bench && decide (128 * o.2 < a + len) && decide (a < 128 * o.2 + 128)

/-- Writes bytes at their home: the bytes, the dirty lines and the write marks; no L1 owns the lines then (R21, R168,
R257). -/
def Ram.write (r : Ram) (a : Nat) (bs : List Byte) : Ram :=
  { r with
    cells := cellsWrite r.cells a bs
    dirty := r.dirtied a bs.length
    owned := r.owned.filter fun o => !ownedElsewhere none a bs.length o
    marks := addNew (unitsOf 4096 a bs.length) r.marks }

/-- Writes bytes in the L1 of a bench, which the home grants ownership of the lines that it does not own yet; the grant sets
the write marks of their frames (R168, R257). -/
def Ram.writeOwned (r : Ram) (bench a : Nat) (bs : List Byte) : Ram :=
  let granted := (unitsOf 128 a bs.length).filter fun n => !r.owned.contains (bench, n)
  { r with
    cells := cellsWrite r.cells a bs
    dirty := r.dirtied a bs.length
    owned := granted.map (fun n => (bench, n)) ++ r.owned.filter fun o => !ownedElsewhere (some bench) a bs.length o
    marks := addNew (granted.map frameOfLine) r.marks }

/-- Bytes at their home. -/
def Ram.read (r : Ram) (a n : Nat) : List Byte := cellsRead r.cells a n

/-- Whether a range touches a poisoned sector (R278). -/
def Ram.poisoned (r : Ram) (a len : Nat) : Bool :=
  len != 0 && r.poison.any fun p => decide (32 * p.1 < a + len) && decide (a < 32 * (p.1 + p.2))

/-- The first byte of a range that lies in a poisoned sector (R261, R278). -/
def Ram.firstPoison (r : Ram) (a len : Nat) : Option Nat :=
  (unitsOf 32 a len).findSome? fun n =>
    if r.poison.any fun p => decide (p.1 ≤ n) && decide (n < p.1 + p.2) then some (if 32 * n < a then a else 32 * n) else none

/-- Whether every byte of a sector lies in one of the ranges written. -/
def sectorCovered (ranges : List (Nat × Nat)) (sector : Nat) : Bool :=
  (List.range 32).all fun i =>
    ranges.any fun (a, n) => decide (a ≤ 32 * sector + i) && decide (32 * sector + i < a + n)

/-- A range of sectors without one of them. -/
def cutSector (k : Nat) (p : Nat × Nat) : List (Nat × Nat) :=
  if k < p.1 ∨ p.1 + p.2 ≤ k then [p]
  else [(p.1, k - p.1), (k + 1, p.1 + p.2 - (k + 1))].filter fun q => q.2 != 0

/-- A store that writes every byte of a poisoned sector clears its poison (R278). -/
def Ram.unpoison (r : Ram) (ranges : List (Nat × Nat)) : Ram :=
  if r.poison.isEmpty then r
  else
    let whole := (ranges.flatMap fun p => unitsOf 32 p.1 p.2).filter (sectorCovered ranges)
    { r with poison := whole.foldl (fun l k => l.flatMap (cutSector k)) r.poison }

/-- Poisons the sectors of a range (R278, R298). -/
def Ram.addPoison (r : Ram) (a len : Nat) : Ram :=
  if len = 0 then r else { r with poison := (a / 32, (a + len - 1) / 32 - a / 32 + 1) :: r.poison }

/-- Writes a dirty line back, from the L1 that owns it to its home and from there: its backing memory now holds what it
reads as (R168, R171, R257). -/
def Ram.writeBack (r : Ram) (line : Nat) : Ram :=
  { (r.recall fun o => o.2 == line) with dirty := r.dirty.filter (·.line != line) }

/-- Discards a line without write-back (R170): each byte is then the cached one or the one in backing memory, and which
is left open (log 6). -/
def Ram.discard (r : Ram) (line tick : Nat) : Ram :=
  match r.dirty.find? (·.line == line) with
  | none => r
  | some d =>
    let new := (List.range 128).map fun i =>
      Config.pick (tick + i) (cellGet r.cells (128 * line + i)) (d.old.getD i 0)
    { r with
      cells := cellsWrite r.cells (128 * line) new
      dirty := r.dirty.filter (·.line != line)
      owned := r.owned.filter (·.2 != line) }

/-- A device reset loses every dirty line (R171). -/
def Ram.afterReset (r : Ram) : Ram :=
  { cells := r.dirty.foldl (fun m d => cellsWrite m (128 * d.line) d.old) r.cells
    dirty := []
    owned := []
    poison := r.poison
    marks := [] }

/-- The 32-bit and 64-bit words at a device physical address. -/
def Ram.word (r : Ram) (a : Nat) : Word := BitVec.ofNat 32 (ofBytes (r.read a 4))
def Ram.dword (r : Ram) (a : Nat) : DWord := BitVec.ofNat 64 (ofBytes (r.read a 8))

/-- Writes n little-endian bytes of a number. -/
def Ram.putNat (r : Ram) (a v n : Nat) : Ram := r.write a (toBytes v n)

end Sys2Proof.Machine
end

