-- ==== Sys2Proof/Machine/Base.lean ====
section
/-! DEFINITION. The objects of the state by their names: contexts, launches, gangs, strips, spans, programs, and the
numbers of the package that rules use (R10 to R17, R197). -/

namespace Sys2Proof.Machine

/-- The elements that satisfy p, changed by f. -/
def mapWhere {α : Type} (p : α → Bool) (f : α → α) (l : List α) : List α := l.map fun x => if p x then f x else x

/-- Element i of a vector, or d where i is outside it. -/
def vget {α : Type} {n : Nat} (v : Vector α n) (i : Nat) (d : α) : α := if h : i < n then v[i] else d

/-- A vector with element i replaced; unchanged where i is outside it. -/
def vset {α : Type} {n : Nat} (v : Vector α n) (i : Nat) (x : α) : Vector α n :=
  if h : i < n then v.set i x else v

/-- The compute die of a bench and of a stack (R10, R13). -/
def dieOfBench (b : Nat) : Nat := b / 48
def dieOfStack (n : Nat) : Nat := n / 4

/-- The number of benches (R13) and of the benches that have started (R23). -/
def benchCount : Nat := 192
def State.benchesStarted (s : State) : Nat := 8 * s.dev.groups

/-- A free choice's number: the next one, and the state that has used it. -/
def State.bump (s : State) (n : Nat) : State := { s with tick := s.tick + n }

def State.ctx? (s : State) (c : Nat) : Option Ctx := s.ctxs.find? (·.id == c)
def State.launch? (s : State) (i : Nat) : Option Launch := s.launches.find? (·.id == i)
def State.gang? (s : State) (i : Nat) : Option Gang := s.gangs.find? (·.id == i)
def State.span? (s : State) (i : Nat) : Option Span := s.spans.find? (·.id == i)
def State.prog? (s : State) (i : Nat) : Option Prog := s.progs.find? (·.id == i)
def Gang.strip? (g : Gang) (i : Nat) : Option Strip := g.strips.find? (·.idx == i)
def State.strip? (s : State) (g i : Nat) : Option Strip := (s.gang? g).bind (·.strip? i)

def State.mapCtx (s : State) (c : Nat) (f : Ctx → Ctx) : State := { s with ctxs := mapWhere (·.id == c) f s.ctxs }
def State.mapLaunch (s : State) (i : Nat) (f : Launch → Launch) : State :=
  { s with launches := mapWhere (·.id == i) f s.launches }
def State.mapGang (s : State) (i : Nat) (f : Gang → Gang) : State := { s with gangs := mapWhere (·.id == i) f s.gangs }
def State.mapSpan (s : State) (i : Nat) (f : Span → Span) : State := { s with spans := mapWhere (·.id == i) f s.spans }
def State.mapProg (s : State) (i : Nat) (f : Prog → Prog) : State := { s with progs := mapWhere (·.id == i) f s.progs }
def Gang.mapStrip (g : Gang) (i : Nat) (f : Strip → Strip) : Gang :=
  { g with strips := mapWhere (·.idx == i) f g.strips }
def State.mapStrip (s : State) (g i : Nat) (f : Strip → Strip) : State := s.mapGang g (·.mapStrip i f)

/-- Replaces a strip of a gang. -/
def State.setStrip (s : State) (g : Nat) (t : Strip) : State := s.mapStrip g t.idx fun _ => t

/-- The block in force of a context; an unknown context has an empty one. -/
def Block286.empty : Block286 := Block286.mk 0 0 false false 0 0 0 0 0 0 0 0 0 0 0 0 0 0
def State.cfg (s : State) (c : Nat) : Block286 := ((s.ctx? c).map (·.cfg)).getD Block286.empty

/-- The twin pool (R221): its base, its size, and the end of its frame part. -/
def State.poolBase (s : State) : Nat := bitsOf s.dev.twpool.toNat 0 16 * 2 ^ 24
def State.poolSize (s : State) : Nat := bitsOf s.dev.twpool.toNat 16 16 * 2 ^ 24
def State.frameEnd (s : State) : Nat := s.poolBase + 7 * s.poolSize / 8

/-- The device address that backs the count word of the twin sector at x (R221). -/
def State.countAddr (s : State) (x : Nat) : Nat := s.frameEnd + 4 * ((x - s.poolBase) / 32)

/-- Clocks in a millisecond (R54), and whether so many milliseconds have passed since a clock. -/
def clocksPerMs : Nat := 2000000
def elapsed (s : State) (since : DWord) (ms : Nat) : Bool := decide (ms * clocksPerMs ≤ (s.clock - since).toNat)

/-- Whether a peer's response, waited for since a clock, has not come in time (R293). -/
def peerOverdue (s : State) (since : Option DWord) : Bool := (since.map fun t => elapsed s t 200).getD false

/-- The clock at which the request with a key was sent, if it has no response yet, and the requests that wait now: one that has
waited keeps its clock (R293). -/
def Asked.at_ (l : Asked) (k : Nat) : Option DWord := (l.find? (·.1 == k)).map (·.2)
def Asked.still (l : Asked) (s : State) (ks : List Nat) : Asked := ks.map fun k => (k, (l.at_ k).getD s.clock)

/-- Lane l of a mask, and the mask of a predicate on lanes. -/
def laneIn (m : Mask) (l : Nat) : Bool := m.getLsbD l
def maskOf (p : Nat → Bool) : Mask :=
  BitVec.ofNat 32 ((List.range 32).foldl (fun a l => if p l then a + 2 ^ l else a) 0)

/-- The lanes of a mask, lowest first. -/
def lanesOf (m : Mask) : List Nat := (List.range 32).filter (laneIn m)

/-- The little-endian word in a list of bytes. -/
def wordOf (bs : List Byte) : Word := BitVec.ofNat 32 (ofBytes bs)
def dwordOf (bs : List Byte) : DWord := BitVec.ofNat 64 (ofBytes bs)

/-- The low and high halves of a 64-bit value, and the value of two halves (R42). -/
def loOf (v : DWord) : Word := v.extractLsb' 0 32
def hiOf (v : DWord) : Word := v.extractLsb' 32 32
def join64 (lo hi : Word) : DWord := hi ++ lo

end Sys2Proof.Machine
end

