-- ==== Sys2Proof/Machine/Flags.lean ====
section
/-! DEFINITION. The sticky flags of R115 and the one rounding procedure of R110 to R113 that raises them. -/

namespace Sys2Proof.Machine

/-- The bits of FPSTAT (R52). -/
def flagIV : Word := 1
def flagDZ : Word := 2
def flagOF : Word := 4
def flagUF : Word := 8
def flagNX : Word := 16
def flagNF : Word := 32

/-- A flag, or none. -/
def flagIf (b : Bool) (f : Word) : Word := if b then f else 0

/-- The rounding modes by code (R77): 1 RNE, 2 RZ, 3 RU, 4 RD, 5 RNA, 6 SR. Whether the larger neighbour is taken, for
a value rem / den of the way from the smaller to the larger, the smaller one's code odd or not, and the drawn word
(R112). -/
def roundUp (mode : Nat) (neg odd : Bool) (rem den : Nat) (w : Word) : Bool :=
  match mode with
  | 1 => decide (2 * rem > den) || (2 * rem == den && odd)
  | 3 => !neg && rem != 0
  | 4 => neg && rem != 0
  | 5 => decide (2 * rem ≥ den) && rem != 0
  | 6 => decide (w.toNat < 2 ^ 32 * rem / den)
  | _ => false

/-- A magnitude cut at 2^q: the whole multiples, the rest, and what the rest is a part of. -/
def cutAt (m : Nat) (e q : Int) : Nat × Nat × Nat :=
  if q ≤ e then (m * 2 ^ (e - q).toNat, 0, 1)
  else
    let d := (q - e).toNat
    (m / 2 ^ d, m % 2 ^ d, 2 ^ d)

/-- The exponent of the unit in the last place of an entry at exponent E, before the bottom of the range is reached. -/
def Ent.ulp (f : Ent) (e : Int) : Int :=
  if f.kind = 4 then e - t8Fw e else e - f.fw

/-- The exponent of the smallest normal magnitude (R110): of min where there are no subnormals. -/
def Ent.emin (f : Ent) : Int :=
  if f.kind = 4 then -11 else if f.pure then -f.bias else 1 - f.bias

/-- The magnitude code of n · 2^q, on the code sequence continued above max (R112); T8 continues with 128 and above. -/
def Ent.codeOf (f : Ent) (n : Nat) (q : Int) : Int :=
  if n = 0 then 0
  else
    let e := exponentOf n q
    if f.kind = 4 then
      (if e > 11 then 128 else (t8Code e (n * 2 ^ t8Fw e / 2 ^ n.log2 - 2 ^ t8Fw e) : Nat))
    else if f.pure then e + f.bias
    else if e < f.emin then (n : Int) * 2 ^ (q - (f.emin - f.fw)).toNat
    else (e + f.bias) * 2 ^ f.fw + ((n * 2 ^ f.fw / 2 ^ n.log2 : Nat) - (2 ^ f.fw : Nat) : Int)

/-- Whether the code of the smaller neighbour n · 2^q is odd; below the bottom of the range the code sequence is
continued downwards. -/
def Ent.oddAt (f : Ent) (n : Nat) (q : Int) : Bool :=
  if f.kind = 4 then
    let e := exponentOf n q
    if n = 0 then false else if e < -11 then false else if e > 11 then false else (f.codeOf n q) % 2 == 1
  else if f.fw = 0 ∧ n ≠ 0 then (exponentOf n q + f.bias) % 2 == 1
  else n % 2 == 1

/-- Whether a non-zero value is tiny: rounded with the exponent unbounded below it lies under the smallest normal
magnitude (R110). -/
def Ent.tiny (f : Ent) (mode : Nat) (neg : Bool) (m : Nat) (e : Int) (w : Word) : Bool :=
  let x := exponentOf m e
  if x ≥ f.emin then false
  else
    let fw : Nat := if f.kind = 4 then 0 else f.fw
    let q := x - fw
    let (n, rem, den) := cutAt m e q
    let n' := if roundUp mode neg (f.oddAt n q) rem den w then n + 1 else n
    !(x + 1 == f.emin && n' == 2 ^ (fw + 1))

/-- The largest magnitude code (R102, R103). -/
def Ent.top (f : Ent) : Nat := if f.kind = 4 then 127 else f.maxMag

/-- The storage code of a sign and a magnitude code. -/
def Ent.withSign (f : Ent) (neg : Bool) (mag : Nat) : Nat :=
  if neg && f.sgn && !(mag == 0 && f.pol == 4) then 2 ^ (if f.kind = 4 then 7 else f.ew + f.fw) + mag else mag

/-- The storage code of ±max. -/
def Ent.maxCode (f : Ent) (neg : Bool) : Nat := f.withSign neg (if f.kind = 4 then 3 else f.maxMag)

/-- The canonical NaN code, where the policy has one (R102). -/
def Ent.nanCode (f : Ent) : Option Nat :=
  match f.pol with
  | 0 => some ((2 ^ f.ew - 1) * 2 ^ f.fw + 2 ^ (f.fw - 1))
  | 1 => some (2 ^ (f.ew + f.fw) - 1)
  | 4 => some (2 ^ (if f.kind = 4 then 7 else f.ew + f.fw))
  | _ => none

/-- The infinity of an IEEE entry. -/
def Ent.infCode (f : Ent) (neg : Bool) : Nat := f.withSign neg ((2 ^ f.ew - 1) * 2 ^ f.fw)

/-- A NaN result (R102): the canonical code with NF, or 0 with IV (a pure-exponent format has no 0 and gives min). -/
def Ent.nanResult (f : Ent) : Nat × Word :=
  match f.nanCode with
  | some c => (c, flagNF)
  | none => (0, flagIV)

/-- An infinite result, or a finite one that has overflowed, by the policy (R102, R112). -/
def Ent.overflow (f : Ent) (mode : Nat) (sat finite neg : Bool) : Nat × Word :=
  match f.pol with
  | 0 =>
    if finite && (sat || mode == 2 || (mode == 3 && neg) || (mode == 4 && !neg)) then (f.maxCode neg, 0)
    else (f.infCode neg, flagNF)
  | 2 => (f.maxCode neg, 0)
  | _ => if sat || f.kind == 4 then (f.maxCode neg, 0) else f.nanResult

/-- The range of an integer entry (R111): the magnitude of its least value, and its greatest value. -/
def Ent.intRange (f : Ent) : Nat × Nat :=
  if f.kind = 2 then (2 ^ (f.wid - 1), 2 ^ (f.wid - 1) - 1) else (0, 2 ^ f.wid - 1)

/-- A signed magnitude as a code of an integer entry, modulo 2^width. -/
def Ent.intCode (f : Ent) (neg : Bool) (n : Nat) : Nat :=
  if neg then (2 ^ f.wid - n % 2 ^ f.wid) % 2 ^ f.wid else n % 2 ^ f.wid

/-- Conversion into kind 2 or 3 (R111). -/
def Ent.roundInt (f : Ent) (mode : Nat) (sat : Bool) (w : Word) (v : Num) : Nat × Word :=
  let (lo, hi) := f.intRange
  match v with
  | .nan _ => (0, flagIV)
  | .inf neg => (if neg then f.intCode true lo else f.intCode false hi, flagIV)
  | .fin neg m e =>
    let (n, rem, den) := cutAt m e 0
    let n' := if roundUp mode neg (n % 2 == 1) rem den w then n + 1 else n
    if n' ≤ (if neg then lo else hi) then (f.intCode neg n', flagIf (rem != 0) flagNX)
    else if sat then (if neg then f.intCode true lo else f.intCode false hi, flagIV)
    else (f.intCode neg n', flagIV)

/-- A finite non-zero magnitude rounded into a float entry (R110, R112). -/
def Ent.roundMag (f : Ent) (mode : Nat) (sat neg : Bool) (w : Word) (m : Nat) (e : Int) : Nat × Word :=
  let x := exponentOf m e
  if f.pure && decide (x < f.emin) then (0, flagUF ||| flagNX)
  else
    let q := if f.pure then x else if f.kind = 4 then (if x < -11 then -11 else f.ulp x)
      else (if x < f.emin then f.emin else x) - f.fw
    let (n, rem, den) := cutAt m e q
    let n' := if roundUp mode neg (f.oddAt n q) rem den w then n + 1 else n
    let c := f.codeOf n' q
    let above := if f.kind = 4 then c == 128 else decide (c > f.maxMag)
    if above then
      let (code, fl) := f.overflow mode sat true neg
      (code, fl ||| flagOF ||| flagNX)
    else
      let inexact := rem != 0
      (f.withSign neg c.toNat,
        flagIf inexact flagNX ||| flagIf (inexact && f.tiny mode neg m e w) flagUF)

/-- The rounding procedure of R110: the code of v in the entry, and the flags raised. A signalling NaN raises IV
(R115). -/
def Ent.round (f : Ent) (mode : Nat) (sat : Bool) (w : Word) (v : Num) : Nat × Word :=
  if f.kind = 2 ∨ f.kind = 3 then
    let (c, fl) := f.roundInt mode sat w v
    (c, fl ||| flagIf v.isSig flagIV)
  else
    match v with
    | .nan sig =>
      let (c, fl) := f.nanResult
      (c, fl ||| flagIf sig flagIV)
    | .inf neg =>
      if neg && !f.sgn then
        let (c, fl) := f.nanResult
        (c, fl ||| flagIV)
      else f.overflow mode sat false neg
    | .fin neg m e =>
      if m = 0 then
        (if f.pure then (0, flagUF ||| flagNX)
         else (f.withSign (neg && f.pol != 4) 0, 0))
      else if neg && !f.sgn then
        let (c, fl) := f.nanResult
        (c, fl ||| flagIV)
      else f.roundMag mode sat neg w m e

/-- Whether a code of FP32 or FP64 is subnormal. -/
def Ent.subnormal (f : Ent) (c : Nat) : Bool :=
  let g := c % 2 ^ (f.ew + f.fw)
  g != 0 && decide (g < 2 ^ f.fw)

/-- A code of FP32 or FP64 as an operand, its subnormals read as zero under FTZ (R114). -/
def Ent.operand (f : Ent) (ftz : Bool) (c : Nat) : Num :=
  if ftz && f.subnormal c then .fin (bitAt c (f.ew + f.fw)) 0 0 else f.decode c

/-- A result of FP32 or FP64, its subnormals written as zero of their sign under FTZ, with UF and NX (R114). -/
def Ent.flush (f : Ent) (ftz : Bool) (r : Nat × Word) : Nat × Word :=
  if ftz && f.subnormal r.1 then (f.withSign (bitAt r.1 (f.ew + f.fw)) 0, r.2 ||| flagUF ||| flagNX) else r

/-- The product of an element and its block scale (R106); a NaN scale makes the element NaN. Where forming it is an invalid
operation, of a signalling NaN or ∞ × 0, the NaN is marked as a signalling one, for which the mill raises IV (R115). -/
def scaled (v scale : Num) : Num :=
  if v.isSig || scale.isSig || v.mulInvalid scale then .nan true
  else match scale with
    | .nan _ => .nan false
    | s => v.mul s

/-- The exponent of max and of min of an entry, as R104 compares them. -/
def Ent.maxExp (f : Ent) : Int :=
  match f.kind with
  | 1 => let (m, e) := f.mag f.maxMag; exponentOf m e
  | 2 => (f.wid : Int) - 1
  | 3 => (f.wid : Int) - 1
  | _ => 11
def Ent.minExp (f : Ent) : Int :=
  match f.kind with
  | 1 => if f.pure then -f.bias else 1 - f.bias - f.fw
  | 2 => 0
  | 3 => 0
  | _ => -11

/-- The conditions of R104 on fields alone. -/
def fieldsConsistent (w : DWord) : Bool :=
  let f := Ent.of w
  let n := w.toNat
  decide (f.kind ≤ 4) && decide (f.ew ≤ 11) && decide (f.fw ≤ 52) && decide (f.pol ≤ 4) && decide (f.blk ≤ 3) &&
  decide (bitsOf n 22 4 ≤ 6) && bitsOf n 0 22 == 0 && (f.blk == 3 || f.sidx == 0) &&
  (match f.kind with
   | 0 => n == 0
   | 1 => decide ((if f.sgn then 1 else 0) + f.ew + f.fw = f.wid) && decide (f.ew ≥ 1) &&
       (f.pol != 0 || (decide (f.ew ≥ 2) && decide (f.fw ≥ 1))) && (f.pol != 4 || f.sgn) && f.pol != 3 &&
       decide ((2 ^ f.ew : Nat) - 1 - f.bias ≤ (1024 : Int)) &&
       (if f.pure then decide (-f.bias ≥ -1074) else decide (1 - f.bias - f.fw ≥ -1074))
   | 2 => f.sgn && f.ew == 0 && decide (f.fw + 1 = f.wid) && f.bias == 0 && f.pol == 3 && decide (f.wid ≤ 32)
   | 3 => !f.sgn && f.ew == 0 && f.fw == f.wid && f.bias == 0 && f.pol == 3 && decide (f.wid ≤ 32)
   | _ => f.sgn && f.ew == 2 && f.fw == 4 && f.bias == 0 && f.pol == 4 && f.wid == 8 && f.blk == 0)

/-- Whether the exponents of an entry and of its scale stay within R104's bounds. -/
def scaleFits (f s : Ent) : Bool :=
  decide (f.maxExp + s.maxExp ≤ 1024) && decide (f.minExp + s.minExp ≥ -1074)

/-- R104: whether w may stand as entry i of a table. -/
def consistent (table : Vector DWord 48) (i : Nat) (w : DWord) : Bool :=
  let f := Ent.of w
  fieldsConsistent w &&
  (f.blk == 0 ||
    ((f.wid == 4 || f.wid == 6 || f.wid == 8) &&
      (if f.blk == 3 then
        let s := Ent.of (if f.sidx = i then w else table.toList.getD f.sidx 0)
        decide (f.sidx < 48) && (s.kind == 1 || s.kind == 2 || s.kind == 3) && s.blk == 0 &&
          (s.wid == 8 || s.wid == 16) && scaleFits f s
      else scaleFits f (Ent.of 0x28001FC800800000))))

end Sys2Proof.Machine
end

