-- ==== Sys2Proof/Machine/Operands.lean ====
section
/-! DEFINITION. Operand forms: reading registers, pairs and predicates as U, A, range or L values (R42 to R49, R57),
writing them (R45, R46, R63, R65, R68), freeing them on a last-read (R64, R66), guards (R39, R79), format codes (R78) and
rounding modes (R77). -/

namespace Sys2Proof.Machine

/-- Why an instruction does not take its effect: a precise trap with its cause code (R261), or, in a span, because the
span must be dealt out (R126). -/
inductive Stop where
  | trap (cause : Nat)
  | dealOut
  deriving DecidableEq, Repr

/-- The result of a part of an instruction. -/
abbrev Do (α : Type) := Except Stop α

/-- ILLEGAL_OP, PRIV, ILLEGAL_FORMAT, NOT_UNIFORM, ILLEGAL_CONVERGENCE, ALIGN (R261). -/
def illegalOp {α : Type} : Do α := .error (.trap 0x08)
def privTrap {α : Type} : Do α := .error (.trap 0x09)
def illegalFormat {α : Type} : Do α := .error (.trap 0x0A)
def notUniform {α : Type} : Do α := .error (.trap 0x0B)
def illegalConvergence {α : Type} : Do α := .error (.trap 0x0C)

/-- A value of a register or pair for every item it stands for: uniform, affine, or one per lane. -/
inductive Val where
  | u (v : DWord)
  | a (f : Aff)
  | l (f : Nat → DWord)

/-- A truth value for every item. -/
inductive PVal where
  | u (b : Bool)
  | range (axis : Axis) (lo hi : Nat)
  | l (f : Nat → Bool)

/-- What an instruction works on: the registers and controls of a strip or a span, where the lanes lie, which lanes the
instruction acts on, and what R46 and R64 say of its writes and last-reads. view and kview are the registers as the
instruction reads them, which R68 lets differ from regs and kregs. -/
structure Frame where
  span : Bool
  w16 : Bool
  box : Box
  coord : Nat → Nat × Nat × Nat
  live : Mask
  active : Mask
  whole : Bool
  freeing : Bool
  priv : Bool
  noLines : Bool
  regs : Vector Reg 64
  preds : Vector Pred 32
  kregs : Vector Lanes 16
  view : Vector Reg 64
  kview : Vector Lanes 16
  fmt : Word
  mode : Word
  fpstat : Word
  gens : Vector Gen 4
  outstanding : List Landing
  locks : BitVec 80
  lateFree : BitVec 64
  table : Vector DWord 48

/-- The value of an affine expression at an item (R43). -/
def affAt (f : Aff) (c : Nat × Nat × Nat) : DWord :=
  f.base + f.sx * BitVec.ofNat 64 c.1 + f.sy * BitVec.ofNat 64 c.2.1 + f.sz * BitVec.ofNat 64 c.2.2

/-- A 64-bit value cut to 32 bits, and to a width. -/
def low32 (v : DWord) : DWord := (loOf v).setWidth 64
def cutTo (w : Nat) (v : DWord) : DWord := if w = 32 then low32 v else v

/-- The constants of an affine value modulo 2^32. -/
def Aff.low (f : Aff) : Aff := Aff.mk (low32 f.base) (low32 f.sx) (low32 f.sy) (low32 f.sz)

/-- The value that a register holds for lane l. -/
def regLane (coord : Nat → Nat × Nat × Nat) (r : Reg) (l : Nat) : Word :=
  match r with
  | .u v => v
  | .a f => loOf (affAt f (coord l))
  | .aLo f => loOf (affAt f (coord l))
  | .aHi f => hiOf (affAt f (coord l))
  | .l v => vget v l 0

/-- The truth that a predicate holds for an item, and for lane l. -/
def coordOn (axis : Axis) (c : Nat × Nat × Nat) : Nat :=
  match axis with
  | .x => c.1
  | .y => c.2.1
  | .z => c.2.2
def predLane (coord : Nat → Nat × Nat × Nat) (p : Pred) (l : Nat) : Bool :=
  match p with
  | .u b => b
  | .range axis lo hi => decide (lo ≤ coordOn axis (coord l)) && decide (coordOn axis (coord l) < hi)
  | .l m => laneIn m l

/-- Whether a register field names a k register (R57, R74). -/
def Frame.isK (fr : Frame) (n : Nat) : Bool := fr.priv && decide (48 ≤ n)

/-- The word of register field n for lane l. -/
def Frame.word (fr : Frame) (n l : Nat) : Word :=
  if fr.isK n then vget (vget fr.kview (n - 48) (Vector.replicate 32 0)) l 0
  else regLane fr.coord (vget fr.view n (.u 0)) l

/-- A v register's value with its form; the high half of an A pair is read as L (R47). -/
def Frame.vreg (fr : Frame) (n : Nat) : Val :=
  match vget fr.view n (.u 0) with
  | .u v => .u (v.setWidth 64)
  | .a f => .a f
  | .aLo f => .a f
  | r => .l fun l => (regLane fr.coord r l).setWidth 64

/-- The value of a register field with its form; a k register is always L (R57). -/
def Frame.reg (fr : Frame) (n : Nat) : Val :=
  if fr.isK n then .l fun l => (fr.word n l).setWidth 64 else fr.vreg n

/-- The value of a pair with its form (R47). -/
def Frame.vpair (fr : Frame) (n : Nat) : Val :=
    match vget fr.view n (.u 0), vget fr.view (n + 1) (.u 0) with
    | .u lo, .u hi => .u (join64 lo hi)
    | .aLo f, .aHi _ => .a f
    | lo, hi => .l fun l => join64 (regLane fr.coord lo l) (regLane fr.coord hi l)
def Frame.pair (fr : Frame) (n : Nat) : Val :=
  if fr.isK n then .l fun l => join64 (fr.word n l) (fr.word (n + 1) l) else fr.vpair n

/-- A register or a pair by the operand width. -/
def Frame.src (fr : Frame) (w n : Nat) : Val := if w = 64 then fr.pair n else fr.reg n

/-- A value's word for lane l. -/
def Val.at_ (fr : Frame) (v : Val) (l : Nat) : DWord :=
  match v with
  | .u v => v
  | .a f => affAt f (fr.coord l)
  | .l f => f l

/-- Whether a value is U. -/
def Val.isU : Val → Bool
  | .u _ => true
  | _ => false

/-- The uniform value of a G-set source (R86). -/
def Val.uni (v : Val) : Do DWord :=
  match v with
  | .u v => .ok v
  | _ => notUniform

/-- An operation whose result is U of U sources and otherwise L (R45). -/
def lift1 (fr : Frame) (f : DWord → DWord) (a : Val) : Val :=
  match a with
  | .u x => .u (f x)
  | a => .l fun l => f (a.at_ fr l)
def lift2 (fr : Frame) (f : DWord → DWord → DWord) (a b : Val) : Val :=
  match a, b with
  | .u x, .u y => .u (f x y)
  | a, b => .l fun l => f (a.at_ fr l) (b.at_ fr l)
def lift3 (fr : Frame) (f : DWord → DWord → DWord → DWord) (a b c : Val) : Val :=
  match a, b, c with
  | .u x, .u y, .u z => .u (f x y z)
  | a, b, c => .l fun l => f (a.at_ fr l) (b.at_ fr l) (c.at_ fr l)

/-- A U value as an affine one, and an affine value of any U or A value. -/
def Val.aff? : Val → Option Aff
  | .u v => some (Aff.mk v 0 0 0)
  | .a f => some f
  | .l _ => none

/-- Affine sums, differences and multiples (R45). -/
def Aff.add (f g : Aff) : Aff := Aff.mk (f.base + g.base) (f.sx + g.sx) (f.sy + g.sy) (f.sz + g.sz)
def Aff.sub (f g : Aff) : Aff := Aff.mk (f.base - g.base) (f.sx - g.sx) (f.sy - g.sy) (f.sz - g.sz)
def Aff.times (f : Aff) (k : DWord) : Aff := Aff.mk (f.base * k) (f.sx * k) (f.sy * k) (f.sz * k)

/-- Drops from the outstanding results what a later write of register r replaces in the lanes of m (R68). -/
def dropPart (r : Nat) (m : Mask) (p : RegPart) : Option RegPart :=
  if p.reg ≠ r then some p
  else if p.mask &&& ~~~m = 0 then none
  else some { p with mask := p.mask &&& ~~~m, uniform := false }
def dropLandings (r : Nat) (m : Mask) (o : List Landing) : List Landing :=
  o.map fun x => { x with parts := x.parts.filterMap (dropPart r m) }

/-- New lanes where the mask has a lane, old ones elsewhere. -/
def mergeLanes (m : Mask) (old new : Nat → Word) : Lanes :=
  Vector.ofFn fun i : Fin 32 => if laneIn m i then new i else old i

/-- An L-form write of a register field (R46, R57, R63, R65). The fourth argument names the v register although the
privilege bit is 1 (R80). -/
def Frame.writeLanes (fr : Frame) (n : Nat) (f : Nat → Word) (plain : Bool) : Do Frame :=
  if fr.isK n && !plain then
    let old := vget fr.kregs (n - 48) (Vector.replicate 32 0)
    let new := mergeLanes fr.active (fun l => vget old l 0) f
    .ok { fr with
      kregs := vset fr.kregs (n - 48) new
      outstanding := dropLandings (n + 16) fr.active fr.outstanding }
  else if fr.span then .error .dealOut
  else if fr.noLines then illegalOp
  else
    let old := regLane fr.coord (vget fr.regs n (.u 0))
    .ok { fr with
      regs := vset fr.regs n (.l (mergeLanes fr.active old f))
      outstanding := dropLandings n fr.active fr.outstanding }

/-- A U or A write of a whole v register (R46, R63). -/
def Frame.writeWhole (fr : Frame) (n : Nat) (r : Reg) : Frame :=
  { fr with
    regs := vset fr.regs n r
    outstanding := dropLandings n 0xFFFFFFFF fr.outstanding }

/-- Writes a 32-bit result (R45, R46). -/
def Frame.setRegAs (fr : Frame) (n : Nat) (v : Val) (plain : Bool) : Do Frame :=
  if (fr.isK n && !plain) || !fr.whole then fr.writeLanes n (fun l => loOf (v.at_ fr l)) plain
  else
    match v with
    | .u x => .ok (fr.writeWhole n (.u (loOf x)))
    | .a f => .ok (fr.writeWhole n (.a f.low))
    | .l f => fr.writeLanes n (fun l => loOf (f l)) plain
def Frame.setReg (fr : Frame) (n : Nat) (v : Val) : Do Frame := fr.setRegAs n v false

/-- Writes a 64-bit result into a pair; an A result tags it as an A pair (R45). -/
def Frame.setPairAs (fr : Frame) (n : Nat) (v : Val) (plain : Bool) : Do Frame :=
  let lanes (f : Nat → DWord) : Do Frame := do
    let fr ← fr.writeLanes n (fun l => loOf (f l)) plain
    fr.writeLanes (n + 1) (fun l => hiOf (f l)) plain
  if (fr.isK n && !plain) || !fr.whole then lanes (v.at_ fr)
  else
    match v with
    | .u x => .ok ((fr.writeWhole n (.u (loOf x))).writeWhole (n + 1) (.u (hiOf x)))
    | .a f => .ok ((fr.writeWhole n (.aLo f)).writeWhole (n + 1) (.aHi f))
    | .l f => lanes f
def Frame.setPair (fr : Frame) (n : Nat) (v : Val) : Do Frame := fr.setPairAs n v false
def Frame.dst (fr : Frame) (w n : Nat) (v : Val) : Do Frame := if w = 64 then fr.setPair n v else fr.setReg n v

/-- Frees a v register on a last-read (R44, R64); a locked one when its lock clears (R66). -/
def Frame.freeOne (fr : Frame) (n : Nat) (plain : Bool) : Frame :=
  if !fr.freeing || (fr.isK n && !plain) then fr
  else if fr.locks.getLsbD n then { fr with lateFree := fr.lateFree ||| ((1 : BitVec 64) <<< n) }
  else
    { fr with
      regs := vset fr.regs n (.u 0)
      outstanding := dropLandings n 0xFFFFFFFF fr.outstanding }
def Frame.free (fr : Frame) (bit : Bool) (w n : Nat) : Frame :=
  if !bit then fr
  else if w = 64 then (fr.freeOne n false).freeOne (n + 1) false
  else fr.freeOne n false

/-- A predicate's value with its form (R48). -/
def Frame.pred (fr : Frame) (n : Nat) : PVal :=
  match vget fr.preds n (.u false) with
  | .u b => .u b
  | .range axis lo hi => .range axis lo hi
  | .l m => .l (laneIn m)
def PVal.at_ (fr : Frame) (v : PVal) (l : Nat) : Bool :=
  match v with
  | .u b => b
  | .range axis lo hi => predLane fr.coord (.range axis lo hi) l
  | .l f => f l

/-- Writes a predicate (R46, R49). -/
def Frame.setPred (fr : Frame) (n : Nat) (v : PVal) : Do Frame :=
  let lanes (f : Nat → Bool) : Do Frame :=
    if fr.span then .error .dealOut
    else
      let old := predLane fr.coord (vget fr.preds n (.u false))
      .ok { fr with preds := vset fr.preds n (.l (maskOf fun l => if laneIn fr.active l then f l else old l)) }
  if !fr.whole then lanes (v.at_ fr)
  else
    match v with
    | .u b => .ok { fr with preds := vset fr.preds n (.u b) }
    | .range axis lo hi => .ok { fr with preds := vset fr.preds n (.range axis lo hi) }
    | .l f => lanes f

/-- Raises sticky flags (R52). -/
def Frame.raise (fr : Frame) (fl : Word) : Frame := { fr with fpstat := fr.fpstat ||| fl }

/-- What a guard says of an instruction (R39, R79). -/
inductive Guard where
  | absent
  | uniform (b : Bool)
  | lanes (m : Mask)
  deriving DecidableEq, Repr

/-- The guard of an X word over a predicate file. -/
def guardOf (preds : Vector Pred 32) (coord : Nat → Nat × Nat × Nat) (x : Option XWord) : Guard :=
  match x with
  | none => .absent
  | some x =>
    if !x.ge then .absent
    else
      match vget preds x.gp.toNat (.u false) with
      | .u b => .uniform (b != x.gn)
      | p => .lanes (maskOf fun l => predLane coord p l != x.gn)

/-- The rounding mode of a code: DYN takes MODE.RM (R51, R77). -/
def Frame.rounding (fr : Frame) (rnd : Nat) : Nat := if rnd = 0 then bitsOf fr.mode.toNat 0 3 else rnd

/-- MODE.FTZ and MODE.SRG (R51). -/
def Frame.ftz (fr : Frame) : Bool := fr.mode.getLsbD 3
def Frame.srg (fr : Frame) : Nat := bitsOf fr.mode.toNat 12 2

/-- The entry number of a format code: a slot names an entry (R78). -/
def entryNum (fmt : Word) (code : Nat) : Option Nat :=
  if code < 48 then some code
  else if code < 52 then some (bitsOf fmt.toNat (8 * (code - 48)) 6)
  else none

/-- The entry that a format code selects, where it selects one of a kind other than 0 (R78). -/
def entryOf (table : Vector DWord 48) (fmt : Word) (code : Nat) : Option DWord :=
  match entryNum fmt code with
  | none => none
  | some n =>
    let e := vget table n 0
    if (Ent.of e).kind = 0 then none else some e

/-- The entry of a format code, or ILLEGAL_FORMAT (R78). -/
def Frame.entry (fr : Frame) (code : Nat) : Do DWord :=
  match entryOf fr.table fr.fmt code with
  | some e => .ok e
  | none => illegalFormat

/-- An entry that must not be block-scaled (R107). -/
def Frame.plainEntry (fr : Frame) (code : Nat) : Do DWord := do
  let e ← fr.entry code
  if (Ent.of e).blk = 0 then .ok e else illegalFormat

end Sys2Proof.Machine
end

