-- ==== Sys2Proof/Machine/Func.lean ====
section
/-! DEFINITION. The functions of R333 and the normal deviate of R358, rounded correctly: a value that is no dyadic number
is enclosed between two, with more bits until both round alike. Philox4x32-10 (R59). -/

namespace Sys2Proof.Machine

/-- A function value before its rounding: exact, or its magnitude at 2^p within 2^24 units for each p, with its sign. -/
inductive FVal where
  | num (v : Num)
  | approx (neg : Bool) (at_ : Nat → Int)

/-- The integer square root, a bit at a time; fuel is the number of bits of the root. -/
def isqrtGo (n : Nat) : (fuel r : Nat) → Nat
  | 0, r => r
  | k + 1, r => isqrtGo n k (if (r + 2 ^ k) * (r + 2 ^ k) ≤ n then r + 2 ^ k else r)
def isqrt (n : Nat) : Nat := isqrtGo n (n.log2 / 2 + 1) 0

/-- A quotient or root with its sticky bit: half a unit above the floor where it is not exact. -/
def stickyNum (neg : Bool) (q : Nat) (exact : Bool) (e : Int) : Num :=
  .fin neg (2 * q + (if exact then 0 else 1)) (e - 1)

/-- 1 / (m · 2^e). -/
def recip (neg : Bool) (m : Nat) (e : Int) : Num :=
  let k := m.log2 + 100
  stickyNum neg (2 ^ k / m) (2 ^ k % m == 0) (-e - k)

/-- The square root of m · 2^e, and its reciprocal. -/
def rootOf (m : Nat) (e : Int) : Num :=
  let m := if e % 2 = 0 then m else 2 * m
  let e := if e % 2 = 0 then e else e - 1
  let n := m * 2 ^ 200
  let q := isqrt n
  stickyNum false q (q * q == n) (e / 2 - 100)
def recipRoot (m : Nat) (e : Int) : Num :=
  let m := if e % 2 = 0 then m else 2 * m
  let e := if e % 2 = 0 then e else e - 1
  let k := 2 * m.log2 + 100
  let q := isqrt (2 ^ (2 * k) / m)
  stickyNum false q (q * q * m == 2 ^ (2 * k)) (-(e / 2) - k)

/-- Σ ± 2^p / (n^(2k+1) · (2k+1)): atan(1/n), or atanh(1/n) where alt is false. -/
def invSeries (alt : Bool) (n p : Nat) : Int :=
  (List.range (p / 3 + 4)).foldl (fun (s : Int) k =>
    let t : Int := (2 ^ p / n ^ (2 * k + 1) / (2 * k + 1) : Nat)
    if alt && k % 2 == 1 then s - t else s + t) 0
def ln2At (p : Nat) : Int := 2 * invSeries false 3 p
def piAt (p : Nat) : Int := 16 * invSeries true 5 p - 4 * invSeries true 239 p

/-- e^z for z within ±1, by its series. -/
def expAt (p : Nat) (z : Int) : Int :=
  ((List.range (p / 3 + 8)).foldl (fun (st : Int × Int) (k : Nat) =>
    (st.1 + st.2, st.2 * z / (2 ^ p : Nat) / ((k : Int) + 1))) (0, ((2 ^ p : Nat) : Int))).1

/-- ln y for y from 1 to 2: 2 · atanh((y − 1) / (y + 1)). -/
def lnAt (p : Nat) (y : Int) : Int :=
  let one : Int := (2 ^ p : Nat)
  let z := (y - one) * one / (y + one)
  let z2 := z * z / one
  2 * ((List.range (p / 3 + 4)).foldl (fun (st : Int × Int) (k : Nat) =>
    (st.1 + st.2 / (2 * (k : Int) + 1), st.2 * z2 / one)) (0, z)).1

/-- sin r and cos r for r within ±1, by their series. -/
def sinAt (p : Nat) (r : Int) : Int :=
  let one : Int := (2 ^ p : Nat)
  let r2 := r * r / one
  ((List.range (p / 4 + 6)).foldl (fun (st : Int × Int) (k : Nat) =>
    (st.1 + st.2, -(st.2 * r2 / one) / ((2 * (k : Int) + 2) * (2 * k + 3)))) (0, r)).1
def cosAt (p : Nat) (r : Int) : Int :=
  let one : Int := (2 ^ p : Nat)
  let r2 := r * r / one
  ((List.range (p / 4 + 6)).foldl (fun (st : Int × Int) (k : Nat) =>
    (st.1 + st.2, -(st.2 * r2 / one) / ((2 * (k : Int) + 1) * (2 * k + 2)))) (0, one)).1

/-- m · 2^e at 2^p, rounded down. -/
def fixAt (m : Nat) (e : Int) (p : Nat) : Int :=
  let sh := e + p
  if 0 ≤ sh then ((m * 2 ^ sh.toNat : Nat) : Int) else ((m / 2 ^ (-sh).toNat : Nat) : Int)

/-- The quadrant and the rest of m · 2^e modulo π/2, the rest at 2^p. -/
def reduceAt (m : Nat) (e : Int) (p : Nat) : Nat × Int :=
  let big := p + 160
  let x := fixAt m e big
  let hp := piAt big / 2
  let k := (x + hp / 2) / hp
  ((k % 4).toNat, (x - k * hp) / (2 ^ 160 : Nat))

/-- sin and cos of m · 2^e, signed. -/
def sinCosAt (wantCos : Bool) (m : Nat) (e : Int) (p : Nat) : Int :=
  let (k, r) := reduceAt m e p
  match (if wantCos then k + 1 else k) % 4 with
  | 0 => sinAt p r
  | 1 => cosAt p r
  | 2 => -(sinAt p r)
  | _ => -(cosAt p r)

/-- A value just below or above m · 2^e: one part in 2^100 away. -/
def nudge (neg up : Bool) (m : Nat) (e : Int) : Num :=
  .fin neg (if up then m * 2 ^ 100 + 1 else m * 2 ^ 100 - 1) (e - 100)

def valOf (v : Nat → Int) : FVal := .approx (decide (v 192 < 0)) fun p => (v p).natAbs

/-- R333: the functions of a finite non-zero x = ±m · 2^e. A tiny x gives a value next to a number, which no rounding
tells from one part in 2^100 away. -/
def funcFinite (fn : Nat) (neg : Bool) (m : Nat) (e : Int) : FVal :=
  let x := exponentOf m e
  match fn with
  | 0 => .num (recip neg m e)
  | 1 => .num (recipRoot m e)
  | 2 => .num (rootOf m e)
  | 3 =>
    if x ≥ 9 then .num (.fin false 1 (if neg then -400 else 400))
    else if x ≤ -60 then .num (nudge false (!neg) 1 0)
    else
      let i : Int := (if neg then -(fixAt m e 300) else fixAt m e 300) / (2 ^ 300 : Nat)
      let frac (p : Nat) : Int := (if neg then -(fixAt m e p) else fixAt m e p) - i * (2 ^ p : Nat)
      if frac 300 = 0 then .num (.fin false 1 i)
      else .approx false fun p => expAt (p + 200) (frac (p + 200) * ln2At (p + 200) / (2 ^ (p + 200) : Nat)) *
        (2 ^ (i + 600).toNat : Nat) / (2 ^ 800 : Nat)
  | 4 =>
    let y (p : Nat) : Int := fixAt m (-(m.log2 : Int)) p
    if m = 2 ^ m.log2 then
      (if x = 0 then .num (.fin false 0 0) else .num (.fin (x < 0) x.natAbs 0))
    else valOf fun p => x * (2 ^ p : Nat) + lnAt p (y p) * (2 ^ p : Nat) / ln2At p
  | 5 =>
    if x ≤ -30 then .num (nudge neg false m e)
    else valOf fun p => if neg then -(sinCosAt false m e p) else sinCosAt false m e p
  | 6 => if x ≤ -30 then .num (nudge false false 1 0) else valOf fun p => sinCosAt true m e p
  | _ =>
    if x ≤ -30 then .num (nudge neg false m e)
    else if x ≥ 6 then .num (nudge neg false 1 0)
    else
      let q (p : Nat) : Int :=
        let z := 2 * fixAt m e p
        let k := z / ln2At p + 1
        expAt p (k * ln2At p - z) / (2 ^ k.toNat : Nat)
      .approx neg fun p => ((2 ^ p : Nat) - q p) * (2 ^ p : Nat) / ((2 ^ p : Nat) + q p)

/-- R334: the special inputs. The second result is the flags that the input alone raises. -/
def funcOf (fn : Nat) (v : Num) : FVal × Word :=
  match v with
  | .nan s => (.num (.nan s), 0)
  | .inf neg =>
    (match fn, neg with
     | 0, s => (.num (.fin s 0 0), 0)
     | 1, false => (.num (.fin false 0 0), 0)
     | 2, false => (.num (.inf false), 0)
     | 3, true => (.num (.fin false 0 0), 0)
     | 3, false => (.num (.inf false), 0)
     | 4, false => (.num (.inf false), 0)
     | 7, s => (.num (.fin s 1 0), 0)
     | _, _ => (.num (.nan false), flagIV))
  | .fin neg m e =>
    if m = 0 then
      (match fn with
       | 0 => (.num (.inf neg), flagDZ)
       | 1 => (.num (.inf neg), flagDZ)
       | 3 => (.num (.fin false 1 0), 0)
       | 4 => (.num (.inf true), flagDZ)
       | 6 => (.num (.fin false 1 0), 0)
       | _ => (.num (.fin neg 0 0), 0))
    else if neg && (fn == 1 || fn == 2 || fn == 4) then (.num (.nan false), flagIV)
    else (funcFinite fn neg m e, 0)

/-- An enclosure rounded: the code and flags where both ends round alike. -/
def roundEnclosed (f : Ent) (mode : Nat) (neg : Bool) (w : Word) (p : Nat) (v : Int) : Option (Nat × Word) :=
  let lo := v - 2 ^ 24
  let hi := v + 2 ^ 24
  if lo ≤ 0 then none
  else
    let a := f.roundMag mode false neg w lo.toNat (-(p : Int))
    let b := f.roundMag mode false neg w hi.toNat (-(p : Int))
    if a = b then some a else none

/-- A function value rounded once. -/
def roundFVal (f : Ent) (mode : Nat) (w : Word) (v : FVal) : Nat × Word :=
  match v with
  | .num v => f.round mode false w v
  | .approx neg at_ =>
    match roundEnclosed f mode neg w 192 (at_ 192) with
    | some r => r
    | none =>
      match roundEnclosed f mode neg w 400 (at_ 400) with
      | some r => r
      | none => f.roundMag mode false neg w (at_ 1200).toNat (-1200)

/-! Philox4x32-10 (R59). -/

/-- One round on four words. -/
def philoxRound (k0 k1 : Nat) (c : Nat × Nat × Nat × Nat) : Nat × Nat × Nat × Nat :=
  let (c0, c1, c2, c3) := c
  let p0 := 0xD2511F53 * c0
  let p1 := 0xCD9E8D57 * c2
  ((p1 / 2 ^ 32) ^^^ c1 ^^^ k0, p1 % 2 ^ 32, (p0 / 2 ^ 32) ^^^ c3 ^^^ k1, p0 % 2 ^ 32)

def philoxGo : (rounds k0 k1 : Nat) → Nat × Nat × Nat × Nat → Nat × Nat × Nat × Nat
  | 0, _, _, c => c
  | n + 1, k0, k1, c =>
    philoxGo n ((k0 + 0x9E3779B9) % 2 ^ 32) ((k1 + 0xBB67AE85) % 2 ^ 32) (philoxRound k0 k1 c)

/-- Word j of Philox4x32-10(key, counter). -/
def philoxWord (key : DWord) (ctr : BitVec 128) (j : Nat) : Word :=
  let n := ctr.toNat
  let (a, b, c, d) := philoxGo 10 (loOf key).toNat (hiOf key).toNat
    (bitsOf n 0 32, bitsOf n 32 32, bitsOf n 64 32, bitsOf n 96 32)
  BitVec.ofNat 32 ([a, b, c, d].getD j 0)

/-- The word for result number j (R113, R358). -/
def drawWord (g : Gen) (j : Nat) : Word := philoxWord g.key (g.ctr + BitVec.ofNat 128 (j / 4)) (j % 4)

/-- A generator that has drawn for n result numbers. -/
def Gen.advance (g : Gen) (n : Nat) : Gen := { g with ctr := g.ctr + BitVec.ofNat 128 ((n + 3) / 4) }

/-- R358: the deviate of RNG.NORM. -/
def normDeviate (u1 u2 : Word) : Nat :=
  let k := u1.toNat / 256 + 1
  let t := u2.toNat / 256
  if k = 2 ^ 24 ∨ t = 2 ^ 22 ∨ t = 3 * 2 ^ 22 then 0
  else
    let v (p : Nat) : Int :=
      let one : Int := (2 ^ p : Nat)
      let ln := lnAt p (fixAt k (-(k.log2 : Int)) p) + ((k.log2 : Int) - 24) * ln2At p
      let root : Int := isqrt ((-2 * ln).toNat * 2 ^ p)
      let q : Nat := (t + 2 ^ 21) / 2 ^ 22
      let r := ((t : Int) - ((q * 2 ^ 22 : Nat) : Int)) * (2 * piAt p) / ((2 ^ 24 : Nat) : Int)
      let c := match q % 4 with
        | 0 => cosAt p r
        | 1 => -(sinAt p r)
        | 2 => -(cosAt p r)
        | _ => sinAt p r
      root * c / one
    (roundFVal entFp32 1 0 (valOf v)).1

end Sys2Proof.Machine
end

