-- ==== Sys2Proof/Decode.lean ====
section
/-! DEFINITION. Decoding of Ralril words into Instr, total on any list of words, and the encoder written from the same
layouts (R71 to R91). A word that matches no row of the opcode map is refused; what the machine does with it is R92's
ILLEGAL_OP (Machine/Fetch.lean), or R91's stop in an engine program. -/

namespace Sys2Proof

/-- The five fields of every first word (R71): set, S, X, opcode and the 23 bits that the format lays out. -/
structure First where
  g : Bool
  s : Bool
  x : Bool
  op : BitVec 6
  low : BitVec 23
  deriving DecidableEq, Repr

/-- Bit n of a bit vector as a Bool. -/
def bitAt {w : Nat} (v : BitVec w) (n : Nat) : Bool := v.getLsbD n

/-- The fields of a first word (R71). -/
def First.ofWord (w : Word) : First where
  g := bitAt w 31
  s := bitAt w 30
  x := bitAt w 29
  op := w.extractLsb' 23 6
  low := w.extractLsb' 0 23

/-- The first word with the given fields (R71). -/
def First.toWord (f : First) : Word :=
  BitVec.ofBool f.g ++ BitVec.ofBool f.s ++ BitVec.ofBool f.x ++ f.op ++ f.low

/-- The modifier form of an extension word (R76). -/
def XWord.ofWord (w : Word) : XWord where
  fmt := w.extractLsb' 26 6
  rnd := w.extractLsb' 23 3
  sat := bitAt w 22
  vc := w.extractLsb' 16 6
  lc := bitAt w 15
  ge := bitAt w 14
  gn := bitAt w 13
  gp := w.extractLsb' 8 5
  cls := w.extractLsb' 0 8

/-- The extension word of a modifier (R76). -/
def XWord.toWord (m : XWord) : Word :=
  m.fmt ++ m.rnd ++ BitVec.ofBool m.sat ++ m.vc ++ BitVec.ofBool m.lc ++ BitVec.ofBool m.ge ++ BitVec.ofBool m.gn ++
    m.gp ++ m.cls

/-! ## The layouts of the low 23 bits (R73) -/

/-- LR and GR: vd, va, vb, la, lb, fn (R73). -/
structure LowLR where
  d : BitVec 6
  a : BitVec 6
  b : BitVec 6
  la : Bool
  lb : Bool
  fn : BitVec 3
  deriving DecidableEq, Repr

def LowLR.of (v : BitVec 23) : LowLR where
  d := v.extractLsb' 17 6
  a := v.extractLsb' 11 6
  b := v.extractLsb' 5 6
  la := bitAt v 4
  lb := bitAt v 3
  fn := v.extractLsb' 0 3

def LowLR.to (f : LowLR) : BitVec 23 :=
  f.d ++ f.a ++ f.b ++ BitVec.ofBool f.la ++ BitVec.ofBool f.lb ++ f.fn

/-- LI and GI: vd, va, la, imm10 (R73). -/
structure LowLI where
  d : BitVec 6
  a : BitVec 6
  la : Bool
  imm : BitVec 10
  deriving DecidableEq, Repr

def LowLI.of (v : BitVec 23) : LowLI where
  d := v.extractLsb' 17 6
  a := v.extractLsb' 11 6
  la := bitAt v 10
  imm := v.extractLsb' 0 10

def LowLI.to (f : LowLI) : BitVec 23 := f.d ++ f.a ++ BitVec.ofBool f.la ++ f.imm

/-- LM: vd or vs, va, la, off7, sz (R73). -/
structure LowLM where
  d : BitVec 6
  a : BitVec 6
  la : Bool
  off : BitVec 7
  sz : BitVec 3
  deriving DecidableEq, Repr

def LowLM.of (v : BitVec 23) : LowLM where
  d := v.extractLsb' 17 6
  a := v.extractLsb' 11 6
  la := bitAt v 10
  off := v.extractLsb' 3 7
  sz := v.extractLsb' 0 3

def LowLM.to (f : LowLM) : BitVec 23 := f.d ++ f.a ++ BitVec.ofBool f.la ++ f.off ++ f.sz

/-- LT: vd or acc, va, vb, fn[4:0] (R73). -/
structure LowLT where
  d : BitVec 6
  a : BitVec 6
  b : BitVec 6
  fn : BitVec 5
  deriving DecidableEq, Repr

def LowLT.of (v : BitVec 23) : LowLT where
  d := v.extractLsb' 17 6
  a := v.extractLsb' 11 6
  b := v.extractLsb' 5 6
  fn := v.extractLsb' 0 5

def LowLT.to (f : LowLT) : BitVec 23 := f.d ++ f.a ++ f.b ++ f.fn

/-- GB: pred, neg, bit [16], off16 (R73). -/
structure LowGB where
  p : BitVec 5
  neg : Bool
  z : Bool
  off : BitVec 16
  deriving DecidableEq, Repr

def LowGB.of (v : BitVec 23) : LowGB where
  p := v.extractLsb' 18 5
  neg := bitAt v 17
  z := bitAt v 16
  off := v.extractLsb' 0 16

def LowGB.to (f : LowGB) : BitVec 23 := f.p ++ BitVec.ofBool f.neg ++ BitVec.ofBool f.z ++ f.off

/-- ES: ea, eb, ec, ed, fn[6:0] (R73, R90). -/
structure LowES where
  ea : BitVec 4
  eb : BitVec 4
  ec : BitVec 4
  ed : BitVec 4
  fn : BitVec 7
  deriving DecidableEq, Repr

def LowES.of (v : BitVec 23) : LowES where
  ea := v.extractLsb' 19 4
  eb := v.extractLsb' 15 4
  ec := v.extractLsb' 11 4
  ed := v.extractLsb' 7 4
  fn := v.extractLsb' 0 7

def LowES.to (f : LowES) : BitVec 23 := f.ea ++ f.eb ++ f.ec ++ f.ed ++ f.fn

/-- FORK: vd, class, scope, n, reserved (R88). -/
structure LowFork where
  d : BitVec 6
  cls : BitVec 5
  scope : BitVec 3
  n : BitVec 4
  low : BitVec 5
  deriving DecidableEq, Repr

def LowFork.of (v : BitVec 23) : LowFork where
  d := v.extractLsb' 17 6
  cls := v.extractLsb' 12 5
  scope := v.extractLsb' 9 3
  n := v.extractLsb' 5 4
  low := v.extractLsb' 0 5

def LowFork.to (f : LowFork) : BitVec 23 := f.d ++ f.cls ++ f.scope ++ f.n ++ f.low

/-- FENCE: pre, succ, scope, reserved (R89). -/
structure LowFence where
  pre : BitVec 8
  succ : BitVec 8
  scope : BitVec 3
  low : BitVec 4
  deriving DecidableEq, Repr

def LowFence.of (v : BitVec 23) : LowFence where
  pre := v.extractLsb' 15 8
  succ := v.extractLsb' 7 8
  scope := v.extractLsb' 4 3
  low := v.extractLsb' 0 4

def LowFence.to (f : LowFence) : BitVec 23 := f.pre ++ f.succ ++ f.scope ++ f.low

/-! ## Enumerated fields -/

def ICond.of (v : BitVec 3) : ICond :=
  match v.toNat with
  | 0 => .eq | 1 => .ne | 2 => .lt | 3 => .le | 4 => .gt | 5 => .ge | 6 => .ltn | _ => .gen

def ICond.to : ICond → BitVec 3
  | .eq => 0 | .ne => 1 | .lt => 2 | .le => 3 | .gt => 4 | .ge => 5 | .ltn => 6 | .gen => 7

def FCond.of (v : BitVec 3) : FCond :=
  match v.toNat with
  | 0 => .eq | 1 => .ne | 2 => .lt | 3 => .le | 4 => .gt | 5 => .ge | 6 => .un | _ => .od

def FCond.to : FCond → BitVec 3
  | .eq => 0 | .ne => 1 | .lt => 2 | .le => 3 | .gt => 4 | .ge => 5 | .un => 6 | .od => 7

def ReapOp.of (v : BitVec 3) : ReapOp :=
  match v.toNat with
  | 0 => .add | 1 => .min | 2 => .max | 3 => .and | 4 => .or | 5 => .xor | 6 => .fadd | _ => .fmax

def ReapOp.to : ReapOp → BitVec 3
  | .add => 0 | .min => 1 | .max => 2 | .and => 3 | .or => 4 | .xor => 5 | .fadd => 6 | .fmax => 7

def ShflOp.of (v : BitVec 2) : ShflOp :=
  match v.toNat with
  | 0 => .lane | 1 => .back | 2 => .ahead | _ => .pair

def ShflOp.to : ShflOp → BitVec 3
  | .lane => 0 | .back => 1 | .ahead => 2 | .pair => 3

def WaitCond.of (v : BitVec 2) : WaitCond :=
  match v.toNat with
  | 0 => .eq | 1 => .ne | 2 => .gen | _ => .ltn

def WaitCond.to : WaitCond → BitVec 3
  | .eq => 0 | .ne => 1 | .gen => 2 | .ltn => 3

def CollOp.of (v : BitVec 2) : CollOp :=
  match v.toNat with
  | 0 => .allReduce | 1 => .reduceScatter | 2 => .allGather | _ => .broadcast

def CollOp.to : CollOp → BitVec 2
  | .allReduce => 0 | .reduceScatter => 1 | .allGather => 2 | .broadcast => 3

/-! ## Decoding -/

def LowLR.w3 (f : LowLR) (s : Bool) (x : Option XWord) : W3 := ⟨s, f.d, f.a, f.b, f.la, f.lb, x⟩

/-- The instruction if the two condition fields are as the row fixes them. -/
def only (c : Bool) (i : Instr) : Option Instr := if c then some i else none

/-- A word with vb = lb = 0 (R82). -/
def LowLR.w2 (f : LowLR) (s : Bool) (x : Option XWord) (mk : W2 → Instr) : Option Instr :=
  only (f.b == 0 && !f.lb) (mk ⟨s, f.d, f.a, f.la, x⟩)

def decodeIalu (t : IntType) (s : Bool) (x : Option XWord) (f : LowLR) : Option Instr :=
  let w := f.w3 s x
  match f.fn.toNat with
  | 0 => some (.add t w) | 1 => some (.sub t w) | 2 => some (.mul t w) | 3 => some (.mulh t w)
  | 4 => some (.min t w) | 5 => some (.max t w) | 6 => some (.addc t w) | _ => some (.mad t w)

def decodeIaluG (u : Bool) (s : Bool) (x : Option XWord) (f : LowLR) : Option Instr :=
  let w := f.w3 s x
  match f.fn.toNat with
  | 0 => some (.addG u w) | 1 => some (.subG u w) | 2 => some (.mulG u w) | 3 => some (.mulhG u w)
  | 4 => some (.minG u w) | 5 => some (.maxG u w) | 6 => some (.addcG u w) | _ => some (.madG u w)

def decodeLogic (g : Bool) (s : Bool) (x : Option XWord) (f : LowLR) : Option Instr :=
  let w := f.w3 s x
  match g, f.fn.toNat with
  | false, 0 => some (.and w) | false, 1 => some (.or w) | false, 2 => some (.xor w) | false, 3 => some (.andn w)
  | false, 4 => some (.shl w) | false, 5 => some (.shr w) | false, 6 => some (.sar w)
  | true, 0 => some (.andG w) | true, 1 => some (.orG w) | true, 2 => some (.xorG w) | true, 3 => some (.andnG w)
  | true, 4 => some (.shlG w) | true, 5 => some (.shrG w) | true, 6 => some (.sarG w)
  | _, _ => none

def decodeBits (s : Bool) (x : Option XWord) (f : LowLR) : Option Instr :=
  let w := f.w3 s x
  match f.fn.toNat with
  | 0 => f.w2 s x .popc | 1 => f.w2 s x .clz | 2 => f.w2 s x .brev | 3 => some (.bfx w)
  | 4 => some (.bfi w) | 5 => some (.prmt w) | 6 => some (.lea w) | _ => some (.sel w)

/-- A predicate destination: bit [22] is 0 and [21:17] its number (R74). -/
def predField (d : BitVec 6) : Option (BitVec 5) := if bitAt d 5 then none else some (d.extractLsb' 0 5)

def decodeCmp (s : Bool) (x : Option XWord) (f : LowLR) (mk : WCmp → Instr) : Option Instr :=
  (predField f.d).map fun p => mk ⟨s, p, f.a, f.b, f.la, f.lb, x⟩

def decodeMove (s : Bool) (x : Option XWord) (f : LowLR) : Option Instr :=
  match f.fn.toNat with
  | 0 => f.w2 s x .mov
  | 1 => f.w2 s x .mku
  | 2 => only (f.b == 0 && !f.lb && !f.la) (.movs ⟨s, f.d, f.a, x⟩)
  | 3 => (predField f.a).bind fun q => only (f.b == 0 && !f.lb && !f.la) (.pmovToReg ⟨s, f.d, q, x⟩)
  | 4 => (predField f.d).bind fun p => only (f.b == 0 && !f.lb) (.pmovToPred ⟨s, p, f.a, f.la, x⟩)
  | _ => none

def decodeMoveG (s : Bool) (x : Option XWord) (f : LowLR) : Option Instr :=
  match f.fn.toNat with
  | 0 => f.w2 s x .movG
  | 2 => only (f.b == 0 && !f.lb && !f.la) (.movsG ⟨s, f.d, f.a, x⟩)
  | _ => none

/-- PLOP places its operands by itself (R83). -/
def decodePlop (s : Bool) (x : Option XWord) (v : BitVec 23) : Option Instr :=
  only (!bitAt v 22 && !bitAt v 16 && v.extractLsb' 5 2 == 0)
    (.plop s (v.extractLsb' 17 5) (v.extractLsb' 11 5) (v.extractLsb' 0 5) (v.extractLsb' 7 4) x)

def decodeFalu (d64 : Bool) (s : Bool) (x : Option XWord) (f : LowLR) : Option Instr :=
  let w := f.w3 s x
  match f.fn.toNat with
  | 0 => some (.fadd d64 w) | 1 => some (.fsub d64 w) | 2 => some (.fmul d64 w) | 3 => some (.fmin d64 w)
  | 4 => some (.fmax d64 w) | 5 => some (.ffma d64 w) | 6 => some (.fscl d64 w) | _ => none

def decodeFunc (s : Bool) (x : Option XWord) (f : LowLR) : Option Instr :=
  match f.fn.toNat with
  | 0 => f.w2 s x .frcp | 1 => f.w2 s x .frsq | 2 => f.w2 s x .fsqrt | 3 => f.w2 s x .fexp2
  | 4 => f.w2 s x .flog2 | 5 => f.w2 s x .fsin | 6 => f.w2 s x .fcos | _ => f.w2 s x .ftanh

def decodeVote (s : Bool) (x : Option XWord) (f : LowLR) : Option Instr :=
  let z := f.b == 0 && !f.lb
  match f.fn.toNat with
  | 0 => (predField f.d).bind fun p => (predField f.a).bind fun q => only (z && !f.la) (.voteAll ⟨s, p, q, x⟩)
  | 1 => (predField f.d).bind fun p => (predField f.a).bind fun q => only (z && !f.la) (.voteAny ⟨s, p, q, x⟩)
  | 2 => (predField f.a).bind fun q => only (z && !f.la) (.voteMask ⟨s, f.d, q, x⟩)
  | 3 => (predField f.d).bind fun p => only z (.voteSame ⟨s, p, f.a, f.la, x⟩)
  | _ => none

def LowLM.mem (f : LowLM) (s : Bool) (x : Option XWord) : WMem := ⟨s, f.d, f.a, f.la, f.off, f.sz, x⟩

/-- An accumulator field: bits [5:4] are 0 (R74). -/
def accField (d : BitVec 6) : Option (BitVec 4) := if d.extractLsb' 4 2 = 0 then some (d.extractLsb' 0 4) else none

def decodeMma (s : Bool) (x : Option XWord) (f : LowLT) (mk : WMma → Instr) : Option Instr :=
  (accField f.d).bind fun c =>
    only (f.fn.extractLsb' 1 4 == 0) (mk ⟨s, c, f.a, f.b, bitAt f.fn 0, x⟩)

/-- The words of the L set (R82). -/
def decodeL (f : First) (x : Option XWord) (lit : Option Word) : Option Instr :=
  let s := f.s
  let lr := LowLR.of f.low
  let li := LowLI.of f.low
  let lm := (LowLM.of f.low).mem s x
  let lt := LowLT.of f.low
  let im : WImm := ⟨s, li.d, li.a, li.la, li.imm, lit⟩
  match f.op.toNat with
  | 0x00 => decodeIalu .i32 s x lr
  | 0x01 => decodeIalu .n32 s x lr
  | 0x02 => decodeIalu .i64 s x lr
  | 0x03 => decodeIalu .n64 s x lr
  | 0x04 => decodeLogic false s x lr
  | 0x05 => decodeBits s x lr
  | 0x06 => decodeCmp s x lr (.icmp (ICond.of lr.fn))
  | 0x07 => some (.addi im)
  | 0x08 => some (.muli im)
  | 0x09 => some (.andi im)
  | 0x0A => some (.ori im)
  | 0x0B => some (.xori im)
  | 0x0C => some (.shli im)
  | 0x0D => some (.shri im)
  | 0x0E => some (.sari im)
  | 0x0F => only (li.a == 0 && !li.la) (.movi ⟨s, li.d, li.imm, lit⟩)
  | 0x10 => decodeMove s x lr
  | 0x11 => decodePlop s x f.low
  | 0x12 => decodeFalu false s x lr
  | 0x13 => decodeFalu true s x lr
  | 0x14 => decodeCmp s x lr (.fcmp false (FCond.of lr.fn))
  | 0x15 => decodeCmp s x lr (.fcmp true (FCond.of lr.fn))
  | 0x16 => decodeFunc s x lr
  | 0x17 => if lr.fn = 0 then lr.w2 s x .fclass else if lr.fn = 1 then lr.w2 s x .frnd else none
  | 0x18 => some (.cvt lr.fn (lr.w3 s x))
  | 0x19 => only (lr.fn == 0) (.vdot (lr.w3 s x))
  | 0x1A => only (!bitAt lr.fn 2) (.shfl (ShflOp.of (lr.fn.extractLsb' 0 2)) (lr.w3 s x))
  | 0x1B => decodeVote s x lr
  | 0x1C => lr.w2 s x (.reap (ReapOp.of lr.fn))
  | 0x1D => only (lr.b == 0 && !lr.lb && !lr.la && decide (lr.fn.toNat < 3)) (.rng lr.fn ⟨s, lr.d, lr.a, x⟩)
  | 0x20 => some (.ld lm)
  | 0x21 => some (.st lm)
  | 0x22 => some (.lds lm)
  | 0x23 => some (.sts lm)
  | 0x24 => some (.atom lm)
  | 0x25 => some (.atoms lm)
  | 0x26 => some (.cas lm)
  | 0x28 => only (lt.fn.extractLsb' 1 4 == 0) (.ldt ⟨s, lt.d, lt.a, lt.b, bitAt lt.fn 0, x⟩)
  | 0x29 => only (lt.fn == 0) (.stt ⟨s, lt.d, lt.a, lt.b, false, x⟩)
  | 0x2A => only (lt.fn == 0) (.stash ⟨s, lt.d, lt.a, lt.b, false, x⟩)
  | 0x2B => only (lm.d == 0 && lm.sz == 0) (.pref ⟨s, lm.a, lm.la, lm.off, x⟩)
  | 0x2C => decodeMma s x lt .mma
  | 0x2D => decodeMma s x lt .smma
  | 0x2E => (accField lt.a).bind fun c =>
      if lt.fn = 0 then only (lt.b == 0) (.accrd ⟨s, lt.d, c, x⟩)
      else if lt.fn = 1 then only (lt.b == 0) (.accrdZero ⟨s, lt.d, c, x⟩) else none
  | 0x2F => (accField lt.d).bind fun c =>
      if lt.fn = 0 then only (lt.b == 0) (.accwr ⟨s, lt.a, c, x⟩)
      else if lt.fn = 1 then only (lt.b == 0 && lt.a == 0) (.accwrZero s c x) else none
  | _ => none

/-- A word of which every bit below the opcode is zero, and no X word is allowed (R85). -/
def bare (f : First) (i : Instr) : Option Instr := only (!f.x && f.low == 0) i

def LowLR.src (f : LowLR) (s : Bool) (x : Option XWord) (mk : WSrc → Instr) : Option Instr :=
  only (f.d == 0 && f.b == 0 && !f.lb) (mk ⟨s, f.a, f.la, x⟩)

def LowLR.addr (f : LowLR) (s : Bool) (x : Option XWord) (mk : WAddr → Instr) : Option Instr :=
  only (f.d == 0 && f.b == 0 && !f.la && !f.lb) (mk ⟨s, f.a, x⟩)

def LowLR.addr2 (f : LowLR) (s : Bool) (x : Option XWord) (mk : WAddr2 → Instr) : Option Instr :=
  only (f.d == 0 && !f.la && !f.lb) (mk ⟨s, f.a, f.b, x⟩)

/-- The barrier words (R189): [22:21] = 0 and the barrier's number in [20:17]. -/
def decodeBar (s : Bool) (x : Option XWord) (f : LowLR) : Option Instr :=
  (accField f.d).bind fun n =>
    if f.a == 0 && f.b == 0 && !f.la && !f.lb then
      match f.fn.toNat with
      | 0 => some (.barSync s n x) | 1 => some (.barArrive s n x) | 2 => some (.barWait s n x) | _ => none
    else none

/-- FORK's two following source words as one value (R88): one word for up to four sources. -/
def forkSrc (n : BitVec 4) (rest : List Word) : BitVec 64 :=
  let w2 := if n = 0 then 0 else rest.getD 1 0
  let w3 := if n.toNat ≤ 4 then 0 else rest.getD 2 0
  w3 ++ w2

/-- Engine-class words (R90): S and X are 0. -/
def decodeEngine (f : First) : Option Instr :=
  let e := LowES.of f.low
  let w : WEng := ⟨e.ea, e.eb, e.ec, e.ed⟩
  if f.s || f.x then none else
  match f.op.toNat with
  | 0x38 => only (e.fn.extractLsb' 5 2 == 0)
      (.cpy (e.fn.extractLsb' 0 2) (bitAt e.fn 2) (bitAt e.fn 3) (bitAt e.fn 4) w)
  | 0x39 => only (e.fn.extractLsb' 1 6 == 0) (.rdst (bitAt e.fn 0) w)
  | 0x3A => only (e.fn == 0 && e.ed == 0) (.merge e.ea e.eb e.ec)
  | 0x3B => only (e.fn.extractLsb' 1 6 == 0) (.tmma (bitAt e.fn 0) w)
  | 0x3C => only (e.fn.extractLsb' 1 6 == 0) (.smv (bitAt e.fn 0) w)
  | 0x3D => only (e.fn.extractLsb' 4 3 == 0 && e.ed == 0)
      (.coll (CollOp.of (e.fn.extractLsb' 0 2)) (e.fn.extractLsb' 2 2) e.ea e.eb e.ec)
  | 0x3E =>
    match e.fn.toNat with
    | 0 => only (e.ec == 0) (.ewait e.ea e.eb e.ed)
    | 1 => some (.eloop e.ea (e.eb ++ e.ec ++ e.ed))
    | 2 => only (e.ea == 0 && e.eb == 0 && e.ec == 0 && e.ed == 0) .eend
    | 3 => only (e.ec == 0 && e.ed == 0) (.esig e.ea e.eb)
    | _ => none
  | _ => none

/-- The words of the G set (R85). -/
def decodeG (f : First) (x : Option XWord) (lit : Option Word) (rest : List Word) : Option Instr :=
  let s := f.s
  let lr := LowLR.of f.low
  let li := LowLI.of f.low
  let lm := (LowLM.of f.low).mem s x
  let gb := LowGB.of f.low
  match f.op.toNat with
  | 0x00 => decodeIaluG false s x lr
  | 0x01 => decodeIaluG true s x lr
  | 0x02 => decodeLogic true s x lr
  | 0x03 => some (.addiG ⟨s, li.d, li.a, li.la, li.imm, lit⟩)
  | 0x04 => only (li.a == 0 && !li.la) (.moviG ⟨s, li.d, li.imm, lit⟩)
  | 0x05 => decodeCmp s x lr (.icmpG (ICond.of lr.fn))
  | 0x06 => decodeMoveG s x lr
  | 0x07 => some (.ldG lm)
  | 0x08 => some (.stG lm)
  | 0x10 => only (!gb.z) (.bra s gb.p gb.neg gb.off lit)
  | 0x11 => bare f (.join s)
  | 0x12 => only (!gb.z && gb.neg && gb.p == 31) (.call s gb.off lit)
  | 0x13 => bare f (.ret s)
  | 0x14 => if lr.fn = 0 then lr.src s x .jmpi else none
  | 0x15 => only (f.low == 0) (.exit s x)
  | 0x16 => decodeBar s x lr
  | 0x17 => bare f (.elect s)
  | 0x18 => bare f (.elend s)
  | 0x19 =>
    let k := LowFork.of f.low
    some (.fork ⟨s, k.d, k.cls, k.scope, k.n, k.low, lit, if f.x then forkSrc k.n rest else 0⟩)
  | 0x1A => if lr.fn = 0 then lr.src s x .rdv else none
  | 0x1B =>
    let k := LowFence.of f.low
    only (!f.x && k.low == 0) (.fence ⟨s, k.pre, k.succ, k.scope⟩)
  | 0x1C => bare f (.tfence s)
  | 0x1D => if bitAt lr.fn 2 then none else lr.addr2 s x (.wait (WaitCond.of (lr.fn.extractLsb' 0 2)))
  | 0x1E => bare f (.nop s)
  | 0x1F => only (li.d == 0 && li.a == 0 && !li.la) (.trap s li.imm lit)
  | 0x20 => if lr.fn = 0 then lr.w2 s x .fmtset else none
  | 0x21 => if lr.fn = 0 then only (lr.b == 0 && !lr.la && !lr.lb) (.fmtget ⟨s, lr.d, lr.a, x⟩) else none
  | 0x22 =>
    if bitAt lr.fn 2 then (if lr.fn = 4 then lr.src s x .fmtselReg else none)
    else only (lr.a == 0 && lr.b == 0 && !lr.la && !lr.lb) (.fmtselSlot s lr.d (lr.fn.extractLsb' 0 2) x)
  | 0x23 =>
    match lr.fn.toNat with
    | 0 => lr.src s x .modeset
    | 1 => only (lr.d.extractLsb' 3 3 == 0 && lr.a == 0 && lr.b == 0 && !lr.la && !lr.lb)
        (.modesetRm s (lr.d.extractLsb' 0 3) x)
    | 2 => lr.src s x .modesetClr
    | _ => none
  | 0x24 => if lr.fn = 0 then lr.addr s x .ckpt else none
  | 0x25 => if lr.fn = 0 then lr.addr s x .replay else none
  | 0x26 => bare f (.replend s)
  | 0x27 => only (lr.fn == 0 && lr.a == 0 && !lr.la && !lr.lb) (.qput s lr.d lr.b x)
  | 0x28 => only (lr.fn == 0 && lr.a == 0 && lr.b == 0 && !lr.la && !lr.lb) (.qget s lr.d x)
  | 0x29 => if lr.fn = 0 then lr.addr s x .launch else none
  | 0x2A => if lr.fn = 0 then lr.addr2 s x .icinv else none
  | 0x2B => if lr.fn = 0 then lr.addr2 s x .cflush else if lr.fn = 1 then lr.addr2 s x .cflushInv else none
  | 0x2C => only (!bitAt lr.fn 2 && lr.d == 0) (.rngseed (lr.fn.extractLsb' 0 2) (lr.w3 s x))
  | 0x2D => if lr.fn = 0 then lr.src s x .bwsetMem else if lr.fn = 1 then lr.src s x .bwsetLink else none
  | 0x30 => bare f (.tret s)
  | 0x31 => bare f (.rqrel s)
  | 0x32 => if lr.fn = 0 then lr.addr2 s x .pgmapL0 else if lr.fn = 1 then lr.addr2 s x .pgmapL1 else none
  | 0x33 =>
    if lr.fn = 0 then lr.addr s x .tlbinv
    else if lr.fn = 1 then only (lr.d == 0 && lr.a == 0 && lr.b == 0 && !lr.la && !lr.lb) (.tlbinvCtx s x)
    else if lr.fn = 2 then only (lr.d == 0 && lr.a == 0 && lr.b == 0 && !lr.la && !lr.lb) (.tlbinvAll s x)
    else none
  | 0x34 => if lr.fn = 0 then lr.addr2 s x .harvest else none
  | 0x35 => if lr.fn = 0 then lr.w2 s x .setsr else none
  | _ => decodeEngine f

/-- The instruction that a list of words begins with: the first word, then its extension and source words where it has
them (R72). A missing following word counts as zero. -/
def decode (ws : List Word) : Option Instr :=
  match ws with
  | [] => none
  | w0 :: rest =>
    let f := First.ofWord w0
    let w1 := rest.getD 0 0
    let x := if f.x then some (XWord.ofWord w1) else none
    let lit := if f.x then some w1 else none
    if f.g then decodeG f x lit rest else decodeL f x lit

/-- How many words follow the first word of an instruction (R72): its X word, and FORK's source words. -/
def extraWords (w0 : Word) : Nat :=
  let f := First.ofWord w0
  if f.x then
    if f.g && f.op == 0x19 then
      let n := (LowFork.of f.low).n.toNat
      if n = 0 ∨ 8 < n then 1 else if n ≤ 4 then 2 else 3
    else 1
  else 0

/-- Four bytes, lowest address first, as a word (R2). -/
def wordOfBytes (b0 b1 b2 b3 : Byte) : Word := b3 ++ b2 ++ b1 ++ b0

/-- The words of a byte list, little-endian; missing bytes are zero. -/
def wordsOfBytes : List Byte → List Word
  | [] => []
  | [a] => [wordOfBytes a 0 0 0]
  | [a, b] => [wordOfBytes a b 0 0]
  | [a, b, c] => [wordOfBytes a b c 0]
  | a :: b :: c :: d :: r => wordOfBytes a b c d :: wordsOfBytes r

/-- Decoding from bytes as they stand in memory, the lowest address first (R71). -/
def decodeBytes (bs : List Byte) : Option Instr := decode (wordsOfBytes bs)

/-- The instruction the decoder reads from an instruction whose bits are w, the first word in the low 32 bits: at most
four words, each little-endian in memory. -/
def decodeTableWord (nbits w : Nat) : Option Instr :=
  let v := w % 2 ^ nbits
  decode [BitVec.ofNat 32 v, BitVec.ofNat 32 (v / 2 ^ 32), BitVec.ofNat 32 (v / 2 ^ 64), BitVec.ofNat 32 (v / 2 ^ 96)]

/-! ## Encoding -/

/-- A first word and the words after it. -/
def enc (g s : Bool) (op : BitVec 6) (low : BitVec 23) (ext : Option Word) (more : List Word := []) : List Word :=
  (First.mk g s ext.isSome op low).toWord :: (match ext with | none => [] | some w => w :: more)

def xword (x : Option XWord) : Option Word := x.map XWord.toWord

def encW3 (g : Bool) (op : BitVec 6) (fn : BitVec 3) (w : W3) : List Word :=
  enc g w.s op (LowLR.to ⟨w.d, w.a, w.b, w.la, w.lb, fn⟩) (xword w.x)

def encW2 (g : Bool) (op : BitVec 6) (fn : BitVec 3) (w : W2) : List Word :=
  enc g w.s op (LowLR.to ⟨w.d, w.a, 0, w.la, false, fn⟩) (xword w.x)

def encLR (g s : Bool) (op : BitVec 6) (d a b : BitVec 6) (la lb : Bool) (fn : BitVec 3) (x : Option XWord) : List Word :=
  enc g s op (LowLR.to ⟨d, a, b, la, lb, fn⟩) (xword x)

def encCmp (g : Bool) (op : BitVec 6) (fn : BitVec 3) (w : WCmp) : List Word :=
  encLR g w.s op (0#1 ++ w.p) w.a w.b w.la w.lb fn w.x

def encImm (g : Bool) (op : BitVec 6) (w : WImm) : List Word :=
  enc g w.s op (LowLI.to ⟨w.d, w.a, w.la, w.imm⟩) w.lit

def encMovi (g : Bool) (op : BitVec 6) (w : WMovi) : List Word :=
  enc g w.s op (LowLI.to ⟨w.d, 0, false, w.imm⟩) w.lit

def encMem (g : Bool) (op : BitVec 6) (w : WMem) : List Word :=
  enc g w.s op (LowLM.to ⟨w.d, w.a, w.la, w.off, w.sz⟩) (xword w.x)

def encLT (s : Bool) (op : BitVec 6) (d a b : BitVec 6) (fn : BitVec 5) (x : Option XWord) : List Word :=
  enc false s op (LowLT.to ⟨d, a, b, fn⟩) (xword x)

def encMma (op : BitVec 6) (w : WMma) : List Word :=
  encLT w.s op (0#2 ++ w.acc) w.a w.b (0#4 ++ BitVec.ofBool w.ovw) w.x

def encSrc (op : BitVec 6) (fn : BitVec 3) (w : WSrc) : List Word := encLR true w.s op 0 w.a 0 w.la false fn w.x

def encAddr (op : BitVec 6) (fn : BitVec 3) (w : WAddr) : List Word := encLR true w.s op 0 w.a 0 false false fn w.x

def encAddr2 (op : BitVec 6) (fn : BitVec 3) (w : WAddr2) : List Word := encLR true w.s op 0 w.a w.b false false fn w.x

def encES (op : BitVec 6) (ea eb ec ed : BitVec 4) (fn : BitVec 7) : List Word :=
  enc true false op (LowES.to ⟨ea, eb, ec, ed, fn⟩) none

def IntType.op : IntType → BitVec 6
  | .i32 => 0 | .n32 => 1 | .i64 => 2 | .n64 => 3

/-- A flag as an opcode bit above a base opcode. -/
def opBit (base : BitVec 6) (b : Bool) : BitVec 6 := if b then base + 1 else base

def encBar (s : Bool) (n : BitVec 4) (fn : BitVec 3) (x : Option XWord) : List Word :=
  encLR true s 0x16 (0#2 ++ n) 0 0 false false fn x

def encFork (w : WFork) : List Word :=
  let k := w.n.toNat
  enc true w.s 0x19 (LowFork.to ⟨w.d, w.cls, w.scope, w.n, w.low⟩) w.off
    (if k = 0 ∨ 8 < k then [] else if k ≤ 4 then [w.src.extractLsb' 0 32]
     else [w.src.extractLsb' 0 32, w.src.extractLsb' 32 32])

/-- The words of an instruction (R71 to R91). An event has no words. -/
def encode : Instr → List Word
  | .add t w => encW3 false t.op 0 w
  | .sub t w => encW3 false t.op 1 w
  | .mul t w => encW3 false t.op 2 w
  | .mulh t w => encW3 false t.op 3 w
  | .min t w => encW3 false t.op 4 w
  | .max t w => encW3 false t.op 5 w
  | .addc t w => encW3 false t.op 6 w
  | .mad t w => encW3 false t.op 7 w
  | .addG u w => encW3 true (opBit 0 u) 0 w
  | .subG u w => encW3 true (opBit 0 u) 1 w
  | .mulG u w => encW3 true (opBit 0 u) 2 w
  | .mulhG u w => encW3 true (opBit 0 u) 3 w
  | .minG u w => encW3 true (opBit 0 u) 4 w
  | .maxG u w => encW3 true (opBit 0 u) 5 w
  | .addcG u w => encW3 true (opBit 0 u) 6 w
  | .madG u w => encW3 true (opBit 0 u) 7 w
  | .and w => encW3 false 0x04 0 w
  | .or w => encW3 false 0x04 1 w
  | .xor w => encW3 false 0x04 2 w
  | .andn w => encW3 false 0x04 3 w
  | .shl w => encW3 false 0x04 4 w
  | .shr w => encW3 false 0x04 5 w
  | .sar w => encW3 false 0x04 6 w
  | .andG w => encW3 true 0x02 0 w
  | .orG w => encW3 true 0x02 1 w
  | .xorG w => encW3 true 0x02 2 w
  | .andnG w => encW3 true 0x02 3 w
  | .shlG w => encW3 true 0x02 4 w
  | .shrG w => encW3 true 0x02 5 w
  | .sarG w => encW3 true 0x02 6 w
  | .popc w => encW2 false 0x05 0 w
  | .clz w => encW2 false 0x05 1 w
  | .brev w => encW2 false 0x05 2 w
  | .bfx w => encW3 false 0x05 3 w
  | .bfi w => encW3 false 0x05 4 w
  | .prmt w => encW3 false 0x05 5 w
  | .lea w => encW3 false 0x05 6 w
  | .sel w => encW3 false 0x05 7 w
  | .icmp c w => encCmp false 0x06 c.to w
  | .icmpG c w => encCmp true 0x05 c.to w
  | .addi w => encImm false 0x07 w
  | .muli w => encImm false 0x08 w
  | .andi w => encImm false 0x09 w
  | .ori w => encImm false 0x0A w
  | .xori w => encImm false 0x0B w
  | .shli w => encImm false 0x0C w
  | .shri w => encImm false 0x0D w
  | .sari w => encImm false 0x0E w
  | .movi w => encMovi false 0x0F w
  | .addiG w => encImm true 0x03 w
  | .moviG w => encMovi true 0x04 w
  | .mov w => encW2 false 0x10 0 w
  | .mku w => encW2 false 0x10 1 w
  | .movs w => encLR false w.s 0x10 w.d w.a 0 false false 2 w.x
  | .pmovToReg w => encLR false w.s 0x10 w.d (0#1 ++ w.q) 0 false false 3 w.x
  | .pmovToPred w => encLR false w.s 0x10 (0#1 ++ w.p) w.a 0 w.la false 4 w.x
  | .movG w => encW2 true 0x06 0 w
  | .movsG w => encLR true w.s 0x06 w.d w.a 0 false false 2 w.x
  | .plop s pd pa pb t x => enc false s 0x11 (0#1 ++ pd ++ 0#1 ++ pa ++ t ++ 0#2 ++ pb) (xword x)
  | .fadd f w => encW3 false (opBit 0x12 f) 0 w
  | .fsub f w => encW3 false (opBit 0x12 f) 1 w
  | .fmul f w => encW3 false (opBit 0x12 f) 2 w
  | .fmin f w => encW3 false (opBit 0x12 f) 3 w
  | .fmax f w => encW3 false (opBit 0x12 f) 4 w
  | .ffma f w => encW3 false (opBit 0x12 f) 5 w
  | .fscl f w => encW3 false (opBit 0x12 f) 6 w
  | .fcmp f c w => encCmp false (opBit 0x14 f) c.to w
  | .frcp w => encW2 false 0x16 0 w
  | .frsq w => encW2 false 0x16 1 w
  | .fsqrt w => encW2 false 0x16 2 w
  | .fexp2 w => encW2 false 0x16 3 w
  | .flog2 w => encW2 false 0x16 4 w
  | .fsin w => encW2 false 0x16 5 w
  | .fcos w => encW2 false 0x16 6 w
  | .ftanh w => encW2 false 0x16 7 w
  | .fclass w => encW2 false 0x17 0 w
  | .frnd w => encW2 false 0x17 1 w
  | .cvt fn w => encW3 false 0x18 fn w
  | .vdot w => encW3 false 0x19 0 w
  | .shfl o w => encW3 false 0x1A o.to w
  | .voteAll w => encLR false w.s 0x1B (0#1 ++ w.p) (0#1 ++ w.q) 0 false false 0 w.x
  | .voteAny w => encLR false w.s 0x1B (0#1 ++ w.p) (0#1 ++ w.q) 0 false false 1 w.x
  | .voteMask w => encLR false w.s 0x1B w.d (0#1 ++ w.q) 0 false false 2 w.x
  | .voteSame w => encLR false w.s 0x1B (0#1 ++ w.p) w.a 0 w.la false 3 w.x
  | .reap o w => encW2 false 0x1C o.to w
  | .rng fn w => encLR false w.s 0x1D w.d w.a 0 false false fn w.x
  | .ld w => encMem false 0x20 w
  | .st w => encMem false 0x21 w
  | .lds w => encMem false 0x22 w
  | .sts w => encMem false 0x23 w
  | .atom w => encMem false 0x24 w
  | .atoms w => encMem false 0x25 w
  | .cas w => encMem false 0x26 w
  | .pref w => encMem false 0x2B ⟨w.s, 0, w.a, w.la, w.off, 0, w.x⟩
  | .ldt w => encLT w.s 0x28 w.d w.a w.b (0#4 ++ BitVec.ofBool w.t) w.x
  | .stt w => encLT w.s 0x29 w.d w.a w.b 0 w.x
  | .stash w => encLT w.s 0x2A w.d w.a w.b 0 w.x
  | .mma w => encMma 0x2C w
  | .smma w => encMma 0x2D w
  | .accrd w => encLT w.s 0x2E w.r (0#2 ++ w.acc) 0 0 w.x
  | .accrdZero w => encLT w.s 0x2E w.r (0#2 ++ w.acc) 0 1 w.x
  | .accwr w => encLT w.s 0x2F (0#2 ++ w.acc) w.r 0 0 w.x
  | .accwrZero s acc x => encLT s 0x2F (0#2 ++ acc) 0 0 1 x
  | .ldG w => encMem true 0x07 w
  | .stG w => encMem true 0x08 w
  | .bra s p neg off lit => enc true s 0x10 (LowGB.to ⟨p, neg, false, off⟩) lit
  | .join s => enc true s 0x11 0 none
  | .call s off lit => enc true s 0x12 (LowGB.to ⟨31, true, false, off⟩) lit
  | .ret s => enc true s 0x13 0 none
  | .jmpi w => encSrc 0x14 0 w
  | .exit s x => enc true s 0x15 0 (xword x)
  | .barSync s n x => encBar s n 0 x
  | .barArrive s n x => encBar s n 1 x
  | .barWait s n x => encBar s n 2 x
  | .elect s => enc true s 0x17 0 none
  | .elend s => enc true s 0x18 0 none
  | .fork w => encFork w
  | .rdv w => encSrc 0x1A 0 w
  | .fence w => enc true w.s 0x1B (LowFence.to ⟨w.pre, w.succ, w.scope, 0⟩) none
  | .tfence s => enc true s 0x1C 0 none
  | .wait c w => encAddr2 0x1D c.to w
  | .nop s => enc true s 0x1E 0 none
  | .trap s imm lit => enc true s 0x1F (LowLI.to ⟨0, 0, false, imm⟩) lit
  | .fmtset w => encW2 true 0x20 0 w
  | .fmtget w => encLR true w.s 0x21 w.d w.a 0 false false 0 w.x
  | .fmtselSlot s code n x => encLR true s 0x22 code 0 0 false false (0#1 ++ n) x
  | .fmtselReg w => encSrc 0x22 4 w
  | .modeset w => encSrc 0x23 0 w
  | .modesetRm s rm x => encLR true s 0x23 (0#3 ++ rm) 0 0 false false 1 x
  | .modesetClr w => encSrc 0x23 2 w
  | .ckpt w => encAddr 0x24 0 w
  | .replay w => encAddr 0x25 0 w
  | .replend s => enc true s 0x26 0 none
  | .qput s d g x => encLR true s 0x27 d 0 g false false 0 x
  | .qget s d x => encLR true s 0x28 d 0 0 false false 0 x
  | .launch w => encAddr 0x29 0 w
  | .icinv w => encAddr2 0x2A 0 w
  | .cflush w => encAddr2 0x2B 0 w
  | .cflushInv w => encAddr2 0x2B 1 w
  | .rngseed g w => encLR true w.s 0x2C 0 w.a w.b w.la w.lb (0#1 ++ g) w.x
  | .bwsetMem w => encSrc 0x2D 0 w
  | .bwsetLink w => encSrc 0x2D 1 w
  | .tret s => enc true s 0x30 0 none
  | .rqrel s => enc true s 0x31 0 none
  | .pgmapL0 w => encAddr2 0x32 0 w
  | .pgmapL1 w => encAddr2 0x32 1 w
  | .tlbinv w => encAddr 0x33 0 w
  | .tlbinvCtx s x => encLR true s 0x33 0 0 0 false false 1 x
  | .tlbinvAll s x => encLR true s 0x33 0 0 0 false false 2 x
  | .harvest w => encAddr2 0x34 0 w
  | .setsr w => encW2 true 0x35 0 w
  | .cpy n cv sg ss w => encES 0x38 w.ea w.eb w.ec w.ed
      (0#2 ++ BitVec.ofBool ss ++ BitVec.ofBool sg ++ BitVec.ofBool cv ++ n)
  | .rdst bd w => encES 0x39 w.ea w.eb w.ec w.ed (0#6 ++ BitVec.ofBool bd)
  | .merge ea eb ec => encES 0x3A ea eb ec 0 0
  | .tmma o w => encES 0x3B w.ea w.eb w.ec w.ed (0#6 ++ BitVec.ofBool o)
  | .smv o w => encES 0x3C w.ea w.eb w.ec w.ed (0#6 ++ BitVec.ofBool o)
  | .coll o red ea eb ec => encES 0x3D ea eb ec 0 (0#3 ++ red ++ o.to)
  | .ewait ea eb c => encES 0x3E ea eb 0 c 0
  | .eloop ea off => encES 0x3E ea (off.extractLsb' 8 4) (off.extractLsb' 4 4) (off.extractLsb' 0 4) 1
  | .eend => encES 0x3E 0 0 0 0 2
  | .esig ea eb => encES 0x3E ea eb 0 0 3
  | .create _ | .destroy _ | .config _ | .submit _ | .cancel _ | .uncancel _ | .hostIcinv _ | .resync _ | .twclr _
  | .portreset _ | .qerrClear _ _ | .queueConfigWrite _ _ _ | .registerWrite _ _ | .deviceReset _ | .benchGroupStart
  | .firmwareUpdate _ _ | .recoveryImage _ _ | .getVersion | .getCapabilities | .negotiateAlgorithms | .getDigests
  | .getCertificate _ _ _ | .challenge _ _ | .getMeasurements _ _ | .keyExchange _ _ | .finish _ | .endSession _
  | .lockInterface _ _ _ | .stopInterface _ | .hostLinkTrain _ _ _ | .hdmAccess _ | .bar2Access _ | .peerAccess _
  | .peerTimeout _ | .peerWriteAck _ | .flitResend _ | .tierLinkDown _ | .expanderTimeout _ | .tierLinkUp _
  | .tierTimeout _ | .nodeStart _ _ | .nodeComplete _ | .spanJoin _ _ | .gangPlace _ _ | .droverAction _
  | .queueClose _ | .barrierPhaseComplete _ _ | .waitConditionMet _ _ | .hostWaitReread _ | .ewaitConditionMet _
  | .rdvReturn _ _ | .queueRoom _ _ | .forkSlotFree _ _ | .loadReturn _ _ _ | .twinReadServed _ | .twinTimeout _
  | .preempt _ | .resume _ _ | .lineEviction _ _ _ | .correctedError _ _ | .machineCheck _ _ | .deviceFatal
  | .thermalThrottle _ | .powerThrottle _ | .overtempStop _ _ | .dbell _ _ | .startInterface _ | .tdiError _
  | .launchIntakeRoom _ _ | .collJoin _ _ => []

/-- The bytes an instruction occupies: four for each of its words (R71, R72). An event occupies none. -/
def Instr.size (i : Instr) : Nat := 4 * (encode i).length

end Sys2Proof
end

