-- ==== Sys2Proof/Machine/Legality.lean ====
section
/-! DEFINITION. What each instruction word names and which fields its word may hold: register groups (R74), predicates,
the extension word (R75 to R81), and what issue asks of the word: its set, its S bit, whether it is privileged, whether
it ends an unchecked region (R67), and the scope at which it releases or acquires (R183). -/

namespace Sys2Proof.Machine

/-- A register role: a register field and the number of registers of its group (R74). -/
structure Role where
  reg : BitVec 6
  n : Nat
  deriving DecidableEq, Repr

/-- What a word names and which extension words it accepts. -/
structure Form where
  g : Bool
  s : Bool
  srcs : List Role
  dsts : List Role
  preds : List (BitVec 5)
  pdsts : List (BitVec 5)
  x : Option XWord
  xneeded : Bool
  xok : XWord → Bool
  ok : Bool

/-- The alignment of a register group (R74). -/
def Role.aligned (r : Role) : Bool := r.reg.toNat % r.n == 0

/-- The fields of a modifier word that an instruction accepts (R76, R79 to R81): any format code, a rounding code, sat, a
third source, and the class bits of a mask. -/
def accepts (m : XWord) (fmt rnd sat vc : Bool) (cls : BitVec 8) : Bool :=
  (fmt || m.fmt == 63) && (if rnd then m.rnd != 7 else m.rnd == 0) && (sat || !m.sat) &&
  (vc || (m.vc == 0 && !m.lc)) && (m.cls &&& ~~~cls) == 0 && (m.ge || (!m.gn && m.gp == 0))

/-- The memory modifiers of a class field (R80). -/
def scopeOf (x : Option XWord) : Nat := (x.map fun m => (m.cls.extractLsb' 5 3).toNat).getD 0
def orderOf (x : Option XWord) : Nat := (x.map fun m => (m.cls.extractLsb' 3 2).toNat).getD 0
def ncOf (x : Option XWord) : Bool := (x.map fun m => m.cls.getLsbD 2).getD false
def lastOf (x : Option XWord) : Bool := (x.map fun m => m.cls.getLsbD 1).getD false
def fltOf (x : Option XWord) : Bool := (x.map fun m => m.cls.getLsbD 0).getD false

/-- What R80 allows in the class of a memory instruction: the orders, whether nc, last and flt may stand, and the highest
scope. -/
def memClass (m : XWord) (orders : List Nat) (flags : Bool) (top : Nat) : Bool :=
  let x := some m
  decide (scopeOf x ≤ top) && orders.contains (orderOf x) && (orderOf x == 0 || scopeOf x != 0) &&
  (flags || (!ncOf x && !lastOf x && !fltOf x))

/-- The class bit W (R80). -/
def wideOf (x : Option XWord) : Bool := (x.map fun m => m.cls.getLsbD 0).getD false
def satOf (x : Option XWord) : Bool := (x.map (·.sat)).getD false
def rndOf (x : Option XWord) : Nat := (x.map (·.rnd.toNat)).getD 0
def fmtOf (x : Option XWord) : Nat := (x.map (·.fmt.toNat)).getD 63
def vcOf (x : Option XWord) : BitVec 6 := (x.map (·.vc)).getD 0
def lcOf (x : Option XWord) : Bool := (x.map (·.lc)).getD false

/-- A word without registers, predicates or extension word. -/
def Form.bare (g s : Bool) : Form where
  g := g
  s := s
  srcs := []
  dsts := []
  preds := []
  pdsts := []
  x := none
  xneeded := false
  xok := fun _ => true
  ok := true

/-- Two sources and a destination of n registers each. -/
def form3 (g : Bool) (n : Nat) (w : W3) (xok : XWord → Bool) : Form :=
  { Form.bare g w.s with srcs := [⟨w.a, n⟩, ⟨w.b, n⟩], dsts := [⟨w.d, n⟩], x := w.x, xok := xok }

/-- The same with a third source of n registers in the X word, which is then required. -/
def form4 (g : Bool) (n : Nat) (w : W3) (xok : XWord → Bool) : Form :=
  { form3 g n w xok with srcs := [⟨w.a, n⟩, ⟨w.b, n⟩, ⟨vcOf w.x, n⟩], xneeded := true }

/-- One source and a destination. -/
def form2 (g : Bool) (n : Nat) (w : W2) (xok : XWord → Bool) : Form :=
  { Form.bare g w.s with srcs := [⟨w.a, n⟩], dsts := [⟨w.d, n⟩], x := w.x, xok := xok }

/-- A comparison. -/
def formCmp (g : Bool) (n : Nat) (w : WCmp) (xok : XWord → Bool) : Form :=
  { Form.bare g w.s with srcs := [⟨w.a, n⟩, ⟨w.b, n⟩], pdsts := [w.p], x := w.x, xok := xok }

/-- An immediate word: with a literal its imm10 is 0 (R312). -/
def formImm (g : Bool) (w : WImm) : Form :=
  { Form.bare g w.s with srcs := [⟨w.a, 1⟩], dsts := [⟨w.d, 1⟩], ok := w.lit.isNone || w.imm == 0 }
def formMovi (g : Bool) (w : WMovi) : Form :=
  { Form.bare g w.s with dsts := [⟨w.d, 1⟩], ok := w.lit.isNone || w.imm == 0 }

/-- The registers of an access of size code sz (R74); a reserved code has none. -/
def szRegs (sz : BitVec 3) : Nat := [1, 1, 1, 2, 4].getD sz.toNat 1

/-- Loads, stores and atomics: the address register group and the data (R81, R343, R364, R314, R320). -/
def formLoad (g : Bool) (an : Nat) (w : WMem) (flags : Bool) (top : Nat) : Form :=
  { Form.bare g w.s with
    srcs := [⟨w.a, an⟩], dsts := [⟨w.d, szRegs w.sz⟩], x := w.x
    xok := fun m => accepts m true false false false 0xFF && memClass m [0, 1] flags top
    ok := decide (w.sz.toNat ≤ 4) }
def formStore (g : Bool) (an : Nat) (w : WMem) (top : Nat) : Form :=
  { Form.bare g w.s with
    srcs := [⟨w.a, an⟩, ⟨w.d, szRegs w.sz⟩], x := w.x
    xok := fun m => accepts m true (m.fmt != 63) (m.fmt != 63) false 0xFF && memClass m [0, 2] false top
    ok := decide (w.sz.toNat ≤ 4) }
def formAtomic (an : Nat) (w : WMem) (top : Nat) : Form :=
  { Form.bare false w.s with
    srcs := [⟨w.a, an⟩, ⟨vcOf w.x, szRegs w.sz⟩], dsts := [⟨w.d, szRegs w.sz⟩], x := w.x
    xneeded := true
    xok := fun m => accepts { m with rnd := 0 } false false false true 0xFF && memClass m [0, 1, 2, 3] false top
    ok := w.sz == 2 || w.sz == 3 }

/-- A G-set word with one source group in va. -/
def formSrc (n : Nat) (w : WSrc) : Form :=
  { Form.bare true w.s with srcs := [⟨w.a, n⟩], x := w.x, xok := fun m => accepts m false false false false 0 }
def formAddr (w : WAddr) : Form :=
  { Form.bare true w.s with srcs := [⟨w.a, 2⟩], x := w.x, xok := fun m => accepts m false false false false 0 }

/-- A G-set word with an address pair and a second source, which may name a scope (R81). -/
def formAddr2 (w : WAddr2) (n : Nat) (named : Bool) : Form :=
  { Form.bare true w.s with
    srcs := [⟨w.a, 2⟩, ⟨w.b, n⟩], x := w.x
    xok := fun m => if named then accepts m false false false false 0xE0 && memClass m [0] false 5
      else accepts m false false false false 0 }

/-- A G-set word without registers that takes a guard only. -/
def formGuard (s : Bool) (x : Option XWord) : Form :=
  { Form.bare true s with x := x, xok := fun m => accepts m false false false false 0 }

/-- The special registers that take a pair (R55), those of U form (R54), and those SETSR writes (R361). -/
def pairSrs : List Nat := [0x00, 0x0F, 0x14, 0x17, 0x1A, 0x1D, 0x1F]
def uniformSrs : List Nat :=
  [0x05, 0x06, 0x07, 0x08, 0x09, 0x0A, 0x0B, 0x0C, 0x0D, 0x0E, 0x0F, 0x10, 0x11, 0x12, 0x13, 0x16, 0x17, 0x18, 0x19,
   0x1A, 0x1B, 0x1C, 0x1D, 0x1E, 0x1F]
def writableSrs : List Nat := [0x10, 0x11, 0x12, 0x13, 0x1D, 0x1E, 0x1F]

/-- MOVS and MOVS.G (R55). -/
def formMovs (g : Bool) (w : WNoLa) : Form :=
  { Form.bare g w.s with
    dsts := [⟨w.d, if wideOf w.x then 2 else 1⟩], x := w.x
    xok := fun m => accepts m false false false false 1
    ok := decide (w.a.toNat < 0x20) && (!wideOf w.x || pairSrs.contains w.a.toNat) &&
      (!g || uniformSrs.contains w.a.toNat) }

/-- CVT (R321): the widths of its two formats decide its groups. Whether they and its element suit its registers is seen
when it is performed. -/
def formCvt (width : Nat → Nat) (w : W3) : Form :=
  let sn := if width w.b.toNat = 64 then 2 else 1
  let dn := if width (fmtOf w.x) = 64 then 2 else 1
  { Form.bare false w.s with
    srcs := [⟨w.a, if w.a.toNat % 2 = 1 then 1 else sn⟩], dsts := [⟨w.d, if w.d.toNat % 2 = 1 then 1 else dn⟩], x := w.x
    xneeded := true
    xok := fun m => accepts m true true true false 0
    ok := !w.lb }

/-- The tile words. -/
def formMma (tiles : Nat) (w : WMma) : Form :=
  { Form.bare false w.s with
    srcs := [⟨w.a, 8⟩, ⟨w.b, 8⟩], x := w.x
    xok := fun m => accepts m false false false false 0
    ok := decide (w.acc.toNat < tiles) }
def formAcc (tiles : Nat) (w : WAcc) (read : Bool) : Form :=
  { Form.bare false w.s with
    srcs := if read then [] else [⟨w.r, 8⟩], dsts := if read then [⟨w.r, 8⟩] else [], x := w.x
    xok := fun m => accepts m true true true false 0
    ok := decide (w.acc.toNat < tiles) }

/-- Byte i of FORK's source words (R88). -/
def forkByte (w : WFork) (i : Nat) : BitVec 8 := w.src.extractLsb' (8 * i) 8

/-- FORK's sources. -/
def forkRoles (w : WFork) : List Role :=
  (List.range w.n.toNat).map fun i =>
    let b := forkByte w i
    ⟨b.extractLsb' 0 6, if b.getLsbD 7 then 2 else 1⟩

/-- The fields that R88 allows. -/
def forkOk (w : WFork) : Bool :=
  w.off.isSome && (decide (w.cls.toNat < 4) || decide (16 ≤ w.cls.toNat)) &&
  decide (1 ≤ w.scope.toNat) && decide (w.scope.toNat ≤ 5) && decide (w.n.toNat ≤ 8) && w.low == 0 &&
  (w.off.getD 0).extractLsb' 0 2 == 0 &&
  (List.range 8).all fun i =>
    if i < w.n.toNat then !(forkByte w i).getLsbD 6 else forkByte w i == 0

/-- What each word names. The first argument gives the storage width that a format code selects, 0 where it selects no
entry of a kind other than 0; the second the gang's number of tiles. Engine-class words and events are no words of a
strip: they name nothing, and their ok is false. -/
def formOf (width : Nat → Nat) (tiles : Nat) : Instr → Form
  | .add t w | .sub t w | .mul t w =>
    form3 false (if t == .i64 || t == .n64 then 2 else 1) w fun m => accepts m false false true false 0
  | .mulh t w | .min t w | .max t w | .addc t w =>
    form3 false (if t == .i64 || t == .n64 then 2 else 1) w fun m => accepts m false false false false 0
  | .mad t w => form4 false (if t == .i64 || t == .n64 then 2 else 1) w fun m => accepts m false false true true 0
  | .addG _ w | .subG _ w | .mulG _ w => form3 true 1 w fun m => accepts m false false true false 0
  | .mulhG _ w | .minG _ w | .maxG _ w | .addcG _ w => form3 true 1 w fun m => accepts m false false false false 0
  | .madG _ w => form4 true 1 w fun m => accepts m false false true true 0
  | .and w | .or w | .xor w | .andn w | .shl w | .shr w | .sar w | .bfx w =>
    form3 false 1 w fun m => accepts m false false false false 0
  | .andG w | .orG w | .xorG w | .andnG w | .shlG w | .shrG w | .sarG w =>
    form3 true 1 w fun m => accepts m false false false false 0
  | .popc w | .clz w | .brev w | .fclass w => form2 false 1 w fun m => accepts m false false false false 0
  | .bfi w | .prmt w | .lea w => form4 false 1 w fun m => accepts m false false false true 0
  | .sel w =>
    { form3 false 1 w (fun m => accepts m false false false false 0 && m.ge) with
      xneeded := true, preds := [(w.x.map (·.gp)).getD 0] }
  | .icmp _ w => formCmp false (if wideOf w.x then 2 else 1) w fun m => accepts m false false false false 1
  | .icmpG _ w => formCmp true (if wideOf w.x then 2 else 1) w fun m => accepts m false false false false 1
  | .addi w | .muli w | .andi w | .ori w | .xori w | .shli w | .shri w | .sari w => formImm false w
  | .addiG w => formImm true w
  | .movi w => formMovi false w
  | .moviG w => formMovi true w
  | .mov w => form2 false (if wideOf w.x then 2 else 1) w fun m => accepts m false false false false 7
  | .movG w => form2 true (if wideOf w.x then 2 else 1) w fun m => accepts m false false false false 7
  | .mku w => form2 false (if wideOf w.x then 2 else 1) w fun m => accepts m false false false false 1
  | .movs w => formMovs false w
  | .movsG w => formMovs true w
  | .pmovToReg w | .voteMask w =>
    { Form.bare false w.s with
      dsts := [⟨w.d, 1⟩], preds := [w.q], x := w.x, xok := fun m => accepts m false false false false 0 }
  | .pmovToPred w | .voteSame w =>
    { Form.bare false w.s with
      srcs := [⟨w.a, 1⟩], pdsts := [w.p], x := w.x, xok := fun m => accepts m false false false false 0 }
  | .plop s pd pa pb _ x =>
    { Form.bare false s with
      preds := [pa, pb], pdsts := [pd], x := x, xok := fun m => accepts m false false false false 0 }
  | .fadd f w | .fsub f w | .fmul f w | .fmin f w | .fmax f w =>
    form3 false (if f then 2 else 1) w fun m => accepts m false true false false 0
  | .ffma f w => form4 false (if f then 2 else 1) w fun m => accepts m false true false true 0
  | .fscl f w =>
    { form3 false (if f then 2 else 1) w (fun m => accepts m false true false false 0) with
      srcs := [⟨w.a, if f then 2 else 1⟩, ⟨w.b, 1⟩] }
  | .fcmp f _ w => formCmp false (if f then 2 else 1) w fun m => accepts m false false false false 0
  | .frcp w | .frsq w | .fsqrt w | .fexp2 w | .flog2 w | .fsin w | .fcos w | .ftanh w | .frnd w =>
    form2 false 1 w fun m => accepts m false true false false 0
  | .cvt _ w => formCvt width w
  | .vdot w => form4 false 1 w fun m => accepts m true true true true 0
  | .shfl _ w => form3 false 1 w fun m => accepts m false false false false 0
  | .voteAll w | .voteAny w =>
    { Form.bare false w.s with
      preds := [w.q], pdsts := [w.p], x := w.x, xok := fun m => accepts m false false false false 0 }
  | .reap op w => form2 false 1 w fun m => accepts m false (op == .fadd) false false 0
  | .rng fn w =>
    { Form.bare false w.s with
      dsts := [⟨w.d, 1⟩], x := w.x, xok := fun m => accepts m false false false false 0
      ok := decide (w.a.toNat < 4) && decide (fn.toNat < 3) }
  | .ld w => formLoad false 2 w true 5
  | .ldG w => formLoad true 2 w true 5
  | .lds w => formLoad false 1 w false 1
  | .st w => formStore false 2 w 5
  | .stG w => formStore true 2 w 5
  | .sts w => formStore false 1 w 1
  | .atom w => formAtomic 2 w 5
  | .atoms w => formAtomic 1 w 1
  | .cas w =>
    { formAtomic 2 w 5 with
      srcs := [⟨w.a, 2⟩, ⟨vcOf w.x, szRegs w.sz⟩, ⟨w.d, szRegs w.sz⟩]
      xok := fun m => accepts m false false false true 0xFF && memClass m [0, 1, 2, 3] false 5
      ok := decide (2 ≤ w.sz.toNat) && decide (w.sz.toNat ≤ 4) }
  | .pref w =>
    { Form.bare false w.s with
      srcs := [⟨w.a, 2⟩], x := w.x
      xok := fun m => accepts m false false false false 0xE0 && memClass m [0] false 5 }
  | .ldt w =>
    { Form.bare false w.s with
      srcs := [⟨w.a, 2⟩, ⟨w.b, 1⟩], dsts := [⟨w.d, 8⟩], x := w.x, xneeded := w.t
      xok := fun m => accepts m true false false false 0xFF && memClass m [0, 1] true 5 }
  | .stt w =>
    { Form.bare false w.s with
      srcs := [⟨w.a, 2⟩, ⟨w.b, 1⟩, ⟨w.d, 8⟩], x := w.x
      xok := fun m => accepts m false false false false 0xFF && memClass m [0, 2] false 5 }
  | .stash w =>
    { Form.bare false w.s with
      srcs := [⟨w.a, 2⟩, ⟨w.b, 2⟩, ⟨vcOf w.x, 1⟩, ⟨w.d, 8⟩], x := w.x, xneeded := true
      xok := fun m => accepts m true false false true 0xFF && !m.lc && memClass m [0, 2] false 5 }
  | .mma w => formMma tiles w
  | .smma w =>
    { formMma tiles w with
      srcs := [⟨w.a, 8⟩, ⟨w.b, 8⟩, ⟨vcOf w.x, 4⟩], xneeded := true
      xok := fun m => accepts m false false false true 0 && !m.lc }
  | .accrd w => formAcc tiles w true
  | .accrdZero w => formAcc tiles w true
  | .accwr w => formAcc tiles w false
  | .accwrZero s acc x =>
    { Form.bare false s with
      x := x, xok := fun m => accepts m false false false false 0, ok := decide (acc.toNat < tiles) }
  | .bra s p neg _ _ => { Form.bare true s with preds := if p == 31 && neg then [] else [p] }
  | .join s | .ret s | .elect s | .elend s | .tfence s | .nop s | .replend s | .tret s | .rqrel s => Form.bare true s
  | .call s off lit => { Form.bare true s with ok := lit.isNone || off == 0 }
  | .jmpi w => formSrc 2 w
  | .exit s x => formGuard s x
  | .barSync s _ x | .barArrive s _ x | .barWait s _ x => formGuard s x
  | .fork w => { Form.bare true w.s with srcs := forkRoles w, dsts := [⟨w.d, 1⟩], ok := forkOk w }
  | .rdv w => formSrc 1 w
  | .fence w => { Form.bare true w.s with ok := decide (1 ≤ w.scope.toNat) && decide (w.scope.toNat ≤ 5) }
  | .wait _ w => formAddr2 w 1 true
  | .trap s imm lit => { Form.bare true s with ok := lit.isNone || imm == 0 }
  | .fmtset w =>
    { Form.bare true w.s with
      srcs := [⟨w.a, 2⟩], x := w.x, xok := fun m => accepts m false false false false 0, ok := decide (w.d.toNat < 48) }
  | .fmtget w =>
    { Form.bare true w.s with
      dsts := [⟨w.d, 2⟩], x := w.x, xok := fun m => accepts m false false false false 0, ok := decide (w.a.toNat < 48) }
  | .fmtselSlot s _ _ x => formGuard s x
  | .fmtselReg w => formSrc 1 w
  | .modeset w | .modesetClr w => formSrc 1 w
  | .modesetRm s rm x => { formGuard s x with ok := rm != 0 && rm != 7 }
  | .ckpt w | .replay w | .launch w => formAddr w
  | .tlbinv w => formAddr w
  | .qput s d stage x =>
    { formGuard s x with srcs := [⟨d, 16⟩], ok := decide (stage.toNat < 8) }
  | .qget s d x => { formGuard s x with dsts := [⟨d, 16⟩] }
  | .icinv w | .cflush w | .cflushInv w => formAddr2 w 1 true
  | .rngseed _ w =>
    { Form.bare true w.s with
      srcs := [⟨w.a, 2⟩, ⟨w.b, 2⟩], x := w.x, xok := fun m => accepts m false false false false 0 }
  | .bwsetMem w | .bwsetLink w => formSrc 1 w
  | .pgmapL0 w | .pgmapL1 w => formAddr2 w 2 false
  | .tlbinvCtx s x | .tlbinvAll s x => formGuard s x
  | .harvest w => formAddr2 w 1 false
  | .setsr w =>
    { Form.bare true w.s with
      srcs := [⟨w.a, if wideOf w.x then 2 else 1⟩], x := w.x, xok := fun m => accepts m false false false false 1
      ok := writableSrs.contains w.d.toNat && (!wideOf w.x || w.d == 0x1F) }
  | _ => { Form.bare true false with ok := false }

/-- R92: whether a word has none of the fates that ILLEGAL_OP stands for. -/
def Form.legal (f : Form) : Bool :=
  f.ok && (match f.x with | none => !f.xneeded | some m => f.xok m) && f.srcs.all Role.aligned && f.dsts.all Role.aligned

/-- The guard that a word carries; SEL's guard fields hold its selector (R79). -/
def Form.guardWord (f : Form) (i : Instr) : Option XWord :=
  match i with
  | .sel _ => none
  | _ => f.x

/-- The opcodes 0x30 to 0x35 of the G set, and MOVS of 0x1D to 0x1F (R55, R92). -/
def privileged : Instr → Bool
  | .tret _ | .rqrel _ | .pgmapL0 _ | .pgmapL1 _ | .tlbinv _ | .tlbinvCtx _ _ | .tlbinvAll _ _ | .harvest _
  | .setsr _ => true
  | .movs w | .movsG w => decide (0x1D ≤ w.a.toNat)
  | _ => false

/-- R67: the words other than those with S set that end an unchecked region. CKPT, REPLAY and REPLEND wait at the
recompute barrier as BAR does and end it too (R237). -/
def endsRegion : Instr → Bool
  | .barSync _ _ _ | .barArrive _ _ _ | .barWait _ _ _ | .wait _ _ | .rdv _ | .fence _ | .tfence _ | .qget _ _ _
  | .exit _ _ | .trap _ _ _ | .ckpt _ | .replay _ | .replend _ => true
  | _ => false

/-- R183: whether a word is a release or an acquire by its order field or by what it is, and the scope at which it
releases, 0 where it releases nothing. -/
def ordersAccesses : Instr → Bool
  | .ld w | .ldG w | .lds w | .st w | .stG w | .sts w | .atom w | .atoms w | .cas w => orderOf w.x != 0
  | .ldt w | .stt w | .stash w => orderOf w.x != 0
  | .fork _ | .qput _ _ _ _ | .launch _ => true
  | _ => false
def releaseScope : Instr → Nat
  | .st w | .stG w | .atom w | .cas w => if orderOf w.x ≥ 2 then scopeOf w.x else 0
  | .stt w | .stash w => if orderOf w.x ≥ 2 then scopeOf w.x else 0
  | .fork w => w.scope.toNat
  | .fence w => if w.pre.getLsbD 3 then w.scope.toNat else 0
  | _ => 0

end Sys2Proof.Machine
end

