-- ==== Sys2Proof/Machine/Translate.lean ====
section
/-! DEFINITION. Address translation: leaves and tables (R241 to R247), the walk (R248, R249), permissions (R250), and what
cached translations may answer (R252, R253). -/

namespace Sys2Proof.Machine

/-- The fields of a leaf (R244) that rules name. -/
def leafTwin (e : DWord) : Bool := bitAt e.toNat 59
def leafTwf (e : DWord) : Nat := bitsOf e.toNat 57 2
def leafTws (e : DWord) : Nat := bitsOf e.toNat 55 2
def leafTw (e : DWord) : Bool := bitAt e.toNat 54
def leafTgt (e : DWord) : Nat := bitsOf e.toNat 52 2
def leafFrame (e : DWord) : Nat := bitsOf e.toNat 12 40
def leafCmp (e : DWord) : Bool := bitAt e.toNat 9
def leafOrd (e : DWord) : Nat := bitsOf e.toNat 7 2
def leafSv (e : DWord) : Bool := bitAt e.toNat 6
def leafX (e : DWord) : Bool := bitAt e.toNat 5
def leafW (e : DWord) : Bool := bitAt e.toNat 4
def leafR (e : DWord) : Bool := bitAt e.toNat 3
def entryC (e : DWord) : Bool := bitAt e.toNat 2
def entryLf (e : DWord) : Bool := bitAt e.toNat 1
def entryV (e : DWord) : Bool := bitAt e.toNat 0

/-- M and NEXT of a table entry (R243). -/
def tableM (e : DWord) : Bool := bitAt e.toNat 2
def tableNext (e : DWord) : Nat := bitsOf e.toNat 12 28

/-- The twin window (R219). -/
def twinBase : Nat := 2 ^ 55
def inTwinWindow (va : Nat) : Bool := decide (twinBase ≤ va) && decide (va < twinBase + 2 ^ 54)

/-- Whether a byte of a range lies in the twin window. -/
def touchesWindow (va n : Nat) : Bool :=
  n != 0 && decide (twinBase < va + n) && decide (va < twinBase + 2 ^ 54)

/-- R298: whether a running TDI of another context binds a byte of a range of device memory. -/
def tdiRefuses (s : State) (c pa n : Nat) : Bool :=
  s.dev.tdis.any fun t => t.state == .run && t.ctx != c &&
    t.regions.any fun r => decide (r.base < pa + n) && decide (pa < r.base + r.size)

/-- R278, R298: bytes of device memory that the device itself reads for a context by their physical address; none where the
read returns poison. -/
def deviceRead (s : State) (c pa n : Nat) : Option (List Byte) :=
  if tdiRefuses s c pa n || s.device.poisoned pa n then none else some (s.device.read pa n)

/-- R278, R298, R301: the device itself writes for a context by a physical address, on behalf of an account or of none; a
refused write is dropped. -/
def deviceWrite (s : State) (c : Nat) (acct : Option Nat) (pa : Nat) (bs : List Byte) : State :=
  if tdiRefuses s c pa bs.length then s
  else { s with device := ((s.device.write pa bs).claim acct pa bs.length).unpoison [(pa, bs.length)] }

/-- The number of bytes that a leaf at level l maps (R246). -/
def leafSize (l : Nat) : Nat := if l = 0 then 4096 else 2 ^ 21

/-- The rules for a leaf's TW, TWIN, TWS and TWF (R220, R249). -/
def twinReserved (s : State) (e : DWord) (l va : Nat) : Bool :=
  let page := va / leafSize l * leafSize l
  leafTws e == 3 || leafTwf e == 3 || (leafTw e && leafTwin e) ||
  (leafTw e && (decide (page + leafSize l > 2 ^ 52) || decide (leafTgt e > 1))) ||
  (leafTwin e && (!inTwinWindow page || leafTgt e != 0 || decide (4096 * leafFrame e < s.poolBase) ||
    decide (4096 * leafFrame e + leafSize l > s.frameEnd))) ||
  (!leafTwin e && inTwinWindow page) ||
  (!leafTw e && !leafTwin e && (leafTws e != 0 || leafTwf e != 0))

/-- R249: whether an entry with V = 1, acting at level l for the address va, is reserved. -/
def entryReserved (s : State) (e : DWord) (l va : Nat) : Bool :=
  let n := e.toNat
  if entryLf e then
    bitsOf n 60 4 != 0 || bitAt n 11 || leafOrd e == 3 || decide (l ≥ 2) || (entryC e && l != 0) ||
    (leafTgt e == 0 && bitsOf n 40 12 != 0) || (leafTgt e == 1 && bitsOf n 43 9 != 0) ||
    (l == 0 && entryC e && bitsOf n 12 4 != bitsOf va 12 4) || (l == 1 && bitsOf n 12 9 != 0) ||
    (leafCmp e && (leafTgt e != 0 || leafTw e || leafTwin e)) || twinReserved s e l va
  else
    bitsOf n 40 24 != 0 || bitsOf n 3 9 != 0 || l == 0 || (tableM e && decide (l < 2)) ||
    (tableM e && tableNext e % 512 != 0)

/-- The answer of a walk: a leaf and its level, or a fault's cause code with the level that k15 reports (R251). -/
inductive Walked where
  | leaf (e : DWord) (l : Nat)
  | fault (cause level : Nat)
  deriving DecidableEq, Repr

/-- The table entry at a device address as the walker of a context reads it; none where the read returns poison. -/
def entryRead (s : State) (c pa : Nat) : Option DWord := (deviceRead s c pa 8).map dwordOf

/-- The walk from a node down (R248), with the table entries it goes through (R252). An entry that reads as poison ends it with
MEM_POISON (R278, R298). -/
def walkFrom (s : State) (c va : Nat) : (fuel node l : Nat) → (m : Bool) → Walked × List (Nat × Nat × Nat × Bool)
  | 0, _, l, _ => (.fault 0x11 l, [])
  | fuel + 1, node, l0, m =>
    let l := if m then l0 - 1 else l0
    let idx := if m then bitsOf va (9 * l0 + 3) 18 else bitsOf va (9 * l0 + 12) 9
    match entryRead s c (node + 8 * idx) with
    | none => (.fault 0x18 l, [])
    | some e =>
      if !entryV e then (.fault 0x10 l, [])
      else if entryReserved s e l va then (.fault 0x11 l, [])
      else if entryLf e then (.leaf e l, [])
      else
        let next := tableNext e * 4096
        let (w, path) := walkFrom s c va fuel next (l - 1) (tableM e)
        (w, (9 * l + 12, next, l - 1, tableM e) :: path)

/-- R242: whether a root has a reserved bit set, or M = 1 with a node that is not 2 MiB-aligned. -/
def rootReserved (root : DWord) : Bool :=
  bitsOf root.toNat 40 24 != 0 || bitsOf root.toNat 1 11 != 0 ||
  (bitAt root.toNat 0 && bitsOf root.toNat 12 9 != 0)

/-- The walk of a context's tree without any cached entry (R248). -/
def walkFresh (s : State) (c : Nat) (root : DWord) (va : Nat) : Walked × List (Nat × Nat × Nat × Bool) :=
  if rootReserved root then (.fault 0x11 4, [])
  else walkFrom s c va 6 (bitsOf root.toNat 12 28 * 4096) 4 (bitAt root.toNat 0)

/-- The page of a leaf that an address lies on, and the frame it maps to: a C entry gives FRAME[39:4], the address gives
the low four bits (R246). -/
def frameFor (e : DWord) (va : Nat) : Nat :=
  if entryC e then leafFrame e / 16 * 16 + bitsOf va 12 4 else leafFrame e

/-- The address of the level-0 entry that a walk read last, for a C group: its node (R246). -/
def nodeOfPath (root : DWord) (path : List (Nat × Nat × Nat × Bool)) : Nat × Bool :=
  match path.getLast? with
  | some (_, node, _, m) => (node, m)
  | none => (bitsOf root.toNat 12 28 * 4096, bitAt root.toNat 0)

/-- Entry j of the C group that va lies in, of a node whose entries act at level 0; 0 where it reads as poison. -/
def groupMember (s : State) (c node : Nat) (m : Bool) (va j : Nat) : DWord :=
  let idx := if m then bitsOf va 12 18 else bitsOf va 12 9
  (entryRead s c (node + 8 * (idx / 16 * 16 + j))).getD 0

/-- Whether two entries of a C group serve any page of it alike: the same attributes, and frames that run on. -/
def sameGroup (a b : DWord) : Bool :=
  bitsOf a.toNat 52 12 == bitsOf b.toNat 52 12 && bitsOf a.toNat 0 12 == bitsOf b.toNat 0 12 &&
  leafFrame a / 16 == leafFrame b / 16

/-- The leaf through which a C page is translated: its own entry, or where the sixteen are not alike an entry of the
group that the spec leaves open (R246, log 6). -/
def throughGroup (s : State) (c node : Nat) (m : Bool) (va : Nat) (own : DWord) : DWord :=
  if (List.range 16).all fun j => sameGroup own (groupMember s c node m va j) then own
  else
    let j := (Config.groupEntry s.tick).val
    let e := groupMember s c node m va j
    if entryV e && entryC e && entryLf e && !entryReserved s e 0 (va / 65536 * 65536 + 4096 * j) then e else own

/-- A fresh walk, with R246's choice made for a C page. -/
def walkResult (s : State) (c : Nat) (root : DWord) (va : Nat) (r : Walked × List (Nat × Nat × Nat × Bool)) : Walked :=
  match r.1 with
  | .leaf e 0 =>
    if entryC e then
      let (node, m) := nodeOfPath root r.2
      .leaf (throughGroup s c node m va e) 0
    else .leaf e 0
  | w => w

/-- The leaves that cached translations of a context offer for an address (R252). -/
def tlbHits (s : State) (c va : Nat) : List Walked :=
  (s.tlb.filter fun t => t.ctx == c && decide (t.base ≤ va) && decide (va < t.base + t.size)).map
    fun t => .leaf t.leaf (if t.size = 2 ^ 21 then 1 else 0)

/-- The answers of walks that go on from a cached table entry (R248, R252). -/
def walkHits (s : State) (c va : Nat) (root : DWord) : List Walked :=
  (s.walks.filter fun w => w.ctx == c && w.top == va / 2 ^ w.shift).map
    fun w => walkResult s c root va
      (let r := walkFrom s c va 6 w.node w.level w.merged
       (r.1, (0, w.node, w.level, w.merged) :: r.2))

/-- One of several allowed answers, which one left open (R253, log 6). -/
def pickOf (tick : Nat) (first : Walked) : List Walked → Walked
  | [] => first
  | w :: r => pickOf (tick + 1) (Config.pick tick first w) r

/-- Records what a walk went through: its table entries, and its leaf once the access is granted (R252). -/
def remember (s : State) (c va : Nat) (path : List (Nat × Nat × Nat × Bool)) (leaf : Option (DWord × Nat)) : State :=
  let ws := path.map fun (shift, node, level, m) => WalkEntry.mk c (va / 2 ^ shift) shift node level m
  let s := { s with walks := ws.foldl (fun l w => if l.contains w then l else w :: l) s.walks }
  match leaf with
  | none => s
  | some (e, l) =>
    let size := if l = 0 then (if entryC e then 65536 else 4096) else 2 ^ 21
    let t := TlbEntry.mk c (va / size * size) size e
    if s.tlb.contains t then s else { s with tlb := t :: s.tlb }

/-- The kinds of access of R250. -/
inductive Need where
  | read | write | both | fetch | none
  deriving DecidableEq, Repr

/-- R250: whether a leaf grants an access to an agent with or without supervisor privilege. -/
def granted (e : DWord) (need : Need) (priv : Bool) : Bool :=
  match need with
  | .none => true
  | .read => leafR e && (priv || !leafSv e)
  | .write => leafW e && (priv || !leafSv e)
  | .both => leafR e && leafW e && (priv || !leafSv e)
  | .fetch => leafX e && (priv || !leafSv e)

/-- The target of an address under a leaf (R245, R246). -/
def targetOf (e : DWord) (l va : Nat) : Target :=
  let a := if l = 0 then frameFor e va * 4096 + va % 4096 else leafFrame e * 4096 + va % 2 ^ 21
  match leafTgt e with
  | 0 => .device (a % 2 ^ 40)
  | 1 => .tier (a % 2 ^ 43)
  | 2 => .host a
  | _ => .peer (bitsOf a 38 14) (a % 2 ^ 38)

/-- The translation of one address in a context: its leaf and target, or a cause and the level for k15. -/
def translate (s : State) (c va : Nat) (need : Need) (priv : Bool) : Except (Nat × Nat) (DWord × Target) × State :=
  match s.ctx? c with
  | none => (.error (0x10, 7), s)
  | some x =>
    if va ≥ 2 ^ 57 then (.error (0x10, 7), s)
    else
      let fresh := walkFresh s c x.root va
      let others := tlbHits s c va ++ walkHits s c va x.root
      match pickOf (s.tick + 1) (walkResult s c x.root va fresh) others with
      | .fault cause level => (.error (cause, level), (remember s c va fresh.2 none).bump (others.length + 1))
      | .leaf e l =>
        if granted e need priv then
          (.ok (e, targetOf e l va), (remember s c va fresh.2 (some (e, l))).bump (others.length + 1))
        else (.error (0x12, l), (remember s c va fresh.2 none).bump (others.length + 1))

/-- The word that an access's walk report writes to k15 (R251), and the report of a walk that ends with a cause: none for
poison. -/
def walkReport (fetch wr : Bool) (level : Nat) : Word :=
  BitVec.ofNat 32 (level + (if wr then 8 else 0) + (if fetch then 16 else 0))
def faultReport (fetch wr : Bool) (cause level : Nat) : Word := if cause ≤ 0x12 then walkReport fetch wr level else 0

end Sys2Proof.Machine
end

