-- ==== Sys2Proof/Machine/Access.lean ====
section
/-! DEFINITION. Performing memory accesses at their home (R21, R163, R166 to R170, R278, R283, R284, R291 to R293) and the
adjoint twin: counts, accumulation and consumption (R219 to R233). -/

namespace Sys2Proof.Machine

/-- An access's part with its segments; cause 0 while nothing has faulted. -/
structure Plan where
  req : LaneReq
  segs : List Seg
  waits : Bool
  deriving DecidableEq, Repr

/-- Cuts a range at 4 KiB pages; fuel bounds the number of pages. -/
def splitPages : (fuel va len : Nat) → List (Nat × Nat)
  | 0, _, _ => []
  | fuel + 1, va, len =>
    if len = 0 then [] else
      let n := 4096 - va % 4096
      if len ≤ n then [(va, len)] else (va, n) :: splitPages fuel (va + n) (len - n)

/-- Records a fault of a part: the lowest code wins, and for one code the lowest address (R261). -/
def LaneReq.fail (r : LaneReq) (cause : Nat) (at_ : Nat) (report : Word) : LaneReq :=
  if r.cause = 0 ∨ cause < r.cause ∨ (cause = r.cause ∧ at_ < r.at_.toNat) then
    { r with cause := cause, at_ := BitVec.ofNat 64 at_, report := report }
  else r

/-- Translates the pages of a part (R161, R179, R250). -/
def planPages (s : State) (c : Nat) (need : Need) (priv wr : Bool) (req : LaneReq) :
    List (Nat × Nat) → Plan × State
  | [] => (Plan.mk req [] false, s)
  | (va, len) :: rest =>
    let (r, s) := translate s c va need priv
    let (p, s) := planPages s c need priv wr req rest
    match r with
    | .ok (leaf, tgt) => ({ p with segs := Seg.mk va len leaf tgt :: p.segs }, s)
    | .error (cause, level) => ({ p with req := p.req.fail cause va (faultReport false wr cause level) }, s)

/-- Translates one part of an access; an address with a bit of [63:57] set faults without a walk (R161). A part that has
waited at its home or at a port keeps where it leads (R254). -/
def planReq (s : State) (c : Nat) (need : Need) (priv wr : Bool) (req : LaneReq) : Plan × State :=
  let va := req.addr.toNat
  if !req.held.isEmpty then (Plan.mk req req.held false, s)
  else if va + req.len > 2 ^ 57 then
    (Plan.mk (req.fail 0x10 va (walkReport false wr 7)) [] false, s)
  else planPages s c need priv wr { req with cause := 0, at_ := 0, report := 0 } (splitPages (req.len / 4096 + 2) va req.len)

def planAll (s : State) (c : Nat) (need : Need) (priv wr : Bool) : List LaneReq → List Plan × State
  | [] => ([], s)
  | r :: rest =>
    let (p, s) := planReq s c need priv wr r
    let (ps, s) := planAll s c need priv wr rest
    (p :: ps, s)

/-- The port of a second-tier address (R245). -/
def portOf (pa : Nat) : Nat := pa / 2 ^ 41 % 4

/-- Entry k of a context's peer table (R292): DEVID, exporting context and V; none where it reads as poison (R278, R298). -/
def peerEntry (s : State) (c k : Nat) : Option (DWord × Nat × Bool) :=
  (deviceRead s c ((s.cfg c).peertab.toNat + 16 * k) 16).map fun b =>
    (dwordOf b, (b.getD 8 0).toNat, decide (k < (s.cfg c).npeer) && bitAt (b.getD 9 0).toNat 0)

/-- The ports over which requests to a DEVID go: those of its ROUTE entry, else DEFPORT (R292, R302). -/
def portsTo (s : State) (devid : DWord) : BitVec 12 :=
  match s.dev.routes.find? fun r => r.2.getLsbD 76 && r.2.extractLsb' 0 64 == devid with
  | some r => r.2.extractLsb' 64 12
  | none => s.dev.defport

/-- Whether one of those ports is up; a request that has none gets no response. -/
def reaches (s : State) (devid : DWord) : Bool :=
  (List.range 12).any fun i => (portsTo s devid).getLsbD i && vget s.dev.fabricPorts i false

/-- The window that a peer slot names, if a request reaches the peer and it is one that this device knows. -/
def peerOf (s : State) (c k : Nat) : Option Peer :=
  (peerEntry s c k).bind fun (d, x, v) =>
    if v && reaches s d then s.peers.find? fun p => p.devid == d && p.xctx == x else none

/-- Whether a target lies behind a peer. -/
def Target.isPeer : Target → Bool
  | .peer _ _ => true
  | _ => false

/-- What stands in the way of a segment: nothing, a cause with the level for k15 and how far behind the segment's start the
first byte lies that meets it, or a wait. -/
inductive Trouble where
  | none
  | fault (cause level off : Nat)
  | waits
  deriving DecidableEq, Repr

/-- Poison in a memory that an access reads (R278). -/
def poisonTrouble (r : Ram) (pa len : Nat) : Trouble :=
  match r.firstPoison pa len with
  | some a => .fault 0x18 0 (a - pa)
  | none => .none

/-- R278, R291, R292, R293, R298: what an access to a segment meets at its target; rd is whether it reads. An accumulation
into a twin reads what it adds to (R228). -/
def segTrouble (s : State) (c : Nat) (rd : Bool) (g : Seg) : Trouble :=
  match g.tgt with
  | .device pa =>
    if tdiRefuses s c pa g.len then (if rd then .fault 0x18 0 0 else .none)
    else if rd || leafTwin g.leaf then poisonTrouble s.device pa g.len
    else .none
  | .tier pa =>
    match vget s.dev.ports (portOf pa) .up with
    | .failed => .fault 0x19 0 0
    | .retrain _ => .waits
    | .up => if rd then poisonTrouble s.tier pa g.len else .none
  | .host _ => .none
  | .peer k off =>
    match peerEntry s c k with
    | none => .fault 0x18 0 0
    | some (_, _, false) => .fault 0x12 7 0
    | some (_, _, true) =>
      match peerOf s c k with
      | none => .waits
      | some p =>
        if !p.answers then .waits
        else match p.faults.find? (·.1 == off / 4096) with
          | some (_, cause) => .fault cause 7 0
          | none => .none

/-- Whether a device address lies in the count shadow (R221). -/
def inShadow (s : State) (pa : Nat) : Bool := decide (s.frameEnd ≤ pa) && decide (pa < s.poolBase + s.poolSize)

/-- The bytes of a segment. No instruction reaches a count word (R177): what a page that maps the count shadow reads as is
left open (log 15). -/
def readSeg (s : State) (c : Nat) (g : Seg) : List Byte :=
  match g.tgt with
  | .device pa =>
    if inShadow s pa then (List.range g.len).map fun i => Config.shadowByte s.tick (pa + i) else s.device.read pa g.len
  | .tier pa => s.tier.read pa g.len
  | .host pa => cellsRead s.host pa g.len
  | .peer k off => match peerOf s c k with
    | some p => cellsRead p.cells off g.len
    | none => []

/-- The byte values in a list, one bit each. -/
def bytesMask (bs : List Byte) : BitVec 256 :=
  bs.foldl (fun m b => m ||| ((1 : BitVec 256) <<< b.toNat)) 0

/-- The byte values that agents of a context have written (R165). -/
def State.wroteBy (s : State) (c : Nat) : BitVec 256 := ((s.wrote.find? (·.1 == c)).map (·.2)).getD 0

/-- An agent of a context has written bytes (R165). -/
def noteWrote (c : Nat) (bs : List Byte) (s : State) : State :=
  let m := s.wroteBy c ||| bytesMask bs
  if m = s.wroteBy c then s else { s with wrote := (c, m) :: s.wrote.filter (·.1 != c) }

/-- Writes a memory of this package in a bench's L1, or at its home (R168, R257). -/
def Ram.writeBy (r : Ram) (bench : Option Nat) (a : Nat) (bs : List Byte) : Ram :=
  match bench with
  | some b => r.writeOwned b a bs
  | none => r.write a bs

/-- Writes the bytes of a segment. A write into a running TDI of another context is dropped (R298), and so is one into the
count shadow, which no instruction reaches (R177, log 15). -/
def writeSegBy (s : State) (c : Nat) (bench : Option Nat) (g : Seg) (bs : List Byte) : State :=
  match g.tgt with
  | .device pa =>
    if tdiRefuses s c pa g.len || inShadow s pa then s else { s with device := s.device.writeBy bench pa bs }
  | .tier pa => { s with tier := s.tier.writeBy bench pa bs }
  | .host pa => { s with host := cellsWrite s.host pa bs }
  | .peer k off =>
    match peerEntry s c k with
    | some (d, x, _) =>
      let put (p : Peer) : Peer := { p with cells := cellsWrite p.cells off bs }
      { s with peers := mapWhere (fun p => p.devid == d && p.xctx == x) put s.peers }
    | none => s

/-- Writes the bytes of a segment at its home, for an agent of a context. -/
def writeSeg (s : State) (c : Nat) (g : Seg) (bs : List Byte) : State := writeSegBy (noteWrote c bs s) c none g bs

/-- The bytes of all segments of a plan. -/
def Plan.read (s : State) (c : Nat) (p : Plan) : List Byte := p.segs.flatMap (readSeg s c)

/-- Writes a part's bytes over its segments, lower pages first (R179). -/
def writeSegs (s : State) (c : Nat) : List Seg → List Byte → State
  | [], _ => s
  | g :: r, bs => writeSegs (writeSeg s c g (bs.take g.len)) c r (bs.drop g.len)

/-! The twin. -/

/-- The twin scale, and the entry of the twin element format (R219). -/
def twinScale (e : DWord) : Nat := 2 ^ leafTws e
def twinEnt (e : DWord) : Ent := Ent.of (fixedEntries.getD ([0, 3, 2].getD (leafTwf e) 0) 0)
def twinBytes (e : DWord) : Nat := (twinEnt e).wid / 8

/-- A twin block at its home: the address of its count word, its first byte and its length (R221). -/
structure TwinBlock where
  key : Nat
  pa : Nat
  len : Nat
  deriving DecidableEq, Repr

/-- The blocks that a segment of a twin page touches. -/
def blocksOf (s : State) (g : Seg) : List TwinBlock :=
  match g.tgt with
  | .device pa =>
    let n := 32 * twinScale g.leaf
    (unitsOf n g.va g.len).map fun u =>
      let x := pa + n * u - g.va
      TwinBlock.mk (s.countAddr x) x n
  | _ => []

/-- R220: whether the primal page of every byte of a twin segment is present, twin-enabled and of the same scale and
format. A segment lies within one page, and so does its primal image or its ends show the two pages. -/
def primalMatches (s : State) (c : Nat) (g : Seg) : Bool :=
  let ok (t : Nat) : Bool :=
    match (translate s c ((t - twinBase) / twinScale g.leaf) .none true).1 with
    | .ok (e, _) => leafTw e && leafTws e == leafTws g.leaf && leafTwf e == leafTwf g.leaf
    | .error _ => false
  ok g.va && ok (g.va + g.len - 1)

/-- R220, R225: the count word of primal sector u of a twin-enabled page with a segment's leaf, or none where its twin page
cannot be found. -/
def sectorKey (s : State) (c : Nat) (g : Seg) (u : Nat) : Option Nat :=
  match (translate s c (twinBase + twinScale g.leaf * (32 * u)) .none true).1 with
  | .ok (e, .device x) =>
    if leafTwin e && leafTws e == leafTws g.leaf && leafTwf e == leafTwf g.leaf then some (s.countAddr x) else none
  | _ => none

/-- The count words of the sectors that a segment touches, or none where one is missing. -/
def sectorKeys (s : State) (c : Nat) (g : Seg) : Option (List Nat) := (unitsOf 32 g.va g.len).mapM (sectorKey s c g)

/-- The first byte of a segment that lies at or behind an address. -/
def Seg.from_ (g : Seg) (a : Nat) : Nat := if a < g.va then g.va else a

/-- STATE and COUNT of a count word (R223). -/
def countState (s : State) (key : Nat) : Nat := bitsOf (s.device.word key).toNat 24 2
def countUses (s : State) (key : Nat) : Nat := bitsOf (s.device.word key).toNat 0 24

/-- Sets a count word. Its home changes it; no agent's store does (R177), so no line is dirtied and no frame marked. -/
def setCount (s : State) (key st n : Nat) : State :=
  { s with device := { s.device with cells := cellsWrite s.device.cells key (toBytes (st * 2 ^ 24 + n) 4) } }

/-- R224: whether adding n uses overflows, and the addition. -/
def addOverflows (s : State) (key n : Nat) : Bool :=
  countState s key == 1 && decide (countUses s key + n ≥ 2 ^ 24)
def addUses (s : State) (key n : Nat) : State :=
  if countState s key == 1 then setCount s key 1 (countUses s key + n) else setCount s key 1 n

/-- R224: whether an accumulation of k uses underflows, and its count change. -/
def subUnderflows (s : State) (key k : Nat) : Bool :=
  countState s key != 1 || decide (countUses s key < k)
def subUses (s : State) (key k : Nat) : State :=
  if countUses s key = k then setCount s key 2 0 else setCount s key 1 (countUses s key - k)

/-- R224: the consuming read of a READY block empties it. -/
def consume (s : State) (b : TwinBlock) : State :=
  if countState s b.key == 2 then
    setCount { s with device := s.device.write b.pa (List.replicate b.len 0) } b.key 0 0
  else s

/-- R228: adds one element, given by its code in the format f, into the twin element at pa. The second result is
whether the element is then NaN or infinite (R240). -/
def accumulate (s : State) (twf f : Ent) (pa : Nat) (code : List Byte) : State × Bool :=
  let n := twf.wid / 8
  let q := (twf.round 1 false 0 (f.decode (ofBytes code))).1
  let old := ofBytes (s.device.read pa n)
  let new := (twf.round 1 false 0 (((twf.decode old).add false (twf.decode q)))).1
  let v := twf.decode new
  ({ s with device := s.device.write pa (toBytes new n) }, v.isNan || v.isInf)

/-- R228: accumulates consecutive elements; fuel is their number. -/
def accumulateAll (twf f : Ent) : (fuel : Nat) → State → Nat → List Byte → State × Bool
  | 0, s, _, _ => (s, false)
  | fuel + 1, s, pa, bs =>
    if bs.isEmpty then (s, false) else
      let n := twf.wid / 8
      let (s, a) := accumulate s twf f pa (bs.take n)
      let (s, b) := accumulateAll twf f fuel s (pa + n) (bs.drop n)
      (s, a || b)

/-- The bytes that a store puts into a segment: those that a higher lane has written already stay (R166). -/
def keptBytes (s : State) (c : Nat) (skip : List Nat) (g : Seg) (bs : List Byte) : List Byte :=
  if skip.isEmpty then bs
  else
    let old := readSeg s c g
    bs.zipIdx.map fun (b, i) => if skip.contains (g.va + i) then old.getD i b else b

/-- Writes a part's bytes: to a twin page they accumulate, elsewhere they are stored, in a bench's L1 or at their home. An
accumulation into a running TDI of another context is dropped (R298). -/
def depositSegs (s : State) (c : Nat) (bench : Option Nat) (entry : Option DWord) (skip : List Nat) :
    List Seg → List Byte → State × Bool
  | [], _ => (s, false)
  | g :: r, bs =>
    let here := bs.take g.len
    let (s, a) :=
      if leafTwin g.leaf then
        match g.tgt with
        | .device pa =>
          if tdiRefuses s c pa g.len then (s, false)
          else accumulateAll (twinEnt g.leaf) ((entry.map Ent.of).getD (twinEnt g.leaf)) g.len s pa here
        | _ => (s, false)
      else
        let kept := keptBytes s c skip g here
        (writeSegBy (noteWrote c here s) c bench g kept, false)
    let (s, b) := depositSegs s c bench entry skip r (bs.drop g.len)
    (s, a || b)

/-- The device and second-tier ranges that plans write, for clearing poison (R278). -/
def deviceRanges (s : State) (c : Nat) (ps : List Plan) : List (Nat × Nat) :=
  ps.flatMap fun p => p.segs.filterMap fun g => match g.tgt with
    | .device pa => if tdiRefuses s c pa g.len then none else some (pa, g.len)
    | _ => none
def tierRanges (ps : List Plan) : List (Nat × Nat) :=
  ps.flatMap fun p => p.segs.filterMap fun g => match g.tgt with
    | .tier pa => some (pa, g.len)
    | _ => none
def unpoisonBy (s : State) (c : Nat) (ps : List Plan) : State :=
  { s with device := s.device.unpoison (deviceRanges s c ps), tier := s.tier.unpoison (tierRanges ps) }

/-- Poison, links and peers, for every segment of a plan. -/
def Plan.meet (s : State) (c : Nat) (rd wr : Bool) (p : Plan) : Plan :=
  p.segs.foldl (fun p g =>
    match segTrouble s c rd g with
    | .none => p
    | .fault cause level off =>
      { p with req := p.req.fail cause (g.va + off) (if level = 7 then walkReport false wr 7 else 0) }
    | .waits => { p with waits := true }) p

/-- Twin misuse that only translation shows (R220, R230): a primal page that does not match, an element written in part,
or a format of another width. -/
def Plan.meetTwin (s : State) (c : Nat) (wr : Bool) (entry : Option DWord) (p : Plan) : Plan :=
  p.segs.foldl (fun p g =>
    if !leafTwin g.leaf then p
    else if !primalMatches s c g then { p with req := p.req.fail 0x13 g.va 0 }
    else if wr && (g.len % twinBytes g.leaf != 0 ||
        (match entry with | some e => (Ent.of e).wid != (twinEnt g.leaf).wid | none => false)) then
      { p with req := p.req.fail 0x13 g.va 0 }
    else p) p

def Plan.ok (p : Plan) : Bool := p.req.cause == 0 && !p.waits

/-- The parts of a plan for which a peer has to answer and does not (R293). -/
def Plan.silent (s : State) (c : Nat) (p : Plan) : List Seg :=
  p.segs.filter fun g => segTrouble s c false g == .waits && g.tgt.isPeer
def Plan.asks (s : State) (c : Nat) (p : Plan) : List Nat := (p.silent s c).map (·.va)

/-- R293: a part that a peer has not answered in time faults with TIER_LINK; asked gives the clock at which the request for a
virtual address was sent. -/
def Plan.late (s : State) (c : Nat) (asked : Nat → Option DWord) (p : Plan) : Plan :=
  ((p.silent s c).filter fun g => peerOverdue s (asked g.va)).foldl (fun p g => { p with req := p.req.fail 0x19 g.va 0 }) p

/-- The clock at which an access began to wait, if it has waited: its parts then keep where they lead. -/
def Access.asked (a : Access) : Option DWord := if a.lanes.any (!·.held.isEmpty) then some a.since else none

/-- Whether a segment lies on an SO page (R178); twin pages behave as RC (R177). -/
def Seg.isSo (g : Seg) : Bool := leafOrd g.leaf == 1 && !leafTwin g.leaf

/-- R178: the parts of an instruction on SO pages are performed in ascending address order, so one behind a part that waits
waits too; fuel is the number of parts. -/
def behindSo : (fuel : Nat) → List Plan → List Plan
  | 0, ps => ps
  | fuel + 1, ps =>
    match (ps.filter (·.waits)).flatMap (fun p => (p.segs.filter Seg.isSo).map (·.va)) with
    | [] => ps
    | a :: r =>
      let low := r.foldl (fun m b => if b < m then b else m) a
      behindSo fuel (ps.map fun p => if p.segs.any fun g => g.isSo && decide (low < g.va) then { p with waits := true } else p)

/-- The count words that a plan's parts of twin-enabled pages touch, each with the first address that does. -/
def Plan.primalKeys (s : State) (c : Nat) (p : Plan) : List (Nat × Nat) :=
  p.segs.flatMap fun g =>
    if leafTw g.leaf then
      (((sectorKeys s c g).getD []).zip (unitsOf 32 g.va g.len)).map fun (k, u) => (k, g.from_ (32 * u))
    else []

/-- The twin blocks that a plan's parts touch, each with the first address that does. -/
def Plan.twinBlocks (s : State) (p : Plan) : List (TwinBlock × Nat) :=
  p.segs.flatMap fun g =>
    if leafTwin g.leaf then
      let n := 32 * twinScale g.leaf
      ((blocksOf s g).zip (unitsOf n g.va g.len)).map fun (b, u) => (b, g.from_ (n * u))
    else []
def Plan.twinKeys (s : State) (p : Plan) : List (Nat × Nat) := (p.twinBlocks s).map fun (b, a) => (b.key, a)

/-- The count words of the twin blocks that a plan writes; a refused write changes none (R298). -/
def Plan.writtenKeys (s : State) (c : Nat) (p : Plan) : List (Nat × Nat) :=
  ((p.twinBlocks s).filter fun (b, _) => !tdiRefuses s c b.pa b.len).map fun (b, a) => (b.key, a)

/-- The pairs of a count word and a part that touches it, over the plans that are still to be performed. -/
def touchesOf (keys : Plan → List (Nat × Nat)) (ps : List Plan) : List (Nat × Nat) :=
  (ps.filter Plan.ok).flatMap fun p => (keys p).map fun k => (k.1, p.req.lane)
def primalTouches (s : State) (c : Nat) (ps : List Plan) : List (Nat × Nat) := touchesOf (Plan.primalKeys s c) ps

/-- The twin blocks that the plans to be performed touch. -/
def blocksTouched (s : State) (ps : List Plan) : List TwinBlock :=
  (ps.filter Plan.ok).flatMap fun p => (p.twinBlocks s).map (·.1)

/-- Removes repeated elements, keeping the first. -/
def nub {α : Type} [BEq α] : List α → List α → List α
  | [], seen => seen.reverse
  | x :: r, seen => if seen.contains x then nub r seen else nub r (x :: seen)

/-- The uses of each count word: the parts that touch it, or one for an instruction that counts once (R225, R229). -/
def usesOf (once : Bool) (touches : List (Nat × Nat)) : List (Nat × Nat) :=
  (nub (touches.map (·.1)) []).map fun k =>
    (k, if once then 1 else (nub (touches.filter (·.1 == k)) []).length)

/-- The uses of one count word by the parts that are performed and the given one. -/
def usesAt (once : Bool) (touches : List (Nat × Nat)) (k lane : Nat) : Nat :=
  if once then 1 else (nub (lane :: (touches.filter (·.1 == k)).map (·.2)) []).length

/-- Fails, at the first address that touches it, every part that touches a count word for which test holds with its uses. A
part that has met a higher code meets this one too (R261). -/
def failUses (cause : Nat) (once : Bool) (test : Nat → Nat → Bool) (keys : Plan → List (Nat × Nat)) (ps : List Plan) :
    List Plan :=
  let touches := touchesOf keys ps
  ps.map fun p =>
    if p.waits || (p.req.cause != 0 && decide (p.req.cause < cause)) then p
    else
      ((keys p).filter fun (k, _) => test k (usesAt once touches k p.req.lane)).foldl
        (fun p (_, a) => { p with req := p.req.fail cause a 0 }) p

/-- A tile instruction faults as a whole, and waits as a whole (R270). -/
def wholeIf (whole : Bool) (ps : List Plan) : List Plan :=
  if !whole then ps
  else
    let bad := ps.filter fun p => p.req.cause != 0
    match bad.foldl (fun (m : Option Plan) p => match m with
        | none => some p
        | some q => if p.req.cause < q.req.cause || (p.req.cause == q.req.cause && p.req.at_.toNat < q.req.at_.toNat)
          then some p else m) none with
    | some q => ps.map fun p => { p with req := { p.req with cause := q.req.cause, at_ := q.req.at_, report := q.req.report } }
    | none => if ps.any (·.waits) then ps.map fun p => { p with waits := true } else ps

/-- What performing an access gave. -/
structure Performed where
  done : List (LaneReq × List Byte)
  faulted : List LaneReq
  waiting : List LaneReq
  nonfinite : Bool
  peerBytes : Nat
  peerWrites : Nat
  segs : List Seg
  deriving DecidableEq, Repr

/-- The bytes that plans move over the fabric. -/
def peerBytesOf (ps : List Plan) : Nat :=
  ps.foldl (fun n p => p.segs.foldl (fun n g => match g.tgt with
    | .peer _ _ => n + g.len
    | _ => n) n) 0

/-- Sorts plans into performed, faulted and waiting ones. A part that waits keeps where it leads (R254). -/
def performedOf (ps : List Plan) (bytes : Plan → List Byte) (nonfinite wr : Bool) : Performed where
  done := (ps.filter Plan.ok).map fun p => (p.req, bytes p)
  faulted := (ps.filter fun p => p.req.cause != 0).map (·.req)
  waiting := (ps.filter fun p => p.req.cause == 0 && p.waits).map fun p => { p.req with held := p.segs }
  nonfinite := nonfinite
  peerBytes := peerBytesOf (ps.filter Plan.ok)
  peerWrites := if wr && peerBytesOf (ps.filter Plan.ok) != 0 then 1 else 0
  segs := (ps.filter Plan.ok).flatMap (·.segs)

/-- R220, R261: a counting read faults at its first byte in a sector whose twin page cannot be found. -/
def missingTwin (s : State) (c : Nat) (p : Plan) : Plan :=
  p.segs.foldl (fun p g =>
    if !leafTw g.leaf then p
    else match (unitsOf 32 g.va g.len).find? fun u => (sectorKey s c g u).isNone with
      | some u => { p with req := p.req.fail 0x13 (g.from_ (32 * u)) 0 }
      | none => p) p

/-- R220, R227: the counting checks of a read: lanes whose twin page cannot be found, and overflowing additions. -/
def checkCounts (s : State) (c : Nat) (once : Bool) (ps : List Plan) : List Plan :=
  let ps := ps.map (missingTwin s c)
  failUses 0x15 once (addOverflows s) (Plan.primalKeys s c) ps

/-- Adds the uses of a read that is performed (R225, R227). -/
def countReads (s : State) (c : Nat) (once : Bool) (ps : List Plan) : State :=
  (usesOf once (primalTouches s c ps)).foldl (fun s (k, n) => addUses s k n) s

/-- The consuming reads among the plans: an OPEN block makes its lanes wait, or fault at once under flt (R232, R233). -/
def meetBlocks (s : State) (flt : Bool) (ps : List Plan) : List Plan :=
  if flt then failUses 0x16 true (fun k _ => countState s k == 1) (Plan.twinKeys s) ps
  else ps.map fun p =>
    if p.ok && (p.twinKeys s).any fun (k, _) => countState s k == 1 then { p with waits := true } else p

/-- The lines that a .LAST load discards (R170): not those of twin-enabled pages, nor of uncached memory. -/
def discardLines (s : State) (ps : List Plan) : State :=
  let dev := nub ((ps.filter Plan.ok).flatMap fun p => p.segs.flatMap fun g => match g.tgt with
    | .device pa => if leafTw g.leaf || leafTwin g.leaf then [] else unitsOf 128 pa g.len
    | _ => []) []
  let tier := nub ((ps.filter Plan.ok).flatMap fun p => p.segs.flatMap fun g => match g.tgt with
    | .tier pa => if leafTw g.leaf || leafTwin g.leaf then [] else unitsOf 128 pa g.len
    | _ => []) []
  let s := dev.foldl (fun s n => { s with device := s.device.discard n s.tick, tick := s.tick + 128 }) s
  tier.foldl (fun s n => { s with tier := s.tier.discard n s.tick, tick := s.tick + 128 }) s

/-- A read by one agent takes the ownership of the lines it reads from the L1 of another (R168, R257, log 16). -/
def recallSegs (bench : Option Nat) (gs : List Seg) (s : State) : State :=
  gs.foldl (fun s g => match g.tgt with
    | .device pa => { s with device := s.device.recall (ownedElsewhere bench pa g.len) }
    | .tier pa => { s with tier := s.tier.recall (ownedElsewhere bench pa g.len) }
    | _ => s) s

/-- R343, R345: performs a load. whole is a tile, once an instruction that counts one use (R225). -/
def performLoad (s : State) (c : Nat) (a : Access) (whole once : Bool) : Performed × State :=
  let (ps, s) := planAll s c .read a.priv false a.lanes
  let ps := behindSo ps.length (ps.map fun p => ((p.meet s c true false).late s c fun _ => a.asked).meetTwin s c false none)
  let ps := if a.counts then checkCounts s c once ps else ps
  let ps := wholeIf whole (meetBlocks s a.flt ps)
  let r := performedOf ps (Plan.read s c) false false
  let s := if a.counts then countReads s c once ps else s
  let s := (nub (blocksTouched s ps) []).foldl consume s
  let s := recallSegs a.bench r.segs s
  (r, if a.last then discardLines s ps else s)

/-- R166: the addresses of the bytes of a part of a store that higher lanes have written. -/
def coveredBy (done : List LaneReq) (r : LaneReq) : List Nat :=
  (done.filter fun d => decide (r.lane < d.lane)).flatMap fun d =>
    ((List.range r.len).map (r.addr.toNat + ·)).filter fun a => decide (d.addr.toNat ≤ a) && decide (a < d.addr.toNat + d.len)

/-- A part of a store that is performed later than the given parts of the same store. -/
def behindDone (done : List LaneReq) (r : LaneReq) : LaneReq := { r with skip := addNew (coveredBy done r) r.skip }

/-- R364, R366, R367: performs a store; lanes are written in ascending order, so the higher lane's byte stays (R166). -/
def performStore (s : State) (c : Nat) (a : Access) (whole once : Bool) : Performed × State :=
  let (ps, s) := planAll s c .write a.priv true a.lanes
  let ps := behindSo ps.length (ps.map fun p => ((p.meet s c false true).late s c fun _ => a.asked).meetTwin s c true a.entry)
  let ps := wholeIf whole (failUses 0x14 once (subUnderflows s) (Plan.writtenKeys s c) (wholeIf whole ps))
  let s := (usesOf once (touchesOf (Plan.writtenKeys s c) ps)).foldl (fun s (k, n) => subUses s k n) s
  let (s, nf) := (ps.filter Plan.ok).foldl
    (fun (s, nf) p =>
      let (s, b) := depositSegs s c a.bench a.entry p.req.skip p.segs p.req.data
      (s, nf || b)) (s, false)
  let r := performedOf ps (fun _ => []) nf true
  let done := r.done.map (·.1)
  ({ r with faulted := r.faulted.map (behindDone done), waiting := r.waiting.map (behindDone done) },
   unpoisonBy s c (ps.filter Plan.ok))

/-- R314: the new value of an atomic operation on n-byte values. -/
def atomicOp (op n : Nat) (o d : Nat) : Nat :=
  let w := 8 * n
  let sgn (x : Nat) : Int := if bitAt x (w - 1) then (x : Int) - (2 ^ w : Nat) else x
  let f := if n = 4 then entFp32 else entFp64
  match op with
  | 0 => (o + d) % 2 ^ w
  | 1 => (f.round 1 false 0 ((f.decode o).add false (f.decode d))).1
  | 2 => if sgn d < sgn o then d else o
  | 3 => if sgn d > sgn o then d else o
  | 4 => o &&& d
  | 5 => o ||| d
  | 6 => o ^^^ d
  | _ => d

/-- One lane's atomic step at its home: its old bytes, whether it wrote, and the state (R314, R320). -/
def atomicLane (s : State) (c : Nat) (a : Access) (p : Plan) : List Byte × Bool × State :=
  let old := p.read s c
  match a.kind with
  | .cas => if old == p.req.cmp then (old, true, writeSegs s c p.segs p.req.data) else (old, false, s)
  | _ => (old, true, writeSegs s c p.segs (toBytes (atomicOp a.op a.size (ofBytes old) (ofBytes p.req.data)) a.size))

/-- The lanes of an atomic, in ascending order (R166): their old bytes, and whether one of them wrote to a peer. -/
def atomicLanes (c : Nat) (a : Access) : List Plan → State → List (LaneReq × List Byte) × Bool × State
  | [], s => ([], false, s)
  | p :: r, s =>
    if p.ok then
      let (old, wrote, s) := atomicLane s c a p
      let (rest, peer, s) := atomicLanes c a r s
      ((p.req, old) :: rest, peer || (wrote && peerBytesOf [p] != 0), s)
    else atomicLanes c a r s

/-- R284: an atomic to host memory whose AtomicOp completes as Unsupported Request or Completer Abort, as a 16-byte CAS does
without the 128-bit completion. Which others do is the root complex's (log 6). -/
def hostRefuses (s : State) (a : Access) (p : Plan) : Plan :=
  p.segs.foldl (fun p g => match g.tgt with
    | .host pa =>
      if (a.size == 16 && !s.dev.c128) || Config.hostAborts pa
      then { p with req := p.req.fail 0x18 g.va 0 } else p
    | _ => p) p

/-- R314, R320: performs an ATOM or CAS; on a twin-enabled page its read counts (R225). -/
def performAtomic (s : State) (c : Nat) (a : Access) : Performed × State :=
  let (ps, s) := planAll s c .both a.priv true a.lanes
  let ps := behindSo ps.length (ps.map fun p => hostRefuses s a ((p.meet s c true true).late s c fun _ => a.asked))
  let ps := if a.counts then checkCounts s c false ps else ps
  let s := if a.counts then countReads s c false ps else s
  let (done, peer, s) := atomicLanes c a ps s
  let r := performedOf ps (fun _ => []) false true
  ({ r with done := done, peerWrites := if peer then 1 else 0 }, recallSegs none r.segs s)

/-- Performs an access of a strip: its parts that are performed, those that fault, and those that wait. -/
def performAccess (s : State) (c : Nat) (a : Access) : Performed × State :=
  match a.kind with
  | .load => performLoad s c a false a.uniform
  | .restore => performLoad s c a false true
  | .loadT => performLoad s c a true true
  | .store => performStore s c a false a.uniform
  | .save => performStore s c a false true
  | .storeT => performStore s c a true true
  | .stash => performStore s c a true true
  | .atomic => performAtomic s c a
  | .cas => performAtomic s c a

end Sys2Proof.Machine
end

