-- ==== Sys2Proof/Machine/Nodes.lean ====
section
/-! DEFINITION. The accounts and what charges them (R301), and the command processor's side of nodes: its memory accesses
(R371), the error log (R289), node slots and counters (R146), terminal states (R144, R148), cancellation (R149, R151) and a context's fatal end (R272). -/

namespace Sys2Proof.Machine

/-! Accounts (R301). -/

/-- The account, and the node slot, of the launch of a gang or program. -/
def acctOf (s : State) (launch : Nat) : Nat := ((s.launch? launch).map (·.rcd.acct)).getD 0
def slotOf (s : State) (launch : Nat) : Option Nat := (s.launch? launch).map (·.slot)

/-- Charges an account's counter (R301). -/
def charge (s : State) (acct : Nat) (f : Account → Account) : State :=
  { s with dev := { s.dev with accounts := vset s.dev.accounts acct (f (vget s.dev.accounts acct Account.reset)) } }

/-- Charges fabric payload bytes (R301). -/
def chargeFabric (s : State) (acct n : Nat) : State :=
  if n = 0 then s else charge s acct fun a => { a with fabric := a.fabric + BitVec.ofNat 64 n }

/-- Bytes of DRAM traffic that accesses to some segments may cause, at most (R301). -/
def dramBytes (gs : List Seg) : Nat :=
  gs.foldl (fun n g => match g.tgt with
    | .device pa => n + 128 * (unitsOf 128 pa g.len).length
    | _ => n) 0

/-- The account to which the write-backs of the lines of some segments are charged from now on, or none (R301). -/
def claimSegs (acct : Option Nat) (gs : List Seg) (s : State) : State :=
  gs.foldl (fun s g => match g.tgt with
    | .device pa => { s with device := s.device.claim acct pa g.len }
    | _ => s) s

/-- R301: an access of an account to device memory. It reads from DRAM what the caches do not hold, a number that no rule
gives (log 9), and the lines that it dirties are charged to the account when they are written back; a read of a twin page
dirties those that it empties. -/
def chargeDram (acct : Nat) (wr : Bool) (gs : List Seg) (s : State) : State :=
  let n := dramBytes gs
  if n = 0 then s
  else
    claimSegs (some acct) (gs.filter fun g => wr || leafTwin g.leaf)
      (charge { s with tick := s.tick + 1 } acct fun a =>
        { a with hbmrd := a.hbmrd + BitVec.ofNat 64 ((Config.trafficBytes s.tick).toNat % (n + 1)) })

/-- R301: the energy of an access from outside is charged to an account, as much as no rule computes (log 9). -/
def chargeEnergy (acct : Nat) (s : State) : State :=
  charge { s with tick := s.tick + 1 } acct fun a => { a with energy := a.energy + Config.trafficBytes s.tick }

/-- Writes a line of device memory back to DRAM, and charges the account that dirtied it last (R169, R301, log 9). -/
def writeBackDevice (line : Nat) (s : State) : State :=
  let back : State := { s with device := s.device.writeBack line }
  match (s.device.dirty.find? (·.line == line)).bind (·.acct) with
  | none => back
  | some acct =>
    charge { back with tick := s.tick + 1 } acct fun a =>
      { a with hbmwr := a.hbmwr + BitVec.ofNat 64 ((Config.trafficBytes s.tick).toNat % 129) }

/-! The command processor's accesses (R371). -/

/-- What the command processor gets from memory: what it asked for, a refusal or fault, or no answer yet from a retraining
port or a peer, with the keys of the requests that a peer has not answered (R291, R293, R371). -/
inductive Reach (α : Type) where
  | got (a : α)
  | refused
  | waits (keys : List Nat)

def Reach.keys {α : Type} : Reach α → List Nat
  | .waits keys => keys
  | _ => []

/-- One part of an access of the command processor. -/
def laneReq (lane : Nat) (addr : DWord) (len : Nat) (data cmp : List Byte) : LaneReq :=
  LaneReq.mk lane addr len data cmp [] [] 0 0 0

/-- R293, R371: what becomes of a part of the command processor's access; asked gives the clock at which the request for a
virtual address was sent. -/
def Plan.reach (s : State) (c : Nat) (asked : Nat → Option DWord) (p : Plan) : Reach Unit :=
  if p.ok then .got ()
  else if p.req.cause != 0 || (p.asks s c).any fun a => peerOverdue s (asked a) then .refused
  else .waits (p.asks s c)

/-- The key of a request of a command processor: its virtual address, and the place of its read among those of the object. -/
def cpKey (part va : Nat) : Nat := 2 ^ 64 * part + va

/-- Reads bytes through a context's translation with supervisor privilege, without counting or consuming (R371), as read number
part of those that a node needs, whose account the bytes or the node give (R301). -/
def cpRead (asked : Asked) (part : Nat) (acct : List Byte → Nat) (s : State) (c : Nat) (va : DWord) (n : Nat) :
    Reach (List Byte) × State :=
  let (p, s) := planReq s c .read true false (laneReq 0 va n [] [])
  let p := p.meet s c true false
  match p.reach s c fun a => asked.at_ (cpKey part a) with
  | .got _ =>
    let bs := p.read s c
    (.got bs, recallSegs none p.segs (chargeDram (acct bs) false p.segs (chargeFabric s (acct bs) (peerBytesOf [p]))))
  | .refused => (.refused, s)
  | .waits keys => (.waits (keys.map (cpKey part)), s)

/-- Whether a running TDI of another context refuses a write to a segment (R298). -/
def Seg.refused (s : State) (c : Nat) (g : Seg) : Bool :=
  match g.tgt with
  | .device pa => tdiRefuses s c pa g.len
  | _ => false

/-- The part of a write of the command processor. One that a running TDI refuses is refused (R298, R371), and so is one to a
twin page, for which no rule says what a write that may not count does (R371; the model's choice, log 38). -/
def cpWritePlan (s : State) (c : Nat) (va : DWord) (bs : List Byte) : Plan × State :=
  let (p, s) := planReq s c .write true true (laneReq 0 va bs.length bs [])
  let p := p.meet s c false true
  let p := if p.segs.any (Seg.refused s c) then { p with req := p.req.fail 0x18 va.toNat 0 } else p
  (if p.segs.any fun g => leafTwin g.leaf then { p with req := p.req.fail 0x13 va.toNat 0 } else p, s)

/-- Writes bytes through a context's translation with supervisor privilege (R371), charged to an account (R301); since is the
clock at which the write began to wait. -/
def cpWrite (since : Option DWord) (acct : Nat) (s : State) (c : Nat) (va : DWord) (bs : List Byte) : Reach Unit × State :=
  let (p, s) := cpWritePlan s c va bs
  match p.reach s c fun _ => since with
  | .got _ =>
    (.got (), chargeFabric (claimSegs (some acct) p.segs (unpoisonBy (writeSegs s c p.segs bs) c [p])) acct (peerBytesOf [p]))
  | r => (r, s)

/-- What a write of n bytes, number part of a node's accesses, would meet. -/
def cpCanWrite (asked : Asked) (part : Nat) (s : State) (c : Nat) (va : DWord) (n : Nat) : Reach Unit :=
  match ((cpWritePlan s c va (List.replicate n 0)).1).reach s c fun a => asked.at_ (cpKey part a) with
  | .waits keys => .waits (keys.map (cpKey part))
  | r => r

/-- The node slot field of an error record: the slot, or all ones (R289). -/
def slotField : Option Nat → Nat
  | some n => n
  | none => 2 ^ 64 - 1

/-- Appends a record to a context's error log and counts it at POOL + 0 (R289). Where the count reads as poison (R278, R298)
there is no place to write a record to, and it is lost (log 39). -/
def logError (s : State) (c kind code : Nat) (addr : DWord) (slot : Option Nat) : State :=
  match s.ctx? c with
  | none => s
  | some x =>
    let pool := x.cfg.pool.toNat
    match deviceRead s c pool 8 with
    | none => s
    | some b =>
      let count := ofBytes b
      let places := x.cfg.errsize.toNat / 32
      let rec_ := toBytes s.clock.toNat 8 ++ [BitVec.ofNat 8 kind, BitVec.ofNat 8 code] ++ List.replicate 6 0 ++
        toBytes addr.toNat 8 ++ toBytes (slotField slot) 8
      let s := if places = 0 then s else deviceWrite s c none (x.cfg.errlog.toNat + 32 * (count % places)) rec_
      deviceWrite s c none pool (toBytes (count + 1) 8)

/-- The codes of STATE (R144). -/
def NodeState.code : NodeState → Nat
  | .submitted => 0 | .waiting => 1 | .running => 2 | .done => 3 | .cancelled => 4 | .failed => 5

/-- Writes bytes of a node's record. A refused write is dropped and logged as kind 7 (R289, R371). One that waits for a port
or a peer is made later, and so is one to a record for which another waits (R291, R293, log 17). -/
def putRecord (s : State) (c : Nat) (rcd at_ : DWord) (bs : List Byte) (slot : Option Nat) (acct : Nat) : State :=
  let later (s : State) : State := { s with cpWrites := s.cpWrites ++ [CpWrite.mk c rcd at_ bs slot acct s.clock] }
  if s.cpWrites.any fun w => w.ctx == c && w.rcd == rcd then later s
  else match cpWrite none acct s c at_ bs with
    | (.got _, s) => s
    | (.refused, s) => logError s c 7 0 rcd slot
    | (.waits _, s) => later s

/-- Writes STATE and CODE of a record (R144). -/
def writeState (s : State) (c : Nat) (addr : DWord) (st : NodeState) (code : Nat) (slot : Option Nat) (acct : Nat) : State :=
  putRecord s c addr (addr + 0x44) [BitVec.ofNat 8 st.code, BitVec.ofNat 8 code] slot acct

/-- The command processors try the writes that wait again, in order; one for which a peer has not answered in time is
refused. -/
def retryWrites (s : State) : State :=
  s.cpWrites.foldl (fun s w =>
    if s.cpWrites.any fun v => v.ctx == w.ctx && v.rcd == w.rcd then { s with cpWrites := s.cpWrites ++ [w] }
    else match cpWrite (some w.since) w.acct s w.ctx w.addr w.bytes with
      | (.got _, s) => s
      | (.refused, s) => logError s w.ctx 7 0 w.rcd w.slot
      | (.waits _, s) => { s with cpWrites := s.cpWrites ++ [w] }) { s with cpWrites := [] }

/-- Node slot num of a context; a slot that is not listed is free with its counter at 0 (R146). -/
def Ctx.slot (x : Ctx) (num : Nat) : Slot := (x.slots.find? (·.num == num)).getD (Slot.mk num 0 none)

/-- Sets a slot. A free slot at 0 is not listed. -/
def Ctx.setSlot (x : Ctx) (v : Slot) : Ctx :=
  let rest := x.slots.filter (·.num != v.num)
  { x with slots := if v.node.isNone && v.counter == 0 then rest else v :: rest }

/-- What a change of a slot leads to: a decrement, a failure, a cancellation of one slot's node, or of a token. -/
inductive SlotAct where
  | dec (num : Nat)
  | settle (num : Nat)
  | finish (num : Nat) (st : NodeState) (code : Nat)
  | cancel (token : Nat)
  deriving DecidableEq, Repr

/-- R146: a slot is freed when its node is terminal and its counter is 0 or below; a balance stays. -/
def Slot.freed (v : Slot) : Slot :=
  match v.node with
  | some n =>
    if (n.state == NodeState.done || n.state == NodeState.cancelled || n.state == NodeState.failed) && decide (v.counter.toInt ≤ 0) then
      { v with node := none }
    else v
  | none => v

/-- The decrements and the cancelled token that follow a terminal state (R146, R148). -/
def afterTerminal (r : NodeRec) (st : NodeState) : List SlotAct :=
  r.succs.map .dec ++ (if st == NodeState.failed && r.token != 0 then [.cancel r.token] else [])

/-- Performs one act of the command processor on a context's slots; the acts that follow from it come after. -/
def slotAct (s : State) (c : Nat) (act : SlotAct) : State × List SlotAct :=
  match s.ctx? c with
  | none => (s, [])
  | some x =>
    match act with
    | .dec num =>
      let v := x.slot num
      let v := { v with counter := v.counter - 1 }
      (s.mapCtx c (·.setSlot v.freed), [.settle num])
    | .settle num =>
      let v := x.slot num
      match v.node with
      | some n =>
        if n.state == NodeState.waiting && n.readyAt.isNone then
          if n.rcd.token != 0 && x.cancelSet.contains n.rcd.token then (s, [.finish num .cancelled 0])
          else if v.counter.toInt < 0 then (s, [.finish num .failed 7])
          else if v.counter = 0 then
            (if x.fatal.isSome then (s, [.finish num .failed 8])
             else
              (s.mapCtx c fun x => { (x.setSlot { v with node := some { n with readyAt := some x.readySeq } }) with
                readySeq := x.readySeq + 1 }, []))
          else (s, [])
        else (s, [])
      | none => (s, [])
    | .finish num st code =>
      let v := x.slot num
      match v.node with
      | some n =>
        if n.state == NodeState.waiting || n.state == NodeState.running then
          let v := { v with
            node := some { n with state := st }
            counter := if st == NodeState.failed && code == 7 then 0 else v.counter }
          (writeState (s.mapCtx c (·.setSlot v.freed)) c n.addr st code (some num) n.rcd.acct, afterTerminal n.rcd st)
        else (s, [])
      | none => (s, [])
    | .cancel token =>
      if token = 0 then (s, [])
      else
        (s.mapCtx c fun x => { x with cancelSet := addNew [token] x.cancelSet },
          (x.slots.filter fun v => match v.node with
            | some n => n.state == NodeState.waiting && n.rcd.token == token
            | none => false).map fun v => .finish v.num .cancelled 0)

/-- Performs acts and what follows from them, in order; fuel bounds their number. What follows stands behind the acts
already in the list: the decrements of one successor list are all made before a slot that they name is looked at, so that a
slot named twice with one decrement to go fails with code 7 (the model's own order, log 18). -/
def runActs : (fuel : Nat) → State → Nat → List SlotAct → State
  | 0, s, _, _ => s
  | _, s, _, [] => s
  | fuel + 1, s, c, a :: rest =>
    let (s, more) := slotAct s c a
    runActs fuel s c (rest ++ more)

/-- A bound for the acts that can follow: an act itself leads to two more, or to one for each slot; every node ends once, and
then brings its decrements and one token. -/
def actBound (s : State) (c : Nat) (acts : List SlotAct) : Nat :=
  match s.ctx? c with
  | none => acts.length
  | some x =>
    acts.length * (3 + x.slots.length) +
      x.slots.foldl (fun n v => n + (match v.node with
        | some d => 3 * d.rcd.succs.length + 1 + x.slots.length
        | none => 0)) 0

/-- Performs acts on a context's slots (R146 to R149). -/
def slotActs (s : State) (c : Nat) (acts : List SlotAct) : State := runActs (actBound s c acts) s c acts

/-- The fields of a record's 80 bytes (R144). -/
def recordOf (b : List Byte) : NodeRec :=
  let w (i : Nat) : Nat := ofBytes ((b.drop i).take 4)
  let d (i : Nat) : DWord := dwordOf ((b.drop i).take 8)
  NodeRec.mk (d 0) (d 8) (d 0x10) (Box.mk (w 0x20) (w 0x24) (w 0x28) (w 0x2C) (w 0x30) (w 0x34))
    (w 0x38 % 2 ^ 16) (bitsOf (w 0x38) 16 6) (w 0x3C % 2 ^ 16) (w 0x3C / 2 ^ 16) []

/-- R144, R146: whether the record's reserved fields and its STATE are 0. -/
def recordClean (b : List Byte) : Bool :=
  let w (i : Nat) : Nat := ofBytes ((b.drop i).take 4)
  bitsOf (w 0x38) 22 10 == 0 && bitsOf (w 0x40) 16 16 == 0 && w 0x44 % 256 == 0 && bitsOf (w 0x44) 17 15 == 0 &&
  w 0x48 == 0 && w 0x4C == 0

/-- A node that fails at submission without a slot (R146, R148). -/
def failUnslotted (s : State) (c : Nat) (addr : DWord) (r : NodeRec) (code : Nat) : State :=
  slotActs (writeState s c addr .failed code none r.acct) c (afterTerminal r .failed)

/-- The successor list named by SUCC and NSUCC (R144, R371), the third of the command processor's accesses to submit a node. One
that is not 4-byte aligned is not read, as one that cannot be (code 5; that no successor is then decremented is the model's
choice, log 40). -/
def readSuccs (asked : Asked) (acct : Nat) (s : State) (c : Nat) (b : List Byte) : Reach (List Nat) × State :=
  let n := ofBytes ((b.drop 0x40).take 2)
  let at_ := dwordOf ((b.drop 0x18).take 8)
  if n = 0 then (.got [], s)
  else if at_.toNat % 4 ≠ 0 then (.refused, s)
  else
    match cpRead asked 2 (fun _ => acct) s c at_ (4 * n) with
    | (.got l, s) => (.got ((List.range n).map fun i => ofBytes ((l.drop (4 * i)).take 4)), s)
    | (.refused, s) => (.refused, s)
    | (.waits keys, s) => (.waits keys, s)

/-- Submits a record whose successor list has been read, or could not be (R146). -/
def submitWith (s : State) (c : Nat) (addr : DWord) (b : List Byte) (r : NodeRec) (succs : Option (List Nat)) : State :=
  match succs with
  | none => failUnslotted s c addr r 5
  | some l =>
    let r := { r with succs := l.map (· % 2 ^ 16) }
    if addr.toNat % 8 ≠ 0 || !recordClean b || l.any (fun e => decide (e ≥ 2 ^ 16)) then failUnslotted s c addr r 5
    else
      match s.ctx? c with
      | none => s
      | some x =>
        let v := x.slot r.slot
        if v.node.isSome then failUnslotted s c addr r 6
        else
          let v := Slot.mk r.slot (v.counter + BitVec.ofNat 32 r.pred) (some (Node.mk addr r .waiting none))
          slotActs (writeState (s.mapCtx c (·.setSlot v)) c addr .waiting 0 (some r.slot) r.acct) c [.settle r.slot]

/-- Submits a record that has been read (R146); acct is the account that LAUNCH puts in its place (R152). Where the
successor list waits, nothing has been submitted. -/
def submitRead (asked : Asked) (s : State) (c : Nat) (addr : DWord) (b : List Byte) (acct : Option Nat) : Reach State :=
  let r := recordOf b
  let r := { r with acct := acct.getD r.acct }
  match readSuccs asked r.acct s c b with
  | (.refused, s) => .got (submitWith s c addr b r none)
  | (.got l, s) => .got (submitWith s c addr b r (some l))
  | (.waits keys, _) => .waits keys

/-- Sets or clears a token's bit in the cancel set (R149). -/
def cancelToken (s : State) (c t : Nat) : State := slotActs s c [.cancel t]
def uncancelToken (s : State) (c t : Nat) : State :=
  s.mapCtx c fun x => { x with cancelSet := x.cancelSet.filter (· != t) }

/-- R151, R240: the first non-finite twin accumulation of a launch whose header sets NFW. -/
def nfwReport (s : State) (launch : Nat) (nonfinite : Bool) : State :=
  match s.launch? launch with
  | some l =>
    if nonfinite && l.hdr.nfw && !l.nfr then
      let s := putRecord (s.mapLaunch launch fun l => { l with nfr := true }) l.ctx l.addr (l.addr + 0x46) [1] (some l.slot) l.rcd.acct
      cancelToken s l.ctx l.rcd.token
    else s
  | none => s

/-- Ends a launch with a terminal STATE (R147): its record, its slot, its successors. -/
def endLaunch (s : State) (l : Launch) (st : NodeState) (code : Nat) : State :=
  let s := { s with launches := s.launches.filter (·.id != l.id) }
  slotActs s l.ctx [.finish l.slot st code]

/-- The writes to peers of a gang's strips and programs that are not acknowledged yet, by their agents (R294). -/
def gangUnacked (s : State) (g : Gang) : List Agent :=
  (g.strips.flatMap fun t => List.replicate t.unacked (Agent.strip g.id t.idx)) ++
    (s.progs.filter (·.gang == g.id)).flatMap fun p => List.replicate p.unacked (Agent.prog p.id)

/-- R147, R294: a launch whose agents have all been stopped ends with a terminal STATE, a release at SYSTEM scope: once peers
have acknowledged all their writes. -/
def stopLaunch (s : State) (l : Launch) (st : NodeState) (code : Nat) : State :=
  match l.unacked ++ (s.gangs.filter (·.launch == l.id)).flatMap (gangUnacked s), l.ends with
  | [], _ => endLaunch s l st code
  | _, some _ => s
  | late, none => s.mapLaunch l.id fun l => { l with unacked := late, ends := some (st, code) }

/-- R272: the context is reported fatal. Every strip and program of it stops and leaves its engine or bench, its running
nodes end FAILED with code 8, and so do the nodes that are ready. -/
def fatalCtx (s : State) (c : Nat) (r : FatalReport) (slot : Option Nat) : State :=
  let s := logError s c 4 (if r.cause = 1 then r.inner else r.cause.toNat) r.epc slot
  let s := s.mapCtx c fun x => { x with fatal := some r }
  let s := { s with
    gangs := mapWhere (·.ctx == c) (fun g => { g with place := none, saved := true }) s.gangs
    progs := mapWhere (·.ctx == c) (fun p => { p with saved := true }) s.progs
    spans := s.spans.filter (·.ctx != c) }
  let s := (s.launches.filter (·.ctx == c)).foldl (fun s l => stopLaunch s l .failed 8) s
  match s.ctx? c with
  | some x => slotActs s c ((x.slots.filter fun v => match v.node with
      | some n => n.state == NodeState.waiting && n.readyAt.isSome
      | none => false).map fun v => .finish v.num .failed 8)
  | none => s

end Sys2Proof.Machine
end

