-- ==== Sys2Proof/Machine/Image.lean ====
section
/-! DEFINITION. Strip images: where the command processor places them in a context's pool (R61), their layout (R59, R61), and
the register cache that holds their lines (R62, R63). A strip's record holds what the register cache and the image together
hold; away names the lines of which only the image in device memory does. -/

namespace Sys2Proof.Machine

/-! The pool. -/

/-- The image slots of a pool: 16 KiB each, behind the first 64 KiB, which hold the record count of R289 (log 20). -/
def imageSlots (b : Block286) : Nat := (b.poolsize.toNat - 65536) / 16384
def imageAt (b : Block286) (i : Nat) : Nat := b.pool.toNat + 65536 + 16384 * i

/-- The images that the strips of a context have. -/
def imagesTaken (s : State) (c : Nat) : List Nat :=
  (s.gangs.filter (·.ctx == c)).flatMap fun g => (g.strips.filter fun t => t.image != 0).map (·.image)

/-- The lowest free images for n strips of a context, fewer where the pool has no more (R61; which free ones the command
processor takes is the model's own, log 20). -/
def freeImages (s : State) (c n : Nat) : List Nat :=
  let b := s.cfg c
  let taken := imagesTaken s c
  let few := if imageSlots b < n + taken.length then imageSlots b else n + taken.length
  (((List.range few).map (imageAt b)).filter fun a => !taken.contains a).take n

/-- The strips of a gang that have no image yet. -/
def Gang.bare (g : Gang) : Nat := (g.strips.filter fun t => t.image == 0).length

/-- Whether the pool has an image for each strip of a gang. -/
def imagesFit (s : State) (g : Gang) : Bool := (freeImages s g.ctx g.bare).length == g.bare

/-- Gives each strip that has none an image. -/
def giveImages : List Nat → List Strip → List Strip
  | a :: r, t :: ts => if t.image = 0 then { t with image := a } :: giveImages r ts else t :: giveImages (a :: r) ts
  | _, ts => ts

/-! The layout. -/

/-- Bytes replaced from an offset on. -/
def patch (old : List Byte) (off : Nat) (new : List Byte) : List Byte := old.take off ++ new ++ old.drop (off + new.length)

/-- The 128 bytes of one word for each lane. -/
def lanesBytes (v : Lanes) : List Byte := (List.range 32).flatMap fun l => toBytes (vget v l 0).toNat 4
def lanesFrom (b : List Byte) : Lanes := Vector.ofFn fun l : Fin 32 => wordOf ((b.drop (4 * l.val)).take 4)

/-- The form tag of a register, whether it belongs to an A pair, and its symbolic record. The value of a U register stands
in its record's base (log 20). -/
def Reg.tag : Reg → Nat
  | .u _ => 0
  | .a _ => 1
  | .aLo _ => 1
  | .aHi _ => 1
  | .l _ => 2
def Reg.paired : Reg → Bool
  | .aLo _ => true
  | .aHi _ => true
  | _ => false
def Reg.symbolic : Reg → Option Aff
  | .u v => some (Aff.mk (v.setWidth 64) 0 0 0)
  | .a f => some f
  | .aLo f => some f
  | .aHi f => some f
  | .l _ => none
def Pred.tag : Pred → Nat
  | .u _ => 0
  | .range _ _ _ => 1
  | .l _ => 2

/-- A symbolic record's 32 bytes. -/
def affBytes (f : Aff) : List Byte :=
  toBytes f.base.toNat 8 ++ toBytes f.sx.toNat 8 ++ toBytes f.sy.toNat 8 ++ toBytes f.sz.toNat 8
def affFrom (b : List Byte) : Aff :=
  Aff.mk (dwordOf (b.take 8)) (dwordOf ((b.drop 8).take 8)) (dwordOf ((b.drop 16).take 8)) (dwordOf ((b.drop 24).take 8))

/-- A register with a symbolic record, as its tags say. -/
def regFrom (tag : Nat) (paired : Bool) (n : Nat) (f : Aff) (v : Lanes) (old : Reg) : Reg :=
  match tag with
  | 0 => .u (loOf f.base)
  | 1 => if paired then (if n % 2 = 0 then .aLo f else .aHi f) else .a f
  | 2 => .l v
  | _ => old

/-- The axis byte of a range record (its code is the model's own, log 20). -/
def Axis.code : Axis → Nat
  | .x => 0 | .y => 1 | .z => 2
def axisFrom (n : Nat) : Axis := if n = 0 then .x else if n = 1 then .y else .z

/-- A stack entry's 20 bytes. -/
def entryBytes (e : StackEntry) : List Byte :=
  toBytes e.pc.toNat 8 ++ toBytes e.mask.toNat 4 ++ toBytes e.fmt.toNat 4 ++ toBytes e.mode.toNat 4
def stackEntryFrom (b : List Byte) : StackEntry :=
  StackEntry.mk (dwordOf (b.take 8)) (wordOf ((b.drop 8).take 4)) (wordOf ((b.drop 12).take 4)) (wordOf ((b.drop 16).take 4))

/-- R59: a generator's 24 bytes. -/
def imageGen (g : Gen) : List Byte := toBytes g.key.toNat 8 ++ toBytes g.ctr.toNat 16
def imageGenFrom (b : List Byte) : Gen := Gen.mk (dwordOf (b.take 8)) (BitVec.ofNat 128 (ofBytes ((b.drop 8).take 16)))

/-- The tags of registers and predicates as they stand from 0x2080: two bits for each, then one bit for each register. -/
def tagBytes (t : Strip) : List Byte :=
  toBytes ((List.range 64).foldr (fun n a => (vget t.regs n (.u 0)).tag + 4 * a) 0) 16 ++
  toBytes ((List.range 32).foldr (fun n a => (vget t.preds n (.u false)).tag + 4 * a) 0) 8 ++
  toBytes ((List.range 64).foldr (fun n a => (if (vget t.regs n (.u 0)).paired then 1 else 0) + 2 * a) 0) 8

/-- The control line, from 0x2F00: the fields in the order in which R61 names them, and behind them the trap context (R263,
R275). Their widths and places are the model's own (log 20). -/
def controlBytes (t : Strip) : List Byte :=
  toBytes t.pc.toNat 8 ++ toBytes t.fmt.toNat 4 ++ toBytes t.mode.toNat 4 ++ toBytes t.fpstat.toNat 4 ++ toBytes t.cause.toNat 4 ++
  toBytes t.stack.length 4 ++ toBytes (if t.priv then 1 else 0) 4 ++ toBytes t.epc.toNat 8 ++
  toBytes (t.staged.getD 0).toNat 4 ++ toBytes (if t.staged.isSome then 1 else 0) 4 ++
  toBytes t.trapMask.toNat 4 ++ toBytes t.trapDepth 4

/-- A replay-queue entry's 256 bytes (R264; its layout is not architectural, log 20): the PC and the place in program order,
the faulting lanes, the destination registers and the size, and from byte 28 the 57 bits of each lane's address. The data of
a store and the rows of a tile behind the thirty-second have no room and stand in the strip's record alone. -/
def parkedBytes (a : Access) : List Byte :=
  let lane (l : Nat) : Option LaneReq := a.lanes.find? (·.lane == l)
  toBytes a.pc.toNat 8 ++ toBytes a.pos 8 ++ toBytes (maskOf fun l => (lane l).isSome).toNat 4 ++
  toBytes a.dst 2 ++ toBytes a.regs 1 ++ toBytes a.size 1 ++ List.replicate 4 0 ++
  toBytes ((List.range 32).foldr (fun l n => ((lane l).map fun r => r.addr.toNat % 2 ^ 57).getD 0 + 2 ^ 57 * n) 0) 228

/-- The entry that 256 bytes make of one that stands in the record. -/
def parkedFrom (b : List Byte) (a : Access) : Access :=
  let mask := ofBytes ((b.drop 16).take 4)
  let addrs := ofBytes ((b.drop 28).take 228)
  { a with
    pc := dwordOf (b.take 8)
    pos := ofBytes ((b.drop 8).take 8)
    dst := ofBytes ((b.drop 20).take 2)
    regs := ofBytes ((b.drop 22).take 1)
    size := ofBytes ((b.drop 23).take 1)
    lanes := (a.lanes.filter fun r => decide (32 ≤ r.lane) || bitAt mask r.lane).map fun r =>
      if 32 ≤ r.lane then r
      else { r with addr := BitVec.ofNat 64 (r.addr.toNat / 2 ^ 57 * 2 ^ 57 + bitsOf addrs (57 * r.lane) 57) } }

/-- Half h of entry n of a replay queue, zeros where there is no such entry. -/
def queueLine (t : Strip) (n h : Nat) : List Byte :=
  match t.replay[n]? with
  | some a => ((parkedBytes a).drop (128 * h)).take 128
  | none => List.replicate 128 0

/-- R61: line k of a strip's image, of 128 lines, as the register cache writes it back over what memory holds. A register
that is not in L form has no line (R63); reserved bytes keep what memory holds. The stack's entry 0 is the oldest. -/
def imageLine (t : Strip) (k : Nat) (old : List Byte) : List Byte :=
  if k < 64 then
    match vget t.regs k (.u 0) with
    | .l v => lanesBytes v
    | _ => old
  else if k = 64 then
    (List.range 32).flatMap fun n => match vget t.preds n (.u false) with
      | .u b => toBytes (if b then 2 ^ 32 - 1 else 0) 4
      | .l m => toBytes m.toNat 4
      | .range _ _ _ => (old.drop (4 * n)).take 4
  else if k = 65 then patch old 0 (tagBytes t)
  else if k < 82 then
    (List.range 4).flatMap fun i => match (vget t.regs (4 * (k - 66) + i) (.u 0)).symbolic with
      | some f => affBytes f
      | none => (old.drop (32 * i)).take 32
  else if k < 86 then
    (List.range 8).flatMap fun i =>
      let was := (old.drop (16 * i)).take 16
      match vget t.preds (8 * (k - 82) + i) (.u false) with
      | .range ax lo hi => patch (patch was 0 [BitVec.ofNat 8 ax.code]) 4 (toBytes lo 4 ++ toBytes hi 4)
      | _ => was
  else if k < 94 then
    (List.range 4).flatMap fun i =>
      let was := (old.drop (32 * i)).take 32
      match t.stack.reverse[4 * (k - 86) + i]? with
      | some e => patch was 0 (entryBytes e)
      | none => was
  else if k = 94 then patch old 0 (controlBytes t)
  else if k = 95 then patch old 0 (t.gens.toList.flatMap imageGen)
  else if k < 112 then lanesBytes (vget t.kregs (k - 96) (Vector.replicate 32 0))
  else queueLine t ((k - 112) / 2) ((k - 112) % 2)

/-- A vector with element n computed anew. -/
def vmap {α : Type} {n : Nat} (v : Vector α n) (f : Nat → α → α) : Vector α n := Vector.ofFn fun i => f i.val v[i]

/-- Entry n of the reconvergence stack in memory. -/
def stackAt (line : Nat → List Byte) (n : Nat) : StackEntry := stackEntryFrom (((line (86 + n / 4)).drop (32 * (n % 4))).take 20)

/-- The strip with the control fields that a line holds. A stack that has another depth then is cut, or goes on with what
memory holds of it. -/
def controlFrom (line : Nat → List Byte) (b : List Byte) (t : Strip) : Strip :=
  let w (i : Nat) : Word := wordOf ((b.drop i).take 4)
  let d (i : Nat) : DWord := dwordOf ((b.drop i).take 8)
  let depth := (w 24).toNat % 33
  let have_ := t.stack.length
  { t with
    pc := d 0
    fmt := w 8
    mode := w 12
    fpstat := w 16
    cause := w 20
    stack := ((List.range (depth - have_)).map fun i => stackAt line (have_ + i)).reverse ++ t.stack.drop (have_ - depth)
    priv := w 28 != 0
    epc := d 32
    staged := if w 44 = 0 then none else some (w 40)
    trapMask := w 48
    trapDepth := (w 52).toNat }

/-- The queue with half h of entry n as memory holds it. -/
def queueFrom (b : List Byte) (n h : Nat) (q : List Access) : List Access :=
  q.zipIdx.map fun (a, i) => if i = n then parkedFrom (patch (parkedBytes a) (128 * h) b) a else a

/-- The strip with line k of its image fetched; line gives the lines of the image in memory. -/
def fetchLine (line : Nat → List Byte) (t : Strip) (k : Nat) : Strip :=
  let b := line k
  let aff (n : Nat) : Aff := affFrom (((line (66 + n / 4)).drop (32 * (n % 4))).take 32)
  let mask (n : Nat) : Mask := wordOf (((line 64).drop (4 * n)).take 4)
  let range (n : Nat) : Pred :=
    let r := ((line (82 + n / 8)).drop (16 * (n % 8))).take 16
    .range (axisFrom (r.getD 0 0).toNat) (ofBytes ((r.drop 4).take 4)) (ofBytes ((r.drop 8).take 4))
  if k < 64 then
    { t with regs := vmap t.regs fun n r => if n = k && r.tag == 2 then .l (lanesFrom b) else r }
  else if k = 64 then
    { t with preds := vmap t.preds fun n p => match p with
        | .u _ => .u (mask n != 0)
        | .l _ => .l (mask n)
        | p => p }
  else if k = 65 then
    let tag (n : Nat) : Nat := bitsOf (ofBytes (b.take 16)) (2 * n) 2
    let ptag (n : Nat) : Nat := bitsOf (ofBytes ((b.drop 16).take 8)) (2 * n) 2
    let pair (n : Nat) : Bool := bitAt (ofBytes ((b.drop 24).take 8)) n
    { t with
      regs := vmap t.regs fun n r =>
        if tag n = r.tag && pair n == r.paired then r else regFrom (tag n) (pair n) n (aff n) (lanesFrom (line n)) r
      preds := vmap t.preds fun n p =>
        if ptag n = p.tag then p
        else match ptag n with
          | 0 => .u (mask n != 0)
          | 1 => range n
          | 2 => .l (mask n)
          | _ => p }
  else if k < 82 then
    { t with regs := vmap t.regs fun n r =>
        if n / 4 = k - 66 && r.tag != 2 then regFrom r.tag r.paired n (aff n) (lanesFrom b) r else r }
  else if k < 86 then
    { t with preds := vmap t.preds fun n p => if n / 8 = k - 82 && p.tag == 1 then range n else p }
  else if k < 94 then
    { t with stack := (t.stack.reverse.zipIdx.map fun (e, i) => if i / 4 = k - 86 then stackAt line i else e).reverse }
  else if k = 94 then controlFrom line b t
  else if k = 95 then
    { t with gens := Vector.ofFn fun i : Fin 4 => imageGenFrom ((b.drop (24 * i.val)).take 24) }
  else if k < 112 then { t with kregs := vset t.kregs (k - 96) (lanesFrom b) }
  else { t with replay := queueFrom b ((k - 112) / 2) ((k - 112) % 2) t.replay }

/-- R62: the lines of a strip's image that the register cache does not hold are fetched. A line that memory still holds as
it was written back changes nothing. An entry of the queue of which no lane is left is none. -/
def fetchImage (r : Ram) (t : Strip) : Strip :=
  if t.away.isEmpty then t
  else
    let line (k : Nat) : List Byte := lineBytes r.cells (t.image / 128 + k)
    let u := t.away.foldl (fun t k => if imageLine t k (line k) == line k then t else fetchLine line t k) { t with away := [] }
    { u with replay := u.replay.filter fun a => !a.lanes.isEmpty }

/-- R278, R298: whether a line that a strip has to fetch reads as poison. -/
def imageLost (s : State) (c : Nat) (t : Strip) : Bool :=
  t.away.any fun k => (deviceRead s c (t.image + 128 * k) 128).isNone

/-- Whether the register cache holds a line of device memory as line k of a strip's image. -/
def Strip.caches (t : Strip) (line : Nat) : Bool :=
  t.image != 0 && decide (t.image / 128 ≤ line) && decide (line - t.image / 128 < 128) && !t.retired &&
  !t.away.contains (line - t.image / 128)
def cachesLine (s : State) (line : Nat) : Bool := s.gangs.any fun g => g.strips.any (·.caches line)

/-- Whether evicting a line of a strip's image writes it: what the register cache holds is not what memory holds. -/
def Strip.writesLine (r : Ram) (t : Strip) (line : Nat) : Bool :=
  t.caches line && (imageLine t (line - t.image / 128) (lineBytes r.cells line) != lineBytes r.cells line ||
    r.poisoned (128 * line) 128)

/-- R62: the register cache evicts a line of device memory that belongs to a strip's image: it is written back, for the account
of the strip's launch (R301), and fetched when the strip next needs it. -/
def evictImage (line : Nat) (s : State) : State :=
  s.gangs.foldl (fun s g => (g.strips.filter (·.caches line)).foldl (fun s t =>
    let k := line - t.image / 128
    let old := lineBytes s.device.cells line
    let s := if t.writesLine s.device line then
        deviceWrite s g.ctx (some (acctOf s g.launch)) (128 * line) (imageLine t k old)
      else s
    s.mapStrip g.id t.idx fun t => { t with away := t.away ++ [k] }) s) s

end Sys2Proof.Machine
end

