-- ==== Sys2Proof/Machine/Ops.lean ====
section
/-! DEFINITION. The named operations over strips, gangs and spans: where lanes lie (R123), what a strip's frame is (R46,
R64), outstanding results (R66 to R68), taking an exception (R262, R263, R266, R272), the return from one (R268),
retirement (R133, R198) and dealing a span out (R127). -/

namespace Sys2Proof.Machine

/-- The coordinates of the item in lane l of strip k of a tile with corner (cx, cy, cz) and shape gx × gy × gz (R123). -/
def itemAt (cx cy cz gx gy k l : Nat) : Nat × Nat × Nat :=
  let n := 32 * k + l
  (cx + n % gx, cy + n / gx % gy, cz + n / (gx * gy))

/-- Whether a box holds an item (R121). -/
def Box.holds (b : Box) (p : Nat × Nat × Nat) : Bool :=
  decide (b.ox ≤ p.1) && decide (p.1 < b.ox + b.ex) && decide (b.oy ≤ p.2.1) && decide (p.2.1 < b.oy + b.ey) &&
  decide (b.oz ≤ p.2.2) && decide (p.2.2 < b.oz + b.ez)

/-- The lanes of strip k of a gang that hold an item of it (R46, R123). -/
def liveLanes (h : Header) (cx cy cz : Nat) (box : Box) (k : Nat) : Mask :=
  maskOf fun l => decide (32 * k + l < h.gx * h.gy * h.gz) && box.holds (itemAt cx cy cz h.gx h.gy k l)

/-- The coordinates of a gang's lanes. -/
def Gang.coord (g : Gang) (h : Header) (k l : Nat) : Nat × Nat × Nat := itemAt g.cx g.cy g.cz h.gx h.gy k l

/-- The lowest lane of a mask alone. -/
def lowestLane (m : Mask) : Mask := maskOf fun l => (lanesOf m).head? == some l

/-- R46, R134: whether the leader of an ELECT region acts, alone. A handler that the region enters in other lanes does not
(log 19). -/
def Strip.leads (t : Strip) : Bool :=
  match t.elect with
  | some (m, _) => t.active == lowestLane m
  | none => false

/-- The frame in which a strip issues an instruction that acts on the lanes of m; gd is its guard. -/
def stripFrame (g : Gang) (t : Strip) (h : Header) (table : Vector DWord 48) (gd : Guard)
    (view : Vector Reg 64 × Vector Lanes 16) : Frame where
  span := false
  w16 := h.w16
  box := g.box
  coord := g.coord h t.idx
  live := t.live
  active := match gd with
    | .absent => t.active
    | .uniform b => if b then t.active else 0
    | .lanes m => t.active &&& m
  whole := t.leads || (t.active == t.live && (match gd with | .lanes _ => false | _ => true))
  freeing := t.active == t.live && (match gd with | .lanes _ => false | .uniform b => b | .absent => true)
  priv := t.priv
  noLines := h.regs == 0
  regs := t.regs
  preds := t.preds
  kregs := t.kregs
  view := view.1
  kview := view.2
  fmt := t.fmt
  mode := t.mode
  fpstat := t.fpstat
  gens := t.gens
  outstanding := t.outstanding
  locks := t.locks
  lateFree := t.lateFree
  table := table

/-- The strip after an instruction has worked in its frame. -/
def Strip.withFrame (t : Strip) (fr : Frame) : Strip :=
  { t with
    regs := fr.regs
    preds := fr.preds
    kregs := fr.kregs
    fmt := fr.fmt
    mode := fr.mode
    fpstat := fr.fpstat
    gens := fr.gens
    outstanding := fr.outstanding
    lateFree := fr.lateFree }

/-- The frame in which a span executes an instruction (R124, R125). -/
def spanFrame (p : Span) (h : Header) (table : Vector DWord 48) (active : Bool) : Frame where
  span := true
  w16 := h.w16
  box := p.box
  coord := fun _ => (0, 0, 0)
  live := 0xFFFFFFFF
  active := if active then 0xFFFFFFFF else 0
  whole := true
  freeing := active
  priv := false
  noLines := false
  regs := p.regs
  preds := p.preds
  kregs := Vector.replicate 16 (Vector.replicate 32 0)
  view := p.regs
  kview := Vector.replicate 16 (Vector.replicate 32 0)
  fmt := p.fmt
  mode := p.mode
  fpstat := p.fpstat
  gens := Vector.replicate 4 (Gen.mk 0 0)
  outstanding := []
  locks := 0
  lateFree := 0
  table := table

/-- The span after an instruction has worked in its frame. -/
def Span.withFrame (p : Span) (fr : Frame) : Span :=
  { p with regs := fr.regs, preds := fr.preds, fmt := fr.fmt, mode := fr.mode, fpstat := fr.fpstat }

/-! Outstanding results. -/

/-- The value of registers r to r + n − 1 (numbered as in RegPart) of a strip, each with its form; a k register is L. -/
def groupOf (t : Strip) (r n : Nat) : List Reg :=
  (List.range n).map fun i =>
    if r + i < 64 then vget t.regs (r + i) (.u 0) else .l (vget t.kregs (r + i - 64) (Vector.replicate 32 0))

/-- Writes one returned register (R68). -/
def landPart (coord : Nat → Nat × Nat × Nat) (t : Strip) (p : RegPart) : Strip :=
  if p.reg < 64 then
    if p.uniform then { t with regs := vset t.regs p.reg (.u (vget p.vals 0 0)) }
    else
      let old := regLane coord (vget t.regs p.reg (.u 0))
      { t with regs := vset t.regs p.reg (.l (mergeLanes p.mask old fun l => vget p.vals l 0)) }
  else
    let old := vget t.kregs (p.reg - 64) (Vector.replicate 32 0)
    { t with kregs := vset t.kregs (p.reg - 64) (mergeLanes p.mask (fun l => vget old l 0) fun l => vget p.vals l 0) }

/-- The outstanding results that write one of registers r to r + n − 1. -/
def landingsOn (t : Strip) (r n : Nat) : List Landing :=
  t.outstanding.filter fun x => x.parts.any fun p => decide (r ≤ p.reg) && decide (p.reg < r + n)

/-- What registers r to r + n − 1 hold before the outstanding results, and after each more of them. Where the results
write different registers of the group only none or all of them count, so that a pair is never half old and half new. -/
def groupStages (coord : Nat → Nat × Nat × Nat) (t : Strip) (r n : Nat) : List (List Reg) :=
  let ls := landingsOn t r n
  let all := ls.foldl (fun t x => x.parts.foldl (landPart coord) t) t
  let split := ls.any fun x => (List.range n).any fun i => !(x.parts.any fun p => p.reg == r + i)
  if split then [groupOf t r n, groupOf all r n]
  else
    ((List.range (ls.length + 1)).map fun k =>
      groupOf ((ls.take k).foldl (fun t x => x.parts.foldl (landPart coord) t) t) r n)

/-- The words of a group of registers in lane l. -/
def groupLane (coord : Nat → Nat × Nat × Nat) (g : List Reg) (l : Nat) : List Word := g.map fun r => regLane coord r l

/-- One of several values, which one left open (R68, log 6). -/
def pickFrom {α : Type} [DecidableEq α] (tick : Nat) (first : α) : List α → α
  | [] => first
  | x :: r => pickFrom (tick + 1) (Config.pick tick first x) r

/-- R68: what an instruction reads in registers r to r + n − 1 while results for them are outstanding: as a whole one of
the stages, or, where each result gives every lane its own value, in each lane one of them. A result in U form is read whole
or not at all, as the register then has that form or the one before. -/
def groupRead (coord : Nat → Nat × Nat × Nat) (t : Strip) (tick r n : Nat) : List Reg :=
  match groupStages coord t r n with
  | [] => groupOf t r n
  | first :: rest =>
    let whole := pickFrom tick first rest
    let mixed : List Reg := (List.range n).map fun i =>
      .l (Vector.ofFn fun l : Fin 32 =>
        (pickFrom (tick + 16 * (l.val + 1)) (groupLane coord first l) (rest.map fun g => groupLane coord g l)).getD i 0)
    let uniform := (landingsOn t r n).any fun x => x.parts.any fun p => p.uniform && decide (r ≤ p.reg) && decide (p.reg < r + n)
    if !uniform && Config.freeBit (tick + 1024) then mixed else whole

/-- The groups of a list that no wider one of it contains, each once: a half of a pair that the instruction also reads whole
is read with the pair, so that the pair is never half old and half new (R68, log 6). -/
def widestGroups (srcs : List (Nat × Nat)) : List (Nat × Nat) :=
  (nub srcs []).filter fun g =>
    !srcs.any fun h => h != g && decide (h.1 ≤ g.1) && decide (g.1 + g.2 ≤ h.1 + h.2)

/-- The registers as an instruction with the given source groups reads them (R68). -/
def viewOf (coord : Nat → Nat × Nat × Nat) (t : Strip) (tick : Nat) (srcs : List (Nat × Nat)) :
    Vector Reg 64 × Vector Lanes 16 :=
  if t.outstanding.isEmpty then (t.regs, t.kregs)
  else
    (widestGroups srcs).foldl (fun v g =>
      if (landingsOn t g.1 g.2).isEmpty then v
      else
        let put (v : Vector Reg 64 × Vector Lanes 16) (i : Nat) (x : Reg) : Vector Reg 64 × Vector Lanes 16 :=
          if i < 64 then (vset v.1 i x, v.2)
          else (v.1, vset v.2 (i - 64) (Vector.ofFn fun l : Fin 32 => regLane coord x l))
        ((groupRead coord t (tick + 2048 * g.1) g.1 g.2).zipIdx).foldl (fun v (x, i) => put v (g.1 + i) x) v)
      (t.regs, t.kregs)

/-- Frees the registers whose last-read waited for a lock that has cleared (R66). -/
def freeUnlocked (t : Strip) : Strip :=
  (List.range 64).foldl (fun t n =>
    if t.lateFree.getLsbD n && !t.locks.getLsbD n then
      { t with
        regs := vset t.regs n (.u 0)
        outstanding := dropLandings n 0xFFFFFFFF t.outstanding
        lateFree := t.lateFree &&& ~~~((1 : BitVec 64) <<< n) }
    else t) t

/-- One result returns: its registers are written, its lock bits clear and its flags are set (R66, R67, R115). -/
def land (coord : Nat → Nat × Nat × Nat) (t : Strip) (x : Landing) : Strip :=
  freeUnlocked { x.parts.foldl (landPart coord) t with locks := t.locks &&& ~~~x.locks, fpstat := t.fpstat ||| x.flags }

/-- Sets the flags of the outstanding matrix operations that satisfy p (R115). -/
def setMillFlags (p : Landing → Bool) (t : Strip) : Strip :=
  { t with
    fpstat := t.outstanding.foldl (fun f x => if p x then f ||| x.flags else f) t.fpstat
    outstanding := mapWhere p (fun x => { x with flags := 0 }) t.outstanding }

/-- Result k returns before the others. Where an earlier one of the region writes the same lanes, the later one in
program order stays (R68). -/
def landAt (coord : Nat → Nat × Nat × Nat) (t : Strip) (k : Nat) : Strip :=
  match t.outstanding[k]? with
  | none => t
  | some x =>
    let older := x.parts.foldl (fun o p => dropLandings p.reg p.mask o) (t.outstanding.take k)
    land coord { t with outstanding := older ++ t.outstanding.drop (k + 1) } x

/-- Every outstanding result returns, in program order. -/
def landAll (coord : Nat → Nat × Nat × Nat) (t : Strip) : Strip :=
  t.outstanding.foldl (land coord) { t with outstanding := [] }

/-! Taking an exception, and the return from it. -/

/-- A trap that an instruction takes at issue (R261): its cause, the lanes it reports with their addresses and walk
reports, the k registers it writes, and the address that SR_EPC gets. -/
structure TrapInfo where
  cause : Nat
  lanes : Mask
  addrs : List (Nat × DWord)
  reports : List (Nat × Word)
  kset : List (Nat × Word)
  epc : DWord
  deriving DecidableEq, Repr

/-- The lowest cause held in a replay queue, with its oldest holder (R262). -/
def lowestParked (q : List Access) : Option (Nat × Access) :=
  q.foldl (fun best a =>
    a.lanes.foldl (fun best r => match best with
      | none => if r.cause = 0 then none else some (r.cause, a)
      | some (c, _) => if r.cause ≠ 0 ∧ r.cause < c then some (r.cause, a) else best) best) none

/-- Whether an access is a tile instruction, which reports every live lane (R270). -/
def Access.isTile (a : Access) : Bool := a.kind == .loadT || a.kind == .storeT || a.kind == .stash

/-- Whether a fault is reported in k15: one of translation, or one that a peer found (R251, R293). -/
def LaneReq.reports (r : LaneReq) : Bool := decide (0x10 ≤ r.cause ∧ r.cause ≤ 0x12) || r.report != 0

/-- The trap that the replay queue makes: the lanes of the oldest instruction that holds the lowest cause (R262). -/
def parkedTrap (live : Mask) (epc : DWord) (q : List Access) : Option TrapInfo :=
  (lowestParked q).map fun (c, a) =>
    let rs := a.lanes.filter (·.cause == c)
    let once := a.isTile || a.uniform || a.kind == .save || a.kind == .restore
    let m := if a.isTile then live else if once then a.active else maskOf fun l => rs.any (·.lane == l)
    let reportOf (l : Nat) : Option LaneReq := if once then rs.head? else rs.find? (·.lane == l)
    { cause := c
      lanes := m
      addrs := (lanesOf m).filterMap fun l => (reportOf l).map fun r => (l, r.at_)
      reports := (lanesOf m).filterMap fun l => (reportOf l).bind fun r => if r.reports then some (l, r.report) else none
      kset := []
      epc := epc }

/-- The trap taken where a strip stops: the lower code of the instruction's own and the queue's (R262). -/
def trapTaken (own : Option TrapInfo) (parked : Option TrapInfo) : Option TrapInfo :=
  match own, parked with
  | some a, some b => some (if a.cause < b.cause then a else { b with epc := a.epc })
  | some a, none => some a
  | none, b => b

/-- R263, step 1: CAUSE, SR_EPC, SR_FMASK, SR_FADDR and the k registers of a trap. -/
def writeTrapState (t : Strip) (p : TrapInfo) : Strip :=
  let klane (t : Strip) (n l : Nat) (v : Word) : Strip :=
    { t with kregs := vset t.kregs n (vset (vget t.kregs n (Vector.replicate 32 0)) l v) }
  let t := p.kset.foldl (fun t (n, v) => (lanesOf p.lanes).foldl (fun t l => klane t n l v) t) t
  let t := p.reports.foldl (fun t (l, v) => klane t 15 l v) t
  { t with
    cause := BitVec.ofNat 32 p.cause
    epc := p.epc &&& 0x01FFFFFFFFFFFFFF
    fmask := p.lanes
    faddr := Vector.ofFn fun i : Fin 32 => ((p.addrs.find? (·.1 == i.val)).map (·.2)).getD 0 }

/-- The handler's address, 0 for none (R263). -/
def handlerOf (s : State) (c : Nat) : DWord := (s.cfg c).handler &&& 0x01FFFFFFFFFFFFFC

/-- R272: the strip halts and its context is reported fatal. No vector is taken, so only TRAP's own code is written to a k
register. -/
def haltStrip (s : State) (g : Gang) (t : Strip) (p : TrapInfo) (inner : Nat) : State :=
  let own := if inner = 0 then p.cause else inner
  let p := { p with kset := if own = 0x30 then p.kset else [], reports := [] }
  let t := { writeTrapState t p with halted := true, wait := .none, parked := false }
  fatalCtx (s.setStrip g.id t) g.ctx
    (FatalReport.mk t.cause t.epc t.fmask inner) (slotOf s g.launch)

/-- R272: an uncorrectable error in a strip's own state halts it with MACHINE_CHECK. -/
def machineCheck (s : State) (g : Gang) (t : Strip) (h : Header) : State :=
  haltStrip s g (landAll (g.coord h t.idx) t) (TrapInfo.mk 2 t.active [] [] [] t.pc) 0

/-- R62: the register cache fetches the lines of a strip that it does not hold. Where one of them is lost the strip's own state
is, and it halts with MACHINE_CHECK (R272, R278). -/
def bringIn (gang idx : Nat) (s : State) : State :=
  match s.gang? gang with
  | none => s
  | some g =>
    match g.strip? idx, s.launch? g.launch with
    | some t, some l =>
      if t.away.isEmpty || t.halted || t.retired || ((s.ctx? g.ctx).map fun x => x.fatal.isSome).getD true then s
      else if imageLost s g.ctx t then machineCheck s g t l.hdr
      else s.setStrip gang (fetchImage s.device t)
    | _, _ => s

/-- A strip vectors (R263): outstanding results return first, as at the end of a region (R67). In supervisor mode it
halts with DOUBLE_FAULT, which reports the active lanes (R266, R272), without a handler with the trap's own code (R272). A
DEBUG that a lower cause displaces arises again (R262). -/
def vectorWith (s : State) (g : Gang) (t : Strip) (h : Header) (p : TrapInfo) : State :=
  let t := landAll (g.coord h t.idx) t
  if t.priv then haltStrip s g t { p with cause := 1, lanes := t.active } p.cause
  else if handlerOf s g.ctx = 0 then haltStrip s g t p 0
  else
    let u := writeTrapState t p
    s.setStrip g.id { u with
      trapMask := t.active
      trapDepth := t.stack.length
      priv := true
      active := p.lanes &&& t.live
      pc := handlerOf s g.ctx
      wait := .none
      parked := false
      asked := []
      stepped := t.stepped && p.cause != 0x31 }

/-- A strip stops: it takes its own trap, if it has one, or a parked cause (R262, R265). In supervisor mode parked causes
play no part. -/
def stopStrip (s : State) (g : Gang) (t : Strip) (h : Header) (own : Option TrapInfo) (epc : DWord) : State :=
  match trapTaken own (if t.priv then none else parkedTrap t.live epc t.replay) with
  | some p => vectorWith s g t h p
  | none => s

/-- The return from a trap (R268). -/
def returnFromTrap (coord : Nat → Nat × Nat × Nat) (t : Strip) : Strip :=
  let t := landAll coord t
  { t with
    stack := t.stack.drop (t.stack.length - t.trapDepth)
    active := t.trapMask &&& t.live
    priv := false
    pc := t.epc }

/-- The end of an unchecked region for a strip that is parked there: once nothing is outstanding and no access waits, a
parked access makes it vector (R265), otherwise it is ready again (R67). -/
def regionEnd (s : State) (g : Gang) (t : Strip) (h : Header) : State :=
  if t.wait ≠ .none then s.setStrip g.id t
  else if !t.replay.isEmpty && !t.priv then stopStrip s g t h none t.pc
  else s.setStrip g.id { t with parked := !t.outstanding.isEmpty }

/-! Retirement. -/

/-- Whether a program has ended or stopped (R198). -/
def Prog.over (p : Prog) : Bool :=
  match p.status with
  | .ended => true
  | .stopped _ _ _ => true
  | _ => false

/-- R198: a gang whose strips have retired and whose programs have ended or stopped retires. A stop that no RDV collected
is logged as kind 1. The launch waits for the writes to peers that are not acknowledged yet (R294). -/
def retireGang (s : State) (id : Nat) : State :=
  match s.gang? id with
  | none => s
  | some g =>
    let ps := s.progs.filter (·.gang == id)
    if g.strips.all (·.retired) && ps.all Prog.over then
      let lost := ps.filter fun p =>
        (match p.status with | .stopped _ _ _ => true | _ => false) &&
        !(g.tokens.any fun k => k.prog == p.id && k.collected)
      let s := lost.foldl (fun s p => match p.status with
        | .stopped _ _ word => logError s g.ctx 1 0 word (slotOf s g.launch)
        | _ => s) s
      { s.mapLaunch g.launch fun l => { l with unacked := l.unacked ++ gangUnacked s g } with
        gangs := s.gangs.filter (·.id != id)
        progs := s.progs.filter (·.gang != id) }
    else s

/-- R133: pops the stack until lanes are active again, or the strip retires. -/
def popUntilActive : (fuel : Nat) → Strip → Strip
  | 0, t => { t with retired := true }
  | fuel + 1, t =>
    if t.active ≠ 0 then t
    else
      match t.stack with
      | [] => { t with retired := true, active := 0 }
      | e :: rest =>
        popUntilActive fuel { t with
          stack := rest
          active := e.mask &&& t.live
          fmt := e.fmt
          mode := e.mode
          pc := if e.pc.getLsbD 0 then e.pc - 1 else if e.pc.getLsbD 1 then e.pc - 2 else e.pc + 4 }

/-! Dealing out. -/

/-- A strip as it is created, with what its span gives it (R123, R127). -/
def newStrip (idx : Nat) (live : Mask) (pc : DWord) (regs : Vector Reg 64) (preds : Vector Pred 32)
    (fmt mode fpstat : Word) : Strip where
  idx := idx
  live := live
  active := live
  pc := pc
  regs := regs
  preds := preds
  kregs := Vector.replicate 16 (Vector.replicate 32 0)
  fmt := fmt
  mode := mode
  fpstat := fpstat
  cause := 0
  faddr := Vector.replicate 32 0
  fmask := 0
  epc := 0
  stack := []
  gens := Vector.replicate 4 (Gen.mk 0 0)
  priv := false
  trapMask := 0
  trapDepth := 0
  elect := none
  staged := none
  locks := 0
  lateFree := 0
  seq := 0
  replay := []
  outstanding := []
  parked := false
  wait := .none
  retired := false
  halted := false
  stepped := false
  barPhase := Vector.replicate 17 none
  withdrawn := none
  unacked := 0
  image := 0
  away := []
  asked := []

/-- The number of tiles along an axis (R123). -/
def tilesAlong (extent shape : Nat) : Nat := (extent + shape - 1) / shape

/-- The part of an axis that two intervals share: its start and its length. -/
def overlap (a la b lb : Nat) : Nat × Nat :=
  let lo := if a < b then b else a
  let hi := if a + la < b + lb then a + la else b + lb
  (lo, hi - lo)

/-- The part of tile (tx, ty, tz) of a stage box that lies in a span's box (R123, R127). -/
def tilePart (h : Header) (stage box : Box) (tx ty tz : Nat) : Box :=
  let (x, lx) := overlap (stage.ox + tx * h.gx) h.gx box.ox box.ex
  let (y, ly) := overlap (stage.oy + ty * h.gy) h.gy box.oy box.ey
  let (z, lz) := overlap (stage.oz + tz * h.gz) h.gz box.oz box.ez
  Box.mk x y z lx ly lz

/-- The numbers of the tiles along one axis that meet an interval. -/
def tileRange (base shape lo len : Nat) : List Nat :=
  if len = 0 then [] else (List.range ((lo - base + len - 1) / shape - (lo - base) / shape + 1)).map ((lo - base) / shape + ·)

/-- One gang of a span: the part of a tile, with a strip for each 32 items that holds one of them (R123). -/
def newGang (p : Span) (h : Header) (stage : Box) (id : Nat) (tx ty tz : Nat) : Gang :=
  let cx := stage.ox + tx * h.gx
  let cy := stage.oy + ty * h.gy
  let cz := stage.oz + tz * h.gz
  let part := tilePart h stage p.box tx ty tz
  let idxs := (List.range (tilesAlong (h.gx * h.gy * h.gz) 32)).filter fun k => liveLanes h cx cy cz part k != 0
  { id := id
    ctx := p.ctx
    launch := p.launch
    stage := p.stage
    tile := tx + tilesAlong stage.ex h.gx * (ty + tilesAlong stage.ey h.gy * tz)
    cx := cx
    cy := cy
    cz := cz
    box := part
    die := p.die
    place := none
    saved := false
    strips := idxs.map fun k =>
      newStrip k (liveLanes h cx cy cz part k) p.pc p.regs p.preds p.fmt p.mode p.fpstat
    scratch := []
    scratchOld := 0
    tiles := List.replicate h.acc (Vector.replicate 256 0)
    bars := Vector.replicate 16 (Bar.mk 0 [])
    recompute := []
    recPhase := 0
    replayMode := false
    tokens := []
    nextToken := 1 }

/-- The slab of a stage and the device's share on x (R122, R143): its start and length. -/
def shareOf (lo extent parts k : Nat) : Nat × Nat :=
  let q := extent / parts
  let m := extent % parts
  (lo + k * q + (if k < m then k else m), if k < m then q + 1 else q)
def stageBox (l : Launch) (stage : Nat) : Box :=
  let b := l.rcd.box
  let (x, ex) := shareOf b.ox b.ex l.group.nrank l.group.rank
  let (z, ez) := shareOf b.oz b.ez l.hdr.stages stage
  Box.mk x b.oy z ex b.ey ez

/-- Deals a span out (R127): each non-empty part of a tile becomes a gang that waits for a bench. -/
def dealOut (s : State) (p : Span) : State :=
  match s.launch? p.launch with
  | none => s
  | some l =>
    let h := l.hdr
    let st := stageBox l p.stage
    let tiles := (tileRange st.oz h.gz p.box.oz p.box.ez).flatMap fun tz =>
      (tileRange st.oy h.gy p.box.oy p.box.ey).flatMap fun ty =>
        (tileRange st.ox h.gx p.box.ox p.box.ex).map fun tx => (tx, ty, tz)
    let s := { s with spans := s.spans.filter (·.id != p.id) }
    tiles.foldl (fun s (tx, ty, tz) =>
      { s with gangs := s.gangs ++ [newGang p h st s.nextId tx ty tz], nextId := s.nextId + 1 }) s

end Sys2Proof.Machine
end

