-- ==== Sys2Proof/Machine/Issue.lean ====
section
/-! DEFINITION. How an instruction issues: in a strip (R92, R93, R39, R66, R67, R84, R262, R265), in a span (R125, R126)
and in an engine program (R91). A meaning gives its own part; the rest stands here once. -/

namespace Sys2Proof.Machine

/-- What an instruction's own part answers in a strip: its effect, after which the PC advances; an effect that has set the
PC; a precise trap without effect; a trap after its effect; that it waits and issues again; or a state in which the strip
has left its course. -/
inductive Done where
  | next (s : State) (t : Strip)
  | moved (s : State) (t : Strip)
  | trap (p : TrapInfo)
  | after (s : State) (t : Strip) (p : TrapInfo)
  | waits (s : State) (t : Strip) (r : Reason)
  | gone (s : State)

/-- What an instruction's own part works on in a strip; fr.active are the lanes that it acts on, pcNext the address after
the instruction. -/
structure Seat where
  s : State
  g : Gang
  t : Strip
  l : Launch
  x : Ctx
  fr : Frame
  pcNext : DWord

/-- What an ALU word sees besides its frame: the launch, and the gang and strip unless a span executes it. -/
structure Info where
  s : State
  l : Launch
  x : Ctx
  stage : Nat
  at_ : Option (Gang × Strip)

def Seat.info (w : Seat) : Info := Info.mk w.s w.l w.x w.g.stage (some (w.g, w.t))

/-- The coordinates of a seat's lanes. -/
def Seat.coord (w : Seat) : Nat → Nat × Nat × Nat := w.g.coord w.l.hdr w.t.idx

/-- A precise trap that reports the active lanes and no address (R261). -/
def plainTrap (t : Strip) (cause : Nat) : TrapInfo := TrapInfo.mk cause t.active [] [] [] t.pc

/-- The result of a part that only changes the frame. -/
def Seat.done (w : Seat) (r : Do Frame) : Done :=
  match r with
  | .ok fr => .next w.s (w.t.withFrame fr)
  | .error (.trap c) => .trap (plainTrap w.t c)
  | .error .dealOut => .trap (plainTrap w.t 0x08)

/-- The storage width that a format code selects, 0 where it selects no entry (R78). -/
def widthOf (table : Vector DWord 48) (fmt : Word) (code : Nat) : Nat :=
  ((entryOf table fmt code).map fun e => (Ent.of e).wid).getD 0

/-- Whether a MOV's source field names a v register in supervisor mode (R80). -/
def plainSource : Instr → Bool
  | .mov w | .movG w => (w.x.map fun m => m.cls.getLsbD 1).getD false
  | _ => false

/-- A register group as RegPart numbers it: k registers from 64. -/
def roleIndex (priv plain : Bool) (r : Role) : Nat × Nat :=
  if priv && !plain && decide (48 ≤ r.reg.toNat) then (r.reg.toNat + 16, r.n) else (r.reg.toNat, r.n)

/-- The registers of a list of roles. -/
def roleRegs (priv : Bool) (rs : List Role) : List Nat :=
  rs.flatMap fun r => let (a, n) := roleIndex priv false r; (List.range n).map (a + ·)

/-- Whether a gang runs: it is placed, and with CORES every gang of its launch is (R140). -/
def gangRuns (s : State) (g : Gang) (l : Launch) : Bool :=
  g.place.isSome && !g.saved && (!l.hdr.cores || (s.gangs.filter (·.launch == l.id)).all fun o => o.place.isSome && !o.saved)

/-- Whether a strip may issue i: nothing holds it back, or it waits for the condition under which i issues (R159). -/
def stripReady (s : State) (g : Gang) (t : Strip) (l : Launch) (x : Ctx) (i : Instr) : Bool :=
  gangRuns s g l && !t.retired && !t.halted && !t.parked && x.fatal.isNone && !s.dev.fatal && !s.dev.stopped &&
  (match t.wait with
   | .none => true
   | .again _ j => j == i
   | _ => false)

/-- R209: the words whose register blocks the mill reads, after every result for them has returned. -/
def millReads : Instr → Bool
  | .mma _ | .smma _ | .accwr _ => true
  | _ => false

/-- The registers as a strip reads them for i (R68, R209). -/
def viewFor (coord : Nat → Nat × Nat × Nat) (t : Strip) (tick : Nat) (f : Form) (i : Instr) : Vector Reg 64 × Vector Lanes 16 :=
  if millReads i then
    let u := landAll coord t
    (u.regs, u.kregs)
  else viewOf coord t tick (f.srcs.map (roleIndex t.priv (plainSource i)))

/-- The seat of a strip that issues i under a guard. -/
def seatOf (s : State) (g : Gang) (t : Strip) (l : Launch) (x : Ctx) (gd : Guard) (f : Form) (i : Instr) : Seat :=
  let coord := g.coord l.hdr t.idx
  let view := viewFor coord t s.tick f i
  { s := if t.outstanding.isEmpty then s else s.bump 262144
    g := g
    t := t
    l := l
    x := x
    fr := stripFrame g t l.hdr x.fmtTable gd view
    pcNext := t.pc + BitVec.ofNat 64 i.size }

/-- The 4 KiB pages of a range. -/
def pagesOf (spots : List (Nat × Nat)) : List Nat := spots.flatMap fun (a, n) => unitsOf 4096 a n

/-- The pages and the destination registers of parked accesses (R265, R270). -/
def parkedPages (q : List Access) : List Nat :=
  pagesOf (q.flatMap fun a => a.lanes.map fun r => (r.addr.toNat, r.len))
def parkedRegs (q : List Access) : List Nat := q.flatMap fun a => (List.range a.regs).map (a.dst + ·) ++ a.srcs

/-- Whether an access touches an SO page (R178); twin pages behave as RC (R177). -/
def touchesSo (s : State) (c : Nat) (priv : Bool) (spots : List (Nat × Nat)) : Bool :=
  (pagesOf spots).any fun p =>
    match (translate s c (4096 * p) .none priv).1 with
    | .ok (e, _) => leafOrd e == 1 && !leafTwin e
    | .error _ => false

/-- Whether the kind of a parked part's pages is known, and UN: a part that faulted in translation has no known kind (R178). -/
def parkedUn (s : State) (c : Nat) (a : Access) (r : LaneReq) : Bool :=
  decide (0x12 < r.cause) && (pagesOf [(r.addr.toNat, r.len)]).all fun p =>
    match (translate s c (4096 * p) .none a.priv).1 with
    | .ok (e, _) => leafOrd e == 2 && !leafTwin e
    | .error _ => false

/-- R184, R196: whether a parked access is one that a release or an acquire orders, which those to UN pages are not. -/
def parkedOrdered (s : State) (c : Nat) (q : List Access) : Bool := q.any fun a => a.lanes.any fun r => !parkedUn s c a r

/-- R265: whether a strip stops before it issues i, which accesses the given ranges of memory. -/
def stopsAtQueue (w : Seat) (f : Form) (i : Instr) (skip : Bool) (spots : List (Nat × Nat)) : Bool :=
  !w.t.priv && !w.t.replay.isEmpty &&
  (endsRegion i ||
    (!skip &&
      ((ordersAccesses i && parkedOrdered w.s w.g.ctx w.t.replay) ||
        (roleRegs w.t.priv (f.srcs ++ f.dsts)).any (parkedRegs w.t.replay).contains ||
        (pagesOf spots).any (parkedPages w.t.replay).contains ||
        touchesSo w.s w.g.ctx w.t.priv spots)))

/-- A strip has issued an instruction: single-step sees it in user mode (R269), and nothing that it has asked a peer for is
late any more. -/
def Strip.counted (t : Strip) (sstep : Bool) : Strip :=
  { t with stepped := if t.priv then t.stepped else sstep, asked := [] }

/-- After an instruction has issued: single-step sees it, and the region may end (R67). -/
def finishIssue (s : State) (g : Gang) (t : Strip) (h : Header) (sstep ends : Bool) : State :=
  let t := t.counted sstep
  if ends then regionEnd s g { t with parked := true } h else s.setStrip g.id t

/-- The instructions of a strip whose accesses have parked, or wait and may yet park: RQREL has room for eight of them
(R264). -/
def Strip.queued (t : Strip) : Nat :=
  match t.wait with
  | .access l => (nub ((t.replay ++ l).map (·.pos)) []).length
  | _ => t.replay.length

/-- What follows from the answer of an instruction's own part. A ninth instruction that would park, or that waits and could,
stops the strip before it issues (R265, log 21). -/
def settle (w : Seat) (i : Instr) (f : Form) (d : Done) : State :=
  let stop (own : Option TrapInfo) : State := stopStrip w.s w.g w.t w.l.hdr own w.t.pc
  let go (s : State) (t : Strip) : State :=
    if !t.priv && decide (8 < t.queued) then stop none
    else finishIssue s w.g t w.l.hdr w.x.cfg.sstep (f.s || endsRegion i)
  match d with
  | .next s t => go s { t with pc := w.pcNext }
  | .moved s t => go s t
  | .trap p => stop (some p)
  | .after s t p =>
    vectorWith s w.g (t.counted w.x.cfg.sstep) w.l.hdr { p with epc := if t.priv then t.pc else w.pcNext }
  | .waits s t r => s.setStrip w.g.id { t with wait := .again r i }
  | .gone s => s

/-- The precise trap of an instruction at which a strip stops, if it has one (R262). -/
def ownTrap : Done → Option TrapInfo
  | .trap p => some p
  | _ => none

/-! What a word does for lanes whose guard is false. -/

/-- R113: the rounding code and the number of results of a word that rounds, and so draws under stochastic rounding. -/
def drawCode : Instr → Option (Nat × Nat)
  | .fadd _ w | .fsub _ w | .fmul _ w | .ffma _ w | .fscl _ w | .cvt _ w | .vdot w => some (rndOf w.x, 32)
  | .frcp w | .frsq w | .fsqrt w | .fexp2 w | .flog2 w | .fsin w | .fcos w | .ftanh w | .frnd w => some (rndOf w.x, 32)
  | .reap .fadd w => some (rndOf w.x, 32)
  | .st w | .stG w | .sts w => if fmtOf w.x = 63 then none else some (rndOf w.x, 32)
  | .accrd w | .accrdZero w | .accwr w => some (rndOf w.x, 256)
  | _ => none

/-- The number of words that a word draws in a frame for its rounded results. -/
def drawsOf (fr : Frame) (i : Instr) : Nat :=
  match drawCode i with
  | some (code, n) => if fr.rounding code = 6 then n else 0
  | none => 0

/-- R113, R358: the generators after a word whose guard is false in every active lane: it draws as it would otherwise. -/
def passedGens (fr : Frame) (i : Instr) : Vector Gen 4 :=
  match i with
  | .rng fn w => vset fr.gens w.a.toNat ((vget fr.gens w.a.toNat (Gen.mk 0 0)).advance (if fn.toNat ≤ 1 then 32 else 64))
  | i =>
    match drawsOf fr i with
    | 0 => fr.gens
    | n => vset fr.gens fr.srg ((vget fr.gens fr.srg (Gen.mk 0 0)).advance n)

/-- Whether LDT and STASH look at their uniform operands before a guard that is false in every active lane, and find one that
is not U. R345 and R366 put that step first, R39 and R84 say that such a word has no exception; which of the two holds is left
open (log 22). -/
def beforeGuard (w : Seat) : Instr → Bool
  | .ldt v => !Config.operandsFirst || (w.fr.pair v.a.toNat).isU && (w.fr.reg v.b.toNat).isU
  | .stash v => !Config.operandsFirst ||
      (w.fr.pair v.a.toNat).isU && (w.fr.pair v.b.toNat).isU && (w.fr.reg (vcOf v.x).toNat).isU
  | _ => true

/-- The lower of two causes, each with its report. -/
def lowerTrap (a : TrapInfo) : Option TrapInfo → TrapInfo
  | some b => if b.cause < a.cause then b else a
  | none => a

/-- Whether a word is of the G set, is not EXIT, and has a guard that is not U (R79). -/
def unevenGuard (f : Form) (i : Instr) : Guard → Bool
  | .lanes _ => f.g && i != .exit f.s f.x
  | _ => false

/-- The precise trap that a legal word takes before its own part is looked at, in a given seat with a given guard (R92, R93).
A guard that is false in every active lane leaves a word without exception, PRIV and a tile that the gang does not have
among them (R39, R84; the model's choice against R92's table, log 22), but for the form of a G-set word's guard (R79) and,
where that is so, of the operands that LDT and STASH look at first. Where a G-set word's guard is not U, its own part may trap with a lower
code. -/
def earlyTrap (w : Seat) (i : Instr) (f : Form) (gd : Guard) (body : Seat → Done) : Option TrapInfo :=
  let skip := w.fr.active == 0
  if !skip && !f.legal then some (plainTrap w.t 0x08)
  else if !skip && privileged i && !w.t.priv then some (plainTrap w.t 0x09)
  else if unevenGuard f i gd then
    some (lowerTrap (plainTrap w.t 0x0B) (if skip then none else ownTrap (body w)))
  else if skip && !beforeGuard w i then some (plainTrap w.t 0x0B)
  else none

/-- Whether a register that a word writes is locked: its destinations, and for RQREL those of the parked accesses (R66). -/
def lockedDst (t : Strip) (f : Form) (i : Instr) : Bool :=
  (roleRegs t.priv f.dsts ++ (match i with
    | .rqrel _ => t.replay.flatMap fun a => (List.range a.regs).map (a.dst + ·)
    | _ => [])).any fun n => t.locks.getLsbD n

/-- A strip that may issue i does so. spots are the ranges of memory that i accesses. The encoding is looked at first, for a
gang with all sixteen tiles; every other trap depends on the guard. -/
def issueIn (s : State) (g : Gang) (t : Strip) (l : Launch) (x : Ctx) (i : Instr) (spots : Seat → List (Nat × Nat))
    (body : Seat → Done) : State :=
  let f := formOf (widthOf x.fmtTable t.fmt) l.hdr.acc i
  let refuse (p : TrapInfo) : State := stopStrip s g t l.hdr (some p) t.pc
  if !(formOf (widthOf x.fmtTable t.fmt) 16 i).legal then refuse (plainTrap t 0x08)
  else
    let gd := guardOf t.preds (g.coord l.hdr t.idx) (f.guardWord i)
    let w := seatOf s g t l x gd f i
    match earlyTrap w i f gd body with
    | some p => refuse p
    | none =>
      let skip := w.fr.active == 0
      if stopsAtQueue w f i skip (spots w) then
        stopStrip s g t l.hdr (if skip then none else ownTrap (body w)) t.pc
      else if skip then
        finishIssue s g { t with pc := w.pcNext, gens := passedGens w.fr i } l.hdr x.cfg.sstep (f.s || endsRegion i)
      else if lockedDst t f i then s.setStrip g.id { t with wait := .again .lock i }
      else if releaseScope i ≥ 4 && t.unacked != 0 then s.setStrip g.id { t with wait := .again .ack i }
      else settle w i f (body w)

/-- A strip's turn with i. A strip that is not ready issues nothing. -/
def issueStrip (s : State) (gid k : Nat) (i : Instr) (spots : Seat → List (Nat × Nat)) (body : Seat → Done) : State :=
  match s.gang? gid with
  | none => s
  | some g =>
    match g.strip? k, s.launch? g.launch, s.ctx? g.ctx with
    | some t, some l, some x =>
      if stripReady s g t l x i then issueIn s g { t with wait := .none } l x i spots body else s
    | _, _, _ => s

/-- The special registers that R54 marks *: a read of one needs a strip. -/
def starredSrs : List Nat :=
  [0x04, 0x05, 0x06, 0x07, 0x08, 0x09, 0x0D, 0x0E, 0x10, 0x11, 0x12, 0x13, 0x14, 0x15, 0x16, 0x17, 0x18, 0x1D, 0x1E, 0x1F]

/-- R125, R54, R113, R336, R349: whether a word fails a condition that a span needs and that asks nothing of the word's results:
it draws, it is a MOVS of a register marked *, or it is an FMTSEL or MODESET whose register source is not U. -/
def unfitForSpan (p : Span) (fr : Frame) (i : Instr) : Bool :=
  let uneven (n : Nat) : Bool := match vget p.regs n (.u 0) with
    | .u _ => false
    | _ => true
  drawsOf fr i != 0 || match i with
    | .movs w | .movsG w => starredSrs.contains w.a.toNat
    | .fmtselReg w | .modeset w | .modesetClr w => uneven w.a.toNat
    | _ => false

/-- A span's turn with i: symbolic is what i does in a span's frame, none where it always deals the span out. A word whose guard
is a U predicate that is false writes nothing (R125, R39): it has no result, so the model reads R125's conditions on results as
met and steps over it (DEDUCED, log 23); the other conditions of R125 bind it as they bind every word. -/
def issueSpan (s : State) (n : Nat) (i : Instr) (symbolic : Option (Info → Frame → Do Frame)) : State :=
  match s.span? n with
  | none => s
  | some p =>
    match s.launch? p.launch, s.ctx? p.ctx with
    | some l, some x =>
      if p.waiting || x.fatal.isSome || s.dev.fatal || s.dev.stopped then s
      else
        let f := formOf (widthOf x.fmtTable p.fmt) l.hdr.acc i
        let gd := guardOf p.preds (fun _ => (0, 0, 0)) (f.guardWord i)
        match symbolic, f.legal && !privileged i, gd with
        | some _, true, .uniform false =>
          if unfitForSpan p (spanFrame p l.hdr x.fmtTable false) i then dealOut s p
          else s.mapSpan n fun p => { p with pc := p.pc + BitVec.ofNat 64 i.size }
        | _, _, .lanes _ => dealOut s p
        | some run, true, _ =>
          match run (Info.mk s l x p.stage none) (spanFrame p l.hdr x.fmtTable true) with
          | .ok fr => s.mapSpan n fun p => { p.withFrame fr with pc := p.pc + BitVec.ofNat 64 i.size }
          | .error _ => dealOut s p
        | _, _, _ => dealOut s p
    | _, _ => s

/-- An engine program stops at its current word (R91, R199, R200). -/
def stopProg (s : State) (n sub : Nat) (addr : DWord) : State :=
  match s.prog? n with
  | none => s
  | some p => retireGang (s.mapProg n fun p => { p with status := .stopped sub addr p.pc }) p.gang

/-- Whether the gang that forked a program runs (R140, R274). -/
def gangOfRuns (s : State) (p : Prog) : Bool :=
  match s.gang? p.gang, s.launch? p.launch with
  | some g, some l => gangRuns s g l
  | _, _ => false

/-- Whether a word is an EWAIT, which counts as a command boundary while it waits (R200). -/
def isEwait : Instr → Bool
  | .ewait _ _ _ => true
  | _ => false

/-- R200, R274: whether a program is in the middle of a command, which it finishes when its gang is pre-empted. -/
def Prog.inCommand (p : Prog) : Bool :=
  match p.status with
  | .waiting i => !isEwait i
  | .collective _ _ _ _ => true
  | _ => false

/-- Whether an engine program may run i: nothing holds it back, or it waits to perform i. -/
def progReady (s : State) (p : Prog) (i : Instr) : Bool :=
  (match p.status with
   | .running => true
   | .waiting j => j == i
   | _ => false) && !p.saved && (gangOfRuns s p || p.inCommand) && ((s.ctx? p.ctx).map fun x => x.fatal.isNone).getD false &&
  !s.dev.fatal && !s.dev.stopped

/-- A word of a strip in an engine program stops it (R91). -/
def foreignWord (s : State) (n : Nat) (i : Instr) : State :=
  match s.prog? n with
  | some p => if progReady s p i then stopProg s n 0x21 0 else s
  | none => s

/-- An ALU word, or another word that only changes registers and controls. -/
def runAlu (i : Instr) (f : Info → Frame → Do Frame) (s : State) : Out :=
  match s.cur with
  | .nobody => .fault .noIssuer
  | .strip g k => .next (issueStrip s g k i (fun _ => []) fun w => w.done (f w.info w.fr))
  | .span n => .next (issueSpan s n i (some f))
  | .prog n => .next (foreignWord s n i)

/-- A word that needs a strip and accesses no memory in a way that R265 looks at. -/
def runStrip (i : Instr) (body : Seat → Done) (s : State) : Out :=
  match s.cur with
  | .nobody => .fault .noIssuer
  | .strip g k => .next (issueStrip s g k i (fun _ => []) body)
  | .span n => .next (issueSpan s n i none)
  | .prog n => .next (foreignWord s n i)

/-- A memory word of a strip. -/
def runMem (i : Instr) (spots : Seat → List (Nat × Nat)) (body : Seat → Done) (s : State) : Out :=
  match s.cur with
  | .nobody => .fault .noIssuer
  | .strip g k => .next (issueStrip s g k i spots body)
  | .span n => .next (issueSpan s n i none)
  | .prog n => .next (foreignWord s n i)

/-- A control word that has its own meaning in a span. -/
def runBoth (i : Instr) (inSpan : State → Nat → State) (body : Seat → Done) (s : State) : Out :=
  match s.cur with
  | .nobody => .fault .noIssuer
  | .strip g k => .next (issueStrip s g k i (fun _ => []) body)
  | .span n => .next (inSpan s n)
  | .prog n => .next (foreignWord s n i)

/-- An engine-class word: a strip traps on it (R91), a span is dealt out. -/
def runEngine (i : Instr) (body : State → Prog → State) (s : State) : Out :=
  match s.cur with
  | .nobody => .fault .noIssuer
  | .strip g k => .next (issueStrip s g k i (fun _ => []) fun w => .trap (plainTrap w.t 0x08))
  | .span n => .next (issueSpan s n i none)
  | .prog n =>
    .next (match s.prog? n with
      | some p => if progReady s p i then body s p else s
      | none => s)

end Sys2Proof.Machine
end

