-- ==== Sys2Proof/Machine/Integer.lean ====
section
/-! DEFINITION. The integer ALU words (R310, R311), the logic words (R313), the bit words (R316, R318, R346, R352, R354,
R360) and the immediate words (R312). -/

namespace Sys2Proof.Machine

/-- The width of an integer type, and whether it is signed (R310). -/
def typeWidth : IntType → Nat
  | .i32 | .n32 => 32
  | .i64 | .n64 => 64
def typeSigned : IntType → Bool
  | .i32 | .i64 => true
  | .n32 | .n64 => false

/-- A G-set type: .I32 or .N32 (R310). -/
def typeG (u : Bool) : IntType := if u then .n32 else .i32

/-- A code read as an integer of a type, and an integer written modulo 2^w. -/
def readInt (t : IntType) (v : DWord) : Int :=
  match t with
  | .i32 => (loOf v).toInt
  | .n32 => (loOf v).toNat
  | .i64 => v.toInt
  | .n64 => v.toNat
def writeInt (w : Nat) (r : Int) : DWord := if w = 64 then BitVec.ofInt 64 r else (BitVec.ofInt 32 r).setWidth 64

/-- Saturation to the range of a type (R310). -/
def clampInt (t : IntType) (r : Int) : Int :=
  let w := typeWidth t
  let lo : Int := if typeSigned t then -(2 ^ (w - 1) : Nat) else 0
  let hi : Int := if typeSigned t then (2 ^ (w - 1) : Nat) - 1 else (2 ^ w : Nat) - 1
  if r < lo then lo else if r > hi then hi else r

/-- An exact integer result, saturated or not, as a code. -/
def intResult (t : IntType) (sat : Bool) (r : Int) : DWord :=
  writeInt (typeWidth t) (if sat then clampInt t r else r)

/-- The words of R310. -/
def addWord (t : IntType) (sat : Bool) (a b : DWord) : DWord := intResult t sat (readInt t a + readInt t b)
def subWord (t : IntType) (sat : Bool) (a b : DWord) : DWord := intResult t sat (readInt t a - readInt t b)
def mulWord (t : IntType) (sat : Bool) (a b : DWord) : DWord := intResult t sat (readInt t a * readInt t b)
def mulhWord (t : IntType) (a b : DWord) : DWord :=
  intResult t false (readInt t a * readInt t b / (2 ^ typeWidth t : Nat))
def minWord (t : IntType) (a b : DWord) : DWord :=
  intResult t false (if readInt t b < readInt t a then readInt t b else readInt t a)
def maxWord (t : IntType) (a b : DWord) : DWord :=
  intResult t false (if readInt t b > readInt t a then readInt t b else readInt t a)
def addcWord (t : IntType) (a b : DWord) : DWord :=
  intResult t false ((readInt t a + readInt t b) / (2 ^ typeWidth t : Nat))
def madWord (t : IntType) (sat : Bool) (a b c : DWord) : DWord :=
  intResult t sat (readInt t a * readInt t b + readInt t c)

/-- A value as an affine one where R45 lets an operation keep A form; saturation is not affine (R311). -/
def affOf (sat : Bool) (v : Val) : Option Aff := if sat then none else v.aff?

/-- The form rows of R45 for ADD, SUB, MUL and MAD; word is the operation on single values. -/
def addVal (fr : Frame) (sat : Bool) (word : DWord → DWord → DWord) (join : Aff → Aff → Aff) (a b : Val) : Val :=
  match a, b with
  | .u x, .u y => .u (word x y)
  | a, b =>
    match affOf sat a, affOf sat b with
    | some f, some g => .a (join f g)
    | _, _ => .l fun l => word (a.at_ fr l) (b.at_ fr l)
def mulVal (fr : Frame) (sat : Bool) (word : DWord → DWord → DWord) (a b : Val) : Val :=
  match a, b, sat with
  | .u x, .u y, _ => .u (word x y)
  | .a f, .u y, false => .a (f.times y)
  | .u x, .a f, false => .a (f.times x)
  | a, b, _ => .l fun l => word (a.at_ fr l) (b.at_ fr l)
def madVal (fr : Frame) (sat : Bool) (word : DWord → DWord → DWord → DWord) (a b c : Val) : Val :=
  let lanes : Val := .l fun l => word (a.at_ fr l) (b.at_ fr l) (c.at_ fr l)
  match a, b, c with
  | .u x, .u y, .u z => .u (word x y z)
  | .u x, .u y, .a h => if sat then lanes else .a ((Aff.mk (x * y) 0 0 0).add h)
  | .a f, .u y, c => (match affOf sat c with | some h => .a ((f.times y).add h) | none => lanes)
  | .u x, .a f, c => (match affOf sat c with | some h => .a ((f.times x).add h) | none => lanes)
  | _, _, _ => lanes

/-- A word of two sources: its operands are read, freed on a last-read, and the result written (R64). -/
def body3 (n : Nat) (w : W3) (f : Frame → Val → Val → Val) (fr : Frame) : Do Frame :=
  let a := fr.src n w.a.toNat
  let b := fr.src n w.b.toNat
  ((fr.free w.la n w.a.toNat).free w.lb n w.b.toNat).dst n w.d.toNat (f fr a b)

/-- The same with a third source in the X word. -/
def body4 (n : Nat) (w : W3) (f : Frame → Val → Val → Val → Val) (fr : Frame) : Do Frame :=
  let a := fr.src n w.a.toNat
  let b := fr.src n w.b.toNat
  let c := fr.src n (vcOf w.x).toNat
  (((fr.free w.la n w.a.toNat).free w.lb n w.b.toNat).free (lcOf w.x) n (vcOf w.x).toNat).dst n w.d.toNat (f fr a b c)

/-- A word of one source. -/
def body2 (w : W2) (f : Frame → Val → Val) (fr : Frame) : Do Frame :=
  let a := fr.reg w.a.toNat
  (fr.free w.la 32 w.a.toNat).setReg w.d.toNat (f fr a)

/-- G-set words: every source is U (R86). -/
def bodyG3 (w : W3) (f : DWord → DWord → DWord) (fr : Frame) : Do Frame := do
  let a ← (fr.reg w.a.toNat).uni
  let b ← (fr.reg w.b.toNat).uni
  ((fr.free w.la 32 w.a.toNat).free w.lb 32 w.b.toNat).setReg w.d.toNat (.u (f a b))
def bodyG4 (w : W3) (f : DWord → DWord → DWord → DWord) (fr : Frame) : Do Frame := do
  let a ← (fr.reg w.a.toNat).uni
  let b ← (fr.reg w.b.toNat).uni
  let c ← (fr.reg (vcOf w.x).toNat).uni
  (((fr.free w.la 32 w.a.toNat).free w.lb 32 w.b.toNat).free (lcOf w.x) 32 (vcOf w.x).toNat).setReg w.d.toNat (.u (f a b c))

/-- R310: ADD. -/
def execAdd (t : IntType) (w : W3) (s : State) : Out :=
  runAlu (.add t w) (fun _ => body3 (typeWidth t) w fun fr => addVal fr (satOf w.x) (addWord t (satOf w.x)) Aff.add) s

/-- R310: SUB. -/
def execSub (t : IntType) (w : W3) (s : State) : Out :=
  runAlu (.sub t w) (fun _ => body3 (typeWidth t) w fun fr => addVal fr (satOf w.x) (subWord t (satOf w.x)) Aff.sub) s

/-- R310: MUL. -/
def execMul (t : IntType) (w : W3) (s : State) : Out :=
  runAlu (.mul t w) (fun _ => body3 (typeWidth t) w fun fr => mulVal fr (satOf w.x) (mulWord t (satOf w.x))) s

/-- R310: MULH. -/
def execMulh (t : IntType) (w : W3) (s : State) : Out :=
  runAlu (.mulh t w) (fun _ => body3 (typeWidth t) w fun fr => lift2 fr (mulhWord t)) s

/-- R310: MIN. -/
def execMin (t : IntType) (w : W3) (s : State) : Out :=
  runAlu (.min t w) (fun _ => body3 (typeWidth t) w fun fr => lift2 fr (minWord t)) s

/-- R310: MAX. -/
def execMax (t : IntType) (w : W3) (s : State) : Out :=
  runAlu (.max t w) (fun _ => body3 (typeWidth t) w fun fr => lift2 fr (maxWord t)) s

/-- R310: ADDC. -/
def execAddc (t : IntType) (w : W3) (s : State) : Out :=
  runAlu (.addc t w) (fun _ => body3 (typeWidth t) w fun fr => lift2 fr (addcWord t)) s

/-- R310: MAD. -/
def execMad (t : IntType) (w : W3) (s : State) : Out :=
  runAlu (.mad t w) (fun _ => body4 (typeWidth t) w fun fr => madVal fr (satOf w.x) (madWord t (satOf w.x))) s

/-- R310: the G forms. -/
def execAddG (u : Bool) (w : W3) (s : State) : Out :=
  runAlu (.addG u w) (fun _ => bodyG3 w (addWord (typeG u) (satOf w.x))) s
def execSubG (u : Bool) (w : W3) (s : State) : Out :=
  runAlu (.subG u w) (fun _ => bodyG3 w (subWord (typeG u) (satOf w.x))) s
def execMulG (u : Bool) (w : W3) (s : State) : Out :=
  runAlu (.mulG u w) (fun _ => bodyG3 w (mulWord (typeG u) (satOf w.x))) s
def execMulhG (u : Bool) (w : W3) (s : State) : Out := runAlu (.mulhG u w) (fun _ => bodyG3 w (mulhWord (typeG u))) s
def execMinG (u : Bool) (w : W3) (s : State) : Out := runAlu (.minG u w) (fun _ => bodyG3 w (minWord (typeG u))) s
def execMaxG (u : Bool) (w : W3) (s : State) : Out := runAlu (.maxG u w) (fun _ => bodyG3 w (maxWord (typeG u))) s
def execAddcG (u : Bool) (w : W3) (s : State) : Out := runAlu (.addcG u w) (fun _ => bodyG3 w (addcWord (typeG u))) s
def execMadG (u : Bool) (w : W3) (s : State) : Out :=
  runAlu (.madG u w) (fun _ => bodyG4 w (madWord (typeG u) (satOf w.x))) s

/-! Logic words (R313). -/

/-- A 32-bit operation on values of registers. -/
def on32 (f : Word → Word → Word) (a b : DWord) : DWord := (f (loOf a) (loOf b)).setWidth 64

/-- The shifts of R313. -/
def shlWord (a b : Word) : Word := if b.toNat < 32 then a <<< b.toNat else 0
def shrWord (a b : Word) : Word := if b.toNat < 32 then a >>> b.toNat else 0
def sarWord (a b : Word) : Word := a.sshiftRight (if b.toNat < 32 then b.toNat else 31)

/-- SHL's forms (R45). -/
def shlVal (fr : Frame) (a b : Val) : Val :=
  match a, b with
  | .a f, .u k => .a (f.times (if k.toNat % 2 ^ 32 < 32 then (1 : DWord) <<< (k.toNat % 2 ^ 32) else 0))
  | a, b => lift2 fr (on32 shlWord) a b

def execAnd (w : W3) (s : State) : Out := runAlu (.and w) (fun _ => body3 32 w fun fr => lift2 fr (on32 (· &&& ·))) s
def execOr (w : W3) (s : State) : Out := runAlu (.or w) (fun _ => body3 32 w fun fr => lift2 fr (on32 (· ||| ·))) s
def execXor (w : W3) (s : State) : Out := runAlu (.xor w) (fun _ => body3 32 w fun fr => lift2 fr (on32 (· ^^^ ·))) s
def execAndn (w : W3) (s : State) : Out :=
  runAlu (.andn w) (fun _ => body3 32 w fun fr => lift2 fr (on32 fun a b => a &&& ~~~b)) s
def execShl (w : W3) (s : State) : Out := runAlu (.shl w) (fun _ => body3 32 w shlVal) s
def execShr (w : W3) (s : State) : Out := runAlu (.shr w) (fun _ => body3 32 w fun fr => lift2 fr (on32 shrWord)) s
def execSar (w : W3) (s : State) : Out := runAlu (.sar w) (fun _ => body3 32 w fun fr => lift2 fr (on32 sarWord)) s
def execAndG (w : W3) (s : State) : Out := runAlu (.andG w) (fun _ => bodyG3 w (on32 (· &&& ·))) s
def execOrG (w : W3) (s : State) : Out := runAlu (.orG w) (fun _ => bodyG3 w (on32 (· ||| ·))) s
def execXorG (w : W3) (s : State) : Out := runAlu (.xorG w) (fun _ => bodyG3 w (on32 (· ^^^ ·))) s
def execAndnG (w : W3) (s : State) : Out := runAlu (.andnG w) (fun _ => bodyG3 w (on32 fun a b => a &&& ~~~b)) s
def execShlG (w : W3) (s : State) : Out := runAlu (.shlG w) (fun _ => bodyG3 w (on32 shlWord)) s
def execShrG (w : W3) (s : State) : Out := runAlu (.shrG w) (fun _ => bodyG3 w (on32 shrWord)) s
def execSarG (w : W3) (s : State) : Out := runAlu (.sarG w) (fun _ => bodyG3 w (on32 sarWord)) s

/-! Bit words. -/

/-- A 32-bit operation of one source. -/
def on32u (f : Word → Word) (a : DWord) : DWord := (f (loOf a)).setWidth 64

/-- R352, R318: POPC, CLZ, BREV. -/
def popcWord (a : Word) : Word := BitVec.ofNat 32 ((List.range 32).foldl (fun n i => if a.getLsbD i then n + 1 else n) 0)
def clzWord (a : Word) : Word := BitVec.ofNat 32 (if a = 0 then 32 else 31 - a.toNat.log2)
def brevWord (a : Word) : Word := maskOf fun i => a.getLsbD (31 - i)

/-- R316: pos, and the mask of len bits, of a control word. -/
def fieldPos (k : Word) : Nat := bitsOf k.toNat 0 8
def fieldMask (k : Word) : Word :=
  let len := bitsOf k.toNat 8 8
  BitVec.ofNat 32 (2 ^ (if len < 32 then len else 32) - 1)

/-- R316: BFX and BFI. -/
def bfxWord (a k : Word) : Word := if fieldPos k ≥ 32 then 0 else (a >>> fieldPos k) &&& fieldMask k
def bfiWord (a b k : Word) : Word :=
  if fieldPos k ≥ 32 then b
  else (b &&& ~~~(fieldMask k <<< fieldPos k)) ||| ((a &&& fieldMask k) <<< fieldPos k)

/-- R354: a byte of PRMT's result from its control byte. -/
def brevByte (b : Byte) : Byte :=
  BitVec.ofNat 8 ((List.range 8).foldl (fun n i => if b.getLsbD (7 - i) then n + 2 ^ i else n) 0)
def prmtByte (src : DWord) (c : Byte) : Byte :=
  let b := src.extractLsb' (8 * (c.extractLsb' 0 3).toNat) 8
  let r : Byte := match (c.extractLsb' 3 2).toNat with
    | 0 => b
    | 1 => 0
    | 2 => 0xFF
    | _ => if b.getLsbD 7 then 0xFF else 0
  if c.getLsbD 5 then brevByte r else r
def prmtWord (a b k : Word) : Word :=
  let by_ (i : Nat) : Byte := prmtByte (join64 a b) (k.extractLsb' (8 * i) 8)
  by_ 3 ++ by_ 2 ++ by_ 1 ++ by_ 0

/-- R346: LEA, and its forms (R45). -/
def leaWord (a b c : Word) : Word := a + (if c.toNat < 32 then b <<< c.toNat else 0)
def on32t (f : Word → Word → Word → Word) (a b c : DWord) : DWord := (f (loOf a) (loOf b) (loOf c)).setWidth 64
def leaVal (fr : Frame) (a b c : Val) : Val :=
  match a, b, c with
  | .u x, .u y, .u z => .u (on32t leaWord x y z)
  | a, b, .u z =>
    (match a.aff?, b.aff? with
     | some f, some g => .a (f.add (g.times (if z.toNat % 2 ^ 32 < 32 then (1 : DWord) <<< (z.toNat % 2 ^ 32) else 0)))
     | _, _ => lift3 fr (on32t leaWord) a b (.u z))
  | a, b, c => lift3 fr (on32t leaWord) a b c

def execPopc (w : W2) (s : State) : Out := runAlu (.popc w) (fun _ => body2 w fun fr => lift1 fr (on32u popcWord)) s
def execClz (w : W2) (s : State) : Out := runAlu (.clz w) (fun _ => body2 w fun fr => lift1 fr (on32u clzWord)) s
def execBrev (w : W2) (s : State) : Out := runAlu (.brev w) (fun _ => body2 w fun fr => lift1 fr (on32u brevWord)) s
def execBfx (w : W3) (s : State) : Out := runAlu (.bfx w) (fun _ => body3 32 w fun fr => lift2 fr (on32 bfxWord)) s
def execBfi (w : W3) (s : State) : Out := runAlu (.bfi w) (fun _ => body4 32 w fun fr => lift3 fr (on32t bfiWord)) s
def execPrmt (w : W3) (s : State) : Out := runAlu (.prmt w) (fun _ => body4 32 w fun fr => lift3 fr (on32t prmtWord)) s
def execLea (w : W3) (s : State) : Out := runAlu (.lea w) (fun _ => body4 32 w leaVal) s

/-- R360: SEL's value. -/
def selVal (fr : Frame) (p : PVal) (gn : Bool) (a b : Val) : Val :=
  match p with
  | .u c => if c != gn then a else b
  | p => .l fun l => if p.at_ fr l != gn then a.at_ fr l else b.at_ fr l
def execSel (w : W3) (s : State) : Out :=
  runAlu (.sel w) (fun _ => body3 32 w fun fr a b =>
    selVal fr (fr.pred ((w.x.map (·.gp.toNat)).getD 0)) ((w.x.map (·.gn)).getD false) a b) s

/-! Immediate words (R312). -/

/-- The operand i of an immediate word. -/
def immOf (imm : BitVec 10) (lit : Option Word) : Word := lit.getD (imm.signExtend 32)
def immVal (w : WImm) : Val := .u ((immOf w.imm w.lit).setWidth 64)

/-- An immediate word: one register, and i as a uniform second source. -/
def bodyImm (w : WImm) (f : Frame → Val → Val → Val) (fr : Frame) : Do Frame :=
  let a := fr.reg w.a.toNat
  (fr.free w.la 32 w.a.toNat).setReg w.d.toNat (f fr a (immVal w))

def execAddi (w : WImm) (s : State) : Out :=
  runAlu (.addi w) (fun _ => bodyImm w fun fr => addVal fr false (addWord .n32 false) Aff.add) s
def execMuli (w : WImm) (s : State) : Out :=
  runAlu (.muli w) (fun _ => bodyImm w fun fr => mulVal fr false (mulWord .n32 false)) s
def execAndi (w : WImm) (s : State) : Out := runAlu (.andi w) (fun _ => bodyImm w fun fr => lift2 fr (on32 (· &&& ·))) s
def execOri (w : WImm) (s : State) : Out := runAlu (.ori w) (fun _ => bodyImm w fun fr => lift2 fr (on32 (· ||| ·))) s
def execXori (w : WImm) (s : State) : Out := runAlu (.xori w) (fun _ => bodyImm w fun fr => lift2 fr (on32 (· ^^^ ·))) s
def execShli (w : WImm) (s : State) : Out := runAlu (.shli w) (fun _ => bodyImm w shlVal) s
def execShri (w : WImm) (s : State) : Out := runAlu (.shri w) (fun _ => bodyImm w fun fr => lift2 fr (on32 shrWord)) s
def execSari (w : WImm) (s : State) : Out := runAlu (.sari w) (fun _ => bodyImm w fun fr => lift2 fr (on32 sarWord)) s
def execMovi (w : WMovi) (s : State) : Out :=
  runAlu (.movi w) (fun _ fr => fr.setReg w.d.toNat (.u ((immOf w.imm w.lit).setWidth 64))) s
def execAddiG (w : WImm) (s : State) : Out :=
  runAlu (.addiG w) (fun _ fr => do
    let a ← (fr.reg w.a.toNat).uni
    (fr.free w.la 32 w.a.toNat).setReg w.d.toNat (.u (addWord .n32 false a ((immOf w.imm w.lit).setWidth 64)))) s
def execMoviG (w : WMovi) (s : State) : Out :=
  runAlu (.moviG w) (fun _ fr => fr.setReg w.d.toNat (.u ((immOf w.imm w.lit).setWidth 64))) s

end Sys2Proof.Machine
end

