-- ==== Sys2Proof/Machine/Float.lean ====
section
/-! DEFINITION. The float ALU words (R326 to R329), FCLASS and FRND (R330, R331), FCMP (R332), the function words (R333), CVT
(R321) and VDOT (R368). -/

namespace Sys2Proof.Machine

/-- A code and its flags for each lane, or one for all lanes: the value, with the flags that the active lanes raise
(R115). Under stochastic rounding each lane has its own word, the generator advances, the result is L, and a span is
dealt out (R45, R113, R125). -/
def Frame.rounded (fr : Frame) (mode : Nat) (uniform : Bool) (eval : Nat → Word → Nat × Word) : Do (Val × Frame) :=
  let lanes (r : Nat → Nat × Word) : Val × Frame :=
    (.l fun l => BitVec.ofNat 64 (r l).1, fr.raise ((lanesOf fr.active).foldl (fun fl l => fl ||| (r l).2) 0))
  if mode = 6 then
    if fr.span then .error .dealOut
    else
      let g := vget fr.gens fr.srg (Gen.mk 0 0)
      let (v, out) := lanes fun l => eval l (drawWord g l)
      .ok (v, { out with gens := vset out.gens fr.srg (g.advance 32) })
  else if uniform then
    let r := eval 0 0
    .ok (.u (BitVec.ofNat 64 r.1), fr.raise r.2)
  else if fr.span then .error .dealOut
  else .ok (lanes fun l => eval l 0)

/-- FP32 or FP64, and its width. -/
def floatEnt (f64 : Bool) : Ent := if f64 then entFp64 else entFp32
def floatWidth (f64 : Bool) : Nat := if f64 then 64 else 32

/-- An operand of a float word (R114). -/
def floatIn (fr : Frame) (f64 : Bool) (v : DWord) : Num := (floatEnt f64).operand fr.ftz v.toNat

/-- A result rounded, flushed and with IV for an invalid operation (R114, R115, R327). -/
def floatOut (fr : Frame) (f64 : Bool) (mode : Nat) (w : Word) (v : Num) (invalid : Bool) : Nat × Word :=
  let (c, fl) := (floatEnt f64).flush fr.ftz ((floatEnt f64).round mode false w v)
  (c, fl ||| flagIf invalid flagIV)

/-- R327: the exact results. -/
def faddNum (mode : Nat) (a b : Num) : Num × Bool := (a.add (mode == 4) b, a.addInvalid b)
def fsubNum (mode : Nat) (a b : Num) : Num × Bool := faddNum mode a b.negate
def fmulNum (a b : Num) : Num × Bool := (a.mul b, a.mulInvalid b)
def ffmaNum (mode : Nat) (a b c : Num) : Num × Bool :=
  ((a.mul b).add (mode == 4) c, a.mulInvalid b || (a.mul b).addInvalid c)

/-- R328: FMIN and FMAX. A NaN result is a quiet one, a signalling input raises IV. -/
def pickNum (wantMin : Bool) (a b : Num) : Num :=
  match a, b with
  | .nan _, .nan _ => .nan false
  | .nan _, b => b
  | a, .nan _ => a
  | a, b =>
    match a.cmp b with
    | .lt => if wantMin then a else b
    | .gt => if wantMin then b else a
    | .eq => if a.neg == wantMin then a else b
def fpickNum (wantMin : Bool) (a b : Num) : Num × Bool := (pickNum wantMin a b, a.isSig || b.isSig)

/-- R329: FSCL. A scale beyond ±5000 rounds as ±5000 does, since no result lies between. -/
def fsclNum (a : Num) (k : Word) : Num := a.scale (if k.toInt > 5000 then 5000 else if k.toInt < -5000 then -5000 else k.toInt)

/-- A float word of two sources. -/
def floatBody (f64 : Bool) (w : W3) (draws : Bool) (op : Nat → Num → Num → Num × Bool) (fr : Frame) : Do Frame := do
  let n := floatWidth f64
  let a := fr.src n w.a.toNat
  let b := fr.src n w.b.toNat
  let mode := if draws then fr.rounding (rndOf w.x) else 1
  let (v, out) ← fr.rounded mode (a.isU && b.isU) fun l dw =>
    let (r, bad) := op mode (floatIn fr f64 (a.at_ fr l)) (floatIn fr f64 (b.at_ fr l))
    floatOut fr f64 mode dw r bad
  ((out.free w.la n w.a.toNat).free w.lb n w.b.toNat).dst n w.d.toNat v

def execFadd (f : Bool) (w : W3) (s : State) : Out := runAlu (.fadd f w) (fun _ => floatBody f w true faddNum) s
def execFsub (f : Bool) (w : W3) (s : State) : Out := runAlu (.fsub f w) (fun _ => floatBody f w true fsubNum) s
def execFmul (f : Bool) (w : W3) (s : State) : Out := runAlu (.fmul f w) (fun _ => floatBody f w true fun _ => fmulNum) s
def execFmin (f : Bool) (w : W3) (s : State) : Out :=
  runAlu (.fmin f w) (fun _ => floatBody f w false fun _ => fpickNum true) s
def execFmax (f : Bool) (w : W3) (s : State) : Out :=
  runAlu (.fmax f w) (fun _ => floatBody f w false fun _ => fpickNum false) s

/-- R327: FFMA. -/
def ffmaBody (f64 : Bool) (w : W3) (fr : Frame) : Do Frame := do
  let n := floatWidth f64
  let a := fr.src n w.a.toNat
  let b := fr.src n w.b.toNat
  let c := fr.src n (vcOf w.x).toNat
  let mode := fr.rounding (rndOf w.x)
  let (v, out) ← fr.rounded mode (a.isU && b.isU && c.isU) fun l dw =>
    let (r, bad) := ffmaNum mode (floatIn fr f64 (a.at_ fr l)) (floatIn fr f64 (b.at_ fr l)) (floatIn fr f64 (c.at_ fr l))
    floatOut fr f64 mode dw r bad
  (((out.free w.la n w.a.toNat).free w.lb n w.b.toNat).free (lcOf w.x) n (vcOf w.x).toNat).dst n w.d.toNat v
def execFfma (f : Bool) (w : W3) (s : State) : Out := runAlu (.ffma f w) (fun _ => ffmaBody f w) s

/-- R329: FSCL; vb is one register. -/
def fsclBody (f64 : Bool) (w : W3) (fr : Frame) : Do Frame := do
  let n := floatWidth f64
  let a := fr.src n w.a.toNat
  let b := fr.reg w.b.toNat
  let mode := fr.rounding (rndOf w.x)
  let (v, out) ← fr.rounded mode (a.isU && b.isU) fun l dw =>
    floatOut fr f64 mode dw (fsclNum (floatIn fr f64 (a.at_ fr l)) (loOf (b.at_ fr l))) false
  ((out.free w.la n w.a.toNat).free w.lb 32 w.b.toNat).dst n w.d.toNat v
def execFscl (f : Bool) (w : W3) (s : State) : Out := runAlu (.fscl f w) (fun _ => fsclBody f w) s

/-- R332: a comparison of two numbers. -/
def fcmp (c : FCond) (a b : Num) : Bool :=
  let un := a.isNan || b.isNan
  let o := a.cmp b
  match c with
  | .eq => !un && o == .eq
  | .ne => un || o != .eq
  | .lt => !un && o == .lt
  | .le => !un && o != .gt
  | .gt => !un && o == .gt
  | .ge => !un && o != .lt
  | .un => un
  | .od => !un

/-- R332: FCMP. -/
def fcmpBody (f64 : Bool) (c : FCond) (w : WCmp) (fr : Frame) : Do Frame :=
  let n := floatWidth f64
  let a := fr.src n w.a.toNat
  let b := fr.src n w.b.toNat
  let x (l : Nat) : Num := floatIn fr f64 (a.at_ fr l)
  let y (l : Nat) : Num := floatIn fr f64 (b.at_ fr l)
  let iv (l : Nat) : Word := flagIf ((x l).isSig || (y l).isSig) flagIV
  let freed (fr : Frame) : Frame := (fr.free w.la n w.a.toNat).free w.lb n w.b.toNat
  if a.isU && b.isU then (freed (fr.raise (iv 0))).setPred w.p.toNat (.u (fcmp c (x 0) (y 0)))
  else
    (freed (fr.raise ((lanesOf fr.active).foldl (fun fl l => fl ||| iv l) 0))).setPred w.p.toNat
      (.l fun l => fcmp c (x l) (y l))
def execFcmp (f : Bool) (c : FCond) (w : WCmp) (s : State) : Out := runAlu (.fcmp f c w) (fun _ => fcmpBody f c w) s

/-- A word of one FP32 source. -/
def floatBody1 (w : W2) (eval : Frame → Nat → Word → DWord → Nat × Word) (fr : Frame) : Do Frame := do
  let a := fr.reg w.a.toNat
  let mode := fr.rounding (rndOf w.x)
  let (v, out) ← fr.rounded mode a.isU fun l dw => eval fr mode dw (a.at_ fr l)
  (out.free w.la 32 w.a.toNat).setReg w.d.toNat v

/-- R333: a function word. -/
def funcEval (fn : Nat) (fr : Frame) (mode : Nat) (dw : Word) (a : DWord) : Nat × Word :=
  let (v, fl) := funcOf fn (floatIn fr false (low32 a))
  let (c, fl') := entFp32.flush fr.ftz (roundFVal entFp32 mode dw v)
  (c, fl ||| fl')
def execFrcp (w : W2) (s : State) : Out := runAlu (.frcp w) (fun _ => floatBody1 w (funcEval 0)) s
def execFrsq (w : W2) (s : State) : Out := runAlu (.frsq w) (fun _ => floatBody1 w (funcEval 1)) s
def execFsqrt (w : W2) (s : State) : Out := runAlu (.fsqrt w) (fun _ => floatBody1 w (funcEval 2)) s
def execFexp2 (w : W2) (s : State) : Out := runAlu (.fexp2 w) (fun _ => floatBody1 w (funcEval 3)) s
def execFlog2 (w : W2) (s : State) : Out := runAlu (.flog2 w) (fun _ => floatBody1 w (funcEval 4)) s
def execFsin (w : W2) (s : State) : Out := runAlu (.fsin w) (fun _ => floatBody1 w (funcEval 5)) s
def execFcos (w : W2) (s : State) : Out := runAlu (.fcos w) (fun _ => floatBody1 w (funcEval 6)) s
def execFtanh (w : W2) (s : State) : Out := runAlu (.ftanh w) (fun _ => floatBody1 w (funcEval 7)) s

/-- R330: the class word of an FP32 code. -/
def fclassWord (a : Word) : Word :=
  let neg := a.getLsbD 31
  let e := bitsOf a.toNat 23 8
  let f := bitsOf a.toNat 0 23
  if e = 255 then (if f = 0 then (if neg then 0x001 else 0x080) else if bitAt f 22 then 0x200 else 0x100)
  else if e = 0 then (if f = 0 then (if neg then 0x008 else 0x010) else if neg then 0x004 else 0x020)
  else if neg then 0x002 else 0x040
def execFclass (w : W2) (s : State) : Out := runAlu (.fclass w) (fun _ => body2 w fun fr => lift1 fr (on32u fclassWord)) s

/-- R331: round to an integral value. -/
def frndNum (mode : Nat) (dw : Word) (v : Num) : Num :=
  match v with
  | .fin neg m e =>
    let (n, rem, den) := cutAt m e 0
    .fin neg (if roundUp mode neg (n % 2 == 1) rem den dw then n + 1 else n) 0
  | v => v
def frndEval (fr : Frame) (mode : Nat) (dw : Word) (a : DWord) : Nat × Word :=
  entFp32.round 1 false 0 (frndNum mode dw (floatIn fr false (low32 a)))
def execFrnd (w : W2) (s : State) : Out := runAlu (.frnd w) (fun _ => floatBody1 w frndEval) s

/-! Conversion. -/

/-- Whether an entry is FP32 or FP64, which FTZ governs (R114, R321). -/
def isFloatEnt (f : Ent) : Bool := f == entFp32 || f == entFp64

/-- A code converted from one entry into another (R110, R111, R114, R321). -/
def convertCode (ftz : Bool) (src dst : Ent) (mode : Nat) (sat : Bool) (dw : Word) (code : Nat) : Nat × Word :=
  let z := ftz && isFloatEnt dst
  let v := if isFloatEnt src then src.operand z code else src.decode code
  let r := dst.round mode sat dw v
  if isFloatEnt dst then dst.flush z r else r

/-- A code in a register: kind 2 sign-extended, others zero-extended (R321, R344). -/
def extendCode (f : Ent) (code : Nat) : Nat :=
  if f.kind = 2 && bitAt code (f.wid - 1) && decide (f.wid < 32) then code + (2 ^ 32 - 2 ^ f.wid) else code

/-- Element fn of w bits (R83). -/
def elementOf (w fn : Nat) (v : DWord) : Nat := if w = 64 then v.toNat else bitsOf v.toNat (w * fn) w

/-- A width-64 entry named through a slot that an odd register cannot hold (R321). -/
def fitsSlot (e : Ent) (r : BitVec 6) : Bool := e.wid != 64 || r.toNat % 2 == 0

/-- Traps with ILLEGAL_OP where an L-form result has no register-cache line to go to (R65), before any other cause. -/
def Frame.lineFor (fr : Frame) (n : Nat) (uniform : Bool) : Do Unit :=
  if fr.noLines && !fr.isK n && !fr.span && !(uniform && fr.whole) then illegalOp else .ok ()

/-- The storage width that a format code selects in a frame, 0 where it selects no entry. -/
def Frame.width (fr : Frame) (code : Nat) : Nat := ((entryOf fr.table fr.fmt code).map fun e => (Ent.of e).wid).getD 0

/-- R83, R92: whether CVT's element lies in its source, and its registers are aligned for the widths that codes below 48
select. -/
def cvtFits (ws wd : Nat) (fn : BitVec 3) (w : W3) : Bool :=
  (ws == 0 || (if ws = 64 then fn == 0 else decide (ws * (fn.toNat + 1) ≤ 32))) &&
  (48 ≤ w.b.toNat || ws != 64 || w.a.toNat % 2 == 0) && (48 ≤ fmtOf w.x || wd != 64 || w.d.toNat % 2 == 0)

/-- R321: CVT. -/
def cvtBody (fn : BitVec 3) (w : W3) (fr : Frame) : Do Frame := do
  let srcW := fr.width w.b.toNat
  if cvtFits srcW (fr.width (fmtOf w.x)) fn w then pure () else illegalOp
  let a := fr.src (if srcW = 64 then 64 else 32) w.a.toNat
  fr.lineFor w.d.toNat (a.isU && fr.rounding (rndOf w.x) != 6)
  let e ← fr.plainEntry w.b.toNat
  let f ← fr.plainEntry (fmtOf w.x)
  let src := Ent.of e
  let dst := Ent.of f
  if !fitsSlot src w.a || !fitsSlot dst w.d then illegalFormat
  else
    let mode := fr.rounding (rndOf w.x)
    let (v, out) ← fr.rounded mode a.isU fun l dw =>
      let (c, fl) := convertCode fr.ftz src dst mode (satOf w.x) dw (elementOf src.wid fn.toNat (a.at_ fr l))
      (extendCode dst c, fl)
    (out.free w.la (if src.wid = 64 then 64 else 32) w.a.toNat).dst (if dst.wid = 64 then 64 else 32) w.d.toNat v
def execCvt (fn : BitVec 3) (w : W3) (s : State) : Out := runAlu (.cvt fn w) (fun _ => cvtBody fn w) s

/-! Dot products (R117, R119, R368). -/

/-- The exact sum of products, with whether it forms ∞ × 0 or adds ∞ of both signs. R117 and R368 give the sign of a zero sum
of products that are all zero; a zero that products which are not zero cancel to is +0 here, in every rounding mode (R119;
the model's choice, log 25). -/
def dotNums (ps : List (Num × Num)) : Num × Bool :=
  let vs := ps.map fun (a, b) => a.mul b
  let sum := match vs with
    | [] => Num.fin false 0 0
    | v :: r => r.foldl (Num.add false) v
  (sum, ps.any (fun (a, b) => a.mulInvalid b) ||
    (vs.any (fun v => v.isInf && v.neg) && vs.any fun v => v.isInf && !v.neg))

/-- The elements of two packed words. -/
def packedPairs (f : Ent) (a b : DWord) : List (Num × Num) :=
  (List.range (32 / f.wid)).map fun i => (f.decode (bitsOf a.toNat (f.wid * i) f.wid), f.decode (bitsOf b.toNat (f.wid * i) f.wid))

/-- R368: VDOT of one lane; a sum that the addend cancels is +0 (log 25). -/
def vdotEval (fr : Frame) (f : Ent) (mode : Nat) (sat : Bool) (dw : Word) (a b c : DWord) : Nat × Word :=
  let (s, bad) := dotNums (packedPairs f a b)
  if f.kind = 1 ∨ f.kind = 4 then
    let add := entFp32.operand fr.ftz (loOf c).toNat
    let (r, fl) := entFp32.flush fr.ftz (entFp32.round mode sat dw (s.add false add))
    (r, fl ||| flagIf (bad || s.addInvalid add) flagIV)
  else
    let i32 := Ent.of 0x507C001801400000
    i32.round mode sat dw (s.add false (i32.decode (loOf c).toNat))
def vdotBody (w : W3) (fr : Frame) : Do Frame := do
  let a := fr.reg w.a.toNat
  let b := fr.reg w.b.toNat
  let c := fr.reg (vcOf w.x).toNat
  let mode := fr.rounding (rndOf w.x)
  fr.lineFor w.d.toNat (a.isU && b.isU && c.isU && mode != 6)
  let e ← fr.plainEntry (fmtOf w.x)
  let f := Ent.of e
  if f.wid ≠ 4 ∧ f.wid ≠ 8 ∧ f.wid ≠ 16 then illegalFormat
  else
    let (v, out) ← fr.rounded mode (a.isU && b.isU && c.isU) fun l dw =>
      vdotEval fr f mode (satOf w.x) dw (a.at_ fr l) (b.at_ fr l) (c.at_ fr l)
    (((out.free w.la 32 w.a.toNat).free w.lb 32 w.b.toNat).free (lcOf w.x) 32 (vcOf w.x).toNat).setReg w.d.toNat v
def execVdot (w : W3) (s : State) : Out := runAlu (.vdot w) (fun _ => vdotBody w) s

end Sys2Proof.Machine
end

