-- ==== Sys2Proof/Machine/Perform.lean ====
section
/-! DEFINITION. What a strip makes of a memory access: the words that a load writes (R343, R344), the rows of a tile as a
block of registers (R56, R107, R345), parked accesses (R264, R270), waiting ones (R232, R291, R293) and a fault in
supervisor mode (R266). -/

namespace Sys2Proof.Machine

/-- Raises a trap where a condition fails. -/
def refuseIf (bad : Bool) (p : TrapInfo) : Except TrapInfo Unit := if bad then .error p else .ok ()

/-- The answer of an instruction's own part that may end in a precise trap. -/
def Done.of (r : Except TrapInfo Done) : Done :=
  match r with
  | .ok d => d
  | .error p => .trap p

/-- A part of an instruction that may trap with one of the causes that report the active lanes. -/
def Seat.part {α : Type} (w : Seat) (r : Do α) : Except TrapInfo α :=
  match r with
  | .ok v => .ok v
  | .error (.trap c) => .error (plainTrap w.t c)
  | .error .dealOut => .error (plainTrap w.t 0x08)

/-- A precise trap that reports lanes with their addresses (R261). -/
def addrTrap (t : Strip) (cause : Nat) (bad : List (Nat × DWord)) : TrapInfo :=
  TrapInfo.mk cause (maskOf fun l => bad.any (·.1 == l)) bad [] [] t.pc

/-- A register field as RegPart numbers it. -/
def Frame.slot (fr : Frame) (n : Nat) : Nat := if fr.isK n then n + 16 else n

/-! Blocks. -/

/-- The width of a code's slot in a block (R107). -/
def slotWidth (w : Nat) : Nat := if w = 6 then 8 else if w = 12 then 16 else w

/-- K of an unscaled or block-scaled operand of storage width w (R107). -/
def depthOf (w blk : Nat) : Nat :=
  (match w with | 4 => 128 | 6 => 64 | 8 => 64 | 12 => 32 | 16 => 32 | _ => 16) / (if blk = 0 then 1 else 2)

/-- The elements of a scale block, and the entry of the scales (R99, R106). -/
def blockElems (f : Ent) : Nat := if f.blk = 1 then 32 else 16
def scaleWord (table : Vector DWord 48) (f : Ent) : DWord := if f.blk = 3 then vget table f.sidx 0 else 0x28001FC800800000
def scaleEnt (table : Vector DWord 48) (f : Ent) : Ent := Ent.of (scaleWord table f)

/-- Code number k of w bits in a row of packed bytes. -/
def packedCode (bs : List Byte) (w k : Nat) : Nat := bitsOf (ofBytes ((bs.drop (w * k / 8)).take 5)) (w * k % 8) w

/-- A block of eight registers as sixteen rows of 64 bytes: byte c of row i lies in word 16·i + c/4, and word n in lane
n mod 32 of register n / 32 (R56, R345: the placement is not architectural; the model's own, log 37). -/
def blockByte (fr : Frame) (r i c : Nat) : Byte :=
  let n := 16 * i + c / 4
  (fr.word (r + n / 32) (n % 32)).extractLsb' (8 * (c % 4)) 8
def blockRow (fr : Frame) (r i : Nat) : List Byte := (List.range 64).map (blockByte fr r i)

/-- Slot k of w bits of a block's row (R107). -/
def blockSlot (fr : Frame) (r w i k : Nat) : Nat :=
  let b := w * k
  bitsOf (ofBytes ((List.range 4).map fun j => blockByte fr r i (b / 8 + j))) (b % 8) w

/-- The bytes of a row whose slots of w bits hold the given codes. -/
def slotBytes (w : Nat) (codes : List Nat) : List Byte :=
  let total := codes.foldr (fun c n => c % 2 ^ w + 2 ^ w * n) 0
  toBytes total 64

/-- The registers of a block with the given rows, as RegPart numbers them. -/
def blockParts (dst : Nat) (rows : List (List Byte)) : List RegPart :=
  (List.range 8).map fun r =>
    RegPart.mk (dst + r) 0xFFFFFFFF
      (Vector.ofFn fun l : Fin 32 =>
        let n := 32 * r + l.val
        wordOf (((rows.getD (n / 16) []).drop (4 * (n % 16))).take 4)) false

/-- The rows of a block that LDT has read (R345): as they stand for codes whose slot is their width; each code in its slot
otherwise; with T the codes of one memory row go down a column. Scales stand from byte 32 of a row. -/
def tileRows (a : Access) (done : List (LaneReq × List Byte)) : List (List Byte) :=
  let row (i : Nat) : List Byte := ((done.find? (·.1.lane == i)).map (·.2)).getD []
  let f := Ent.of (a.entry.getD 0)
  let w := if a.entry.isNone then 8 else f.wid
  let k := depthOf w (if a.entry.isNone then 0 else f.blk)
  (List.range 16).map fun i =>
    if a.trans then slotBytes (slotWidth w) ((List.range k).map fun j => packedCode (row j) w i)
    else if a.entry.isSome && f.blk != 0 then
      (slotBytes (slotWidth w) ((List.range k).map (packedCode (row i) w))).take 32 ++
        ((row (16 + i)) ++ List.replicate 32 0).take 32
    else slotBytes (slotWidth w) ((List.range k).map (packedCode (row i) w))

/-! Results. -/

/-- The words that a performed load of one lane writes, with the flags it sets (R343, R344). -/
def Access.words (a : Access) (bs : List Byte) : List Word × Word :=
  match a.entry with
  | some e =>
    let f := Ent.of e
    let bits := ofBytes bs
    if f.kind = 2 ∨ f.kind = 3 then ([BitVec.ofNat 32 (extendCode f bits)], 0)
    else
      let (c, fl) := convertCode a.ftz f (if f.wid = 64 then entFp64 else entFp32) 1 false 0 bits
      ((if f.wid = 64 then [loOf (BitVec.ofNat 64 c), hiOf (BitVec.ofNat 64 c)] else [BitVec.ofNat 32 c]), fl)
  | none => ((List.range a.regs).map fun i => wordOf ((bs.drop (4 * i)).take 4), 0)

/-- The registers that the performed parts of an access write, and the flags they set. A U result that holds for the whole
strip, as one of an ELECT region's leader does (R46), is one of every lane (R68). -/
def Access.parts (a : Access) (done : List (LaneReq × List Byte)) : List RegPart × Word :=
  if done.isEmpty || a.regs == 0 then ([], 0)
  else if a.kind == .loadT then (blockParts a.dst (tileRows a done), 0)
  else
    let ws := done.map fun (r, bs) => (r.lane, a.words bs)
    let fl := ws.foldl (fun fl (_, _, f) => fl ||| f) 0
    let mask := if a.uniform then (if a.whole then 0xFFFFFFFF else a.active) else maskOf fun l => ws.any (·.1 == l)
    let at_ (l i : Nat) : Word :=
      (((if a.uniform then ws.head? else ws.find? (·.1 == l)).map fun (_, v, _) => v.getD i 0).getD 0)
    ((List.range a.regs).map fun i =>
      RegPart.mk (a.dst + i) mask (Vector.ofFn fun l : Fin 32 => at_ l.val i) (a.uniform && a.whole), fl)

/-- A strip that also waits for the given access, whose timer starts unless it has waited already. -/
def Strip.awaits (t : Strip) (s : State) (a : Access) (lanes : List LaneReq) : Strip :=
  if lanes.isEmpty then t
  else
    let a := { a with lanes := lanes, since := a.asked.getD s.clock }
    { t with
      wait := match t.wait with
        | .access l => .access (l ++ [a])
        | _ => .access [a] }

/-- R293: a strip waits for the requests with the given keys, which a peer has not answered. -/
def Strip.asks (t : Strip) (s : State) (keys : List Nat) : Strip := { t with asked := t.asked.still s keys }

/-- R301, R168: what a read that is not an access of the replay queue's kind does besides, once it is performed. -/
def readDone (s : State) (g : Gang) (p : Plan) : State :=
  if p.ok then
    let acct := acctOf s g.launch
    recallSegs (g.place.map (·.bench)) p.segs (chargeDram acct false p.segs (chargeFabric s acct (peerBytesOf [p])))
  else s

/-- Whether an access writes memory. -/
def Access.writes (a : Access) : Bool :=
  match a.kind with
  | .load | .loadT | .restore => false
  | _ => true

/-- The coordinates of a strip's lanes. -/
def laneCoord (s : State) (g : Gang) (t : Strip) : Nat → Nat × Nat × Nat :=
  match s.launch? g.launch with
  | some l => g.coord l.hdr t.idx
  | none => fun _ => (0, 0, 0)

/-- R267: what a replayed access reads is written at once, in L form; a result that the handler has outstanding for the same
lanes is older and does not overwrite it (R68). -/
def landReplayed (coord : Nat → Nat × Nat × Nat) (t : Strip) (parts : List RegPart) : Strip :=
  let t := { t with outstanding := parts.foldl (fun o p => dropLandings p.reg p.mask o) t.outstanding }
  (parts.map fun p => { p with uniform := false }).foldl (landPart coord) t

/-- What the performed parts of an access read goes to its registers: as an outstanding result, or at once for RQREL. -/
def Strip.takes (t : Strip) (coord : Nat → Nat × Nat × Nat) (a : Access) (done : List (LaneReq × List Byte)) : Strip :=
  let (parts, fl) := a.parts done
  let t := { t with fpstat := t.fpstat ||| fl }
  if a.replayed then landReplayed coord t parts
  else if parts.isEmpty then t
  else { t with outstanding := t.outstanding ++ [Landing.mk parts 0 0 none] }

/-- R166: the parts of a store that are still to be performed do not overwrite what higher lanes of it have written. -/
def coverLower (pos : Nat) (done : List LaneReq) (l : List Access) : List Access :=
  mapWhere (fun a => a.pos == pos && a.kind == .store) (fun a => { a with lanes := a.lanes.map (behindDone done) }) l
def Strip.covers (t : Strip) (pos : Nat) (done : List LaneReq) : Strip :=
  { t with
    replay := coverLower pos done t.replay
    wait := match t.wait with
      | .access l => .access (coverLower pos done l)
      | w => w }

/-- An access of a strip is performed as far as it goes: what it read becomes an outstanding result, what waits makes the
strip wait, and what faulted is the third result. -/
def takeAccess (s : State) (g : Gang) (t : Strip) (a : Access) : State × Strip × List LaneReq :=
  let a := { a with bench := g.place.map (·.bench) }
  let (p, s) := performAccess s g.ctx a
  let s := nfwReport s g.launch p.nonfinite
  let acct := acctOf s g.launch
  let s := chargeDram acct a.writes p.segs (chargeFabric s acct p.peerBytes)
  let t := (t.takes (laneCoord s g t) a p.done).covers a.pos (p.done.map (·.1))
  (s, Strip.awaits { t with unacked := t.unacked + p.peerWrites } s a p.waiting, p.faulted)

/-- Parts in the order of their lanes. -/
def insertLane (r : LaneReq) : List LaneReq → List LaneReq
  | [] => [r]
  | q :: rest => if r.lane < q.lane then r :: q :: rest else q :: insertLane r rest

/-- The faulted parts of an access park in the replay queue, which is in program order; an instruction has one entry (R264).
They will be translated afresh (R267). -/
def parkIn (a : Access) (faulted : List LaneReq) (q : List Access) : List Access :=
  if faulted.isEmpty then q
  else
    let rs := faulted.map fun r => { r with held := [] }
    if q.any (·.pos == a.pos) then mapWhere (·.pos == a.pos) (fun b => { b with lanes := rs.foldr insertLane b.lanes }) q
    else q.filter (fun b => decide (b.pos < a.pos)) ++ { a with lanes := rs } :: q.filter fun b => decide (a.pos < b.pos)

/-- A strip issues a memory access: fr is its frame after the instruction has read its sources. No part of it stands in the
queue yet. -/
def Seat.access (w : Seat) (fr : Frame) (a : Access) : Done :=
  let a := { a with pos := w.t.seq }
  let (s, t, faulted) := takeAccess w.s w.g { w.t.withFrame fr with seq := w.t.seq + 1, replay := [] } a
  let t := { t with replay := w.t.replay }
  if faulted.isEmpty then .next s t
  else if t.priv then
    match parkedTrap t.live t.pc [{ a with lanes := faulted }] with
    | some p => .after s t p
    | none => .next s t
  else .next s { t with replay := parkIn a faulted t.replay }

/-- An access of kind k before its parts and modifiers are known. -/
def Seat.blank (w : Seat) (k : AccKind) : Access where
  kind := k
  pc := w.t.pc
  pos := 0
  replayed := false
  bench := none
  lanes := []
  active := w.fr.active
  dst := 0
  regs := 0
  size := 0
  uniform := false
  whole := w.fr.whole
  op := 0
  entry := none
  trans := false
  scope := 0
  order := 0
  nc := false
  last := false
  flt := false
  counts := !w.g.replayMode
  priv := w.t.priv
  srcs := []
  ftz := w.fr.ftz
  since := w.s.clock

/-- Whether two parts of a store overlap. -/
def overlaps (reqs : List LaneReq) : Bool :=
  reqs.zipIdx.any fun (r, i) => reqs.zipIdx.any fun (q, j) =>
    decide (i < j) && decide (r.addr.toNat < q.addr.toNat + q.data.length) && decide (q.addr.toNat < r.addr.toNat + r.data.length)

/-- Whether a row writes as a whole the naturally aligned part of n bytes that holds an address: one of 16 bytes, or the
whole of a shorter row (R167, R366, R367). -/
def LaneReq.writesPart (r : LaneReq) (n a : Nat) : Bool :=
  let lo := a / n * n
  decide (r.addr.toNat ≤ lo) && decide (lo + n ≤ r.addr.toNat + r.data.length) && (n == 16 || r.data.length == n)

/-- The size of the part that a row writes at an address as a whole, of the given sizes, else a byte; 0 where it writes none. -/
def LaneReq.partSize (sizes : List Nat) (r : LaneReq) (a : Nat) : Nat :=
  if a < r.addr.toNat ∨ r.addr.toNat + r.data.length ≤ a then 0 else (sizes.find? fun n => r.writesPart n a).getD 1

/-- The first byte at an address, counted over all rows. -/
def firstAt : List LaneReq → Nat → Nat
  | [], _ => 0
  | r :: rest, a =>
    if r.addr.toNat ≤ a ∧ a < r.addr.toNat + r.data.length then a - r.addr.toNat else r.data.length + firstAt rest a

/-- The row whose byte an address holds in the end: the last of those that write the largest part there, or a later one of
those that write a smaller part. Which is left open, once for each part (log 6); num numbers the choices. -/
def lastRow (num : Nat → Nat → Nat) (sizes all : List Nat) (reqs : List LaneReq) (a : Nat) : Option Nat :=
  all.foldl (fun best n =>
    let rows := (reqs.zipIdx.filter fun (r, _) => r.partSize sizes a == n).map (·.2)
    match best.toList ++ rows with
    | [] => none
    | i :: rest => some (pickFrom (num n (a / n * n)) i rest)) none

/-- How many choices the rows of a store can need. -/
def choiceCount (reqs : List LaneReq) : Nat := 32 * (reqs.length + 1) * (reqs.map fun r => r.data.length + 1).sum

/-- R366, R367: where rows of a store overlap, a part that two of them write takes the value of one. The parts are those of
the given sizes, the largest first, which are written single-copy atomically, and bytes elsewhere. On a twin address every
row accumulates. -/
def chooseBytes (tick : Nat) (sizes : List Nat) (reqs : List LaneReq) : List LaneReq :=
  if !overlaps reqs then reqs
  else
    let num (n a : Nat) : Nat := tick + (reqs.length + 1) * (32 * firstAt reqs a + n)
    reqs.map fun r =>
      { r with data := r.data.zipIdx.map fun (b, j) =>
        let a := r.addr.toNat + j
        if inTwinWindow a then b
        else match (lastRow num sizes (sizes ++ [1]) reqs a).bind (reqs[·]?) with
          | some q => q.data.getD (a - q.addr.toNat) b
          | none => b }

/-! The scratchpad (R164, R165). -/

/-- The smallest power of two that is not less than n, 1 for 0. -/
def pow2From (n : Nat) : Nat := if n ≤ 1 then 1 else 2 ^ ((n - 1).log2 + 1)

/-- A byte of a gang's scratchpad of the given size; a byte not yet written is 0, or a byte value that an agent of the context
wrote before the gang started, which one left open (R165, log 7). -/
def scratchGet (g : Gang) (size a : Nat) : Byte :=
  let o := a % pow2From size
  if size ≤ o then 0
  else match g.scratch.find? (·.1 == o) with
    | some c => c.2
    | none =>
      let b := Config.scratchByte g.id o
      if g.scratchOld.getLsbD b.toNat then b else 0
def scratchRead (g : Gang) (size a n : Nat) : List Byte := (List.range n).map fun i => scratchGet g size ((a + i) % 2 ^ 32)

/-- Writes bytes; those at or above the allocation are dropped. -/
def scratchPut (size a : Nat) (g : Gang) (bs : List Byte) : Gang :=
  bs.zipIdx.foldl (fun g (b, i) =>
    let o := (a + i) % 2 ^ 32 % pow2From size
    if size ≤ o then g else { g with scratch := cellSet g.scratch o b }) g

end Sys2Proof.Machine
end

