-- ==== Sys2Proof/Machine/Sync.lean ====
section
/-! DEFINITION. Barriers (R135, R189), WAIT (R190, R372), FENCE (R187), TFENCE (R271), and the checkpoints of generators at
the recompute barrier (R236 to R238). -/

namespace Sys2Proof.Machine

/-! Barriers. Number 16 is the recompute barrier. -/

/-- Barrier n of a gang. -/
def Gang.bar (g : Gang) (n : Nat) : Bar := vget g.bars n (Bar.mk 0 [])

/-- The phase of a strip's last arrival at barrier n is still counted. -/
def pendingAt (t : Strip) (n phase : Nat) : Bool := vget t.barPhase n none == some phase

/-- The strip waits for the phase of its arrival at barrier n; its PC stays at the instruction. -/
def waitPhase (t : Strip) (n phase size : Nat) : Strip := { t with wait := .phase n phase size, withdrawn := none }

/-- The arrival of a strip at barrier n (R189). -/
def arriveAt (s : State) (g : Gang) (t : Strip) (n : Nat) : State × Strip :=
  let b := g.bar n
  (s.mapGang g.id fun g => { g with bars := vset g.bars n { b with arrived := b.arrived ++ [t.idx] } },
   { t with barPhase := vset t.barPhase n (some b.phase) })

/-- R189: BAR.SYNC. A strip whose arrival stands from before a pre-emption makes no second one. -/
def barSyncBody (n size : Nat) (q : Seat) : Done :=
  let b := q.g.bar n
  if q.t.withdrawn == some n then
    if pendingAt q.t n b.phase then .gone (q.s.setStrip q.g.id (waitPhase q.t n b.phase size))
    else .next q.s { q.t with withdrawn := none }
  else if pendingAt q.t n b.phase then .waits q.s q.t (.barrier n)
  else
    let (s, t) := arriveAt q.s q.g q.t n
    .gone (s.setStrip q.g.id (waitPhase t n b.phase size))
def execBarSync (st : Bool) (n : BitVec 4) (x : Option XWord) (s : State) : Out :=
  runStrip (.barSync st n x) (barSyncBody n.toNat (Instr.barSync st n x).size) s

/-- R189: BAR.ARRIVE waits only while its previous arrival's phase is pending. -/
def barArriveBody (n : Nat) (q : Seat) : Done :=
  if pendingAt q.t n (q.g.bar n).phase then .waits q.s q.t (.barrier n)
  else
    let (s, t) := arriveAt q.s q.g q.t n
    .next s t
def execBarArrive (st : Bool) (n : BitVec 4) (x : Option XWord) (s : State) : Out :=
  runStrip (.barArrive st n x) (barArriveBody n.toNat) s

/-- R189: BAR.WAIT. -/
def barWaitBody (n size : Nat) (q : Seat) : Done :=
  let b := q.g.bar n
  if pendingAt q.t n b.phase then .gone (q.s.setStrip q.g.id (waitPhase q.t n b.phase size))
  else .next q.s { q.t with withdrawn := none }
def execBarWait (st : Bool) (n : BitVec 4) (x : Option XWord) (s : State) : Out :=
  runStrip (.barWait st n x) (barWaitBody n.toNat (Instr.barWait st n x).size) s

/-- R135: every strip of the gang that holds a live lane is in the list. -/
def allIn (g : Gang) (l : List Nat) : Bool := g.strips.all fun t => t.retired || l.contains t.idx

/-- R189: a strip whose phase at barrier n has completed goes on after its instruction; one that waits to arrive is ready
again. -/
def wakeAt (h : Header) (g : Gang) (n : Nat) (s : State) (t : Strip) : State :=
  match t.wait with
  | .phase m _ size =>
    if m = n then
      finishIssue s g { t with wait := .none, withdrawn := none, pc := t.pc + BitVec.ofNat 64 size } h (s.cfg g.ctx).sstep true
    else s
  | .again (.barrier m) _ => if m = n then s.setStrip g.id { t with wait := .none } else s
  | _ => s

/-- R189: the phase of barrier n completes where every live strip has arrived. -/
def completePhase (s : State) (g : Gang) (l : Launch) (n : Nat) : State :=
  let b := g.bar n
  if b.arrived.isEmpty || !allIn g b.arrived then s
  else
    let s := s.mapGang g.id fun g => { g with bars := vset g.bars n (Bar.mk (b.phase + 1) []) }
    g.strips.foldl (wakeAt l.hdr g n) s

/-! WAIT. -/

/-- The condition of WAIT and EWAIT (R190, R203). -/
def waitMet (c : WaitCond) (w v : Word) : Bool :=
  match c with
  | .eq => w == v
  | .ne => w != v
  | .gen => decide (v.toNat ≤ w.toNat)
  | .ltn => decide (w.toNat < v.toNat)

/-- The reason for which a strip waits for a word: written again, or read again at intervals (R285). -/
def rereads (segs : List Seg) : Bool :=
  segs.any fun g => match g.tgt with
    | .host _ => true
    | .peer _ _ => true
    | _ => false

/-- R372: a fault of the read of WAIT or LAUNCH, taken precisely with the active lanes and, for a walk or a fault found at a
peer, k15. -/
def readTrap (t : Strip) (r : LaneReq) : TrapInfo :=
  { plainTrap t r.cause with
    addrs := (lanesOf t.active).map fun l => (l, r.at_)
    reports := if r.reports then (lanesOf t.active).map fun l => (l, r.report) else [] }

/-- R190: WAIT. A read that a peer has not answered in time traps with TIER_LINK (R293, R372). -/
def waitBody (c : WaitCond) (w : WAddr2) (q : Seat) : Done := .of do
  let a ← q.part (q.fr.pair w.a.toNat).uni
  let v ← q.part (q.fr.reg w.b.toNat).uni
  let lanes := (lanesOf q.t.active).map fun l => (l, a)
  refuseIf (a.toNat % 4 != 0) (addrTrap q.t 0x0D lanes)
  refuseIf (inTwinWindow a.toNat) (addrTrap q.t 0x13 lanes)
  let (p, s) := planReq q.s q.g.ctx .read q.t.priv false (laneReq 0 a 4 [] [])
  let p := (p.meet s q.g.ctx true false).late s q.g.ctx q.t.asked.at_
  refuseIf (p.req.cause != 0) (readTrap q.t p.req)
  let met := !p.waits && waitMet c (wordOf (p.read s q.g.ctx)) (loOf v)
  let s' := readDone s q.g p
  if met then .ok (.next s' q.t)
  else .ok (.waits s' (q.t.asks s (if p.waits then p.asks s q.g.ctx else [])) (if rereads p.segs then .reread else .cond))
def waitSpots (w : WAddr2) (q : Seat) : List (Nat × Nat) :=
  match q.fr.pair w.a.toNat with
  | .u a => [(a.toNat, 4)]
  | _ => []
def execWait (c : WaitCond) (w : WAddr2) (s : State) : Out := runMem (.wait c w) (waitSpots w) (waitBody c w) s

/-! FENCE and TFENCE. -/

/-- R187: whether a program of the strip is of an engine class that the predecessor mask names. -/
def fencesProg (w : WFence) (g : Gang) (t : Strip) (p : Prog) : Bool :=
  p.gang == g.id && p.strip == t.idx && !p.over &&
  (match p.cls with
   | .cart => w.pre.getLsbD 4 || w.pre.getLsbD 5
   | .mill => w.pre.getLsbD 6 || w.pre.getLsbD 7
   | _ => false)

/-- R187, R294: whether writes to peers of a program of the strip, of a class that the predecessor mask names, are not
acknowledged yet at a scope that reaches peers. -/
def fencesAck (w : WFence) (g : Gang) (t : Strip) (p : Prog) : Bool :=
  decide (4 ≤ w.scope.toNat) && p.gang == g.id && p.strip == t.idx && p.unacked != 0 &&
  (match p.cls with
   | .cart => w.pre.getLsbD 5
   | .mill => w.pre.getLsbD 7
   | _ => false)

/-- R187: FENCE. Accesses are performed when they issue, so it waits for engine programs and acknowledgements only. -/
def fenceBody (w : WFence) (q : Seat) : Done :=
  if q.s.progs.any fun p => fencesProg w q.g q.t p || fencesAck w q.g q.t p then .waits q.s q.t .fence else .next q.s q.t
def execFence (w : WFence) (s : State) : Out := runStrip (.fence w) (fenceBody w) s

/-- R271: TFENCE. -/
def tfenceBody (q : Seat) : Done :=
  let t := setMillFlags (fun x => x.tile.isSome) q.t
  if bitsOf t.fpstat.toNat 0 6 &&& bitsOf t.mode.toNat 4 6 ≠ 0 then .trap (plainTrap t 0x20) else .next q.s t
def execTfence (st : Bool) (s : State) : Out := runStrip (.tfence st) tfenceBody s

/-! Checkpoints. -/

/-- R237: the arrival at the recompute barrier, with the instruction's operation and address. -/
def recomputeBody (op : RecOp) (a : DWord) (size : Nat) (q : Seat) : Done :=
  let ph := q.g.recPhase
  if pendingAt q.t 16 ph then .gone (q.s.setStrip q.g.id (waitPhase q.t 16 ph size))
  else if q.t.withdrawn == some 16 then .next q.s { q.t with withdrawn := none }
  else
    let s := q.s.mapGang q.g.id fun g => { g with recompute := g.recompute ++ [RecArrival.mk q.t.idx op a] }
    .gone (s.setStrip q.g.id (waitPhase { q.t with barPhase := vset q.t.barPhase 16 (some ph) } 16 ph size))

/-- The bytes of a checkpoint slot (R236). -/
def slotSize : Nat := 64 + 96 * 32

/-- R237: the slot address of CKPT and REPLAY; a slot of which a byte lies in the twin window is one on a twin page. -/
def slotBody (op : RecOp) (w : WAddr) (size : Nat) (q : Seat) : Done := .of do
  let a ← q.part (q.fr.pair w.a.toNat).uni
  let lanes := (lanesOf q.t.active).map fun l => (l, a)
  refuseIf (a.toNat % 64 != 0) (addrTrap q.t 0x0D lanes)
  refuseIf (inTwinWindow a.toNat || inTwinWindow (a.toNat + slotSize - 1)) (addrTrap q.t 0x13 lanes)
  .ok (recomputeBody op a size q)
def slotSpots (w : WAddr) (q : Seat) : List (Nat × Nat) :=
  match q.fr.pair w.a.toNat with
  | .u a => [(a.toNat, 64), (a.toNat + 64 + 96 * q.t.idx, 96)]
  | _ => []

def execCkpt (w : WAddr) (s : State) : Out :=
  runMem (.ckpt w) (slotSpots w) (slotBody .ckpt w (Instr.ckpt w).size) s
def execReplay (w : WAddr) (s : State) : Out :=
  runMem (.replay w) (slotSpots w) (slotBody .replay w (Instr.replay w).size) s
def execReplend (st : Bool) (s : State) : Out :=
  runStrip (.replend st) (recomputeBody .replend 0 (Instr.replend st).size) s

/-- The bytes of a strip's generators (R236), and the generators in a strip's record. -/
def genBytes (t : Strip) : List Byte := t.gens.toList.flatMap imageGen
def gensOf (bs : List Byte) : Vector Gen 4 := Vector.ofFn fun i : Fin 4 => imageGenFrom ((bs.drop (24 * i.val)).take 24)

/-- An access of a strip to its slot. Part 0 is the header, part 1 the strip's record. -/
def slotAccess (k : AccKind) (s : State) (t : Strip) (lanes : List LaneReq) : Access where
  kind := k
  pc := t.pc
  pos := t.seq
  replayed := false
  bench := none
  lanes := lanes
  active := t.active
  dst := 0
  regs := 0
  size := 0
  uniform := true
  whole := true
  op := 0
  entry := none
  trans := false
  scope := 0
  order := 0
  nc := true
  last := false
  flt := false
  counts := false
  priv := t.priv
  srcs := []
  ftz := false
  since := s.clock

/-- R237: REPLAY's loads of one strip: the header, and where its bit is set the record. fuel is 2. -/
def takeRestore : (fuel : Nat) → State → Gang → Strip → Access → State × Strip × List LaneReq
  | 0, s, _, t, _ => (s, t, [])
  | fuel + 1, s, g, t, a =>
    let (p, s) := performAccess s g.ctx { a with bench := g.place.map (·.bench) }
    let acct := acctOf s g.launch
    let s := chargeDram acct false p.segs (chargeFabric s acct p.peerBytes)
    let t := t.awaits s a p.waiting
    match p.done with
    | (r, bs) :: _ =>
      if r.lane = 0 then
        if bitAt (wordOf bs).toNat t.idx then
          takeRestore fuel s g t { a with lanes := [laneReq 1 (r.addr + 64 + BitVec.ofNat 64 (96 * t.idx)) 96 [] []] }
        else (s, t, p.faulted)
      else (s, { t with gens := gensOf bs }, p.faulted)
    | [] => (s, t, p.faulted)

/-- Performs an access of a strip, whatever its kind. -/
def takeAny (s : State) (g : Gang) (t : Strip) (a : Access) : State × Strip × List LaneReq :=
  if a.kind == .restore then takeRestore 2 s g t a else takeAccess s g t a

/-- Accesses of a strip are performed in order. Those behind one that waits are not performed before it (R178, R180, R196,
R267). late are those that fault where they would wait for an OPEN block (R232). The third result holds what faulted. -/
def takeList (late : Access → Bool) (s : State) (g : Gang) (t : Strip) (l : List Access) : State × Strip × List Access :=
  l.foldl (fun (s, t, bad) a =>
    match t.wait with
    | .access q => (s, { t with wait := .access (q ++ [a]) }, bad)
    | _ =>
      let (s, t, faulted) := takeAny s g t { a with flt := a.flt || late a }
      let t := match t.wait with
        | .access q => { t with wait := .access (q.map fun b => { b with flt := a.flt }) }
        | _ => t
      (s, t, parkIn a faulted bad)) (s, t, [])

/-- What follows when accesses that a strip has outstanding have faulted in part: the parts of RQREL's park again, and so do
those of user mode; in supervisor mode the others halt the strip (R264, R266, R267). A strip that is parked at the end of a
region may have reached it. -/
def afterList (s : State) (g : Gang) (t : Strip) (h : Header) (bad : List Access) : State :=
  let own := bad.filter fun a => t.priv && !a.replayed
  let t := { t with replay := (bad.filter fun a => !t.priv || a.replayed).foldl (fun q a => parkIn a a.lanes q) t.replay }
  match parkedTrap t.live ((own.head?.map (·.pc)).getD t.pc) own with
  | some p => vectorWith s g t h p
  | none => if t.parked then regionEnd s g t h else s.setStrip g.id t

/-- An access that a strip makes outside the issue of an instruction, at the end of which the strip goes on as after a
region's last instruction. -/
def accessAndGo (s : State) (g : Gang) (t : Strip) (h : Header) (a : Access) : State :=
  let (s, t, bad) := takeList (fun _ => false) s g { t with seq := t.seq + 1 } [a]
  afterList s g { t.counted (s.cfg g.ctx).sstep with parked := true } h bad

/-- R236: the header that the lowest arriving strip writes. -/
def slotHeader (g : Gang) : List Byte :=
  let present := (g.recompute.map (·.strip)).foldl (fun n k => n ||| 2 ^ k) 0
  toBytes present 4 ++ toBytes g.tile 4 ++ List.replicate 56 0

/-- R237: the effect of the recompute barrier on one strip, which then goes on after its instruction. -/
def recomputeStrip (h : Header) (g : Gang) (op : RecOp) (a : DWord) (s : State) (t : Strip) : State :=
  match t.wait with
  | .phase 16 _ size =>
    let pc := t.pc
    let t := { t with wait := .none, withdrawn := none, pc := t.pc + BitVec.ofNat 64 size }
    let rec_ := laneReq 1 (a + 64 + BitVec.ofNat 64 (96 * t.idx)) 96 (genBytes t) []
    match op with
    | .ckpt =>
      let lowest := (g.recompute.map (·.strip)).all fun k => decide (t.idx ≤ k)
      accessAndGo s g t h { slotAccess .save s t
        ((if lowest then [laneReq 0 a 64 (slotHeader g) []] else []) ++ [rec_]) with pc := pc }
    | .replay => accessAndGo s g t h { slotAccess .restore s t [laneReq 0 a 4 [] []] with pc := pc }
    | .replend => finishIssue s g t h (s.cfg g.ctx).sstep true
  | _ => s

/-- R237: the recompute barrier completes where every live strip has arrived and waits at it. Arrivals that differ trap
in every arriving strip. -/
def completeRecompute (s : State) (g : Gang) (l : Launch) : State :=
  let waiting (t : Strip) : Bool := match t.wait with
    | .phase 16 _ _ => true
    | _ => false
  if !(g.strips.all fun t => t.retired || (waiting t && g.recompute.any (·.strip == t.idx))) then s
  else
    match g.recompute with
    | [] => s
    | r :: rest =>
      let s := s.mapGang g.id fun g => { g with recompute := [], recPhase := g.recPhase + 1 }
      if rest.any fun q => q.op != r.op || q.addr != r.addr then
        g.strips.foldl (fun s t =>
          if t.retired then s
          else
            let t := { t with wait := .none }
            stopStrip (s.setStrip g.id t) g t l.hdr (some (plainTrap t 0x0C)) t.pc) s
      else
        let mode : Gang → Gang := match r.op with
          | .ckpt => id
          | .replay => fun g => { g with replayMode := true }
          | .replend => fun g => { g with replayMode := false }
        g.strips.foldl (recomputeStrip l.hdr g r.op r.addr) (s.mapGang g.id mode)

end Sys2Proof.Machine
end

