-- ==== Sys2Proof/Machine/Queues.lean ====
section
/-! DEFINITION. Stage queues (R153 to R155), LAUNCH (R152), and the engine programs that a strip starts and awaits: FORK
(R198, R338) and RDV (R199, R355). -/

namespace Sys2Proof.Machine

/-- The sixteen words of a record's registers, which must be U. -/
def recordRegs (fr : Frame) (r : Nat) : Do (List Word) :=
  (List.range 16).mapM fun i => do
    let v ← (fr.reg (r + i)).uni
    .ok (loOf v)

/-- Writes a record into sixteen registers in U form. -/
def recordTo (fr : Frame) (r : Nat) (ws : List Word) : Do Frame :=
  (List.range 16).foldlM (fun fr i => fr.setReg (r + i) (.u ((ws.getD i 0).setWidth 64))) fr

/-- R154: QPUT. A queue that has closed takes records as an open one does; no QGET returns them (R155; that the QPUT completes
is the model's choice, log 27). -/
def qputBody (d stage : BitVec 6) (q : Seat) : Done := .of do
  refuseIf (decide (q.l.hdr.stages ≤ stage.toNat)) (plainTrap q.t 0x08)
  let ws ← q.part (recordRegs q.fr d.toNat)
  refuseIf q.t.elect.isNone (plainTrap q.t 0x0C)
  match q.l.queues[stage.toNat]? with
  | some u =>
    if u.depth ≤ u.recs.length then .ok (.waits q.s q.t .queue)
    else
      .ok (.next (q.s.mapLaunch q.l.id fun l => { l with
        queues := l.queues.set stage.toNat { u with recs := u.recs ++ [ws] } }) q.t)
  | none => .ok (.waits q.s q.t .queue)
def execQput (st : Bool) (d stage : BitVec 6) (x : Option XWord) (s : State) : Out :=
  runStrip (.qput st d stage x) (qputBody d stage) s

/-- R154, R155: QGET takes the oldest record of its own stage's queue, or, once the queue is closed, the closing record,
whatever the queue holds. -/
def qgetBody (d : BitVec 6) (q : Seat) : Done := .of do
  refuseIf q.t.elect.isNone (plainTrap q.t 0x0C)
  match q.l.queues[q.g.stage]? with
  | some u =>
    if u.closed then do
      let fr ← q.part (recordTo q.fr d.toNat [])
      .ok (.next q.s (q.t.withFrame fr))
    else
      match u.recs with
      | ws :: rest =>
        let fr ← q.part (recordTo q.fr d.toNat ws)
        let s := q.s.mapLaunch q.l.id fun l => { l with queues := l.queues.set q.g.stage { u with recs := rest } }
        .ok (.next s (q.t.withFrame fr))
      | [] => .ok (.waits q.s q.t .queue)
  | none => .ok (.waits q.s q.t .queue)
def execQget (st : Bool) (d : BitVec 6) (x : Option XWord) (s : State) : Out := runStrip (.qget st d x) (qgetBody d) s

/-- R152: LAUNCH. The command processor takes the record at once; its place in the intake is freed later. Where the successor
list gets no answer yet, the strip waits for the submission (log 17). -/
def launchBody (w : WAddr) (q : Seat) : Done := .of do
  let a ← q.part (q.fr.pair w.a.toNat).uni
  let lanes := (lanesOf q.t.active).map fun l => (l, a)
  refuseIf (a.toNat % 8 != 0) (addrTrap q.t 0x0D lanes)
  refuseIf (inTwinWindow a.toNat) (addrTrap q.t 0x13 lanes)
  if Config.intakePlaces ≤ q.x.intake then .ok (.waits q.s q.t .intake)
  else do
    let (p, s) := planReq q.s q.g.ctx .read q.t.priv false (laneReq 0 a 80 [] [])
    let p := (p.meet s q.g.ctx true false).late s q.g.ctx q.t.asked.at_
    refuseIf (p.req.cause != 0) (readTrap q.t p.req)
    if p.waits then .ok (.waits s (q.t.asks s (p.asks s q.g.ctx)) .intake)
    else
      match submitRead q.t.asked (readDone s q.g p) q.g.ctx a (p.read s q.g.ctx) (some (acctOf s q.g.launch)) with
      | .got s => .ok (.next (s.mapCtx q.g.ctx fun x => { x with intake := x.intake + 1 }) q.t)
      | r => .ok (.waits s (q.t.asks s r.keys) .intake)
def launchSpots (w : WAddr) (q : Seat) : List (Nat × Nat) :=
  match q.fr.pair w.a.toNat with
  | .u a => [(a.toNat, 80)]
  | _ => []
def execLaunch (w : WAddr) (s : State) : Out := runMem (.launch w) (launchSpots w) (launchBody w) s

/-! Engine programs. -/

/-- The engine class of a FORK code (R88). -/
def classOf (c : BitVec 5) : EngClass :=
  match c.toNat with
  | 0 => .mill | 1 => .cart | 2 => .weav | 3 => .full
  | n => .stack (n - 16)

/-- Where a gang is: its bench, and its die. -/
def Gang.bench (g : Gang) : Nat := (g.place.map (·.bench)).getD 0
def Gang.onDie (g : Gang) : Nat := dieOfBench g.bench

/-- The die and the unit on which a program of a class runs (R197); unit is the bench of a mill. -/
def homeOf (g : Gang) (c : EngClass) : Nat × Nat :=
  match c with
  | .mill => (g.onDie, g.bench)
  | .stack n => (dieOfStack n, n)
  | _ => (g.onDie, 0)

/-- R197: whether a class has room for one more program. -/
def classRoom (s : State) (g : Gang) (c : EngClass) : Bool :=
  let same := s.progs.filter fun p => p.cls == c && !p.over && !p.saved
  match c with
  | .mill => decide ((same.filter (·.unit_ == g.bench)).length < 4)
  | .cart => decide ((same.filter (·.die == g.onDie)).length < 64)
  | .weav => decide (same.length < 64)
  | .full => decide ((same.filter (·.die == g.onDie)).length < 16)
  | .stack _ => decide (same.length < 16)

/-- Whether a token's slot has been freed: its program has ended or stopped and one RDV on it has returned (R198). -/
def tokenFree (s : State) (k : Token) : Bool := k.collected && ((s.prog? k.prog).map Prog.over).getD true

/-- A free token slot of a gang. -/
def freeSlot (s : State) (g : Gang) : Option Nat :=
  (List.range 16).find? fun n => g.tokens.all fun k => k.slot != n || k.overtaken || tokenFree s k

/-- The sources of a FORK, which must be U. -/
def forkSources (w : WFork) (fr : Frame) : Do (List DWord) :=
  (forkRoles w).mapM fun r => if r.n = 2 then (fr.pair r.reg.toNat).uni else (fr.reg r.reg.toNat).uni

/-- R338: FORK. -/
def forkBody (w : WFork) (q : Seat) : Done := .of do
  let es ← q.part (forkSources w q.fr)
  let c := classOf w.cls
  match freeSlot q.s q.g, classRoom q.s q.g c with
  | some slot, true =>
    let tok := BitVec.ofNat 32 q.g.nextToken
    let fr ← q.part (q.fr.setReg w.d.toNat (.u (tok.setWidth 64)))
    let (die, unit_) := homeOf q.g c
    let p : Prog := {
      id := q.s.nextId, ctx := q.g.ctx, launch := q.g.launch, gang := q.g.id, strip := q.t.idx, die := die, cls := c
      unit_ := unit_, pc := q.t.pc + (w.off.getD 0).signExtend 64
      e := Vector.ofFn fun i : Fin 16 => es.getD i.val 0
      scope := w.scope.toNat, priv := q.t.priv, replay := q.g.replayMode, fmt := q.t.fmt
      gen := vget q.t.gens q.fr.srg (Gen.mk 0 0), status := .running, since := q.s.clock, saved := false, unacked := 0
      table := q.x.fmtTable, held := [], asked := [], added := none }
    let s := q.s.mapGang q.g.id fun g => { g with
      tokens := mapWhere (·.slot == slot) (fun k => { k with overtaken := true }) g.tokens ++
        [Token.mk tok slot q.s.nextId false false]
      nextToken := g.nextToken + 1 }
    .ok (.next { s with progs := s.progs ++ [p], nextId := s.nextId + 1 } (q.t.withFrame fr))
  | _, _ => .ok (.waits q.s q.t .fork)
def execFork (w : WFork) (s : State) : Out := runStrip (.fork w) (forkBody w) s

/-- R199: the trap of an RDV on a stopped program; every lane's SR_FADDR is the address of the stopping word. -/
def engineTrap (t : Strip) (sub : Nat) (addr word : DWord) : TrapInfo :=
  { plainTrap t 0x21 with
    addrs := (List.range 32).map fun l => (l, word)
    kset := [(0, BitVec.ofNat 32 sub), (1, loOf addr), (2, hiOf addr), (3, loOf word), (4, hiOf word)] }

/-- R199, R355: RDV. -/
def rdvBody (w : WSrc) (q : Seat) : Done := .of do
  let v ← q.part (q.fr.reg w.a.toNat).uni
  let t := q.t.withFrame (q.fr.free w.la 32 w.a.toNat)
  if loOf v = 0 then .ok (.next q.s t)
  else
    match q.g.tokens.find? fun k => k.value == loOf v with
    | none => .error (plainTrap q.t 0x08)
    | some k =>
      match q.s.prog? k.prog with
      | none => .ok (.next q.s t)
      | some p =>
        if !p.over then .ok (.waits q.s q.t .rdv)
        else
          let s := q.s.mapGang q.g.id fun g => { g with
            tokens := mapWhere (·.value == k.value) (fun k => { k with collected := true }) g.tokens }
          match p.status with
          | .stopped sub addr word =>
            if k.overtaken then .ok (.next s t) else .ok (.after s t (engineTrap t sub addr word))
          | _ => .ok (.next s t)
def execRdv (w : WSrc) (s : State) : Out := runStrip (.rdv w) (rdvBody w) s

end Sys2Proof.Machine
end

