-- ==== Sys2Proof/Machine/LoadStore.lean ====
section
/-! DEFINITION. Loads (R343, R344), stores (R364, R365), atomics and compare-and-swap (R314, R315, R320), and PREF (R353). -/

namespace Sys2Proof.Machine

/-- The number of bytes of a size code. -/
def szBytes (sz : BitVec 3) : Nat := 2 ^ sz.toNat

/-- The offset of a memory operand in bytes (R35). -/
def memOffset (w : WMem) : DWord := w.off.signExtend 64 * BitVec.ofNat 64 (szBytes w.sz)

/-- The global address of lane l, and its scratchpad offset modulo 2^32. -/
def memAddr (fr : Frame) (w : WMem) (l : Nat) : DWord := (fr.pair w.a.toNat).at_ fr l + memOffset w
def scratchAddr (fr : Frame) (w : WMem) (l : Nat) : Nat := (loOf ((fr.reg w.a.toNat).at_ fr l + memOffset w)).toNat

/-- The lanes of a global access with their addresses. -/
def memLanes (fr : Frame) (w : WMem) : List (Nat × DWord) := (lanesOf fr.active).map fun l => (l, memAddr fr w l)

/-- The ranges that a global access touches (R265). -/
def memSpots (w : WMem) (at_ : Seat) : List (Nat × Nat) :=
  (memLanes at_.fr w).map fun (_, a) => (a.toNat, szBytes w.sz)

/-- The entry of a typed load or store, or none: its width is 8·2^sz and it is not block-scaled (R344, R365). -/
def typedEntry (fr : Frame) (x : Option XWord) (sz : BitVec 3) : Do (Option DWord) :=
  if fmtOf x = 63 then .ok none
  else do
    let e ← fr.plainEntry (fmtOf x)
    if (Ent.of e).wid = 8 * szBytes sz && 8 ≤ (Ent.of e).wid then .ok (some e) else illegalFormat

/-- The lanes whose access has a byte in the twin window and is misaligned, or is misaligned (R230, R167). -/
def misalignedTwins (n : Nat) (ls : List (Nat × DWord)) : List (Nat × DWord) :=
  ls.filter fun (_, a) => touchesWindow a.toNat n && a.toNat % n != 0
def misaligned (n : Nat) (ls : List (Nat × DWord)) : List (Nat × DWord) := ls.filter fun (_, a) => a.toNat % n != 0

/-- The words of a register group of size sz in lane l as bytes, low word first. -/
def groupBytes (fr : Frame) (r sz l : Nat) : List Byte :=
  (List.range (if sz ≤ 4 then 1 else sz / 4)).flatMap (fun i => toBytes (fr.word (r + i) l).toNat 4) |>.take sz

/-- The registers that receive 2^sz bytes. -/
def szCount (sz : BitVec 3) : Nat := if sz.toNat ≤ 2 then 1 else szBytes sz / 4

/-- The fields of a memory access that its word gives. -/
def Access.ofWord (a : Access) (fr : Frame) (x : Option XWord) (d : BitVec 6) (n : Nat) : Access :=
  { a with
    dst := fr.slot d.toNat
    regs := n
    scope := scopeOf x
    order := orderOf x
    nc := ncOf x
    last := lastOf x
    flt := fltOf x
    counts := a.counts && !ncOf x }

/-- R343: LD and LD.G. -/
def loadBody (w : WMem) (g : Bool) (q : Seat) : Done := .of do
  let fr := q.fr
  q.part (fr.lineFor w.d.toNat g)
  let e ← q.part (typedEntry fr w.x w.sz)
  if g then discard (q.part (fr.pair w.a.toNat).uni)
  let ls := memLanes fr w
  refuseIf (!(misalignedTwins (szBytes w.sz) ls).isEmpty) (addrTrap q.t 0x0D (misalignedTwins (szBytes w.sz) ls))
  let one := fun (l, a) => laneReq l a (szBytes w.sz) [] []
  let acc := (q.blank .load).ofWord fr w.x w.d (szCount w.sz)
  .ok (q.access (fr.free w.la 64 w.a.toNat) { acc with
    lanes := if g then (ls.take 1).map one else ls.map one
    size := szBytes w.sz
    uniform := g
    entry := e })
def execLd (w : WMem) (s : State) : Out := runMem (.ld w) (memSpots w) (loadBody w false) s
def execLdG (w : WMem) (s : State) : Out := runMem (.ldG w) (memSpots w) (loadBody w true) s

/-- The number that a typed store reads from its source register (R365). -/
def storeNum (fr : Frame) (f : Ent) (v : DWord) : Num :=
  let z := fr.ftz && isFloatEnt f
  if f.kind = 2 then .fin ((loOf v).toInt < 0) (loOf v).toInt.natAbs 0
  else if f.kind = 3 then .fin false (loOf v).toNat 0
  else if f.wid = 64 then entFp64.operand z v.toNat
  else entFp32.operand z (loOf v).toNat

/-- The converted data of a typed store (R365): each lane's bytes, with the frame whose flags and generator it changed.
On a twin address the store's rounding and saturation are set aside (R228, log 13). -/
def storeTyped (fr : Frame) (w : WMem) (f : Ent) (twin : Nat → Bool) : Do ((Nat → List Byte) × Frame) :=
  let mode := fr.rounding (rndOf w.x)
  let v := fr.src (if f.wid = 64 then 64 else 32) w.d.toNat
  do
    let (r, out) ← fr.rounded mode false fun l dw =>
      if twin l then f.round 1 false 0 (storeNum fr f (v.at_ fr l))
      else f.round mode (satOf w.x) dw (storeNum fr f (v.at_ fr l))
    .ok (fun l => toBytes (r.at_ fr l).toNat (f.wid / 8), out)

/-- R364: ST and ST.G. A typed ST.G stores the one value that the first active lane's conversion gives: under stochastic
rounding with that lane's word, while each active lane's own draw sets its flags (R113; the model's choice, log 24). -/
def storeBody (w : WMem) (g : Bool) (q : Seat) : Done := .of do
  let fr := q.fr
  let e ← q.part (typedEntry fr w.x w.sz)
  if g then
    discard (q.part (fr.pair w.a.toNat).uni)
    discard (q.part (if w.sz.toNat ≤ 2 then (fr.reg w.d.toNat).uni else (fr.pair w.d.toNat).uni))
    if w.sz = 4 then discard (q.part (fr.pair (w.d.toNat + 2)).uni)
  let ls := memLanes fr w
  let n := szBytes w.sz
  refuseIf (!(misalignedTwins n ls).isEmpty) (addrTrap q.t 0x0D (misalignedTwins n ls))
  let twins := ls.filter fun (_, a) => inTwinWindow a.toNat
  refuseIf (!twins.isEmpty && (q.g.replayMode || w.sz == 0)) (addrTrap q.t 0x13 twins)
  let raw := fun l => groupBytes fr w.d.toNat n l
  let (data, out) ← match e with
    | none => .ok (raw, fr)
    | some e => q.part (storeTyped fr w (Ent.of e) fun l => inTwinWindow (memAddr fr w l).toNat)
  let one := fun (l, a) => laneReq l a n (data l) []
  let acc := (q.blank .store).ofWord fr w.x w.d 0
  .ok (q.access (out.free w.la 64 w.a.toNat) { acc with
    dst := 0
    lanes := if g then (ls.take 1).map one else ls.map one
    size := n
    uniform := g
    entry := e })
def execSt (w : WMem) (s : State) : Out := runMem (.st w) (memSpots w) (storeBody w false) s
def execStG (w : WMem) (s : State) : Out := runMem (.stG w) (memSpots w) (storeBody w true) s

/-- R314: the lanes of an atomic, which must be aligned and must not name a twin. -/
def atomicLanesOk (w : WMem) (q : Seat) : Except TrapInfo (List (Nat × DWord)) := do
  let ls := memLanes q.fr w
  refuseIf (!(misaligned (szBytes w.sz) ls).isEmpty) (addrTrap q.t 0x0D (misaligned (szBytes w.sz) ls))
  let twins := ls.filter fun (_, a) => inTwinWindow a.toNat
  refuseIf (!twins.isEmpty) (addrTrap q.t 0x13 twins)
  .ok ls

/-- The frame after an atomic has read its address and data, with their last-reads. -/
def atomicFreed (w : WMem) (an : Nat) (fr : Frame) : Frame :=
  let fr := fr.free w.la (32 * an) w.a.toNat
  if w.sz = 4 then (fr.free (lcOf w.x) 64 (vcOf w.x).toNat).free (lcOf w.x) 64 ((vcOf w.x).toNat + 2)
  else fr.free (lcOf w.x) (8 * szBytes w.sz) (vcOf w.x).toNat

/-- R314: ATOM. -/
def atomBody (w : WMem) (q : Seat) : Done := .of do
  q.part (q.fr.lineFor w.d.toNat false)
  let ls ← atomicLanesOk w q
  let acc := (q.blank .atomic).ofWord q.fr w.x w.d (szCount w.sz)
  .ok (q.access (atomicFreed w 2 q.fr) { acc with
    lanes := ls.map fun (l, a) => laneReq l a (szBytes w.sz) (groupBytes q.fr (vcOf w.x).toNat (szBytes w.sz) l) []
    size := szBytes w.sz
    op := rndOf w.x })
def execAtom (w : WMem) (s : State) : Out := runMem (.atom w) (memSpots w) (atomBody w) s

/-- R320: CAS; the comparand is vd as it stands at issue. -/
def casBody (w : WMem) (q : Seat) : Done := .of do
  q.part (q.fr.lineFor w.d.toNat false)
  let ls ← atomicLanesOk w q
  let n := szBytes w.sz
  let acc := (q.blank .cas).ofWord q.fr w.x w.d (szCount w.sz)
  .ok (q.access (atomicFreed w 2 q.fr) { acc with
    lanes := ls.map fun (l, a) =>
      laneReq l a n (groupBytes q.fr (vcOf w.x).toNat n l) (groupBytes q.fr w.d.toNat n l)
    size := n })
def execCas (w : WMem) (s : State) : Out := runMem (.cas w) (memSpots w) (casBody w) s

/-! The scratchpad. -/

/-- A result of the scratchpad: an outstanding one, like that of a global load. -/
def Seat.scratchDone (q : Seat) (s : State) (fr : Frame) (a : Access) (done : List (LaneReq × List Byte)) : Done :=
  .next s ((q.t.withFrame fr).takes q.coord a done)

/-- R343: LDS. -/
def ldsBody (w : WMem) (q : Seat) : Done := .of do
  let fr := q.fr
  q.part (fr.lineFor w.d.toNat false)
  let e ← q.part (typedEntry fr w.x w.sz)
  let n := szBytes w.sz
  let acc := { (q.blank .load).ofWord fr w.x w.d (szCount w.sz) with entry := e }
  .ok (q.scratchDone q.s (fr.free w.la 32 w.a.toNat) acc ((lanesOf fr.active).map fun l =>
    (laneReq l 0 n [] [], scratchRead q.g q.l.hdr.scratch (scratchAddr fr w l) n)))
def execLds (w : WMem) (s : State) : Out := runStrip (.lds w) (ldsBody w) s

/-- R364: STS. -/
def stsBody (w : WMem) (q : Seat) : Done := .of do
  let fr := q.fr
  let e ← q.part (typedEntry fr w.x w.sz)
  let n := szBytes w.sz
  let (data, out) ← match e with
    | none => .ok ((fun l => groupBytes fr w.d.toNat n l), fr)
    | some e => q.part (storeTyped fr w (Ent.of e) fun _ => false)
  let s := q.s.mapGang q.g.id fun g =>
    (lanesOf fr.active).foldl (fun g l => scratchPut q.l.hdr.scratch (scratchAddr fr w l) g (data l)) g
  let s := noteWrote q.g.ctx ((lanesOf fr.active).flatMap data) s
  .ok (.next s (q.t.withFrame (out.free w.la 32 w.a.toNat)))
def execSts (w : WMem) (s : State) : Out := runStrip (.sts w) (stsBody w) s

/-- One lane after another of ATOMS: their old bytes, the gang whose scratchpad they changed, and the bytes they wrote. -/
def atomsGo (w : WMem) (fr : Frame) (size : Nat) : List Nat → Gang → List (LaneReq × List Byte) × Gang × List Byte
  | [], g => ([], g, [])
  | l :: r, g =>
    let n := szBytes w.sz
    let a := scratchAddr fr w l
    let old := scratchRead g size a n
    let new := atomicOp (rndOf w.x) n (ofBytes old) (ofBytes (groupBytes fr (vcOf w.x).toNat n l))
    let (rest, g, wrote) := atomsGo w fr size r (scratchPut size a g (toBytes new n))
    ((laneReq l 0 n [] [], old) :: rest, g, toBytes new n ++ wrote)

/-- R315: ATOMS. -/
def atomsBody (w : WMem) (q : Seat) : Done := .of do
  let fr := q.fr
  q.part (fr.lineFor w.d.toNat false)
  let n := szBytes w.sz
  let bad := ((lanesOf fr.active).map fun l => (l, BitVec.ofNat 64 (scratchAddr fr w l))).filter fun (_, a) => a.toNat % n != 0
  refuseIf (!bad.isEmpty) (addrTrap q.t 0x0D bad)
  let (done, g, wrote) := atomsGo w fr q.l.hdr.scratch (lanesOf fr.active) q.g
  let acc := (q.blank .atomic).ofWord fr w.x w.d (szCount w.sz)
  .ok (q.scratchDone (noteWrote q.g.ctx wrote (q.s.mapGang q.g.id fun _ => g)) (atomicFreed w 1 fr) acc done)
def execAtoms (w : WMem) (s : State) : Out := runStrip (.atoms w) (atomsBody w) s

/-- R353: PREF changes no value; its last-read frees its address. -/
def execPref (w : WPref) (s : State) : Out :=
  runStrip (.pref w) (fun q => .next q.s (q.t.withFrame (q.fr.free w.la 64 w.a.toNat))) s

end Sys2Proof.Machine
end

