-- ==== Sys2Proof/Machine/Tiles.lean ====
section
/-! DEFINITION. Tile memory words (R345, R366, R367), the mill (R107, R117, R118, R348, R363) and the accumulator tiles
(R116, R308, R309). -/

namespace Sys2Proof.Machine

/-- R84: a strip-collective word acts in every live lane or traps. -/
def Seat.collective (q : Seat) : Except TrapInfo Unit := refuseIf (q.fr.active != q.t.live) (plainTrap q.t 0x0C)

/-- The trap of a tile word that reports every live lane with one address (R230, R270). -/
def tileTrap (t : Strip) (cause : Nat) (a : DWord) : TrapInfo :=
  TrapInfo.mk cause t.live ((lanesOf t.live).map fun l => (l, a)) [] [] t.pc

/-- R230, R345, R366, R367: the rows of codes with a byte in the twin window start at multiples of 32 bytes, runs of scales at
multiples of their length, and no twin is written in replay mode (R238). -/
def tileTwins (q : Seat) (writes : Bool) (rows : List LaneReq) (scales : LaneReq → Bool) : Except TrapInfo Unit := do
  let twins := rows.filter fun r => touchesWindow r.addr.toNat r.len
  match twins.find? fun r => r.addr.toNat % (if scales r then r.len else 32) != 0 with
  | some r => .error (tileTrap q.t 0x0D r.addr)
  | none => .ok ()
  match twins with
  | r :: _ => refuseIf (writes && q.g.replayMode) (tileTrap q.t 0x13 r.addr)
  | [] => .ok ()

/-- Row number i at base + i·stride. -/
def rowAt (base stride : DWord) (i : Nat) : DWord := base + BitVec.ofNat 64 i * stride

/-- The stride that a tile word reads as a signed 32-bit number. -/
def rowStride (v : DWord) : DWord := (loOf v).signExtend 64

/-- R345: the rows of memory that LDT reads, given its entry. -/
def ldtRows (table : Vector DWord 48) (t : Bool) (f : Option Ent) (base s : DWord) : List LaneReq :=
  let w := (f.map (·.wid)).getD 8
  let blk := (f.map (·.blk)).getD 0
  let k := depthOf w blk
  if t then (List.range k).map fun j => laneReq j (rowAt base s j) (2 * w) [] []
  else
    let rows := (List.range 16).map fun i => laneReq i (rowAt base s i) (k * w / 8) [] []
    match f with
    | some e =>
      if blk = 0 then rows
      else
        let n := k / blockElems e * (scaleEnt table e).wid / 8
        rows ++ (List.range 16).map fun i => laneReq (16 + i) (rowAt base s 16 + BitVec.ofNat 64 (n * i)) n [] []
    | none => rows

/-- The entry of LDT: none for raw codes without T. -/
def ldtEntry (fr : Frame) (w : WTile) : Do (Option DWord) :=
  if fmtOf w.x = 63 && !w.t then .ok none
  else do
    let e ← fr.entry (fmtOf w.x)
    if (Ent.of e).wid = 64 || (Ent.of e).wid = 0 || (w.t && (Ent.of e).blk != 0) then illegalFormat else .ok (some e)

/-- The ranges that LDT touches. -/
def ldtSpots (w : WTile) (q : Seat) : List (Nat × Nat) :=
  match ldtEntry q.fr w, (q.fr.pair w.a.toNat), (q.fr.reg w.b.toNat) with
  | .ok e, .u base, .u s => (ldtRows q.fr.table w.t (e.map Ent.of) base (rowStride s)).map fun r => (r.addr.toNat, r.len)
  | _, _, _ => []

/-- R345: LDT. -/
def ldtBody (w : WTile) (q : Seat) : Done := .of do
  q.part (q.fr.lineFor w.d.toNat false)
  let e ← q.part (ldtEntry q.fr w)
  let base ← q.part (q.fr.pair w.a.toNat).uni
  let s ← q.part (q.fr.reg w.b.toNat).uni
  q.collective
  let rows := ldtRows q.fr.table w.t (e.map Ent.of) base (rowStride s)
  tileTwins q false rows fun r => !w.t && decide (16 ≤ r.lane)
  let acc := { q.blank .loadT with
    lanes := rows, dst := q.fr.slot w.d.toNat, regs := 8, entry := e, trans := w.t, scope := scopeOf w.x
    order := orderOf w.x, nc := ncOf w.x, last := lastOf w.x, flt := fltOf w.x }
  .ok (q.access q.fr { acc with counts := acc.counts && !ncOf w.x })
def execLdt (w : WTile) (s : State) : Out := runMem (.ldt w) (ldtSpots w) (ldtBody w) s

/-- The rows that STT and STASH write. -/
def sttRows (w : WTile) (fr : Frame) (base s : DWord) : List LaneReq :=
  (List.range 16).map fun i => laneReq i (rowAt base s i) 64 (blockRow fr w.d.toNat i) []
def sttSpots (w : WTile) (q : Seat) : List (Nat × Nat) :=
  match (q.fr.pair w.a.toNat), (q.fr.reg w.b.toNat) with
  | .u base, .u s => (List.range 16).map fun i => ((rowAt base (rowStride s) i).toNat, 64)
  | _, _ => []

/-- An access that stores rows of the block r. -/
def Seat.storeRows (q : Seat) (k : AccKind) (r : BitVec 6) (x : Option XWord) (e : Option DWord) (rows : List LaneReq) : Done :=
  let acc := { q.blank k with
    lanes := chooseBytes q.s.tick [16, 8] rows, scope := scopeOf x, order := orderOf x, entry := e
    srcs := (List.range 8).map (q.fr.slot r.toNat + ·) }
  { q with s := q.s.bump (choiceCount rows) }.access q.fr acc

/-- R367: STT. -/
def sttBody (w : WTile) (q : Seat) : Done := .of do
  let base ← q.part (q.fr.pair w.a.toNat).uni
  let s ← q.part (q.fr.reg w.b.toNat).uni
  q.collective
  let rows := sttRows w q.fr base (rowStride s)
  tileTwins q true rows fun _ => false
  .ok (q.storeRows .storeT w.d w.x none rows)
def execStt (w : WTile) (s : State) : Out := runMem (.stt w) (sttSpots w) (sttBody w) s

/-- The entry of STASH, of width 4, 8 or 16 and not block-scaled. -/
def stashEntry (fr : Frame) (w : WTile) : Do DWord := do
  let e ← fr.plainEntry (fmtOf w.x)
  let n := (Ent.of e).wid
  if n = 4 || n = 8 || n = 16 then .ok e else illegalFormat

/-- R366: the rows of both copies: the tile's rows at va with stride Sp, its columns at vb with stride St. -/
def stashRows (fr : Frame) (r n : Nat) (va vb : DWord) (strides : Word) : List LaneReq :=
  let sp := BitVec.ofNat 64 (bitsOf strides.toNat 0 16)
  let st := BitVec.ofNat 64 (bitsOf strides.toNat 16 16)
  ((List.range 16).map fun i => laneReq i (rowAt va sp i) 64 (blockRow fr r i) []) ++
  ((List.range (depthOf n 0)).map fun k =>
    laneReq (16 + k) (rowAt vb st k) (2 * n) ((slotBytes n ((List.range 16).map fun i => blockSlot fr r n i k)).take (2 * n)) [])

def stashSpots (w : WTile) (q : Seat) : List (Nat × Nat) :=
  match stashEntry q.fr w, q.fr.pair w.a.toNat, q.fr.pair w.b.toNat, q.fr.reg (vcOf w.x).toNat with
  | .ok e, .u a, .u b, .u c => (stashRows q.fr w.d.toNat (Ent.of e).wid a b (loOf c)).map fun r => (r.addr.toNat, r.len)
  | _, _, _, _ => []

/-- R366: STASH. -/
def stashBody (w : WTile) (q : Seat) : Done := .of do
  let e ← q.part (stashEntry q.fr w)
  let a ← q.part (q.fr.pair w.a.toNat).uni
  let b ← q.part (q.fr.pair w.b.toNat).uni
  let c ← q.part (q.fr.reg (vcOf w.x).toNat).uni
  q.collective
  let rows := stashRows q.fr w.d.toNat (Ent.of e).wid a b (loOf c)
  tileTwins q true rows fun _ => false
  .ok (q.storeRows .stash w.d w.x (some e) rows)
def execStash (w : WTile) (s : State) : Out := runMem (.stash w) (stashSpots w) (stashBody w) s

/-! The mill. -/

/-- R107: whether the mill takes operands of these entries. -/
def millAccepts (a b : Ent) : Bool :=
  a.wid != 64 && b.wid != 64 && a.wid != 0 && slotWidth a.wid == slotWidth b.wid && (a.blk == 0) == (b.blk == 0)

/-- An operand element: its code in row i at place k, with its block scale (R106). -/
def operandNum (table : Vector DWord 48) (f : Ent) (codeAt scaleAt : Nat → Nat → Nat) (i k : Nat) : Num :=
  let v := f.decode (codeAt i k)
  if f.blk = 0 then v else scaled v ((scaleEnt table f).decode (scaleAt i (k / blockElems f)))

/-- Whether an operand element reads a signalling NaN. -/
def pairSig (p : Num × Num) : Bool := p.1.isSig || p.2.isSig

/-- R117: one chunk added to an accumulator element, with the flags. -/
def millChunk (acc : Nat) (ps : List (Num × Num)) : Nat × Word :=
  let (s, bad) := dotNums ps
  let (c, f1) := Ent.acc.round 1 false 0 s
  let x := Ent.acc.decode acc
  let y := Ent.acc.decode c
  let (r, f2) := Ent.acc.round 1 false 0 (x.add false y)
  (r, f1 ||| f2 ||| flagIf (bad || x.addInvalid y || ps.any pairSig) flagIV)

/-- R117: the chunks of one element. -/
def millGo (pair : Nat → Num × Num) (ch : Nat) : (chunks c : Nat) → Nat → Word → Nat × Word
  | 0, _, acc, fl => (acc, fl)
  | n + 1, c, acc, fl =>
    let (r, f) := millChunk acc ((List.range ch).map fun k => pair (c * ch + k))
    millGo pair ch n (c + 1) r (fl ||| f)

/-- R117: an element of a tile after K products have been added, from the element's old code. -/
def millElement (k old : Nat) (pair : Nat → Num × Num) : Nat × Word :=
  let ch := if k < 32 then k else 32
  millGo pair ch (k / ch) 0 old 0

/-- All 256 elements of a tile, with the flags. -/
def millTile (k : Nat) (old : Nat → Nat) (a b : Nat → Nat → Num) : Tile × Word :=
  let rs := Vector.ofFn fun n : Fin 256 => millElement k (old n.val) fun j => (a (n.val / 16) j, b (n.val % 16) j)
  (rs.map fun r => BitVec.ofNat 48 r.1, rs.toList.foldl (fun f r => f ||| r.2) 0)

/-- Tile number n of a gang. -/
def Gang.tileAt (g : Gang) (n : Nat) : Tile := g.tiles.getD n (Vector.replicate 256 0)

/-- The registers of a block as lock bits, numbered as in RegPart (R66). -/
def blockLocks (fr : Frame) (r n : Nat) : BitVec 80 := BitVec.ofNat 80 ((2 ^ n - 1) * 2 ^ fr.slot r)

/-- An operand of the mill in a block of registers: scales stand from byte 32 of a row. -/
def blockNum (fr : Frame) (f : Ent) (r i k : Nat) : Num :=
  operandNum fr.table f (fun i k => bitsOf (blockSlot fr r (slotWidth f.wid) i k) 0 f.wid)
    (fun i j =>
      let n := (scaleEnt fr.table f).wid / 8
      ofBytes ((List.range n).map fun b => blockByte fr r i (32 + n * j + b))) i k

/-- R210: the bitmap bit of element number b. -/
def bitmapBit (fr : Frame) (r b : Nat) : Bool := (fr.word (r + b / 1024) (b / 32 % 32)).getLsbD (b % 32)

/-- R348, R363: MMA and SMMA. The tile changes at once; the locks clear and the flags are set when the mill is done. One that
adds to the tile reads it, before which the flags of earlier ones on the tile are set (R115). -/
def mmaBody (w : WMma) (sparse : Bool) (q : Seat) : Done := .of do
  let fr := q.fr
  let fa := Ent.of (← q.part (fr.entry 48))
  let fb := Ent.of (← q.part (fr.entry 49))
  q.part (if millAccepts fa fb then .ok () else illegalFormat)
  q.collective
  let k := depthOf fa.wid fa.blk
  let keep (b : Nat) (v : Num) : Num := if !sparse || bitmapBit fr (vcOf w.x).toNat b then v else .fin false 0 0
  let a := fun i k' => keep (k * i + k') (blockNum fr fa w.a.toNat i k')
  let b := fun j k' => keep (16 * k + k * j + k') (blockNum fr fb w.b.toNat j k')
  let old := q.g.tileAt w.acc.toNat
  let (tile, fl) := millTile k (fun n => if w.ovw then 0 else (vget old n 0).toNat) a b
  let s := q.s.mapGang q.g.id fun g => { g with tiles := g.tiles.set w.acc.toNat tile }
  let s := charge s (acctOf s q.g.launch) fun x => { x with macs := x.macs + BitVec.ofNat 64 (256 * k) }
  let locks := blockLocks fr w.a.toNat 8 ||| blockLocks fr w.b.toNat 8 |||
    (if sparse then blockLocks fr (vcOf w.x).toNat 4 else 0)
  let t := q.t.withFrame fr
  let t := if w.ovw then t else setMillFlags (fun x => x.tile == some w.acc.toNat) t
  .ok (.next s { t with
    locks := t.locks ||| locks
    outstanding := t.outstanding ++ [Landing.mk [] locks fl (some w.acc.toNat)] })
def execMma (w : WMma) (s : State) : Out := runStrip (.mma w) (mmaBody w false) s
def execSmma (w : WMma) (s : State) : Out := runStrip (.smma w) (mmaBody w true) s

/-! Accumulator tiles. -/

/-- The entry of ACCRD and ACCWR: the X word's, or FMT slot s2. -/
def accEntry (fr : Frame) (x : Option XWord) : Do Ent := do
  let e ← fr.plainEntry (if x.isNone then 50 else fmtOf x)
  if (Ent.of e).wid = 64 || (Ent.of e).wid = 0 then illegalFormat else .ok (Ent.of e)

/-- The 256 draws of a tile operation under SR, and the frame whose generator has advanced by 64 (R113). -/
def tileDraws (fr : Frame) (mode : Nat) : (Nat → Word) × Frame :=
  if mode = 6 then
    let g := vget fr.gens fr.srg (Gen.mk 0 0)
    (drawWord g, { fr with gens := vset fr.gens fr.srg (g.advance 256) })
  else (fun _ => 0, fr)

/-- R308: ACCRD. -/
def accrdBody (w : WAcc) (zero : Bool) (q : Seat) : Done := .of do
  let fr := q.fr
  q.part (fr.lineFor w.r.toNat false)
  let f ← q.part (accEntry fr w.x)
  q.collective
  let mode := fr.rounding (rndOf w.x)
  let (draw, fr') := tileDraws fr mode
  let tile := q.g.tileAt w.acc.toNat
  let rs := (List.range 256).map fun n => f.round mode (satOf w.x) (draw n) (Ent.acc.decode (vget tile n 0).toNat)
  let rows := (List.range 16).map fun i => slotBytes (slotWidth f.wid) (((rs.drop (16 * i)).take 16).map (·.1))
  let fl := rs.foldl (fun x r => x ||| r.2) 0
  let s := if zero then q.s.mapGang q.g.id fun g => { g with tiles := g.tiles.set w.acc.toNat (Vector.replicate 256 0) } else q.s
  let t := setMillFlags (fun x => x.tile == some w.acc.toNat) (q.t.withFrame fr')
  .ok (.next s { t with
    outstanding := t.outstanding ++ [Landing.mk (blockParts (fr.slot w.r.toNat) rows) 0 fl (some w.acc.toNat)] })
def execAccrd (w : WAcc) (s : State) : Out := runStrip (.accrd w) (accrdBody w false) s
def execAccrdZero (w : WAcc) (s : State) : Out := runStrip (.accrdZero w) (accrdBody w true) s

/-- R309: ACCWR; the block is read at issue. -/
def accwrBody (w : WAcc) (q : Seat) : Done := .of do
  let fr := q.fr
  let f ← q.part (accEntry fr w.x)
  q.collective
  let mode := fr.rounding (rndOf w.x)
  let (draw, fr') := tileDraws fr mode
  let rs := Vector.ofFn fun n : Fin 256 =>
    Ent.acc.round mode (satOf w.x) (draw n.val)
      (f.decode (bitsOf (blockSlot fr w.r.toNat (slotWidth f.wid) (n.val / 16) (n.val % 16)) 0 f.wid))
  let fl := rs.toList.foldl (fun x r => x ||| r.2) 0
  let s := q.s.mapGang q.g.id fun g => { g with tiles := g.tiles.set w.acc.toNat (rs.map fun r => BitVec.ofNat 48 r.1) }
  let t := q.t.withFrame fr'
  .ok (.next s { t with outstanding := t.outstanding ++ [Landing.mk [] 0 fl (some w.acc.toNat)] })
def execAccwr (w : WAcc) (s : State) : Out := runStrip (.accwr w) (accwrBody w) s

/-- R309: ACCWR.ZERO. -/
def accwrZeroBody (acc : Nat) (q : Seat) : Done := .of do
  q.collective
  .ok (.next (q.s.mapGang q.g.id fun g => { g with tiles := g.tiles.set acc (Vector.replicate 256 0) }) (q.t.withFrame q.fr))
def execAccwrZero (st : Bool) (acc : BitVec 4) (x : Option XWord) (s : State) : Out :=
  runStrip (.accwrZero st acc x) (accwrZeroBody acc.toNat) s

end Sys2Proof.Machine
end

