-- ==== Sys2Proof/Machine/Engines.lean ====
section
/-! DEFINITION. Engine programs: how a command is checked and performed (R91, R200, R201, R370), its accesses to memory and
to the twin (R225 to R232), and the words EWAIT, ELOOP, EEND and ESIG (R203). -/

namespace Sys2Proof.Machine

/-- Why a command does not complete: the program stops, in the given state, with a sub-cause and an address; or it waits
and has done nothing, on the OPEN twin blocks given by the address that reads them and their first byte, or on no answer of
a port or peer, given by an address behind it (R232, R291, R293). held are the parts of its reads that keep where they lead
(R254). -/
inductive Halt where
  | stop (s : State) (sub : Nat) (addr : DWord)
  | wait (blocks : List (DWord × Nat)) (links : List (DWord × Target)) (held : List Seg)

/-- The result of a part of a command. -/
abbrev Cmd (α : Type) := Except Halt α

/-- R370: of what two parts of a command's accesses stop with, the lowest sub-cause, at its lowest address. A stop comes before a
wait, and waits add up. -/
def Halt.lower : Halt → Option Halt → Halt
  | .stop s a x, some (.stop t b y) => if b < a ∨ (b = a ∧ y.toNat < x.toNat) then .stop t b y else .stop s a x
  | .wait _ _ _, some (.stop t b y) => .stop t b y
  | .wait bs ls hs, some (.wait bs' ls' hs') => .wait (bs ++ bs') (ls ++ ls') (hs ++ hs')
  | h, _ => h

/-- What a part of a command stops with or waits for, and a part that other accesses of the command's stage 4 stand beside. -/
def haltOf {α : Type} : Cmd α → Option Halt
  | .error h => some h
  | .ok _ => none
def besides {α : Type} (c : Cmd α) (other : Option Halt) : Cmd α := c.mapError (·.lower other)

/-- Bits [56:0] of an address. -/
def low57 (a : DWord) : DWord := a &&& 0x01FFFFFFFFFFFFFF

/-- Engine register r (R58). -/
def Prog.ereg (p : Prog) (r : BitVec 4) : DWord := vget p.e r.toNat 0

/-- Sets an engine register, and goes on behind the current word. -/
def Prog.put (p : Prog) (r : BitVec 4) (v : DWord) : Prog := { p with e := vset p.e r.toNat v }
def Prog.onward (p : Prog) : Prog := { p with pc := p.pc + 4, status := .running }

/-- Stops where a condition holds. -/
def stopIf (s : State) (bad : Bool) (sub : Nat) (addr : DWord) : Cmd Unit :=
  if bad then .error (.stop s sub addr) else .ok ()

/-- The checks of R370: an address with a bit of [63:57] set gives 0x10, the lowest such address reported (R203); any other
failed check gives 0x22. -/
def checkAll (s : State) (addrs : List DWord) (ok : Bool) : Cmd Unit :=
  match (addrs.filter fun a => decide (2 ^ 57 ≤ a.toNat)).map low57 with
  | a :: r => .error (.stop s 0x10 (r.foldl (fun m b => if b.toNat < m.toNat then b else m) a))
  | [] => stopIf s (!ok) 0x22 0

/-- The format table of a context. -/
def tableOf (s : State) (c : Nat) : Vector DWord 48 := ((s.ctx? c).map (·.fmtTable)).getD (Vector.replicate 48 0)

/-- R200, R274, R276: at a command boundary a program whose gang has been pre-empted is saved, and one whose gang has resumed
elsewhere goes on at its new home. -/
def Prog.rests (s : State) (p : Prog) : Prog :=
  match s.gang? p.gang with
  | some g =>
    if p.status != .running then p
    else if g.saved then { p with saved := true }
    else if g.place.isSome then { p with die := (homeOf g p.cls).1, unit_ := (homeOf g p.cls).2 }
    else p
  | none => p

/-- R293: a program waits for requests that peers have not answered, of those given by an address and where it leads. -/
def Prog.asks (p : Prog) (s : State) (links : List (DWord × Target)) : Prog :=
  { p with asked := p.asked.still s ((links.filter (·.2.isPeer)).map (·.1.toNat)) }

/-- A word of an engine program: R91's check of the class and the fields, then the command, which takes the format table as
it stands when it starts (R109). A command that waits keeps that table and the clock at which it, or a read of it at the home of
an OPEN block, began to wait (R232). -/
def runCommand (i : Instr) (cls : EngClass → Bool) (fields : Bool) (body : State → Prog → Cmd (State × (Prog → Prog)))
    (s : State) : Out :=
  runEngine i (fun s p =>
    if !(cls p.cls && fields) then stopProg s p.id 0x21 0
    else
      let first := p.status == .running
      let p := if first then { p with table := tableOf s p.ctx } else p
      match body s p with
      | .ok (s, f) => s.mapProg p.id fun q => (f { q with table := p.table, held := [], asked := [] }).rests s
      | .error (.stop s sub a) => stopProg s p.id sub (low57 a)
      | .error (.wait _ links held) => s.mapProg p.id fun q => { q.asks s links with
          status := .waiting i
          table := p.table
          held := held
          since := if first || (p.held.isEmpty && !held.isEmpty) then s.clock else q.since }) s

/-! Accesses. -/

/-- Parts of an engine access, numbered in order. -/
def engReqs (l : List (DWord × Nat)) : List LaneReq := l.zipIdx.map fun (r, i) => laneReq i r.1 r.2 [] []

/-- The entry that the twin element format of a leaf names (R219). -/
def twinNum (e : DWord) : Nat := [0, 3, 2].getD (leafTwf e) 0

/-- R230, R231, R234, R238: what an engine command's write to a twin page may not do; num is the entry of its elements,
none for raw bytes. -/
def twinWrite (p : Prog) (num : Option Nat) (q : Plan) : Plan :=
  q.segs.foldl (fun q g =>
    if !leafTwin g.leaf then q
    else if p.replay || g.len % twinBytes g.leaf != 0 || g.va % twinBytes g.leaf != 0 ||
        (match num with | some n => n != twinNum g.leaf | none => false) then
      { q with req := q.req.fail 0x13 g.va 0 }
    else q) q

/-- The lowest cause among parts, at its lowest address (R370). -/
def lowestFault (ps : List Plan) : Option (Nat × DWord) :=
  ps.foldl (fun best q =>
    if q.req.cause = 0 then best
    else match best with
      | none => some (q.req.cause, q.req.at_)
      | some (c, a) =>
        if q.req.cause < c ∨ (q.req.cause = c ∧ q.req.at_.toNat < a.toNat) then some (q.req.cause, q.req.at_) else best) none

/-- What the accesses of a command gave: the bytes of its reads, where they and its writes lie, and the count words that
the command has used. -/
structure Taken where
  s : State
  bytes : List (List Byte)
  reads : List Plan
  writes : List Plan
  seen : List Nat

/-- The OPEN blocks that parts read, with the parts' addresses. -/
def openReads (s : State) (ps : List Plan) : List (DWord × Nat) :=
  (ps.filter Plan.ok).flatMap fun q => q.segs.flatMap fun g =>
    if leafTwin g.leaf then ((blocksOf s g).filter fun b => countState s b.key == 1).map fun b => (BitVec.ofNat 64 g.va, b.pa)
    else []

/-- The segments of the parts that read OPEN blocks. -/
def openSegs (s : State) (ps : List Plan) : List Seg :=
  ((ps.filter Plan.ok).filter fun q => !(openReads s [q]).isEmpty).flatMap (·.segs)

/-- Where parts that get no answer lead. -/
def linksOf (s : State) (c : Nat) (ps : List Plan) : List (DWord × Target) :=
  (ps.filter (·.waits)).flatMap fun q =>
    (q.segs.filter fun g => segTrouble s c false g == .waits).map fun g => (BitVec.ofNat 64 g.va, g.tgt)

/-- R254: a part that has waited at its home for an OPEN block keeps where it leads. -/
def keptReq (held : List Seg) (r : LaneReq) : LaneReq :=
  let gs := held.filter fun g => decide (r.addr.toNat ≤ g.va) && decide (g.va + g.len ≤ r.addr.toNat + r.len)
  if (gs.map (·.len)).sum = r.len then { r with held := gs } else r

/-- Whether a class is a stack mill's, which never reads the second tier (R174). -/
def onStack : EngClass → Bool
  | .stack _ => true
  | _ => false
def Seg.onTier (g : Seg) : Bool := match g.tgt with
  | .tier _ => true
  | _ => false
def Plan.onTier (q : Plan) : Bool := q.segs.any Seg.onTier

/-- R200, R225, R227, R229, R232, R370: a command's reads are performed, and its writes checked; where rmw holds, the writes
first read what they change (R206, R208, R323). Reads count one use for each sector that the command has not used before,
where counts holds; a read of an OPEN block waits, and so does an access to a retraining port or to a peer that does not
answer, to the latter at most 200 ms (R293). A stack mill stops at a read of the second tier as at one of B outside its stack
(R174, R213; with 0x22, log 36). -/
def engAccess (s : State) (p : Prog) (counts rmw : Bool) (seen : List Nat) (reads writes : List LaneReq) (num : Option Nat) :
    Cmd Taken :=
  let c := p.ctx
  let (rp, s) := planAll s c .read p.priv false (reads.map (keptReq p.held))
  let stray := onStack p.cls && rp.any Plan.onTier && (lowestFault rp).isNone
  let rp := rp.map fun q => ((q.meet s c true false).late s c p.asked.at_).meetTwin s c false none
  let (wp, s) := planAll s c .write p.priv true writes
  let wp := wp.map fun q => twinWrite p num (((q.meet s c rmw true).late s c p.asked.at_).meetTwin s c true none)
  let counts := counts && !p.replay
  let rp := if counts then rp.map (missingTwin s c) else rp
  let keys (q : Plan) : List (Nat × Nat) :=
    if counts then (q.primalKeys s c).filter fun k => !seen.contains k.1 else []
  let rp := failUses 0x15 true (addOverflows s) keys rp
  let uses := usesOf true (touchesOf keys rp)
  let s1 := uses.foldl (fun s (k, n) => addUses s k n) s
  let busy := openReads s1 rp
  let s2 := (nub (blocksTouched s1 rp) []).foldl consume s1
  let wp := failUses 0x14 true (subUnderflows s2) (Plan.writtenKeys s2 c) wp
  if stray then .error (.stop s 0x22 0)
  else
    match lowestFault (rp ++ wp) with
    | some (cause, a) => .error (.stop s cause a)
    | none =>
      if !busy.isEmpty || (rp ++ wp).any (·.waits) then .error (.wait busy (linksOf s c (rp ++ wp)) (openSegs s1 rp))
      else
        let segs := rp.flatMap (·.segs)
        let acct := acctOf s2 p.launch
        .ok { s := recallSegs none segs (chargeDram acct false segs (chargeFabric s2 acct (peerBytesOf rp)))
              bytes := rp.map (Plan.read s1 c)
              reads := rp
              writes := wp
              seen := seen ++ uses.map (·.1) }

/-- R301, R294, R240: what a command's writes leave besides what they write. -/
def engSent (s : State) (p : Prog) (writes : List Plan) (nonfinite : Bool) : State :=
  let n := peerBytesOf writes
  let acct := acctOf s p.launch
  let s := nfwReport (unpoisonBy s p.ctx writes) p.launch nonfinite
  let s := chargeDram acct true (writes.flatMap (·.segs)) (chargeFabric s acct n)
  if n = 0 then s else s.mapProg p.id fun p => { p with unacked := p.unacked + 1 }

/-- R228, R229: a command's writes are performed one after the other, each with the bytes that make gives in the state that
the earlier ones have left; those on twin pages accumulate raw elements. -/
def engPut (s : State) (p : Prog) (writes : List Plan) (make : State → Plan → Nat → List Byte) : State :=
  let s := (usesOf true (touchesOf (Plan.writtenKeys s p.ctx) writes)).foldl (fun s (k, n) => subUses s k n) s
  let (s, nf) := writes.zipIdx.foldl (fun (s, nf) (q, i) =>
    let (s, b) := depositSegs s p.ctx none none [] q.segs (make s q i)
    (s, nf || b)) (s, false)
  engSent s p writes nf
def engWrite (s : State) (p : Prog) (writes : List Plan) (data : List (List Byte)) : State :=
  engPut s p writes fun _ _ i => data.getD i []

/-- A command's rows are written. Which of two that overlap gives a byte is left open (log 6). -/
def engRows (s : State) (p : Prog) (writes : List Plan) (rows : List LaneReq) : State :=
  engWrite (s.bump (choiceCount rows)) p writes ((chooseBytes s.tick [] rows).map (·.data))

/-- A command's descriptor of n bytes (R370): an address with a high bit is not accessed. -/
def engDesc (s : State) (p : Prog) (counts : Bool) (a : DWord) (n : Nat) : Cmd (List Byte × Taken) := do
  checkAll s [a] true
  let t ← engAccess s p counts false [] (engReqs [(a, n)]) [] none
  .ok (t.bytes.getD 0 [], t)

/-! Fields, formats and rows. -/

/-- Bits lo to lo + len − 1 of the bytes from an offset. -/
def fieldAt (b : List Byte) (off lo len : Nat) : Nat := bitsOf (ofBytes ((b.drop off).take 8)) lo len
def dwordAt (b : List Byte) (off : Nat) : DWord := dwordOf ((b.drop off).take 8)

/-- R109, R201: the number and the entry that a format code of a descriptor names, in the table that the command took. -/
def engEntry (p : Prog) (code : Nat) : Option (Nat × DWord) :=
  match entryNum p.fmt code with
  | some n => (entryOf p.table p.fmt code).map fun e => (n, e)
  | none => none

/-- The entry as fields, an empty one where there is none. -/
def entOf (e : Option (Nat × DWord)) : Ent := Ent.of ((e.map (·.2)).getD 0)

/-- Whether a rounding code is 1 to 6 (R370). -/
def rndOk (n : Nat) : Bool := decide (1 ≤ n) && decide (n ≤ 6)

/-- The length in bytes of a row of n elements of w bits, and whether they fill it (R370). -/
def rowBytes (n w : Nat) : Nat := (n * w + 7) / 8
def packs (n w : Nat) : Bool := n * w % 8 == 0

/-- Element k of a packed row. -/
def rowCode (bs : List Byte) (w k : Nat) : Nat :=
  if w % 8 = 0 then ofBytes ((bs.drop (w / 8 * k)).take (w / 8)) else packedCode bs w k

/-- A row of packed codes. -/
def packRow (w : Nat) (codes : List Nat) : List Byte :=
  toBytes (codes.foldr (fun c n => c % 2 ^ w + 2 ^ w * n) 0) (rowBytes codes.length w)

/-- The scales of a block-scaled row of k elements (R106): their number, their bytes, and the address of row i's. R106 gives
i · K / B scales before row i; where K is not a multiple of B each row has one more for the elements that are left (the
model's choice, log 11). -/
def scaleCount (f : Ent) (k : Nat) : Nat := (k + blockElems f - 1) / blockElems f
def scaleLen (table : Vector DWord 48) (f : Ent) (k : Nat) : Nat := scaleCount f k * ((scaleEnt table f).wid / 8)
def scaleAddr (table : Vector DWord 48) (f : Ent) (base stride : DWord) (k i : Nat) : DWord :=
  rowAt base stride 16 + BitVec.ofNat 64 (i * scaleLen table f k)

/-- The scale rows that an operand of n rows of k elements reads, none where it is not block-scaled. -/
def scaleRows (table : Vector DWord 48) (f : Ent) (base stride : DWord) (k n : Nat) : List (DWord × Nat) :=
  if f.blk = 0 || k = 0 then []
  else (List.range n).map fun i => (scaleAddr table f base stride k i, scaleLen table f k)

/-- Code number j of a row of scales. -/
def scaleCode (table : Vector DWord 48) (f : Ent) (bs : List Byte) (j : Nat) : Nat := rowCode bs (scaleEnt table f).wid j

/-- The draw of result j under a rounding code, and the program after n results (R201). -/
def engDraw (p : Prog) (rnd j : Nat) : Word := if rnd = 6 then drawWord p.gen j else 0
def Prog.drew (p : Prog) (rnd n : Nat) : Prog := if rnd = 6 then { p with gen := p.gen.advance n } else p

/-! ECTL. -/

/-- R203: whether an address can hold a word of EWAIT, ESIG or a signal. -/
def wordAddr (a : DWord) : Bool := a.toNat % 4 == 0 && !inTwinWindow a.toNat

/-- The conditions of EWAIT by code (R90). -/
def ewaitCond (c : Nat) : WaitCond :=
  match c with
  | 0 => .eq | 1 => .ne | 2 => .gen | _ => .ltn

/-- R203: EWAIT. Its read counts nothing (R226). -/
def ewaitBody (ea eb cond : BitVec 4) (s : State) (p : Prog) : Cmd (State × (Prog → Prog)) := do
  let a := p.ereg ea
  checkAll s [a] (wordAddr a)
  let t ← engAccess s p false false [] (engReqs [(a, 4)]) [] none
  if waitMet (ewaitCond cond.toNat) (wordOf (t.bytes.getD 0 [])) (loOf (p.ereg eb)) then .ok (t.s, Prog.onward)
  else .error (.wait [] [] [])
def execEwait (ea eb cond : BitVec 4) (s : State) : Out :=
  runCommand (.ewait ea eb cond) (fun _ => true) (decide (cond.toNat < 4)) (ewaitBody ea eb cond) s

/-- R203: ELOOP. -/
def eloopStep (ea : BitVec 4) (off : BitVec 12) (p : Prog) : Prog :=
  let n := p.ereg ea
  if n = 0 then p.onward
  else
    let p := p.put ea (n - 1)
    if n - 1 = 0 then p.onward else { p with pc := p.pc + 4 * off.signExtend 64, status := .running }
def execEloop (ea : BitVec 4) (off : BitVec 12) (s : State) : Out :=
  runCommand (.eloop ea off) (fun _ => true) true (fun s _ => .ok (s, eloopStep ea off)) s

/-- R203, R198: EEND ends the program, and with its last program a gang whose strips have retired. -/
def execEend (s : State) : Out :=
  runCommand .eend (fun _ => true) true
    (fun s p => .ok (retireGang (s.mapProg p.id fun p => { p with status := .ended }) p.gang, id)) s

/-- R203: ESIG. A release at FABRIC or SYSTEM scope waits for the acknowledgement of writes to peers (R294). Poison on its
word stops it (R323). -/
def esigBody (ea eb : BitVec 4) (s : State) (p : Prog) : Cmd (State × (Prog → Prog)) := do
  let a := p.ereg ea
  checkAll s [a] (wordAddr a)
  if p.scope ≥ 4 && p.unacked != 0 then .error (.wait [] [] [])
  else
    let t ← engAccess s p false true [] [] (engReqs [(a, 4)]) none
    .ok (engWrite t.s p t.writes [toBytes (loOf (p.ereg eb)).toNat 4], Prog.onward)
def execEsig (ea eb : BitVec 4) (s : State) : Out :=
  runCommand (.esig ea eb) (fun _ => true) true (esigBody ea eb) s

end Sys2Proof.Machine
end

