-- ==== Sys2Proof/Machine/Carters.lean ====
section
/-! DEFINITION. The carters and the Fuller: CPY (R204, R205), RDST with its log (R206, R207, R231) and MERGE (R208). -/

namespace Sys2Proof.Machine

/-! CPY. -/

/-- The fields of CPY's descriptor (R204). -/
structure Copy where
  nx : Nat
  ny : Nat
  nz : Nat
  src : Option (Nat × DWord)
  dst : Option (Nat × DWord)
  rnd : Nat
  sat : Bool
  sig : Word
  sy : DWord
  sz : DWord
  dy : DWord
  dz : DWord
  sadv : DWord
  dadv : DWord

def copyOf (p : Prog) (b : List Byte) : Copy where
  nx := fieldAt b 0 0 32
  ny := fieldAt b 4 0 16
  nz := fieldAt b 4 16 16
  src := engEntry p (fieldAt b 8 0 6)
  dst := engEntry p (fieldAt b 8 8 6)
  rnd := fieldAt b 8 16 3
  sat := fieldAt b 8 19 1 == 1
  sig := BitVec.ofNat 32 (fieldAt b 12 0 32)
  sy := dwordAt b 0x10
  sz := dwordAt b 0x18
  dy := dwordAt b 0x20
  dz := dwordAt b 0x28
  sadv := dwordAt b 0x30
  dadv := dwordAt b 0x38

/-- R204, R205, R370: CPY's checks of its descriptor. -/
def copyOk (b : List Byte) (k : Copy) (dims : Nat) (cv : Bool) : Bool :=
  fieldAt b 8 6 2 == 0 && fieldAt b 8 14 2 == 0 && fieldAt b 8 20 12 == 0 &&
  (decide (1 ≤ dims) || k.ny == 1) && (decide (2 ≤ dims) || k.nz == 1) &&
  (if cv then
    k.src.isSome && k.dst.isSome && rndOk k.rnd && (entOf k.dst).blk != 3 &&
    packs k.nx (entOf k.src).wid && packs k.nx (entOf k.dst).wid
  else fieldAt b 8 0 6 == 63 && fieldAt b 8 8 6 == 63)

/-- A row of the box: its plane, its number in the plane, and its number in all. -/
structure BoxRow where
  z : Nat
  y : Nat
  i : Nat
def copyRows (k : Copy) : List BoxRow :=
  if k.nx = 0 then []
  else (List.range k.nz).flatMap fun z => (List.range k.ny).map fun y => BoxRow.mk z y (y + k.ny * z)

/-- Where rows and their scales lie (R106, R204). With more than one plane the rules do not say whether rows are counted through
the planes: each plane has the scales of its own rows behind its own address (the model's choice, log 11). -/
def boxRanges (table : Vector DWord 48) (f : Option Ent) (base sy sz : DWord) (nx : Nat) (rows : List BoxRow) :
    List (DWord × Nat) :=
  let plane (r : BoxRow) : DWord := rowAt base sz r.z
  let w := (f.map (·.wid)).getD 8
  let elems := rows.map fun r => (rowAt (plane r) sy r.y, rowBytes nx w)
  match f with
  | some f =>
    if f.blk = 0 then elems
    else elems ++ rows.map fun r => (scaleAddr table f (plane r) sy nx r.y, scaleLen table f nx)
  | none => elems

/-- A number as plain data. -/
def Num.key : Num → Nat × Int
  | .nan sig => (0, if sig then 1 else 0)
  | .inf neg => (1, if neg then 1 else 0)
  | .fin neg m e => (2 * m + (if neg then 3 else 2), e)

/-- The exponent of the largest magnitude of a block: of its finite elements, and whether it holds an infinity. -/
def blockTop (vs : List Num) : Option Int × Bool :=
  (vs.foldl (fun m v => match v with
    | .fin _ n e => if n = 0 then m else match m with
      | none => some (exponentOf n e)
      | some x => some (if x < exponentOf n e then exponentOf n e else x)
    | _ => m) none, vs.any Num.isInf)

/-- R204: the scale of a block that is written: 2^(e − E), rounded into the scale's entry where that has no such power of
two; 1.0 for an all-zero or all-NaN block. For a block with an infinity no rule gives e, and the scale is free, but the same
for the same operands (R120, log 6). -/
def blockScale (table : Vector DWord 48) (entry : DWord) (rnd : Nat) (sat : Bool) (vs : List Num) : Nat :=
  let f := Ent.of entry
  let se := scaleEnt table f
  match blockTop vs with
  | (_, true) => (Config.blockScale entry (scaleWord table f) rnd sat (vs.map Num.key)).toNat % 2 ^ se.wid
  | (none, false) => (se.round 1 true 0 (.fin false 1 0)).1
  | (some e, false) => (se.round 1 sat 0 (.fin false 1 (e - f.maxExp))).1

/-- An element that is divided by its block's scale, a power of two. -/
def unscale (v scale : Num) : Num :=
  match scale with
  | .fin _ m e => v.scale (-(exponentOf m e))
  | _ => .nan false

/-- R110, R204: a row of numbers as the codes of its elements and of its scales; draw gives the drawn words. -/
def copyRow (table : Vector DWord 48) (entry : DWord) (rnd : Nat) (sat : Bool) (draw : Nat → Word) (vs : List Num) :
    List Nat × List Nat :=
  let f := Ent.of entry
  if f.blk = 0 then (vs.zipIdx.map fun (v, x) => (f.round rnd sat (draw x) v).1, [])
  else
    let n := blockElems f
    let scales := (List.range (scaleCount f vs.length)).map fun j =>
      blockScale table entry rnd sat ((vs.drop (n * j)).take n)
    (vs.zipIdx.map fun (v, x) =>
      (f.round rnd sat (draw x) (unscale v ((scaleEnt table f).decode (scales.getD (x / n) 0)))).1, scales)

/-- The number of element x of a row with its scales (R106). -/
def rowNum (table : Vector DWord 48) (f : Ent) (row scales : List Byte) (x : Nat) : Num :=
  operandNum table f (fun _ k => rowCode row f.wid k) (fun _ j => scaleCode table f scales j) 0 x

/-- The bytes of all rows of a copy and of their scales, from those of the source. -/
def copyData (table : Vector DWord 48) (p : Prog) (k : Copy) (cv : Bool) (rows : List BoxRow)
    (bytes : List (List Byte)) : List (List Byte) :=
  if !cv then bytes
  else
    let sf := entOf k.src
    let df := entOf k.dst
    let n := rows.length
    let out := rows.zipIdx.map fun (r, i) =>
      copyRow table (k.dst.elim 0 (·.2)) k.rnd k.sat (fun x => engDraw p k.rnd (x + k.nx * r.i))
        ((List.range k.nx).map (rowNum table sf (bytes.getD i []) (bytes.getD (n + i) [])))
    out.map (fun o => packRow df.wid o.1) ++
      (if df.blk = 0 then [] else out.map fun o => packRow (scaleEnt table df).wid o.2)

/-- Whether two segments share a byte of the memory that they lead to. -/
def Seg.meets (a b : Seg) : Bool :=
  let share (x y : Nat) : Bool := decide (x < y + b.len) && decide (y < x + a.len)
  match a.tgt, b.tgt with
  | .device x, .device y => share x y
  | .tier x, .tier y => share x y
  | .host x, .host y => share x y
  | .peer i x, .peer j y => i == j && share x y
  | _, _ => false
def plansMeet (rp wp : List Plan) : Bool := rp.any fun a => wp.any fun b => a.segs.any fun g => b.segs.any g.meets

/-- R205: where source and destination overlap, element x of row i is the conversion of its source as it stood before, or
as the writes made so far have left it; which one is left open (log 6). -/
def copyOne (p : Prog) (k : Copy) (cv : Bool) (t : Taken) (i x : Nat) (s : State) : State :=
  let sw := if cv then (entOf k.src).wid else 8
  let df := entOf k.dst
  let dw := if cv then df.wid else 8
  let make (bs : List Byte) : Nat :=
    let c := rowCode bs sw x
    if cv then (df.round k.rnd k.sat (engDraw p k.rnd (x + k.nx * i)) ((entOf k.src).decode c)).1 else c
  match t.reads[i]?, t.writes[i]? with
  | some r, some w =>
    let code := Config.pick (s.tick + x + k.nx * i) (make (t.bytes.getD i [])) (make (r.read s p.ctx))
    let old := w.read s p.ctx
    writeSegs s p.ctx w.segs
      (packRow dw ((List.range k.nx).map fun j => if j = x then code else rowCode old dw j))
  | _, _ => s
def copyMoving (p : Prog) (k : Copy) (cv : Bool) (t : Taken) (rows : List BoxRow) : State :=
  let places := rows.flatMap fun r => (List.range k.nx).map fun x => (r.i, x)
  let places := if Config.freeBit t.s.tick then places else places.reverse
  let s := places.foldl (fun s (i, x) => copyOne p k cv t i x s) (t.s.bump 1)
  engSent (s.bump (k.nx * rows.length)) p t.writes false

/-- Whether a copy is one whose elements may see each other's writes. -/
def copyOverlaps (k : Copy) (cv : Bool) (t : Taken) : Bool :=
  plansMeet t.reads t.writes && (!cv || ((entOf k.src).blk == 0 && (entOf k.dst).blk == 0)) &&
  t.writes.all fun q => q.segs.all fun g => !leafTwin g.leaf

/-- R205: the signal word. -/
def copySignal (s : State) (p : Prog) (sg ss : Bool) (a : DWord) (v : Word) : Cmd State := do
  if !sg then .ok s
  else if ss then
    let size := ((s.launch? p.launch).map (·.hdr.scratch)).getD 0
    .ok (noteWrote p.ctx (toBytes v.toNat 4)
      (s.mapGang p.gang fun g => scratchPut size (loOf a).toNat g (toBytes v.toNat 4)))
  else
    let t ← engAccess s p false false [] [] (engReqs [(a, 4)]) none
    .ok (engWrite t.s p t.writes [toBytes v.toNat 4])

/-- R204, R205: CPY. -/
def cpyBody (dims : BitVec 2) (cv sg ss : Bool) (w : WEng) (s : State) (p : Prog) : Cmd (State × (Prog → Prog)) := do
  let src := p.ereg w.ea
  let dst := p.ereg w.eb
  let d := p.ereg w.ec
  let a := p.ereg w.ed
  let (b, t) ← engDesc s p true d 64
  let k := copyOf p b
  checkAll t.s ([src, dst] ++ if sg && !ss then [a] else [])
    (d.toNat % 8 == 0 && copyOk b k dims.toNat cv && (!sg || ss || wordAddr a))
  let table := p.table
  let rows := copyRows k
  let ent (e : Option (Nat × DWord)) : Option Ent := if cv then some (entOf e) else none
  let writes := (engReqs (boxRanges table (ent k.dst) dst k.dy k.dz k.nx rows))
  let t ← besides
    (engAccess t.s p true false t.seen (engReqs (boxRanges table (ent k.src) src k.sy k.sz k.nx rows)) writes
      (if cv then k.dst.map (·.1) else none))
    (haltOf (copySignal t.s p sg ss a k.sig))
  let s :=
    if copyOverlaps k cv t then copyMoving p k cv t rows
    else
      engRows t.s p t.writes (writes.zip (copyData table p k cv rows t.bytes) |>.map fun (r, d) => { r with data := d })
  let s ← copySignal s p sg ss a k.sig
  .ok (s, fun p =>
    let p := p.put w.ea (p.ereg w.ea + k.sadv)
    ((p.put w.eb (p.ereg w.eb + k.dadv)).drew (if cv then k.rnd else 0) (k.nx * k.ny * k.nz)).onward)
def execCpy (dims : BitVec 2) (cv sg ss : Bool) (w : WEng) (s : State) : Out :=
  runCommand (.cpy dims cv sg ss w) (· == .cart) (dims != 3 && (!ss || sg)) (cpyBody dims cv sg ss w) s

/-! RDST. -/

/-- The fields of RDST's descriptor (R206). -/
structure Reduce where
  rows : Nat
  cols : Nat
  src : Option (Nat × DWord)
  dst : Option (Nat × DWord)
  code : Nat
  rnd : Nat
  sat : Bool
  sstr : DWord
  dstr : DWord
  sadv : DWord
  dadv : DWord

def reduceOf (p : Prog) (b : List Byte) : Reduce where
  rows := fieldAt b 0 0 16
  cols := fieldAt b 0 16 16
  src := engEntry p (fieldAt b 4 0 6)
  dst := engEntry p (fieldAt b 4 8 6)
  code := fieldAt b 4 8 6
  rnd := fieldAt b 4 16 3
  sat := fieldAt b 4 19 1 == 1
  sstr := dwordAt b 8
  dstr := dwordAt b 0x10
  sadv := dwordAt b 0x18
  dadv := dwordAt b 0x20

/-- Whether an entry may be the destination of a reduction (R206). -/
def reducible (f : Ent) : Bool := f.kind == 1 && (f.wid == 16 || f.wid == 32 || f.wid == 64) && f.blk == 0

/-- R206, R231, R370: RDST's checks of its descriptor. RND has to be 1 to 6 too where WGLOG diverts the sum to the log, whose
rounding is RNE: no rule says whether the command then uses RND (the model's choice, log 41). -/
def reduceOk (b : List Byte) (k : Reduce) (twin : Bool) : Bool :=
  fieldAt b 4 6 2 == 0 && fieldAt b 4 14 2 == 0 && fieldAt b 4 20 12 == 0 && fieldAt b 0x28 0 64 == 0 &&
  decide (1 ≤ k.rows) && decide (1 ≤ k.cols) && k.src.isSome && (entOf k.src).blk == 0 && k.dst.isSome &&
  reducible (entOf k.dst) && (twin || rndOk k.rnd) && packs k.cols (entOf k.src).wid

/-- Rows of n elements of w bits at a stride. -/
def rowRanges (base stride : DWord) (rows n w : Nat) : List (DWord × Nat) :=
  (List.range rows).map fun i => (rowAt base stride i, rowBytes n w)

/-- R206: a row of sums of a tile row and what the destination holds. -/
def sumRow (p : Prog) (k : Reduce) (i : Nat) (new old : List Byte) : List Byte :=
  let sf := entOf k.src
  let df := entOf k.dst
  packRow df.wid ((List.range k.cols).map fun c =>
    (df.round k.rnd k.sat (engDraw p k.rnd (i * k.cols + c))
      (Num.add (k.rnd == 4) (df.decode (rowCode old df.wid c)) (sf.decode (rowCode new sf.wid c)))).1)

/-- R231: a row as codes of the twin element format. -/
def twinRow (k : Reduce) (bs : List Byte) : List Byte :=
  let df := entOf k.dst
  packRow df.wid ((List.range k.cols).map fun c =>
    (df.round 1 false 0 ((entOf k.src).decode (rowCode bs (entOf k.src).wid c))).1)

/-- The bytes of a row by the pages that it lies on: raw on twin pages, which accumulate, and sum elsewhere. -/
def byLeaf : List Seg → List Byte → List Byte → List Byte
  | [], _, _ => []
  | g :: r, raw, sum => (if leafTwin g.leaf then raw else sum).take g.len ++ byLeaf r (raw.drop g.len) (sum.drop g.len)

/-- R206, R228, R231: what a row of RDST puts at its destination. -/
def reduceRow (p : Prog) (k : Reduce) (bytes : List (List Byte)) (s : State) (q : Plan) (i : Nat) : List Byte :=
  let new := bytes.getD i []
  byLeaf q.segs (twinRow k new) (sumRow p k i new (q.read s p.ctx))

/-- R207: a log record. -/
def logRecord (k : Reduce) (dst : DWord) (bytes : List (List Byte)) : List Byte :=
  let sf := entOf k.src
  toBytes dst.toNat 8 ++ toBytes k.dstr.toNat 8 ++ toBytes k.rows 2 ++ toBytes k.cols 2 ++ toBytes k.code 1 ++
    List.replicate 11 0 ++
    bytes.flatMap fun r => (List.range k.cols).flatMap fun c =>
      toBytes (Ent.acc.round 1 false 0 (sf.decode (rowCode r sf.wid c))).1 8

/-- The first 16 bytes of a log's header: TAIL and COUNT (R207). -/
def readLog (s : State) (p : Prog) (base : DWord) : Cmd (Nat × Nat × State) := do
  let t ← engAccess s p false false [] (engReqs [(base, 16)]) [] none
  let b := t.bytes.getD 0 []
  .ok ((dwordAt b 0).toNat, (dwordAt b 8).toNat, t.s)

/-- R207: RDST appends its record to the context's log. Where the log's header or its limit stops the command, the tile's faults
are looked at too (R370). -/
def reduceLog (s : State) (p : Prog) (seen : List Nat) (k : Reduce) (dst : DWord) (reads : List LaneReq) : Cmd State := do
  let c := s.cfg p.ctx
  let tile := haltOf (engAccess s p true false seen reads [] none)
  let (tail, count, s) ← besides (readLog s p c.logbase) tile
  let n := 32 + 8 * k.rows * k.cols
  besides (stopIf s (decide (c.logsize.toNat < 64 + tail + n)) 0x22 0) tile
  let t ← engAccess s p true false seen reads
    (engReqs [(c.logbase + BitVec.ofNat 64 (64 + tail), n), (c.logbase, 16)]) (some 64)
  .ok (engWrite t.s p t.writes [logRecord k dst t.bytes, toBytes (tail + n) 8 ++ toBytes (count + 1) 8])

/-- R206, R231: RDST adds its tile at the destination. -/
def reduceAdd (s : State) (p : Prog) (seen : List Nat) (k : Reduce) (dst : DWord) (reads : List LaneReq) : Cmd State := do
  let t ← engAccess s p true true seen reads (engReqs (rowRanges dst k.dstr k.rows k.cols (entOf k.dst).wid)) (k.dst.map (·.1))
  .ok (engPut t.s p t.writes (reduceRow p k t.bytes))

/-- R206: the barrier word decreases after every addition. -/
def reduceBarrier (s : State) (p : Prog) (a : DWord) : Cmd State := do
  let t ← engAccess s p false true [] [] (engReqs [(a, 4)]) (some 64)
  .ok (engPut t.s p t.writes fun s q _ => toBytes (wordOf (q.read s p.ctx) - 1).toNat 4)

/-- The rows of RDST's destination, whether one of them touches the twin window, and whether all lie in it. -/
def reduceRanges (k : Reduce) (dst : DWord) : List (DWord × Nat) := rowRanges dst k.dstr k.rows k.cols (entOf k.dst).wid
def touchesTwins (l : List (DWord × Nat)) : Bool := l.any fun (a, n) => touchesWindow a.toNat n
def allTwins (l : List (DWord × Nat)) : Bool :=
  l.all fun (a, n) => inTwinWindow a.toNat && inTwinWindow (a.toNat + n - 1)

/-- R294: whether an RDST.BD has peers to wait for before its decrement, a release at the FORK scope. -/
def barrierLate (s : State) (p : Prog) : Bool :=
  decide (4 ≤ p.scope) && ((s.prog? p.id).map (·.unacked)).getD 0 != 0

/-- R206, R207, R231: RDST. Each part of its destination is a twin or not by itself: what lies on twin pages accumulates,
and RND and SAT serve the rest; one that touches the twin window is not diverted to the log (log 34). -/
def rdstBody (bd : Bool) (w : WEng) (s : State) (p : Prog) : Cmd (State × (Prog → Prog)) := do
  match p.added with
  | some a =>
    if p.unacked != 0 then .error (.wait [] [] [])
    else
      let s ← reduceBarrier s p a
      .ok (s, fun p => { p.onward with added := none })
  | none =>
    let src := p.ereg w.ea
    let dst := p.ereg w.eb
    let d := p.ereg w.ec
    let a := p.ereg w.ed
    let (b, t) ← engDesc s p true d 48
    let k := reduceOf p b
    let rows := reduceRanges k dst
    checkAll t.s ([src, dst] ++ if bd then [a] else []) (d.toNat % 8 == 0 && reduceOk b k (allTwins rows))
    let reads := engReqs (rowRanges src k.sstr k.rows k.cols (entOf k.src).wid)
    let s ← besides
      (if (t.s.cfg p.ctx).wglog && !touchesTwins rows then reduceLog t.s p t.seen k dst reads
        else reduceAdd t.s p t.seen k dst reads)
      (if bd then haltOf (reduceBarrier t.s p a) else none)
    let goesOn (p : Prog) : Prog :=
      let p := p.put w.ea (p.ereg w.ea + k.sadv)
      (p.put w.eb (p.ereg w.eb + k.dadv)).drew (if allTwins rows then 0 else k.rnd) (k.rows * k.cols)
    if !bd then .ok (s, fun p => (goesOn p).onward)
    else if barrierLate s p then
      .ok (s, fun p => { goesOn p with status := .waiting (.rdst bd w), since := s.clock, added := some a })
    else
      let s ← reduceBarrier s p a
      .ok (s, fun p => (goesOn p).onward)
def execRdst (bd : Bool) (w : WEng) (s : State) : Out :=
  runCommand (.rdst bd w) (· == .cart) (bd || w.ed == 0) (rdstBody bd w) s

/-! MERGE. -/

/-- A destination element of a log with the accumulator code of what is folded into it. -/
structure Fold where
  addr : DWord
  dstr : DWord
  code : Nat
  acc : Nat
  deriving DecidableEq

/-- Adds one record's element to the folds, in the order in which the log first names their destinations (R201, R208). -/
def foldIn (fs : List Fold) (f : Fold) : List Fold :=
  match fs with
  | [] => [{ f with acc := (Ent.acc.round 1 false 0 (Num.add false (.fin false 0 0) (Ent.acc.decode f.acc))).1 }]
  | g :: r =>
    if g.addr = f.addr ∧ g.dstr = f.dstr ∧ g.code = f.code then
      { g with acc := (Ent.acc.round 1 false 0 (Num.add false (Ent.acc.decode g.acc) (Ent.acc.decode f.acc))).1 } :: r
    else g :: foldIn r f

/-- What MERGE has read of a log: the folds, and what its reads stop with or wait for (R370). -/
structure Folded where
  s : State
  folds : List Fold
  halt : Option Halt
def Folded.halts (r : Folded) (h : Halt) : Folded := { r with halt := some (h.lower r.halt) }

/-- R208: reads n records from an address and folds them. Behind a record whose header cannot be read no further one is found. -/
def foldLog (p : Prog) : (n : Nat) → DWord → Folded → Folded
  | 0, _, r => r
  | n + 1, a, r =>
    match engAccess r.s p false false [] (engReqs [(a, 32)]) [] none with
    | .error h => r.halts h
    | .ok t =>
      let h := t.bytes.getD 0 []
      let rows := fieldAt h 16 0 16
      let cols := fieldAt h 18 0 16
      let code := fieldAt h 20 0 8
      let w := (entOf (engEntry p code)).wid
      let (els, r) := match engAccess t.s p false false [] (engReqs [(a + 32, 8 * rows * cols)]) [] none with
        | .error h => ([], { r with s := t.s }.halts h)
        | .ok u => (u.bytes.getD 0 [], { r with s := u.s })
      let fs := (List.range (rows * cols)).foldl (fun fs i =>
        foldIn fs (Fold.mk (rowAt (dwordAt h 0) (dwordAt h 8) (i / cols) + BitVec.ofNat 64 (i % cols * (w / 8))) (dwordAt h 8) code
          (fieldAt els (8 * i) 0 48))) r.folds
      foldLog p n (a + BitVec.ofNat 64 (32 + 8 * rows * cols)) { r with folds := fs }

/-- The bytes of a fold's element. -/
def Fold.len (p : Prog) (f : Fold) : Nat := (entOf (engEntry p f.code)).wid / 8

/-- Whether two folds of different kinds overlap. -/
def foldsClash (p : Prog) (fs : List Fold) : Bool :=
  fs.any fun f => fs.any fun g =>
    (f.dstr != g.dstr || f.code != g.code) &&
    decide (f.addr.toNat < g.addr.toNat + g.len p) && decide (g.addr.toNat < f.addr.toNat + f.len p)

/-- R208: the sum of result number n and what its destination element holds. -/
def foldSum (p : Prog) (rnd : Nat) (sat : Bool) (fold : Fold) (n : Nat) (old : List Byte) : List Byte :=
  let f := entOf (engEntry p fold.code)
  toBytes (f.round rnd sat (engDraw p rnd n) (Num.add (rnd == 4) (f.decode (ofBytes old)) (Ent.acc.decode fold.acc))).1
    (f.wid / 8)

/-- R208: MERGE. Where records of different DFMT or DSTR overlap, the order of their groups is left open (log 6). Codes 48 to 51
in a record name entries by MERGE's own FMT, a record whose DFMT is not reducible stops the program with 0x22, and a destination
or a log's header on a twin page with 0x13: no rule says (the model's choices, log 41). -/
def mergeBody (ea eb ec : BitVec 4) (s : State) (p : Prog) : Cmd (State × (Prog → Prog)) := do
  let base := p.ereg ea
  let d := p.ereg ec
  let (b, t) ← engDesc s p false d 8
  let rnd := fieldAt b 0 0 3
  checkAll t.s [base] (d.toNat % 8 == 0 && fieldAt b 0 5 59 == 0 && rndOk rnd)
  let (_, count, s) ← readLog t.s p base
  let want := (p.ereg eb).toNat
  let n := if want = 0 || decide (count < want) then count else want
  let r := foldLog p n (base + 64) { s := s, folds := [], halt := none }
  let fs := r.folds.filter fun f => reducible (entOf (engEntry p f.code))
  let r := if fs.length = r.folds.length then r else r.halts (.stop r.s 0x22 0)
  let reset := fieldAt b 0 4 1 == 1
  let dests := engAccess r.s p false true [] []
    (engReqs (fs.map (fun f => (f.addr, f.len p)) ++ if reset then [(base, 16)] else [])) (some 64)
  let t ← match r.halt with
    | some h => .error (h.lower (haltOf dests))
    | none => dests
  let places := (fs.zip t.writes).zipIdx
  let places := if foldsClash p fs && Config.freeBit t.s.tick then places.reverse else places
  let s := engPut (t.s.bump 1) p (places.map (·.1.2)) fun s q i => match places[i]? with
    | some ((f, _), n) => foldSum p rnd (fieldAt b 0 3 1 == 1) f n (q.read s p.ctx)
    | none => []
  let s := if reset then engWrite s p (t.writes.drop fs.length) [List.replicate 16 0] else s
  .ok (s, fun q => (q.drew rnd fs.length).onward)
def execMerge (ea eb ec : BitVec 4) (s : State) : Out :=
  runCommand (.merge ea eb ec) (· == .full) true (mergeBody ea eb ec) s

end Sys2Proof.Machine
end

