-- ==== Sys2Proof/Machine/Collective.lean ====
section
/-! DEFINITION. Collectives: COLL and the ranks that join it (R142, R143, R193, R214, R216). -/

namespace Sys2Proof.Machine

/-- Ring position p's rank: position 0 is rank 0, and each next position the NEXT of the one before (R141, R214). -/
def ringRank (g : Group) : (p : Nat) → Nat
  | 0 => 0
  | p + 1 => ((g.links[ringRank g p]?).map (·.2.2)).getD 0

/-- This rank's position in its ring. -/
def ringPlace (g : Group) : Nat := ((List.range g.nrank).find? fun p => ringRank g p == g.rank).getD 0

/-- The chunk, of N, that element i of a buffer of E lies in (R143). -/
def chunkOf (e n i : Nat) : Nat :=
  ((List.range n).find? fun c => let (lo, len) := shareOf 0 e n c; decide (lo ≤ i) && decide (i < lo + len)).getD 0

/-- Whether an entry may be a buffer's or a wire's (R214). -/
def collEntry (e : Option (Nat × DWord)) : Bool :=
  let f := entOf e
  e.isSome && decide (1 ≤ f.kind) && decide (f.kind ≤ 3) && decide (8 ≤ f.wid) && f.blk == 0

/-- This rank's part of a COLL, as it is exchanged with the others: its descriptor, its entries and whether its checks
passed (R214, R370). -/
def collPart (p : Prog) (l : Launch) (op : CollOp) (red : BitVec 2) (d : DWord) (buf : DWord) (count : Nat)
    (b : List Byte) : CollPeer :=
  let bf := engEntry p (fieldAt b 4 0 6)
  let wf := engEntry p (fieldAt b 4 8 6)
  let root := fieldAt b 8 0 32
  let w := (entOf bf).wid
  let len := rowBytes count w
  { rank := l.group.rank
    tag := BitVec.ofNat 32 (fieldAt b 0 0 32)
    count := count
    op := op
    red := red
    bfmt := (bf.map (·.2)).getD 0
    wfmtCode := BitVec.ofNat 6 (fieldAt b 4 8 6)
    bfmtCode := BitVec.ofNat 6 (fieldAt b 4 0 6)
    wfmt := (wf.map (·.2)).getD 0
    rnd := BitVec.ofNat 3 (fieldAt b 4 16 3)
    sat := fieldAt b 4 19 1 == 1
    root := BitVec.ofNat 32 root
    ok := d.toNat % 8 == 0 && fieldAt b 4 6 2 == 0 && fieldAt b 4 14 2 == 0 && fieldAt b 4 20 12 == 0 &&
      fieldAt b 12 0 32 == 0 && fieldAt b 16 0 64 == 0 && fieldAt b 24 0 64 == 0 && collEntry bf && collEntry wf &&
      rndOk (fieldAt b 4 16 3) && decide (buf.toNat < 2 ^ 57) &&
      (if op == .broadcast then decide (root < l.group.nrank) else root == 0) &&
      !(decide (twinBase < buf.toNat + len) && decide (buf.toNat < twinBase + 2 ^ 54) && len != 0)
    data := [] }

/-- R214: whether what two ranks exchanged is the same. -/
def collAgree (a b : CollPeer) : Bool :=
  a.count == b.count && a.op == b.op && a.red == b.red && a.bfmtCode == b.bfmtCode && a.wfmtCode == b.wfmtCode &&
  a.rnd == b.rnd && a.sat == b.sat && a.root == b.root && a.wfmt == b.wfmt

/-- R214: sum, with an exact zero of the sign that the rounding gives, or the larger or smaller with NaN winning; of two zeros
of unlike sign either (log 6). -/
def collFold (red rnd tick : Nat) (a b : Num) : Num :=
  match red with
  | 0 => a.add (rnd == 4) b
  | n =>
    if a.isNan || b.isNan then .nan false
    else match a.cmp b with
      | .eq => Config.pick tick a b
      | .lt => if n = 1 then b else a
      | .gt => if n = 1 then a else b

/-- What a rank holds in its buffer as codes: this rank's own, or what a joined rank brought. -/
def ringData (own : List Nat) (g : Group) (joined : List CollPeer) (pos i : Nat) : Nat :=
  let r := ringRank g pos
  if r = g.rank then own.getD i 0
  else ((joined.find? (·.rank == r)).map fun c => (c.data.getD i 0).toNat).getD 0

/-- The drawn word of the step at a position: this rank draws from its program's generator, another rank's word is free. -/
def ringDraw (p : Prog) (tick rnd : Nat) (g : Group) (pos i : Nat) : Word :=
  if rnd ≠ 6 then 0
  else if ringRank g pos = g.rank then drawWord p.gen i else Config.freeWord (tick + 65536 * i + pos)

/-- R214: the partial results of element i along the ring: rest steps from position q on. -/
def ringSteps (step : Nat → Num → Nat) (wf : Ent) (n : Nat) : (rest q code : Nat) → Nat
  | 0, _, code => code
  | rest + 1, q, code => ringSteps step wf n rest (q + 1) (step (q % n) (wf.decode code))

/-- R214: the wire code of element i of a buffer. -/
def wireCode (p : Prog) (tick : Nat) (g : Group) (own : CollPeer) (mine : List Nat) (joined : List CollPeer) (i : Nat) : Nat :=
  let n := g.nrank
  let bf := Ent.of own.bfmt
  let wf := Ent.of own.wfmt
  let c := chunkOf own.count n i
  let value (pos : Nat) : Num := bf.decode (ringData mine g joined pos i)
  let put (pos : Nat) (v : Num) : Nat := (wf.round own.rnd.toNat own.sat (ringDraw p tick own.rnd.toNat g pos i) v).1
  match own.op with
  | .allGather => put c (value c)
  | .broadcast => put own.root.toNat (value own.root.toNat)
  | _ =>
    ringSteps (fun pos v => put pos (collFold own.red.toNat own.rnd.toNat (tick + 65536 * i + pos) v (value pos))) wf n (n - 1) (c + 2)
      (put ((c + 1) % n) (value ((c + 1) % n)))

/-- The elements that this rank writes: all, or under reduce-scatter its own chunk; and those that it brings: all, under
all-gather its own chunk, and under broadcast all at the root and none elsewhere. -/
def ownChunk (own : CollPeer) (g : Group) : Nat × Nat := shareOf 0 own.count g.nrank (ringPlace g)
def collWrites (own : CollPeer) (g : Group) : Nat × Nat :=
  if own.op == .reduceScatter then ownChunk own g else (0, own.count)
def collReads (own : CollPeer) (g : Group) : Nat × Nat :=
  match own.op with
  | .allGather => ownChunk own g
  | .broadcast => if ringPlace g = own.root.toNat then (0, own.count) else (0, 0)
  | _ => (0, own.count)

/-- The bytes that hold elements lo to lo + len − 1 of w bits: the first, and how many. -/
def elemSpan (w : Nat) (r : Nat × Nat) : Nat × Nat :=
  if r.2 = 0 then (0, 0) else (r.1 * w / 8, rowBytes (r.1 + r.2) w - r.1 * w / 8)

/-- Code number i of a buffer of w-bit elements, in bytes that begin at byte first of it. -/
def spanCode (bs : List Byte) (first w i : Nat) : Nat :=
  bitsOf (ofBytes ((bs.drop (w * i / 8 - first)).take (w / 8 + 1))) (w * i % 8) w

/-- The bytes of a span in which elements lo and on take new codes; other bits stay. -/
def spanPut (old : List Byte) (first w lo : Nat) (codes : List Nat) : List Byte :=
  let off := lo * w - 8 * first
  let v := ofBytes old
  let top := off + codes.length * w
  toBytes (v % 2 ^ off + 2 ^ off * (codes.foldr (fun c n => c % 2 ^ w + 2 ^ w * n) 0) + 2 ^ top * (v / 2 ^ top)) old.length

/-- Payload bytes of chunk c on the wire. -/
def chunkBytes (own : CollPeer) (g : Group) (c : Nat) : Nat :=
  rowBytes (shareOf 0 own.count g.nrank (c % g.nrank)).2 (Ent.of own.wfmt).wid

/-- R214, R301: the payload bytes that this rank sends and receives as codes go round the ring: a reduction passes every chunk
through every position, from the one behind its own to its own, and what is written everywhere goes on from there to all
others (the model's choice of links, log 9). -/
def ringBytes (own : CollPeer) (g : Group) : Nat :=
  let n := g.nrank
  let q := ringPlace g
  let all := ((List.range n).map (chunkBytes own g)).sum
  let reduce := (all - chunkBytes own g (q + n - 1)) + (all - chunkBytes own g q)
  let spread := (all - chunkBytes own g q) + (all - chunkBytes own g (q + 1))
  let whole := rowBytes own.count (Ent.of own.wfmt).wid
  if n ≤ 1 then 0
  else match own.op with
    | .allReduce => reduce + spread
    | .reduceScatter => reduce
    | .allGather => spread
    | .broadcast => (if q = own.root.toNat then 0 else whole) + (if (q + 1) % n = own.root.toNat then 0 else whole)

/-- R214: every rank has joined. Where their descriptors and entries agree and every check passed, this rank's buffer takes
its results; else the program stops. seen are the sectors of which the command has already used the counts (R225). -/
def collFinish (s : State) (p : Prog) (l : Launch) (own : CollPeer) (joined : List CollPeer) (seen : List Nat) (buf : DWord) :
    Cmd (State × (Prog → Prog)) := do
  stopIf s (!own.ok || joined.any fun c => !c.ok || !collAgree own c) 0x22 0
  let bf := Ent.of own.bfmt
  let w := bf.wid
  let (lo, len) := collWrites own l.group
  let (from_, size) := elemSpan w (collReads own l.group)
  let (first, last) := elemSpan w (lo, len)
  let ask (r : Nat × Nat) : List LaneReq := engReqs (if r.2 = 0 then [] else [(buf + BitVec.ofNat 64 r.1, r.2)])
  let t ← engAccess s p true false seen (ask (from_, size)) (ask (first, last)) (some 64)
  let bytes := t.bytes.getD 0 []
  let (mlo, mlen) := collReads own l.group
  let mine := (List.range own.count).map fun i => if mlo ≤ i ∧ i < mlo + mlen then spanCode bytes from_ w i else 0
  let out := (List.range len).map fun i =>
    (bf.round 1 false 0 ((Ent.of own.wfmt).decode (wireCode p t.s.tick l.group own mine joined (lo + i)))).1
  let s := engPut (t.s.bump (65536 * (own.count + 1))) p t.writes fun s q _ =>
    spanPut (q.read s p.ctx) first w lo out
  let s := chargeFabric s (acctOf s p.launch) (ringBytes own l.group)
  .ok (s, fun p => (p.drew own.rnd.toNat own.count).onward)

/-- R214: whether another COLL of the group with the same tag has not completed on this rank. -/
def collBusy (s : State) (p : Prog) (l : Launch) (tag : Word) : Bool :=
  s.progs.any fun q => q.id != p.id && (match q.status with
    | .collective _ own _ _ => own.tag == tag && ((s.launch? q.launch).map fun k => k.group.group) == some l.group.group
    | _ => false)

/-- R214: COLL. Alone in its group it completes at once; else it is matched and waits for the other ranks. A broadcast whose
red field is not SUM is refused under R91, as R202 gives broadcast only SUM, and an all-gather with any red but 3 is accepted
(R90; the model's choice, log 26). -/
def collBody (i : Instr) (op : CollOp) (red : BitVec 2) (ea eb ec : BitVec 4) (s : State) (p : Prog) :
    Cmd (State × (Prog → Prog)) := do
  let buf := p.ereg ea
  let d := p.ereg ec
  let (b, t) ← engDesc s p true d 32
  match t.s.launch? p.launch with
  | none => .error (.wait [] [] [])
  | some l =>
    let own := collPart p l op red d buf (p.ereg eb).toNat b
    if collBusy t.s p l own.tag then .error (.wait [] [] [])
    else if l.group.nrank ≤ 1 then collFinish t.s p l own [] t.seen buf
    else .ok (t.s, fun p => { p with status := .collective i own [] t.seen, since := t.s.clock })
def execColl (op : CollOp) (red : BitVec 2) (ea eb ec : BitVec 4) (s : State) : Out :=
  runCommand (.coll op red ea eb ec) (· == .weav) (red != 3 && (op != .broadcast || red == 0))
    (collBody (.coll op red ea eb ec) op red ea eb ec) s

/-- The buffer of the COLL that a program is in. -/
def collBuffer (p : Prog) : Instr → DWord
  | .coll _ _ ea _ _ => p.ereg ea
  | _ => 0

/-- R214: another rank joins the collective that a program is in; with the last one it completes. While this rank's buffer does
not answer the last one has not joined yet. -/
def joinColl (n : Nat) (peer : CollPeer) (s : State) : State :=
  match s.prog? n with
  | none => s
  | some p =>
    match p.status, s.launch? p.launch with
    | .collective i own joined seen, some l =>
      if peer.tag != own.tag || decide (l.group.nrank ≤ peer.rank) || peer.rank == l.group.rank ||
          joined.any (·.rank == peer.rank) || p.saved then s
      else
        let joined := joined ++ [peer]
        if joined.length + 1 < l.group.nrank then
          s.mapProg n fun p => { p with status := .collective i own joined seen }
        else
          match collFinish s p l own joined seen (collBuffer p i) with
          | .ok (s, f) => s.mapProg n fun q => (f { q with table := p.table, held := [], asked := [] }).rests s
          | .error (.stop s sub a) => stopProg s n sub (low57 a)
          | .error (.wait _ links _) => s.mapProg n fun q => q.asks s links
    | _, _ => s
def execCollJoin (prog : Nat) (peer : CollPeer) (s : State) : Out := .next (joinColl prog peer s)

end Sys2Proof.Machine
end

