-- ==== Sys2Proof/Machine/System.lean ====
section
/-! DEFINITION. System words: ICINV (R259), CFLUSH (R171), BWSET (R215), TRET (R268), RQREL (R267), PGMAP (R255), TLBINV
(R254) and HARVEST (R258). -/

namespace Sys2Proof.Machine

/-- R259: whether a bench is one on which an ICINV from bench b at the given scope acts. -/
def icinvReaches (scope b bench : Nat) : Bool :=
  match scope with
  | 0 => bench == b
  | 1 => bench == b
  | 2 => dieOfBench bench == dieOfBench b
  | _ => true

/-- R259: drops the fetch lines that have a byte in a range, and the decoded operations, of any context, of the 4 KiB pages
that have one. -/
def dropFetch (reach : Nat → Bool) (va len : Nat) (s : State) : State :=
  let pages := unitsOf 4096 va len
  { s with
    fetched := s.fetched.filter fun f =>
      !(reach f.bench && decide (128 * f.line < va + len) && decide (va < 128 * f.line + 128))
    decoded := s.decoded.filter fun d => !(reach d.bench && pages.any fun p => (unitsOf 4096 d.va (4 * d.words.length)).contains p) }

/-- R259: ICINV. -/
def icinvBody (w : WAddr2) (q : Seat) : Done := .of do
  let a ← q.part (q.fr.pair w.a.toNat).uni
  let n ← q.part (q.fr.reg w.b.toNat).uni
  let b := ((q.g.place).map (·.bench)).getD 0
  .ok (.next (dropFetch (icinvReaches (scopeOf w.x) b) a.toNat (loOf n).toNat q.s) q.t)
def execIcinv (w : WAddr2) (s : State) : Out := runStrip (.icinv w) (icinvBody w) s

/-- The 4 KiB parts of the range of a U pair and a U length, below 2^57. -/
def rangePages (a : DWord) (n : Word) : List (Nat × Nat) :=
  let len := if a.toNat + n.toNat ≤ 2 ^ 57 then n.toNat else 2 ^ 57 - a.toNat
  splitPages (n.toNat / 4096 + 2) a.toNat len

/-- The lines of a target that one page's part touches, as line numbers of its memory. -/
def flushLines (pa : Nat) (p : Nat × Nat) : List Nat :=
  let lo := 128 * (p.1 / 128)
  unitsOf 128 (pa - (p.1 - lo)) (p.1 + p.2 - lo)

/-- R171: writes back the dirty lines of one page's part: the L1 copies to their home, and at SYSTEM scope the home's copies
to their backing memory. A page that is not readable, or not cacheable, as a twin page is not (R163), is skipped. -/
def flushPart (c : Nat) (priv system : Bool) (s : State) (p : Nat × Nat) : State :=
  let (r, s) := translate s c p.1 .read priv
  match r with
  | .ok (leaf, .device pa) =>
    if leafTwin leaf then s
    else if system then (flushLines pa p).foldl (fun s n => writeBackDevice n s) s
    else { s with device := s.device.recall fun o => (flushLines pa p).contains o.2 }
  | .ok (_, .tier pa) =>
    { s with tier :=
        if system then (flushLines pa p).foldl Ram.writeBack s.tier
        else s.tier.recall fun o => (flushLines pa p).contains o.2 }
  | _ => s

/-- R291: whether a write-back of one page's part to the second tier must wait for its port. -/
def flushWaits (c : Nat) (priv : Bool) (s : State) (p : Nat × Nat) : Bool :=
  match (translate s c p.1 .read priv).1 with
  | .ok (_, .tier pa) =>
    (match vget s.dev.ports (portOf pa) .up with
     | .retrain _ => true
     | _ => false) && s.tier.dirty.any fun d => (flushLines pa p).contains d.line
  | _ => false

/-- R171: CFLUSH. It changes no value that an agent reads; invalidating a line that has been written back changes none
either. While a port to which it has to write is retraining, it waits and the strip with it (R291). -/
def cflushBody (w : WAddr2) (q : Seat) : Done := .of do
  let a ← q.part (q.fr.pair w.a.toNat).uni
  let n ← q.part (q.fr.reg w.b.toNat).uni
  let parts := rangePages a (loOf n)
  let system := scopeOf w.x == 5
  if system && parts.any (flushWaits q.g.ctx q.t.priv q.s) then .ok (.waits q.s q.t .drain)
  else .ok (.next (parts.foldl (flushPart q.g.ctx q.t.priv system) q.s) q.t)

/-- The ranges of memory that CFLUSH writes (R171, R265). -/
def cflushSpots (w : WAddr2) (q : Seat) : List (Nat × Nat) :=
  match q.fr.pair w.a.toNat, q.fr.reg w.b.toNat with
  | .u a, .u n => rangePages a (loOf n)
  | _, _ => []
def execCflush (w : WAddr2) (s : State) : Out := runMem (.cflush w) (cflushSpots w) (cflushBody w) s
def execCflushInv (w : WAddr2) (s : State) : Out := runMem (.cflushInv w) (cflushSpots w) (cflushBody w) s

/-! BWSET. -/

/-- R215: each 4-bit weight clamped to its quota. -/
def clampWeights (v quota : Word) : Word :=
  BitVec.ofNat 32 ((List.range 5).foldl (fun n i =>
    let a := bitsOf v.toNat (4 * i) 4
    let b := bitsOf quota.toNat (4 * i) 4
    n + (if a ≤ b then a else b) * 2 ^ (4 * i)) 0)

/-- R215: BWSET. -/
def bwsetBody (w : WSrc) (put : Word → Ctx → Ctx) (q : Seat) : Done := .of do
  let v ← q.part (q.fr.reg w.a.toNat).uni
  refuseIf (bitsOf (loOf v).toNat 20 12 != 0) (plainTrap q.t 0x08)
  let s := q.s.mapCtx q.g.ctx (put (clampWeights (loOf v) q.x.cfg.quota))
  .ok (.next s (q.t.withFrame (q.fr.free w.la 32 w.a.toNat)))
def bwsetMemBody (w : WSrc) (q : Seat) : Done :=
  bwsetBody w (fun v x => { x with weights := vset x.weights (((q.g.place).map fun p => dieOfBench p.bench).getD 0) v }) q
def execBwsetMem (w : WSrc) (s : State) : Out := runStrip (.bwsetMem w) (bwsetMemBody w) s
def execBwsetLink (w : WSrc) (s : State) : Out :=
  runStrip (.bwsetLink w) (bwsetBody w fun v x => { x with linkWeight := v }) s

/-! TRET and RQREL. -/

/-- R268: TRET. It issues in supervisor mode, so no parked access stops it, S or not (R265), a new region begins after it
(R67), and single-step counts from the instruction it returns to (R269, log 14). -/
def tretBody (q : Seat) : Done := .gone (q.s.setStrip q.g.id (returnFromTrap q.coord q.t))
def execTret (st : Bool) (s : State) : Out := runStrip (.tret st) tretBody s

/-- R65: whether RQREL would write a v register in L form in a strip that has no register-cache lines. -/
def rqrelNoLines (fr : Frame) (t : Strip) : Bool :=
  fr.noLines && t.replay.any fun a => decide (0 < a.regs) && decide (a.dst < 64)

/-- R267: RQREL performs the entries in program order; what faults again stays in its entry. -/
def rqrelBody (q : Seat) : Done := .of do
  refuseIf (rqrelNoLines q.fr q.t) (plainTrap q.t 0x08)
  let (s, t, bad) := takeList (fun _ => false) q.s q.g { q.t with replay := [] }
    (q.t.replay.map fun a => { a with replayed := true })
  .ok (.next s { t with replay := bad })
def execRqrel (st : Bool) (s : State) : Out := runStrip (.rqrel st) rqrelBody s

/-! PGMAP, TLBINV and HARVEST. -/

/-- The address of the entry that acts at a level for va, where the walk reaches one through valid table entries (R255); none
where a table entry on its path reads as poison (log 39). -/
def slotFrom (s : State) (c va level : Nat) : (fuel node l : Nat) → (m : Bool) → Option Nat
  | 0, _, _, _ => none
  | fuel + 1, node, l0, m =>
    let l := if m then l0 - 1 else l0
    let at_ := node + 8 * (if m then bitsOf va (9 * l0 + 3) 18 else bitsOf va (9 * l0 + 12) 9)
    if l = level then some at_
    else if l < level then none
    else
      match entryRead s c at_ with
      | none => none
      | some e =>
        if !entryV e || entryReserved s e l va || entryLf e then none
        else slotFrom s c va level fuel (tableNext e * 4096) (l - 1) (tableM e)
def slotFor (s : State) (c : Nat) (root : DWord) (va level : Nat) : Option Nat :=
  if rootReserved root then none
  else slotFrom s c va level 6 (bitsOf root.toNat 12 28 * 4096) 4 (bitAt root.toNat 0)

/-- R255: PGMAP. An entry that reads as poison is left alone (log 39). -/
def pgmapBody (level : Nat) (w : WAddr2) (q : Seat) : Done := .of do
  let va ← q.part (q.fr.pair w.a.toNat).uni
  let e ← q.part (q.fr.pair w.b.toNat).uni
  refuseIf (decide (2 ^ 57 ≤ va.toNat) || !entryV e || !entryLf e || entryReserved q.s e level va.toNat) (plainTrap q.t 0x08)
  match (slotFor q.s q.g.ctx q.x.root va.toNat level).bind fun a => (entryRead q.s q.g.ctx a).map fun old => (a, old) with
  | some (a, old) =>
    if entryV old then .ok (.next q.s q.t)
    else
      let bs := toBytes e.toNat 8
      .ok (.next (noteWrote q.g.ctx bs (deviceWrite q.s q.g.ctx (some (acctOf q.s q.g.launch)) a bs)) q.t)
  | none => .ok (.next q.s q.t)
def execPgmapL0 (w : WAddr2) (s : State) : Out := runStrip (.pgmapL0 w) (pgmapBody 0 w) s
def execPgmapL1 (w : WAddr2) (s : State) : Out := runStrip (.pgmapL1 w) (pgmapBody 1 w) s

/-- What a TLBINV names: cached translations, walk-cache entries, and addresses of a context. -/
structure Named where
  tlb : TlbEntry → Bool
  walk : WalkEntry → Bool
  spot : Nat → Nat → Bool

/-- R254: drops the cached translations and the decoded operations that a TLBINV names, at every bench. Fetch lines stay,
which a later fetch may still use (R260). -/
def dropTranslations (n : Named) (s : State) : State :=
  { s with
    tlb := s.tlb.filter fun e => !n.tlb e
    walks := s.walks.filter fun e => !n.walk e
    decoded := s.decoded.filter fun d => !n.spot d.ctx d.va }

/-- R254: whether an access that was translated with an entry that a TLBINV names is still to be performed: one that waits at
a port or for a peer, or with a part that does. A twin access that waits at its home keeps its block. -/
def namedWaits (n : Named) (s : State) : Bool :=
  let named (c : Nat) (r : LaneReq) : Bool := r.held.any fun x => n.spot c x.va && !leafTwin x.leaf
  (s.gangs.any fun g => g.strips.any fun t => match t.wait with
    | .access l => l.any fun a => a.lanes.any (named g.ctx)
    | _ => false) || s.peerWaits.any fun w => w.lanes.any (named w.req.ctx)

/-- R254: TLBINV of what is named. A cached entry may be used until it completes (R253). -/
def tlbinvOf (n : Named) (q : Seat) : Done :=
  if namedWaits n q.s then .waits q.s q.t .drain else .next (dropTranslations n q.s) q.t

/-- The page of an address, and what a cached translation that holds it serves. -/
def namedPage (s : State) (c va : Nat) : Named :=
  let hit (e : TlbEntry) : Bool := e.ctx == c && decide (e.base ≤ va) && decide (va < e.base + e.size)
  Named.mk hit (fun e => e.ctx == c && e.top == va / 2 ^ e.shift)
    fun d a => d == c && (a / 4096 == va / 4096 ||
      s.tlb.any fun e => hit e && decide (e.base ≤ a) && decide (a < e.base + e.size))
def namedCtx (c : Nat) : Named := Named.mk (·.ctx == c) (·.ctx == c) fun d _ => d == c
def namedAll : Named := Named.mk (fun _ => true) (fun _ => true) fun _ _ => true

/-- R254: TLBINV. -/
def tlbinvBody (w : WAddr) (q : Seat) : Done := .of do
  let va ← q.part (q.fr.pair w.a.toNat).uni
  .ok (tlbinvOf (namedPage q.s q.g.ctx va.toNat) q)
def execTlbinv (w : WAddr) (s : State) : Out := runStrip (.tlbinv w) (tlbinvBody w) s
def tlbinvCtxBody (q : Seat) : Done := tlbinvOf (namedCtx q.g.ctx) q
def execTlbinvCtx (st : Bool) (x : Option XWord) (s : State) : Out := runStrip (.tlbinvCtx st x) tlbinvCtxBody s
def tlbinvAllBody (q : Seat) : Done := tlbinvOf namedAll q
def execTlbinvAll (st : Bool) (x : Option XWord) (s : State) : Out := runStrip (.tlbinvAll st x) tlbinvAllBody s

/-- The frames that a leaf covers for an address, in units of 4 KiB of its target's physical address. -/
def leafFrames (e : DWord) (l va : Nat) : List Nat :=
  if l = 0 then [frameFor e va] else (List.range 512).map (leafFrame e + ·)

/-- R258: one page of a HARVEST, for an account. -/
def harvestPage (c acct : Nat) (root : DWord) (s : State) (p : Nat × Nat) : State :=
  match (walkFresh s c root p.1).1 with
  | .leaf e l =>
    let frames := leafFrames e l p.1
    let ram := if leafTgt e = 0 then s.device else s.tier
    if leafTgt e ≤ 1 && frames.any ram.marks.contains then
      let rest (r : Ram) : Ram := { r with marks := r.marks.filter fun f => !frames.contains f }
      let s := if leafTgt e = 0 then { s with device := rest s.device } else { s with tier := rest s.tier }
      match slotFor s c root p.1 l with
      | some a => deviceWrite s c (some acct) a (toBytes (e ||| ((1 : DWord) <<< 10)).toNat 8)
      | none => s
    else s
  | .fault _ _ => s

/-- R258: HARVEST. -/
def harvestBody (w : WAddr2) (q : Seat) : Done := .of do
  let va ← q.part (q.fr.pair w.a.toNat).uni
  let n ← q.part (q.fr.reg w.b.toNat).uni
  .ok (.next ((rangePages va (loOf n)).foldl (harvestPage q.g.ctx (acctOf q.s q.g.launch) q.x.root) q.s) q.t)
def execHarvest (w : WAddr2) (s : State) : Out := runStrip (.harvest w) (harvestBody w) s

end Sys2Proof.Machine
end

