-- ==== Sys2Proof/Machine/Matrix.lean ====
section
/-! DEFINITION. Matrix commands of engine programs: TMMA on the mill (R118, R212) and SMV on a stack mill (R175, R213). -/

namespace Sys2Proof.Machine

/-- An operand matrix in memory: its rows' bytes, and the rows of its scales. -/
structure Matrix where
  ent : Ent
  rows : List (List Byte)
  scales : List (List Byte)

/-- Element k of operand row i; with t the operand is stored with rows and columns exchanged. -/
def Matrix.at_ (table : Vector DWord 48) (m : Matrix) (t : Bool) (i k : Nat) : Num :=
  operandNum table m.ent
    (fun i k => if t then rowCode (m.rows.getD k []) m.ent.wid i else rowCode (m.rows.getD i []) m.ent.wid k)
    (fun i j => scaleCode table m.ent (m.scales.getD i []) j) i k

/-- The rows at a stride: n rows of k elements, or with t k rows of n elements, and none where either is 0. -/
def operandRows (f : Ent) (base stride : DWord) (t : Bool) (n k : Nat) : List (DWord × Nat) :=
  if n = 0 || k = 0 then []
  else if t then (List.range k).map fun i => (rowAt base stride i, rowBytes n f.wid)
  else (List.range n).map fun i => (rowAt base stride i, rowBytes k f.wid)

/-! TMMA. -/

/-- The fields of TMMA's descriptor (R212). -/
structure Mul where
  a : DWord
  b : DWord
  c : DWord
  lda : DWord
  ldb : DWord
  ldc : DWord
  af : Option (Nat × DWord)
  bf : Option (Nat × DWord)
  cf : Option (Nat × DWord)
  rnd : Nat
  sat : Bool
  ta : Bool
  tb : Bool

def mulOf (p : Prog) (b : List Byte) : Mul where
  a := dwordAt b 0
  b := dwordAt b 8
  c := dwordAt b 0x10
  lda := dwordAt b 0x18
  ldb := dwordAt b 0x20
  ldc := dwordAt b 0x28
  af := engEntry p (fieldAt b 0x30 0 6)
  bf := engEntry p (fieldAt b 0x30 8 6)
  cf := engEntry p (fieldAt b 0x30 16 6)
  rnd := fieldAt b 0x30 22 3
  sat := fieldAt b 0x30 25 1 == 1
  ta := fieldAt b 0x30 26 1 == 1
  tb := fieldAt b 0x30 27 1 == 1

/-- R107, R212, R370: TMMA's checks. -/
def mulOk (b : List Byte) (k : Mul) (m n d : Nat) : Bool :=
  let af := entOf k.af
  let bf := entOf k.bf
  let cf := entOf k.cf
  fieldAt b 0x30 6 2 == 0 && fieldAt b 0x30 14 2 == 0 && fieldAt b 0x30 28 4 == 0 &&
  fieldAt b 0x34 0 32 == 0 && fieldAt b 0x38 0 64 == 0 &&
  decide (m < 2 ^ 32) && decide (n < 2 ^ 32) && decide (d < 2 ^ 32) &&
  k.af.isSome && k.bf.isSome && k.cf.isSome && millAccepts af bf && cf.blk == 0 && rndOk k.rnd &&
  packs (if k.ta then m else d) af.wid && packs (if k.tb then d else n) bf.wid && packs n cf.wid

/-- R117, R212: one element of C, its products padded with zeros to a whole number of MMAs. -/
def mulElement (k d start : Nat) (a b : Nat → Num) : Nat :=
  let ch := if k < 32 then k else 32
  let pair (j : Nat) : Num × Num := if j < d then (a j, b j) else (.fin false 0 0, .fin false 0 0)
  (millGo pair ch ((d + k - 1) / k * k / ch) 0 start 0).1

/-- R212: TMMA. B is K × N, and with TB stored N × K. -/
def tmmaBody (ovw : Bool) (w : WEng) (s : State) (p : Prog) : Cmd (State × (Prog → Prog)) := do
  let desc := p.ereg w.ea
  let m := (p.ereg w.eb).toNat
  let n := (p.ereg w.ec).toNat
  let d := (p.ereg w.ed).toNat
  let (b, t) ← engDesc s p true desc 64
  let k := mulOf p b
  checkAll t.s [k.a, k.b, k.c] (desc.toNat % 8 == 0 && mulOk b k m n d)
  let af := entOf k.af
  let bf := entOf k.bf
  let cf := entOf k.cf
  let table := p.table
  if m = 0 || n = 0 then .ok (t.s, Prog.onward)
  else
    let ra := operandRows af k.a k.lda k.ta m d
    let sa := scaleRows table af k.a k.lda d m
    let rb := operandRows bf k.b k.ldb (!k.tb) n d
    let sb := scaleRows table bf k.b k.ldb d n
    let rc := operandRows cf k.c k.ldc false m n
    let t ← engAccess t.s p true false t.seen (engReqs (ra ++ sa ++ rb ++ sb ++ if ovw then [] else rc)) (engReqs rc) (k.cf.map (·.1))
    let part (off len : Nat) : List (List Byte) := (t.bytes.drop off).take len
    let ma := Matrix.mk af (part 0 ra.length) (part ra.length sa.length)
    let o := ra.length + sa.length
    let mb := Matrix.mk bf (part o rb.length) (part (o + rb.length) sb.length)
    let old := t.bytes.drop (o + rb.length + sb.length)
    let rows := (List.range m).map fun i =>
      packRow cf.wid ((List.range n).map fun j =>
        let start := if ovw then 0
          else (Ent.acc.round 1 false 0 (cf.decode (rowCode (old.getD i []) cf.wid j))).1
        let acc := mulElement (depthOf af.wid af.blk) d start (ma.at_ table k.ta i) (mb.at_ table (!k.tb) j)
        (cf.round k.rnd k.sat (engDraw p k.rnd (i * n + j)) (Ent.acc.decode acc)).1)
    let s := engRows t.s p t.writes (engReqs rc |>.zip rows |>.map fun (r, x) => { r with data := x })
    let s := charge s (acctOf s p.launch) fun x => { x with macs := x.macs + BitVec.ofNat 64 (m * n * d) }
    .ok (s, fun p => (p.drew k.rnd (m * n)).onward)
def execTmma (ovw : Bool) (w : WEng) (s : State) : Out := runCommand (.tmma ovw w) (· == .mill) true (tmmaBody ovw w) s

/-! SMV. -/

/-- The fields of SMV's descriptor (R213). -/
structure Smv where
  rows : Nat
  cols : Nat
  ncol : Nat
  bf : Option (Nat × DWord)
  af : Option (Nat × DWord)
  yf : Option (Nat × DWord)
  rnd : Nat
  sat : Bool
  ldb : DWord
  lda : DWord
  ldy : DWord

def smvOf (p : Prog) (b : List Byte) : Smv where
  rows := fieldAt b 0 0 32
  cols := fieldAt b 4 0 32
  ncol := fieldAt b 8 0 5
  bf := engEntry p (fieldAt b 8 8 6)
  af := engEntry p (fieldAt b 8 16 6)
  yf := engEntry p (fieldAt b 8 24 6)
  rnd := fieldAt b 12 0 3
  sat := fieldAt b 12 3 1 == 1
  ldb := dwordAt b 0x10
  lda := dwordAt b 0x18
  ldy := dwordAt b 0x20

/-- R213, R370: SMV's checks. -/
def smvOk (b : List Byte) (k : Smv) (wide : Bool) : Bool :=
  let bf := entOf k.bf
  let af := entOf k.af
  let yf := entOf k.yf
  fieldAt b 8 5 3 == 0 && fieldAt b 8 14 2 == 0 && fieldAt b 8 22 2 == 0 && fieldAt b 8 30 2 == 0 &&
  fieldAt b 12 4 28 == 0 && fieldAt b 0x28 0 64 == 0 &&
  decide (1 ≤ k.ncol) && decide (k.ncol ≤ 16) && k.bf.isSome && k.af.isSome && k.yf.isSome && rndOk k.rnd &&
  (if wide then bf.wid == 12 || bf.wid == 16 else bf.wid == 4 || bf.wid == 6 || bf.wid == 8) &&
  af.wid != 64 && af.blk == 0 && yf.wid != 64 && yf.blk == 0 &&
  packs k.cols bf.wid && packs k.cols af.wid && packs k.rows yf.wid

/-- R175, R213: whether a part of B lies outside a stack. -/
def outsideStack (n : Nat) (q : Plan) : Bool :=
  q.segs.any fun g => match g.tgt with
    | .device pa => pa / 2 ^ 36 != n || (pa + g.len - 1) / 2 ^ 36 != n
    | _ => true

/-- R213: every byte of B is translated before any is read. -/
def smvPlace (s : State) (p : Prog) (ranges : List (DWord × Nat)) : Cmd Unit := do
  let (ps, s) := planAll s p.ctx .read p.priv false (engReqs ranges)
  match lowestFault ps with
  | some (c, a) => .error (.stop s c a)
  | none => stopIf s (ps.any (outsideStack p.unit_)) 0x22 0

/-- R117, R213: one element of Y, from +0, over k ascending in chunks of 32. -/
def smvElement (d : Nat) (a b : Nat → Num) : Nat :=
  ((List.range ((d + 31) / 32)).foldl (fun acc c =>
    (millChunk acc ((List.range (if d < 32 * c + 32 then d - 32 * c else 32)).map fun j => (b (32 * c + j), a (32 * c + j)))).1) 0)

/-- R213: SMV. Of the second tier it reads nothing (R174). -/
def smvBody (wide : Bool) (w : WEng) (s : State) (p : Prog) : Cmd (State × (Prog → Prog)) := do
  let desc := p.ereg w.ea
  let aa := p.ereg w.eb
  let ba := p.ereg w.ec
  let ya := p.ereg w.ed
  let (b, t) ← engDesc s p true desc 48
  let k := smvOf p b
  checkAll t.s [aa, ba, ya] (desc.toNat % 8 == 0 && smvOk b k wide)
  let bf := entOf k.bf
  let af := entOf k.af
  let yf := entOf k.yf
  let table := p.table
  let rb := operandRows bf ba k.ldb false k.rows k.cols
  let sb := scaleRows table bf ba k.ldb k.cols k.rows
  smvPlace t.s p (rb ++ sb)
  let ra := operandRows af aa k.lda false k.ncol k.cols
  let ry := operandRows yf ya k.ldy false k.ncol k.rows
  let t ← engAccess t.s p true false t.seen (engReqs (rb ++ sb ++ ra)) (engReqs ry) (k.yf.map (·.1))
  let mb := Matrix.mk bf (t.bytes.take rb.length) ((t.bytes.drop rb.length).take sb.length)
  let ma := Matrix.mk af (t.bytes.drop (rb.length + sb.length)) []
  let cols := (List.range k.ncol).map fun c =>
    packRow yf.wid ((List.range k.rows).map fun r =>
      (yf.round k.rnd k.sat (engDraw p k.rnd (c * k.rows + r))
        (Ent.acc.decode (smvElement k.cols (ma.at_ table false c) (mb.at_ table false r)))).1)
  let s := engRows t.s p t.writes (engReqs ry |>.zip cols |>.map fun (r, x) => { r with data := x })
  let s := charge s (acctOf s p.launch) fun x => { x with macs := x.macs + BitVec.ofNat 64 (k.rows * k.cols * k.ncol) }
  .ok (s, fun p => (p.drew k.rnd (k.ncol * k.rows)).onward)

def execSmv (wide : Bool) (w : WEng) (s : State) : Out := runCommand (.smv wide w) onStack true (smvBody wide w) s

end Sys2Proof.Machine
end

