-- ==== Sys2Proof/Machine/Control.lean ====
section
/-! DEFINITION. Control flow in strips and spans: BRA (R128, R131, R317), JOIN (R130, R132, R342), CALL and RET (R319), JMPI
(R341), EXIT (R129, R133, R325), ELECT and ELEND (R134, R324), NOP (R350) and TRAP (R269). -/

namespace Sys2Proof.Machine

/-- An address so many words from pc. -/
def wordsFrom (pc : DWord) (off : DWord) : DWord := pc + 4 * off

/-- A precise ILLEGAL_CONVERGENCE where a condition holds. -/
def Seat.diverges (q : Seat) (bad : Bool) : Except TrapInfo Unit := refuseIf bad (plainTrap q.t 0x0C)

/-- A turn of a span that may go on. -/
def spanTurn (s : State) (n : Nat) (f : Span → Launch → Ctx → State) : State :=
  match s.span? n with
  | none => s
  | some p =>
    match s.launch? p.launch, s.ctx? p.ctx with
    | some l, some x => if p.waiting || x.fatal.isSome || s.dev.fatal || s.dev.stopped then s else f p l x
    | _, _ => s

/-- A box's interval on an axis, and the box with another one. -/
def Box.lowOn (b : Box) : Axis → Nat
  | .x => b.ox | .y => b.oy | .z => b.oz
def Box.lenOn (b : Box) : Axis → Nat
  | .x => b.ex | .y => b.ey | .z => b.ez
def Box.withOn (b : Box) (ax : Axis) (lo len : Nat) : Box :=
  match ax with
  | .x => { b with ox := lo, ex := len }
  | .y => { b with oy := lo, ey := len }
  | .z => { b with oz := lo, ez := len }

/-- How an interval of an axis divides a box: all outside, all inside, two boxes (the inner and the outer one), or a part
strictly inside (R128, R129). -/
inductive Cut where
  | outside
  | inside
  | boxes (inner outer : Box)
  | strict (inner : Box)
def Box.cut (b : Box) (ax : Axis) (lo hi : Nat) : Cut :=
  let o := b.lowOn ax
  let e := o + b.lenOn ax
  let l := if lo < o then o else lo
  let h := if hi < e then hi else e
  if h ≤ l then .outside
  else if l = o ∧ h = e then .inside
  else if l = o then .boxes (b.withOn ax o (h - o)) (b.withOn ax h (e - h))
  else if h = e then .boxes (b.withOn ax l (e - l)) (b.withOn ax o (l - o))
  else .strict (b.withOn ax l (h - l))

/-! BRA. -/

/-- The lanes that take a branch (R87). -/
def takenLanes (q : Seat) (p : BitVec 5) (neg : Bool) : Mask :=
  if p == 31 && neg then q.fr.active
  else q.fr.active &&& maskOf fun l => predLane q.coord (vget q.fr.preds p.toNat (.u false)) l != neg

/-- R131, R317: BRA in a strip. -/
def braBody (p : BitVec 5) (neg : Bool) (off : BitVec 16) (lit : Option Word) (q : Seat) : Done := .of do
  let t := q.t
  let target := wordsFrom t.pc (off.signExtend 64)
  let yes := takenLanes q p neg
  let no := q.fr.active &&& ~~~yes
  if no = 0 then .ok (.moved q.s { t with pc := target })
  else if yes = 0 then .ok (.moved q.s { t with pc := q.pcNext })
  else
    match lit with
    | none => .error (plainTrap t 0x0B)
    | some w =>
      let j := wordsFrom t.pc (w.signExtend 64)
      let one := target == j
      q.diverges (decide (t.stack.length + (if one then 1 else 2) > 32))
      let stack := StackEntry.mk j t.active t.fmt t.mode :: t.stack
      .ok (.moved q.s { t with
        stack := if one then stack else StackEntry.mk (target + 1) yes t.fmt t.mode :: stack
        active := no
        pc := q.pcNext })

/-- R128: a span splits into the taken and the other items; each keeps a copy of the span's state and pushes the entry. -/
def splitSpan (s : State) (p : Span) (taken other : Box) (target next j : DWord) : State :=
  let joins := JoinEntry.mk j s.nextId :: p.joins
  let a := { p with id := s.nextId + 1, box := taken, pc := target, joins := joins }
  let b := { p with box := other, pc := next, joins := joins }
  { s with
    spans := s.spans.flatMap fun x => if x.id == p.id then [a, b] else [x]
    nextId := s.nextId + 2 }

/-- R125, R128: BRA in a span. -/
def braSpan (p : BitVec 5) (neg : Bool) (off : BitVec 16) (lit : Option Word) (size : Nat) (s : State) (n : Nat) : State :=
  spanTurn s n fun sp _ _ =>
    let target := wordsFrom sp.pc (off.signExtend 64)
    let next := sp.pc + BitVec.ofNat 64 size
    let move (b : Bool) : State := s.mapSpan n fun x => { x with pc := if b then target else next }
    if p == 31 && neg then move true
    else
      match vget sp.preds p.toNat (.u false) with
      | .u b => move (b != neg)
      | .l _ => dealOut s sp
      | .range ax lo hi =>
        match sp.box.cut ax lo hi with
        | .outside => move neg
        | .inside => move (!neg)
        | .strict _ => dealOut s sp
        | .boxes inner outer =>
          match lit with
          | none => dealOut s sp
          | some w =>
            if sp.joins.length + 1 > 32 then dealOut s sp
            else
              splitSpan s sp (if neg then outer else inner) (if neg then inner else outer) target next
                (wordsFrom sp.pc (w.signExtend 64))

def execBra (st : Bool) (p : BitVec 5) (neg : Bool) (off : BitVec 16) (lit : Option Word) (s : State) : Out :=
  runBoth (.bra st p neg off lit) (braSpan p neg off lit (Instr.bra st p neg off lit).size) (braBody p neg off lit) s

/-! JOIN. -/

/-- Whether the top entry of the stack may be popped: in an ELECT region it was pushed after the ELECT (R324). -/
def Strip.ownTop (t : Strip) : Bool :=
  match t.elect with
  | some (_, d) => decide (d < t.stack.length)
  | none => true

/-- R132: JOIN in a strip. -/
def joinBody (q : Seat) : Done :=
  let t := q.t
  let plain := Done.moved q.s { t with pc := t.pc + 4 }
  match t.stack with
  | [] => plain
  | e :: rest =>
    let back (pc : DWord) : Done :=
      .moved q.s { t with stack := rest, pc := pc, active := e.mask &&& t.live, fmt := e.fmt, mode := e.mode }
    if !t.ownTop then plain
    else if e.pc.getLsbD 0 then back (e.pc - 1)
    else if e.pc = t.pc then back (t.pc + 4)
    else plain

/-- R130: a span that reaches the JOIN of its top entry waits there; the group goes on with SPAN_JOIN. -/
def joinSpan (s : State) (n : Nat) : State :=
  spanTurn s n fun sp _ _ =>
    match sp.joins with
    | e :: _ => if e.pc = sp.pc then s.mapSpan n fun x => { x with waiting := true }
      else s.mapSpan n fun x => { x with pc := x.pc + 4 }
    | [] => s.mapSpan n fun x => { x with pc := x.pc + 4 }

def execJoin (st : Bool) (s : State) : Out := runBoth (.join st) joinSpan joinBody s

/-! CALL, RET and JMPI. -/

/-- R319: CALL. -/
def callBody (off : BitVec 16) (lit : Option Word) (q : Seat) : Done := .of do
  let t := q.t
  q.diverges (decide (t.stack.length + 1 > 32))
  .ok (.moved q.s { t with
    stack := StackEntry.mk (q.pcNext + 2) t.active t.fmt t.mode :: t.stack
    pc := match lit with
      | some w => wordsFrom t.pc (w.signExtend 64)
      | none => wordsFrom t.pc (off.signExtend 64) })
def execCall (st : Bool) (off : BitVec 16) (lit : Option Word) (s : State) : Out :=
  runStrip (.call st off lit) (callBody off lit) s

/-- R319, R357: RET; FMT and MODE stay. -/
def retBody (q : Seat) : Done :=
  let t := q.t
  match t.stack with
  | e :: rest =>
    if t.ownTop && e.pc.extractLsb' 0 2 == 2 then
      .moved q.s { t with stack := rest, active := e.mask &&& t.live, pc := e.pc - 2 }
    else .trap (plainTrap t 0x0C)
  | [] => .trap (plainTrap t 0x0C)
def execRet (st : Bool) (s : State) : Out := runStrip (.ret st) retBody s

/-- R341: JMPI. -/
def jmpiBody (w : WSrc) (q : Seat) : Done := .of do
  let a ← q.part (q.fr.pair w.a.toNat).uni
  refuseIf (a.toNat % 4 != 0) (addrTrap q.t 0x0D ((lanesOf q.t.active).map fun l => (l, a)))
  .ok (.moved q.s { q.t.withFrame (q.fr.free w.la 64 w.a.toNat) with pc := a })
def execJmpi (w : WSrc) (s : State) : Out := runStrip (.jmpi w) (jmpiBody w) s

/-! EXIT. -/

/-- R133, R325: the lanes leave the strip; a strip without lanes retires, and its gang with its last strip (R198). -/
def exitBody (q : Seat) : Done := .of do
  refuseIf q.t.priv (plainTrap q.t 0x08)
  q.diverges q.t.elect.isSome
  let t := landAll q.coord q.t
  let gone := q.fr.active
  let t := { t with live := t.live &&& ~~~gone, active := t.active &&& ~~~gone, pc := q.pcNext }
  let t := popUntilActive (t.stack.length + 1) t
  if t.retired then .ok (.gone (retireGang (q.s.setStrip q.g.id t) q.g.id)) else .ok (.moved q.s t)

/-- R129: EXIT in a span retires its items, or those that its guard holds for where the rest are a box. -/
def exitSpan (x : Option XWord) (size : Nat) (s : State) (n : Nat) : State :=
  spanTurn s n fun sp l c =>
    let f := formOf (widthOf c.fmtTable sp.fmt) l.hdr.acc (.exit false x)
    let next (b : Box) : State := s.mapSpan n fun p => { p with box := b, pc := p.pc + BitVec.ofNat 64 size }
    let ends : State := { s with spans := s.spans.filter (·.id != n) }
    if !f.legal then dealOut s sp
    else
      match x with
      | none => ends
      | some m =>
        if !m.ge then ends
        else
          match vget sp.preds m.gp.toNat (.u false) with
          | .u b => if b != m.gn then ends else next sp.box
          | .l _ => dealOut s sp
          | .range ax lo hi =>
            match sp.box.cut ax lo hi with
            | .outside => if m.gn then ends else next sp.box
            | .inside => if m.gn then next sp.box else ends
            | .strict inner => if m.gn then next inner else dealOut s sp
            | .boxes inner outer => next (if m.gn then inner else outer)

def execExit (st : Bool) (x : Option XWord) (s : State) : Out :=
  runBoth (.exit st x) (exitSpan x (Instr.exit st x).size) exitBody s

/-! ELECT, ELEND, NOP, TRAP. -/

/-- R134, R324: ELECT. -/
def electBody (q : Seat) : Done := .of do
  q.diverges q.t.elect.isSome
  .ok (.next q.s { q.t with elect := some (q.t.active, q.t.stack.length), active := lowestLane q.t.active })
def execElect (st : Bool) (s : State) : Out := runStrip (.elect st) electBody s

/-- R134, R324: ELEND. -/
def elendBody (q : Seat) : Done :=
  match q.t.elect with
  | some (m, _) => .next q.s { q.t with elect := none, active := m &&& q.t.live }
  | none => .trap (plainTrap q.t 0x0C)
def execElend (st : Bool) (s : State) : Out := runStrip (.elend st) elendBody s

/-- R350: NOP. -/
def execNop (st : Bool) (s : State) : Out := runAlu (.nop st) (fun _ fr => .ok fr) s

/-- R269: TRAP raises SW_TRAP after it has executed, with its code in k14. -/
def trapBody (imm : BitVec 10) (lit : Option Word) (q : Seat) : Done :=
  .after q.s q.t
    { plainTrap q.t 0x30 with kset := [(14, lit.getD (imm.signExtend 32))] }
def execTrap (st : Bool) (imm : BitVec 10) (lit : Option Word) (s : State) : Out :=
  runStrip (.trap st imm lit) (trapBody imm lit) s

end Sys2Proof.Machine
end

