-- ==== Sys2Proof/Machine/Launching.lean ====
section
/-! DEFINITION. How a ready node becomes a launch (R147): the kernel header (R69, R70), the process group (R141, R142), the
box (R121 to R123), the fit of a CORES launch (R17, R140), and a launch's end (R133, R147). -/

namespace Sys2Proof.Machine

/-! The kernel header. -/

/-- Little-endian n bytes at an offset of a list of bytes. -/
def natAt (b : List Byte) (off n : Nat) : Nat := ofBytes ((b.drop off).take n)

/-- The header in its 80 bytes and its presets (R69). -/
def headerOf (b pre : List Byte) : Header where
  w16 := bitAt (natAt b 0 4) 8
  cores := bitAt (natAt b 0 4) 9
  nfw := bitAt (natAt b 0 4) 10
  regs := bitsOf (natAt b 4 4) 0 7
  acc := bitsOf (natAt b 4 4) 8 5
  stages := bitsOf (natAt b 4 4) 16 4
  scratch := natAt b 8 4
  gx := natAt b 12 2
  gy := natAt b 14 2
  gz := natAt b 16 2
  entries := (List.range 8).map fun i => BitVec.ofNat 32 (natAt b (0x18 + 4 * i) 4)
  depths := (List.range 8).map fun i => if natAt b (0x38 + 2 * i) 2 = 0 then 64 else natAt b (0x38 + 2 * i) 2
  presets := (List.range (bitsOf (natAt b 16 4) 16 6)).map fun i =>
    (natAt pre (16 * i) 1, BitVec.ofNat 64 (natAt pre (16 * i + 8) 8))

/-- The bytes of SRAM that a gang can have, in all (R17). -/
def scratchTotal : Nat := 448 * 1024

/-- The stages whose entry the header declares: a non-zero multiple of 4 for each, 0 for the others (R70). -/
def entriesOk (b : List Byte) (stages : Nat) : Bool :=
  (List.range 8).all fun i =>
    let e := natAt b (0x18 + 4 * i) 4
    if i < stages then e != 0 && e % 4 == 0 else e == 0

/-- R70: whether a header's fields are such that the launch may start. A preset is checked in the table with all presets in it;
entries that no preset names are not checked, though one whose scale is a preset entry may become inconsistent (R70 and R337 do
not say; the model's choice, log 42). -/
def headerOk (table : Vector DWord 48) (b pre : List Byte) (h : Header) : Bool :=
  natAt b 0 1 == 4 && bitsOf (natAt b 0 4) 11 21 == 0 &&
  bitsOf (natAt b 4 4) 7 1 == 0 && bitsOf (natAt b 4 4) 13 3 == 0 && bitsOf (natAt b 4 4) 20 12 == 0 &&
  bitsOf (natAt b 16 4) 22 10 == 0 && natAt b 0x14 4 == 0 && natAt b 0x48 8 == 0 &&
  decide (h.regs ≤ 64) && decide (h.acc ≤ 16) && decide (1 ≤ h.stages) && decide (h.stages ≤ 8) &&
  decide (h.scratch ≤ scratchTotal) && decide (1 ≤ h.gx) && decide (1 ≤ h.gy) && decide (1 ≤ h.gz) &&
  decide (h.gx * h.gy * h.gz ≤ 1024) && entriesOk b h.stages && h.depths.all (fun d => decide (d ≤ 4096)) &&
  decide (h.presets.length ≤ 32) &&
  (List.range h.presets.length).all (fun i => natAt pre (16 * i + 1) 7 == 0) &&
  h.presets.all (fun p => decide (16 ≤ p.1) && decide (p.1 ≤ 47) && (h.presets.filter (·.1 == p.1)).length == 1) &&
  (let after := h.presets.foldl (fun t p => vset t p.1 p.2) table
   h.presets.all fun p => consistent after p.1 p.2)

/-- R70, R371: reads and checks the header at an address, the first two of a start's reads; none where the launch fails with bad
header. -/
def readHeader (asked : Asked) (acct : Nat) (s : State) (c : Nat) (addr : DWord) (table : Vector DWord 48) :
    Reach (Option Header) × State :=
  if addr.toNat % 8 ≠ 0 then (.got none, s)
  else
    match cpRead asked 0 (fun _ => acct) s c addr 80 with
    | (.refused, s) => (.got none, s)
    | (.waits keys, s) => (.waits keys, s)
    | (.got b, s) =>
      match cpRead asked 1 (fun _ => acct) s c (addr + 0x50) (16 * bitsOf (natAt b 16 4) 16 6) with
      | (.refused, s) => (.got none, s)
      | (.waits keys, s) => (.waits keys, s)
      | (.got pre, s) =>
        let h := headerOf b pre
        (.got (if headerOk table b pre h then some h else none), s)

/-! The process group. -/

/-- A node without a table: rank 0 of one (R142). -/
def Group.alone : Group := Group.mk 0 1 0 [(0, 0, 0)]

/-- The ranks that NEXT visits from rank 0 in n steps. -/
def ringFrom (links : List (DWord × Nat × Nat)) : (n k : Nat) → List Nat
  | 0, _ => []
  | n + 1, k => k :: ringFrom links n (((links[k]?).map (·.2.2)).getD 0)

/-- R142: whether PREV and NEXT join the ranks into one ring. -/
def ringOk (links : List (DWord × Nat × Nat)) : Bool :=
  let n := links.length
  links.all (fun l => decide (l.2.1 < n) && decide (l.2.2 < n)) &&
  (nub (ringFrom links n 0) []).length == n && (ringFrom links (n + 1) 0).getLast? == some 0 &&
  links.zipIdx.all fun (l, k) => ((links[l.2.2]?).map (·.2.1)) == some k

/-- R141, R142: the group that a table's first 32 bytes h and its n entries in b describe, if it is a good one. -/
def groupOf? (s : State) (h b : List Byte) (n : Nat) : Option Group :=
  let links := (List.range n).map fun k =>
    (BitVec.ofNat 64 (natAt b (32 * k) 8), natAt b (32 * k + 8) 4, natAt b (32 * k + 12) 4)
  match (List.range n).filter fun k => ((links[k]?).map (·.1)) == some s.dev.devid with
  | [k] =>
    if (List.range n).all (fun k => natAt b (32 * k + 16) 16 == 0) && ringOk links then
      some (Group.mk k n (BitVec.ofNat 64 (natAt h 8 8)) links) else none
  | _ => none

/-- R141, R142, R371: the table at an address, by the last two of a start's reads; none where the launch fails with bad group. -/
def readGroup (asked : Asked) (acct : Nat) (s : State) (c : Nat) (addr : DWord) : Reach (Option Group) × State :=
  if addr = 0 then (.got (some Group.alone), s)
  else if addr.toNat % 8 ≠ 0 then (.got none, s)
  else
    match cpRead asked 2 (fun _ => acct) s c addr 32 with
    | (.refused, s) => (.got none, s)
    | (.waits keys, s) => (.waits keys, s)
    | (.got h, s) =>
      let n := natAt h 4 4
      if natAt h 0 4 ≠ 1 || natAt h 16 16 ≠ 0 || n = 0 || decide (16384 < n) then (.got none, s)
      else
        match cpRead asked 3 (fun _ => acct) s c (addr + 32) (32 * n) with
        | (.refused, s) => (.got none, s)
        | (.waits keys, s) => (.waits keys, s)
        | (.got b, s) => (.got (groupOf? s h b n), s)

/-! The box. -/

/-- A box without items. -/
def Box.empty (b : Box) : Bool := b.ex == 0 || b.ey == 0 || b.ez == 0

/-- R121: the limits of a launch box. -/
def boxOk (b : Box) : Bool :=
  decide (b.ox + b.ex ≤ 2 ^ 32) && decide (b.oy + b.ey ≤ 2 ^ 32) && decide (b.oz + b.ez ≤ 2 ^ 32) &&
  decide (b.ex * b.ey * b.ez ≤ 2 ^ 48)

/-- The tiles of a box along x, y and z, and in all (R123). -/
def tileCount (h : Header) (b : Box) : Nat := tilesAlong b.ex h.gx * tilesAlong b.ey h.gy * tilesAlong b.ez h.gz

/-- R122, R123: the stages' boxes on this device. -/
def stagesOk (l : Launch) : Bool :=
  decide (l.hdr.stages ≤ l.rcd.box.ez) &&
  (List.range l.hdr.stages).all fun k => decide (tileCount l.hdr (stageBox l k) ≤ 2 ^ 32)

/-! Residency (R17, R65). -/

/-- The register-cache lines planned for a strip. -/
def planLines (h : Header) : Nat := 2 * ((h.regs + 3) / 4 * 4) + 8

/-- What a bench has given away: strips, scratchpad bytes, tiles and lines. -/
structure Load where
  strips : Nat
  scratch : Nat
  tiles : Nat
  lines : Nat
  deriving DecidableEq, Repr

def Load.plus (a b : Load) : Load :=
  Load.mk (a.strips + b.strips) (a.scratch + b.scratch) (a.tiles + b.tiles) (a.lines + b.lines)
def Load.fits (a : Load) : Bool :=
  decide (a.strips ≤ 64) && decide (a.scratch ≤ scratchTotal) && decide (a.tiles ≤ 64) && decide (a.lines ≤ 8192)

/-- What a gang of n strips takes. -/
def loadOf (h : Header) (n : Nat) : Load := Load.mk n h.scratch h.acc (n * planLines h)

/-- What a gang takes of its bench. Every strip that was created counts, with its planned lines, until the gang leaves: a
strip that has retired keeps its place in a gang that still lives (R17 does not say; the model's choice, log 30; a retired
strip is not charged to an account, R301). -/
def gangLoad (s : State) (g : Gang) : Load :=
  match s.launch? g.launch with
  | some l => loadOf l.hdr g.strips.length
  | none => Load.mk 0 0 0 0

/-- The bench that a gang is on, if it is on one. -/
def Gang.benchNow (g : Gang) : Option Nat := g.place.map (·.bench)

/-- What the gangs on a bench take, but for one gang. -/
def benchLoad (s : State) (bench except : Nat) : Load :=
  ((s.gangs.filter fun g => g.benchNow == some bench && g.id != except).map (gangLoad s)).foldl Load.plus (Load.mk 0 0 0 0)

/-- R17: whether a gang fits on a bench beside the others there, one of which may be counted out. -/
def fitsOn (s : State) (g : Gang) (bench except : Nat) : Bool :=
  decide (bench < s.benchesStarted) && ((benchLoad s bench except).plus (gangLoad s g)).fits

/-- A bench for each of some loads beside what the benches bear already, if there is one for all together (R17, R140). -/
def assign : List Load → List Load → Option (List Nat)
  | [], _ => some []
  | x :: rest, bs => (List.range bs.length).findSome? fun i =>
    match bs[i]? with
    | some b => if (b.plus x).fits then (assign rest (bs.set i (b.plus x))).map (i :: ·) else none
    | none => none

/-- Numbers of strips, the largest first. -/
def largestFirst (l : List Nat) : List Nat :=
  l.foldr (fun x r => (r.takeWhile fun y => decide (x < y)) ++ x :: r.dropWhile fun y => decide (x < y)) []

/-- R140: whether the gangs of a CORES launch, given by their numbers of strips, fit together on the benches of the device,
all empty. -/
def coresFit (h : Header) (sizes : List Nat) : Bool :=
  (assign ((largestFirst sizes).map (loadOf h)) (List.replicate benchCount (Load.mk 0 0 0 0))).isSome

/-! Starting a launch. -/

/-- FMT and MODE at their reset values (R50, R51). -/
def fmtReset : Word := 0x00000303
def modeReset : Word := 1

/-- The span of a stage as it starts (R124): its PC is the stage's entry, a signed offset from the header (R69). The span
unit that deals it out is that of the die of the stage's number modulo 4 (R156 gives no such number; the model's own, log 35). -/
def newSpan (l : Launch) (stage id : Nat) : Span where
  id := id
  ctx := l.ctx
  launch := l.id
  stage := stage
  die := stage % 4
  box := stageBox l stage
  pc := l.rcd.header + (l.hdr.entries.getD stage 0).signExtend 64
  regs := Vector.replicate 64 (.u 0)
  preds := Vector.replicate 32 (.u false)
  fmt := fmtReset
  mode := modeReset
  fpstat := 0
  joins := []
  waiting := false
  asked := []

/-- The stage queues of a launch: empty and open (R153). -/
def newQueues (h : Header) : List StageQueue := (List.range h.stages).map fun i => StageQueue.mk (h.depths.getD i 64) [] false

/-- CONFIG's block takes effect at a node start, but for what took effect before (R286). -/
def applyPending (x : Ctx) : Ctx :=
  match x.pending with
  | none => x
  | some b => { x with cfg := b, root := b.ptroot, pending := none }

/-- R98, R108: the presets of a header, written as FMTSET writes an entry (log 42). -/
def writePresets (h : Header) (x : Ctx) : Ctx :=
  { x with fmtTable := h.presets.foldl (fun t p => vset t p.1 p.2) x.fmtTable }

/-- The numbers of strips of the gangs of a launch whose boxes are dealt out whole (R123, R140). -/
def coresSizes (l : Launch) : List Nat :=
  (List.range l.hdr.stages).flatMap fun k =>
    let b := stageBox l k
    let p := newSpan l k 0
    (tileRange b.oz l.hdr.gz b.oz b.ez).flatMap fun tz =>
      (tileRange b.oy l.hdr.gy b.oy b.ey).flatMap fun ty =>
        (tileRange b.ox l.hdr.gx b.ox b.ex).map fun tx => (newGang p l.hdr b 0 tx ty tz).strips.length

/-- R140: the fit of a CORES launch; more gangs than there are places for strips never fit. -/
def launchFits (l : Launch) : Bool :=
  !l.hdr.cores ||
  (decide (((List.range l.hdr.stages).map fun k => tileCount l.hdr (stageBox l k)).sum ≤ 64 * benchCount) &&
    coresFit l.hdr (coresSizes l))

/-- The spans of a launch; with CORES each is dealt out before its first instruction (R124, R140). -/
def startSpans (s : State) (l : Launch) : State :=
  (List.range l.hdr.stages).foldl (fun s k =>
    let p := newSpan l k s.nextId
    let s := { s with spans := s.spans ++ [p], nextId := s.nextId + 1 }
    if l.hdr.cores then dealOut s p else s) s

/-- A launch as it starts. -/
def newLaunch (id c slot : Nat) (n : Node) (h : Header) (g : Group) : Launch :=
  Launch.mk id c slot n.addr n.rcd h g (newQueues h) false (Vector.replicate 4 []) [] none

/-- What the command processor reads for a node that starts: its header and its group, or the code with which it fails (R147,
R148, R371). -/
def launchReads (asked : Asked) (s : State) (c : Nat) (n : Node) (table : Vector DWord 48) :
    Reach (Except Nat (Header × Group)) × State :=
  match readHeader asked n.rcd.acct s c n.rcd.header table with
  | (.got (some h), s) =>
    match readGroup asked n.rcd.acct s c n.rcd.pgt with
    | (.got (some g), s) => (.got (.ok (h, g)), s)
    | (.waits keys, s) => (.waits keys, s)
    | (_, s) => (.got (.error 3), s)
  | (.waits keys, s) => (.waits keys, s)
  | (_, s) => (.got (.error 1), s)

/-- R147: the checks of a node that starts, in order, and its launch; a box or a share without items ends at once. -/
def launchNode (s : State) (c slot : Nat) (n : Node) (found : Except Nat (Header × Group)) : State :=
  let fail (s : State) (code : Nat) : State := slotActs s c [.finish slot .failed code]
  match found with
  | .error code => fail s code
  | .ok (h, g) =>
    let l := newLaunch s.nextId c slot n h g
    let started (s : State) : State := s.mapCtx c (writePresets h)
    let ends (s : State) : State := slotActs (started s) c [.finish slot .done 0]
    if n.rcd.box.empty then ends s
    else if !boxOk n.rcd.box || decide (n.rcd.box.ez < h.stages) then fail s 2
    else if (shareOf n.rcd.box.ox n.rcd.box.ex g.nrank g.rank).2 = 0 then ends s
    else if !stagesOk l then fail s 2
    else if !launchFits l then fail s 4
    else
      let s := started s
      startSpans { s with launches := s.launches ++ [l], nextId := s.nextId + 1 } l

/-- A ready node of a context that became ready before every other one (R147). -/
def firstReady (x : Ctx) (slot : Nat) : Option Node :=
  match (x.slot slot).node with
  | some n =>
    match n.readyAt with
    | some k =>
      if n.state == NodeState.waiting && x.slots.all fun v => match v.node with
          | some m => m.state != NodeState.waiting || (match m.readyAt with | some j => decide (k ≤ j) | none => true)
          | none => true
      then some n else none
    | none => none
  | none => none

/-- The requests for the start of a node that a peer has not answered yet (R293). -/
def Ctx.startAsked (x : Ctx) (n : Node) : Asked :=
  match x.starting with
  | some (k, l) => if n.readyAt = some k then l else []
  | none => []

/-- R147: a node starts. Before the device is ready, no node does (R23). While its header or its group gets no answer, its
start waits and nothing of it has happened (R291, R293, log 17). -/
def startNode (c slot : Nat) (s : State) : State :=
  match s.ctx? c with
  | none => s
  | some x =>
    match firstReady x slot with
    | none => s
    | some n =>
      if !s.dev.ready || s.dev.fatal || s.dev.stopped then s
      else if x.fatal.isSome then slotActs s c [.finish slot .failed 8]
      else
        let x' := applyPending x
        let v := x'.slot slot
        let x' := { x'.setSlot { v with node := some { n with state := .running } } with starting := none }
        match launchReads (x.startAsked n) (s.mapCtx c fun _ => x') c n x'.fmtTable with
        | (.got found, s') => launchNode (writeState s' c n.addr .running 0 (some slot) n.rcd.acct) c slot n found
        | (r, _) => s.mapCtx c fun x => { x with starting := n.readyAt.map fun k => (k, (x.startAsked n).still s r.keys) }
def execNodeStart (ctx slot : Nat) (s : State) : Out := .next (startNode ctx slot s)

/-- R133, R147, R294: a launch ends when every span, gang and engine program of it has ended and peers have acknowledged
their writes. One that has been stopped ends with the last acknowledgement (stopLaunch). -/
def completeNode (id : Nat) (s : State) : State :=
  match s.launch? id with
  | none => s
  | some l =>
    if s.spans.any (·.launch == id) || s.gangs.any (·.launch == id) || s.progs.any (·.launch == id) || !l.unacked.isEmpty ||
        l.ends.isSome then s
    else endLaunch s l .done 0
def execNodeComplete (launch : Nat) (s : State) : Out := .next (completeNode launch s)

end Sys2Proof.Machine
end

