-- ==== Sys2Proof/Machine/Schedule.lean ====
section
/-! DEFINITION. The scheduler's events: spans that rejoin (R130), gangs that are placed (R17, R165, R277), pre-empted and
resumed (R274 to R276), the Drover (R156), and queues that close (R155). -/

namespace Sys2Proof.Machine

/-! Spans that rejoin. -/

/-- Whether a span belongs to a join group, and whether it waits at that group's JOIN (R130). -/
def Span.inGroup (p : Span) (launch group : Nat) : Bool := p.launch == launch && p.joins.any (·.group == group)
def Span.atJoin (p : Span) (group : Nat) : Bool := p.waiting && (p.joins.head?.map (·.group)) == some group

/-- The union of two boxes that are adjacent along an axis and together form a box. -/
def Box.union? (a b : Box) (ax : Axis) : Option Box :=
  if a.withOn ax 0 0 ≠ b.withOn ax 0 0 then none
  else if a.lowOn ax + a.lenOn ax = b.lowOn ax then some (a.withOn ax (a.lowOn ax) (a.lenOn ax + b.lenOn ax))
  else if b.lowOn ax + b.lenOn ax = a.lowOn ax then some (a.withOn ax (b.lowOn ax) (a.lenOn ax + b.lenOn ax))
  else none

/-- The union of two boxes where they are adjacent along an axis and together form a box. The split that set them apart was
on that axis: on the others they share their whole extent. -/
def Box.joined? (a b : Box) : Option Box := [Axis.x, .y, .z].findSome? (a.union? b)

/-- R130: two spans of a group as one, where they qualify. -/
def mergeSpans (a b : Span) : Option Span :=
  if a.regs = b.regs ∧ a.preds = b.preds ∧ a.fmt = b.fmt ∧ a.mode = b.mode then
    (a.box.joined? b.box).map fun box => { a with box := box, fpstat := a.fpstat ||| b.fpstat }
  else none

/-- Merges a span into the first of a list that qualifies. -/
def mergeInto (p : Span) : List Span → Option (List Span)
  | [] => none
  | q :: r =>
    match mergeSpans q p with
    | some m => some (m :: r)
    | none => (mergeInto p r).map (q :: ·)

/-- Merges until no two qualify: each merge leaves one span fewer, and fuel is their number. Where more than one pair qualifies,
spans merge in the order of State.spans (R130 does not say which pair merges first; the model's choice, log 43). -/
def mergeAll : (fuel : Nat) → List Span → List Span
  | 0, l => l
  | fuel + 1, l =>
    let out := l.foldl (fun acc p => match mergeInto p acc with
      | some acc => acc
      | none => acc ++ [p]) []
    if out.length = l.length then l else mergeAll fuel out

/-- R130: once every member of a join group waits at its JOIN, each pops the entry, those that qualify merge, and all go on
after the JOIN. -/
def joinSpans (launch group : Nat) (s : State) : State :=
  let members := s.spans.filter (·.inGroup launch group)
  if members.all (·.atJoin group) then
    let out := mergeAll members.length
      (members.map fun p => { p with joins := p.joins.tail, waiting := false, pc := p.pc + 4 })
    { s with spans := (s.spans.filter fun p => !p.inGroup launch group) ++ out }
  else s
def execSpanJoin (launch group : Nat) (s : State) : Out := .next (joinSpans launch group s)

/-! Gangs on benches. -/

/-- Whether the device lets work of a context run: it is ready and neither has met a fatal error. -/
def mayRun (s : State) (c : Nat) : Bool :=
  s.dev.ready && !s.dev.fatal && !s.dev.stopped && ((s.ctx? c).map fun x => x.fatal.isNone).getD false

/-- The lowest residency slot from which n slots of a bench are free. -/
def freePlace (s : State) (bench n : Nat) : Nat :=
  let held := s.gangs.filterMap fun g => g.place.bind fun p => if p.bench = bench then some (p.slot, g.strips.length) else none
  ((List.range 64).find? fun k => held.all fun h => decide (k + n ≤ h.1) || decide (h.1 + h.2 ≤ k)).getD 0

/-- R16: the scratchpad share of a bench's SRAM: what its gangs have, rounded up to a multiple of 16 KiB. The L1 has the rest
of the 512 KiB (R15), in lines of 128 B. -/
def scratchShare (s : State) (bench : Nat) : Nat :=
  let n := ((s.gangs.filter fun g => g.benchNow == some bench).map fun g => (gangLoad s g).scratch).sum
  (n + 16383) / 16384 * 16384
def l1Lines (s : State) (bench : Nat) : Nat := (512 * 1024 - scratchShare s bench) / 128

/-- Lines that a bench's L1 owns in a memory are written back to their home: those for which there is no room left, and any
others, as which lines the released part holds is not architectural (R16, R168, log 6). -/
def releaseLines (bench room tick : Nat) (r : Ram) : Ram :=
  let mine := (r.owned.filter (·.1 == bench)).zipIdx
  r.recall ((mine.filter fun (_, i) => decide (room ≤ i) || Config.freeBit (tick + i)).map (·.1)).contains

/-- R16: the L1 of a bench after its share of the SRAM may have become smaller than so many lines. -/
def shrinkL1 (bench before : Nat) (s : State) : State :=
  let room := l1Lines s bench
  if before ≤ room then s
  else
    let device := releaseLines bench room s.tick s.device
    let kept := (device.owned.filter (·.1 == bench)).length
    { s with
      device := device
      tier := releaseLines bench (room - kept) (s.tick + 4096) s.tier
      tick := s.tick + 8192 }

/-- A gang takes its place on a bench with an image for each of its strips (R17, R61). A new one gets a scratchpad: each byte
is 0 or a value that an agent of its context wrote, and 0 once the bench has changed context (R165, R277). -/
def Gang.placed (g : Gang) (place : Place) (images : List Nat) (old : BitVec 256) : Gang :=
  { g with
    place := some place
    saved := false
    strips := giveImages images g.strips
    scratchOld := if g.saved then g.scratchOld else old }

/-- R16, R61, R165, R277: a gang is placed on a bench. One that changes context with it drops its decoded operations and its
fetch lines (R96). -/
def placeOn (s : State) (g : Gang) (bench : Nat) : State :=
  let changes := s.benchCtx.any fun b => b.1 == bench && b.2 != g.ctx
  let old := if changes || s.benchChanged.contains bench then 0 else s.wroteBy g.ctx
  let place := Place.mk bench (freePlace s bench g.strips.length) s.clock
  let before := l1Lines s bench
  let s := shrinkL1 bench before (s.mapGang g.id fun o => o.placed place (freeImages s g.ctx g.bare) old)
  let s := { s with benchCtx := (bench, g.ctx) :: s.benchCtx.filter (·.1 != bench) }
  if changes then
    { s with
      benchChanged := addNew [bench] s.benchChanged
      fetched := s.fetched.filter (·.bench != bench)
      decoded := s.decoded.filter (·.bench != bench) }
  else s

/-- The gangs that are placed with a gang, itself first: with CORES every gang of its launch, else none but it (R140). -/
def placedWith (s : State) (g : Gang) : List Gang :=
  if ((s.launch? g.launch).map (·.hdr.cores)).getD false then
    g :: s.gangs.filter fun o => o.launch == g.launch && o.id != g.id
  else [g]

/-- Benches for a gang and those placed with it, the gang on the given one, where all fit together (R17, R140). -/
def benchesFor (s : State) (g : Gang) (bench : Nat) : Option (List (Gang × Nat)) :=
  let gs := placedWith s g
  let loads := (List.range s.benchesStarted).map fun b =>
    let x := benchLoad s b g.id
    if b = bench then x.plus (gangLoad s g) else x
  let bare := (gs.map Gang.bare).sum
  if !fitsOn s g bench g.id || (freeImages s g.ctx bare).length != bare || gs.any (·.place.isSome) then none
  else (assign (gs.tail.map (gangLoad s)) loads).map fun bs => gs.zip (bench :: bs)

/-- R17, R140: a gang that waits for its first bench is placed, and with CORES every gang of its launch at once. The pool has
to have an image for each strip (R61, log 20). -/
def placeGang (id bench : Nat) (s : State) : State :=
  match s.gang? id with
  | none => s
  | some g =>
    if g.place.isNone && !g.saved && mayRun s g.ctx then
      match benchesFor s g bench with
      | some l => l.foldl (fun s (o, b) => placeOn s o b) s
      | none => s
    else s
def execGangPlace (gang bench : Nat) (s : State) : Out := .next (placeGang gang bench s)

/-! Pre-emption (R274) and resumption (R276). -/

/-- R274: a strip stops at an instruction boundary. Its outstanding results return, matrix operations with them; what waits
is withdrawn, a BAR whose arrival stands with a note of it, an access with its parts. -/
def stopStripAt (coord : Nat → Nat × Nat × Nat) (t : Strip) : Strip :=
  let t := { landAll coord t with asked := [] }
  match t.wait with
  | .again _ _ => { t with wait := .none }
  | .phase n _ _ => { t with wait := .none, withdrawn := some n }
  | _ => t

/-- A pre-empted strip that was parked at the end of a region has reached that end (R67, R265). -/
def settleParked (h : Header) (id : Nat) (s : State) (k : Nat) : State :=
  match s.gang? id with
  | some g => match g.strip? k with
    | some t => if t.parked then regionEnd s g t h else s
    | none => s
  | none => s

/-- R274: one gang leaves its bench. A program is saved at a command boundary: one in the middle of a command finishes it
first, and a COLL runs to its completion (R200). A strip whose own state is lost halts instead, and its context with it (R272). -/
def unplaceGang (s : State) (g : Gang) (h : Header) : State :=
  let s := (g.strips.map (·.idx)).foldl (fun s k => bringIn g.id k s) s
  if !mayRun s g.ctx then s
  else
    let s := s.mapGang g.id fun g => { g with strips := g.strips.map fun t => stopStripAt (g.coord h t.idx) t }
    let s := (g.strips.map (·.idx)).foldl (settleParked h g.id) s
    let s := s.mapGang g.id fun g => { g with place := none, saved := true, die := g.onDie }
    { s with progs := mapWhere (·.gang == g.id) (fun p => { p with saved := p.saved || !p.inCommand }) s.progs }

/-- R274: whether a strip has an access that has to return before the gang can leave: one that waits for a port or a peer.
Twin reads that wait at their home are withdrawn. -/
def mustReturn (s : State) (g : Gang) (t : Strip) : Bool :=
  match t.wait with
  | .access l => l.any fun a => a.lanes.any fun r => r.held.any fun x => segTrouble s g.ctx false x == .waits
  | _ => false

/-- R140, R274: pre-emption of a gang, and of every gang of a CORES launch with it. -/
def preemptGang (id : Nat) (s : State) : State :=
  match s.gang? id with
  | none => s
  | some g =>
    match s.launch? g.launch with
    | none => s
    | some l =>
      let gs := (placedWith s g).filter (·.place.isSome)
      if g.place.isNone || !mayRun s g.ctx || gs.any (fun o => o.strips.any (mustReturn s o)) then s
      else gs.foldl (fun s o => unplaceGang s o l.hdr) s
def execPreempt (gang : Nat) (s : State) : Out := .next (preemptGang gang s)

/-- R232, R276: the withdrawn accesses of a strip issue again, translated afresh and under a new timer. -/
def reissue (id : Nat) (h : Header) (s : State) (k : Nat) : State :=
  let s := bringIn id k s
  match s.gang? id with
  | none => s
  | some g =>
    match g.strip? k, mayRun s g.ctx with
    | some t, true =>
      match t.wait with
      | .access l =>
        let fresh := l.map fun a => { a with lanes := a.lanes.map fun r => { r with held := [] } }
        let (s, t, bad) := takeList (fun _ => false) s g { t with wait := .none } fresh
        afterList s g t h bad
      | _ => s
    | _, _ => s

/-- Where a saved program of a gang runs after the gang has moved (R276). One that is still in a command moves at the end of that
command (Prog.rests). -/
def rehome (g : Gang) (p : Prog) : Prog :=
  let (die, unit_) := homeOf g p.cls
  if p.saved then { p with saved := false, die := die, unit_ := unit_ } else p

/-- R276: saved gangs on benches. -/
def bringBack (h : Header) (s : State) (l : List (Gang × Nat)) : State :=
  let s := l.foldl (fun s (g, b) => placeOn s g b) s
  l.foldl (fun s (g, _) =>
    match s.gang? g.id with
    | none => s
    | some g' =>
      let s := if mayRun s g.ctx then { s with progs := mapWhere (·.gang == g.id) (rehome g') s.progs } else s
      (g.strips.map (·.idx)).foldl (reissue g.id h) s) s

/-- R276: a pre-empted gang resumes, and with CORES every gang of its launch at once (R140). -/
def resumeGang (id bench : Nat) (s : State) : State :=
  match s.gang? id with
  | none => s
  | some g =>
    match s.launch? g.launch with
    | none => s
    | some l =>
      if g.saved && g.place.isNone && mayRun s g.ctx then
        match benchesFor s g bench with
        | some bs => bringBack l.hdr s bs
        | none => s
      else s
def execResume (gang bench : Nat) (s : State) : Out := .next (resumeGang gang bench s)

/-! The Drover (R156). -/

/-- Whether a strip waits in QPUT, or in QGET. -/
def inQput (t : Strip) : Bool :=
  match t.wait with
  | .again .queue (.qput _ _ _ _) => true
  | _ => false
def inQget (t : Strip) : Bool :=
  match t.wait with
  | .again .queue (.qget _ _ _) => true
  | _ => false

/-- A stage's queue, and whether it is empty and open. -/
def stageQueue (l : Launch) (stage : Nat) : StageQueue := (l.queues[stage]?).getD (StageQueue.mk 1 [] false)
def emptyOpen (u : StageQueue) : Bool := u.recs.isEmpty && !u.closed

/-- The die of a resident gang. -/
def Gang.resident (g : Gang) (die : Nat) : Bool := g.place.isSome && dieOfBench g.bench == die

/-- The gangs of a stage that wait for a bench and belong to a die: a pre-empted one belongs to the die where it was last
resident. -/
def waitingGangs (s : State) (l : Launch) (stage die : Nat) : List Gang :=
  s.gangs.filter fun g => g.launch == l.id && g.stage == stage && g.place.isNone && g.die == die

/-- Whether a stage can be the busy stage of a die. -/
def busyOk (s : State) (die : Nat) (l : Launch) (stage : Nat) : Bool :=
  !l.hdr.cores && mayRun s l.ctx && !(waitingGangs s l stage die).isEmpty &&
  (s.gangs.all fun g => !(g.launch == l.id && g.stage == stage && g.resident die && g.strips.any inQput))

/-- Whether stage a of one launch comes before stage b of another in the Drover's choice: the higher fill, then the lower
stage, then the launch that started first. -/
def fuller (a b : Launch × Nat) : Bool :=
  let qa := stageQueue a.1 a.2
  let qb := stageQueue b.1 b.2
  let x := qa.recs.length * qb.depth
  let y := qb.recs.length * qa.depth
  decide (y < x) || (x == y && (decide (a.2 < b.2) || (a.2 == b.2 && decide (a.1.id < b.1.id))))

/-- The first element by an order. -/
def bestOf {α : Type} (before : α → α → Bool) : List α → Option α
  | [] => none
  | x :: r => match bestOf before r with
    | none => some x
    | some y => some (if before y x then y else x)

def busyStage (s : State) (die : Nat) : Option (Launch × Nat) :=
  bestOf fuller (s.launches.flatMap fun l => ((List.range l.hdr.stages).filter (busyOk s die l)).map fun k => (l, k))

/-- The clock at which a gang was placed. -/
def Gang.placedAt (g : Gang) : Nat := ((g.place.map Place.age).getD 0).toNat

/-- The idle gang: of another stage of the launch, every live strip of it waiting in QGET on an empty, open queue; the one
placed last. -/
def idleGang (s : State) (die : Nat) (l : Launch) (stage : Nat) : Option Gang :=
  bestOf (fun a b => decide (b.placedAt < a.placedAt))
    (s.gangs.filter fun g => g.launch == l.id && g.stage != stage && g.resident die && emptyOpen (stageQueue l g.stage) &&
      g.strips.all fun t => t.retired || inQget t)

/-- R157: a stage's weight, floor(16 · fill), and the weights that a die's Drover holds from an action on: those of the
stages of every launch but CORES launches, on which it does not act (R156). -/
def stageWeight (u : StageQueue) : Nat := 16 * u.recs.length / u.depth
def weighStages (die : Nat) (s : State) : State :=
  let held l : Launch := { l with weights := vset l.weights die (l.queues.map stageWeight) }
  { s with launches := mapWhere (fun l => !l.hdr.cores) held s.launches }

/-- R156: the Drover's reassignment, if it makes one. Of several waiting gangs of the busy stage it places the first in State.gangs
(R156 does not say which; the model's choice, log 43). -/
def reassign (die : Nat) (s : State) : State :=
  match busyStage s die with
  | none => s
  | some (l, stage) =>
    match idleGang s die l stage, waitingGangs s l stage die with
    | some idle, g :: _ =>
      if fitsOn s g idle.bench idle.id && imagesFit s g then
        let bench := idle.bench
        let s := unplaceGang s idle l.hdr
        if !mayRun s g.ctx then s
        else if g.saved then bringBack l.hdr s [(g, bench)] else placeOn s g bench
      else s
    | _, _ => s

/-- R156, R157: one action of a die's Drover. -/
def droverAct (die : Nat) (s : State) : State := reassign die (weighStages die s)
def execDroverAction (die : Nat) (s : State) : Out := .next (droverAct die s)

/-! Strips that go on. -/

/-- A word is given to a strip out of turn. -/
def giveStrip (g k : Nat) (f : State → Out) (s : State) : State :=
  match f { bringIn g k s with cur := .strip g k } with
  | .next r => { r with cur := s.cur }
  | _ => s

/-- A strip that waits to issue an instruction tries again, where the instruction is one of those that an event is for. -/
def tryAgain (g k : Nat) (f : Instr → Option (State → Out)) (s : State) : State :=
  match s.strip? g k with
  | some t => match t.wait with
    | .again _ i => match f i with
      | some run => giveStrip g k run s
      | none => s
    | _ => s
  | none => s

/-- The words that wait at a queue. -/
def queueWord : Instr → Option (State → Out)
  | .qput st d stage x => some (execQput st d stage x)
  | .qget st d x => some (execQget st d x)
  | _ => none

/-- R155: whether a launch's share on this device is drained. -/
def drained (s : State) (l : Launch) : Bool :=
  !(s.spans.any (·.launch == l.id)) &&
  (s.gangs.filter (·.launch == l.id)).all fun g =>
    g.strips.all fun t => t.retired || (g.place.isSome && inQget t && emptyOpen (stageQueue l g.stage))

/-- R155: the queues of a drained share close, and every waiting QGET receives the closing record. -/
def closeQueues (id : Nat) (s : State) : State :=
  match s.launch? id with
  | none => s
  | some l =>
    if !drained s l then s
    else
      let s := s.mapLaunch id fun l => { l with queues := l.queues.map fun u => { u with closed := true } }
      (s.gangs.filter (·.launch == id)).foldl (fun s g =>
        (g.strips.filter inQget).foldl (fun s t => tryAgain g.id t.idx queueWord s) s) s
def execQueueClose (launch : Nat) (s : State) : Out := .next (closeQueues launch s)

end Sys2Proof.Machine
end

