-- ==== Sys2Proof/Machine/Waits.lean ====
section
/-! DEFINITION. Waits that end: barriers (R189), WAIT and EWAIT (R190, R203, R285), RDV (R199), queues (R154), FORK (R197),
LAUNCH (R152), results that return (R67), and reads of the twin (R232). -/

namespace Sys2Proof.Machine

/-- The launch of a gang that runs. -/
def runningLaunch (s : State) (g : Gang) : Option Launch :=
  match s.launch? g.launch with
  | some l => if gangRuns s g l && mayRun s g.ctx then some l else none
  | none => none

/-! Barriers and results. -/

/-- R189, R237: a phase of barrier n of a gang completes; number 16 is the recompute barrier. -/
def phaseComplete (gang bar : Nat) (s : State) : State :=
  let s := (((s.gang? gang).map fun g => g.strips.map (·.idx)).getD []).foldl (fun s k => bringIn gang k s) s
  match s.gang? gang with
  | none => s
  | some g =>
    match runningLaunch s g with
    | none => s
    | some l => if bar < 16 then completePhase s g l bar else if bar = 16 then completeRecompute s g l else s
def execBarrierPhaseComplete (gang bar : Nat) (s : State) : Out := .next (phaseComplete gang bar s)

/-- R67: outstanding result k of a strip returns; a parked strip whose results have all returned is ready. -/
def loadReturns (gang idx k : Nat) (s : State) : State :=
  let s := bringIn gang idx s
  match s.gang? gang with
  | none => s
  | some g =>
    match g.strip? idx, runningLaunch s g with
    | some t, some l =>
      if t.halted || t.retired then s
      else
        let t := landAt (g.coord l.hdr t.idx) t k
        if t.parked then regionEnd s g t l.hdr else s.setStrip gang t
    | _, _ => s
def execLoadReturn (gang idx k : Nat) (s : State) : Out := .next (loadReturns gang idx k s)

/-! Words that wait to issue. -/

/-- WAIT on device memory, WAIT on host or peer memory, RDV, FORK and LAUNCH. -/
def waitWord : Instr → Option (State → Out)
  | .wait c w => some (execWait c w)
  | _ => none
def rdvWord : Instr → Option (State → Out)
  | .rdv w => some (execRdv w)
  | _ => none
def forkWord : Instr → Option (State → Out)
  | .fork w => some (execFork w)
  | _ => none
def launchWord : Instr → Option (State → Out)
  | .launch w => some (execLaunch w)
  | _ => none

/-- R190: a waiting WAIT reads its word again, and goes on where its condition holds. -/
def execWaitConditionMet (gang idx : Nat) (s : State) : Out := .next (tryAgain gang idx waitWord s)
/-- R199: a waiting RDV returns once its program has ended or stopped. -/
def execRdvReturn (gang idx : Nat) (s : State) : Out := .next (tryAgain gang idx rdvWord s)
/-- R154: a waiting QPUT finds room, or a waiting QGET a record. -/
def execQueueRoom (gang idx : Nat) (s : State) : Out := .next (tryAgain gang idx queueWord s)
/-- R197, R198: a waiting FORK finds a token slot and a place in its class. -/
def execForkSlotFree (gang idx : Nat) (s : State) : Out := .next (tryAgain gang idx forkWord s)

/-- R152: a place in the intake of a strip's context frees, and its waiting LAUNCH submits its record. -/
def intakeRoom (gang idx : Nat) (s : State) : State :=
  match s.gang? gang with
  | none => s
  | some g => tryAgain gang idx launchWord (s.mapCtx g.ctx fun x => { x with intake := x.intake - 1 })
def execLaunchIntakeRoom (gang idx : Nat) (s : State) : Out := .next (intakeRoom gang idx s)

/-- The commands of engine programs that access memory, by their words. -/
def commandOf : Instr → Option (State → Prog → Cmd (State × (Prog → Prog)))
  | .cpy dims cv sg ss w => some (cpyBody dims cv sg ss w)
  | .rdst bd w => some (rdstBody bd w)
  | .merge ea eb ec => some (mergeBody ea eb ec)
  | .tmma ovw w => some (tmmaBody ovw w)
  | .smv wide w => some (smvBody wide w)
  | .coll op red ea eb ec => some (collBody (.coll op red ea eb ec) op red ea eb ec)
  | .ewait ea eb c => some (ewaitBody ea eb c)
  | .esig ea eb => some (esigBody ea eb)
  | _ => none

/-- A program that waits to perform its current word tries again, where the word is one that an event is for. -/
def progAgain (n : Nat) (pick : Instr → Bool) (s : State) : State :=
  match s.prog? n with
  | none => s
  | some p =>
    match p.status with
    | .waiting i =>
      match commandOf i with
      | some body =>
        if pick i then
          match runCommand i (fun _ => true) true body { s with cur := .prog n } with
          | .next r => { r with cur := s.cur }
          | _ => s
        else s
      | none => s
    | _ => s

/-- R203: a waiting EWAIT reads its word again, and goes on where its condition holds. -/
def execEwaitConditionMet (prog : Nat) (s : State) : Out := .next (progAgain prog isEwait s)

/-- R285: WAIT or EWAIT on host or peer memory reads its word again. -/
def rereadAgain (ag : Agent) (s : State) : State :=
  match ag with
  | .strip g k => tryAgain g k waitWord s
  | .prog n => progAgain n isEwait s
  | _ => s
def execHostWaitReread (ag : Agent) (s : State) : Out := .next (rereadAgain ag s)

/-! Accesses that wait. -/

/-- The waiting accesses of a strip that runs are sent again. Those for which late holds do not wait for OPEN blocks (R232);
those that still wait keep their clock, and one for which a peer has not answered in time faults (R293). -/
def resendStrip (late : State → Access → Bool) (gang idx : Nat) (s : State) : State :=
  let s := bringIn gang idx s
  match s.gang? gang with
  | none => s
  | some g =>
    match g.strip? idx, runningLaunch s g with
    | some t, some l =>
      match t.wait with
      | .access q =>
        let (s, t, bad) := takeList (late s) s g { t with wait := .none } q
        afterList s g t l.hdr bad
      | _ => s
    | _, _ => s
def sendAgain (k : Nat × Nat) (s : State) : State := resendStrip (fun _ _ => false) k.1 k.2 s

/-- R232: a consuming read that waits is served once its block is READY. -/
def twinServed (ag : Agent) (s : State) : State :=
  match ag with
  | .strip g k => sendAgain (g, k) s
  | .prog n => progAgain n (fun i => !isEwait i) s
  | _ => s
def execTwinReadServed (ag : Agent) (s : State) : Out := .next (twinServed ag s)

/-- R232: whether a context's twin timeout has run out for a read that began to wait at a clock. -/
def twinLate (s : State) (c : Nat) (since : DWord) : Bool :=
  let ms := bitsOf (s.cfg c).twto.toNat 0 16
  ms != 0 && elapsed s since ms

/-- The OPEN blocks for which a waiting command waits, each with the address that reads it. -/
def waitsOn (s : State) (p : Prog) : List (DWord × Nat) :=
  match p.status with
  | .waiting i =>
    match commandOf i with
    | some body => match body s p with
      | .error (.wait blocks _ _) => blocks
      | _ => []
    | none => []
  | _ => []

/-- The lowest of some addresses. -/
def lowestAddr : List DWord → DWord
  | [] => 0
  | a :: r => r.foldl (fun m b => if b.toNat < m.toNat then b else m) a

/-- R232: the twin timeout runs out for a strip's read or a command's. -/
def twinTimesOut (ag : Agent) (s : State) : State :=
  match ag with
  | .strip g k =>
    match s.gang? g with
    | some x => resendStrip (fun s a => (a.asked.map (twinLate s x.ctx)).getD false) g k s
    | none => s
  | .prog n =>
    match s.prog? n with
    | some p =>
      let blocks := waitsOn s p
      if twinLate s p.ctx p.since && !blocks.isEmpty && mayRun s p.ctx && !p.saved then
        stopProg s n 0x16 (low57 (lowestAddr (blocks.map (·.1))))
      else s
    | none => s
  | _ => s
def execTwinTimeout (ag : Agent) (s : State) : Out := .next (twinTimesOut ag s)

/-- R222: a waiting part that reads an OPEN block with its first sector in a range faults with ADJ_TIMEOUT. -/
def LaneReq.openFault (lo len : Nat) (s : State) (r : LaneReq) : Plan :=
  let p := Plan.mk r r.held false
  ((p.twinBlocks s).filter fun (b, _) => countState s b.key == 1 && decide (lo ≤ b.pa) && decide (b.pa < lo + len)).foldl
    (fun p (_, x) => { p with req := p.req.fail 0x16 x 0 }) p

/-- R222: of a waiting access the parts that then fault, a tile as a whole (R270), and those that go on waiting. -/
def failOpen (lo len : Nat) (s : State) (a : Access) : Access × Access :=
  let rs := (wholeIf a.isTile (a.lanes.map (·.openFault lo len s))).map (·.req)
  ({ a with lanes := rs.filter (·.cause != 0) }, { a with lanes := rs.filter (·.cause == 0) })

/-- R222: the same for the lanes of a peer's request. -/
def failPeer (lo len : Nat) (s : State) (w : PeerWait) : PeerWait :=
  let rs := w.lanes.map fun r => (r.openFault lo len s).req
  { w with
    lanes := rs.filter (·.cause == 0)
    replies := (rs.filter (·.cause != 0)).foldl (fun l r => l.set r.lane (.fault r.cause)) w.replies }

/-- R222: the same for what a strip has waiting. What stands behind the faulted parts goes on. -/
def failReads (lo len : Nat) (gang idx : Nat) (s : State) : State :=
  let s := bringIn gang idx s
  match s.gang? gang with
  | none => s
  | some g =>
    match g.strip? idx, s.launch? g.launch with
    | some t, some l =>
      match t.wait with
      | .access q =>
        let parts := q.map (failOpen lo len s)
        let bad := (parts.map (·.1)).filter fun a => !a.lanes.isEmpty
        if g.place.isNone || bad.isEmpty then s
        else
          let (s, t, more) := takeList (fun _ => false) s g { t with wait := .none }
            ((parts.map (·.2)).filter fun a => !a.lanes.isEmpty)
          afterList s g t l.hdr (bad.foldl (fun q a => parkIn a a.lanes q) more)
      | _ => s
    | _, _ => s

/-- The strips that have accesses waiting, and the programs that have a command waiting. -/
def waitingStrips (s : State) : List (Nat × Nat) :=
  s.gangs.flatMap fun g => (g.strips.filter fun t => match t.wait with
    | .access _ => true
    | _ => false).map fun t => (g.id, t.idx)
def waitingProgs (s : State) : List Nat :=
  (s.progs.filter fun p => match p.status with
    | .waiting _ => true
    | _ => false).map (·.id)

/-- Everything that waits for memory is sent again: it goes on where nothing stands in its way any more. -/
def sendAll (s : State) : State :=
  (waitingProgs s).foldl (fun s n => progAgain n (fun _ => true) s) ((waitingStrips s).foldl (fun s k => sendAgain k s) s)

end Sys2Proof.Machine
end

