-- ==== Sys2Proof/Machine/Links.lean ====
section
/-! DEFINITION. The second tier's ports (R290, R291), peers that do not answer and writes that they acknowledge (R293,
R294), flits that are resent (R292), and which contexts own a page (R169, R278). -/

namespace Sys2Proof.Machine

/-! The contexts that own a page. -/

/-- The valid entries of a node that spans so many bytes: the address of each and its number. A valid entry has an odd low
byte, which memory lists. -/
def validEntries (s : State) (node size : Nat) : List (Nat × Nat) :=
  (s.device.cells.filter fun c => decide (node ≤ c.1) && decide (c.1 < node + size) && c.1 % 8 == node % 8 && c.2.getLsbD 0).map
    fun c => (c.1, (c.1 - node) / 8)

/-- The leaves of the tree below a node, with their levels and the first address that each maps (R247, R248). -/
def leavesFrom (s : State) : (fuel node l : Nat) → (m : Bool) → (va : Nat) → List (DWord × Nat × Nat)
  | 0, _, _, _, _ => []
  | fuel + 1, node, l0, m, va =>
    let l := if m then l0 - 1 else l0
    (validEntries s node (if m then 2 ^ 21 else 4096)).flatMap fun (at_, idx) =>
      let e := s.device.dword at_
      let va := va + idx * 2 ^ (9 * l + 12)
      if entryReserved s e l va then []
      else if entryLf e then [(e, l, va)]
      else leavesFrom s fuel (tableNext e * 4096) (l - 1) (tableM e) va

/-- The leaves of a context's tree. -/
def leavesOf (s : State) (root : DWord) : List (DWord × Nat × Nat) :=
  if rootReserved root then []
  else leavesFrom s 6 (bitsOf root.toNat 12 28 * 4096) 4 (bitAt root.toNat 0) 0

/-- Whether a context's tree maps a 4 KiB frame of device memory (tier false) or of the second tier. -/
def mapsFrame (s : State) (x : Ctx) (tier : Bool) (frame : Nat) : Bool :=
  (leavesOf s x.root).any fun (e, l, va) =>
    leafTgt e == (if tier then 1 else 0) && (leafFrames e l va).contains frame

/-- Whether a page of device memory touches a range. -/
def pageMeets (pa base len : Nat) : Bool := decide (base < pa / 4096 * 4096 + 4096) && decide (pa / 4096 * 4096 < base + len)

/-- The contexts that own the page at a physical address: those whose trees map its frame, and for device memory those whose
block gives them the page as part of POOL or of the error log (the model's reading of R169, R278 and R222, log 32). -/
def ownersOf (s : State) (tier : Bool) (pa : Nat) : List Nat :=
  (s.ctxs.filter fun x => mapsFrame s x tier (pa / 4096) || (!tier &&
    (pageMeets pa x.cfg.pool.toNat x.cfg.poolsize.toNat || pageMeets pa x.cfg.errlog.toNat x.cfg.errsize.toNat))).map (·.id)

/-- A record in the error log of every context that owns the page at an address (R289). -/
def logOwners (s : State) (kind : Nat) (tier : Bool) (pa : Nat) : State :=
  (ownersOf s tier pa).foldl (fun s c => logError s c kind 0 (BitVec.ofNat 64 pa) none) s

/-- A link event, in the error log of every context (R289, kind 6; which contexts, and which address the record holds, is the
model's own, log 32): the first address of a second-tier port, the number of a fabric port. -/
def logLink (at_ : Nat) (s : State) : State :=
  (s.ctxs.map (·.id)).foldl (fun s c => logError s c 6 0 (BitVec.ofNat 64 at_) none) s

/-- A dirty line is lost: what its backing memory holds is left, poisoned, and charged to the owners (R278). -/
def Ram.lose (r : Ram) (line : Nat) : Ram :=
  match r.dirty.find? (·.line == line) with
  | none => r
  | some d =>
    { r with
      cells := cellsWrite r.cells (128 * line) d.old
      dirty := r.dirty.filter (·.line != line)
      owned := r.owned.filter (·.2 != line) }.addPoison (128 * line) 128
def loseLine (s : State) (tier : Bool) (line : Nat) : State :=
  logOwners (if tier then { s with tier := s.tier.lose line } else { s with device := s.device.lose line }) 3 tier (128 * line)

/-! The ports of the second tier. -/

/-- The state of a port, and the state of the machine with it set. -/
def State.port (s : State) (p : Nat) : Port := vget s.dev.ports p .up
def State.setPort (s : State) (p : Nat) (v : Port) : State := { s with dev := { s.dev with ports := vset s.dev.ports p v } }

/-- R291: a port goes to RETRAIN, and its tier timer starts. -/
def retrain (s : State) (p : Nat) : State :=
  s.setPort p (.retrain (s.clock + BitVec.ofNat 64 (s.dev.tierto * clocksPerMs)))

/-- R291: an UP port goes down. -/
def tierDown (p : Nat) (s : State) : State :=
  match s.port p with
  | .up => logLink (p * 2 ^ 41) (retrain s p)
  | _ => s
def execTierLinkDown (p : Fin 4) (s : State) : Out := .next (tierDown p.val s)

/-- R291: an expander's request was not answered for 1 ms: the same. -/
def expanderLate (p : Nat) (s : State) : State := tierDown p s
def execExpanderTimeout (p : Fin 4) (s : State) : Out := .next (expanderLate p.val s)

/-- R291: a port has another state, and what waits is sent again, the command processors' writes too: it is performed on a
port that is UP, and meets TIER_LINK on one that is FAILED. -/
def portTurns (p : Nat) (v : Port) (s : State) : State := sendAll (retryWrites (logLink (p * 2 ^ 41) (s.setPort p v)))

/-- R291: a port comes back UP before its timer has run out. -/
def tierUp (p : Nat) (s : State) : State :=
  match s.port p with
  | .retrain deadline => if deadline.toNat ≤ s.clock.toNat then s else portTurns p .up s
  | _ => s
def execTierLinkUp (p : Fin 4) (s : State) : Out := .next (tierUp p.val s)

/-- R291: TIERTO expires: the port is FAILED, and dirty lines of the port are lost. -/
def tierFails (p : Nat) (s : State) : State :=
  match s.port p with
  | .retrain deadline =>
    if s.clock.toNat < deadline.toNat then s
    else
      let lines := (s.tier.dirty.map (·.line)).filter fun n => portOf (128 * n) == p
      lines.foldl (fun s n => loseLine s true n) (portTurns p .failed s)
  | _ => s
def execTierTimeout (p : Fin 4) (s : State) : Out := .next (tierFails p.val s)

/-- R291, R302: PORTRESET retrains the FAILED ports of a mask. -/
def portsReset (mask : BitVec 4) (s : State) : State :=
  (List.range 4).foldl (fun s p =>
    match s.port p with
    | .failed => if mask.getLsbD p then retrain s p else s
    | _ => s) s
def execPortreset (mask : BitVec 4) (s : State) : Out := .next (portsReset mask s)

/-! Peers. -/

/-- The words of a strip that wait for an answer to what they read: WAIT and LAUNCH. -/
def readWord (i : Instr) : Option (State → Out) := (waitWord i).or (launchWord i)

/-- R293: an agent's request to a peer has had no response for 200 ms. What it waits for is looked at again, and faults where
that is so; a fetch is looked at at the agent's own turn. Nobody's requests are those of the command processors, which look
at theirs when they go on (R371). -/
def peerLate (ag : Agent) (s : State) : State :=
  match ag with
  | .strip i k => sendAgain (i, k) (tryAgain i k readWord s)
  | .prog n => progAgain n (fun _ => true) s
  | .nobody => retryWrites s
  | .span _ => s
def execPeerTimeout (ag : Agent) (s : State) : Out := .next (peerLate ag s)

/-- R147, R294: the launches that have been stopped and whose writes to peers are all acknowledged end. -/
def endStopped (s : State) : State :=
  s.launches.foldl (fun s l => match l.ends, l.unacked with
    | some (st, code), [] => endLaunch s l st code
    | _, _ => s) s

/-- R294: a peer acknowledges a write of an agent, which may have retired. -/
def peerAck (ag : Agent) (s : State) : State :=
  let s := endStopped { s with launches := s.launches.map fun l => { l with unacked := l.unacked.erase ag } }
  match ag with
  | .strip g k => s.mapStrip g k fun t => { t with unacked := t.unacked - 1 }
  | .prog n => s.mapProg n fun p => { p with unacked := p.unacked - 1 }
  | _ => s
def execPeerWriteAck (ag : Agent) (s : State) : Out := .next (peerAck ag s)

/-- R292: a flit found corrupt is resent by the link; above the link nothing is lost, duplicated or reordered. A fabric port
that is down once it has been (up false) carries no requests, one that is up again carries those that wait; both are link
events (R289). -/
def flitAgain (port : Nat) (up : Bool) (s : State) : State :=
  if vget s.dev.fabricPorts port up = up then s
  else
    let s := logLink port { s with dev := { s.dev with fabricPorts := vset s.dev.fabricPorts port up } }
    if up then sendAll (retryWrites s) else s
def execFlitResend (link : FabricLink) (s : State) : Out := .next (flitAgain link.port link.up s)

/-! Evictions (R62, R168, R169, R278). -/

/-- R62, R278: the register cache evicts a line of a strip's image. An uncorrectable error that shows as it is written back poisons
it, and is charged to the page's owners. -/
def evictHeld (line : Nat) (bad : Bool) (s : State) : State :=
  let writes := s.gangs.any fun g => g.strips.any fun t => t.writesLine s.device line
  let s := evictImage line s
  if bad && writes then logOwners { s with device := s.device.addPoison (128 * line) 128 } 3 false (128 * line) else s

/-- R169: a dirty line is written back; an uncorrectable error that shows poisons it and is charged to the page's owners. A
line of a strip's image that the register cache holds is written from there (R62). -/
def evictLine (tier : Bool) (line : Nat) (bad : Bool) (s : State) : State :=
  let ram := if tier then s.tier else s.device
  let away := tier && s.port (portOf (128 * line)) != Port.up
  if !tier && cachesLine s line then evictHeld line bad s
  else if away || !ram.dirty.any (·.line == line) then s
  else if bad then loseLine s tier line
  else if tier then { s with tier := s.tier.writeBack line }
  else writeBackDevice line s
def execLineEviction (tier : Bool) (line : Nat) (uncorrectable : Bool) (s : State) : Out :=
  .next (evictLine tier line uncorrectable s)

end Sys2Proof.Machine
end

