-- ==== Sys2Proof/Machine/HostAccess.lean ====
section
/-! DEFINITION. The host link (R279), the host's accesses to device memory (R222, R239, R280, R282, R298), and a peer's
accesses to it (R225, R239, R293). -/

namespace Sys2Proof.Machine

/-- R279: the host port trains, to a generation of at most 6 and a width of at most 16 lanes (which widths there are is
presumed from PCIe, log 32). -/
def trainLink (cxl : Bool) (gen width : Nat) (s : State) : State :=
  if decide (1 ≤ gen) && decide (gen ≤ 6) && [1, 2, 4, 8, 16].contains width then
    { s with dev := { s.dev with link := .up cxl gen width } }
  else s
def execHostLinkTrain (cxl : Bool) (gen width : Nat) (s : State) : Out := .next (trainLink cxl gen width s)

/-! Host accesses by device physical address. -/

/-- R298: whether a running TDI binds a byte of a range and the access does not come over that TDI's stream. -/
def streamRefuses (s : State) (pa len : Nat) (stream : Option Nat) : Bool :=
  s.dev.tdis.any fun t => t.state == .run && stream != some t.num &&
    t.regions.any fun r => decide (r.base < pa + len) && decide (pa < r.base + r.size)

/-- R221: whether a byte lies in the twin pool. -/
def inPool (s : State) (pa : Nat) : Bool := decide (s.poolBase ≤ pa) && decide (pa < s.poolBase + s.poolSize)

/-- R301: a host access within one frame is charged to the HOSTACCT of the context that owns it, the first of several (the
model's choice, log 9), its energy with it; to none where no context does. A read takes the lines back that an L1 owns (R280,
log 16). -/
def hostTouch (wr : Bool) (pa len : Nat) (s : State) : State :=
  let gs := [Seg.mk pa len 0 (.device pa)]
  let s := if wr then s else recallSegs none gs s
  match ownersOf s false pa with
  | c :: _ => chargeEnergy (s.cfg c).hostacct (chargeDram (s.cfg c).hostacct wr gs s)
  | [] => if wr then claimSegs none gs s else s

/-- A part of a host write that lies in one frame: one into the twin pool is dropped and recorded (R222, R239). -/
def hostWritePart (pa : Nat) (bs : List Byte) (s : State) : State :=
  if inPool s pa then logOwners s 2 false pa
  else hostTouch true pa bs.length { s with device := (s.device.write pa bs).unpoison [(pa, bs.length)] }

/-- A host write, frame by frame. -/
def hostWrite (pa : Nat) (bs : List Byte) (s : State) : State :=
  ((splitPages (bs.length / 4096 + 2) pa bs.length).foldl (fun (st : State × List Byte) p =>
    (hostWritePart p.1 (st.2.take p.2) st.1, st.2.drop p.2)) (s, bs)).1

/-- R280, R282: a host access to device memory. It neither counts nor consumes (R239); a read of a poisoned sector returns
poison (R278), and a refused one does too (R298). -/
def hostAccess (a : HostAccess) (s : State) : State :=
  if decide (a.addr + a.len > 2 ^ 40) then { s with hostReply := .refused }
  else
    match a.write with
    | none =>
      if streamRefuses s a.addr a.len a.stream || s.device.poisoned a.addr a.len then { s with hostReply := .poison }
      else
        { (splitPages (a.len / 4096 + 2) a.addr a.len).foldl (fun s p => hostTouch false p.1 p.2 s) s with
          hostReply := .bytes (s.device.read a.addr a.len) }
    | some bs =>
      if streamRefuses s a.addr a.len a.stream then { s with hostReply := .done }
      else { hostWrite a.addr (bs.take a.len) s with hostReply := .done }

/-- Whether the host link is up, with CXL or without. -/
def linkIs (s : State) (cxl : Bool) : Bool :=
  match s.dev.link with
  | .up c _ _ => c == cxl
  | .down => false

/-- R279, R280: an access through the HDM range, which is there under CXL only. -/
def hdmTouch (a : HostAccess) (s : State) : State :=
  if linkIs s true then hostAccess a s else { s with hostReply := .refused }
def execHdmAccess (a : HostAccess) (s : State) : Out := .next (hdmTouch a s)

/-- R279, R282: an access through BAR2, which is there under PCIe alone. -/
def bar2Touch (a : HostAccess) (s : State) : State :=
  if linkIs s false then hostAccess a s else { s with hostReply := .refused }
def execBar2Access (a : HostAccess) (s : State) : Out := .next (bar2Touch a s)

/-! Peer accesses. -/

/-- EXPBASE of a context (R286): the window's base and its enable. -/
def exportBase (s : State) (c : Nat) : Nat := bitsOf (s.cfg c).expbase.toNat 38 19 * 2 ^ 38
def exports (s : State) (c : Nat) : Bool := bitAt (s.cfg c).expbase.toNat 0 && (s.ctx? c).isSome

/-- The parts of a peer's request, at their virtual addresses here. -/
def peerParts (s : State) (r : PeerRequest) : List LaneReq :=
  r.lanes.zipIdx.map fun (l, i) =>
    laneReq i (BitVec.ofNat 64 (exportBase s r.ctx + l.off)) l.len (l.data.take l.len) (l.cmp.take l.len)

/-- The access that a request makes: with user privilege, counting unless the request is one that counts nothing, and consuming
on a twin (R225, R226, R239); its store carries the format of a typed one (R230). A wait for an OPEN block ends when the
context's twin timeout has run out since the request came (R232). -/
def peerAccess (s : State) (r : PeerRequest) (lanes : List LaneReq) : Access where
  kind := match r.op with
    | .read => .load
    | .write => .store
    | .atomic _ => .atomic
    | .cas => .cas
  pc := 0
  pos := 0
  replayed := false
  bench := none
  lanes := lanes
  active := 0xFFFFFFFF
  dst := 0
  regs := 0
  size := ((lanes.head?).map (·.len)).getD 0
  uniform := false
  whole := false
  op := match r.op with
    | .atomic op => op.toNat
    | _ => 0
  entry := if r.op == .write then r.entry else none
  trans := false
  scope := 0
  order := 0
  nc := false
  last := false
  flt := twinLate s r.ctx r.since
  counts := !r.nc
  priv := false
  srcs := []
  ftz := false
  since := r.since

/-- Whether a part lies in the window, and is no atomic on a twin (R234, R293). -/
def peerPartOk (r : PeerRequest) (l : PeerLane) : Bool := decide (l.off + l.len ≤ 2 ^ 38) && !(r.op == .write && l.data.length < l.len)
def peerTwinAtomic (r : PeerRequest) (q : LaneReq) : Bool :=
  (match r.op with
   | .atomic _ => true
   | .cas => true
   | _ => false) && touchesWindow q.addr.toNat q.len

/-- R230: whether a part on a twin is not naturally aligned for its size, that of a lane's access; then no part is performed. -/
def peerMisaligned (q : LaneReq) : Bool :=
  touchesWindow q.addr.toNat q.len && decide (q.len ≤ 16) && q.addr.toNat % q.len != 0

/-- What lane i is answered; old is what it was answered before. -/
def peerAnswer (p : Performed) (r : PeerRequest) (old : List PeerLaneReply) (i : Nat) : PeerLaneReply :=
  match p.done.find? (·.1.lane == i) with
  | some (_, bs) => if r.op == .write then .ack else .bytes bs
  | none =>
    match p.faulted.find? (·.lane == i) with
    | some q => .fault q.cause
    | none => old.getD i .waits

/-- R232, R293: lanes of a peer's request are performed, if they can be; old is what the request's lanes have been answered. Those
that wait keep where they lead (R254), and are tried when the request comes again. -/
def peerTry (r : PeerRequest) (lanes : List LaneReq) (old : List PeerLaneReply) (s : State) : State :=
  let (p, s) := performAccess s r.ctx (peerAccess s r lanes)
  let acct := (s.cfg r.ctx).hostacct
  let replies := (List.range r.lanes.length).map (peerAnswer p r old)
  let s := if p.done.isEmpty then s
    else chargeEnergy acct (chargeDram acct (r.op != .read) p.segs
      (chargeFabric s acct (p.done.foldl (fun n d => n + d.1.len) 0)))
  { s with
    peerReply := replies
    peerWaits := (s.peerWaits.filter (·.req != r)) ++ if p.waiting.isEmpty then [] else [PeerWait.mk r p.waiting replies] }

/-- R293: a peer's request. A context that does not export refuses it, which the peer sees as PERMISSION. A request that is there
already goes on where it waits. -/
def peerServe (r : PeerRequest) (s : State) : State :=
  match s.peerWaits.find? (·.req == r) with
  | some w => peerTry r w.lanes w.replies s
  | none =>
    if !exports s r.ctx || !(r.lanes.all (peerPartOk r)) then
      { s with peerReply := r.lanes.map fun _ => .fault 0x12 }
    else
      let parts := peerParts s r
      if parts.any peerMisaligned then { s with peerReply := r.lanes.map fun _ => .fault 0x0D }
      else
        let bad := (parts.filter (peerTwinAtomic r)).map (·.lane)
        peerTry r (parts.filter fun q => !bad.contains q.lane)
          ((List.range r.lanes.length).map fun i => if bad.contains i then .fault 0x13 else .waits) s
def execPeerAccess (r : PeerRequest) (s : State) : Out := .next (peerServe r s)

end Sys2Proof.Machine
end

