-- ==== Sys2Proof/Machine/Commands.lean ====
section
/-! DEFINITION. Command queues and doorbells (R287, R288, R302 to R304), the host commands (R286, R287, R305, R222), and
writes to the management window (R302). -/

namespace Sys2Proof.Machine

/-! Queues. -/

/-- The queue of command processor q, and the state with it changed. -/
def State.queue (s : State) (q : Bool) : Queue := if q then s.dev.q1 else s.dev.q0
def State.setQueue (s : State) (q : Bool) (u : Queue) : State :=
  { s with dev := if q then { s.dev with q1 := u } else { s.dev with q0 := u } }

/-- R304: whether a queue's size is a power of two from 1 to 32,768 and its base is 64 B-aligned. -/
def Queue.valid (u : Queue) : Bool := (List.range 16).any (fun i => u.size == 2 ^ i) && u.base.toNat % 64 == 0

/-- R304: a doorbell. -/
def ring (q : Bool) (tail : Word) (s : State) : State :=
  let u := s.queue q
  if !u.valid then s.setQueue q { u with cfgErr := true }
  else if u.size ≤ tail.toNat then s.setQueue q { u with tailErr := true }
  else s.setQueue q { u with tail := tail.toNat }
def execDbell (q : Bool) (tail : Word) (s : State) : Out := .next (ring q tail s)

/-- R302: a write to QERR clears the bits that it sets. -/
def clearQerr (q : Bool) (bits : Word) (s : State) : State :=
  let u := s.queue q
  s.setQueue q { u with cfgErr := u.cfgErr && !bits.getLsbD 0, tailErr := u.tailErr && !bits.getLsbD 1 }
def execQerrClear (q : Bool) (bits : Word) (s : State) : Out := .next (clearQerr q bits s)

/-- R303: a write to QBASE or QSIZE, ignored while the queue holds untaken entries. -/
def configureQueue (q size : Bool) (v : DWord) (s : State) : State :=
  let u := s.queue q
  if u.head ≠ u.tail then s
  else s.setQueue q (if size then { u with size := bitsOf v.toNat 0 16 } else { u with base := v })
def execQueueConfigWrite (q size : Bool) (value : DWord) (s : State) : Out := .next (configureQueue q size value s)

/-- R302: a write to a register of the window that has no behaviour of its own. ROUTE entry k is listed where it is not 0.
Reserved bits and read-only registers keep their values. ROUTEk is written as one access of 128 bits, of which [127:77], to which
R302 gives no meaning, are dropped and read as 0 (R302 calls every register 32 or 64 bits, and R4 leaves these bits open: the
model's choice, log 32). -/
def writeRegister (offset : Nat) (v : BitVec 128) (s : State) : State :=
  let n := v.toNat
  let dev := s.dev
  if offset = 0x0C then { s with dev := { dev with c128 := bitAt n 0 } }
  else if offset = 0x14 then { s with dev := { dev with tierto := bitsOf n 0 16 } }
  else if offset = 0x80 then { s with dev := { dev with defport := BitVec.ofNat 12 n } }
  else if offset = 0x20 ∨ offset = 0x24 ∨ offset = 0x28 ∨ offset = 0x2C then
    { s with dev := { dev with rowctl := vset dev.rowctl ((offset - 0x20) / 4) (BitVec.ofNat 32 (bitsOf n 0 13)) } }
  else if 0x20000 ≤ offset ∧ offset < 0x20000 + 16 * 4096 ∧ offset % 16 = 0 then
    let k := (offset - 0x20000) / 16
    let w := BitVec.ofNat 128 (bitsOf n 0 77)
    let rest := dev.routes.filter (·.1 != k)
    { s with dev := { dev with routes := if w = 0 then rest else (rest.filter (·.1 < k)) ++ (k, w) :: rest.filter (fun r => k < r.1) } }
  else s
def execRegisterWrite (offset : Nat) (value : BitVec 128) (s : State) : Out := .next (writeRegister offset value s)

/-- STATUS of the management window (R302). -/
def statusBits (s : State) : Nat :=
  (if s.dev.ready then 1 else 0) + (if s.dev.recovery then 2 else 0) + (if s.dev.fatal then 4 else 0)

/-- QERR of a queue (R302). -/
def qerrBits (u : Queue) : Nat := (if u.cfgErr then 1 else 0) + (if u.tailErr then 2 else 0)

/-- Counter k of an account (R301). -/
def Account.counter (a : Account) (k : Nat) : DWord :=
  [a.bench, a.macs, a.hbmrd, a.hbmwr, a.fabric, a.energy].getD k 0

/-- R4, R5, R301, R302: the size in bytes of the register at an offset of the window, and what a read of it gives: its
fields, 0 for reserved bits and for a register that is only written. -/
def registerAt (s : State) (offset : Nat) : Option (Nat × Nat) :=
  let dev := s.dev
  if 0x20000 ≤ offset then
    let k := (offset - 0x20000) / 16
    if offset % 16 = 0 ∧ k < 4096 then some (16, ((dev.routes.find? (·.1 == k)).map fun r => r.2.toNat).getD 0) else none
  else if 0x10000 ≤ offset then
    let k := (offset - 0x10000) / 64
    let o := offset - 0x10000 - 64 * k
    if k < 64 ∧ o % 8 = 0 then some (8, ((vget dev.accounts k Account.reset).counter (o / 8)).toNat) else none
  else
    match offset with
    | 0x00 => some (8, dev.devid.toNat)
    | 0x08 => some (4, statusBits s)
    | 0x0C => some (4, if dev.c128 then 1 else 0)
    | 0x10 => some (4, dev.twpool.toNat)
    | 0x14 => some (4, dev.tierto)
    | 0x18 => some (4, 0)
    | 0x20 => some (4, (vget dev.rowctl 0 0).toNat)
    | 0x24 => some (4, (vget dev.rowctl 1 0).toNat)
    | 0x28 => some (4, (vget dev.rowctl 2 0).toNat)
    | 0x2C => some (4, (vget dev.rowctl 3 0).toNat)
    | 0x40 => some (8, dev.q0.base.toNat)
    | 0x48 => some (4, dev.q0.size)
    | 0x50 => some (8, dev.q1.base.toNat)
    | 0x58 => some (4, dev.q1.size)
    | 0x60 => some (4, 0)
    | 0x68 => some (4, 0)
    | 0x70 => some (4, dev.q0.head)
    | 0x78 => some (4, dev.q1.head)
    | 0x80 => some (4, dev.defport.toNat)
    | 0x90 => some (4, qerrBits dev.q0)
    | 0x94 => some (4, qerrBits dev.q1)
    | _ => none

/-- R4, R302: the host reads a register of the window at its own size. Where no register begins, the read is refused (the
spec gives no effect; the model's choice, log 32). -/
def readRegister (offset : Nat) (s : State) : State :=
  { s with hostReply := match registerAt s offset with
      | some (n, v) => .bytes (toBytes v n)
      | none => .refused }

/-! Taking an entry. -/

/-- The bytes of the entry at QHEAD. -/
def headEntry (s : State) (q : Bool) : List Byte := cellsRead s.host ((s.queue q).base.toNat + 64 * (s.queue q).head) 64

/-- The fields of an entry (R287). -/
def opOf (e : List Byte) : Nat := natAt e 0 1
def ctxOf (e : List Byte) : Nat := natAt e 2 1
def opnd (e : List Byte) (i : Nat) : DWord := dwordAt e (8 + 8 * i)
def entryClean (e : List Byte) : Bool := natAt e 1 1 == 0 && natAt e 3 1 == 0

/-- R288, R304, R305: whether a command processor takes its next entry. A device that is fatal or stopped does nothing
but a RESYNC, and one in recovery is not ready. -/
def takes (s : State) (q : Bool) : Bool :=
  s.dev.ready && (s.queue q).valid && (s.queue q).head != (s.queue q).tail &&
  ((!s.dev.fatal && !s.dev.stopped) || opOf (headEntry s q) == 8)

/-- A command ends: its STATUS is written, and QHEAD goes on (R287, R304). -/
def endCommand (q : Bool) (status : Nat) (s : State) : State :=
  let u := s.queue q
  { (s.setQueue q { u with head := (u.head + 1) % u.size, asked := [] }) with
    host := cellsWrite s.host (u.base.toNat + 64 * u.head + 4) (toBytes status 4) }
def failCommand (q : Bool) (code : Nat) (s : State) : State := endCommand q (2 ^ 31 + code) s
def doneCommand (q : Bool) (s : State) : State := endCommand q 1 s

/-- Command processor q takes the entry at its head, where it is command op. -/
def takeOp (q : Bool) (op : Nat) (f : List Byte → State → State) (s : State) : State :=
  let e := headEntry s q
  if !takes s q || opOf e != op then s
  else if !entryClean e then failCommand q 1 s
  else f e s

/-- R287: a command to a context that there is, on the queue that it is bound to. -/
def forCtx (q : Bool) (f : List Byte → Ctx → State → State) (e : List Byte) (s : State) : State :=
  match s.ctx? (ctxOf e) with
  | none => failCommand q 2 s
  | some x => if x.cp != q then failCommand q 4 s else f e x s

/-! Contexts. -/

/-- R286: the block that a device address gives context c, or none where it is a bad one: one that reads as poison too (R278,
R298, log 39). -/
def readBlock (s : State) (c : Nat) (a : DWord) : Option Block286 :=
  let b := (deviceRead s c a.toNat 128).getD []
  let d (i : Nat) : DWord := dwordAt b i
  let w (i : Nat) : Nat := natAt b i 4
  let brkOk (v : DWord) : Bool := bitAt v.toNat 1 == false && bitsOf v.toNat 57 7 == 0
  let ok := a.toNat % 64 == 0 && decide (a.toNat + 128 ≤ 2 ^ 40) && b.length == 128 &&
    bitsOf (d 0).toNat 40 24 == 0 && bitsOf (d 0).toNat 1 11 == 0 &&
    bitsOf (d 8).toNat 57 7 == 0 && bitsOf (d 8).toNat 0 2 == 0 &&
    bitsOf (w 0x10) 2 30 == 0 && bitsOf (w 0x14) 16 16 == 0 &&
    (d 0x18).toNat % 64 == 0 && (d 0x20).toNat % 64 == 0 &&
    brkOk (d 0x28) && brkOk (d 0x30) &&
    bitsOf (w 0x38) 20 12 == 0 && bitsOf (w 0x3C) 6 26 == 0 &&
    (d 0x40).toNat % 65536 == 0 && decide (2 ^ 26 ≤ (d 0x48).toNat) &&
    decide ((d 0x58).toNat ≤ 16384) &&
    (d 0x60).toNat % 32 == 0 && (d 0x68).toNat % 32 == 0 &&
    bitsOf (d 0x70).toNat 57 7 == 0 && bitsOf (d 0x70).toNat 1 37 == 0 && (d 0x78).toNat == 0
  if ok then
    some { ptroot := d 0, handler := d 8, wglog := bitAt (w 0x10) 0, sstep := bitAt (w 0x10) 1
           twto := BitVec.ofNat 32 (w 0x14), logbase := d 0x18, logsize := d 0x20, brk0 := d 0x28, brk1 := d 0x30
           quota := BitVec.ofNat 32 (w 0x38), hostacct := w 0x3C, pool := d 0x40, poolsize := d 0x48
           peertab := d 0x50, npeer := (d 0x58).toNat, errlog := d 0x60, errsize := d 0x68, expbase := d 0x70 }
  else none

/-- The format table of a new context (R98, R105). -/
def freshTable : Vector DWord 48 := Vector.ofFn fun i : Fin 48 => fixedEntries.getD i.val 0

/-- A context as CREATE makes it (R98, R149, R215, R286). TWTO, HANDLER and PTROOT have the block's values, which CREATE reads, and
not the reset values 100, 0 and 0 that R232, R263 and R241 give them (R6 and R286 do not say which holds at a context's creation:
the model's choice, log 44). -/
def newCtx (id : Nat) (q : Bool) (b : Block286) : Ctx where
  id := id
  cp := q
  cfg := b
  pending := none
  root := b.ptroot
  fmtTable := freshTable
  weights := Vector.replicate 4 (clampWeights 0x88888 b.quota)
  linkWeight := clampWeights 0x88888 b.quota
  cancelSet := []
  slots := []
  readySeq := 0
  intake := 0
  starting := none
  fatal := none

/-- R286, R289: CREATE; the error log of the context holds nothing yet. -/
def createCtx (q : Bool) (e : List Byte) (s : State) : State :=
  if (s.ctx? (ctxOf e)).isSome then failCommand q 2 s
  else
    match readBlock s (ctxOf e) (opnd e 0) with
    | none => failCommand q 3 s
    | some b => doneCommand q (deviceWrite { s with
        ctxs := s.ctxs ++ [newCtx (ctxOf e) q b]
        wrote := s.wrote.filter (·.1 != ctxOf e) } (ctxOf e) none b.pool.toNat (List.replicate 8 0))
def execCreate (q : Bool) (s : State) : Out := .next (takeOp q 1 (createCtx q) s)

/-- R298: a TDI leaves RUN, or is unlocked: its keys are destroyed, and after RUN its regions read as poison. -/
def Tdi.leave (t : Tdi) : Tdi := { t with keys := [], state := .stopped }
def stopTdi (s : State) (t : Tdi) : State :=
  let ram := if t.state == .run then t.regions.foldl (fun (r : Ram) x => r.addPoison x.base x.size) s.device else s.device
  { s with device := ram, dev := { s.dev with tdis := mapWhere (·.num == t.num) Tdi.leave s.dev.tdis } }

/-- The node slots of a context whose nodes have not ended. -/
def openSlots (x : Ctx) : List Nat :=
  (x.slots.filter fun v => match v.node with
    | some n => n.state == NodeState.waiting || n.state == NodeState.running
    | none => false).map (·.num)

/-- R287: everything of a context stops. Its waiting nodes end CANCELLED, and so do its running ones, each once peers have
acknowledged its writes (R294). -/
def stopCtx (c : Nat) (s : State) : State :=
  let s := (s.launches.filter (·.ctx == c)).foldl (fun s l => stopLaunch s l .cancelled 0) s
  let s := { s with
    gangs := s.gangs.filter (·.ctx != c)
    progs := s.progs.filter (·.ctx != c)
    spans := s.spans.filter (·.ctx != c) }
  match s.ctx? c with
  | some x =>
    let held := (s.launches.filter (·.ctx == c)).map (·.slot)
    slotActs s c (((openSlots x).filter fun n => !held.contains n).map fun n => .finish n .cancelled 0)
  | none => s

/-- R287: a context that has stopped goes, and its TDIs leave RUN. Its benches have changed context for whatever runs there next
(R165, R277). -/
def dropCtx (c : Nat) (s : State) : State :=
  let s := (s.dev.tdis.filter fun t => t.ctx == c && t.state != .stopped).foldl stopTdi s
  { s with
    ctxs := s.ctxs.filter (·.id != c)
    tlb := s.tlb.filter (·.ctx != c)
    walks := s.walks.filter (·.ctx != c)
    fetched := s.fetched.filter (·.ctx != c)
    decoded := s.decoded.filter (·.ctx != c)
    wrote := s.wrote.filter (·.1 != c)
    cpWrites := s.cpWrites.filter (·.ctx != c)
    peerWaits := s.peerWaits.filter (·.req.ctx != c)
    benchChanged := addNew ((s.benchCtx.filter (·.2 == c)).map (·.1)) s.benchChanged
    benchCtx := s.benchCtx.filter (·.2 != c) }

/-- R287, R294: DESTROY. It completes once every node of the context is terminal. -/
def removeCtx (q : Bool) (c : Nat) (s : State) : State :=
  let s := stopCtx c s
  if s.launches.any (·.ctx == c) then s else doneCommand q (dropCtx c s)
def execDestroy (q : Bool) (s : State) : Out :=
  .next (takeOp q 2 (forCtx q fun _ x s => removeCtx q x.id s) s)

/-- R286: CONFIG. BRK0, BRK1, SSTEP and QUOTA take effect now, the rest at the context's next node start. -/
def configure (b : Block286) (x : Ctx) : Ctx :=
  { x with
    cfg := { x.cfg with brk0 := b.brk0, brk1 := b.brk1, sstep := b.sstep, quota := b.quota }
    pending := some b
    weights := x.weights.map fun w => clampWeights w b.quota
    linkWeight := clampWeights x.linkWeight b.quota }
def configCtx (q : Bool) (e : List Byte) (x : Ctx) (s : State) : State :=
  match readBlock s x.id (opnd e 0) with
  | none => failCommand q 3 s
  | some b => doneCommand q (s.mapCtx x.id (configure b))
def execConfig (q : Bool) (s : State) : Out := .next (takeOp q 3 (forCtx q (configCtx q)) s)

/-! Nodes and tokens. -/

/-- R291, R293: the command at a queue's head waits for memory, for the requests with the given keys where a peer has to answer;
nothing of it has happened (log 17). -/
def waitCommand (q : Bool) (keys : List Nat) (s : State) : State :=
  let u := s.queue q
  s.setQueue q { u with asked := u.asked.still s keys }

/-- R146, R287, R371: SUBMIT. -/
def submitNode (q : Bool) (e : List Byte) (x : Ctx) (s : State) : State :=
  let a := opnd e 0
  let asked := (s.queue q).asked
  match cpRead asked 0 (fun b => (recordOf b).acct) s x.id a 80 with
  | (.refused, s) => failCommand q 6 s
  | (.waits keys, s) => waitCommand q keys s
  | (.got b, s) =>
    match cpCanWrite asked 1 s x.id (a + 0x44) 4 with
    | .refused => failCommand q 6 s
    | .waits keys => waitCommand q keys s
    | .got _ =>
      match submitRead asked s x.id a b none with
      | .got s => doneCommand q s
      | r => waitCommand q r.keys s
def execSubmit (q : Bool) (s : State) : Out := .next (takeOp q 4 (forCtx q (submitNode q)) s)

/-- R149: CANCEL and UNCANCEL of the token in OPND0[15:0]. -/
def tokenOf (e : List Byte) : Nat := natAt e 8 2
def execCancel (q : Bool) (s : State) : Out :=
  .next (takeOp q 5 (forCtx q fun e x s => doneCommand q (cancelToken s x.id (tokenOf e))) s)
def execUncancel (q : Bool) (s : State) : Out :=
  .next (takeOp q 6 (forCtx q fun e x s => doneCommand q (uncancelToken s x.id (tokenOf e))) s)

/-- R259, R287: ICINV at DEVICE scope over a range. -/
def execHostIcinv (q : Bool) (s : State) : Out :=
  .next (takeOp q 7 (forCtx q fun e _ s =>
    doneCommand q (dropFetch (fun _ => true) (opnd e 0).toNat (opnd e 1).toNat s)) s)

/-! RESYNC. -/

/-- The code of a port's state (R305); a link that is not up has the code of FAILED (the model's own, log 35). -/
def Port.code : Port → Nat
  | .up => 0
  | .retrain _ => 1
  | .failed => 2
def upCode (up : Bool) : Nat := if up then 0 else 2
def HostLink.isUp : HostLink → Bool
  | .up _ _ _ => true
  | .down => false

/-- The nodes of a context in a state. -/
def nodesIn (x : Ctx) (st : NodeState) : Nat :=
  (x.slots.filter fun v => match v.node with
    | some n => n.state == st
    | none => false).length

/-- The low half of a context's count of error records; where it reads as poison no rule gives a value, and it is free (R305,
log 39). -/
def errorCount (s : State) (c : Nat) : Word :=
  ((deviceRead s c (s.cfg c).pool.toNat 4).map wordOf).getD (Config.freeWord (s.tick + c))

/-- A context's 32 bytes of the summary. -/
def ctxSummary (s : State) (c : Nat) : List Byte :=
  match s.ctx? c with
  | none => List.replicate 32 0
  | some x =>
    toBytes (1 + (if x.cp then 2 else 0) + (if x.fatal.isSome then 4 else 0)) 4 ++ toBytes (nodesIn x .running) 4 ++
    toBytes (nodesIn x .waiting) 4 ++ toBytes (errorCount s c).toNat 4 ++ List.replicate 16 0

/-- R305: the summary. The places within its first 256 bytes are the model's own, where the rule gives none (log 35). -/
def summaryOf (s : State) (h0 h1 : Nat) : List Byte :=
  toBytes (statusBits s) 8 ++ toBytes s.clock.toNat 8 ++
  (toBytes h0 4 ++ toBytes s.dev.q0.tail 4 ++ toBytes h1 4 ++ toBytes s.dev.q1.tail 4) ++
  (toBytes (upCode s.dev.link.isUp) 4 ++ (s.dev.ports.toList.flatMap fun p => toBytes p.code 4) ++
    (s.dev.fabricPorts.toList.flatMap fun up => toBytes (upCode up) 4)) ++ List.replicate 156 0 ++
  (List.range 256).flatMap (ctxSummary s) ++ List.replicate 7936 0

/-- R287, R305: RESYNC of a context that there is, on its own queue (log 31). Its own entry counts as taken. -/
def resyncHost (q : Bool) (e : List Byte) (s : State) : State :=
  let u := s.queue q
  let next := (u.head + 1) % u.size
  let b := summaryOf s (if q then s.dev.q0.head else next) (if q then next else s.dev.q1.head)
  doneCommand q { s with host := cellsWrite s.host (opnd e 0).toNat b, tick := s.tick + 256 }
def execResync (q : Bool) (s : State) : Out := .next (takeOp q 8 (forCtx q fun e _ s => resyncHost q e s) s)

/-! TWCLR. -/

/-- R222: one sector of the frame part becomes zero, and its count word EMPTY. -/
def clearSector (s : State) (x : Nat) : State :=
  setCount { s with device := (s.device.write x (List.replicate 32 0)).unpoison [(x, 32)] } (s.countAddr x) 0 0

/-- R222: consuming reads that wait on blocks of a range fault with ADJ_TIMEOUT, or stop their programs. -/
def failRange (lo len : Nat) (s : State) : State :=
  let progs := s.progs.filterMap fun p =>
    match ((waitsOn s p).filter fun b => decide (lo ≤ b.2) && decide (b.2 < lo + len)).map (·.1) with
    | [] => none
    | l => some (p.id, lowestAddr l)
  let s := { s with peerWaits := s.peerWaits.map (failPeer lo len s) }
  let s := (waitingStrips s).foldl (fun s k => failReads lo len k.1 k.2 s) s
  progs.foldl (fun s k => stopProg s k.1 0x16 (low57 k.2)) s

/-- R222, R287: TWCLR; CTX is ignored. -/
def clearTwins (q : Bool) (e : List Byte) (s : State) : State :=
  let lo := (opnd e 0).toNat
  let len := (opnd e 1).toNat
  if lo % 32 ≠ 0 || len % 32 ≠ 0 || decide (lo < s.poolBase) || decide (s.frameEnd < lo + len) then failCommand q 5 s
  else doneCommand q ((List.range (len / 32)).foldl (fun s i => clearSector s (lo + 32 * i)) (failRange lo len s))
def execTwclr (q : Bool) (s : State) : Out := .next (takeOp q 9 (clearTwins q) s)

/-! A command processor's turn. -/

/-- R287: a command processor takes its next entry, whatever command it is, once it has tried the writes that it has yet to
make (R291, R371). -/
def queueTurn (q : Bool) (s : State) : Out :=
  let s := retryWrites s
  if !takes s q then .next s
  else
    match opOf (headEntry s q) with
    | 1 => execCreate q s
    | 2 => execDestroy q s
    | 3 => execConfig q s
    | 4 => execSubmit q s
    | 5 => execCancel q s
    | 6 => execUncancel q s
    | 7 => execHostIcinv q s
    | 8 => execResync q s
    | 9 => execTwclr q s
    | _ => .next (failCommand q 1 s)

end Sys2Proof.Machine
end

