-- ==== Sys2Proof/Machine/Formats.lean ====
section
/-! DEFINITION. The format table and the strip's controls: FMTSET, FMTGET, FMTSEL (R108, R335 to R337), MODESET (R349) and
SETSR (R361). -/

namespace Sys2Proof.Machine

/-- FMT and MODE without their reserved bits (R5, R50, R51). -/
def fmtBits (v : Word) : Word := v &&& 0x3F3F3F3F
def modeBits (v : Word) : Word := v &&& 0x000033FF

/-- Whether every slot of an FMT value names an entry (R50). -/
def fmtNames (v : Word) : Bool := (List.range 4).all fun i => decide (bitsOf v.toNat (8 * i) 6 < 48)

/-- Whether a MODE value has a rounding mode (R51). -/
def modeNames (v : Word) : Bool := bitsOf v.toNat 0 3 != 0 && bitsOf v.toNat 0 3 != 7

/-- R104, R337: whether FMTSET accepts w as entry i: it is consistent, and so is every entry that names i as its scale. -/
def fmtsetAccepts (table : Vector DWord 48) (i : Nat) (w : DWord) : Bool :=
  let after := vset table i w
  consistent table i w &&
  (List.range 48).all fun j =>
    let f := Ent.of (vget after j 0)
    j == i || f.blk != 3 || f.sidx != i || consistent after j (vget after j 0)

/-- R337: FMTSET. -/
def fmtsetBody (w : W2) (q : Seat) : Done := .of do
  let i := w.d.toNat
  let v := q.fr.pair w.a.toNat
  if i < 16 then .error (plainTrap q.t 0x0A)
  else
    match v with
    | .u new =>
      refuseIf (!fmtsetAccepts q.x.fmtTable i new) (plainTrap q.t 0x0A)
      let s := q.s.mapCtx q.g.ctx fun x => { x with fmtTable := vset x.fmtTable i new }
      .ok (.next s (q.t.withFrame (q.fr.free w.la 64 w.a.toNat)))
    | _ => .error (plainTrap q.t 0x0B)
def execFmtset (w : W2) (s : State) : Out := runStrip (.fmtset w) (fmtsetBody w) s

/-- R335: FMTGET. -/
def fmtgetBody (w : WNoLa) (n : Info) (fr : Frame) : Do Frame := fr.setPair w.d.toNat (.u (vget n.x.fmtTable w.a.toNat 0))
def execFmtget (w : WNoLa) (s : State) : Out := runAlu (.fmtget w) (fmtgetBody w) s

/-- R336: FMTSEL.S0 to S3. -/
def fmtselSlotBody (code : BitVec 6) (n : BitVec 2) (fr : Frame) : Do Frame :=
  if 48 ≤ code.toNat then illegalFormat
  else
    let sh := 8 * n.toNat
    .ok { fr with fmt := (fr.fmt &&& ~~~((0x3F : Word) <<< sh)) ||| (code.setWidth 32 <<< sh) }
def execFmtselSlot (st : Bool) (code : BitVec 6) (n : BitVec 2) (x : Option XWord) (s : State) : Out :=
  runAlu (.fmtselSlot st code n x) (fun _ => fmtselSlotBody code n) s

/-- R336: FMTSEL of a register. -/
def fmtselRegBody (w : WSrc) (fr : Frame) : Do Frame := do
  let v := fr.reg w.a.toNat
  match v with
  | .u v =>
    if fmtNames (loOf v) then .ok { fr.free w.la 32 w.a.toNat with fmt := fmtBits (loOf v) } else illegalFormat
  | _ => notUniform
def execFmtselReg (w : WSrc) (s : State) : Out := runAlu (.fmtselReg w) (fun _ => fmtselRegBody w) s

/-- R349: MODESET. -/
def modesetBody (w : WSrc) (fr : Frame) : Do Frame := do
  let v ← (fr.reg w.a.toNat).uni
  if modeNames (loOf v) then .ok { fr.free w.la 32 w.a.toNat with mode := modeBits (loOf v) } else illegalOp
def execModeset (w : WSrc) (s : State) : Out := runAlu (.modeset w) (fun _ => modesetBody w) s
def modesetRmBody (rm : BitVec 3) (fr : Frame) : Do Frame :=
  .ok { fr with mode := (fr.mode &&& ~~~(7 : Word)) ||| rm.setWidth 32 }
def execModesetRm (st : Bool) (rm : BitVec 3) (x : Option XWord) (s : State) : Out :=
  runAlu (.modesetRm st rm x) (fun _ => modesetRmBody rm) s
def modesetClrBody (w : WSrc) (fr : Frame) : Do Frame := do
  let v ← (fr.reg w.a.toNat).uni
  .ok { fr.free w.la 32 w.a.toNat with fpstat := fr.fpstat &&& ~~~(loOf v &&& 0x3F) }
def execModesetClr (w : WSrc) (s : State) : Out := runAlu (.modesetClr w) (fun _ => modesetClrBody w) s

/-- R361: SETSR; its value is the U register or, for SR_EPC with W, the U pair. -/
def setsrBody (w : W2) (q : Seat) : Done := .of do
  let v ← q.part (if wideOf w.x then (q.fr.pair w.a.toNat).uni else (q.fr.reg w.a.toNat).uni)
  let lo := loOf v
  let t := q.t.withFrame (q.fr.free w.la (if wideOf w.x then 64 else 32) w.a.toNat)
  match w.d.toNat with
  | 0x10 => if fmtNames lo then .ok (.next q.s { t with fmt := fmtBits lo }) else .error (plainTrap q.t 0x0A)
  | 0x11 => if modeNames lo then .ok (.next q.s { t with mode := modeBits lo }) else .error (plainTrap q.t 0x08)
  | 0x12 => .ok (.next q.s { t with fpstat := t.fpstat &&& ~~~(lo &&& 0x3F) })
  | 0x13 => .ok (.next q.s { t with cause := lo &&& 0xFF })
  | 0x1D => .ok (.next q.s { t with staged := some lo })
  | 0x1E =>
    let low := t.staged.getD (loOf q.x.root)
    .ok (.next (q.s.mapCtx q.g.ctx fun x => { x with root := join64 low lo }) { t with staged := none })
  | _ =>
    let new := if wideOf w.x then v else join64 lo (hiOf t.epc)
    if new.toNat % 4 != 0 || (wideOf w.x && decide (2 ^ 57 ≤ v.toNat)) then .error (plainTrap q.t 0x08)
    else .ok (.next q.s { t with epc := new })
def execSetsr (w : W2) (s : State) : Out := runStrip (.setsr w) (setsrBody w) s

end Sys2Proof.Machine
end

