-- ==== Sys2Proof/Machine/Moves.lean ====
section
/-! DEFINITION. Integer comparisons and their range predicates (R339, R340, R48), PLOP (R351, R49), the move words (R347) and
the special registers (R54, R55). -/

namespace Sys2Proof.Machine

/-! Range predicates. -/

/-- The sum of floor((a·i + b) / m) over i below n, by Euclid's steps; fuel bounds them. -/
def floorSum : (fuel n m a b : Nat) → Nat
  | 0, _, _, _, _ => 0
  | fuel + 1, n, m, a, b =>
    if n = 0 then 0
    else
      let base := n * (n - 1) / 2 * (a / m) + n * (b / m)
      let a := a % m
      let b := b % m
      let top := a * n + b
      if top < m then base else base + floorSum fuel (top / m) a m (top % m)

/-- How many i below n have (a·i + b) mod m below len, for len at most m. -/
def countBelow (n m a b len : Nat) : Nat := floorSum 200 n m a b + n - floorSum 200 n m a (b + m - len)

/-- A cyclic interval of 32-bit values: its start and its length. -/
structure Arc where
  lo : Nat
  len : Nat
  deriving DecidableEq, Repr

/-- How many of n values base, base + st, … modulo 2^32 lie in an arc. -/
def arcCount (v : Arc) (base st n : Nat) : Nat := countBelow n (2 ^ 32) st ((base + 2 ^ 32 - v.lo) % 2 ^ 32) v.len

/-- Whether value x lies in an arc. -/
def arcHas (v : Arc) (x : Nat) : Bool := decide ((x + 2 ^ 32 - v.lo) % 2 ^ 32 < v.len)

/-- The values v that satisfy cond against u, v on the left or on the right. -/
def arcOf (c : ICond) (u : Nat) (left : Bool) : Arc :=
  let m := 2 ^ 32
  let sgn := (u + 2 ^ 31) % m
  match c, left with
  | .lt, true | .gt, false => Arc.mk (2 ^ 31) sgn
  | .le, true | .ge, false => Arc.mk (2 ^ 31) (sgn + 1)
  | .gt, true | .lt, false => Arc.mk ((u + 1) % m) (m - 1 - sgn)
  | .ge, true | .le, false => Arc.mk u (m - sgn)
  | .ltn, true => Arc.mk 0 u
  | .gen, true => Arc.mk u (m - u)
  | .ltn, false => Arc.mk ((u + 1) % m) (m - 1 - u)
  | .gen, false => Arc.mk 0 (u + 1)
  | .eq, _ => Arc.mk u 1
  | .ne, _ => Arc.mk ((u + 1) % m) (m - 1)

/-- The number of i from 0 to n − 1 whose value lies in the arc while the next one's does not: the arc less its part that
stays inside after a step. -/
def fallsOut (v : Arc) (base st n : Nat) : Nat :=
  let m := 2 ^ 32
  let st := st % m
  -- x in v and x + st not in v: x − v.lo in [0, len), and x − v.lo in [m − st, m − st + m − len) + len …
  let b := (base + m - v.lo) % m
  -- of the positions p = x − lo below len, those with (p + st) mod m at or above len
  let stayLow := if st < v.len then v.len - st else 0          -- p + st < len
  let wrapFrom := m - st                                       -- p + st wraps to p − wrapFrom
  let stayHigh := if wrapFrom < v.len then v.len - wrapFrom else 0
  let low := countBelow n m st b (if st = 0 then v.len else stayLow)
  let high := if st = 0 then 0 else countBelow n m st ((b + m - wrapFrom % m) % m) stayHigh
  countBelow n m st b v.len - low - high

/-- The least k at most n with arcCount of the first k values above 0, by halving; fuel bounds the steps. -/
def firstIn (v : Arc) (base st : Nat) : (fuel lo hi : Nat) → Nat
  | 0, lo, _ => lo
  | fuel + 1, lo, hi =>
    if lo + 1 ≥ hi then lo
    else
      let mid := (lo + hi) / 2
      if arcCount v base st mid = 0 then firstIn v base st fuel mid hi else firstIn v base st fuel lo mid

/-- R48: the true set of an affine source against a U one over a box of n coordinates from o, where it is one interval. An
empty set is an empty interval. -/
def intervalOf (v : Arc) (base st o n : Nat) : Option (Nat × Nat) :=
  let m := 2 ^ 32
  let at0 := (base + st * o) % m
  let count := arcCount v at0 st n
  if count = 0 then some (o, o)
  else if count = n then some (o, o + n)
  else
    let first := arcHas v at0
    let last := arcHas v (at0 + st * (n - 1) % m)
    let outs := fallsOut v at0 st (n - 1)
    let runs := outs + (if last then 1 else 0)
    if runs ≠ 1 then none
    else if first then some (o, o + count)
    else if last then some (o + n - count, o + n)
    else
      let lo := firstIn v at0 st 40 0 n
      some (o + lo, o + lo + count)

/-- The axis, base and stride of an affine value with exactly one non-zero stride (modulo 2^32). -/
def oneStride (f : Aff) : Option (Axis × Nat × Nat) :=
  let g := f.low
  match g.sx != 0, g.sy != 0, g.sz != 0 with
  | true, false, false => some (.x, g.base.toNat, g.sx.toNat)
  | false, true, false => some (.y, g.base.toNat, g.sy.toNat)
  | false, false, true => some (.z, g.base.toNat, g.sz.toNat)
  | _, _, _ => none

/-- The start and extent of a box along an axis. -/
def boxOn (b : Box) (axis : Axis) : Nat × Nat :=
  match axis with
  | .x => (b.ox, b.ex)
  | .y => (b.oy, b.ey)
  | .z => (b.oz, b.ez)

/-- The truth of a comparison (R339). -/
def icmp (c : ICond) (w : Nat) (a b : DWord) : Bool :=
  let x := readInt (if w = 64 then .i64 else .i32) a
  let y := readInt (if w = 64 then .i64 else .i32) b
  let m := readInt (if w = 64 then .n64 else .n32) a
  let n := readInt (if w = 64 then .n64 else .n32) b
  match c with
  | .eq => m == n
  | .ne => m != n
  | .lt => decide (x < y)
  | .le => decide (x ≤ y)
  | .gt => decide (x > y)
  | .ge => decide (x ≥ y)
  | .ltn => decide (m < n)
  | .gen => decide (m ≥ n)

/-- R48: the range predicate of an ordered 32-bit comparison of an affine and a U source, where there is one. -/
def rangeVal (fr : Frame) (c : ICond) (a b : Val) : Option PVal :=
  let go (f : Aff) (u : DWord) (left : Bool) : Option PVal :=
    match oneStride f with
    | none => none
    | some (axis, base, st) =>
      let (o, n) := boxOn fr.box axis
      (intervalOf (arcOf c (u.toNat % 2 ^ 32) left) base st o n).map fun (lo, hi) => .range axis lo hi
  match c, a, b with
  | .eq, _, _ => none
  | .ne, _, _ => none
  | _, .a f, .u y => go f y true
  | _, .u x, .a f => go f x false
  | _, _, _ => none

/-- ICMP's predicate (R48, R49). -/
def icmpVal (fr : Frame) (c : ICond) (w : Nat) (a b : Val) : PVal :=
  match a, b with
  | .u x, .u y => .u (icmp c w x y)
  | a, b =>
    match (if w = 64 then none else rangeVal fr c a b) with
    | some p => p
    | none => .l fun l => icmp c w (a.at_ fr l) (b.at_ fr l)

def cmpWidth (x : Option XWord) : Nat := if wideOf x then 64 else 32

/-- R339: ICMP. -/
def execIcmp (c : ICond) (w : WCmp) (s : State) : Out :=
  runAlu (.icmp c w) (fun _ fr =>
    let n := cmpWidth w.x
    let v := icmpVal fr c n (fr.src n w.a.toNat) (fr.src n w.b.toNat)
    ((fr.free w.la n w.a.toNat).free w.lb n w.b.toNat).setPred w.p.toNat v) s

/-- R339: ICMP.G. -/
def execIcmpG (c : ICond) (w : WCmp) (s : State) : Out :=
  runAlu (.icmpG c w) (fun _ fr => do
    let n := cmpWidth w.x
    let a ← (fr.src n w.a.toNat).uni
    let b ← (fr.src n w.b.toNat).uni
    ((fr.free w.la n w.a.toNat).free w.lb n w.b.toNat).setPred w.p.toNat (.u (icmp c n a b))) s

/-! PLOP. -/

/-- Entry (a, b) of PLOP's table. -/
def plopBit (t : BitVec 4) (a b : Bool) : Bool := t.getLsbD ((if a then 2 else 0) + (if b then 1 else 0))

/-- Whether a table depends on its first or second source. -/
def plopOnA (t : BitVec 4) : Bool := plopBit t false false != plopBit t true false || plopBit t false true != plopBit t true true
def plopOnB (t : BitVec 4) : Bool := plopBit t false false != plopBit t false true || plopBit t true false != plopBit t true true

/-- A range predicate or, where neg, its negation within the box, where that is one interval (R49). -/
def rangeCopy (box : Box) (axis : Axis) (lo hi : Nat) (neg : Bool) : Option PVal :=
  if !neg then some (.range axis lo hi)
  else
    let (o, n) := boxOn box axis
    let lo' := if lo < o then o else lo
    let hi' := if hi > o + n then o + n else hi
    if lo' ≥ hi' then some (.range axis o (o + n))
    else if lo' = o then some (.range axis hi' (o + n))
    else if hi' = o + n then some (.range axis o lo')
    else none

/-- PLOP's predicate (R49, R351). -/
def plopVal (fr : Frame) (t : BitVec 4) (a b : PVal) : PVal :=
  let lanes : PVal := .l fun l => plopBit t (a.at_ fr l) (b.at_ fr l)
  match plopOnA t, plopOnB t, a, b with
  | false, false, _, _ => .u (plopBit t false false)
  | true, false, .u x, _ => .u (plopBit t x false)
  | false, true, _, .u y => .u (plopBit t false y)
  | true, true, .u x, .u y => .u (plopBit t x y)
  | true, false, .range axis lo hi, _ => (rangeCopy fr.box axis lo hi (plopBit t false false)).getD lanes
  | false, true, _, .range axis lo hi => (rangeCopy fr.box axis lo hi (plopBit t false false)).getD lanes
  | _, _, _, _ => lanes

/-- R351: PLOP. -/
def execPlop (b : Bool) (pd pa pb : BitVec 5) (t : BitVec 4) (x : Option XWord) (s : State) : Out :=
  runAlu (.plop b pd pa pb t x) (fun _ fr =>
    fr.setPred pd.toNat (plopVal fr t (fr.pred pa.toNat) (fr.pred pb.toNat))) s

/-! Moves. -/

/-- The class bits XS and XD (R80). -/
def xsOf (x : Option XWord) : Bool := (x.map fun m => m.cls.getLsbD 1).getD false
def xdOf (x : Option XWord) : Bool := (x.map fun m => m.cls.getLsbD 2).getD false

/-- A MOV's source: a v register where XS says so. -/
def movSource (w : W2) (fr : Frame) : Val :=
  if xsOf w.x then (if wideOf w.x then fr.vpair w.a.toNat else fr.vreg w.a.toNat)
  else fr.src (cmpWidth w.x) w.a.toNat

/-- A MOV's last-read. -/
def movFree (w : W2) (fr : Frame) : Frame :=
  if !w.la then fr
  else
    let fr := fr.freeOne w.a.toNat (xsOf w.x)
    if wideOf w.x then fr.freeOne (w.a.toNat + 1) (xsOf w.x) else fr

/-- A MOV's write: to a v register where XD says so. -/
def movWrite (w : W2) (fr : Frame) (v : Val) : Do Frame :=
  if wideOf w.x then fr.setPairAs w.d.toNat v (xdOf w.x) else fr.setRegAs w.d.toNat v (xdOf w.x)

/-- R347: MOV. -/
def execMov (w : W2) (s : State) : Out := runAlu (.mov w) (fun _ fr => movWrite w (movFree w fr) (movSource w fr)) s

/-- R347: MOV.G. -/
def execMovG (w : W2) (s : State) : Out :=
  runAlu (.movG w) (fun _ fr => do
    let v ← (movSource w fr).uni
    movWrite w (movFree w fr) (.u v)) s

/-- R347: MKU takes the value of the lowest active lane. -/
def mkuFrame (w : W2) (fr : Frame) : Do Frame :=
  let v := fr.src (cmpWidth w.x) w.a.toNat
  let l := ((lanesOf fr.active).head?).getD 0
  (fr.free w.la (cmpWidth w.x) w.a.toNat).dst (cmpWidth w.x) w.d.toNat (.u (v.at_ fr l))
def execMku (w : W2) (s : State) : Out := runStrip (.mku w) (fun x => x.done (mkuFrame w x.fr)) s

/-- SR_ITEM as an affine value of the coordinates (R54). An axis of extent 1 has one coordinate, and no stride (log 12). -/
def itemAff (b : Box) : Aff :=
  let sy := if b.ey = 1 then 0 else b.ex
  let sz := if b.ez = 1 then 0 else b.ex * b.ey
  let sx := if b.ex = 1 then 0 else 1
  Aff.mk (BitVec.ofInt 64 (-((sx * b.ox + sy * b.oy + sz * b.oz : Nat) : Int)))
    (BitVec.ofNat 64 sx) (BitVec.ofNat 64 sy) (BitVec.ofNat 64 sz)

/-- A value that needs a strip. -/
def needStrip {α : Type} (info : Info) (f : Gang → Strip → α) : Do α :=
  match info.at_ with
  | some (g, t) => .ok (f g t)
  | none => .error .dealOut

/-- A 32-bit and a 64-bit number as a U value. -/
def uNat (n : Nat) : Val := .u (BitVec.ofNat 64 n)
def uWord (w : Word) : Val := .u (w.setWidth 64)

/-- The value that MOVS reads of special register n, 64 bits wide where wide (R54, R55). -/
def srValue (info : Info) (n : Nat) (wide : Bool) : Do Val :=
  let half (v : DWord) : Val := if wide then .u v else uWord (loOf v)
  match n with
  | 0x00 => .ok (.a (itemAff info.l.rcd.box))
  | 0x01 => .ok (.a (Aff.mk 0 1 0 0))
  | 0x02 => .ok (.a (Aff.mk 0 0 1 0))
  | 0x03 => .ok (.a (Aff.mk 0 0 0 1))
  | 0x04 => needStrip info fun _ _ => .l fun l => BitVec.ofNat 64 (if info.l.hdr.w16 then l % 16 else l)
  | 0x05 => needStrip info fun _ t => uNat t.idx
  | 0x06 => needStrip info fun g _ => uNat g.tile
  | 0x07 => needStrip info fun g _ => uNat g.cx
  | 0x08 => needStrip info fun g _ => uNat g.cy
  | 0x09 => needStrip info fun g _ => uNat g.cz
  | 0x0A => .ok (uNat info.stage)
  | 0x0B => .ok (uNat info.l.group.rank)
  | 0x0C => .ok (uNat info.l.group.nrank)
  | 0x0D => needStrip info fun g _ => uNat ((g.place.map (·.bench)).getD 0)
  | 0x0E => needStrip info fun g _ => uNat ((g.place.map fun p => dieOfBench p.bench).getD g.die)
  | 0x0F => .ok (half info.l.rcd.args)
  | 0x10 => needStrip info fun _ t => uWord t.fmt
  | 0x11 => needStrip info fun _ t => uWord t.mode
  | 0x12 => needStrip info fun _ t => uWord t.fpstat
  | 0x13 => needStrip info fun _ t => uWord t.cause
  | 0x14 => needStrip info fun _ t => .l fun l => vget t.faddr l 0
  | 0x15 => needStrip info fun _ t => .l fun l => (hiOf (vget t.faddr l 0)).setWidth 64
  | 0x16 => needStrip info fun _ t => uWord t.fmask
  | 0x17 => needStrip info fun _ _ => half info.s.clock
  | 0x18 => needStrip info fun _ _ => uWord (hiOf info.s.clock)
  | 0x19 => .ok (uNat (if info.s.dev.c128 then 1 else 0))
  | 0x1A => .ok (half info.l.rcd.pgt)
  | 0x1B => .ok (uNat (if info.l.hdr.w16 then 1 else 0))
  | 0x1C => .ok (uNat info.l.rcd.acct)
  | 0x1D => needStrip info fun _ _ => half info.x.root
  | 0x1E => needStrip info fun _ _ => uWord (hiOf info.x.root)
  | 0x1F => needStrip info fun _ t => half t.epc
  | _ => illegalOp

/-- R347: MOVS. -/
def movsFrame (w : WNoLa) (info : Info) (fr : Frame) : Do Frame := do
  let v ← srValue info w.a.toNat (wideOf w.x)
  fr.dst (cmpWidth w.x) w.d.toNat v
def execMovs (w : WNoLa) (s : State) : Out := runAlu (.movs w) (fun info => movsFrame w info) s
def execMovsG (w : WNoLa) (s : State) : Out :=
  runAlu (.movsG w) (fun info fr => do
    let v ← srValue info w.a.toNat (wideOf w.x)
    let u ← v.uni
    fr.dst (cmpWidth w.x) w.d.toNat (.u u)) s

/-- R347: PMOV from a predicate to a register, and back. -/
def predWord (fr : Frame) (p : PVal) : Val :=
  match p with
  | .u b => uNat (if b then 1 else 0)
  | p => .l fun l => if p.at_ fr l then 1 else 0
def wordPred (fr : Frame) (v : Val) : PVal :=
  match v with
  | .u x => .u (loOf x != 0)
  | v => .l fun l => loOf (v.at_ fr l) != 0
def execPmovToReg (w : WRP) (s : State) : Out :=
  runAlu (.pmovToReg w) (fun _ fr => fr.setReg w.d.toNat (predWord fr (fr.pred w.q.toNat))) s
def execPmovToPred (w : WPred) (s : State) : Out :=
  runAlu (.pmovToPred w) (fun _ fr =>
    (fr.free w.la 32 w.a.toNat).setPred w.p.toNat (wordPred fr (fr.reg w.a.toNat))) s

end Sys2Proof.Machine
end

