-- ==== Sys2Proof/Machine/Lanes.lean ====
section
/-! DEFINITION. Words across the lanes of a strip: SHFL (R137, R362), VOTE (R138, R369), REAP (R138, R356), RNG (R358) and
RNGSEED (R359). -/

namespace Sys2Proof.Machine

/-- The lane-group size: 16 under W16, else 32 (R136). -/
def groupSize (fr : Frame) : Nat := if fr.w16 then 16 else 32

/-- R137: the source lane's offset in its group. -/
def shflSource (op : ShflOp) (j : Nat) (d : Word) : Nat :=
  match op with
  | .lane => d.toNat
  | .back => (j + 2 ^ 32 - d.toNat) % 2 ^ 32
  | .ahead => (j + d.toNat) % 2 ^ 32
  | .pair => j ^^^ d.toNat

/-- R137: SHFL's value for lane l. -/
def shflLane (fr : Frame) (op : ShflOp) (a b : Val) (l : Nat) : DWord :=
  let g := groupSize fr
  let h := l / g * g
  let s := shflSource op (l % g) (loOf (b.at_ fr l))
  if s < g && laneIn fr.active (h + s) then a.at_ fr (h + s) else a.at_ fr l
def shflBody (op : ShflOp) (w : W3) (fr : Frame) : Do Frame :=
  let a := fr.reg w.a.toNat
  let b := fr.reg w.b.toNat
  ((fr.free w.la 32 w.a.toNat).free w.lb 32 w.b.toNat).setReg w.d.toNat (.l (shflLane fr op a b))
def execShfl (op : ShflOp) (w : W3) (s : State) : Out := runStrip (.shfl op w) (fun x => x.done (shflBody op w x.fr)) s

/-- The active lanes of lane l's group. -/
def groupLanes (fr : Frame) (l : Nat) : List Nat :=
  (lanesOf fr.active).filter fun k => k / groupSize fr == l / groupSize fr

/-- A result computed for each group: U natively, L under W16 (R138). f takes a group's active lanes. -/
def groupVal (fr : Frame) (f : List Nat → DWord) : Val :=
  if fr.w16 then .l fun l => f (groupLanes fr l) else .u (f (lanesOf fr.active))
def groupPred (fr : Frame) (f : List Nat → Bool) : PVal :=
  if fr.w16 then .l fun l => f (groupLanes fr l) else .u (f (lanesOf fr.active))

/-- R369: VOTE. -/
def execVoteAll (w : WPP) (s : State) : Out :=
  runStrip (.voteAll w) (fun x => x.done
    (x.fr.setPred w.p.toNat (groupPred x.fr fun ls => ls.all ((x.fr.pred w.q.toNat).at_ x.fr)))) s
def execVoteAny (w : WPP) (s : State) : Out :=
  runStrip (.voteAny w) (fun x => x.done
    (x.fr.setPred w.p.toNat (groupPred x.fr fun ls => ls.any ((x.fr.pred w.q.toNat).at_ x.fr)))) s
def voteMask (fr : Frame) (p : PVal) (ls : List Nat) : DWord :=
  BitVec.ofNat 64 (ls.foldl (fun n l => if p.at_ fr l then n + 2 ^ (l % groupSize fr) else n) 0)
def execVoteMask (w : WRP) (s : State) : Out :=
  runStrip (.voteMask w) (fun x => x.done
    (x.fr.setReg w.d.toNat (groupVal x.fr (voteMask x.fr (x.fr.pred w.q.toNat))))) s
def voteSame (fr : Frame) (v : Val) (ls : List Nat) : Bool :=
  match ls with
  | [] => true
  | h :: r => r.all fun l => loOf (v.at_ fr l) == loOf (v.at_ fr h)
def execVoteSame (w : WPred) (s : State) : Out :=
  runStrip (.voteSame w) (fun x => x.done
    ((x.fr.free w.la 32 w.a.toNat).setPred w.p.toNat (groupPred x.fr (voteSame x.fr (x.fr.reg w.a.toNat))))) s

/-! REAP. -/

/-- The fold of a non-empty list, the first element with itself for an empty rest. -/
def foldWords (f : Word → Word → Word) (vs : List Word) : Word :=
  match vs with
  | [] => 0
  | h :: r => r.foldl f h

/-- R356: the integer folds. -/
def reapInt (op : ReapOp) (vs : List Word) : Word :=
  match op with
  | .add => foldWords (· + ·) vs
  | .min => foldWords (fun a b => if b.toInt < a.toInt then b else a) vs
  | .max => foldWords (fun a b => if b.toInt > a.toInt then b else a) vs
  | .and => foldWords (· &&& ·) vs
  | .or => foldWords (· ||| ·) vs
  | _ => foldWords (· ^^^ ·) vs

/-- R356: the exact sum of FP32 codes; an exact zero is +0, and −0 when every input is −0 or under RD. -/
def reapSum (mode : Nat) (vs : List Num) : Num :=
  let s := match vs with
    | [] => Num.fin false 0 0
    | v :: r => r.foldl (Num.add false) v
  if s.isZero && mode == 4 then .fin true 0 0 else s
def reapFadd (fr : Frame) (mode : Nat) (dw : Word) (vs : List Word) : Nat × Word :=
  let ns := vs.map fun v => entFp32.operand fr.ftz v.toNat
  let bad := !(ns.any Num.isNan) && (ns.any fun v => v.isInf && v.neg) && ns.any fun v => v.isInf && !v.neg
  floatOut fr false mode dw (reapSum mode ns) bad

/-- R356: the fold of R328; a lone NaN becomes the canonical one. -/
def reapFmax (fr : Frame) (vs : List Word) : Nat × Word :=
  let ns := vs.map fun v => entFp32.operand fr.ftz v.toNat
  let m := match ns with
    | [] => Num.fin false 0 0
    | h :: r => r.foldl (pickNum false) h
  let (c, fl) := entFp32.round 1 false 0 (match m with | .nan _ => .nan false | m => m)
  (c, fl ||| flagIf (ns.any Num.isSig) flagIV)

/-- R356: one group's result and flags; a group numbers its one rounding 16·g under W16. -/
def reapGroup (fr : Frame) (op : ReapOp) (mode : Nat) (v : Val) (ls : List Nat) : Nat × Word :=
  let vs := ls.map fun l => loOf (v.at_ fr l)
  match op with
  | .fadd =>
    let j := if fr.w16 then 16 * ((ls.head?.getD 0) / 16) else 0
    reapFadd fr mode (if mode = 6 then drawWord (vget fr.gens fr.srg (Gen.mk 0 0)) j else 0) vs
  | .fmax => reapFmax fr vs
  | op => ((reapInt op vs).toNat, 0)

/-- The groups that have an active lane. -/
def groupsOf (fr : Frame) : List (List Nat) :=
  if fr.w16 then [groupLanes fr 0, groupLanes fr 16].filter (· ≠ []) else [lanesOf fr.active]
def reapBody (op : ReapOp) (w : W2) (fr : Frame) : Do Frame :=
  let mode := if op == .fadd then fr.rounding (rndOf w.x) else 1
  let v := fr.reg w.a.toNat
  let flags := (groupsOf fr).foldl (fun fl ls => fl ||| (reapGroup fr op mode v ls).2) 0
  let out := fr.raise flags
  let out := if mode = 6 then
      { out with gens := vset out.gens fr.srg ((vget out.gens fr.srg (Gen.mk 0 0)).advance 32) }
    else out
  (out.free w.la 32 w.a.toNat).setReg w.d.toNat
    (groupVal fr fun ls => BitVec.ofNat 64 (reapGroup fr op mode v ls).1)
def execReap (op : ReapOp) (w : W2) (s : State) : Out := runStrip (.reap op w) (fun x => x.done (reapBody op w x.fr)) s

/-! Random numbers. -/

/-- R358: (w >> 8) + 1 times 2^-24, as an FP32 code. -/
def unifCode (w : Word) : Nat := (entFp32.round 1 false 0 (.fin false (w.toNat / 256 + 1) (-24))).1

/-- R358: RNG's result for a lane. -/
def rngLane (fn : Nat) (g : Gen) (l : Nat) : DWord :=
  match fn with
  | 0 => (drawWord g l).setWidth 64
  | 1 => BitVec.ofNat 64 (unifCode (drawWord g l))
  | _ => BitVec.ofNat 64 (normDeviate (drawWord g (2 * l)) (drawWord g (2 * l + 1)))
def rngBody (fn : BitVec 3) (w : WNoLa) (fr : Frame) : Do Frame :=
  let g := vget fr.gens w.a.toNat (Gen.mk 0 0)
  let out := { fr with gens := vset fr.gens w.a.toNat (g.advance (if fn.toNat ≤ 1 then 32 else 64)) }
  out.setReg w.d.toNat (.l (rngLane fn.toNat g))
def execRng (fn : BitVec 3) (w : WNoLa) (s : State) : Out := runStrip (.rng fn w) (fun x => x.done (rngBody fn w x.fr)) s

/-- R359: RNGSEED. -/
def rngseedBody (n : BitVec 2) (w : W3) (fr : Frame) : Do Frame := do
  let key ← (fr.pair w.a.toNat).uni
  let ctr ← (fr.pair w.b.toNat).uni
  .ok ({ fr with gens := vset fr.gens n.toNat (Gen.mk key (ctr.setWidth 128)) }.free w.la 64 w.a.toNat |>.free w.lb 64 w.b.toNat)
def execRngseed (n : BitVec 2) (w : W3) (s : State) : Out :=
  runStrip (.rngseed n w) (fun x => x.done (rngseedBody n w x.fr)) s

end Sys2Proof.Machine
end

