-- ==== Sys2Proof/Machine/Dump.lean ====
section
/-! DEFINITION. The dump that firmware writes when an error in device-wide state stops the device (R306): the state of the device
and of every context (R275). No rule gives its layout behind the header (the model's own, log 32). -/

namespace Sys2Proof.Machine

/-- A value that may be absent, behind a word that says whether it is there. -/
def dumpOption {α : Type} (f : α → List Byte) : Option α → List Byte
  | some a => toBytes 1 4 ++ f a
  | none => toBytes 0 4

/-- A list behind its length. -/
def dumpList {α : Type} (f : α → List Byte) (l : List α) : List Byte := toBytes l.length 4 ++ l.flatMap f

def dumpFlags (l : List Bool) : List Byte := toBytes (l.foldr (fun b n => (if b then 1 else 0) + 2 * n) 0) 4

/-! The device. -/

def dumpQueue (u : Queue) : List Byte :=
  toBytes u.base.toNat 8 ++ toBytes u.size 4 ++ toBytes u.head 4 ++ toBytes u.tail 4 ++ toBytes (qerrBits u) 4
def TdiState.code : TdiState → Nat
  | .locked => 0 | .run => 1 | .stopped => 2

/-- A TDI; its keys never leave the assay processor. -/
def dumpTdi (t : Tdi) : List Byte :=
  toBytes t.num 4 ++ toBytes t.ctx 4 ++ toBytes t.state.code 4 ++
  dumpList (fun r : Region => toBytes r.base 8 ++ toBytes r.size 8) t.regions
def dumpDevice (s : State) : List Byte :=
  toBytes s.dev.devid.toNat 8 ++ toBytes (statusBits s) 4 ++ toBytes s.dev.twpool.toNat 4 ++ toBytes s.dev.tierto 4 ++
  dumpFlags [s.dev.c128, s.dev.link.isUp] ++
  s.dev.rowctl.toList.flatMap (fun w => toBytes w.toNat 4) ++ dumpQueue s.dev.q0 ++ dumpQueue s.dev.q1 ++
  s.dev.ports.toList.flatMap (fun p => toBytes p.code 4) ++ s.dev.fabricPorts.toList.flatMap (fun up => toBytes (upCode up) 4) ++
  toBytes s.dev.defport.toNat 4 ++ dumpList (fun r => toBytes r.1 4 ++ toBytes r.2.toNat 16) s.dev.routes ++
  dumpList dumpTdi s.dev.tdis ++
  s.dev.accounts.toList.flatMap fun a => (List.range 6).flatMap fun k => toBytes (a.counter k).toNat 8

/-! Strips, gangs, spans and engine programs. -/

/-- A strip: its image as R61 lays it out, and what R275 saves besides. -/
def dumpStrip (t : Strip) : List Byte :=
  toBytes t.idx 4 ++ toBytes t.live.toNat 4 ++ toBytes t.active.toNat 4 ++ toBytes t.fmask.toNat 4 ++
  dumpFlags [t.halted, t.retired, t.priv] ++ dumpOption (fun e : Mask × Nat => toBytes e.1.toNat 4 ++ toBytes e.2 4) t.elect ++
  t.faddr.toList.flatMap (fun a => toBytes a.toNat 8) ++
  (List.range 128).flatMap (fun k => imageLine t k (List.replicate 128 0)) ++ dumpList parkedBytes t.replay

def RecOp.code : RecOp → Nat
  | .ckpt => 0 | .replay => 1 | .replend => 2

/-- A gang with its tiles, its scratchpad of so many bytes, its barriers, its replay mode and its tokens. -/
def dumpGang (scratch : Nat) (g : Gang) : List Byte :=
  toBytes g.id 8 ++ toBytes g.launch 8 ++ toBytes g.stage 4 ++ toBytes g.tile 4 ++
  dumpList dumpStrip g.strips ++ g.tiles.flatMap (fun a => a.toList.flatMap fun v => toBytes v.toNat 6) ++
  scratchRead g scratch 0 scratch ++
  g.bars.toList.flatMap (fun b => toBytes b.phase 8 ++ dumpList (fun k => toBytes k 4) b.arrived) ++
  toBytes g.recPhase 8 ++
  dumpList (fun a : RecArrival => toBytes a.strip 4 ++ toBytes a.op.code 4 ++ toBytes a.addr.toNat 8) g.recompute ++
  dumpFlags [g.replayMode] ++ toBytes g.nextToken 8 ++
  dumpList (fun k : Token => toBytes k.value.toNat 4 ++ toBytes k.slot 4 ++ toBytes k.prog 8 ++
    dumpFlags [k.collected, k.overtaken]) g.tokens

/-- A register and a predicate of a span, which have U or A form. -/
def dumpReg (r : Reg) : List Byte := toBytes r.tag 4 ++ dumpFlags [r.paired] ++ affBytes (r.symbolic.getD (Aff.mk 0 0 0 0))
def dumpPred : Pred → List Byte
  | .u b => toBytes 0 4 ++ dumpFlags [b] ++ toBytes 0 8
  | .range ax lo hi => toBytes 1 4 ++ toBytes ax.code 4 ++ toBytes lo 4 ++ toBytes hi 4
  | .l m => toBytes 2 4 ++ toBytes m.toNat 4 ++ toBytes 0 8
def dumpBox (b : Box) : List Byte := [b.ox, b.oy, b.oz, b.ex, b.ey, b.ez].flatMap fun n => toBytes n 4

/-- A span record (R124). -/
def dumpSpan (p : Span) : List Byte :=
  toBytes p.id 8 ++ toBytes p.launch 8 ++ toBytes p.stage 4 ++ toBytes p.die 4 ++ dumpBox p.box ++ toBytes p.pc.toNat 8 ++
  p.regs.toList.flatMap dumpReg ++ p.preds.toList.flatMap dumpPred ++
  toBytes p.fmt.toNat 4 ++ toBytes p.mode.toNat 4 ++ toBytes p.fpstat.toNat 4 ++ dumpFlags [p.waiting] ++
  dumpList (fun e : JoinEntry => toBytes e.pc.toNat 8 ++ toBytes e.group 8) p.joins

def EngClass.code : EngClass → Nat
  | .mill => 0 | .cart => 1 | .weav => 2 | .full => 3
  | .stack n => 16 + n

/-- An engine program. -/
def dumpProg (p : Prog) : List Byte :=
  toBytes p.id 8 ++ toBytes p.gang 8 ++ toBytes p.cls.code 4 ++ toBytes p.scope 4 ++ dumpFlags [p.priv, p.replay] ++
  toBytes p.fmt.toNat 4 ++ toBytes p.pc.toNat 8 ++ p.e.toList.flatMap (fun v => toBytes v.toNat 8) ++ imageGen p.gen

/-! Contexts. -/

def dumpSlot (v : Slot) : List Byte :=
  toBytes v.num 4 ++ toBytes v.counter.toNat 4 ++
  dumpOption (fun n : Node => toBytes n.addr.toNat 8 ++ toBytes n.state.code 8) v.node

/-- A launch with its stage queues. -/
def dumpLaunch (l : Launch) : List Byte :=
  toBytes l.id 8 ++ toBytes l.slot 4 ++ dumpFlags [l.nfr] ++ toBytes l.addr.toNat 8 ++
  dumpList (fun u : StageQueue => dumpFlags [u.closed] ++
    dumpList (fun r : List Word => r.flatMap fun w => toBytes w.toNat 4) u.recs) l.queues

/-- The block in force of a context (R286). -/
def dumpBlock (b : Block286) : List Byte :=
  [b.ptroot, b.handler, b.logbase, b.logsize, b.brk0, b.brk1, b.pool, b.poolsize, b.peertab, b.errlog, b.errsize,
    b.expbase].flatMap (fun v => toBytes v.toNat 8) ++
  toBytes b.twto.toNat 4 ++ toBytes b.quota.toNat 4 ++ toBytes b.hostacct 4 ++ toBytes b.npeer 4 ++ dumpFlags [b.wglog, b.sstep]

/-- A context with its nodes, launches, gangs, spans and engine programs. -/
def dumpCtx (s : State) (x : Ctx) : List Byte :=
  let scratch (g : Gang) : Nat := ((s.launch? g.launch).map (·.hdr.scratch)).getD 0
  toBytes x.id 8 ++ toBytes x.root.toNat 8 ++ dumpBlock x.cfg ++ dumpOption dumpBlock x.pending ++
  x.fmtTable.toList.flatMap (fun e => toBytes e.toNat 8) ++
  x.weights.toList.flatMap (fun w => toBytes w.toNat 4) ++ toBytes x.linkWeight.toNat 4 ++
  dumpList (fun t => toBytes t 4) x.cancelSet ++
  dumpOption (fun r : FatalReport =>
    toBytes r.cause.toNat 4 ++ toBytes r.fmask.toNat 4 ++ toBytes r.epc.toNat 8 ++ toBytes r.inner 4) x.fatal ++
  dumpList dumpSlot x.slots ++ dumpList dumpLaunch (s.launches.filter (·.ctx == x.id)) ++
  (s.gangs.filter (·.ctx == x.id)).flatMap (fun g => dumpGang (scratch g) g) ++
  dumpList dumpSpan (s.spans.filter (·.ctx == x.id)) ++ dumpList dumpProg (s.progs.filter (·.ctx == x.id))

/-- R306: the dump, as much of it as the region has room for: its 64 B header with the magic word, the dump's length and
SR_CLOCK, in that order from byte 0, in 8 bytes each, and the state of the device and of every context. That the header's
fields stand there, and that a region too small for the header holds none, is the model's own (log 32). -/
def dumpBytes (s : State) : List Byte :=
  let size := s.dev.assay.rcd.dumpSize
  if size < 64 then []
  else
    let body := (dumpDevice s ++ s.ctxs.flatMap (dumpCtx s)).take (size - 64)
    toBytes 0x4C595344 8 ++ toBytes (64 + body.length) 8 ++ toBytes s.clock.toNat 8 ++ List.replicate 40 0 ++ body

end Sys2Proof.Machine
end

