-- ==== Sys2Proof/Machine/Trust.lean ====
section
/-! DEFINITION. Reset and boot (R23, R171, R221, R295, R296), firmware and recovery (R300), the SPDM responder (R297), TDIs
(R298), errors and heat (R20, R25, R272, R306). -/

namespace Sys2Proof.Machine

/-! Reset and boot. -/

/-- R295: the checks of measured boot: the assay processor's own firmware, the firmware image, the configuration record, and
the record's minimum security version. -/
def bootOk (own flash : Image) (whole : Bool) (r : Record) : Bool :=
  own.signed && whole && flash.signed && r.signed && decide (r.minVersion ≤ flash.version)

/-- R295: the four measurements. -/
def measure (own flash : Image) (r : Record) : List (BitVec 384) :=
  [own.digest, flash.digest, r.digest, BitVec.ofNat 384 flash.version]

/-- The assay processor after a boot. The record that it has read is the one in force, its minimum version and its dump region
too, even where its signature has failed and the device is in RECOVERY: the spec does not say which record is in force then
(R24, R295; the model's choice, log 29). -/
def Assay.boot (a : Assay) (r : Record) : Assay :=
  { a with boots := a.boots + 1, rcd := r, measurements := measure a.own a.flash r }

/-! Identity (R296). -/

/-- The bytes of the public key, the most significant first. -/
def keyBytes : List Byte := (toBytes Config.publicKey.toNat 96).reverse

/-- R296: DEVID is the low 64 bits of SHA-384 over the public key. -/
def deviceId : DWord := (sha384 keyBytes).extractLsb' 0 64

/-- The certificate chain of slot 0, which is issued over that key and holds it (its other bytes are free, log 8). -/
def certChain : List Byte :=
  (List.range Config.chainHead.val).map Config.chainByte ++ keyBytes ++
  (List.range Config.chainTail.val).map fun i => Config.chainByte (Config.chainHead.val + 96 + i)

/-- R23, R171, R295, R298, R301, R306: a device reset with the record that stands then. Dirty lines are lost, TDIs leave
RUN, the dump stays, and what the outside holds is as it was. In RECOVERY no compute die is released. -/
def resetDevice (r : Record) (s : State) : State :=
  let s := (s.dev.tdis.filter (·.state == .run)).foldl stopTdi s
  let ok := bootOk s.dev.assay.own s.dev.assay.flash s.dev.assay.flashWhole r
  { State.reset with
    device := s.device.afterReset
    tier := s.tier.afterReset
    host := s.host
    peers := s.peers
    nextId := s.nextId
    tick := s.tick
    schedule := s.schedule
    dev := { Device.reset with
      recovery := !ok
      devid := deviceId
      twpool := if ok then r.twpool else 0
      assay := s.dev.assay.boot r
      dumped := s.dev.dumped } }
def execDeviceReset (rec_ : Record) (s : State) : Out := .next (resetDevice rec_ s)

/-- R221: firmware zeroes the twin pool, frames and count words. -/
def zeroPool (s : State) : State :=
  let lo := s.poolBase
  let hi := s.poolBase + s.poolSize
  let inside (a : Nat) : Bool := decide (lo ≤ a) && decide (a < hi)
  { s with device := { s.device with
      cells := s.device.cells.filter fun c => !inside c.1
      dirty := s.device.dirty.filter fun d => !inside (128 * d.line)
      poison := s.device.poison.flatMap fun p =>
        [(p.1, (if p.1 + p.2 < lo / 32 then p.1 + p.2 else lo / 32) - p.1),
         ((if p.1 < hi / 32 then hi / 32 else p.1), p.1 + p.2 - (if p.1 < hi / 32 then hi / 32 else p.1))].filter
          fun q => q.2 != 0 } }

/-- R23, R288: the next group of eight benches starts; after the last the device is ready. -/
def startGroup (s : State) : State :=
  if s.dev.assay.boots = 0 || s.dev.recovery || s.dev.stopped || decide (24 ≤ s.dev.groups) then s
  else
    let s := { s with dev := { s.dev with groups := s.dev.groups + 1 } }
    if s.dev.groups = 24 then let s := zeroPool s; { s with dev := { s.dev with ready := true } } else s
def execBenchGroupStart (s : State) : Out := .next (startGroup s)

/-! Firmware. -/

/-- R300: whether the assay processor accepts an image. -/
def imageOk (s : State) (img : Image) : Bool := img.signed && decide (s.dev.assay.rcd.minVersion ≤ img.version)

/-- R300: an update is checked and written to the one image of the flash; it takes effect at the next reset. -/
def updateFirmware (img : Image) (interrupted : Bool) (s : State) : State :=
  if s.dev.recovery || !imageOk s img then s
  else { s with dev := { s.dev with assay := { s.dev.assay with flash := img, flashWhole := !interrupted } } }
def execFirmwareUpdate (img : Image) (interrupted : Bool) (s : State) : Out := .next (updateFirmware img interrupted s)

/-- R300: in RECOVERY a signed image is checked and written, and the device reset. Where the write is interrupted, the boot
that follows fails its check. -/
def recover (img : Image) (r : Record) (interrupted : Bool) (s : State) : State :=
  if !s.dev.recovery || !imageOk s img then s
  else resetDevice r { s with dev := { s.dev with assay := { s.dev.assay with flash := img, flashWhole := !interrupted } } }
def execRecoveryImage (up : Upload) (rec_ : Record) (s : State) : Out := .next (recover up.image rec_ up.interrupted s)

/-! SPDM. The order in which a requester may go is that of SPDM itself (presumed, log 8). -/

/-- The connection after a request, with what the mailbox answers. -/
def answer (s : State) (d : Doe) (p : Spdm) : State := { s with doe := d, dev := { s.dev with spdm := p } }
def refuseDoe (s : State) : State := { s with doe := .error }

/-- The versions that the responder speaks, and the version of GET_VERSION's own message (presumed from SPDM, log 8). -/
def spdmVersions : List Nat := [0x13, 0x12]
def spdmFirst : Nat := 0x10

/-- R297: versions 1.3 and 1.2. A new GET_VERSION starts over; the connection has no version of its own yet. -/
def spdmVersion (s : State) : State := answer s (.versions spdmVersions) (Spdm.mk spdmFirst false false none none)
def execGetVersion (s : State) : Out := .next (spdmVersion s)

/-- R297: the version that the request in the mailbox has, one of those two, is the connection's from then on. -/
def spdmCapabilities (s : State) : State :=
  if s.dev.spdm.version != spdmFirst || !spdmVersions.contains s.mail.toNat then refuseDoe s
  else answer s .capabilities { s.dev.spdm with version := s.mail.toNat, caps := true }
def execGetCapabilities (s : State) : Out := .next (spdmCapabilities s)

/-- R297: the algorithms that the responder uses. -/
def spdmSelection : List Algorithm := [.ecdsaP384, .sha384, .ecdheP384, .aes256Gcm]
def spdmAlgorithms (s : State) : State :=
  if !s.dev.spdm.caps then refuseDoe s else answer s (.algorithms spdmSelection) { s.dev.spdm with algs := true }
def execNegotiateAlgorithms (s : State) : Out := .next (spdmAlgorithms s)

/-- R296, R297: slot 0 holds the one chain. -/
def spdmDigests (s : State) : State :=
  if !s.dev.spdm.algs then refuseDoe s
  else answer s (.digests 1 (sha384 certChain)) s.dev.spdm
def execGetDigests (s : State) : Out := .next (spdmDigests s)

/-- R296, R297: a part of the chain, and how many bytes follow it. -/
def spdmCertificate (slot : BitVec 8) (off len : Nat) (s : State) : State :=
  let rest := certChain.drop off
  if !s.dev.spdm.algs || slot ≠ 0 || rest.isEmpty then refuseDoe s
  else answer s (.certificate (rest.take len) (rest.length - len)) s.dev.spdm
def execGetCertificate (slot : BitVec 8) (off len : Nat) (s : State) : Out := .next (spdmCertificate slot off len s)

/-- A signature with the identity key, a free value. -/
def drawSignature (s : State) : BitVec 768 := Config.signature s.tick

def spdmChallenge (slot : BitVec 8) (_nonce : BitVec 256) (s : State) : State :=
  if !s.dev.spdm.algs || slot ≠ 0 then refuseDoe s
  else answer (s.bump 1) (.challengeAuth slot (drawSignature s)) s.dev.spdm
def execChallenge (slot : BitVec 8) (nonce : BitVec 256) (s : State) : Out := .next (spdmChallenge slot nonce s)

/-- The measurements that an index asks for: all for 0xFF, none for 0, else the one with that index (R295). -/
def measurementsAt (a : Assay) (index : BitVec 8) : Option (List (Nat × BitVec 384)) :=
  let all := a.measurements.zipIdx.map fun (m, i) => (i + 1, m)
  if index = 0xFF then some all
  else if index = 0 then some []
  else match all.filter (·.1 == index.toNat) with
    | [] => none
    | l => some l

/-- R295, R297: measurements are signed with the identity key. -/
def spdmMeasurements (index : BitVec 8) (_nonce : BitVec 256) (s : State) : State :=
  match measurementsAt s.dev.assay index with
  | some l =>
    if s.dev.spdm.algs then answer (s.bump 1) (.measurements l (drawSignature s)) s.dev.spdm else refuseDoe s
  | none => refuseDoe s
def execGetMeasurements (index : BitVec 8) (nonce : BitVec 256) (s : State) : Out := .next (spdmMeasurements index nonce s)

/-- R297: a session is started, finished and ended. -/
def spdmKeyExchange (_nonce : BitVec 256) (session : BitVec 32) (s : State) : State :=
  if !s.dev.spdm.algs then refuseDoe s
  else answer (s.bump 1) (.keyExchangeRsp session (drawSignature s)) { s.dev.spdm with pendingSession := some session }
def execKeyExchange (nonce : BitVec 256) (session : BitVec 32) (s : State) : Out := .next (spdmKeyExchange nonce session s)

def spdmFinish (session : BitVec 32) (s : State) : State :=
  if s.dev.spdm.pendingSession = some session then
    answer s .done { s.dev.spdm with pendingSession := none, session := some session }
  else refuseDoe s
def execFinish (session : BitVec 32) (s : State) : Out := .next (spdmFinish session s)

def spdmEnd (session : BitVec 32) (s : State) : State :=
  if s.dev.spdm.session = some session then answer s .done { s.dev.spdm with session := none } else refuseDoe s
def execEndSession (session : BitVec 32) (s : State) : Out := .next (spdmEnd session s)

/-! TDIs (R298). -/

/-- The TDI of a number, where it has been locked once. -/
def State.tdi? (s : State) (n : Nat) : Option Tdi := s.dev.tdis.find? (·.num == n)

/-- Whether a region is one of device memory, 2 MiB-aligned. -/
def regionOk (r : Region) : Bool :=
  r.base % 2 ^ 21 == 0 && r.size % 2 ^ 21 == 0 && decide (0 < r.size) && decide (r.base + r.size ≤ 2 ^ 40)

/-- LOCK_INTERFACE: one key for each region. -/
def lockTdi (n c : Nat) (regions : List Region) (s : State) : State :=
  let busy := ((s.tdi? n).map fun t => t.state != .stopped).getD false
  if decide (64 ≤ n) || (s.ctx? c).isNone || decide (16 < regions.length) || !regions.all regionOk || busy then refuseDoe s
  else
    let t := Tdi.mk n c regions ((List.range regions.length).map fun i => Config.regionKey (s.tick + i)) .locked
    { (s.bump regions.length) with
      doe := .done
      dev := { s.dev with tdis := t :: s.dev.tdis.filter (·.num != n) } }
def execLockInterface (tdi ctx : Nat) (regions : List Region) (s : State) : Out := .next (lockTdi tdi ctx regions s)

/-- START_INTERFACE takes a locked TDI into RUN. -/
def startTdi (n : Nat) (s : State) : State :=
  match s.tdi? n with
  | some t =>
    if t.state == .locked then
      { s with
        doe := .done
        dev := { s.dev with tdis := mapWhere (·.num == n) (fun t => { t with state := .run }) s.dev.tdis } }
    else refuseDoe s
  | none => refuseDoe s
def execStartInterface (tdi : Nat) (s : State) : Out := .next (startTdi tdi s)

/-- STOP_INTERFACE. -/
def unlockTdi (n : Nat) (s : State) : State :=
  match s.tdi? n with
  | some t => { stopTdi s t with doe := .done }
  | none => refuseDoe s
def execStopInterface (tdi : Nat) (s : State) : Out := .next (unlockTdi tdi s)

/-- An error takes a TDI out of RUN. -/
def failTdi (n : Nat) (s : State) : State :=
  match s.tdi? n with
  | some t => stopTdi s t
  | none => s
def execTdiError (tdi : Nat) (s : State) : Out := .next (failTdi tdi s)

/-! Errors and heat. -/

/-- R272, R289: a corrected error is logged and changes no value. -/
def correctError (c : Nat) (addr : DWord) (s : State) : State := logError s c 5 0 addr none
def execCorrectedError (ctx : Nat) (addr : DWord) (s : State) : Out := .next (correctError ctx addr s)

/-- R272: an uncorrectable error in a strip's own state halts it with MACHINE_CHECK. -/
def checkMachine (gang idx : Nat) (s : State) : State :=
  let s := bringIn gang idx s
  match s.gang? gang with
  | none => s
  | some g =>
    match g.strip? idx, s.launch? g.launch with
    | some t, some l =>
      if t.halted || t.retired || !mayRun s g.ctx then s
      else machineCheck s g t l.hdr
    | _, _ => s
def execMachineCheck (gang idx : Nat) (s : State) : Out := .next (checkMachine gang idx s)

/-- Writes bytes past every cache, so that they survive a reset. -/
def Ram.writeThrough (r : Ram) (a : Nat) (bs : List Byte) : Ram :=
  (unitsOf 128 a bs.length).foldl Ram.writeBack (r.write a bs)

/-- R306: an error in device-wide state: everything stops, the dump is written, and FATAL sets. -/
def failDevice (s : State) : State :=
  if s.dev.fatal then s
  else
    { s with
      device := s.device.writeThrough s.dev.assay.rcd.dumpBase (dumpBytes s)
      dev := { s.dev with fatal := true, dumped := decide (64 ≤ s.dev.assay.rcd.dumpSize) } }
def execDeviceFatal (s : State) : Out := .next (failDevice s)

/-- R20: a die near its junction limit lowers its clock; only timing changes. -/
def throttleDie (die : Nat) (s : State) : State := { s with dev := { s.dev with hot := addNew [die] s.dev.hot } }
def execThermalThrottle (die : Nat) (s : State) : Out := .next (throttleDie die s)

/-- R25: a block over its share or the flux bound lowers its clock; only timing changes. -/
def throttleBlock (b : Block) (s : State) : State :=
  { s with dev := { s.dev with throttled := if s.dev.throttled.contains b then s.dev.throttled else b :: s.dev.throttled } }
def execPowerThrottle (b : Block) (s : State) : Out := .next (throttleBlock b s)

/-- R20: the temperature at which the device is stopped. -/
def stopLimit : Block → Nat
  | .stack _ => 100
  | .compute _ => 110
  | .hub _ => 110

/-- R20: the assay processor stops the device as by a fatal error of device-wide state. -/
def overheat (b : Block) (celsius : Nat) (s : State) : State :=
  if celsius < stopLimit b then s
  else
    let s := failDevice s
    { s with dev := { s.dev with stopped := true } }
def execOvertempStop (b : Block) (celsius : Nat) (s : State) : Out := .next (overheat b celsius s)

end Sys2Proof.Machine
end

