-- ==== Sys2Proof/Machine/Dispatch.lean ====
section
/-! DEFINITION. What each instruction and event does: one arm for each constructor of Instr, in the order of
spec/opcode_table.json. -/

namespace Sys2Proof.Machine

def exec (i : Instr) (s : State) : Host.Outcome State Fault Refusal :=
  match i with
  | .add t w => Sys2Proof.Machine.execAdd t w s
  | .sub t w => Sys2Proof.Machine.execSub t w s
  | .mul t w => Sys2Proof.Machine.execMul t w s
  | .mulh t w => Sys2Proof.Machine.execMulh t w s
  | .min t w => Sys2Proof.Machine.execMin t w s
  | .max t w => Sys2Proof.Machine.execMax t w s
  | .addc t w => Sys2Proof.Machine.execAddc t w s
  | .mad t w => Sys2Proof.Machine.execMad t w s
  | .addG u w => Sys2Proof.Machine.execAddG u w s
  | .subG u w => Sys2Proof.Machine.execSubG u w s
  | .mulG u w => Sys2Proof.Machine.execMulG u w s
  | .mulhG u w => Sys2Proof.Machine.execMulhG u w s
  | .minG u w => Sys2Proof.Machine.execMinG u w s
  | .maxG u w => Sys2Proof.Machine.execMaxG u w s
  | .addcG u w => Sys2Proof.Machine.execAddcG u w s
  | .madG u w => Sys2Proof.Machine.execMadG u w s
  | .and w => Sys2Proof.Machine.execAnd w s
  | .or w => Sys2Proof.Machine.execOr w s
  | .xor w => Sys2Proof.Machine.execXor w s
  | .andn w => Sys2Proof.Machine.execAndn w s
  | .shl w => Sys2Proof.Machine.execShl w s
  | .shr w => Sys2Proof.Machine.execShr w s
  | .sar w => Sys2Proof.Machine.execSar w s
  | .andG w => Sys2Proof.Machine.execAndG w s
  | .orG w => Sys2Proof.Machine.execOrG w s
  | .xorG w => Sys2Proof.Machine.execXorG w s
  | .andnG w => Sys2Proof.Machine.execAndnG w s
  | .shlG w => Sys2Proof.Machine.execShlG w s
  | .shrG w => Sys2Proof.Machine.execShrG w s
  | .sarG w => Sys2Proof.Machine.execSarG w s
  | .popc w => Sys2Proof.Machine.execPopc w s
  | .clz w => Sys2Proof.Machine.execClz w s
  | .brev w => Sys2Proof.Machine.execBrev w s
  | .bfx w => Sys2Proof.Machine.execBfx w s
  | .bfi w => Sys2Proof.Machine.execBfi w s
  | .prmt w => Sys2Proof.Machine.execPrmt w s
  | .lea w => Sys2Proof.Machine.execLea w s
  | .sel w => Sys2Proof.Machine.execSel w s
  | .icmp c w => Sys2Proof.Machine.execIcmp c w s
  | .icmpG c w => Sys2Proof.Machine.execIcmpG c w s
  | .addi w => Sys2Proof.Machine.execAddi w s
  | .muli w => Sys2Proof.Machine.execMuli w s
  | .andi w => Sys2Proof.Machine.execAndi w s
  | .ori w => Sys2Proof.Machine.execOri w s
  | .xori w => Sys2Proof.Machine.execXori w s
  | .shli w => Sys2Proof.Machine.execShli w s
  | .shri w => Sys2Proof.Machine.execShri w s
  | .sari w => Sys2Proof.Machine.execSari w s
  | .movi w => Sys2Proof.Machine.execMovi w s
  | .addiG w => Sys2Proof.Machine.execAddiG w s
  | .moviG w => Sys2Proof.Machine.execMoviG w s
  | .mov w => Sys2Proof.Machine.execMov w s
  | .mku w => Sys2Proof.Machine.execMku w s
  | .movs w => Sys2Proof.Machine.execMovs w s
  | .pmovToReg w => Sys2Proof.Machine.execPmovToReg w s
  | .pmovToPred w => Sys2Proof.Machine.execPmovToPred w s
  | .movG w => Sys2Proof.Machine.execMovG w s
  | .movsG w => Sys2Proof.Machine.execMovsG w s
  | .plop st pd pa pb t x => Sys2Proof.Machine.execPlop st pd pa pb t x s
  | .fadd f w => Sys2Proof.Machine.execFadd f w s
  | .fsub f w => Sys2Proof.Machine.execFsub f w s
  | .fmul f w => Sys2Proof.Machine.execFmul f w s
  | .fmin f w => Sys2Proof.Machine.execFmin f w s
  | .fmax f w => Sys2Proof.Machine.execFmax f w s
  | .ffma f w => Sys2Proof.Machine.execFfma f w s
  | .fscl f w => Sys2Proof.Machine.execFscl f w s
  | .fcmp f c w => Sys2Proof.Machine.execFcmp f c w s
  | .frcp w => Sys2Proof.Machine.execFrcp w s
  | .frsq w => Sys2Proof.Machine.execFrsq w s
  | .fsqrt w => Sys2Proof.Machine.execFsqrt w s
  | .fexp2 w => Sys2Proof.Machine.execFexp2 w s
  | .flog2 w => Sys2Proof.Machine.execFlog2 w s
  | .fsin w => Sys2Proof.Machine.execFsin w s
  | .fcos w => Sys2Proof.Machine.execFcos w s
  | .ftanh w => Sys2Proof.Machine.execFtanh w s
  | .fclass w => Sys2Proof.Machine.execFclass w s
  | .frnd w => Sys2Proof.Machine.execFrnd w s
  | .cvt fn w => Sys2Proof.Machine.execCvt fn w s
  | .vdot w => Sys2Proof.Machine.execVdot w s
  | .shfl op w => Sys2Proof.Machine.execShfl op w s
  | .voteAll w => Sys2Proof.Machine.execVoteAll w s
  | .voteAny w => Sys2Proof.Machine.execVoteAny w s
  | .voteMask w => Sys2Proof.Machine.execVoteMask w s
  | .voteSame w => Sys2Proof.Machine.execVoteSame w s
  | .reap op w => Sys2Proof.Machine.execReap op w s
  | .rng fn w => Sys2Proof.Machine.execRng fn w s
  | .ld w => Sys2Proof.Machine.execLd w s
  | .st w => Sys2Proof.Machine.execSt w s
  | .lds w => Sys2Proof.Machine.execLds w s
  | .sts w => Sys2Proof.Machine.execSts w s
  | .atom w => Sys2Proof.Machine.execAtom w s
  | .atoms w => Sys2Proof.Machine.execAtoms w s
  | .cas w => Sys2Proof.Machine.execCas w s
  | .pref w => Sys2Proof.Machine.execPref w s
  | .ldt w => Sys2Proof.Machine.execLdt w s
  | .stt w => Sys2Proof.Machine.execStt w s
  | .stash w => Sys2Proof.Machine.execStash w s
  | .mma w => Sys2Proof.Machine.execMma w s
  | .smma w => Sys2Proof.Machine.execSmma w s
  | .accrd w => Sys2Proof.Machine.execAccrd w s
  | .accrdZero w => Sys2Proof.Machine.execAccrdZero w s
  | .accwr w => Sys2Proof.Machine.execAccwr w s
  | .accwrZero st acc x => Sys2Proof.Machine.execAccwrZero st acc x s
  | .ldG w => Sys2Proof.Machine.execLdG w s
  | .stG w => Sys2Proof.Machine.execStG w s
  | .bra st p neg off lit => Sys2Proof.Machine.execBra st p neg off lit s
  | .join st => Sys2Proof.Machine.execJoin st s
  | .call st off lit => Sys2Proof.Machine.execCall st off lit s
  | .ret st => Sys2Proof.Machine.execRet st s
  | .jmpi w => Sys2Proof.Machine.execJmpi w s
  | .exit st x => Sys2Proof.Machine.execExit st x s
  | .barSync st n x => Sys2Proof.Machine.execBarSync st n x s
  | .barArrive st n x => Sys2Proof.Machine.execBarArrive st n x s
  | .barWait st n x => Sys2Proof.Machine.execBarWait st n x s
  | .elect st => Sys2Proof.Machine.execElect st s
  | .elend st => Sys2Proof.Machine.execElend st s
  | .fork w => Sys2Proof.Machine.execFork w s
  | .rdv w => Sys2Proof.Machine.execRdv w s
  | .fence w => Sys2Proof.Machine.execFence w s
  | .tfence st => Sys2Proof.Machine.execTfence st s
  | .wait c w => Sys2Proof.Machine.execWait c w s
  | .nop st => Sys2Proof.Machine.execNop st s
  | .trap st imm lit => Sys2Proof.Machine.execTrap st imm lit s
  | .fmtset w => Sys2Proof.Machine.execFmtset w s
  | .fmtget w => Sys2Proof.Machine.execFmtget w s
  | .fmtselSlot st code n x => Sys2Proof.Machine.execFmtselSlot st code n x s
  | .fmtselReg w => Sys2Proof.Machine.execFmtselReg w s
  | .modeset w => Sys2Proof.Machine.execModeset w s
  | .modesetRm st rm x => Sys2Proof.Machine.execModesetRm st rm x s
  | .modesetClr w => Sys2Proof.Machine.execModesetClr w s
  | .ckpt w => Sys2Proof.Machine.execCkpt w s
  | .replay w => Sys2Proof.Machine.execReplay w s
  | .replend st => Sys2Proof.Machine.execReplend st s
  | .qput st d stage x => Sys2Proof.Machine.execQput st d stage x s
  | .qget st d x => Sys2Proof.Machine.execQget st d x s
  | .launch w => Sys2Proof.Machine.execLaunch w s
  | .icinv w => Sys2Proof.Machine.execIcinv w s
  | .cflush w => Sys2Proof.Machine.execCflush w s
  | .cflushInv w => Sys2Proof.Machine.execCflushInv w s
  | .rngseed g w => Sys2Proof.Machine.execRngseed g w s
  | .bwsetMem w => Sys2Proof.Machine.execBwsetMem w s
  | .bwsetLink w => Sys2Proof.Machine.execBwsetLink w s
  | .tret st => Sys2Proof.Machine.execTret st s
  | .rqrel st => Sys2Proof.Machine.execRqrel st s
  | .pgmapL0 w => Sys2Proof.Machine.execPgmapL0 w s
  | .pgmapL1 w => Sys2Proof.Machine.execPgmapL1 w s
  | .tlbinv w => Sys2Proof.Machine.execTlbinv w s
  | .tlbinvCtx st x => Sys2Proof.Machine.execTlbinvCtx st x s
  | .tlbinvAll st x => Sys2Proof.Machine.execTlbinvAll st x s
  | .harvest w => Sys2Proof.Machine.execHarvest w s
  | .setsr w => Sys2Proof.Machine.execSetsr w s
  | .cpy dims cv sg ss w => Sys2Proof.Machine.execCpy dims cv sg ss w s
  | .rdst bd w => Sys2Proof.Machine.execRdst bd w s
  | .merge ea eb ec => Sys2Proof.Machine.execMerge ea eb ec s
  | .tmma ovw w => Sys2Proof.Machine.execTmma ovw w s
  | .smv wide w => Sys2Proof.Machine.execSmv wide w s
  | .coll op red ea eb ec => Sys2Proof.Machine.execColl op red ea eb ec s
  | .ewait ea eb cond => Sys2Proof.Machine.execEwait ea eb cond s
  | .eloop ea off => Sys2Proof.Machine.execEloop ea off s
  | .eend => Sys2Proof.Machine.execEend s
  | .esig ea eb => Sys2Proof.Machine.execEsig ea eb s
  | .create q => Sys2Proof.Machine.execCreate q s
  | .destroy q => Sys2Proof.Machine.execDestroy q s
  | .config q => Sys2Proof.Machine.execConfig q s
  | .submit q => Sys2Proof.Machine.execSubmit q s
  | .cancel q => Sys2Proof.Machine.execCancel q s
  | .uncancel q => Sys2Proof.Machine.execUncancel q s
  | .hostIcinv q => Sys2Proof.Machine.execHostIcinv q s
  | .resync q => Sys2Proof.Machine.execResync q s
  | .twclr q => Sys2Proof.Machine.execTwclr q s
  | .portreset mask => Sys2Proof.Machine.execPortreset mask s
  | .qerrClear q bits => Sys2Proof.Machine.execQerrClear q bits s
  | .queueConfigWrite q size value => Sys2Proof.Machine.execQueueConfigWrite q size value s
  | .registerWrite offset value => Sys2Proof.Machine.execRegisterWrite offset value s
  | .deviceReset rec => Sys2Proof.Machine.execDeviceReset rec s
  | .benchGroupStart => Sys2Proof.Machine.execBenchGroupStart s
  | .firmwareUpdate img interrupted => Sys2Proof.Machine.execFirmwareUpdate img interrupted s
  | .recoveryImage up rec => Sys2Proof.Machine.execRecoveryImage up rec s
  | .getVersion => Sys2Proof.Machine.execGetVersion s
  | .getCapabilities => Sys2Proof.Machine.execGetCapabilities s
  | .negotiateAlgorithms => Sys2Proof.Machine.execNegotiateAlgorithms s
  | .getDigests => Sys2Proof.Machine.execGetDigests s
  | .getCertificate slot off len => Sys2Proof.Machine.execGetCertificate slot off len s
  | .challenge slot nonce => Sys2Proof.Machine.execChallenge slot nonce s
  | .getMeasurements index nonce => Sys2Proof.Machine.execGetMeasurements index nonce s
  | .keyExchange nonce session => Sys2Proof.Machine.execKeyExchange nonce session s
  | .finish session => Sys2Proof.Machine.execFinish session s
  | .endSession session => Sys2Proof.Machine.execEndSession session s
  | .lockInterface tdi ctx regions => Sys2Proof.Machine.execLockInterface tdi ctx regions s
  | .stopInterface tdi => Sys2Proof.Machine.execStopInterface tdi s
  | .hostLinkTrain cxl gen width => Sys2Proof.Machine.execHostLinkTrain cxl gen width s
  | .hdmAccess a => Sys2Proof.Machine.execHdmAccess a s
  | .bar2Access a => Sys2Proof.Machine.execBar2Access a s
  | .peerAccess r => Sys2Proof.Machine.execPeerAccess r s
  | .peerTimeout ag => Sys2Proof.Machine.execPeerTimeout ag s
  | .peerWriteAck ag => Sys2Proof.Machine.execPeerWriteAck ag s
  | .flitResend link => Sys2Proof.Machine.execFlitResend link s
  | .tierLinkDown p => Sys2Proof.Machine.execTierLinkDown p s
  | .expanderTimeout p => Sys2Proof.Machine.execExpanderTimeout p s
  | .tierLinkUp p => Sys2Proof.Machine.execTierLinkUp p s
  | .tierTimeout p => Sys2Proof.Machine.execTierTimeout p s
  | .nodeStart ctx slot => Sys2Proof.Machine.execNodeStart ctx slot s
  | .nodeComplete launch => Sys2Proof.Machine.execNodeComplete launch s
  | .spanJoin launch group => Sys2Proof.Machine.execSpanJoin launch group s
  | .gangPlace gang bench => Sys2Proof.Machine.execGangPlace gang bench s
  | .droverAction die => Sys2Proof.Machine.execDroverAction die s
  | .queueClose launch => Sys2Proof.Machine.execQueueClose launch s
  | .barrierPhaseComplete gang bar => Sys2Proof.Machine.execBarrierPhaseComplete gang bar s
  | .waitConditionMet gang idx => Sys2Proof.Machine.execWaitConditionMet gang idx s
  | .hostWaitReread ag => Sys2Proof.Machine.execHostWaitReread ag s
  | .ewaitConditionMet prog => Sys2Proof.Machine.execEwaitConditionMet prog s
  | .rdvReturn gang idx => Sys2Proof.Machine.execRdvReturn gang idx s
  | .queueRoom gang idx => Sys2Proof.Machine.execQueueRoom gang idx s
  | .forkSlotFree gang idx => Sys2Proof.Machine.execForkSlotFree gang idx s
  | .loadReturn gang idx k => Sys2Proof.Machine.execLoadReturn gang idx k s
  | .twinReadServed ag => Sys2Proof.Machine.execTwinReadServed ag s
  | .twinTimeout ag => Sys2Proof.Machine.execTwinTimeout ag s
  | .preempt gang => Sys2Proof.Machine.execPreempt gang s
  | .resume gang bench => Sys2Proof.Machine.execResume gang bench s
  | .lineEviction tier line uncorrectable => Sys2Proof.Machine.execLineEviction tier line uncorrectable s
  | .correctedError ctx addr => Sys2Proof.Machine.execCorrectedError ctx addr s
  | .machineCheck gang idx => Sys2Proof.Machine.execMachineCheck gang idx s
  | .deviceFatal => Sys2Proof.Machine.execDeviceFatal s
  | .thermalThrottle die => Sys2Proof.Machine.execThermalThrottle die s
  | .powerThrottle b => Sys2Proof.Machine.execPowerThrottle b s
  | .overtempStop b celsius => Sys2Proof.Machine.execOvertempStop b celsius s
  | .dbell q tail => Sys2Proof.Machine.execDbell q tail s
  | .startInterface tdi => Sys2Proof.Machine.execStartInterface tdi s
  | .tdiError tdi => Sys2Proof.Machine.execTdiError tdi s
  | .launchIntakeRoom gang idx => Sys2Proof.Machine.execLaunchIntakeRoom gang idx s
  | .collJoin prog peer => Sys2Proof.Machine.execCollJoin prog peer s

end Sys2Proof.Machine
end

