-- ==== Sys2Proof/Machine/Fetch.lean ====
section
/-! DEFINITION. Fetch (R72, R96, R250, R251, R260), DEBUG (R269), and the turns of strips, spans, engine programs, command
processors and events; which agent has a turn is the model's own (log 1). -/

namespace Sys2Proof.Machine

/-! Fetching words. -/

/-- What fetching gave: a word, a fault with the address that faults and its walk report, or no answer of a port, or of a
peer to the requests with the given keys. -/
inductive Fetched where
  | word (w : Word)
  | fault (cause va : Nat) (report : Word)
  | waits (keys : List Nat)
  deriving DecidableEq, Repr

/-- The words that a bench's fetch lines hold for an address (R96). -/
def cachedWords (s : State) (bench c va : Nat) : List Word :=
  (s.fetched.filter fun f => f.bench == bench && f.ctx == c && f.line == va / 128).filterMap
    fun f => f.words[va % 128 / 4]?

/-- The words of the 128 B line around an address of a segment. -/
def lineWords (s : State) (c : Nat) (g : Seg) : List Word :=
  let bs := readSeg s c { g with va := g.va / 128 * 128, len := 128, tgt := match g.tgt with
    | .device pa => .device (pa / 128 * 128)
    | .tier pa => .tier (pa / 128 * 128)
    | .host pa => .host (pa / 128 * 128)
    | .peer k off => .peer k (off / 128 * 128) }
  (List.range 32).map fun i => wordOf ((bs.drop (4 * i)).take 4)

/-- The line of a bench's fetch is kept beside those it has (R96, R260). -/
def keepLine (bench c va : Nat) (ws : List Word) (s : State) : State :=
  let f := FetchLine.mk bench c (va / 128) ws
  if s.fetched.contains f then s else { s with fetched := f :: s.fetched }

/-- R161, R250, R251: fetches one word. A strip's fetch goes through its bench's lines: it may see what one of them holds or
what memory holds (R260); others have no lines. asked are the fetches that a peer has not answered yet (R293). A program of a
stack mill, where stack holds, stops at a word in the second tier (R174, R11; with 0x22, log 36). -/
def fetchWord (stack : Bool) (s : State) (c : Nat) (priv : Bool) (bench : Option Nat) (asked : Asked) (va : Nat) :
    Fetched × State :=
  if va + 4 > 2 ^ 57 then (.fault 0x10 va (walkReport true false 7), s)
  else
    match translate s c va .fetch priv with
    | (.error (cause, level), s) => (.fault cause va (faultReport true false cause level), s)
    | (.ok (leaf, tgt), s) =>
      let g := Seg.mk va 4 leaf tgt
      if stack && g.onTier then (.fault 0x22 0 0, s)
      else
      match segTrouble s c true g with
      | .waits =>
        if tgt.isPeer && peerOverdue s (asked.at_ va) then (.fault 0x19 va 0, s)
        else (.waits (if tgt.isPeer then [va] else []), s)
      | .fault cause level off => (.fault cause (va + off) (if level = 7 then walkReport true false 7 else 0), s)
      | .none =>
        let fresh := wordOf (readSeg s c g)
        match bench with
        | none => (.word fresh, s)
        | some b =>
          let old := cachedWords s b c va
          (.word (pickFrom s.tick fresh old), (keepLine b c va (lineWords s c g) s).bump old.length)

/-- What fetching an instruction gave: its words, or what stopped it. -/
inductive FetchedInstr where
  | words (l : List Word)
  | fault (cause va : Nat) (report : Word)
  | waits (keys : List Nat)
  deriving DecidableEq, Repr

/-- n words from an address upwards. -/
def fetchWords (c : Nat) (priv : Bool) (bench : Option Nat) (asked : Asked) :
    (n va : Nat) → State → FetchedInstr × State
  | 0, _, s => (.words [], s)
  | n + 1, va, s =>
    match fetchWord false s c priv bench asked va with
    | (.fault cause a r, s) => (.fault cause a r, s)
    | (.waits keys, s) => (.waits keys, s)
    | (.word w, s) =>
      match fetchWords c priv bench asked n (va + 4) s with
      | (.words l, s) => (.words (w :: l), s)
      | r => r

/-- R72: the words of the instruction at an address: the first, and those that it says follow. They are all fetched before the
first is looked at, so that a fault on one of them comes before the ILLEGAL_OP of a first word that is no instruction, which
has the lower code (R92, R93; the spec does not say what is fetched of such a word: the model's choice, log 28). -/
def fetchInstr (c : Nat) (priv : Bool) (bench : Option Nat) (asked : Asked) (va : Nat) (s : State) :
    FetchedInstr × State :=
  match fetchWord false s c priv bench asked va with
  | (.fault cause a r, s) => (.fault cause a r, s)
  | (.waits keys, s) => (.waits keys, s)
  | (.word w, s) =>
    match fetchWords c priv bench asked (extraWords w) (va + 4) s with
    | (.words l, s) => (.words (w :: l), s)
    | r => r

/-- R96, R260: a bench's decoded operations of an address in a context, and the bench with one more. -/
def decodedAt (s : State) (bench c va : Nat) : List (List Word) :=
  (s.decoded.filter fun d => d.bench == bench && d.ctx == c && d.va == va).map (·.words)
def keepDecoded (bench c va : Nat) (ws : List Word) (s : State) : State :=
  let d := Decoded.mk bench c va ws
  if s.decoded.contains d then s else { s with decoded := d :: s.decoded }

/-- R96, R260: the words that a strip issues: those that it has fetched, or those of an operation that its bench decoded
earlier from the same address, which one left open (log 6). -/
def crack (bench c va : Nat) (r : FetchedInstr × State) : FetchedInstr × State :=
  match r with
  | (.words ws, s) =>
    let old := decodedAt s bench c va
    let ws := pickFrom s.tick ws old
    (.words ws, (keepDecoded bench c va ws s).bump old.length)
  | r => r

/-! Turns. -/

/-- R269: whether DEBUG is raised before the instruction at a strip's PC issues. -/
def breakHits (b pc : DWord) : Bool := bitAt b.toNat 0 && (b &&& 0x01FFFFFFFFFFFFFC) == pc
def debugHits (b : Block286) (t : Strip) : Bool :=
  !t.priv && ((b.sstep && t.stepped) || breakHits b.brk0 t.pc || breakHits b.brk1 t.pc)

/-- R126, R269: whether DEBUG would be raised at a span's PC, or behind its next instruction. -/
def spanDebug (b : Block286) (p : Span) : Bool := b.sstep || breakHits b.brk0 p.pc || breakHits b.brk1 p.pc

/-- The trap of a fetch that faults: the active lanes, each with the address that was fetched (R251, R261). -/
def fetchTrap (t : Strip) (cause va : Nat) (report : Word) : TrapInfo :=
  TrapInfo.mk cause t.active ((lanesOf t.active).map fun l => (l, BitVec.ofNat 64 va))
    (if cause ≤ 0x12 || report != 0 then (lanesOf t.active).map fun l => (l, report) else []) [] t.pc

/-- A strip's turn: it issues the instruction at its PC, or tries again the one that it waits to issue. -/
def turnStrip (gid k : Nat) (s : State) : Out :=
  let s := bringIn gid k s
  match s.gang? gid with
  | none => .next s
  | some g =>
    match g.strip? k, s.launch? g.launch, s.ctx? g.ctx with
    | some t, some l, some x =>
      let i := match t.wait with
        | .again _ i => i
        | _ => .nop false
      if !stripReady s g t l x i || !mayRun s g.ctx then .next s
      else if debugHits x.cfg t then .next (stopStrip s g t l.hdr (some (plainTrap t 0x31)) t.pc)
      else
        match t.wait with
        | .again _ i => exec i { s with cur := .strip gid k }
        | _ =>
          match crack g.bench g.ctx t.pc.toNat (fetchInstr g.ctx t.priv (some g.bench) t.asked t.pc.toNat s) with
          | (.waits keys, s) => .next (s.setStrip gid (t.asks s keys))
          | (.fault cause va r, s) => .next (stopStrip s g t l.hdr (some (fetchTrap t cause va r)) t.pc)
          | (.words ws, s) =>
            match decode ws with
            | none => .next (stopStrip s g t l.hdr (some (plainTrap t 0x08)) t.pc)
            | some i => exec i { s.setStrip gid { t with asked := [] } with cur := .strip gid k }
    | _, _, _ => .next s

/-- A span's turn. A fetch that faults, a word that is no instruction, a breakpoint and single-step deal it out (R126,
R269). -/
def turnSpan (n : Nat) (s : State) : Out :=
  match s.span? n with
  | none => .next s
  | some p =>
    if p.waiting || !mayRun s p.ctx then .next s
    else if spanDebug (s.cfg p.ctx) p then .next (dealOut s p)
    else
      match fetchInstr p.ctx false none p.asked p.pc.toNat s with
      | (.waits keys, s) => .next (s.mapSpan n fun p => { p with asked := p.asked.still s keys })
      | (.fault _ _ _, s) => .next (dealOut s p)
      | (.words ws, s) =>
        match decode ws with
        | none => .next (dealOut s p)
        | some i => exec i { s.mapSpan n (fun p => { p with asked := [] }) with cur := .span n }

/-- An engine program's turn. It fetches one word: a fetch that faults stops it, and so does a word that is no engine word,
one with an extension word among them (R91, R199, R200, R370). -/
def turnProg (n : Nat) (s : State) : Out :=
  match s.prog? n with
  | none => .next s
  | some p =>
    let i := match p.status with
      | .waiting i => i
      | _ => .nop false
    if !progReady s p i || !mayRun s p.ctx then .next s
    else
      match p.status with
      | .waiting i => exec i { s with cur := .prog n }
      | _ =>
        match fetchWord (onStack p.cls) s p.ctx p.priv none p.asked p.pc.toNat with
        | (.waits keys, s) => .next (s.mapProg n fun p => { p with asked := p.asked.still s keys })
        | (.fault cause va _, s) => .next (stopProg s n cause (low57 (BitVec.ofNat 64 va)))
        | (.word w, s) =>
          match (if extraWords w = 0 then decode [w] else none) with
          | none => .next (stopProg s n 0x21 0)
          | some i => exec i { s.mapProg n (fun p => { p with asked := [] }) with cur := .prog n }

/-- Whether a row of the table is an event, which no word stands for. -/
def isEvent (i : Instr) : Bool := (encode i).isEmpty

/-- What happens in a turn. -/
def takeTurn (t : Turn) (s : State) : Out :=
  match t with
  | .issue .nobody => .next s
  | .issue (.strip g k) => turnStrip g k s
  | .issue (.span n) => turnSpan n s
  | .issue (.prog n) => turnProg n s
  | .event i => if isEvent i then exec i { s with cur := .nobody } else .next s
  | .queue q => queueTurn q s
  | .readRegister offset => .next (readRegister offset s)
  | .mail version => .next { s with mail := version }
  | .idle => .next s

/-! Time. -/

/-- R301: what each account is charged in n clocks: BENCH for its resident strips; and while it has work on the device,
energy, and the DRAM reads of its fetches and page walks, which no rule computes (log 9). -/
def residentStrips (s : State) (acct : Nat) : Nat :=
  ((s.gangs.filter fun g => g.place.isSome && acctOf s g.launch == acct).map fun g =>
    (g.strips.filter fun t => !t.retired).length).sum
def busyAcct (s : State) (acct : Nat) : Bool :=
  s.gangs.any (fun g => g.place.isSome && acctOf s g.launch == acct) ||
  s.spans.any (fun p => acctOf s p.launch == acct) || s.progs.any fun p => !p.over && acctOf s p.launch == acct
def chargedAcct (n : Nat) (s : State) (i : Nat) : Account :=
  let a := vget s.dev.accounts i Account.reset
  if !busyAcct s i then a
  else { a with
    bench := a.bench + BitVec.ofNat 64 (n * residentStrips s i)
    hbmrd := a.hbmrd + Config.trafficBytes (s.tick + 4 * i)
    energy := a.energy + Config.trafficBytes (s.tick + 4 * i + 1) }
def chargeClocks (n : Nat) (s : State) : State :=
  { s with tick := s.tick + 256, dev := { s.dev with accounts := Vector.ofFn fun i : Fin 64 => chargedAcct n s i.val } }

/-- n clocks pass (R54). -/
def passClocks (n : Nat) (s : State) : State := chargeClocks n { s with clock := s.clock + BitVec.ofNat 64 n }

/-! Whose turn it is, where the schedule says nothing. -/

/-- Everything that could have a turn: command processors, nodes, gangs that fit on the first bench that has room, spans,
strips and programs. -/
def candidates (s : State) : List Turn :=
  ([false, true].filter (takes s)).map .queue ++
  (s.ctxs.flatMap fun x => (x.slots.filter fun v => (firstReady x v.num).isSome).map fun v => .event (.nodeStart x.id v.num)) ++
  (s.gangs.filter fun g => g.place.isNone && !g.saved).filterMap (fun g =>
    ((List.range s.benchesStarted).find? fun b => fitsOn s g b g.id).map fun b => .event (.gangPlace g.id b)) ++
  (s.spans.filter fun p => !p.waiting).map (fun p => .issue (.span p.id)) ++
  (s.gangs.filter fun g => g.place.isSome).flatMap (fun g =>
    (g.strips.filter fun t => !t.retired && !t.halted).map fun t => .issue (.strip g.id t.idx)) ++
  (s.progs.filter fun p => !p.over).map (fun p => .issue (.prog p.id))

/-- The turn of a clock: the candidates have it one after the other. -/
def autoTurn (s : State) : Turn :=
  let l := candidates s
  (l[s.clock.toNat % l.length]?).getD .idle

/-- The next turn with the clocks that pass before it, and the state that has taken it from the schedule. -/
def nextTurn (s : State) : Nat × Turn × State :=
  match s.schedule with
  | (n, t) :: rest => (n, t, { s with schedule := rest })
  | [] => (1, autoTurn s, s)

/-! Placing an instruction where the next step fetches one. -/

/-- The address of the placed words, virtual and physical, and the handler's. -/
def probePc : Nat := 0x10000
def probeHandler : Nat := 0x20000

/-- The device memory with the words of an instruction, and the three table entries that map it: a merged root, a merged
node of levels 2 and 1, and in it a leaf of 2 MiB with R, W and X (R242 to R247). -/
def probeRam (nbits w : Nat) (r : Ram) : Ram :=
  { r with cells := cellsWrite (cellsWrite (cellsWrite r.cells probePc (toBytes (w % 2 ^ nbits) 16))
      0x200000 (toBytes 0x400005 8)) 0x400000 (toBytes 0x3B 8) }

/-- A context as CREATE makes one from a block that holds that root and a handler (R286). -/
def probeBlock : Block286 :=
  { Block286.empty with ptroot := 0x200001, handler := BitVec.ofNat 64 probeHandler, quota := 0xFFFFF, pool := 0x1000000
                        poolsize := 0x4000000 }

/-- The header, record and launch of one gang of one strip. -/
def probeHeader : Header where
  w16 := false
  cores := false
  nfw := false
  regs := 64
  acc := 16
  stages := 1
  scratch := 65536
  gx := 32
  gy := 1
  gz := 1
  entries := [0]
  depths := [64, 64, 64, 64, 64, 64, 64, 64]
  presets := []
def probeLaunch (id : Nat) : Launch :=
  newLaunch id 0 0 (Node.mk 0 (NodeRec.mk 0 0 0 (Box.mk 0 0 0 32 1 1) 0 0 0 0 []) .running none) probeHeader Group.alone

/-- Its gang, resident on bench 0, with its strip at the placed words. -/
def probeGang (id : Nat) : Gang :=
  let p := { newSpan (probeLaunch id) 0 id with pc := BitVec.ofNat 64 probePc, launch := id }
  (newGang p probeHeader (stageBox (probeLaunch id) 0) (id + 1) 0 0 0).placed (Place.mk 0 0 0) [imageAt probeBlock 0] 0

/-- The engine class that runs a word, if it is an engine-class word (R91, R202). -/
def classFor : Instr → Option EngClass
  | .cpy _ _ _ _ _ => some .cart
  | .rdst _ _ => some .cart
  | .merge _ _ _ => some .full
  | .tmma _ _ => some .mill
  | .smv _ _ => some (.stack 0)
  | .coll _ _ _ _ _ => some .weav
  | .ewait _ _ _ => some .cart
  | .eloop _ _ => some .cart
  | .eend => some .cart
  | .esig _ _ => some .cart
  | _ => none

/-- A program that the strip forked, at the placed words. -/
def probeProg (id : Nat) (c : EngClass) : Prog where
  id := id + 2
  ctx := 0
  launch := id
  gang := id + 1
  strip := 0
  die := 0
  cls := c
  unit_ := 0
  pc := BitVec.ofNat 64 probePc
  e := Vector.replicate 16 0
  scope := 0
  priv := false
  replay := false
  fmt := fmtReset
  gen := Gen.mk 0 0
  status := .running
  since := 0
  saved := false
  unacked := 0
  table := freshTable
  held := []
  asked := []
  added := none

/-- The state with an instruction's words placed, a launch that runs them, and the turn of the strip or the engine program
that fetches them. -/
def place (s : State) (nbits w : Nat) : State :=
  let id := s.nextId
  let cls := (decodeTableWord nbits w).bind classFor
  { s with
    device := probeRam nbits w s.device
    dev := { s.dev with ready := true, recovery := false, fatal := false, stopped := false, groups := 24 }
    ctxs := newCtx 0 false probeBlock :: s.ctxs.filter (·.id != 0)
    launches := s.launches ++ [probeLaunch id]
    gangs := s.gangs ++ [probeGang id]
    progs := match cls with
      | some c => s.progs ++ [probeProg id c]
      | none => s.progs
    nextId := id + 3
    schedule := [(1, .issue (if cls.isSome then .prog (id + 2) else .strip (id + 1) 0))] }

end Sys2Proof.Machine
end

