-- ==== Sys2Proof/Machine/Step.lean ====
section
/-! DEFINITION. The step: the next turn is taken. -/

namespace Sys2Proof.Machine

/-- One step: clocks pass, and one agent has its turn. -/
def step (s : State) : Host.Outcome State Fault Refusal :=
  let (n, t, s) := nextTurn s
  takeTurn t (passClocks n s)

/-- The state in which the next step fetches and runs the instruction whose bits are w. -/
def State.withFetchWord (s : State) (nbits w : Nat) : State := place s nbits w

end Sys2Proof.Machine
end

