-- ==== Sys2Proof/WellFormed.lean ====
section
/-! DEFINITION. Well-formed terms: a word of a strip that has none of the fates of R92 that its fields alone decide, an
engine-class word with the fields that R90 and its own rule allow, and an event whose numbers are in range. What the format
table or the gang's header decides is no matter of these checks. -/

namespace Sys2Proof

/-- The rows of the table that no word stands for. -/
def Instr.isEvent (i : Instr) : Bool := (encode i).isEmpty

/-- R90: whether a word is of the engine class, and the fields that it may hold (R203, R204, R207, R214). R90 reserves red 3 of
COLL; that broadcast takes SUM alone, and all-gather any other, is the model's choice (log 26). -/
def engineClass : Instr → Bool
  | .cpy _ _ _ _ _ | .rdst _ _ | .merge _ _ _ | .tmma _ _ | .smv _ _ | .coll _ _ _ _ _ | .ewait _ _ _ | .eloop _ _
  | .eend | .esig _ _ => true
  | _ => false
def engineOk : Instr → Bool
  | .cpy dims _ sg ss _ => dims != 3 && (!ss || sg)
  | .rdst bd w => bd || w.ed == 0
  | .coll op red _ _ _ => red != 3 && (op != .broadcast || red == 0)
  | .ewait _ _ c => decide (c.toNat < 4)
  | .merge _ _ _ | .tmma _ _ | .smv _ _ | .eloop _ _ | .eend | .esig _ _ => true
  | _ => false

/-- R298: a region is 2 MiB-aligned and lies in device memory. -/
def Region.ok (r : Region) : Bool :=
  r.base % 2 ^ 21 == 0 && r.size % 2 ^ 21 == 0 && decide (0 < r.size) && decide (r.base + r.size ≤ 2 ^ 40)

/-- R24, R162, R299: a record's shares never exceed the rating, and its dump region lies in device memory. -/
def Record.ok (r : Record) : Bool := decide (r.shares.sum ≤ 3000) && decide (r.dumpBase + r.dumpSize ≤ 2 ^ 40)

/-- R162: a host access lies in device memory, and a write has its bytes. -/
def HostAccess.ok (a : HostAccess) : Bool :=
  decide (a.addr + a.len ≤ 2 ^ 40) && (match a.write with | none => true | some b => b.length == a.len)

/-- R293: a peer's request has at most 32 lanes, in the window, and its writes and atomics have their operands. -/
def PeerLane.ok (op : PeerOp) (l : PeerLane) : Bool :=
  decide (l.off + l.len ≤ 2 ^ 38) &&
  (match op with
   | .read => true
   | .write => l.data.length == l.len
   | .atomic _ => l.data.length == l.len && (l.len == 4 || l.len == 8)
   | .cas => l.data.length == l.len && l.cmp.length == l.len && (l.len == 4 || l.len == 8 || l.len == 16))
def PeerRequest.ok (r : PeerRequest) : Bool :=
  decide (r.ctx < 256) && decide (r.lanes.length ≤ 32) && r.lanes.all (PeerLane.ok r.op)

/-- R10, R12: the blocks there are. -/
def Block.ok : Block → Bool
  | .compute d => decide (d < 4)
  | .hub d => decide (d < 2)
  | .stack n => decide (n < 16)

/-- An event's numbers are in the ranges of R10, R13, R17, R146, R189, R279, R286, R292 and R298. -/
def eventOk : Instr → Bool
  | .queueConfigWrite _ size v => !size || decide (v.toNat < 2 ^ 16)
  | .registerWrite off _ => off % 4 == 0 && decide (off < 2 ^ 24)
  | .deviceReset r => r.ok
  | .recoveryImage _ r => r.ok
  | .lockInterface t c rs => decide (t < 64) && decide (c < 256) && decide (rs.length ≤ 16) && rs.all Region.ok
  | .stopInterface t | .startInterface t | .tdiError t => decide (t < 64)
  | .hostLinkTrain _ gen width => decide (1 ≤ gen) && decide (gen ≤ 6) && [1, 2, 4, 8, 16].contains width
  | .hdmAccess a | .bar2Access a => a.ok
  | .peerAccess r => r.ok
  | .flitResend f => decide (f.port < 12)
  | .nodeStart c n => decide (c < 256) && decide (n < 65536)
  | .gangPlace _ b | .resume _ b => decide (b < 192)
  | .droverAction d => decide (d < 4)
  | .barrierPhaseComplete _ b => decide (b ≤ 16)
  | .correctedError c _ => decide (c < 256)
  | .thermalThrottle d => decide (d < 6)
  | .powerThrottle b | .overtempStop b _ => b.ok
  | i => i.isEvent

/-- The fields that a word's format has and its row fixes to 0: T of STT and STASH (R366, R367), vd of RNGSEED (R359). -/
def fixedOk : Instr → Bool
  | .stt w | .stash w => !w.t
  | .rngseed _ w => w.d == 0
  | _ => true

/-- Whether a term is well-formed. -/
def WellFormed (i : Instr) : Bool :=
  if i.isEvent then eventOk i
  else if engineClass i then engineOk i
  else fixedOk i && (Machine.formOf (fun _ => 0) 16 i).legal

end Sys2Proof
end

