-- ==== Sys2Proof/Safety.lean ====
section
/-! DEFINITION. What statements say of runs: when a strip issues a word normally, what such a word may change, and when a
state is a legal one. Nothing here is part of the machine. -/

namespace Sys2Proof.Machine

/-! Memory. -/

/-- The canonical form of every memory. -/
def State.memoryWf (s : State) : Bool :=
  Memory.wf s.device.cells && Memory.wf s.tier.cells && Memory.wf s.host && s.peers.all fun p => Memory.wf p.cells

/-- Every byte of the device memory, the second tier, the host memory and the peers reads in u as it does in s. -/
structure SameBytes (s u : State) : Prop where
  device : ∀ a, cellGet u.device.cells a = cellGet s.device.cells a
  tier : ∀ a, cellGet u.tier.cells a = cellGet s.tier.cells a
  host : ∀ a, cellGet u.host a = cellGet s.host a
  peers : u.peers = s.peers

/-! Issue in a strip. -/

/-- The form of a word where a strip issues it. -/
def Seat.form (w : Seat) (i : Instr) : Form := formOf (widthOf w.x.fmtTable w.t.fmt) w.l.hdr.acc i

/-- The seat in which the strip with the turn stands before i, where it runs and nothing holds it back (R17, R140,
R159). -/
def State.turned (s : State) (i : Instr) : Option Seat :=
  match s.cur with
  | .strip gid k =>
    match s.gang? gid with
    | none => none
    | some g =>
      match g.strip? k, s.launch? g.launch, s.ctx? g.ctx with
      | some t, some l, some x =>
        let f := formOf (widthOf x.fmtTable t.fmt) l.hdr.acc i
        let gd := guardOf t.preds (g.coord l.hdr t.idx) (f.guardWord i)
        if stripReady s g t l x i then some (seatOf s g { t with wait := .none } l x gd f i) else none
      | _, _, _ => none
  | _ => none

/-- The guard of a word in a seat (R39). -/
def Seat.guard (w : Seat) (i : Instr) : Guard := guardOf w.t.preds w.coord ((w.form i).guardWord i)

/-- Whether a word is of the G-set, is not EXIT, and has a guard that is not U (R39). -/
def Seat.unevenG (w : Seat) (i : Instr) : Bool :=
  (w.form i).g && i != .exit (w.form i).s (w.form i).x && (match w.guard i with
    | .lanes _ => true
    | _ => false)

/-- Whether a word is an LDT or STASH of which an operand that has to be U is not (R345, R366). -/
def Seat.unevenTile (w : Seat) : Instr → Bool
  | .ldt v => !((w.fr.pair v.a.toNat).isU && (w.fr.reg v.b.toNat).isU)
  | .stash v => !((w.fr.pair v.a.toNat).isU && (w.fr.pair v.b.toNat).isU && (w.fr.reg (vcOf v.x).toNat).isU)
  | _ => false

/-- Whether the encoding of a word is legal for a gang with all sixteen tiles (R92). -/
def Seat.encoded (w : Seat) (i : Instr) : Bool := (formOf (widthOf w.x.fmtTable w.t.fmt) 16 i).legal

/-- Whether the encoding of a word is legal, for its gang's tiles too (R56, R92), and, where it is privileged, the strip is
in supervisor mode. -/
def Seat.allowed (w : Seat) (i : Instr) : Bool := w.encoded i && (w.form i).legal && (!privileged i || w.t.priv)

/-- Whether a register that a word writes is locked (R66), or what it releases at FABRIC or SYSTEM scope is unacknowledged
(R183). -/
def Seat.locked (w : Seat) (i : Instr) : Bool := lockedDst w.t (w.form i) i
def Seat.unreleased (w : Seat) (i : Instr) : Bool := decide (4 ≤ releaseScope i) && w.t.unacked != 0

/-- The seat in which the strip with the turn issues i normally, if it does: the word is allowed; a G-set word other than
EXIT has a uniform guard; no faulted access stands in the replay queue of a strip in user mode (R265); the guard leaves a
lane; and neither a lock nor a missing acknowledgement makes the word wait. -/
def State.issuing (s : State) (i : Instr) : Option Seat :=
  (s.turned i).bind fun w =>
    if w.allowed i && !w.unevenG i && (w.t.priv || w.t.replay.isEmpty) && w.fr.active != 0 && !w.locked i && !w.unreleased i
    then some w else none

/-- Whether a word ends an unchecked region (R67). -/
def Seat.ends (w : Seat) (i : Instr) : Bool := (w.form i).s || endsRegion i

/-- The state in which the strip of a seat has issued i and t is what i has made of it, PC included: single-step has seen it
(R269), and where the region ends it is held while results are outstanding or accesses wait (R67). -/
def Seat.moved (w : Seat) (i : Instr) (s : State) (t : Strip) : State :=
  s.setStrip w.g.id { t.counted w.x.cfg.sstep with
    parked := w.ends i && !(decide (t.wait = .none) && t.outstanding.isEmpty) }

/-- The same where the PC advances past i. -/
def Seat.passed (w : Seat) (i : Instr) (s : State) (t : Strip) : State := w.moved i s { t with pc := w.pcNext }

/-- A strip after it has taken the trap p with the handler h (R263): outstanding results have returned, SR_CAUSE, SR_EPC,
SR_FMASK, SR_FADDR and the k registers hold the report, the strip is in supervisor mode at the handler with the reported
lanes active, and the mask and the stack depth of the trapped flow are kept. A DEBUG that another cause displaces is still to
come (R262). -/
def Strip.vectored (t : Strip) (coord : Nat → Nat × Nat × Nat) (h : DWord) (p : TrapInfo) : Strip :=
  let t := landAll coord t
  { writeTrapState t p with
    trapMask := t.active
    trapDepth := t.stack.length
    priv := true
    active := p.lanes &&& t.live
    pc := h
    wait := .none
    parked := false
    asked := []
    stepped := t.stepped && p.cause != 0x31 }

/-- The state in which the strip of a seat has taken the trap p. -/
def Seat.trapped (w : Seat) (s : State) (t : Strip) (p : TrapInfo) : State :=
  s.setStrip w.g.id (t.vectored w.coord (handlerOf s w.g.ctx) p)

/-! Registers. -/

/-- Register n of a strip for lane l, as RegPart numbers registers: 0 to 63 are v, 64 to 79 are k. -/
def Strip.word (t : Strip) (coord : Nat → Nat × Nat × Nat) (n l : Nat) : Word :=
  if n < 64 then regLane coord (vget t.regs n (.u 0)) l
  else vget (vget t.kregs (n - 64) (Vector.replicate 32 0)) l 0

/-- Register or pair n of a strip for lane l. -/
def Strip.lane (t : Strip) (coord : Nat → Nat × Nat × Nat) (wd n l : Nat) : DWord :=
  if wd = 64 then join64 (t.word coord n l) (t.word coord (n + 1) l) else (t.word coord n l).setWidth 64

/-- The parts of outstanding results that will write register n. -/
def Strip.partsOn (t : Strip) (n : Nat) : List RegPart := (t.outstanding.flatMap (·.parts)).filter (·.reg == n)

/-- What a source field reads in lane l of a seat: 32 bits, or a pair. -/
def Seat.src (w : Seat) (wd : Nat) (r : BitVec 6) (l : Nat) : DWord := (w.fr.src wd r.toNat).at_ w.fr l

/-- The register that a field names. -/
def Seat.slot (w : Seat) (r : BitVec 6) : Nat := w.fr.slot r.toNat

/-- The registers of a group of k registers. -/
def Seat.group (w : Seat) (r : BitVec 6) (k : Nat) : List Nat := (List.range k).map (w.slot r + ·)

/-- The registers that a last-read bit frees (R44, R64). -/
def Seat.lastRead (w : Seat) (bit : Bool) (r : BitVec 6) (k : Nat) : List Nat := if bit then w.group r k else []

/-- Whether a word frees register n on a last-read: it acts on every live lane, and nothing locks the register. -/
def Seat.frees (w : Seat) (fr : List Nat) (n : Nat) : Bool := w.fr.freeing && fr.contains n && !w.t.locks.getLsbD n

/-- The frame of the registers: but for those written and those freed every register, and every outstanding result for
it, is as it was. A freed register holds the uniform 0. -/
structure Keeps (w : Seat) (t : Strip) (written freed : List Nat) : Prop where
  vregs : ∀ n < 64, n ∉ written → vget t.regs n (.u 0) = if w.frees freed n then .u 0 else vget w.t.regs n (.u 0)
  kregs : ∀ n < 16, n + 64 ∉ written →
    vget t.kregs n (Vector.replicate 32 0) = vget w.t.kregs n (Vector.replicate 32 0)
  pending : ∀ n < 80, n ∉ written → ¬ (n < 64 ∧ w.frees freed n = true) → t.partsOn n = w.t.partsOn n

/-- The result of a word in one register or pair: the width, the register, the value for each lane, and the registers
that its last-read bits name. -/
structure Result where
  wd : Nat
  dst : Nat
  val : Nat → DWord
  freed : List Nat

/-- The registers of a result. -/
def Result.regs (r : Result) : List Nat := if r.wd = 64 then [r.dst, r.dst + 1] else [r.dst]

/-- A strip holds a result: the active lanes hold the value, the other live lanes what they held (R46), no outstanding
result will overwrite an active lane (R68), and the other registers are as Keeps says. -/
structure Writes (w : Seat) (r : Result) (t : Strip) : Prop where
  active : ∀ l < 32, laneIn w.fr.active l = true → t.lane w.coord r.wd r.dst l = cutTo r.wd (r.val l)
  others : w.t.leads = false → ∀ l < 32, laneIn w.t.live l = true → laneIn w.fr.active l = false →
    t.lane w.coord r.wd r.dst l = w.t.lane w.coord r.wd r.dst l
  returned : ∀ n ∈ r.regs, ∀ p ∈ t.partsOn n, p.mask &&& w.fr.active = 0
  keeps : Keeps w t r.regs r.freed

/-- A strip holds a predicate result in predicate p. -/
structure WritesPred (w : Seat) (p : BitVec 5) (val : Nat → Bool) (freed : List Nat) (t : Strip) : Prop where
  active : ∀ l < 32, laneIn w.fr.active l = true → predLane w.coord (vget t.preds p.toNat (.u false)) l = val l
  others : w.t.leads = false → ∀ l < 32, laneIn w.t.live l = true → laneIn w.fr.active l = false →
    predLane w.coord (vget t.preds p.toNat (.u false)) l = predLane w.coord (vget w.t.preds p.toNat (.u false)) l
  preds : ∀ n < 32, n ≠ p.toNat → vget t.preds n (.u false) = vget w.t.preds n (.u false)
  keeps : Keeps w t [] freed

/-- Nothing of a strip but the given parts is changed: its registers, predicates, outstanding results and the note of
late last-reads may be t's own. -/
def Seat.onlyRegs (w : Seat) (t : Strip) : Strip :=
  { w.t with regs := t.regs, kregs := t.kregs, preds := t.preds, outstanding := t.outstanding, lateFree := t.lateFree }

/-- A word passes with a result in one register or pair, and leaves the rest of its strip as it is. -/
def Seat.gives (w : Seat) (i : Instr) (out : Out) (r : Result) : Prop :=
  ∃ t, out = .next (w.passed i w.s t) ∧ t = w.onlyRegs t ∧ Writes w r t

/-- The registers ns of a strip hold U values. -/
def Strip.uniformIn (t : Strip) (ns : List Nat) : Prop := ∀ n ∈ ns, ∃ v, vget t.regs n (.u 0) = .u v

/-- A word passes with U results in the registers ns. -/
def Seat.givesUniform (w : Seat) (i : Instr) (out : Out) (ns : List Nat) : Prop :=
  ∃ t, out = .next (w.passed i w.s t) ∧ t.uniformIn ns

/-- A word passes with a predicate, and leaves the rest of its strip as it is. -/
def Seat.givesPred (w : Seat) (i : Instr) (out : Out) (p : BitVec 5) (val : Nat → Bool) (freed : List Nat) : Prop :=
  ∃ t, out = .next (w.passed i w.s t) ∧ t = w.onlyRegs t ∧ WritesPred w p val freed t

/-! The results of the integer words, lane by lane (R310 to R313, R316, R318, R346, R352, R354). A value is taken by
its low 32 bits where the width is 32. -/

/-- The registers of an operand of a width. -/
def regsOf (wd : Nat) : Nat := if wd = 64 then 2 else 1

def Seat.of2 (w : Seat) (v : W2) (word : DWord → DWord) : Result :=
  Result.mk 32 (w.slot v.d) (fun l => word (w.src 32 v.a l)) (w.lastRead v.la v.a 1)
def Seat.of3 (w : Seat) (wd : Nat) (v : W3) (word : DWord → DWord → DWord) : Result :=
  Result.mk wd (w.slot v.d) (fun l => word (w.src wd v.a l) (w.src wd v.b l))
    (w.lastRead v.la v.a (regsOf wd) ++ w.lastRead v.lb v.b (regsOf wd))
def Seat.of4 (w : Seat) (wd : Nat) (v : W3) (word : DWord → DWord → DWord → DWord) : Result :=
  Result.mk wd (w.slot v.d) (fun l => word (w.src wd v.a l) (w.src wd v.b l) (w.src wd (vcOf v.x) l))
    (w.lastRead v.la v.a (regsOf wd) ++ w.lastRead v.lb v.b (regsOf wd) ++ w.lastRead (lcOf v.x) (vcOf v.x) (regsOf wd))
def Seat.ofImm (w : Seat) (v : WImm) (word : DWord → DWord → DWord) : Result :=
  Result.mk 32 (w.slot v.d) (fun l => word (w.src 32 v.a l) ((immOf v.imm v.lit).setWidth 64)) (w.lastRead v.la v.a 1)

/-- The integer words of R310: exact arithmetic on the operands as the type reads them, saturated where sat is set. -/
def Seat.arithmetic (w : Seat) : Instr → Option Result
  | .add t v => some (w.of3 (typeWidth t) v fun a b => intResult t (satOf v.x) (readInt t a + readInt t b))
  | .sub t v => some (w.of3 (typeWidth t) v fun a b => intResult t (satOf v.x) (readInt t a - readInt t b))
  | .mul t v => some (w.of3 (typeWidth t) v fun a b => intResult t (satOf v.x) (readInt t a * readInt t b))
  | .mulh t v => some (w.of3 (typeWidth t) v fun a b => intResult t false (readInt t a * readInt t b / (2 ^ typeWidth t : Nat)))
  | .min t v => some (w.of3 (typeWidth t) v fun a b => intResult t false (Min.min (readInt t a) (readInt t b)))
  | .max t v => some (w.of3 (typeWidth t) v fun a b => intResult t false (Max.max (readInt t a) (readInt t b)))
  | .addc t v =>
    some (w.of3 (typeWidth t) v fun a b => intResult t false ((readInt t a + readInt t b) / (2 ^ typeWidth t : Nat)))
  | .mad t v =>
    some (w.of4 (typeWidth t) v fun a b c => intResult t (satOf v.x) (readInt t a * readInt t b + readInt t c))
  | _ => none

/-- The logic words, shifts and bit words, and FCLASS (R330). -/
def Seat.logic (w : Seat) : Instr → Option Result
  | .and v => some (w.of3 32 v fun a b => (loOf a &&& loOf b).setWidth 64)
  | .or v => some (w.of3 32 v fun a b => (loOf a ||| loOf b).setWidth 64)
  | .xor v => some (w.of3 32 v fun a b => (loOf a ^^^ loOf b).setWidth 64)
  | .andn v => some (w.of3 32 v fun a b => (loOf a &&& ~~~(loOf b)).setWidth 64)
  | .shl v => some (w.of3 32 v fun a b => (loOf a <<< (loOf b).toNat).setWidth 64)
  | .shr v => some (w.of3 32 v fun a b => (loOf a >>> (loOf b).toNat).setWidth 64)
  | .sar v => some (w.of3 32 v fun a b => ((loOf a).sshiftRight (loOf b).toNat).setWidth 64)
  | .fclass v => some (w.of2 v (on32u fclassWord))
  | .popc v => some (w.of2 v fun a => BitVec.ofNat 64 ((List.range 32).countP fun i => (loOf a).getLsbD i))
  | .clz v => some (w.of2 v fun a => BitVec.ofNat 64 (((List.range 32).takeWhile fun i => !(loOf a).getLsbD (31 - i)).length))
  | .brev v => some (w.of2 v fun a => (loOf a).reverse.setWidth 64)
  | .bfx v => some (w.of3 32 v (on32 bfxWord))
  | .bfi v => some (w.of4 32 v (on32t bfiWord))
  | .prmt v => some (w.of4 32 v (on32t prmtWord))
  | .lea v => some (w.of4 32 v fun a b c => (loOf a + loOf b <<< (loOf c).toNat).setWidth 64)
  | _ => none

/-- The immediate words: the second operand is the literal or the sign-extended imm10. -/
def Seat.immediate (w : Seat) : Instr → Option Result
  | .addi v => some (w.ofImm v fun a b => (loOf a + loOf b).setWidth 64)
  | .muli v => some (w.ofImm v fun a b => (loOf a * loOf b).setWidth 64)
  | .andi v => some (w.ofImm v fun a b => (loOf a &&& loOf b).setWidth 64)
  | .ori v => some (w.ofImm v fun a b => (loOf a ||| loOf b).setWidth 64)
  | .xori v => some (w.ofImm v fun a b => (loOf a ^^^ loOf b).setWidth 64)
  | .shli v => some (w.ofImm v fun a b => (loOf a <<< (loOf b).toNat).setWidth 64)
  | .shri v => some (w.ofImm v fun a b => (loOf a >>> (loOf b).toNat).setWidth 64)
  | .sari v => some (w.ofImm v fun a b => ((loOf a).sshiftRight (loOf b).toNat).setWidth 64)
  | .movi v => some (Result.mk 32 (w.slot v.d) (fun _ => (immOf v.imm v.lit).setWidth 64) [])
  | _ => none

/-- G-set words of one result (R310, R312, R313, R86): the result, and the sources that must be U. -/
def Seat.gset (w : Seat) : Instr → Option (Result × List (BitVec 6))
  | .addG u v => some (w.of3 32 v fun a b => intResult (typeG u) (satOf v.x) (readInt (typeG u) a + readInt (typeG u) b), [v.a, v.b])
  | .subG u v => some (w.of3 32 v fun a b => intResult (typeG u) (satOf v.x) (readInt (typeG u) a - readInt (typeG u) b), [v.a, v.b])
  | .mulG u v => some (w.of3 32 v fun a b => intResult (typeG u) (satOf v.x) (readInt (typeG u) a * readInt (typeG u) b), [v.a, v.b])
  | .mulhG u v =>
    some (w.of3 32 v fun a b => intResult (typeG u) false (readInt (typeG u) a * readInt (typeG u) b / (2 ^ 32 : Nat)), [v.a, v.b])
  | .minG u v => some (w.of3 32 v fun a b => intResult (typeG u) false (Min.min (readInt (typeG u) a) (readInt (typeG u) b)), [v.a, v.b])
  | .maxG u v => some (w.of3 32 v fun a b => intResult (typeG u) false (Max.max (readInt (typeG u) a) (readInt (typeG u) b)), [v.a, v.b])
  | .addcG u v =>
    some (w.of3 32 v fun a b => intResult (typeG u) false ((readInt (typeG u) a + readInt (typeG u) b) / (2 ^ 32 : Nat)), [v.a, v.b])
  | .madG u v =>
    some (w.of4 32 v fun a b c => intResult (typeG u) (satOf v.x) (readInt (typeG u) a * readInt (typeG u) b + readInt (typeG u) c),
      [v.a, v.b, vcOf v.x])
  | .andG v => some (w.of3 32 v fun a b => (loOf a &&& loOf b).setWidth 64, [v.a, v.b])
  | .orG v => some (w.of3 32 v fun a b => (loOf a ||| loOf b).setWidth 64, [v.a, v.b])
  | .xorG v => some (w.of3 32 v fun a b => (loOf a ^^^ loOf b).setWidth 64, [v.a, v.b])
  | .andnG v => some (w.of3 32 v fun a b => (loOf a &&& ~~~(loOf b)).setWidth 64, [v.a, v.b])
  | .shlG v => some (w.of3 32 v fun a b => (loOf a <<< (loOf b).toNat).setWidth 64, [v.a, v.b])
  | .shrG v => some (w.of3 32 v fun a b => (loOf a >>> (loOf b).toNat).setWidth 64, [v.a, v.b])
  | .sarG v => some (w.of3 32 v fun a b => ((loOf a).sshiftRight (loOf b).toNat).setWidth 64, [v.a, v.b])
  | .addiG v => some (w.ofImm v fun a b => (loOf a + loOf b).setWidth 64, [v.a])
  | .moviG v => some (Result.mk 32 (w.slot v.d) (fun _ => (immOf v.imm v.lit).setWidth 64) [], [])
  | _ => none

/-- The predicate in lane l, and what a MOV's source field reads in lane l (R80, R347). -/
def Seat.pred (w : Seat) (p : BitVec 5) (l : Nat) : Bool := predLane w.coord (vget w.t.preds p.toNat (.u false)) l
def Seat.movSrc (w : Seat) (v : W2) (l : Nat) : DWord :=
  if xsOf v.x then
    ((if wideOf v.x then w.fr.vpair v.a.toNat else w.fr.vreg v.a.toNat).at_ w.fr l)
  else w.src (cmpWidth v.x) v.a l

/-- A MOV's result: XS and XD name v registers in supervisor mode (R80). -/
def Seat.movResult (w : Seat) (v : W2) : Result :=
  Result.mk (cmpWidth v.x) (if xdOf v.x then v.d.toNat else w.slot v.d) (w.movSrc v)
    (if !v.la then [] else
      if xsOf v.x then (List.range (regsOf (cmpWidth v.x))).map (v.a.toNat + ·) else w.group v.a (regsOf (cmpWidth v.x)))

/-- Words that move a value (R347, R360): MOV; MKU, the value of the lowest active lane; PMOV from a predicate; SEL. -/
def Seat.moves (w : Seat) : Instr → Option Result
  | .mov v => some (w.movResult v)
  | .mku v =>
    some (Result.mk (cmpWidth v.x) (w.slot v.d) (fun _ => w.src (cmpWidth v.x) v.a (((lanesOf w.fr.active).head?).getD 0))
      (w.lastRead v.la v.a (regsOf (cmpWidth v.x))))
  | .pmovToReg v => some (Result.mk 32 (w.slot v.d) (fun l => if w.pred v.q l then 1 else 0) [])
  | .sel v =>
    some (Result.mk 32 (w.slot v.d)
      (fun l => if w.pred ((v.x.map (·.gp)).getD 0) l != ((v.x.map (·.gn)).getD false) then w.src 32 v.a l else w.src 32 v.b l)
      (w.lastRead v.la v.a 1 ++ w.lastRead v.lb v.b 1))
  | _ => none

/-- What MOVS reads of a special register in lane l (R54); wide names its whole 64 bits (R55). -/
def Seat.special (w : Seat) (wide : Bool) (n l : Nat) : DWord :=
  let half (v : DWord) : DWord := if wide then v else low32 v
  let num (k : Nat) : DWord := BitVec.ofNat 64 k
  let word (v : Word) : DWord := v.setWidth 64
  let (x, y, z) := w.coord l
  let b := w.l.rcd.box
  match n with
  | 0x00 => num ((x - b.ox) + b.ex * ((y - b.oy) + b.ey * (z - b.oz)))
  | 0x01 => num x
  | 0x02 => num y
  | 0x03 => num z
  | 0x04 => num (if w.l.hdr.w16 then l % 16 else l)
  | 0x05 => num w.t.idx
  | 0x06 => num w.g.tile
  | 0x07 => num w.g.cx
  | 0x08 => num w.g.cy
  | 0x09 => num w.g.cz
  | 0x0A => num w.g.stage
  | 0x0B => num w.l.group.rank
  | 0x0C => num w.l.group.nrank
  | 0x0D => num ((w.g.place.map (·.bench)).getD 0)
  | 0x0E => num ((w.g.place.map fun p => p.bench / 48).getD w.g.die)
  | 0x0F => half w.l.rcd.args
  | 0x10 => word w.t.fmt
  | 0x11 => word w.t.mode
  | 0x12 => word w.t.fpstat
  | 0x13 => word w.t.cause
  | 0x14 => half (vget w.t.faddr l 0)
  | 0x15 => vget w.t.faddr l 0 >>> 32
  | 0x16 => word w.t.fmask
  | 0x17 => half w.s.clock
  | 0x18 => w.s.clock >>> 32
  | 0x19 => num (if w.s.dev.c128 then 1 else 0)
  | 0x1A => half w.l.rcd.pgt
  | 0x1B => num (if w.l.hdr.w16 then 1 else 0)
  | 0x1C => num w.l.rcd.acct
  | 0x1D => half w.x.root
  | 0x1E => w.x.root >>> 32
  | _ => half w.t.epc

/-- The result of MOVS. -/
def Seat.movsResult (w : Seat) (v : WNoLa) : Result :=
  Result.mk (cmpWidth v.x) (w.slot v.d) (w.special (wideOf v.x) v.a.toNat) []

/-- The active lanes of the lane group of lane l (R136). -/
def Seat.peers (w : Seat) (l : Nat) : List Nat :=
  (lanesOf w.fr.active).filter fun k => !w.l.hdr.w16 || k / 16 == l / 16

/-- Words whose result is a predicate and which raise no flag (R351, R347, R369): PLOP, PMOV to a predicate and the VOTEs. -/
def Seat.predicate (w : Seat) : Instr → Option (BitVec 5 × (Nat → Bool) × List Nat)
  | .plop _ pd pa pb t _ =>
    some (pd, fun l => t.getLsbD ((if w.pred pa l then 2 else 0) + (if w.pred pb l then 1 else 0)), [])
  | .pmovToPred v => some (v.p, fun l => loOf (w.src 32 v.a l) != 0, w.lastRead v.la v.a 1)
  | .voteAll v => some (v.p, fun l => (w.peers l).all (w.pred v.q), [])
  | .voteAny v => some (v.p, fun l => (w.peers l).any (w.pred v.q), [])
  | .voteSame v =>
    some (v.p, fun l => (w.peers l).all fun k => (w.peers l).all fun j => loOf (w.src 32 v.a k) == loOf (w.src 32 v.a j),
      w.lastRead v.la v.a 1)
  | _ => none

/-- The truth of an integer comparison (R339), of two values as the width reads them. -/
def compares (c : ICond) (wd : Nat) (a b : DWord) : Bool :=
  match c with
  | .eq => cutTo wd a == cutTo wd b
  | .ne => cutTo wd a != cutTo wd b
  | .lt => if wd = 64 then a.slt b else (loOf a).slt (loOf b)
  | .le => if wd = 64 then a.sle b else (loOf a).sle (loOf b)
  | .gt => if wd = 64 then b.slt a else (loOf b).slt (loOf a)
  | .ge => if wd = 64 then b.sle a else (loOf b).sle (loOf a)
  | .ltn => (cutTo wd a).ult (cutTo wd b)
  | .gen => (cutTo wd b).ule (cutTo wd a)

/-- Words whose result lies across lanes (R137, R138, R362, R369). SHFL's lane j of a group of G reads lane s of its group
where that lane is active, and itself otherwise. VOTE.MASK has bit k for lane k of the group. -/
def Seat.crossed (w : Seat) : Instr → Option Result
  | .shfl op v =>
    let g := if w.l.hdr.w16 then 16 else 32
    some (Result.mk 32 (w.slot v.d) (fun l =>
      let d := (loOf (w.src 32 v.b l)).toNat
      let j := l % g
      let s : Int := match op with
        | .lane => d
        | .back => ((j : Int) - d) % (2 ^ 32 : Nat)
        | .ahead => ((j : Int) + d) % (2 ^ 32 : Nat)
        | .pair => (j ^^^ d : Nat)
      let k := l - j + s.toNat
      if s < g ∧ laneIn w.fr.active k then w.src 32 v.a k else w.src 32 v.a l)
      (w.lastRead v.la v.a 1 ++ w.lastRead v.lb v.b 1))
  | .voteMask v =>
    let g := if w.l.hdr.w16 then 16 else 32
    some (Result.mk 32 (w.slot v.d)
      (fun l => BitVec.ofNat 64 (((w.peers l).filter (w.pred v.q)).map fun k => 2 ^ (k % g)).sum) [])
  | _ => none

/-! Float words. Each lane's value and flags come from one evaluation; a stochastic rounding gives each lane the word of
the generator MODE.SRG for it (R113, R115). -/

/-- The evaluation of a float word in each lane: the value, and the flags it raises. -/
structure FloatOp where
  wd : Nat
  dst : BitVec 6
  mode : Nat
  eval : Nat → Word → Nat × Word
  freed : List Nat

/-- The word of the generator MODE.SRG for lane l under stochastic rounding. -/
def Seat.draw (w : Seat) (mode l : Nat) : Word := if mode = 6 then drawWord (vget w.t.gens w.fr.srg (Gen.mk 0 0)) l else 0

/-- The generators after a word that rounds in a mode. -/
def Seat.drawn (w : Seat) (mode : Nat) : Vector Gen 4 :=
  if mode = 6 then vset w.t.gens w.fr.srg ((vget w.t.gens w.fr.srg (Gen.mk 0 0)).advance 32) else w.t.gens

/-- The special inputs of R334 by the number of the function, from FRCP to FTANH: the result of an FP32 operand and the flags
with it, none where the result is a function value. Under FTZ a subnormal reads as zero. -/
def specialInput (fn : Nat) (ftz : Bool) (x : Word) : Option (Word × Word) :=
  let nan : Word × Word := (0x7FC00000, flagIV ||| flagNF)
  let pole (neg : Bool) : Word × Word := (if neg then 0xFF800000 else 0x7F800000, flagDZ ||| flagNF)
  let top : Word × Word := (0x7F800000, flagNF)
  let plus : Word × Word := (0, 0)
  let minus : Word × Word := (0x80000000, 0)
  let one : Word × Word := (0x3F800000, 0)
  let row : List (Word × Word) := match fn with
    | 0 => [minus, pole true, pole false, plus]
    | 1 => [nan, pole true, pole false, plus]
    | 2 => [nan, minus, plus, top]
    | 3 => [plus, one, one, top]
    | 4 => [nan, pole true, pole true, top]
    | 5 => [nan, minus, plus, nan]
    | 6 => [nan, one, one, nan]
    | _ => [(0xBF800000, 0), minus, plus, one]
  let mag := x &&& 0x7FFFFFFF
  let neg := x.getLsbD 31
  if 0x7F800000 < mag.toNat then
    some (0x7FC00000, if mag.getLsbD 22 then flagNF else flagIV ||| flagNF)
  else if mag = 0x7F800000 then row[if neg then 0 else 3]?
  else if mag = 0 ∨ (ftz ∧ mag.toNat < 0x00800000) then row[if neg then 1 else 2]?
  else if neg ∧ (fn = 1 ∨ fn = 2 ∨ fn = 4) then some nan
  else none

/-- The number of a function word (R334), and its operands. -/
def functionWord : Instr → Option (Nat × W2)
  | .frcp v => some (0, v)
  | .frsq v => some (1, v)
  | .fsqrt v => some (2, v)
  | .fexp2 v => some (3, v)
  | .flog2 v => some (4, v)
  | .fsin v => some (5, v)
  | .fcos v => some (6, v)
  | .ftanh v => some (7, v)
  | _ => none

/-- The magnitude of an FP32 code below infinity, and the middle between it and the next (R100, R112). -/
def magnitude (c : Nat) : ℚ := ((entFp32.mag c).1 : ℚ) * (2 : ℚ) ^ (entFp32.mag c).2
def midAbove (c : Nat) : ℚ := (magnitude c + magnitude (c + 1)) / 2

/-- Whether a magnitude q is at most, or less than, the exact result of FRCP, FRSQ or FSQRT of a magnitude x. -/
def rootAtMost (fn : Nat) (q x : ℚ) : Prop := if fn = 0 then q * x ≤ 1 else if fn = 1 then q ^ 2 * x ≤ 1 else q ^ 2 ≤ x
def rootAbove (fn : Nat) (q x : ℚ) : Prop := if fn = 0 then 1 < q * x else if fn = 1 then 1 < q ^ 2 * x else x < q ^ 2
def rootAtLeast (fn : Nat) (q x : ℚ) : Prop := if fn = 0 then 1 ≤ q * x else if fn = 1 then 1 ≤ q ^ 2 * x else x ≤ q ^ 2

/-- A code is the result of FRCP, FRSQ or FSQRT of an FP32 operand, rounded toward zero (mode 2) or to the nearest (mode 1),
bracketed by exact arithmetic (R112, R333). -/
structure Brackets (fn mode : Nat) (x : Word) (code : Nat) : Prop where
  sign : code / 2 ^ 31 = if x.getLsbD 31 then 1 else 0
  floor : mode = 2 → rootAtMost fn (magnitude (code % 2 ^ 31)) (magnitude (x.toNat % 2 ^ 31)) ∧
    (code % 2 ^ 31 < entFp32.maxMag → rootAbove fn (magnitude (code % 2 ^ 31 + 1)) (magnitude (x.toNat % 2 ^ 31)))
  finite : mode = 2 → code % 2 ^ 31 ≤ entFp32.maxMag
  nearest : mode = 1 → code % 2 ^ 31 ≤ entFp32.maxMag →
    (0 < code % 2 ^ 31 → rootAtMost fn (midAbove (code % 2 ^ 31 - 1)) (magnitude (x.toNat % 2 ^ 31))) ∧
    rootAtLeast fn (midAbove (code % 2 ^ 31)) (magnitude (x.toNat % 2 ^ 31))

/-- A float word passes: each active lane holds its value, SR_FPSTAT has the flags of the active lanes, and a generator
that stochastic rounding used has advanced. -/
def Seat.givesFloat (w : Seat) (i : Instr) (out : Out) (f : FloatOp) : Prop :=
  ∃ t, out = .next (w.passed i w.s t) ∧
    t = { w.onlyRegs t with
      fpstat := w.t.fpstat ||| (lanesOf w.fr.active).foldl (fun fl l => fl ||| (f.eval l (w.draw f.mode l)).2) 0
      gens := w.drawn f.mode } ∧
    Writes w (Result.mk f.wd (w.slot f.dst) (fun l => BitVec.ofNat 64 (f.eval l (w.draw f.mode l)).1) f.freed) t

/-- A float operand of a seat in lane l (R114), and the rounding mode that a word names (R77). -/
def Seat.num (w : Seat) (f64 : Bool) (r : BitVec 6) (l : Nat) : Num := floatIn w.fr f64 (w.src (floatWidth f64) r l)
def Seat.mode (w : Seat) (x : Option XWord) : Nat := w.fr.rounding (rndOf x)

/-- A float word of two operands: the exact result of op, rounded once (R327, R328). -/
def Seat.float2 (w : Seat) (f64 : Bool) (v : W3) (mode : Nat) (op : Num → Num → Num × Bool) : FloatOp :=
  FloatOp.mk (floatWidth f64) v.d mode
    (fun l dw => let (r, bad) := op (w.num f64 v.a l) (w.num f64 v.b l); floatOut w.fr f64 mode dw r bad)
    (w.lastRead v.la v.a (regsOf (floatWidth f64)) ++ w.lastRead v.lb v.b (regsOf (floatWidth f64)))

/-- A function word of one FP32 operand (R330, R331, R333). -/
def Seat.float1 (w : Seat) (v : W2) (eval : Frame → Nat → Word → DWord → Nat × Word) : FloatOp :=
  FloatOp.mk 32 v.d (w.mode v.x) (fun l dw => eval w.fr (w.mode v.x) dw (w.src 32 v.a l)) (w.lastRead v.la v.a 1)

/-- The float words (R327 to R333). -/
def Seat.float (w : Seat) : Instr → Option FloatOp
  | .fadd f v =>
    some (w.float2 f v (w.mode v.x) fun a b => (a.add (w.mode v.x == 4) b, a.addInvalid b))
  | .fsub f v =>
    some (w.float2 f v (w.mode v.x) fun a b => (a.add (w.mode v.x == 4) b.negate, a.addInvalid b.negate))
  | .fmul f v => some (w.float2 f v (w.mode v.x) fun a b => (a.mul b, a.mulInvalid b))
  | .fmin f v => some (w.float2 f v 1 (fpickNum true))
  | .fmax f v => some (w.float2 f v 1 (fpickNum false))
  | .ffma f v =>
    let n := floatWidth f
    some (FloatOp.mk n v.d (w.mode v.x)
      (fun l dw =>
        let (a, b, c) := (w.num f v.a l, w.num f v.b l, w.num f (vcOf v.x) l)
        floatOut w.fr f (w.mode v.x) dw ((a.mul b).add (w.mode v.x == 4) c) (a.mulInvalid b || (a.mul b).addInvalid c))
      (w.lastRead v.la v.a (regsOf n) ++ w.lastRead v.lb v.b (regsOf n) ++ w.lastRead (lcOf v.x) (vcOf v.x) (regsOf n)))
  | .fscl f v =>
    let n := floatWidth f
    some (FloatOp.mk n v.d (w.mode v.x)
      (fun l dw => floatOut w.fr f (w.mode v.x) dw (fsclNum (w.num f v.a l) (loOf (w.src 32 v.b l))) false)
      (w.lastRead v.la v.a (regsOf n) ++ w.lastRead v.lb v.b 1))
  | .frcp v => some (w.float1 v (funcEval 0))
  | .frsq v => some (w.float1 v (funcEval 1))
  | .fsqrt v => some (w.float1 v (funcEval 2))
  | .fexp2 v => some (w.float1 v (funcEval 3))
  | .flog2 v => some (w.float1 v (funcEval 4))
  | .fsin v => some (w.float1 v (funcEval 5))
  | .fcos v => some (w.float1 v (funcEval 6))
  | .ftanh v => some (w.float1 v (funcEval 7))
  | .frnd v => some (w.float1 v frndEval)
  | _ => none

/-- CVT of element fn from entry e into entry f (R83, R321). -/
def Seat.cvt (w : Seat) (fn : BitVec 3) (v : W3) (e f : DWord) : FloatOp :=
  let src := Ent.of e
  let dst := Ent.of f
  let sn := if src.wid = 64 then 64 else 32
  FloatOp.mk (if dst.wid = 64 then 64 else 32) v.d (w.mode v.x)
    (fun l dw =>
      let (c, fl) := convertCode w.fr.ftz src dst (w.mode v.x) (satOf v.x) dw (elementOf src.wid fn.toNat (w.src sn v.a l))
      (extendCode dst c, fl))
    (w.lastRead v.la v.a (regsOf sn))

/-- VDOT of packed elements of entry e with an addend (R368). -/
def Seat.vdot (w : Seat) (v : W3) (e : DWord) : FloatOp :=
  FloatOp.mk 32 v.d (w.mode v.x)
    (fun l dw => vdotEval w.fr (Ent.of e) (w.mode v.x) (satOf v.x) dw (w.src 32 v.a l) (w.src 32 v.b l) (w.src 32 (vcOf v.x) l))
    (w.lastRead v.la v.a 1 ++ w.lastRead v.lb v.b 1 ++ w.lastRead (lcOf v.x) (vcOf v.x) 1)

/-- The entry that a format code selects for a strip, where it selects one that is not block-scaled (R78, R107). -/
def Seat.plainEntry (w : Seat) (code : Nat) : Option DWord :=
  (entryOf w.x.fmtTable w.t.fmt code).bind fun e => if (Ent.of e).blk = 0 then some e else none

/-- The fold of REAP over the values of a group (R356), for the integer folds. -/
def reapFold (op : ReapOp) (vs : List Word) : Word :=
  match op with
  | .add => vs.foldr (· + ·) 0
  | .min => vs.tail.foldl (fun a b => if b.slt a then b else a) (vs.headD 0)
  | .max => vs.tail.foldl (fun a b => if a.slt b then b else a) (vs.headD 0)
  | .and => vs.foldr (· &&& ·) 0xFFFFFFFF
  | .or => vs.foldr (· ||| ·) 0
  | _ => vs.foldr (· ^^^ ·) 0

/-- REAP: the same value in each active lane of a group (R138, R356). Under stochastic rounding a group uses the word
that its first lane numbers. -/
def Seat.reap (w : Seat) (op : ReapOp) (v : W2) : FloatOp :=
  let mode := if op == .fadd then w.mode v.x else 1
  FloatOp.mk 32 v.d mode
    (fun l _ =>
      let vs := (w.peers l).map fun k => loOf (w.src 32 v.a k)
      match op with
      | .fadd => reapFadd w.fr mode (w.draw mode (if w.l.hdr.w16 then 16 * (l / 16) else 0)) vs
      | .fmax => reapFmax w.fr vs
      | op => ((reapFold op vs).toNat, 0))
    (w.lastRead v.la v.a 1)

/-- Whether a word has a result in a register that these definitions give. -/
def Seat.hasResult (w : Seat) (i : Instr) : Bool :=
  (w.arithmetic i).isSome || (w.logic i).isSome || (w.immediate i).isSome || (w.moves i).isSome || (w.crossed i).isSome ||
  (w.float i).isSome

/-! Control. -/

/-- A trap that a strip takes now vectors: it is in user mode, and its context has a handler (R263, R266, R272). -/
def Seat.vectors (w : Seat) : Prop := w.t.priv = false ∧ handlerOf w.s w.g.ctx ≠ 0

/-- The active lanes that take a BRA (R87). -/
def Seat.taken (w : Seat) (p : BitVec 5) (neg : Bool) : Mask :=
  maskOf fun l => laneIn w.fr.active l && ((p == 31 && neg) || w.pred p l != neg)

/-- The address so many words from a seat's instruction. -/
def Seat.toward (w : Seat) (words : DWord) : DWord := w.t.pc + 4 * words

/-- A stack entry that holds a seat's mask and controls (R61). -/
def Seat.entry (w : Seat) (pc : DWord) (mask : Mask) : StackEntry := StackEntry.mk pc mask w.t.fmt w.t.mode

/-- A strip that has popped its top entry and goes on at pc in the entry's lanes, with its FMT and MODE (R132, R133). -/
def Strip.resumed (t : Strip) (e : StackEntry) (rest : List StackEntry) (pc : DWord) : Strip :=
  { t with stack := rest, pc := pc, active := e.mask &&& t.live, fmt := e.fmt, mode := e.mode }

/-- Whether an entry is a path entry, a call entry, or the reconvergence entry of an address (R131, R319). -/
def StackEntry.isPath (e : StackEntry) : Bool := e.pc.getLsbD 0
def StackEntry.isCall (e : StackEntry) : Bool := !e.pc.getLsbD 0 && e.pc.getLsbD 1

/-- A strip after the lanes of a seat have left it: outstanding results have returned, and the PC has advanced (R133). -/
def Seat.left (w : Seat) : Strip :=
  let t := landAll w.coord w.t
  { t with live := t.live &&& ~~~w.fr.active, active := t.active &&& ~~~w.fr.active, pc := w.pcNext }

/-- A word passes in state s with the strip that f makes of its strip, of whose registers it only frees some. -/
def Seat.sets (w : Seat) (i : Instr) (out : Out) (s : State) (freed : List Nat) (f : Strip → Strip) : Prop :=
  ∃ t, out = .next (w.passed i s (f t)) ∧ t = w.onlyRegs t ∧ Keeps w t [] freed

/-- The state in which the strip of a seat waits to issue i again, for a reason (R159). -/
def Seat.again (w : Seat) (i : Instr) (s : State) (r : Reason) : State :=
  s.setStrip w.g.id { w.t with wait := .again r i }

/-- The state in which the strip of a seat waits to issue i again, for the requests with some keys where a peer has to answer: one
that it has sent already keeps its clock (R293). -/
def Seat.pends (w : Seat) (i : Instr) (s : State) (keys : List Nat) (r : Reason) : State :=
  s.setStrip w.g.id { w.t with asked := w.t.asked.still w.s keys, wait := .again r i }

/-- A word's read of n bytes at a, and the state after its walk; what it meets at the memory's home is noted, and so is that a
peer has not answered it in time (R293). -/
def Seat.reads (w : Seat) (a : DWord) (n : Nat) : Plan × State :=
  let (p, s) := planReq w.s w.g.ctx .read w.t.priv false (laneReq 0 a n [] [])
  ((p.meet s w.g.ctx true false).late s w.g.ctx w.t.asked.at_, s)

/-! Memory accesses. -/

/-- The place of a byte so many bytes on. -/
def Target.plus (x : Target) (j : Nat) : Target :=
  match x with
  | .device a => .device (a + j)
  | .tier a => .tier (a + j)
  | .host a => .host (a + j)
  | .peer k a => .peer k (a + j)

/-- The places of a part's bytes, in order. -/
def Plan.targets (p : Plan) : List Target := p.segs.flatMap fun g => (List.range g.len).map g.tgt.plus

/-- The byte at a place of this package or of the host. -/
def State.byteAt (s : State) (x : Target) : Byte :=
  match x with
  | .device a => cellGet s.device.cells a
  | .tier a => cellGet s.tier.cells a
  | .host a => cellGet s.host a
  | .peer _ _ => 0

/-- Whether two places lie in one 128 B line of a memory of this package. -/
def Target.sameLine : Target → Target → Prop
  | .device a, .device b => a / 128 = b / 128
  | .tier a, .tier b => a / 128 = b / 128
  | _, _ => False

/-- The byte that backing memory holds of a place whose line is dirty (R168, R170). -/
def State.backing (s : State) : Target → Option Byte
  | .device a => (s.device.dirty.find? (·.line == a / 128)).map fun d => d.old.getD (a % 128) 0
  | .tier a => (s.tier.dirty.find? (·.line == a / 128)).map fun d => d.old.getD (a % 128) 0
  | _ => none

/-- Bytes after some have been stored in order: a later one stays. -/
def setBytes (f : Target → Byte) (xs : List (Target × Byte)) (x : Target) : Byte :=
  match xs.reverse.find? (·.1 == x) with
  | some (_, b) => b
  | none => f x

/-- The parts of an access of a seat, translated, and the state after their walks. -/
def Seat.plans (w : Seat) (need : Need) (wr : Bool) (reqs : List LaneReq) : List Plan × State :=
  planAll w.s w.g.ctx need w.t.priv wr reqs

/-- A part that goes through plainly: no fault of its walk, no page that is twin-enabled or a twin, no byte at a peer or in
the count shadow, and nothing in its way at its home (R177, R249, R278, R291, R298). -/
def Plan.plain (s : State) (c : Nat) (rd : Bool) (p : Plan) : Prop :=
  p.req.cause = 0 ∧ p.waits = false ∧ ∀ g ∈ p.segs, leafTw g.leaf = false ∧ leafTwin g.leaf = false ∧
    segTrouble s c rd g = .none ∧
    (match g.tgt with
     | .device pa => tdiRefuses s c pa g.len = false ∧ inShadow s pa = false
     | .peer _ _ => False
     | _ => True)

/-- Memory may have changed only at its homes: the bytes, what the caches hold, poison and write marks of the device and the
second tier, and host memory; and what follows an access: the counters of one account (R301), the note of the byte values
written (R165), and the counter of free values. -/
structure OnlyMemory (s u : State) (acct : Nat) : Prop where
  rest : u = { s with
    device := u.device, tier := u.tier, host := u.host
    dev := { s.dev with accounts := u.dev.accounts }, wrote := u.wrote, tick := u.tick }
  others : ∀ k < 64, k ≠ acct → vget u.dev.accounts k Account.reset = vget s.dev.accounts k Account.reset

/-- Memory has only been read: its bytes are as they were, and nothing is dirtied or poisoned. -/
structure OnlyRead (s u : State) (acct : Nat) : Prop where
  memory : OnlyMemory s u acct
  bytes : SameBytes s u
  device : u.device = { s.device with owned := u.device.owned, marks := u.device.marks }
  tier : u.tier = { s.tier with owned := u.tier.owned, marks := u.tier.marks }
  wrote : u.wrote = s.wrote

/-- An outstanding result is t's last, and the rest of the strip's registers and results is as Keeps says. -/
def Seat.lands (w : Seat) (t : Strip) (x : Landing) (freed : List Nat) : Prop :=
  ∃ o, t.outstanding = o ++ [x] ∧ Keeps w { t with outstanding := o } [] freed

/-- A result for a group of registers: the value of each in each lane of the mask. -/
def Landing.holds (x : Landing) (dst n : Nat) (mask : Mask) (uniform : Bool) (val : Nat → Nat → Word) : Prop :=
  x.locks = 0 ∧ x.flags = 0 ∧ x.tile = none ∧ x.parts.length = n ∧
  ∀ k p, x.parts[k]? = some p → p.reg = dst + k ∧ p.mask = mask ∧ p.uniform = uniform ∧
    ∀ l < 32, laneIn mask l = true → vget p.vals l 0 = val l k

/-- The address of a global access in lane l, and the scratchpad offset (R35, R164). -/
def Seat.address (w : Seat) (v : WMem) (l : Nat) : DWord :=
  w.src 64 v.a l + v.off.signExtend 64 * BitVec.ofNat 64 (2 ^ v.sz.toNat)
def Seat.offset (w : Seat) (v : WMem) (l : Nat) : Nat :=
  ((w.src 32 v.a l + v.off.signExtend 64 * BitVec.ofNat 64 (2 ^ v.sz.toNat)).toNat) % 2 ^ 32

/-- The parts of a global access: one for each active lane, or for a G-set word the lowest active lane's. -/
def Seat.parts (w : Seat) (g : Bool) (v : WMem) (data cmp : Nat → List Byte) : List LaneReq :=
  (if g then (lanesOf w.fr.active).take 1 else lanesOf w.fr.active).map fun l =>
    laneReq l (w.address v l) (2 ^ v.sz.toNat) (data l) (cmp l)

/-- The lane whose part gives a lane its value. -/
def Seat.partLane (w : Seat) (g : Bool) (l : Nat) : Nat := if g then ((lanesOf w.fr.active).head?).getD 0 else l

/-- The entry of a typed access: none for the code 63, else a plain entry whose width is the access size (R344, R365). -/
def Seat.typed (w : Seat) (v : WMem) (e : Option DWord) : Prop :=
  (fmtOf v.x = 63 ∧ e = none) ∨
  (fmtOf v.x ≠ 63 ∧ ∃ f, w.plainEntry (fmtOf v.x) = some f ∧ e = some f ∧ (Ent.of f).wid = 8 * 2 ^ v.sz.toNat)

/-- Register word k of a load: of raw bytes, or of one converted value with its flags (R343, R344). -/
def loadedWord (ftz : Bool) (e : Option DWord) (bs : List Byte) (k : Nat) : Word :=
  match e with
  | none => wordOf ((bs.drop (4 * k)).take 4)
  | some e =>
    let f := Ent.of e
    if f.kind = 2 ∨ f.kind = 3 then (if k = 0 then BitVec.ofNat 32 (extendCode f (ofBytes bs)) else 0)
    else BitVec.ofNat 32 ((convertCode ftz f (if f.wid = 64 then entFp64 else entFp32) 1 false 0 (ofBytes bs)).1 / 2 ^ (32 * k))
def loadedFlags (ftz : Bool) (e : Option DWord) (bs : List Byte) : Word :=
  match e with
  | none => 0
  | some e =>
    let f := Ent.of e
    if f.kind = 2 ∨ f.kind = 3 then 0
    else (convertCode ftz f (if f.wid = 64 then entFp64 else entFp32) 1 false 0 (ofBytes bs)).2

/-- The bytes of a register group in lane l: sz bytes from register r upwards, low word first (R42, R364). -/
def Seat.bytes (w : Seat) (r : BitVec 6) (sz l : Nat) : List Byte :=
  (List.range sz).map fun j => (w.fr.word (r.toNat + j / 4) l).extractLsb' (8 * (j % 4)) 8

/-- The rounding of a typed store's value in lane l: the code and its flags (R365). -/
def Seat.storedCode (w : Seat) (v : WMem) (e : DWord) (l : Nat) : Nat × Word :=
  (Ent.of e).round (w.mode v.x) (satOf v.x) (w.draw (w.mode v.x) l)
    (storeNum w.fr (Ent.of e) (w.src (if (Ent.of e).wid = 64 then 64 else 32) v.d l))

/-- A store's data in lane l. -/
def Seat.storeData (w : Seat) (v : WMem) (e : Option DWord) (l : Nat) : List Byte :=
  match e with
  | none => w.bytes v.d (2 ^ v.sz.toNat) l
  | some e => toBytes (w.storedCode v e l).1 (2 ^ v.sz.toNat)

/-- A strip after a store has read its sources: a typed one has set flags and used its generator. -/
def Seat.afterStore (w : Seat) (v : WMem) (e : Option DWord) (t : Strip) : Strip :=
  match e with
  | none => t
  | some e => { t with
      fpstat := w.t.fpstat ||| (lanesOf w.fr.active).foldl (fun fl l => fl ||| (w.storedCode v e l).2) 0
      gens := w.drawn (w.mode v.x) }

/-- Atomic steps at their homes, one part after the other (R166): what each part read, and the bytes afterwards. -/
def atomicFold (f : Plan → List Byte → Option (List Byte)) : List Plan → (Target → Byte) → List (List Byte) × (Target → Byte)
  | [], m => ([], m)
  | p :: r, m =>
    let old := p.targets.map m
    let (rest, m) := atomicFold f r (match f p old with
      | some new => setBytes m (p.targets.zip new)
      | none => m)
    (old :: rest, m)

/-- Atomic steps of ATOMS on scratchpad bytes, one lane after the other: what each lane read, and the bytes afterwards. An
offset counts modulo the next power of two, and what lies above the allocation reads 0 and stays (R164). -/
def Seat.scratchFold (w : Seat) (v : WMem) : List Nat → (Nat → Byte) → List (List Byte) × (Nat → Byte)
  | [], m => ([], m)
  | l :: r, m =>
    let n := 2 ^ v.sz.toNat
    let size := w.l.hdr.scratch
    let places := (List.range n).map fun j => (w.offset v l + j) % 2 ^ 32 % pow2From size
    let old := places.map fun a => if size ≤ a then 0 else m a
    let new := toBytes (atomicOp (rndOf v.x) n (ofBytes old) (ofBytes (w.bytes (vcOf v.x) n l))) n
    let (rest, m) := w.scratchFold v r fun a =>
      if size ≤ a then m a else (((places.zip new).reverse.find? (·.1 == a)).map (·.2)).getD (m a)
    (old :: rest, m)

/-- Byte c of row i of a block that has been loaded, and the code in slot k of w bits (R56, R107). -/
def Landing.blockByte (x : Landing) (i c : Nat) : Byte :=
  let n := 16 * i + c / 4
  (((x.parts[n / 32]?).map fun (p : RegPart) => vget p.vals (n % 32) 0).getD 0).extractLsb' (8 * (c % 4)) 8
def Landing.blockSlot (x : Landing) (w i k : Nat) : Nat :=
  bitsOf (ofBytes ((List.range 4).map fun j => x.blockByte i (w * k / 8 + j))) (w * k % 8) w

/-- A result for a block of eight registers. -/
def Landing.isBlock (x : Landing) (dst : Nat) : Prop :=
  x.parts.length = 8 ∧ ∀ k p, x.parts[k]? = some p → p.reg = dst + k ∧ p.mask = 0xFFFFFFFF ∧ p.uniform = false

/-- No byte of the checkpoint slot at an address lies in the twin window (R237). -/
def outsideTwins (a : DWord) : Prop := inTwinWindow a.toNat = false ∧ inTwinWindow (a.toNat + slotSize - 1) = false

/-! Words that do not issue normally. -/

/-- The engine words (R91). -/
def isEngineWord : Instr → Bool
  | .cpy _ _ _ _ _ | .rdst _ _ | .merge _ _ _ | .tmma _ _ | .smv _ _ | .coll _ _ _ _ _ | .ewait _ _ _ | .eloop _ _ | .eend
  | .esig _ _ => true
  | _ => false

/-- Whether a list of accesses holds no part that has not faulted. -/
def allFaulted (q : List Access) : Prop := ∀ a ∈ q, a.lanes ≠ [] ∧ ∀ r ∈ a.lanes, r.cause ≠ 0

/-! Engine programs. -/

/-- The engine program with the turn, where nothing holds it back (R197, R200), as it performs its word: a command that starts
takes the format table (R109). -/
def State.running (s : State) (i : Instr) : Option Prog :=
  match s.cur with
  | .prog n => (s.prog? n).bind fun p =>
    if progReady s p i then some (if p.status = .running then { p with table := tableOf s p.ctx } else p) else none
  | _ => none

/-- The state in which the program p has performed its word and is what f makes of it: it waits for nothing any more, and where
its gang has been pre-empted it is saved at this command boundary (R200, R274). -/
def State.performed (u : State) (p : Prog) (f : Prog → Prog) : State :=
  u.mapProg p.id fun q => (f { q with table := p.table, held := [], asked := [] }).rests u

/-- The same, where the program has gone on behind its word, changed by f. -/
def State.onward (u : State) (p : Prog) (f : Prog → Prog) : State :=
  u.performed p fun q => { f q with pc := q.pc + 4, status := .running }

/-- The state in which an engine program has stopped at its word with a sub-cause and an address (R200). -/
def Prog.stops (p : Prog) (s : State) (sub : Nat) (addr : DWord) : State :=
  retireGang (s.mapProg p.id fun q => { q with status := .stopped sub addr q.pc }) p.gang

/-- The state in which an engine program waits to perform its word; it waits since the word was first tried, with the format
table of that time. -/
def Prog.holds (p : Prog) (s : State) (i : Instr) : State :=
  s.mapProg p.id fun q => { q with
    status := .waiting i
    table := p.table
    held := []
    asked := []
    since := if p.status = .running then s.clock else q.since }

/-- The account of a program's launch. -/
def Prog.acct (p : Prog) (s : State) : Nat := acctOf s p.launch

/-- The state in which segments have been read for an account: their traffic is charged to it (R301), and an L1 that owned
their lines, but for that of the named bench, does no longer (R168, log 16). -/
def State.readSegs (s : State) (acct : Nat) (bench : Option Nat) (gs : List Seg) : State :=
  recallSegs bench gs (chargeDram acct false gs s)

/-- The state in which a strip's load has read segments (R168, R301). -/
def State.loadSegs (s : State) (acct : Nat) (bench : Option Nat) (gs : List Seg) : State :=
  chargeDram acct false gs (recallSegs bench gs s)

/-- The reads and writes of a command, each an address and a length, go through plainly with parts rs and ws; u is the
state after their walks and the reads, rmw whether the writes first read what they change, and a stack mill reads no byte of
the second tier (R174). -/
structure Prog.passes (p : Prog) (s : State) (rmw : Bool) (reads writes : List (DWord × Nat)) (rs ws : List Plan)
    (u : State) : Prop where
  reads : ∃ v v', planAll s p.ctx .read p.priv false ((engReqs reads).map (keptReq p.held)) = (rs, v) ∧
    planAll v p.ctx .write p.priv true (engReqs writes) = (ws, v') ∧
    u = v'.readSegs (p.acct v') none (rs.flatMap (·.segs))
  read : ∀ q ∈ rs, q.plain u p.ctx true
  written : ∀ q ∈ ws, q.plain u p.ctx rmw
  near : onStack p.cls = true → ∀ q ∈ rs, q.onTier = false
def Prog.goes (p : Prog) (s : State) := p.passes s false
def Prog.changes (p : Prog) (s : State) := p.passes s true

/-- The bytes of parts. -/
def bytesOf (s : State) (ps : List Plan) : List (List Byte) := ps.map fun q => q.targets.map s.byteAt

/-- Memory has got the data of parts in their order, and nothing else has changed but what follows an access. -/
structure Stored (s u : State) (acct : Nat) (ws : List Plan) (data : List (List Byte)) : Prop where
  only : OnlyMemory s u acct
  bytes : ∀ x, u.byteAt x = setBytes s.byteAt ((ws.zip data).flatMap fun (q, d) => q.targets.zip d) x

/-- No two rows share an address. -/
def rowsApart (l : List (DWord × Nat)) : Prop :=
  l.Pairwise fun a b => a.1.toNat + a.2 ≤ b.1.toNat ∨ b.1.toNat + b.2 ≤ a.1.toNat

/-- No two parts share a place, and no part of one list shares one with a part of another. -/
def placesApart (ps : List Plan) : Prop := (ps.flatMap (·.targets)).Nodup
def placesMeet (ps qs : List Plan) : Prop := ∃ x, x ∈ ps.flatMap (·.targets) ∧ x ∈ qs.flatMap (·.targets)

/-! Events. -/

/-- A gang that runs with a strip of it and its launch. -/
def State.resident (s : State) (id k : Nat) : Option (Gang × Strip × Launch) :=
  (s.gang? id).bind fun g => (g.strip? k).bind fun t => (runningLaunch s g).map fun l => (g, t, l)

/-- What a strip becomes that a phase of barrier n releases: it goes on behind its barrier word, which single-step has seen, or
may issue it (R189, R269). -/
def Strip.woken (t : Strip) (sstep : Bool) (n : Nat) : Option Strip :=
  match t.wait with
  | .phase m _ size =>
    if m = n then some { t with
      wait := .none
      withdrawn := none
      pc := t.pc + BitVec.ofNat 64 size
      stepped := if t.priv then t.stepped else sstep
      asked := []
      parked := !t.outstanding.isEmpty }
    else none
  | .again (.barrier m) _ => if m = n then some { t with wait := .none } else none
  | _ => none

/-- The strips of a gang that a phase of barrier n releases have their new states. -/
def Gang.release (g : Gang) (sstep : Bool) (n : Nat) (s : State) : State :=
  g.strips.foldl (fun s t => match t.woken sstep n with
    | some u => s.setStrip g.id u
    | none => s) s

/-- What a gang takes of a bench together with the gangs that are there, one counted out (R17, R65). -/
def benchSum (s : State) (g : Gang) (bench except : Nat) (f : Load → Nat) : Nat :=
  ((s.gangs.filter fun o => o.benchNow == some bench && o.id != except).map fun o => f (gangLoad s o)).sum + f (gangLoad s g)

/-- R17: a bench that has started has room for a gang beside those there. -/
def benchRoom (s : State) (g : Gang) (bench except : Nat) : Prop :=
  bench < 8 * s.dev.groups ∧ benchSum s g bench except Load.strips ≤ 64 ∧
  benchSum s g bench except Load.scratch ≤ 458752 ∧ benchSum s g bench except Load.tiles ≤ 64 ∧
  benchSum s g bench except Load.lines ≤ 8192

/-- Whether n residency slots from k are free on a bench. -/
def slotsFree (s : State) (bench k n : Nat) : Prop :=
  ∀ o ∈ s.gangs, ∀ p, o.place = some p → p.bench = bench → k + n ≤ p.slot ∨ p.slot + o.strips.length ≤ k

/-- Whether a bench changes context with a gang that is placed on it. -/
def State.changesWith (s : State) (g : Gang) (bench : Nat) : Bool := s.benchCtx.any fun b => b.1 == bench && b.2 != g.ctx

/-- Whether gangs fit on the benches that are given by their numbers, beside what is there (R17, R65, R140). -/
def fitTogether (s : State) (gs : List Gang) (at_ : Nat → Nat) : Prop :=
  ∀ g ∈ gs, at_ g.id < 8 * s.dev.groups ∧
    let sum (f : Load → Nat) : Nat :=
      ((s.gangs.filter fun o => o.benchNow == some (at_ g.id)).map fun o => f (gangLoad s o)).sum +
      ((gs.filter fun o => at_ o.id == at_ g.id).map fun o => f (gangLoad s o)).sum
    sum Load.strips ≤ 64 ∧ sum Load.scratch ≤ 458752 ∧ sum Load.tiles ≤ 64 ∧ sum Load.lines ≤ 8192

/-- The lines that a bench's L1 owns. -/
def State.ownedBy (s : State) (bench : Nat) : Nat :=
  (s.device.owned.filter (·.1 == bench)).length + (s.tier.owned.filter (·.1 == bench)).length

/-- A gang has a bench from a residency slot on, and each of its strips an image. A bench that changes context loses its fetch
lines and decoded operations, and from then on a gang that starts there finds its scratchpad zero; before that a byte of it
may hold what its context has written (R96, R165, R277). The L1 of the bench owns no more lines than there is room for beside
the scratchpads, and it writes back what it gives up (R16, R168). -/
structure Seats (s u : State) (g : Gang) (bench slot : Nat) : Prop where
  rest : u = { s.mapGang g.id (fun o => o.placed (Place.mk bench slot s.clock) (freeImages s g.ctx g.bare)
        (if s.changesWith g bench || s.benchChanged.contains bench then 0 else s.wroteBy g.ctx)) with
      benchCtx := (bench, g.ctx) :: s.benchCtx.filter (·.1 != bench)
      benchChanged := if s.changesWith g bench then addNew [bench] s.benchChanged else s.benchChanged
      fetched := if s.changesWith g bench then s.fetched.filter (·.bench != bench) else s.fetched
      decoded := if s.changesWith g bench then s.decoded.filter (·.bench != bench) else s.decoded
      device := u.device, tier := u.tier, tick := u.tick }
  memory : OnlyRead s { s with device := u.device, tier := u.tier, tick := u.tick } 64
  keeps : ∀ o ∈ s.device.owned, o ∈ u.device.owned ∨ (o.1 = bench ∧ frameOfLine o.2 ∈ u.device.marks)
  far : ∀ o ∈ s.tier.owned, o ∈ u.tier.owned ∨ (o.1 = bench ∧ frameOfLine o.2 ∈ u.tier.marks)
  room : l1Lines u bench < l1Lines s bench → u.ownedBy bench ≤ l1Lines u bench

/-- A strip that has been pre-empted: its results have returned, what it waited to issue is withdrawn, and an arrival at a
barrier stands (R274). -/
def Strip.stopped (t : Strip) (coord : Nat → Nat × Nat × Nat) : Strip :=
  let u := { landAll coord t with asked := [] }
  match t.wait with
  | .again _ _ => { u with wait := .none }
  | .phase n _ _ => { u with wait := .none, withdrawn := some n }
  | _ => u

/-- The state in which a gang has left its bench with its programs, but for one that is in the middle of a command, which it
finishes first (R200, R274). -/
def State.lifted (s : State) (g : Gang) (h : Header) : State :=
  { (s.mapGang g.id fun x => { x with
      strips := x.strips.map fun t => t.stopped (x.coord h t.idx)
      place := none
      saved := true
      die := x.onDie }) with
    progs := mapWhere (·.gang == g.id) (fun p => { p with
      saved := p.saved || !p.inCommand }) s.progs }

/-- The die and the unit on which a program of a class runs for a gang on a bench (R13, R197). -/
def dieFor (bench : Nat) : EngClass → Nat
  | .stack n => n / 4
  | _ => bench / 48
def unitFor (bench : Nat) : EngClass → Nat
  | .mill => bench
  | .stack n => n
  | _ => 0

/-- The state in which the programs of a gang run where the gang now is (R276). -/
def State.rehomed (s : State) (g : Gang) (die unit_ : EngClass → Nat) : State :=
  { s with progs := mapWhere (fun p => p.gang == g.id && p.saved) (fun p => { p with
      saved := false
      die := die p.cls
      unit_ := unit_ p.cls }) s.progs }

/-- The entry at the head of a command queue, where its processor takes it and it is command op (R287, R304). -/
def State.command (s : State) (q : Bool) (op : Nat) : Option (List Byte) :=
  if takes s q && opOf (headEntry s q) == op then some (headEntry s q) else none

/-- The state in which a node of a context's slot has a state and a code: in the slot, which is free where nothing keeps
it, and in its record (R144, R146). -/
def State.marked (s : State) (c slot : Nat) (v : Slot) (n : Node) (st : NodeState) (code : Nat) : State :=
  let n := { n with state := st }
  let ended : Bool := st == NodeState.done || st == NodeState.cancelled || st == NodeState.failed
  let v := { v with node := if ended && decide (v.counter.toInt ≤ 0) then none else some n }
  writeState (s.mapCtx c (·.setSlot v)) c n.addr st code (some slot) n.rcd.acct

/-! Spans. -/

/-- The words that a span never executes: they touch memory or the scratchpad, use a barrier, an engine, the mill or a tile,
or need a strip (R126). -/
def stripWord : Instr → Bool
  | .ld _ | .ldG _ | .st _ | .stG _ | .atom _ | .cas _ | .lds _ | .sts _ | .atoms _ | .pref _ | .ldt _ | .stt _ | .stash _
  | .barSync _ _ _ | .barArrive _ _ _ | .barWait _ _ _ | .ckpt _ | .replay _ | .replend _ | .wait _ _ | .fence _
  | .fork _ | .rdv _ | .qput _ _ _ _ | .qget _ _ _ | .launch _ | .mma _ | .smma _ | .accrd _ | .accrdZero _ | .accwr _
  | .accwrZero _ _ _ | .elect _ | .elend _ | .call _ _ _ | .ret _ | .jmpi _ | .rngseed _ _ | .rng _ _ | .fmtset _
  | .shfl _ _ | .reap _ _ | .voteAll _ | .voteAny _ | .voteSame _ | .voteMask _ | .cflush _ | .cflushInv _
  | .icinv _ | .bwsetMem _ | .bwsetLink _ | .tfence _ | .trap _ _ _ | .tret _ | .rqrel _ | .setsr _ | .tlbinv _
  | .tlbinvCtx _ _ | .tlbinvAll _ _ | .pgmapL0 _ | .pgmapL1 _ | .harvest _ => true
  | i => isEngineWord i

/-- A span with the turn that may go on, its launch and its context. -/
structure State.spanTurn (s : State) (p : Span) (l : Launch) (x : Ctx) : Prop where
  turn : s.cur = .span p.id
  span : s.span? p.id = some p
  launch : s.launch? p.launch = some l
  ctx : s.ctx? p.ctx = some x
  runs : p.waiting = false ∧ x.fatal = none ∧ s.dev.fatal = false ∧ s.dev.stopped = false

/-- A step begins: the schedule names the next turn, or the model picks one, and clocks pass. -/
def State.begun (s : State) : Turn × State :=
  match s.schedule with
  | (n, t) :: rest => (t, passClocks n { s with schedule := rest })
  | [] => (autoTurn s, passClocks 1 s)

end Sys2Proof.Machine
end

