-- ==== Sys2Proof/Certificates/Slice0/Obligations.lean ====
section
/-! DEFINITION. The statements for the provers. Each says which rules it states. -/

open Sys2Proof Sys2Proof.Machine

/-! Words of registers in a strip. -/

/-- R310: ADD, SUB, MUL, MULH, MIN, MAX, ADDC and MAD complete and write, in every active lane, the exact result of
their operands read as the type says, saturated where sat is set; whatever forms the operands have (R45). R313, R316,
R318, R330, R346, R352, R354: the logic words, shifts, bit words and FCLASS complete with their result in every active
lane. R312: the immediate words complete with their result in every active lane. R45: where every source is U and the
word acts on the whole strip, the result of these words is U, and needs no register-cache line. -/
def Obligations.IntegerWords : Prop :=
  (∀ (s : State) (i : Instr) (w : Seat) (r : Result),
    s.issuing i = some w → w.arithmetic i = some r → w.l.hdr.regs ≠ 0 → w.gives i (exec i s) r) ∧
  (∀ (s : State) (i : Instr) (w : Seat) (r : Result),
    s.issuing i = some w → w.logic i = some r → w.l.hdr.regs ≠ 0 → w.gives i (exec i s) r) ∧
  (∀ (s : State) (i : Instr) (w : Seat) (r : Result),
    s.issuing i = some w → w.immediate i = some r → w.l.hdr.regs ≠ 0 → w.gives i (exec i s) r) ∧
  (∀ (s : State) (i : Instr) (w : Seat) (r : Result),
    s.issuing i = some w → (w.arithmetic i = some r ∨ w.logic i = some r ∨ w.immediate i = some r) →
    w.t.priv = false → w.fr.whole = true →
    (∀ ρ ∈ (w.form i).srcs, (w.fr.src (if ρ.n = 2 then 64 else 32) ρ.reg.toNat).isU = true) →
    w.gives i (exec i s) r ∧ w.givesUniform i (exec i s) r.regs)

/-- R86, R310, R312, R313: the G-set words of one result complete where their sources are U. R347, R86: MOV.G completes
with the value of its U source. R86: a G-set word with a source that is not U traps with NOT_UNIFORM. -/
def Obligations.GSetWords : Prop :=
  (∀ (s : State) (i : Instr) (w : Seat) (r : Result) (us : List (BitVec 6)),
    s.issuing i = some w → w.gset i = some (r, us) → (∀ f ∈ us, (w.fr.reg f.toNat).isU = true) → w.l.hdr.regs ≠ 0 →
    w.gives i (exec i s) r) ∧
  (∀ (s : State) (w : Seat) (v : W2),
    s.issuing (.movG v) = some w → (movSource v w.fr).isU = true → w.l.hdr.regs ≠ 0 →
    w.gives (.movG v) (exec (.movG v) s) (w.movResult v)) ∧
  (∀ (s : State) (i : Instr) (w : Seat) (r : Result) (us : List (BitVec 6)),
    s.issuing i = some w → w.gset i = some (r, us) → (∃ f ∈ us, (w.fr.reg f.toNat).isU = false) → w.t.priv = false →
    handlerOf w.s w.g.ctx ≠ 0 → exec i s = .next (w.trapped w.s w.t (plainTrap w.t 0x0B)))

/-- R65: in a launch whose header gives no registers, a word whose result would be L traps with ILLEGAL_OP; a word that
acts on a part of the strip is one. R83, R321: CVT traps with ILLEGAL_OP where its element lies beyond its source, or a
fixed or free entry of width 64 has an odd register. R78, R107, R321, R368: a format code that selects no entry, or a
block-scaled one, traps with ILLEGAL_FORMAT in CVT and VDOT, and so does a storage width that VDOT does not have. -/
def Obligations.RegisterWordTraps : Prop :=
  (∀ (s : State) (i : Instr) (w : Seat),
    s.issuing i = some w → w.hasResult i = true → w.l.hdr.regs = 0 → w.t.priv = false → w.fr.whole = false →
    handlerOf w.s w.g.ctx ≠ 0 → exec i s = .next (w.trapped w.s w.t (plainTrap w.t 0x08))) ∧
  (∀ (s : State) (w : Seat) (fn : BitVec 3) (v : W3),
    s.issuing (.cvt fn v) = some w → w.t.priv = false → handlerOf w.s w.g.ctx ≠ 0 →
    cvtFits (w.fr.width v.b.toNat) (w.fr.width (fmtOf v.x)) fn v = false →
    exec (.cvt fn v) s = .next (w.trapped w.s w.t (plainTrap w.t 0x08))) ∧
  (∀ (s : State) (i : Instr) (w : Seat),
    s.issuing i = some w → w.l.hdr.regs ≠ 0 → w.t.priv = false → handlerOf w.s w.g.ctx ≠ 0 →
    ((∃ fn v, i = .cvt fn v ∧ cvtFits (w.fr.width v.b.toNat) (w.fr.width (fmtOf v.x)) fn v = true ∧
        (w.plainEntry v.b.toNat = none ∨ w.plainEntry (fmtOf v.x) = none)) ∨
      (∃ v, i = .vdot v ∧ (w.plainEntry (fmtOf v.x) = none ∨ ∃ e, w.plainEntry (fmtOf v.x) = some e ∧
        (Ent.of e).wid ≠ 4 ∧ (Ent.of e).wid ≠ 8 ∧ (Ent.of e).wid ≠ 16))) →
    exec i s = .next (w.trapped w.s w.t (plainTrap w.t 0x0A)))

/-- R347, R360: MOV, MKU, PMOV and SEL complete with their value in every active lane; MKU's result is U where it acts
on the whole strip. R54, R55: MOVS and MOVS.G complete with the special register's value in every active lane; for SR_ITEM
the active lanes hold items of the launch. -/
def Obligations.MoveWords : Prop :=
  (∀ (s : State) (i : Instr) (w : Seat) (r : Result),
    s.issuing i = some w → w.moves i = some r → w.l.hdr.regs ≠ 0 → w.gives i (exec i s) r) ∧
  (∀ (s : State) (i : Instr) (w : Seat) (v : WNoLa),
    s.issuing i = some w → (i = .movs v ∨ i = .movsG v) → w.l.hdr.regs ≠ 0 →
    (v.a = 0 → ∀ l < 32, laneIn w.fr.active l = true → w.l.rcd.box.holds (w.coord l) = true) →
    w.gives i (exec i s) (w.movsResult v)) ∧
  (∀ (s : State) (w : Seat) (v : W2) (r : Result),
    s.issuing (.mku v) = some w → w.moves (.mku v) = some r → w.l.hdr.regs ≠ 0 → w.t.priv = false → w.fr.whole = true →
    w.givesUniform (.mku v) (exec (.mku v) s) r.regs)

/-- R137, R138, R362, R369: SHFL and VOTE.MASK complete with a value taken across the active lanes of a lane's group.
R347, R351, R369: PLOP, PMOV to a predicate and the VOTEs complete with their predicate in every active lane. R356,
R138: REAP completes with the fold over the active lanes of a lane's group in each of them. -/
def Obligations.CrossLaneWords : Prop :=
  (∀ (s : State) (i : Instr) (w : Seat) (r : Result),
    s.issuing i = some w → w.crossed i = some r → w.l.hdr.regs ≠ 0 → w.gives i (exec i s) r) ∧
  (∀ (s : State) (i : Instr) (w : Seat) (p : BitVec 5) (val : Nat → Bool) (freed : List Nat),
    s.issuing i = some w → w.predicate i = some (p, val, freed) → w.givesPred i (exec i s) p val freed) ∧
  (∀ (s : State) (w : Seat) (op : ReapOp) (v : W2),
    s.issuing (.reap op v) = some w → w.l.hdr.regs ≠ 0 → w.givesFloat (.reap op v) (exec (.reap op v) s) (w.reap op v))

/-- R339, R48: ICMP completes with a predicate that holds in an active lane exactly where the comparison of the lane's
values does, in a range predicate too. The items of the strip lie in the gang's box, whose extents a node record bounds.
R339, R86: ICMP.G completes where its sources are U, with the uniform truth of the comparison. R332: FCMP completes with
the comparison of the operands as numbers, false for an unordered pair but for NE and UN, and raises IV where an active
lane has a signalling NaN. -/
def Obligations.Comparisons : Prop :=
  (∀ (s : State) (w : Seat) (c : ICond) (v : WCmp),
    s.issuing (.icmp c v) = some w →
    (∀ l < 32, laneIn w.fr.active l = true → w.g.box.holds (w.coord l) = true) →
    w.g.box.ex ≤ 2 ^ 32 → w.g.box.ey ≤ 2 ^ 32 → w.g.box.ez ≤ 2 ^ 32 →
    w.givesPred (.icmp c v) (exec (.icmp c v) s) v.p
      (fun l => compares c (cmpWidth v.x) (w.src (cmpWidth v.x) v.a l) (w.src (cmpWidth v.x) v.b l))
      (w.lastRead v.la v.a (regsOf (cmpWidth v.x)) ++ w.lastRead v.lb v.b (regsOf (cmpWidth v.x)))) ∧
  (∀ (s : State) (w : Seat) (c : ICond) (v : WCmp),
    s.issuing (.icmpG c v) = some w →
    (w.fr.src (cmpWidth v.x) v.a.toNat).isU = true → (w.fr.src (cmpWidth v.x) v.b.toNat).isU = true →
    w.givesPred (.icmpG c v) (exec (.icmpG c v) s) v.p
      (fun l => compares c (cmpWidth v.x) (w.src (cmpWidth v.x) v.a l) (w.src (cmpWidth v.x) v.b l))
      (w.lastRead v.la v.a (regsOf (cmpWidth v.x)) ++ w.lastRead v.lb v.b (regsOf (cmpWidth v.x)))) ∧
  (∀ (s : State) (w : Seat) (f : Bool) (c : FCond) (v : WCmp),
    s.issuing (.fcmp f c v) = some w →
    ∃ t, exec (.fcmp f c v) s = .next (w.passed (.fcmp f c v) w.s t) ∧
      t = { w.onlyRegs t with
        fpstat := w.t.fpstat ||| (lanesOf w.fr.active).foldl
          (fun fl l => fl ||| flagIf ((w.num f v.a l).isSig || (w.num f v.b l).isSig) flagIV) 0 } ∧
      WritesPred w v.p
        (fun l =>
          let (a, b) := (w.num f v.a l, w.num f v.b l)
          let un := a.isNan || b.isNan
          match c with
          | .eq => !un && a.cmp b == .eq
          | .ne => un || a.cmp b != .eq
          | .lt => !un && a.cmp b == .lt
          | .le => !un && a.cmp b != .gt
          | .gt => !un && a.cmp b == .gt
          | .ge => !un && a.cmp b != .lt
          | .un => un
          | .od => !un)
        (w.lastRead v.la v.a (regsOf (floatWidth f)) ++ w.lastRead v.lb v.b (regsOf (floatWidth f))) t)

/-- R327, R328, R329, R331, R333, R115: the float words complete with the exact result rounded once in every active
lane, and SR_FPSTAT gets the flags that the active lanes raise. R321, R83: CVT completes where both format codes select
an entry that is not block-scaled, its registers can hold them and its element lies in its source.
R368: VDOT completes where its format has a storage width of 4, 8 or 16 and no block scale; the sign of an exact sum of 0 in
which terms cancel is the model's choice (log 25). R334: a function word whose operand is a NaN, an infinity, a zero or below the
function's domain gives the result and the flags of the table. R112, R333: FRCP, FRSQ and FSQRT of another operand, without
FTZ, are bracketed by exact arithmetic: rounded toward zero, the code's magnitude is at most the exact result and the next
one above it; rounded to the nearest, the result lies between the middles below and above the code. -/
def Obligations.FloatWords : Prop :=
  (∀ (s : State) (i : Instr) (w : Seat) (f : FloatOp),
    s.issuing i = some w → w.float i = some f → w.l.hdr.regs ≠ 0 → w.givesFloat i (exec i s) f) ∧
  (∀ (s : State) (w : Seat) (fn : BitVec 3) (v : W3) (e f : DWord),
    s.issuing (.cvt fn v) = some w → w.plainEntry v.b.toNat = some e → w.plainEntry (fmtOf v.x) = some f →
    cvtFits (Ent.of e).wid (Ent.of f).wid fn v = true → fitsSlot (Ent.of e) v.a = true → fitsSlot (Ent.of f) v.d = true →
    w.l.hdr.regs ≠ 0 →
    w.givesFloat (.cvt fn v) (exec (.cvt fn v) s) (w.cvt fn v e f)) ∧
  (∀ (s : State) (w : Seat) (v : W3) (e : DWord),
    s.issuing (.vdot v) = some w → w.plainEntry (fmtOf v.x) = some e →
    ((Ent.of e).wid = 4 ∨ (Ent.of e).wid = 8 ∨ (Ent.of e).wid = 16) → w.l.hdr.regs ≠ 0 →
    w.givesFloat (.vdot v) (exec (.vdot v) s) (w.vdot v e)) ∧
  ∀ (s : State) (i : Instr) (w : Seat) (fn : Nat) (v : W2),
    s.issuing i = some w → functionWord i = some (fn, v) → w.l.hdr.regs ≠ 0 →
    ∃ val : Nat → Word → Nat × Word,
      w.givesFloat i (exec i s) (FloatOp.mk 32 v.d (w.mode v.x) val (w.lastRead v.la v.a 1)) ∧
      (∀ l < 32, laneIn w.fr.active l = true → ∀ dw r, specialInput fn w.fr.ftz (loOf (w.src 32 v.a l)) = some r →
        val l dw = (r.1.toNat, r.2)) ∧
      (fn < 3 → w.fr.ftz = false → ∀ l < 32, laneIn w.fr.active l = true → ∀ dw,
        specialInput fn false (loOf (w.src 32 v.a l)) = none →
        Brackets fn (w.mode v.x) (loOf (w.src 32 v.a l)) (val l dw).1)

/-- R59, R358, R359: RNG completes with each active lane's word of the generator that it names, as a word, as a number
in (0, 1] or as a normal deviate, and advances that generator and no other; RNGSEED sets the key and the counter of one. -/
def Obligations.RandomNumbers : Prop :=
  (∀ (s : State) (w : Seat) (n : BitVec 2) (v : W3) (key ctr : DWord), s.issuing (.rngseed n v) = some w →
    w.fr.pair v.a.toNat = .u key → w.fr.pair v.b.toNat = .u ctr →
    w.sets (.rngseed n v) (exec (.rngseed n v) s) w.s (w.lastRead v.la v.a 2 ++ w.lastRead v.lb v.b 2)
      fun t => { t with gens := vset t.gens n.toNat (Gen.mk key (ctr.setWidth 128)) }) ∧
  ∀ (s : State) (w : Seat) (fn : BitVec 3) (v : WNoLa),
    s.issuing (.rng fn v) = some w → w.l.hdr.regs ≠ 0 →
    let g := vget w.t.gens v.a.toNat (Gen.mk 0 0)
    ∃ t, exec (.rng fn v) s = .next (w.passed (.rng fn v) w.s t) ∧
      t = { w.onlyRegs t with gens := vset w.t.gens v.a.toNat (g.advance (if fn = 2 then 64 else 32)) } ∧
      Writes w (Result.mk 32 (w.slot v.d) (fun l =>
        if fn = 0 then (drawWord g l).setWidth 64
        else if fn = 1 then BitVec.ofNat 64 (unifCode (drawWord g l))
        else BitVec.ofNat 64 (normDeviate (drawWord g (2 * l)) (drawWord g (2 * l + 1)))) []) t

/-! Control words of a strip. -/

/-- R87, R131, R317: BRA moves the strip to the target where every active lane takes it, past itself where none does,
and divides the strip where some do and the X word names the join J: the lanes that do not take it go on, the path entry
of the others lies on the reconvergence entry of J, or is left out where the target is J. R87, R131, R317: a BRA whose
lanes divide traps with NOT_UNIFORM without an X word, and with ILLEGAL_CONVERGENCE where the stack would hold more than
32 entries; nothing is pushed. -/
def Obligations.Branches : Prop :=
  (∀ (s : State) (w : Seat) (st : Bool) (p : BitVec 5) (neg : Bool) (off : BitVec 16) (lit : Option Word),
    s.issuing (.bra st p neg off lit) = some w →
    let i := Instr.bra st p neg off lit
    let yes := w.taken p neg
    let target := w.toward (off.signExtend 64)
    (yes = w.t.active → exec i s = .next (w.moved i w.s { w.t with pc := target })) ∧
    (yes = 0 → exec i s = .next (w.passed i w.s w.t)) ∧
    (yes ≠ 0 → yes ≠ w.t.active →
      (∀ x, lit = some x → target = w.toward (x.signExtend 64) → w.t.stack.length < 32 →
        exec i s = .next (w.passed i w.s { w.t with
          stack := w.entry target w.t.active :: w.t.stack
          active := w.t.active &&& ~~~yes })) ∧
      (∀ x, lit = some x → target ≠ w.toward (x.signExtend 64) → w.t.stack.length < 31 →
        exec i s = .next (w.passed i w.s { w.t with
          stack := w.entry (target + 1) yes :: w.entry (w.toward (x.signExtend 64)) w.t.active :: w.t.stack
          active := w.t.active &&& ~~~yes })))) ∧
  (∀ (s : State) (w : Seat) (st : Bool) (p : BitVec 5) (neg : Bool) (off : BitVec 16) (lit : Option Word),
    s.issuing (.bra st p neg off lit) = some w → w.vectors → w.taken p neg ≠ 0 → w.taken p neg ≠ w.t.active →
    (lit = none → exec (.bra st p neg off lit) s = .next (w.trapped w.s w.t (plainTrap w.t 0x0B))) ∧
    (∀ x, lit = some x →
      32 < w.t.stack.length + (if w.toward (off.signExtend 64) = w.toward (x.signExtend 64) then 1 else 2) →
      exec (.bra st p neg off lit) s = .next (w.trapped w.s w.t (plainTrap w.t 0x0C))))

/-- R132, R319, R324, R342: JOIN switches to the path of a path entry on top of the stack, reconverges where the top
entry names it, and else only advances; below an ELECT region's own entries it only advances. -/
def Obligations.Joins : Prop :=
  ∀ (s : State) (w : Seat) (st : Bool), s.issuing (.join st) = some w →
    (w.t.stack = [] → exec (.join st) s = .next (w.passed (.join st) w.s w.t)) ∧
    (∀ e rest, w.t.stack = e :: rest →
      (w.t.ownTop = true → e.isPath = true →
        exec (.join st) s = .next (w.moved (.join st) w.s (w.t.resumed e rest (e.pc - 1)))) ∧
      (w.t.ownTop = true → e.isPath = false → e.pc = w.t.pc →
        exec (.join st) s = .next (w.moved (.join st) w.s (w.t.resumed e rest (w.t.pc + 4)))) ∧
      (w.t.ownTop = false ∨ (e.isPath = false ∧ e.pc ≠ w.t.pc) →
        exec (.join st) s = .next (w.passed (.join st) w.s w.t)))

/-- R319, R341, R357: CALL pushes the return address marked as a call entry and goes to its target; RET goes back to it
in the lanes that called, with FMT and MODE as they are; JMPI goes to the address in its pair. R319, R324, R341: what
CALL, RET and JMPI trap on. -/
def Obligations.CallsAndReturns : Prop :=
  ((∀ (s : State) (w : Seat) (st : Bool) (off : BitVec 16) (lit : Option Word),
    s.issuing (.call st off lit) = some w → w.t.stack.length < 32 →
    exec (.call st off lit) s = .next (w.moved (.call st off lit) w.s { w.t with
      stack := w.entry (w.pcNext + 2) w.t.active :: w.t.stack
      pc := match lit with
        | some x => w.toward (x.signExtend 64)
        | none => w.toward (off.signExtend 64) })) ∧
  (∀ (s : State) (w : Seat) (st : Bool) (e : StackEntry) (rest : List StackEntry),
    s.issuing (.ret st) = some w → w.t.stack = e :: rest → w.t.ownTop = true → e.isCall = true →
    exec (.ret st) s = .next (w.moved (.ret st) w.s
      { w.t with stack := rest, pc := e.pc - 2, active := e.mask &&& w.t.live })) ∧
  (∀ (s : State) (w : Seat) (v : WSrc) (a : DWord),
    s.issuing (.jmpi v) = some w → w.fr.pair v.a.toNat = .u a → a.toNat % 4 = 0 →
    ∃ t, exec (.jmpi v) s = .next (w.moved (.jmpi v) w.s { t with pc := a }) ∧ t = w.onlyRegs t ∧
      Keeps w t [] (w.lastRead v.la v.a 2))) ∧
  ((∀ (s : State) (w : Seat) (st : Bool) (off : BitVec 16) (lit : Option Word),
    s.issuing (.call st off lit) = some w → w.vectors → 32 ≤ w.t.stack.length →
    exec (.call st off lit) s = .next (w.trapped w.s w.t (plainTrap w.t 0x0C))) ∧
  (∀ (s : State) (w : Seat) (st : Bool), s.issuing (.ret st) = some w → w.vectors →
    (w.t.stack = [] ∨ w.t.ownTop = false ∨ ∃ e rest, w.t.stack = e :: rest ∧ e.isCall = false) →
    exec (.ret st) s = .next (w.trapped w.s w.t (plainTrap w.t 0x0C))) ∧
  (∀ (s : State) (w : Seat) (v : WSrc) (a : DWord),
    s.issuing (.jmpi v) = some w → w.vectors → w.fr.pair v.a.toNat = .u a → a.toNat % 4 ≠ 0 →
    exec (.jmpi v) s = .next (w.trapped w.s w.t
      (TrapInfo.mk 0x0D w.t.active ((lanesOf w.t.active).map fun l => (l, a)) [] [] w.t.pc))))

/-- R133, R325: EXIT in user mode and outside an ELECT region takes its lanes from the strip. Where lanes stay active
the strip goes on; else it resumes at the first stack entry that still has live lanes; and where there is none it
retires. R133, R134, R325: EXIT in an ELECT region traps with ILLEGAL_CONVERGENCE, and in supervisor mode with ILLEGAL_OP,
which halts the strip with DOUBLE_FAULT. R133, R198, R294: a gang retires with the last of its strips, once its engine
programs have ended; its launch notes the agents whose writes to peers are not acknowledged, and nothing else changes. R134,
R324: ELECT saves the mask and the stack depth and goes on with the lowest active lane; ELEND restores
the mask; each traps with ILLEGAL_CONVERGENCE where it does not belong. -/
def Obligations.ExitsAndElect : Prop :=
  (∀ (s : State) (w : Seat) (st : Bool) (x : Option XWord),
    s.issuing (.exit st x) = some w → w.t.priv = false → w.t.elect = none →
    let u := w.left
    (u.active ≠ 0 → exec (.exit st x) s = .next (w.moved (.exit st x) w.s u)) ∧
    (u.active = 0 → ∀ pre e rest, w.t.stack = pre ++ e :: rest → (∀ d ∈ pre, d.mask &&& u.live = 0) →
      e.mask &&& u.live ≠ 0 →
      exec (.exit st x) s = .next (w.moved (.exit st x) w.s
        (u.resumed e rest (if e.isPath then e.pc - 1 else if e.isCall then e.pc - 2 else e.pc + 4)))) ∧
    (u.active = 0 → (∀ d ∈ w.t.stack, d.mask &&& u.live = 0) →
      ∃ t, t.retired = true ∧ t.active = 0 ∧ t.stack = [] ∧ t.live = u.live ∧ t.idx = u.idx ∧
        exec (.exit st x) s = .next (retireGang (w.s.setStrip w.g.id t) w.g.id))) ∧
  (∀ (s : State) (w : Seat) (st : Bool) (x : Option XWord), s.issuing (.exit st x) = some w →
    (w.t.elect ≠ none → w.vectors → exec (.exit st x) s = .next (w.trapped w.s w.t (plainTrap w.t 0x0C))) ∧
    (w.t.priv = true → ∃ u r, exec (.exit st x) s = .next u ∧ (u.ctx? w.g.ctx).bind (·.fatal) = some r ∧
      r.cause = 1 ∧ r.inner = 8 ∧ r.epc = w.t.pc &&& 0x01FFFFFFFFFFFFFF ∧ r.fmask = w.t.active ∧
      (u.strip? w.g.id w.t.idx).any (·.halted) = true)) ∧
  (∀ (s : State) (g : Gang), s.gang? g.id = some g → (∀ t ∈ g.strips, t.retired = true) →
    (∀ p ∈ s.progs, p.gang = g.id → p.status = .ended) →
    ∃ late : List Agent,
      late.length = (g.strips.map (·.unacked)).sum + ((s.progs.filter fun p => p.gang == g.id).map (·.unacked)).sum ∧
      retireGang s g.id = { s.mapLaunch g.launch fun l => { l with unacked := l.unacked ++ late } with
        gangs := s.gangs.filter fun o => o.id != g.id
        progs := s.progs.filter fun p => p.gang != g.id }) ∧
  (∀ (s : State) (w : Seat) (st : Bool),
    (s.issuing (.elect st) = some w →
      (w.t.elect = none → ∃ l, l < 32 ∧ laneIn w.t.active l = true ∧ (∀ k < l, laneIn w.t.active k = false) ∧
        exec (.elect st) s = .next (w.passed (.elect st) w.s { w.t with
          elect := some (w.t.active, w.t.stack.length)
          active := BitVec.ofNat 32 (2 ^ l) })) ∧
      (w.t.elect ≠ none → w.vectors → exec (.elect st) s = .next (w.trapped w.s w.t (plainTrap w.t 0x0C)))) ∧
    (s.issuing (.elend st) = some w →
      (∀ m d, w.t.elect = some (m, d) → exec (.elend st) s = .next (w.passed (.elend st) w.s
        { w.t with elect := none, active := m &&& w.t.live })) ∧
      (w.t.elect = none → w.vectors → exec (.elend st) s = .next (w.trapped w.s w.t (plainTrap w.t 0x0C)))))

/-- R350, R187, R353: NOP, and FENCE where no program of the strip that it names still runs or has a write to a peer that is
not acknowledged, change nothing but the PC; PREF changes only what its last-read frees. R271: TFENCE first sets the flags of the
outstanding matrix operations; it then passes unless a flag is set that MODE enables, for which it traps with ARITH. -/
def Obligations.OnlyAdvance : Prop :=
  ((∀ (s : State) (w : Seat) (i : Instr), s.issuing i = some w →
    ((∃ st, i = .nop st) ∨
      (∃ v, i = .fence v ∧ ∀ p ∈ w.s.progs, fencesProg v w.g w.t p = false ∧ fencesAck v w.g w.t p = false)) →
    exec i s = .next (w.passed i w.s w.t)) ∧
  (∀ (s : State) (w : Seat) (v : WPref), s.issuing (.pref v) = some w →
    w.sets (.pref v) (exec (.pref v) s) w.s (w.lastRead v.la v.a 2) id)) ∧
  (∀ (s : State) (w : Seat) (st : Bool), s.issuing (.tfence st) = some w →
    let t := setMillFlags (fun x => x.tile.isSome) w.t
    (t.fpstat.extractLsb' 0 6 &&& w.t.mode.extractLsb' 4 6 = 0 →
      exec (.tfence st) s = .next (w.passed (.tfence st) w.s t)) ∧
    (t.fpstat.extractLsb' 0 6 &&& w.t.mode.extractLsb' 4 6 ≠ 0 → w.vectors →
      exec (.tfence st) s = .next (w.trapped w.s w.t (plainTrap w.t 0x20))))

/-! Words that do not issue normally, and traps. -/

/-- R39, R91, R92, R93, R261, R263: in user mode with an empty replay queue an illegal encoding traps with ILLEGAL_OP; so
does an engine word, and one that names a tile that its gang does not have; a privileged word traps with PRIVILEGE. A G-set
word whose guard is not U traps with NOT_UNIFORM, or with a lower code of its own, as FMTSEL does of a code that is reserved.
The trap is precise: the word has no effect. R39, R84, R113, R358: a word whose guard leaves no lane takes none of these traps
but for the form of its guard; it advances the PC, and the generator that it would use. R345, R366: of an LDT or STASH whose
operands are not U it is open whether they are looked at first (log 22). That a guard without a lane lets a privileged word and
one of an absent tile pass is the model's choice (log 22). R66, R159, R183: a word with a locked destination waits for the lock, and one that releases at FABRIC or
SYSTEM scope for the acknowledgement of the strip's writes to peers. -/
def Obligations.IssueFates : Prop :=
  (∀ (s : State) (i : Instr) (w : Seat),
    s.turned i = some w → isEvent i = false → w.vectors → w.t.replay = [] →
    let traps (c : Nat) : Prop := exec i s = .next (w.trapped s w.t (plainTrap w.t c))
    (w.encoded i = false ∨ isEngineWord i = true → traps 0x08) ∧
    (w.fr.active ≠ 0 →
      ((w.form i).legal = false → traps 0x08) ∧
      (w.encoded i = true → (w.form i).legal = true → privileged i = true → traps 0x09) ∧
      (w.allowed i = true → w.unevenG i = true →
        (∃ p, p.cause ≤ 0x0B ∧ exec i s = .next (w.trapped s w.t p)) ∧
        ((w.gset i).isSome = true → w.l.hdr.regs ≠ 0 → traps 0x0B) ∧
        (∀ st code n x, i = .fmtselSlot st code n x → 48 ≤ code.toNat → traps 0x0A))) ∧
    (w.fr.active = 0 → w.encoded i = true →
      (w.unevenG i = true → traps 0x0B) ∧
      (w.unevenG i = false → w.unevenTile i = true →
        traps 0x0B ∨ exec i s = .next (w.passed i s { w.t with gens := passedGens w.fr i })))) ∧
  (∀ (s : State) (i : Instr) (w : Seat), s.turned i = some w → isEvent i = false → w.encoded i = true →
    w.unevenG i = false → w.t.priv = true ∨ w.t.replay = [] → w.fr.active = 0 → w.unevenTile i = false →
    exec i s = .next (w.passed i s { w.t with gens := passedGens w.fr i })) ∧
  (∀ (s : State) (i : Instr) (w : Seat), s.turned i = some w → isEvent i = false → w.allowed i = true →
    w.unevenG i = false → w.t.priv = true ∨ w.t.replay = [] →
    (w.fr.active ≠ 0 → w.locked i = true → exec i s = .next (w.again i s .lock)) ∧
    (w.fr.active ≠ 0 → w.locked i = false → w.unreleased i = true → exec i s = .next (w.again i s .ack)))

/-- R262, R264, R265: what a strip in user mode with parked accesses does. It vectors at the end of a region, which the
S bit of NOP is, and before a word that names a register that a parked access has still to write; it reports the lowest
cause held, of the oldest access that holds it. -/
def Obligations.ParkedTraps : Prop :=
  (∀ (s : State) (i : Instr) (w : Seat), s.turned i = some w → w.allowed i = true → w.unevenG i = false → w.vectors →
    w.fr.active ≠ 0 → w.t.replay ≠ [] → w.t.replay.length ≤ 8 → allFaulted w.t.replay →
    (i = .nop true → ∃ p, parkedTrap w.t.live w.pcNext w.t.replay = some p ∧
      exec i s = .next (w.trapped w.s ({ w.t with pc := w.pcNext }.counted w.x.cfg.sstep) p)) ∧
    (((w.arithmetic i).isSome || (w.logic i).isSome || (w.immediate i).isSome) = true → w.l.hdr.regs ≠ 0 →
      (∃ a ∈ w.t.replay, ∃ k < a.regs, a.dst + k ∈ roleRegs false ((w.form i).srcs ++ (w.form i).dsts)) →
      ∃ p, parkedTrap w.t.live w.t.pc w.t.replay = some p ∧ exec i s = .next (w.trapped s w.t p))) ∧
  (∀ (live : Mask) (epc : DWord) (q : List Access), allFaulted q → q ≠ [] → ∃ p pre a post,
    parkedTrap live epc q = some p ∧ q = pre ++ a :: post ∧ p.epc = epc ∧ p.kset = [] ∧
    (∃ r ∈ a.lanes, r.cause = p.cause) ∧ (∀ b ∈ q, ∀ r ∈ b.lanes, p.cause ≤ r.cause) ∧
    (∀ b ∈ pre, ∀ r ∈ b.lanes, p.cause < r.cause) ∧
    (a.isTile = true → p.lanes = live) ∧
    (a.isTile = false → a.uniform = false → a.kind ≠ .save → a.kind ≠ .restore →
      ∀ l < 32, laneIn p.lanes l = true ↔ ∃ r ∈ a.lanes, r.cause = p.cause ∧ r.lane = l)) ∧
  (∀ own parked : TrapInfo, own.cause < parked.cause → trapTaken (some own) (some parked) = some own) ∧
  (∀ own parked : TrapInfo, parked.cause ≤ own.cause →
    trapTaken (some own) (some parked) = some { parked with epc := own.epc })

/-- R269: TRAP enters the handler with SW_TRAP, after it has executed: SR_EPC is the address after it, and k14 of every
active lane gets its code. R261, R263: what a vector reports: SR_CAUSE, SR_EPC, SR_FMASK; SR_FADDR of each lane that has
an address; the k registers that the trap sets, in the reported lanes; and no other register of the strip. R266, R272: a
trap in supervisor mode halts the strip with DOUBLE_FAULT, and a trap in a context without a handler halts it with the
trap's own code; the context is then reported fatal with CAUSE, SR_EPC and SR_FMASK. Stated of every word with an
illegal encoding. -/
def Obligations.Traps : Prop :=
  (∀ (s : State) (w : Seat) (st : Bool) (imm : BitVec 10) (lit : Option Word),
    s.issuing (.trap st imm lit) = some w → w.vectors →
    exec (.trap st imm lit) s = .next (w.trapped w.s (w.t.counted w.x.cfg.sstep)
      (TrapInfo.mk 0x30 w.t.active [] [] [(14, lit.getD (imm.signExtend 32))] w.pcNext))) ∧
  (∀ (t : Strip) (p : TrapInfo),
    let u := writeTrapState t p
    u.cause = BitVec.ofNat 32 p.cause ∧ u.epc = p.epc &&& 0x01FFFFFFFFFFFFFF ∧ u.fmask = p.lanes ∧
    (∀ l < 32, vget u.faddr l 0 = ((p.addrs.find? fun a => a.1 == l).map (·.2)).getD 0) ∧
    (∀ n < 16, ∀ l < 32, (∀ v, (n, v) ∈ p.kset → laneIn p.lanes l = false) → (n = 15 → ∀ v, (l, v) ∉ p.reports) →
      u.word (fun _ => (0, 0, 0)) (n + 64) l = t.word (fun _ => (0, 0, 0)) (n + 64) l) ∧
    (∀ n v l, p.kset = [(n, v)] → p.reports = [] → n < 16 → l < 32 → laneIn p.lanes l = true →
      u.word (fun _ => (0, 0, 0)) (n + 64) l = v) ∧
    u = { t with cause := u.cause, epc := u.epc, fmask := u.fmask, faddr := u.faddr, kregs := u.kregs }) ∧
  (∀ (s : State) (i : Instr) (w : Seat), s.turned i = some w → isEvent i = false → w.encoded i = false →
    (w.t.priv = true ∨ handlerOf s w.g.ctx = 0) → (w.t.priv = false → w.t.replay = []) →
    ∃ u r, exec i s = .next u ∧ (u.ctx? w.g.ctx).bind (·.fatal) = some r ∧
      r.cause = (if w.t.priv then 1 else 8) ∧ r.inner = (if w.t.priv then 8 else 0) ∧ r.epc = w.t.pc &&& 0x01FFFFFFFFFFFFFF ∧ r.fmask = w.t.active ∧
      (u.strip? w.g.id w.t.idx).any (·.halted) = true)

/-- R268: TRET returns: outstanding results return first, the stack is popped to the depth saved at the vector, the
saved mask of live lanes is active again, user mode goes on at SR_EPC, and parked accesses stay. -/
def Obligations.TrapReturn : Prop :=
  ∀ (s : State) (w : Seat) (st : Bool), s.issuing (.tret st) = some w →
    let t := landAll w.coord w.t
    exec (.tret st) s = .next (w.s.setStrip w.g.id { t with
      stack := t.stack.drop (t.stack.length - t.trapDepth)
      active := t.trapMask &&& t.live
      priv := false
      pc := t.epc })

/-! Words that synchronise. -/

/-- R135, R189: BAR.SYNC arrives and waits for its phase, BAR.ARRIVE arrives and goes on, each only once the phase of
the strip's last arrival has ended; BAR.WAIT waits for that phase. A strip that was pre-empted while it waited makes no
second arrival. R237: CKPT, REPLAY and REPLEND arrive at the recompute barrier with their operation and address, and
wait there. -/
def Obligations.BarrierArrivals : Prop :=
  (∀ (s : State) (w : Seat) (st : Bool) (n : BitVec 4) (x : Option XWord),
    let b := w.g.bar n.toNat
    let open_ := vget w.t.barPhase n.toNat none = some b.phase
    let arrived : State := w.s.mapGang w.g.id fun g =>
      { g with bars := vset g.bars n.toNat (Bar.mk b.phase (b.arrived ++ [w.t.idx])) }
    let noted : Strip := { w.t with barPhase := vset w.t.barPhase n.toNat (some b.phase) }
    let waits (i : Instr) (u : State) (t : Strip) : Out :=
      .next (u.setStrip w.g.id { t with wait := .phase n.toNat b.phase i.size, withdrawn := none })
    (s.issuing (.barSync st n x) = some w →
      let i := Instr.barSync st n x
      (w.t.withdrawn ≠ some n.toNat → ¬ open_ → exec i s = waits i arrived noted) ∧
      (w.t.withdrawn ≠ some n.toNat → open_ → exec i s = .next (w.again i w.s (.barrier n.toNat))) ∧
      (w.t.withdrawn = some n.toNat → open_ → exec i s = waits i w.s w.t) ∧
      (w.t.withdrawn = some n.toNat → ¬ open_ → exec i s = .next (w.passed i w.s { w.t with withdrawn := none }))) ∧
    (s.issuing (.barArrive st n x) = some w →
      let i := Instr.barArrive st n x
      (¬ open_ → exec i s = .next (w.passed i arrived noted)) ∧
      (open_ → exec i s = .next (w.again i w.s (.barrier n.toNat)))) ∧
    (s.issuing (.barWait st n x) = some w →
      let i := Instr.barWait st n x
      (open_ → exec i s = waits i w.s w.t) ∧
      (¬ open_ → exec i s = .next (w.passed i w.s { w.t with withdrawn := none })))) ∧
  (∀ (s : State) (w : Seat) (i : Instr) (op : RecOp) (a : DWord), s.issuing i = some w →
    ((∃ v, i = .ckpt v ∧ op = .ckpt ∧ w.fr.pair v.a.toNat = .u a ∧ a.toNat % 64 = 0 ∧ outsideTwins a) ∨
      (∃ v, i = .replay v ∧ op = .replay ∧ w.fr.pair v.a.toNat = .u a ∧ a.toNat % 64 = 0 ∧ outsideTwins a) ∨
      (∃ st, i = .replend st ∧ op = .replend ∧ a = 0)) →
    vget w.t.barPhase 16 none ≠ some w.g.recPhase → w.t.withdrawn ≠ some 16 →
    exec i s = .next ((w.s.mapGang w.g.id fun g => { g with recompute := g.recompute ++ [RecArrival.mk w.t.idx op a] }).setStrip
      w.g.id { w.t with
        barPhase := vset w.t.barPhase 16 (some w.g.recPhase)
        wait := .phase 16 w.g.recPhase i.size
        withdrawn := none }))

/-- R190, R293, R372: WAIT reads the word at its address once each time it issues: it passes where its condition holds, waits
to read again where it does not or where a port or a peer gives no answer, and traps precisely where the read faults, with
TIER_LINK where a peer has given none in time. -/
def Obligations.WaitWord : Prop :=
  ∀ (s : State) (w : Seat) (c : WaitCond) (v : WAddr2) (a : DWord) (n : DWord),
    let i := Instr.wait c v
    s.issuing i = some w → w.fr.pair v.a.toNat = .u a → w.fr.reg v.b.toNat = .u n →
    a.toNat % 4 = 0 → inTwinWindow a.toNat = false →
    let (p, u) := w.reads a 4
    let word := wordOf (p.read u w.g.ctx)
    let holds : Prop := match c with
      | .eq => word = loOf n
      | .ne => word ≠ loOf n
      | .gen => (loOf n).toNat ≤ word.toNat
      | .ltn => word.toNat < (loOf n).toNat
    (p.req.cause = 0 → p.waits = false → holds → exec i s = .next (w.passed i (readDone u w.g p) w.t)) ∧
    (p.req.cause = 0 → p.waits = true ∨ ¬ holds →
      ∃ r, (r = .cond ∨ r = .reread) ∧
        exec i s = .next (w.pends i (readDone u w.g p) (if p.waits then p.asks u w.g.ctx else []) r)) ∧
    (p.req.cause ≠ 0 → w.vectors → exec i s = .next (w.trapped w.s w.t (readTrap w.t p.req)))

/-- R198, R338: FORK of U sources, with a free token slot and room in the engine class, makes a running program with the
sources in its e registers, and puts its new token into vd, as a U value in a strip that acts as a whole. R199, R355: RDV passes at once on the token 0, waits
while the token's program runs, passes with the token collected once it has ended, and traps with ENGINE, after it has
executed, where it has stopped, with the stopping word's address in every lane. -/
def Obligations.ForkAndRdv : Prop :=
  (∀ (s : State) (w : Seat) (v : WFork) (es : Nat → DWord) (slot : Nat),
    s.issuing (.fork v) = some w →
    (∀ k < v.n.toNat, w.fr.src (if (forkByte v k).getLsbD 7 then 64 else 32) ((forkByte v k).extractLsb' 0 6).toNat = .u (es k)) →
    freeSlot w.s w.g = some slot → classRoom w.s w.g (classOf v.cls) = true → w.l.hdr.regs ≠ 0 →
    ∃ t, t = w.onlyRegs t ∧
      Writes w (Result.mk 32 (w.slot v.d) (fun _ => BitVec.ofNat 64 (w.g.nextToken % 2 ^ 32)) []) t ∧
      (w.t.priv = false → w.fr.whole = true → t.uniformIn [w.slot v.d]) ∧
      exec (.fork v) s = .next (w.passed (.fork v)
        { w.s.mapGang w.g.id (fun g => { g with
            tokens := mapWhere (·.slot == slot) (fun k => { k with overtaken := true }) g.tokens ++
              [Token.mk (BitVec.ofNat 32 w.g.nextToken) slot w.s.nextId false false]
            nextToken := g.nextToken + 1 }) with
          progs := w.s.progs ++ [Prog.mk w.s.nextId w.g.ctx w.g.launch w.g.id w.t.idx (homeOf w.g (classOf v.cls)).1
            (classOf v.cls) (homeOf w.g (classOf v.cls)).2 (w.t.pc + (v.off.getD 0).signExtend 64)
            (Vector.ofFn fun k : Fin 16 => if k.val < v.n.toNat then es k else 0) v.scope.toNat w.t.priv w.g.replayMode
            w.t.fmt (vget w.t.gens (bitsOf w.t.mode.toNat 12 2) (Gen.mk 0 0)) .running w.s.clock false 0
            w.x.fmtTable [] [] none]
          nextId := w.s.nextId + 1 } t)) ∧
  (∀ (s : State) (w : Seat) (v : WSrc) (n : DWord),
    let i := Instr.rdv v
    s.issuing i = some w → w.fr.reg v.a.toNat = .u n →
    let freed := w.lastRead v.la v.a 1
    (loOf n = 0 → w.sets i (exec i s) w.s freed id) ∧
    (loOf n ≠ 0 → (∀ k ∈ w.g.tokens, k.value ≠ loOf n) → w.vectors →
      exec i s = .next (w.trapped w.s w.t (plainTrap w.t 0x08))) ∧
    (∀ k p, loOf n ≠ 0 → w.g.tokens.find? (fun k => k.value == loOf n) = some k → w.s.prog? k.prog = some p →
      let u := w.s.mapGang w.g.id fun g =>
        { g with tokens := mapWhere (·.value == loOf n) (fun k => { k with collected := true }) g.tokens }
      (p.over = false → exec i s = .next (w.again i w.s .rdv)) ∧
      (p.status = .ended → w.sets i (exec i s) u freed id) ∧
      (∀ sub addr word, p.status = .stopped sub addr word → k.overtaken = false → w.vectors →
        ∃ t, t = w.onlyRegs t ∧ Keeps w t [] freed ∧ exec i s = .next (w.trapped u (t.counted w.x.cfg.sstep)
          (TrapInfo.mk 0x21 w.t.active ((List.range 32).map fun l => (l, word)) []
            [(0, BitVec.ofNat 32 sub), (1, loOf addr), (2, hiOf addr), (3, loOf word), (4, hiOf word)] w.pcNext)))))

/-- R154, R155: QPUT appends the sixteen U words of its registers to the queue of its stage, or waits while the queue is
full; QGET takes the oldest record of its own stage's queue into sixteen U registers, takes zeros once the queue is closed,
and else waits. Both stand in an ELECT region; QGET's registers are U for the strip as a whole (R46). That QPUT appends to a queue that is closed too is the model's choice (log
27). -/
def Obligations.StageQueues : Prop :=
  (∀ (s : State) (w : Seat) (st : Bool) (d stage : BitVec 6) (x : Option XWord) (u : StageQueue) (ws : List Word),
    let i := Instr.qput st d stage x
    s.issuing i = some w → w.t.elect ≠ none → stage.toNat < w.l.hdr.stages → w.l.queues[stage.toNat]? = some u →
    ws.length = 16 → (∀ k < 16, w.fr.reg (d.toNat + k) = .u ((ws.getD k 0).setWidth 64)) →
    (u.recs.length < u.depth → exec i s = .next (w.passed i (w.s.mapLaunch w.l.id fun l =>
      { l with queues := l.queues.set stage.toNat { u with recs := u.recs ++ [ws] } }) w.t)) ∧
    (u.depth ≤ u.recs.length → exec i s = .next (w.again i w.s .queue))) ∧
  (∀ (s : State) (w : Seat) (st : Bool) (d : BitVec 6) (x : Option XWord) (u : StageQueue),
    let i := Instr.qget st d x
    s.issuing i = some w → w.t.elect ≠ none → w.l.queues[w.g.stage]? = some u →
    (∀ ws rest, u.recs = ws :: rest → u.closed = false →
      ∃ t, t = w.onlyRegs t ∧ Keeps w t (w.group d 16) [] ∧
        (∀ k < 16, ∀ l < 32, laneIn w.fr.active l = true → t.word w.coord (w.slot d + k) l = ws.getD k 0) ∧
        (w.t.priv = false → w.fr.whole = true → t.uniformIn (w.group d 16)) ∧
        exec i s = .next (w.passed i (w.s.mapLaunch w.l.id fun l =>
          { l with queues := l.queues.set w.g.stage { u with recs := rest } }) t)) ∧
    (u.closed = true →
      ∃ t, t = w.onlyRegs t ∧ Keeps w t (w.group d 16) [] ∧
        (∀ k < 16, ∀ l < 32, laneIn w.fr.active l = true → t.word w.coord (w.slot d + k) l = 0) ∧
        (w.t.priv = false → w.fr.whole = true → t.uniformIn (w.group d 16)) ∧
        exec i s = .next (w.passed i w.s t)) ∧
    (u.recs = [] → u.closed = false → exec i s = .next (w.again i w.s .queue)))

/-- R152: LAUNCH of an aligned U address outside the twin window, with a place in the intake, submits the record it
reads with the launch's own account, and takes the place; without a place it waits. R291, R293, R372: so it does where the
record or its successor list gets no answer yet; and it traps precisely where the read of the record faults. That a LAUNCH that
waits has done nothing, but for keeping the clocks of what it has asked peers for, and is tried again as a whole is the
model's choice (log 17). -/
def Obligations.LaunchWord : Prop :=
  ∀ (s : State) (w : Seat) (v : WAddr) (a : DWord),
    let i := Instr.launch v
    s.issuing i = some w → w.fr.pair v.a.toNat = .u a → a.toNat % 8 = 0 → inTwinWindow a.toNat = false →
    let (p, u) := w.reads a 80
    let r := submitRead w.t.asked (readDone u w.g p) w.g.ctx a (p.read u w.g.ctx) (some (acctOf u w.g.launch))
    (w.x.intake < Config.intakePlaces → p.req.cause = 0 → p.waits = false → ∀ v, r = .got v →
      exec i s = .next (w.passed i (v.mapCtx w.g.ctx fun x => { x with intake := x.intake + 1 }) w.t)) ∧
    (w.x.intake < Config.intakePlaces → p.req.cause = 0 → p.waits = false → ∀ keys, r = .waits keys →
      exec i s = .next (w.pends i u keys .intake)) ∧
    (w.x.intake < Config.intakePlaces → p.req.cause = 0 → p.waits = true →
      exec i s = .next (w.pends i u (p.asks u w.g.ctx) .intake)) ∧
    (w.x.intake < Config.intakePlaces → p.req.cause ≠ 0 → w.vectors →
      exec i s = .next (w.trapped w.s w.t (readTrap w.t p.req))) ∧
    (Config.intakePlaces ≤ w.x.intake → exec i s = .next (w.again i w.s .intake))

/-! Controls and formats. -/

/-- R50, R51, R52, R108, R336, R349: FMTSEL replaces one slot of FMT, or FMT as a whole; MODESET replaces MODE, its
rounding mode alone, or clears flags. R335, R337: FMTSET replaces an entry of its context's format table with a U pair
that the table accepts; FMTGET reads an entry as a pair, U where it acts on the whole strip. R215: BWSET.MEM sets the context's weights on its die's
memory, BWSET.LINK those on its link, each 4-bit weight no larger than its quota. -/
def Obligations.Controls : Prop :=
  ((∀ (s : State) (w : Seat) (st : Bool) (code : BitVec 6) (n : BitVec 2) (x : Option XWord),
    s.issuing (.fmtselSlot st code n x) = some w → code.toNat < 48 →
    ∃ f : Word, exec (.fmtselSlot st code n x) s = .next (w.passed (.fmtselSlot st code n x) w.s { w.t with fmt := f }) ∧
      f.extractLsb' (8 * n.toNat) 6 = code ∧
      ∀ k < 32, k / 8 ≠ n.toNat ∨ 6 ≤ k % 8 → f.getLsbD k = w.t.fmt.getLsbD k) ∧
  (∀ (s : State) (w : Seat) (st : Bool) (rm : BitVec 3) (x : Option XWord),
    s.issuing (.modesetRm st rm x) = some w →
    exec (.modesetRm st rm x) s = .next (w.passed (.modesetRm st rm x) w.s
      { w.t with mode := w.t.mode.extractLsb' 3 29 ++ rm })) ∧
  (∀ (s : State) (w : Seat) (i : Instr) (v : WSrc) (n : DWord) (f : Strip → Strip),
    s.issuing i = some w → w.fr.reg v.a.toNat = .u n →
    ((i = .fmtselReg v ∧ (∀ k < 4, ((loOf n).extractLsb' (8 * k) 6).toNat < 48) ∧
        f = fun t => { t with fmt := loOf n &&& 0x3F3F3F3F }) ∨
      (i = .modeset v ∧ ((loOf n).extractLsb' 0 3).toNat ≠ 0 ∧ ((loOf n).extractLsb' 0 3).toNat ≠ 7 ∧
        f = fun t => { t with mode := loOf n &&& 0x33FF }) ∨
      (i = .modesetClr v ∧ f = fun t => { t with fpstat := t.fpstat &&& ~~~(loOf n &&& 0x3F) })) →
    w.sets i (exec i s) w.s (w.lastRead v.la v.a 1) f)) ∧
  ((∀ (s : State) (w : Seat) (v : W2) (e : DWord), s.issuing (.fmtset v) = some w → w.fr.pair v.a.toNat = .u e →
    16 ≤ v.d.toNat → fmtsetAccepts w.x.fmtTable v.d.toNat e = true →
    w.sets (.fmtset v) (exec (.fmtset v) s)
      (w.s.mapCtx w.g.ctx fun x => { x with fmtTable := vset x.fmtTable v.d.toNat e }) (w.lastRead v.la v.a 2) id) ∧
  (∀ (s : State) (w : Seat) (v : WNoLa), s.issuing (.fmtget v) = some w → w.l.hdr.regs ≠ 0 →
    w.gives (.fmtget v) (exec (.fmtget v) s)
      (Result.mk 64 (w.slot v.d) (fun _ => vget w.x.fmtTable v.a.toNat 0) [])) ∧
  (∀ (s : State) (w : Seat) (v : WNoLa), s.issuing (.fmtget v) = some w → w.l.hdr.regs ≠ 0 →
    w.t.priv = false → w.fr.whole = true →
    w.givesUniform (.fmtget v) (exec (.fmtget v) s) [w.slot v.d, w.slot v.d + 1])) ∧
  (∀ (s : State) (w : Seat) (i : Instr) (v : WSrc) (n : DWord) (put : Word → Ctx → Ctx),
    s.issuing i = some w → w.fr.reg v.a.toNat = .u n → (loOf n).extractLsb' 20 12 = 0 →
    ((i = .bwsetMem v ∧ ∃ p, w.g.place = some p ∧
        put = fun n x => { x with weights := vset x.weights (p.bench / 48) n }) ∨
      (i = .bwsetLink v ∧ put = fun n x => { x with linkWeight := n })) →
    ∃ m : Word, m.extractLsb' 20 12 = 0 ∧
      (∀ k < 5, (m.extractLsb' (4 * k) 4).toNat =
        Min.min ((loOf n).extractLsb' (4 * k) 4).toNat (w.x.cfg.quota.extractLsb' (4 * k) 4).toNat) ∧
      w.sets i (exec i s) (w.s.mapCtx w.g.ctx (put m)) (w.lastRead v.la v.a 1) id)

/-- R50, R51, R52, R242, R361: SETSR writes its special register: FMT, MODE, flags to clear, CAUSE, the staged low half
of the page-table root and its commit, and SR_EPC in either width. -/
def Obligations.SetSpecial : Prop :=
  ∀ (s : State) (w : Seat) (v : W2) (n : DWord) (u : State) (f : Strip → Strip),
    s.issuing (.setsr v) = some w → w.fr.src (cmpWidth v.x) v.a.toNat = .u n →
    ((v.d = 0x10 ∧ (∀ k < 4, ((loOf n).extractLsb' (8 * k) 6).toNat < 48) ∧ u = w.s ∧
        f = fun t => { t with fmt := loOf n &&& 0x3F3F3F3F }) ∨
      (v.d = 0x11 ∧ ((loOf n).extractLsb' 0 3).toNat ≠ 0 ∧ ((loOf n).extractLsb' 0 3).toNat ≠ 7 ∧ u = w.s ∧
        f = fun t => { t with mode := loOf n &&& 0x33FF }) ∨
      (v.d = 0x12 ∧ u = w.s ∧ f = fun t => { t with fpstat := t.fpstat &&& ~~~(loOf n &&& 0x3F) }) ∨
      (v.d = 0x13 ∧ u = w.s ∧ f = fun t => { t with cause := loOf n &&& 0xFF }) ∨
      (v.d = 0x1D ∧ u = w.s ∧ f = fun t => { t with staged := some (loOf n) }) ∨
      (v.d = 0x1E ∧
        u = (w.s.mapCtx w.g.ctx fun x => { x with root := loOf n ++ w.t.staged.getD (x.root.extractLsb' 0 32) }) ∧
        f = fun t => { t with staged := none }) ∨
      (v.d = 0x1F ∧ wideOf v.x = false ∧ n.toNat % 4 = 0 ∧ u = w.s ∧
        f = fun t => { t with epc := t.epc.extractLsb' 32 32 ++ loOf n }) ∨
      (v.d = 0x1F ∧ wideOf v.x = true ∧ n.toNat % 4 = 0 ∧ n.toNat < 2 ^ 57 ∧ u = w.s ∧
        f = fun t => { t with epc := n })) →
    w.sets (.setsr v) (exec (.setsr v) s) u (w.lastRead v.la v.a (regsOf (cmpWidth v.x))) f

/-! Memory words. -/

/-- R166, R179, R343, R344: LD and LD.G whose lanes go through plainly complete: their value, raw or converted, is an
outstanding result for the destination registers; no byte of memory is changed but, under LAST, in lines that they read, to
what backing memory holds. R168, R301: besides that only L1 ownership, the account of the launch and the counter of free
values may change. -/
def Obligations.Loads : Prop :=
  ∀ (s : State) (w : Seat) (i : Instr) (v : WMem) (g : Bool) (e : Option DWord),
    s.issuing i = some w → (i = .ld v ∧ g = false) ∨ (i = .ldG v ∧ g = true) → w.l.hdr.regs ≠ 0 → w.typed v e →
    (g = true → (w.fr.pair v.a.toNat).isU = true) →
    let reqs := w.parts g v (fun _ => []) (fun _ => [])
    let (ps, u) := w.plans .read false reqs
    (∀ r ∈ reqs, inTwinWindow r.addr.toNat = false) → (∀ p ∈ ps, p.plain u w.g.ctx true) →
    let bytes (l : Nat) : List Byte :=
      ((ps.find? fun p => p.req.lane == w.partLane g l).map fun p => p.targets.map u.byteAt).getD []
    ∃ m t x, exec i s = .next (w.passed i m t) ∧ OnlyMemory u m w.l.rcd.acct ∧
      (lastOf v.x = false → OnlyRead u m w.l.rcd.acct) ∧
      (∀ x, m.byteAt x = u.byteAt x ∨
        (lastOf v.x = true ∧ (∃ p ∈ ps, ∃ y ∈ p.targets, x.sameLine y) ∧ u.backing x = some (m.byteAt x))) ∧
      t = { w.onlyRegs t with
        seq := w.t.seq + 1
        fpstat := w.t.fpstat ||| (reqs.map (·.lane)).foldl (fun fl l => fl ||| loadedFlags w.fr.ftz e (bytes l)) 0 } ∧
      w.lands t x (w.lastRead v.la v.a 2) ∧
      x.holds (w.slot v.d) (szCount v.sz) w.fr.active (g && w.fr.whole) fun l k => loadedWord w.fr.ftz e (bytes l) k

/-- R166, R179, R257, R364, R365: ST and ST.G whose lanes go through plainly complete: the bytes at the lanes' places
are the lanes' data, the highest lane's where several store one byte, and every other byte is as it was. R168, R257: the L1
of the strip's bench owns the lines stored to, and the frames of those that it did not own are marked. That the one value of a
typed ST.G under stochastic rounding has the lowest active lane's draw, and the flags those of every active lane's own, is the
model's choice (log 24). -/
def Obligations.Stores : Prop :=
  ∀ (s : State) (w : Seat) (i : Instr) (v : WMem) (g : Bool) (e : Option DWord),
    s.issuing i = some w → (i = .st v ∧ g = false) ∨ (i = .stG v ∧ g = true) → w.typed v e →
    (g = true → (w.fr.pair v.a.toNat).isU = true ∧ (w.fr.src (if v.sz.toNat ≤ 2 then 32 else 64) v.d.toNat).isU = true ∧
      (v.sz = 4 → (w.fr.pair (v.d.toNat + 2)).isU = true)) →
    let reqs := w.parts g v (w.storeData v e) (fun _ => [])
    let (ps, u) := w.plans .write true reqs
    (∀ r ∈ reqs, inTwinWindow r.addr.toNat = false) → (∀ p ∈ ps, p.plain u w.g.ctx false) →
    ∃ m t, exec i s = .next (w.passed i m (w.afterStore v e t)) ∧ t = { w.onlyRegs t with seq := w.t.seq + 1 } ∧
      Keeps w t [] (w.lastRead v.la v.a 2) ∧ OnlyMemory u m w.l.rcd.acct ∧
      (∀ x, m.byteAt x = setBytes u.byteAt (ps.flatMap fun p => p.targets.zip p.req.data) x) ∧
      (∀ pl, w.g.place = some pl → ∀ p ∈ ps, ∀ a, Target.device a ∈ p.targets →
        (pl.bench, a / 128) ∈ m.device.owned ∧ (a / 4096 ∈ m.device.marks ∨ (pl.bench, a / 128) ∈ u.device.owned))

/-- R166, R284, R314, R320: ATOM and CAS whose lanes go through plainly complete, one lane after the other: each lane's
old value is an outstanding result; ATOM writes the operation's result, CAS its data where the old bytes are vd's. Host
memory is such that the root complex completes its AtomicOps. -/
def Obligations.Atomics : Prop :=
  ∀ (s : State) (w : Seat) (i : Instr) (v : WMem),
    s.issuing i = some w → i = .atom v ∨ i = .cas v → w.l.hdr.regs ≠ 0 →
    let n := 2 ^ v.sz.toNat
    let reqs := w.parts false v (fun l => w.bytes (vcOf v.x) n l)
      (fun l => match i with
        | .cas _ => w.bytes v.d n l
        | _ => [])
    let (ps, u) := w.plans .both true reqs
    (∀ r ∈ reqs, inTwinWindow r.addr.toNat = false ∧ r.addr.toNat % n = 0) → (∀ p ∈ ps, p.plain u w.g.ctx true) →
    (∀ p ∈ ps, ∀ g ∈ p.segs, ∀ a, g.tgt = .host a → Config.hostAborts a = false ∧ (n = 16 → u.dev.c128 = true)) →
    let fold := atomicFold (fun p old => match i with
      | .cas _ => if old = p.req.cmp then some p.req.data else none
      | _ => some (toBytes (atomicOp (rndOf v.x) n (ofBytes old) (ofBytes p.req.data)) n)) ps u.byteAt
    ∃ m t x, exec i s = .next (w.passed i m t) ∧ t = { w.onlyRegs t with seq := w.t.seq + 1 } ∧
      OnlyMemory u m w.l.rcd.acct ∧ m.byteAt = fold.2 ∧
      w.lands t x (w.lastRead v.la v.a 2 ++ w.lastRead (lcOf v.x) (vcOf v.x) (szCount v.sz)) ∧
      x.holds (w.slot v.d) (szCount v.sz) w.fr.active false fun l k =>
        wordOf ((((((ps.map (·.req.lane)).zip fold.1).find? (·.1 == l)).map (·.2)).getD []).drop (4 * k) |>.take 4)

/-- R164, R165, R315, R343, R364: LDS reads its offsets of the gang's scratchpad, STS stores to them, the highest lane
last, and ATOMS does both in lane order; an offset counts modulo the size, and what lies above the allocation reads 0. -/
def Obligations.Scratchpad : Prop :=
  (∀ (s : State) (w : Seat) (v : WMem) (e : Option DWord),
    s.issuing (.lds v) = some w → w.l.hdr.regs ≠ 0 → w.typed v e →
    let bytes (l : Nat) : List Byte := scratchRead w.g w.l.hdr.scratch (w.offset v l) (2 ^ v.sz.toNat)
    ∃ t x, exec (.lds v) s = .next (w.passed (.lds v) w.s t) ∧
      t = { w.onlyRegs t with
        fpstat := w.t.fpstat ||| (lanesOf w.fr.active).foldl (fun fl l => fl ||| loadedFlags w.fr.ftz e (bytes l)) 0 } ∧
      w.lands t x (w.lastRead v.la v.a 1) ∧
      x.holds (w.slot v.d) (szCount v.sz) w.fr.active false fun l k => loadedWord w.fr.ftz e (bytes l) k) ∧
  (∀ (s : State) (w : Seat) (v : WMem) (e : Option DWord), s.issuing (.sts v) = some w → w.typed v e →
    let size := w.l.hdr.scratch
    let stored := (lanesOf w.fr.active).flatMap fun l =>
      (w.storeData v e l).zipIdx.map fun (b, j) => ((w.offset v l + j) % 2 ^ 32 % pow2From size, b)
    ∃ F W t, exec (.sts v) s = .next (w.passed (.sts v) { w.s.mapGang w.g.id F with wrote := W } (w.afterStore v e t)) ∧
      t = w.onlyRegs t ∧
      Keeps w t [] (w.lastRead v.la v.a 1) ∧ F w.g = { w.g with scratch := (F w.g).scratch } ∧
      ∀ a < size, scratchGet (F w.g) size a =
        ((stored.reverse.find? (·.1 == a)).map (·.2)).getD (scratchGet w.g size a)) ∧
  (∀ (s : State) (w : Seat) (v : WMem), s.issuing (.atoms v) = some w → w.l.hdr.regs ≠ 0 →
    let n := 2 ^ v.sz.toNat
    (∀ l < 32, laneIn w.fr.active l = true → w.offset v l % n = 0) →
    ∃ F W t x, exec (.atoms v) s = .next (w.passed (.atoms v) { w.s.mapGang w.g.id F with wrote := W } t) ∧
      t = w.onlyRegs t ∧
      F w.g = { w.g with scratch := (F w.g).scratch } ∧
      w.lands t x (w.lastRead v.la v.a 1 ++ w.lastRead (lcOf v.x) (vcOf v.x) (szCount v.sz)) ∧
      let fold := w.scratchFold v (lanesOf w.fr.active) (scratchGet w.g w.l.hdr.scratch)
      (∀ a < w.l.hdr.scratch, scratchGet (F w.g) w.l.hdr.scratch a = fold.2 a) ∧
      x.holds (w.slot v.d) (szCount v.sz) w.fr.active false fun l k =>
        wordOf (((((lanesOf w.fr.active).zip fold.1).find? (·.1 == l)).map (·.2)).getD [] |>.drop (4 * k) |>.take 4))

/-- R56, R107, R345: LDT of rows that go through plainly completes with an outstanding block: slot k of row i holds the
code k of memory row i, with T the code i of memory row k; the scales of a block-scaled format stand from byte 32. Where a
block's slots and scales stand among registers and lanes is the model's choice (log 37). -/
def Obligations.TileLoads : Prop :=
  ∀ (s : State) (w : Seat) (v : WTile) (e : Option DWord) (base stride : DWord),
    s.issuing (.ldt v) = some w → w.l.hdr.regs ≠ 0 → w.fr.active = w.t.live →
    w.fr.pair v.a.toNat = .u base → w.fr.reg v.b.toNat = .u stride →
    ((fmtOf v.x = 63 ∧ v.t = false ∧ e = none) ∨
      (¬ (fmtOf v.x = 63 ∧ v.t = false) ∧ ∃ f, entryOf w.x.fmtTable w.t.fmt (fmtOf v.x) = some f ∧ e = some f ∧
        (Ent.of f).wid ≠ 64 ∧ (Ent.of f).wid ≠ 0 ∧ (v.t = true → (Ent.of f).blk = 0))) →
    let f := e.map Ent.of
    let wid := (f.map (·.wid)).getD 8
    let blk := (f.map (·.blk)).getD 0
    let reqs := ldtRows w.x.fmtTable v.t f base ((loOf stride).signExtend 64)
    let (ps, u) := w.plans .read false reqs
    (∀ r ∈ reqs, inTwinWindow r.addr.toNat = false) → (∀ p ∈ ps, p.plain u w.g.ctx true) →
    let row (r : Nat) : List Byte := ((ps.find? fun p => p.req.lane == r).map fun p => p.targets.map u.byteAt).getD []
    ∃ m t x, exec (.ldt v) s = .next (w.passed (.ldt v) m t) ∧ OnlyMemory u m w.l.rcd.acct ∧
      (lastOf v.x = false → OnlyRead u m w.l.rcd.acct) ∧
      (∀ x, m.byteAt x = u.byteAt x ∨
        (lastOf v.x = true ∧ (∃ p ∈ ps, ∃ y ∈ p.targets, x.sameLine y) ∧ u.backing x = some (m.byteAt x))) ∧
      t = { w.onlyRegs t with seq := w.t.seq + 1 } ∧ w.lands t x [] ∧ x.isBlock (w.slot v.d) ∧
      (∀ n < 16, ∀ k < depthOf wid blk,
        x.blockSlot (slotWidth wid) n k = if v.t then packedCode (row k) wid n else packedCode (row n) wid k) ∧
      (blk ≠ 0 → ∀ n < 16, ∀ c < 32, x.blockByte n (32 + c) = (row (16 + n)).getD c 0)

/-- R56, R366, R367: STT and STASH of rows that go through plainly complete: a byte at a place of the rows holds what a
row stores to its address, and no other byte is changed. STASH stores the block's rows and, as rows of their own, its
columns. R366: the rows of STASH: row n of the first copy is row n of the block, and code n of row k of the second copy
is the code in slot k of the block's row n. R167: where rows overlap, an aligned part of 16 bytes outside the twin window that
every row with a byte in it writes whole holds the bytes of one row in the end: of which, is open (log 6). Where a block's
rows stand among lanes is the model's choice (log 37). -/
def Obligations.TileStores : Prop :=
  (∀ (s : State) (w : Seat) (i : Instr) (v : WTile) (reqs : List LaneReq),
    s.issuing i = some w → w.fr.active = w.t.live →
    ((∃ base stride, i = .stt v ∧ w.fr.pair v.a.toNat = .u base ∧ w.fr.reg v.b.toNat = .u stride ∧
        reqs = (List.range 16).map fun n => laneReq n (base + BitVec.ofNat 64 n * (loOf stride).signExtend 64) 64
          (blockRow w.fr v.d.toNat n) []) ∨
      (∃ a b strides e, i = .stash v ∧ w.fr.pair v.a.toNat = .u a ∧ w.fr.pair v.b.toNat = .u b ∧
        w.fr.reg (vcOf v.x).toNat = .u strides ∧ w.plainEntry (fmtOf v.x) = some e ∧
        ((Ent.of e).wid = 4 ∨ (Ent.of e).wid = 8 ∨ (Ent.of e).wid = 16) ∧
        reqs = stashRows w.fr v.d.toNat (Ent.of e).wid a b (loOf strides))) →
    let (ps, u) := { w with s := w.s.bump (choiceCount reqs) }.plans .write true (chooseBytes w.s.tick [16, 8] reqs)
    (∀ r ∈ reqs, inTwinWindow r.addr.toNat = false) → (∀ p ∈ ps, p.plain u w.g.ctx false) →
    ∃ m, exec i s = .next (w.passed i m { w.t with seq := w.t.seq + 1 }) ∧ OnlyMemory u m w.l.rcd.acct ∧
      (∀ x, (∀ p ∈ ps, x ∉ p.targets) → m.byteAt x = u.byteAt x) ∧
      (∀ x, ∀ p ∈ ps, x ∈ p.targets → ∃ q ∈ ps, ∃ j, q.targets[j]? = some x ∧
        ∃ r ∈ reqs, ∃ k b, r.data[k]? = some b ∧ r.addr.toNat + k = q.req.addr.toNat + j ∧ m.byteAt x = b)) ∧
  (∀ (fr : Frame) (r n : Nat) (a b : DWord) (strides : Word), n = 4 ∨ n = 8 ∨ n = 16 →
    let rows := stashRows fr r n a b strides
    rows.length = 16 + depthOf n 0 ∧
    (∀ i < 16, ∃ q, rows[i]? = some q ∧ q.addr = a + BitVec.ofNat 64 i * (strides.extractLsb' 0 16).setWidth 64 ∧
      q.data = (List.range 64).map (blockByte fr r i)) ∧
    (∀ k < depthOf n 0, ∃ q, rows[16 + k]? = some q ∧
      q.addr = b + BitVec.ofNat 64 k * (strides.extractLsb' 16 16).setWidth 64 ∧ q.data.length = 2 * n ∧
      ∀ i < 16, packedCode q.data n i = blockSlot fr r n i k)) ∧
  (∀ (tick : Nat) (reqs : List LaneReq) (a : Nat), 16 ∣ a → (∀ j < 16, inTwinWindow (a + j) = false) →
    let whole (r : LaneReq) : Prop := r.addr.toNat ≤ a ∧ a + 16 ≤ r.addr.toNat + r.data.length
    (∀ r ∈ reqs, whole r ∨ r.addr.toNat + r.data.length ≤ a ∨ a + 16 ≤ r.addr.toNat) → (∃ r ∈ reqs, whole r) →
    ∃ q ∈ reqs, whole q ∧ ∀ r ∈ chooseBytes tick [16, 8] reqs, whole r → ∀ j < 16,
      r.data[a + j - r.addr.toNat]? = q.data[a + j - q.addr.toNat]?)

/-! The mill and the accumulator tiles. -/

/-- R84, R106, R107, R117, R210, R348, R363: MMA and SMMA complete where both formats suit the mill: each of the 256
elements of the tile is the exact chunk sums rounded in turn, added to what it held or, with OVW, to 0; SMMA takes an
operand element whose bitmap bit is 0 as 0; the account is charged, and the blocks are locked until the mill is done. R115:
one that adds to the tile first sets the flags of the outstanding operations on it.
R84, R113, R116, R308, R309: ACCRD completes with an outstanding block whose slots hold the tile's elements rounded to
its format, and zeroes the tile where it says so; ACCWR puts the block's codes into the tile; ACCWR.ZERO zeroes it.
Where a block's slots stand among registers and lanes is the model's choice (log 37), and so is the sign of a chunk sum in
which terms cancel (log 25). -/
def Obligations.MillAndTiles : Prop :=
  (∀ (s : State) (w : Seat) (i : Instr) (v : WMma) (sparse : Bool) (ea eb : DWord),
    s.issuing i = some w → (i = .mma v ∧ sparse = false) ∨ (i = .smma v ∧ sparse = true) → w.fr.active = w.t.live →
    entryOf w.x.fmtTable w.t.fmt 48 = some ea → entryOf w.x.fmtTable w.t.fmt 49 = some eb →
    millAccepts (Ent.of ea) (Ent.of eb) = true →
    let k := depthOf (Ent.of ea).wid (Ent.of ea).blk
    let kept (b : Nat) : Bool := !sparse || bitmapBit w.fr (vcOf v.x).toNat b
    let pair (n j : Nat) : Machine.Num × Machine.Num :=
      (if kept (k * (n / 16) + j) then blockNum w.fr (Ent.of ea) v.a.toNat (n / 16) j else .fin false 0 0,
        if kept (16 * k + k * (n % 16) + j) then blockNum w.fr (Ent.of eb) v.b.toNat (n % 16) j else .fin false 0 0)
    let old (n : Nat) : Nat := if v.ovw then 0 else (vget (w.g.tileAt v.acc.toNat) n 0).toNat
    let element (n : Nat) : Nat × Word := millElement k (old n) (pair n)
    let locks := blockLocks w.fr v.a.toNat 8 ||| blockLocks w.fr v.b.toNat 8 |||
      (if sparse then blockLocks w.fr (vcOf v.x).toNat 4 else 0)
    let t := if v.ovw then w.t else setMillFlags (fun x => x.tile == some v.acc.toNat) w.t
    ∃ tile, (∀ n < 256, vget tile n 0 = BitVec.ofNat 48 (element n).1) ∧
      exec i s = .next (w.passed i
        (charge (w.s.mapGang w.g.id fun g => { g with tiles := g.tiles.set v.acc.toNat tile }) w.l.rcd.acct
          fun x => { x with macs := x.macs + BitVec.ofNat 64 (256 * k) })
        { t with
          locks := w.t.locks ||| locks
          outstanding := t.outstanding ++
            [Landing.mk [] locks ((List.range 256).foldl (fun fl n => fl ||| (element n).2) 0) (some v.acc.toNat)] })) ∧
  ((∀ (s : State) (w : Seat) (i : Instr) (v : WAcc) (zero : Bool) (e : DWord),
    s.issuing i = some w → (i = .accrd v ∧ zero = false) ∨ (i = .accrdZero v ∧ zero = true) → w.l.hdr.regs ≠ 0 →
    w.fr.active = w.t.live → w.plainEntry (if v.x.isNone then 50 else fmtOf v.x) = some e →
    (Ent.of e).wid ≠ 64 → (Ent.of e).wid ≠ 0 →
    let f := Ent.of e
    let mode := w.mode v.x
    let tile := w.g.tileAt v.acc.toNat
    let element (n : Nat) : Nat × Word := f.round mode (satOf v.x) (w.draw mode n) (Ent.acc.decode (vget tile n 0).toNat)
    let m := if zero then w.s.mapGang w.g.id fun g => { g with tiles := g.tiles.set v.acc.toNat (Vector.replicate 256 0) }
      else w.s
    let old := setMillFlags (fun x => x.tile == some v.acc.toNat) w.t
    ∃ x, x.isBlock (w.slot v.r) ∧ x.locks = 0 ∧ x.tile = some v.acc.toNat ∧
      x.flags = (List.range 256).foldl (fun fl n => fl ||| (element n).2) 0 ∧
      (∀ n < 256, x.blockSlot (slotWidth f.wid) (n / 16) (n % 16) = (element n).1 % 2 ^ slotWidth f.wid) ∧
      exec i s = .next (w.passed i m { old with
        gens := if mode = 6 then vset w.t.gens w.fr.srg ((vget w.t.gens w.fr.srg (Gen.mk 0 0)).advance 256) else w.t.gens
        outstanding := old.outstanding ++ [x] })) ∧
  (∀ (s : State) (w : Seat) (v : WAcc) (e : DWord),
    s.issuing (.accwr v) = some w → w.fr.active = w.t.live →
    w.plainEntry (if v.x.isNone then 50 else fmtOf v.x) = some e → (Ent.of e).wid ≠ 64 → (Ent.of e).wid ≠ 0 →
    let f := Ent.of e
    let mode := w.mode v.x
    let element (n : Nat) : Nat × Word := Ent.acc.round mode (satOf v.x) (w.draw mode n)
      (f.decode (blockSlot w.fr v.r.toNat (slotWidth f.wid) (n / 16) (n % 16) % 2 ^ f.wid))
    ∃ tile, (∀ n < 256, vget tile n 0 = BitVec.ofNat 48 (element n).1) ∧
      exec (.accwr v) s = .next (w.passed (.accwr v)
        (w.s.mapGang w.g.id fun g => { g with tiles := g.tiles.set v.acc.toNat tile })
        { w.t with
          gens := if mode = 6 then vset w.t.gens w.fr.srg ((vget w.t.gens w.fr.srg (Gen.mk 0 0)).advance 256) else w.t.gens
          outstanding := w.t.outstanding ++
            [Landing.mk [] 0 ((List.range 256).foldl (fun fl n => fl ||| (element n).2) 0) (some v.acc.toNat)] })) ∧
  (∀ (s : State) (w : Seat) (st : Bool) (acc : BitVec 4) (x : Option XWord),
    s.issuing (.accwrZero st acc x) = some w → w.fr.active = w.t.live →
    exec (.accwrZero st acc x) s = .next (w.passed (.accwrZero st acc x)
      (w.s.mapGang w.g.id fun g => { g with tiles := g.tiles.set acc.toNat (Vector.replicate 256 0) }) w.t)))

/-! Caches, page tables, parked accesses and the adjoint twin. -/

/-- R96, R259: ICINV drops exactly the fetch lines that have a byte of its range, and the decoded operations of a page that
has one, on the benches of its scope. R96, R254: the TLBINVs drop the cached translations and the decoded operations of their
context for an address, of their context, or all; one waits while an access that was translated with what it names is still to
be performed, but for a twin access, which waits at its home with its block. R171, R257: CFLUSH changes no byte and dirties no line; it takes the lines of its range from the L1s and marks
their frames, and at SYSTEM scope leaves no line of it dirty; a twin page is skipped (R163). R291: there it waits for a port that retrains and to which it
has to write. -/
def Obligations.CacheMaintenance : Prop :=
  (∀ (s : State) (w : Seat) (v : WAddr2) (a n : DWord), s.issuing (.icinv v) = some w →
    w.fr.pair v.a.toNat = .u a → w.fr.reg v.b.toNat = .u n →
    let reached (b : Nat) : Prop := match scopeOf v.x with
      | 0 | 1 => b = ((w.g.place).map (·.bench)).getD 0
      | 2 => b / 48 = ((w.g.place).map (·.bench)).getD 0 / 48
      | _ => True
    ∃ fl dl, exec (.icinv v) s = .next (w.passed (.icinv v) { w.s with fetched := fl, decoded := dl } w.t) ∧
      fl.Sublist w.s.fetched ∧ dl.Sublist w.s.decoded ∧
      (∀ f ∈ w.s.fetched, f ∈ fl ↔ ¬ ((∃ j < (loOf n).toNat, (a.toNat + j) / 128 = f.line) ∧ reached f.bench)) ∧
      ∀ d ∈ w.s.decoded, d ∈ dl ↔
        ¬ ((∃ j < (loOf n).toNat, ∃ k < 4 * d.words.length, (a.toNat + j) / 4096 = (d.va + k) / 4096) ∧ reached d.bench)) ∧
  (∀ (s : State) (w : Seat) (i : Instr) (e : TlbEntry → Bool) (f : WalkEntry → Bool) (h : Nat → Nat → Bool),
    s.issuing i = some w →
    ((∃ v a, i = .tlbinv v ∧ w.fr.pair v.a.toNat = .u a ∧
        e = (fun e => e.ctx == w.g.ctx && decide (e.base ≤ a.toNat) && decide (a.toNat < e.base + e.size)) ∧
        f = (fun f => f.ctx == w.g.ctx && f.top == a.toNat / 2 ^ f.shift) ∧
        h = fun c x => c == w.g.ctx && (x / 4096 == a.toNat / 4096 ||
          w.s.tlb.any fun y => e y && decide (y.base ≤ x) && decide (x < y.base + y.size)) ) ∨
      (∃ st x, i = .tlbinvCtx st x ∧ e = (fun e => e.ctx == w.g.ctx) ∧ f = (fun f => f.ctx == w.g.ctx) ∧
        h = fun c _ => c == w.g.ctx) ∨
      (∃ st x, i = .tlbinvAll st x ∧ e = (fun _ => true) ∧ f = (fun _ => true) ∧ h = fun _ _ => true)) →
    let named (c : Nat) (r : LaneReq) : Prop := ∃ y ∈ r.held, h c y.va = true ∧ leafTwin y.leaf = false
    let used : Prop :=
      (∃ g ∈ w.s.gangs, ∃ t ∈ g.strips, ∃ l, t.wait = .access l ∧ ∃ a ∈ l, ∃ r ∈ a.lanes, named g.ctx r) ∨
        ∃ p ∈ w.s.peerWaits, ∃ r ∈ p.lanes, named p.req.ctx r
    (¬ used → exec i s = .next (w.passed i { w.s with
      tlb := w.s.tlb.filter fun y => !e y
      walks := w.s.walks.filter fun y => !f y
      decoded := w.s.decoded.filter fun d => !h d.ctx d.va } w.t)) ∧
    (used → exec i s = .next (w.again i w.s .drain))) ∧
  (∀ (s : State) (w : Seat) (i : Instr) (v : WAddr2) (a n : DWord), s.issuing i = some w →
    i = .cflush v ∨ i = .cflushInv v → w.fr.pair v.a.toNat = .u a → w.fr.reg v.b.toNat = .u n →
    let late : Bool := (rangePages a (loOf n)).any (flushWaits w.g.ctx w.t.priv w.s)
    (scopeOf v.x = 5 → late = true → exec i s = .next (w.again i w.s .drain)) ∧
    (scopeOf v.x ≠ 5 ∨ late = false →
      ∃ u, exec i s = .next (w.passed i u w.t) ∧ SameBytes w.s u ∧
        u = { w.s with
          device := { w.s.device with dirty := u.device.dirty, owned := u.device.owned, marks := u.device.marks }
          tier := { w.s.tier with dirty := u.tier.dirty, owned := u.tier.owned, marks := u.tier.marks }
          dev := { w.s.dev with accounts := u.dev.accounts }, tlb := u.tlb, walks := u.walks, tick := u.tick } ∧
        u.device.dirty.Sublist w.s.device.dirty ∧ u.tier.dirty.Sublist w.s.tier.dirty ∧
        u.device.owned.Sublist w.s.device.owned ∧ u.tier.owned.Sublist w.s.tier.owned ∧
        (scopeOf v.x ≠ 5 → u.device.dirty = w.s.device.dirty ∧ u.tier.dirty = w.s.tier.dirty ∧ u.dev = w.s.dev) ∧
        (∀ e pa, 0 < (loOf n).toNat → a.toNat % 4096 + (loOf n).toNat ≤ 4096 → a.toNat + (loOf n).toNat ≤ 2 ^ 57 →
          let hit (line : Nat) : Prop := ∃ j < (loOf n).toNat, (pa + j) / 128 = line
          ((translate w.s w.g.ctx a.toNat .read w.t.priv).1 = .ok (e, .device pa) → leafTwin e = true →
            u.device = w.s.device ∧ u.tier = w.s.tier) ∧
          ((translate w.s w.g.ctx a.toNat .read w.t.priv).1 = .ok (e, .device pa) → leafTwin e = false →
            (∀ o ∈ w.s.device.owned, (o ∈ u.device.owned ↔ ¬ hit o.2) ∧ (hit o.2 → o.2 / 32 ∈ u.device.marks)) ∧
            (scopeOf v.x = 5 → ∀ d ∈ w.s.device.dirty, d ∈ u.device.dirty ↔ ¬ hit d.line)) ∧
          ((translate w.s w.g.ctx a.toNat .read w.t.priv).1 = .ok (e, .tier pa) →
            (∀ o ∈ w.s.tier.owned, (o ∈ u.tier.owned ↔ ¬ hit o.2) ∧ (hit o.2 → o.2 / 32 ∈ u.tier.marks)) ∧
            (scopeOf v.x = 5 → ∀ d ∈ w.s.tier.dirty, d ∈ u.tier.dirty ↔ ¬ hit d.line)))))

/-- R255: PGMAP of a valid leaf writes it over an invalid entry that the walk reaches at its level, and the walk of the
address then ends at it; it changes nothing where the entry is valid or the walk does not reach it, and an entry that is
not a valid leaf is illegal. R257, R258: HARVEST of a part of one page clears the write marks of the frames that the
page's leaf maps and sets bit 10 of the leaf where one was set; it changes nothing where none was set or the walk
faults. R278, R298: an entry that reads as poison is none that PGMAP or a walk goes on with (log 39). -/
def Obligations.PageTables : Prop :=
  (∀ (s : State) (w : Seat) (i : Instr) (v : WAddr2) (level : Nat) (a e : DWord), s.issuing i = some w →
    (i = .pgmapL0 v ∧ level = 0) ∨ (i = .pgmapL1 v ∧ level = 1) →
    w.fr.pair v.a.toNat = .u a → w.fr.pair v.b.toNat = .u e →
    let valid : Prop := a.toNat < 2 ^ 57 ∧ entryV e = true ∧ entryLf e = true ∧ entryReserved w.s e level a.toNat = false
    (valid → ∀ at_ old, slotFor w.s w.g.ctx w.x.root a.toNat level = some at_ → entryRead w.s w.g.ctx at_ = some old →
      entryV old = false →
      ∃ u, exec i s = .next (w.passed i u w.t) ∧ u = { w.s with device := u.device, wrote := u.wrote } ∧
        (walkFresh u w.g.ctx w.x.root a.toNat).1 = .leaf e level ∧ entryRead u w.g.ctx at_ = some e ∧
        ∀ x, (∀ j < 8, x ≠ .device (at_ + j)) → u.byteAt x = w.s.byteAt x) ∧
    (valid → (∀ at_ old, slotFor w.s w.g.ctx w.x.root a.toNat level = some at_ → entryRead w.s w.g.ctx at_ = some old →
        entryV old = true) →
      exec i s = .next (w.passed i w.s w.t)) ∧
    (¬ valid →
      ∃ u, exec i s = .next u ∧ (u.strip? w.g.id w.t.idx).any (·.halted) = true)) ∧
  (∀ (s : State) (w : Seat) (v : WAddr2) (a n : DWord), s.issuing (.harvest v) = some w →
    w.fr.pair v.a.toNat = .u a → w.fr.reg v.b.toNat = .u n →
    (∃ u, exec (.harvest v) s = .next (w.passed (.harvest v) u w.t) ∧ u = { w.s with device := u.device, tier := u.tier }) ∧
    (0 < (loOf n).toNat → a.toNat % 4096 + (loOf n).toNat ≤ 4096 → a.toNat + (loOf n).toNat ≤ 2 ^ 57 →
      (∀ c k, (walkFresh w.s w.g.ctx w.x.root a.toNat).1 = .fault c k → exec (.harvest v) s = .next (w.passed (.harvest v) w.s w.t)) ∧
      (∀ e l, (walkFresh w.s w.g.ctx w.x.root a.toNat).1 = .leaf e l →
        let frames (f : Nat) : Prop := if l = 0 then f = frameFor e a.toNat else leafFrame e ≤ f ∧ f < leafFrame e + 512
        let ram := if leafTgt e = 0 then w.s.device else w.s.tier
        (1 < leafTgt e ∨ (∀ f ∈ ram.marks, ¬ frames f) → exec (.harvest v) s = .next (w.passed (.harvest v) w.s w.t)) ∧
        (leafTgt e ≤ 1 → ∀ f ∈ ram.marks, frames f → ∃ at_ rest, slotFor w.s w.g.ctx w.x.root a.toNat l = some at_ ∧
          tdiRefuses w.s w.g.ctx at_ 8 = false ∧
          rest.Sublist ram.marks ∧ (∀ f ∈ ram.marks, f ∈ rest ↔ ¬ frames f) ∧
          let u := if leafTgt e = 0 then { w.s with device := { w.s.device with marks := rest } }
            else { w.s with tier := { w.s.tier with marks := rest } }
          exec (.harvest v) s = .next (w.passed (.harvest v)
            (deviceWrite u w.g.ctx (some (acctOf w.s w.g.launch)) at_ (toBytes (e ||| 0x400).toNat 8)) w.t)))))

/-- R264: an LD without S of which some lanes fault in their walk goes on in user mode: the lanes that fault stand in
the replay queue as one access, and the others' values are outstanding. R264, R267: RQREL performs the parked accesses
again in program order: what faults again stays in the queue, with nothing beside it. A plain load alone in the queue
writes its registers at once, in L form, in the lanes that had faulted, where no older result overwrites it. R65: in a launch
whose header gives no registers RQREL of an access that writes a v register is an illegal word in supervisor mode. -/
def Obligations.ParkedAccesses : Prop :=
  (∀ (s : State) (w : Seat) (v : WMem), s.issuing (.ld v) = some w → w.l.hdr.regs ≠ 0 → fmtOf v.x = 63 →
    lastOf v.x = false → v.s = false → w.t.priv = false →
    let reqs := w.parts false v (fun _ => []) (fun _ => [])
    let (ps, u) := w.plans .read false reqs
    (∀ r ∈ reqs, inTwinWindow r.addr.toNat = false) → (∀ p ∈ ps, (p.req.cause ≠ 0 ∧ p.segs = []) ∨ p.plain u w.g.ctx true) →
    (∃ p ∈ ps, p.req.cause ≠ 0) →
    let bytes (l : Nat) : List Byte := ((ps.find? fun p => p.req.lane == l).map fun p => p.targets.map u.byteAt).getD []
    let good : Mask := maskOf fun l => ps.any fun p => p.req.cause == 0 && p.req.lane == l
    ∃ m t a o, exec (.ld v) s = .next (w.passed (.ld v) m t) ∧ OnlyRead u m w.l.rcd.acct ∧
      t = { w.onlyRegs t with seq := w.t.seq + 1, replay := [a], outstanding := t.outstanding } ∧ a.pos = w.t.seq ∧
      a.lanes = (ps.filter fun p => p.req.cause != 0).map (·.req) ∧ a.kind = .load ∧ a.pc = w.t.pc ∧
      a.dst = w.slot v.d ∧ a.regs = szCount v.sz ∧ a.size = 2 ^ v.sz.toNat ∧ a.priv = false ∧
      Keeps w { t with outstanding := o } [] (w.lastRead v.la v.a 2) ∧
      (good = 0 → t.outstanding = o) ∧
      (good ≠ 0 → ∃ x, t.outstanding = o ++ [x] ∧ x.holds (w.slot v.d) (szCount v.sz) good false fun l k =>
        wordOf (((bytes l).drop (4 * k)).take 4))) ∧
  (∀ (s : State) (w : Seat) (st : Bool), s.issuing (.rqrel st) = some w →
    (w.l.hdr.regs ≠ 0 ∨ (∀ a ∈ w.t.replay, a.regs = 0 ∨ 64 ≤ a.dst) →
      ∃ u t, exec (.rqrel st) s = .next (w.passed (.rqrel st) u t) ∧
      ∀ b ∈ t.replay, ∃ a ∈ w.t.replay, b = { a with replayed := true, lanes := b.lanes } ∧ b.lanes ≠ [] ∧
        ∀ r ∈ b.lanes, r.cause ≠ 0) ∧
    (w.l.hdr.regs = 0 → (∃ a ∈ w.t.replay, a.regs ≠ 0 ∧ a.dst < 64) →
      ∃ u r, exec (.rqrel st) s = .next u ∧ (u.ctx? w.g.ctx).bind (·.fatal) = some r ∧ r.cause = 1 ∧ r.inner = 8) ∧
    (w.t.replay = [] → exec (.rqrel st) s = .next (w.passed (.rqrel st) w.s w.t)) ∧
    (∀ a, w.t.replay = [a] → a.kind = .load → a.entry = none → a.last = false → a.uniform = false → a.dst + a.regs ≤ 80 →
      a.lanes ≠ [] → w.l.hdr.regs ≠ 0 →
      let (ps, u) := planAll w.s w.g.ctx .read a.priv false a.lanes
      (∀ p ∈ ps, p.plain u w.g.ctx true) →
      let bytes (l : Nat) : List Byte := ((ps.find? fun p => p.req.lane == l).map fun p => p.targets.map u.byteAt).getD []
      let hit (l : Nat) : Prop := ∃ r ∈ a.lanes, r.lane = l
      ∃ m t, exec (.rqrel st) s = .next (w.passed (.rqrel st) m t) ∧ OnlyRead u m w.l.rcd.acct ∧
        t = { w.t with regs := t.regs, kregs := t.kregs, outstanding := t.outstanding, replay := [] } ∧
        (∀ k < a.regs, ∀ p ∈ t.partsOn (a.dst + k), ∀ l < 32, hit l → laneIn p.mask l = false) ∧
        (∀ n < 80, n < a.dst ∨ a.dst + a.regs ≤ n → t.partsOn n = w.t.partsOn n) ∧
        (∀ k < a.regs, ∀ l < 32,
          (hit l → t.word w.coord (a.dst + k) l = wordOf (((bytes l).drop (4 * k)).take 4)) ∧
          (¬ hit l → t.word w.coord (a.dst + k) l = w.t.word w.coord (a.dst + k) l)) ∧
        (∀ n < 80, n < a.dst ∨ a.dst + a.regs ≤ n → ∀ l < 32, t.word w.coord n l = w.t.word w.coord n l)))

/-- R223, R224: the count word of a block. Uses make it OPEN with their number, or add to it; an accumulation takes its
uses off, and leaves READY where it takes the last; the consuming read of a READY block leaves IDLE and elements of 0.
No other byte changes. R225, R227: an LD of twin-enabled pages outside replay completes with its values, and each count
word of a sector that it touches gets one use for each lane that touches it. -/
def Obligations.TwinAccesses : Prop :=
  (∀ (s : State) (key n : Nat), 0 < n → n < 2 ^ 24 →
    let only (u : State) : Prop := u = { s with device := u.device }
    (addOverflows s key n = false → let u := addUses s key n
      only u ∧ countState u key = 1 ∧ countUses u key = n + (if countState s key = 1 then countUses s key else 0) ∧
      ∀ a, a < key ∨ key + 4 ≤ a → u.byteAt (.device a) = s.byteAt (.device a)) ∧
    (countState s key = 1 → n ≤ countUses s key → let u := subUses s key n
      subUnderflows s key n = false ∧ only u ∧ countUses u key = countUses s key - n ∧
      countState u key = (if countUses s key = n then 2 else 1) ∧
      ∀ a, a < key ∨ key + 4 ≤ a → u.byteAt (.device a) = s.byteAt (.device a)) ∧
    (∀ b : TwinBlock, b.key = key → b.pa + b.len ≤ key ∨ key + 4 ≤ b.pa →
      (countState s key ≠ 2 → consume s b = s) ∧
      (countState s key = 2 → let u := consume s b
        only u ∧ countState u key = 0 ∧ countUses u key = 0 ∧
        (∀ j < b.len, u.byteAt (.device (b.pa + j)) = 0) ∧
        ∀ a, a < key ∨ key + 4 ≤ a → a < b.pa ∨ b.pa + b.len ≤ a → u.byteAt (.device a) = s.byteAt (.device a)))) ∧
  (∀ (s : State) (w : Seat) (v : WMem), s.issuing (.ld v) = some w → w.l.hdr.regs ≠ 0 → fmtOf v.x = 63 →
    lastOf v.x = false → w.g.replayMode = false →
    let reqs := w.parts false v (fun _ => []) (fun _ => [])
    let (ps, u) := w.plans .read false reqs
    (∀ r ∈ reqs, inTwinWindow r.addr.toNat = false) →
    (∀ p ∈ ps, p.req.cause = 0 ∧ ∀ g ∈ p.segs, leafTwin g.leaf = false ∧ segTrouble u w.g.ctx true g = .none ∧
      (match g.tgt with
       | .device pa => inShadow u pa = false
       | .peer _ _ => False
       | _ => True) ∧
      (leafTw g.leaf = true → sectorKeys u w.g.ctx g ≠ none)) →
    let lanes (k : Nat) : Nat := (ps.filter fun p => p.segs.any fun g =>
      leafTw g.leaf && ((sectorKeys u w.g.ctx g).getD []).contains k).length
    (∀ k, 0 < lanes k → countState u k = 1 → countUses u k + lanes k < 2 ^ 24) →
    let bytes (l : Nat) : List Byte := ((ps.find? fun p => p.req.lane == l).map fun p => p.targets.map u.byteAt).getD []
    ∃ t x m, exec (.ld v) s = .next (w.passed (.ld v) m t) ∧ t = { w.onlyRegs t with seq := w.t.seq + 1 } ∧
      w.lands t x (w.lastRead v.la v.a 2) ∧
      (x.holds (w.slot v.d) (szCount v.sz) w.fr.active false fun l k => wordOf (((bytes l).drop (4 * k)).take 4)) ∧
      OnlyMemory u m w.l.rcd.acct ∧ (∀ a, m.byteAt (.tier a) = u.byteAt (.tier a)) ∧ (∀ a, m.byteAt (.host a) = u.byteAt (.host a)) ∧
      (∀ k, 0 < lanes k →
        countState m k = 1 ∧ countUses m k = lanes k + (if countState u k = 1 then countUses u k else 0)) ∧
      ∀ a, (∀ k, 0 < lanes k → a < k ∨ k + 4 ≤ a) → m.byteAt (.device a) = u.byteAt (.device a))

/-! Engine programs. -/

/-- R203, R293: EEND ends the program; ELOOP counts its register down and goes back while it is not 0; EWAIT goes on
where its condition holds for the word it reads, and waits where it does not; ESIG stores its word, at FABRIC or SYSTEM
scope only once the program's writes to peers are acknowledged. -/
def Obligations.EngineControl : Prop :=
  (∀ (s : State) (p : Prog), s.running .eend = some p →
    exec .eend s = .next ((retireGang (s.mapProg p.id fun q => { q with status := .ended }) p.gang).performed p id)) ∧
  (∀ (s : State) (p : Prog) (ea : BitVec 4) (off : BitVec 12), s.running (.eloop ea off) = some p →
    let n := p.ereg ea
    (n = 0 → exec (.eloop ea off) s = .next (s.onward p id)) ∧
    (n = 1 → exec (.eloop ea off) s = .next (s.onward p fun q => q.put ea 0)) ∧
    (1 < n.toNat → exec (.eloop ea off) s = .next (s.performed p fun q =>
      { q.put ea (n - 1) with pc := q.pc + 4 * off.signExtend 64, status := .running }))) ∧
  (∀ (s : State) (p : Prog) (ea eb cond : BitVec 4) (rs : List Plan) (u : State),
    let i := Instr.ewait ea eb cond
    let a := p.ereg ea
    s.running i = some p → cond.toNat < 4 → a.toNat < 2 ^ 57 → a.toNat % 4 = 0 → inTwinWindow a.toNat = false →
    p.goes s [(a, 4)] [] rs [] u →
    let word := wordOf ((bytesOf u rs).headD [])
    let n := loOf (p.ereg eb)
    let met : Prop := (cond = 0 ∧ word = n) ∨ (cond = 1 ∧ word ≠ n) ∨ (cond = 2 ∧ n.toNat ≤ word.toNat) ∨
      (cond = 3 ∧ word.toNat < n.toNat)
    (met → exec i s = .next (u.onward p id)) ∧ (¬ met → exec i s = .next (p.holds s i))) ∧
  (∀ (s : State) (p : Prog) (ea eb : BitVec 4) (ws : List Plan) (u : State),
    let i := Instr.esig ea eb
    let a := p.ereg ea
    s.running i = some p → a.toNat < 2 ^ 57 → a.toNat % 4 = 0 → inTwinWindow a.toNat = false →
    (4 ≤ p.scope → p.unacked ≠ 0 → exec i s = .next (p.holds s i)) ∧
    (p.scope < 4 ∨ p.unacked = 0 → p.changes s [] [(a, 4)] [] ws u →
      ∃ m, exec i s = .next (m.onward p id) ∧ Stored u m (p.acct s) ws [toBytes (loOf (p.ereg eb)).toNat 4]))

/-- R91, R200, R203, R370: an engine program stops with 0x21 at a word of a strip and at a command of another class,
with 0x10 at an address with a bit of [63:57] set, and with 0x22 at a word address that is not aligned or lies in the
twin window; the command has no effect. -/
def Obligations.EngineStops : Prop :=
  ∀ (s : State) (p : Prog) (i : Instr), s.running i = some p →
    (isEvent i = false → isEngineWord i = false → exec i s = .next (p.stops s 0x21 0)) ∧
    ((∃ dims cv sg ss w, i = .cpy dims cv sg ss w) ∨ (∃ bd w, i = .rdst bd w) → p.cls ≠ .cart →
      exec i s = .next (p.stops s 0x21 0)) ∧
    ((∃ a b c, i = .merge a b c) → p.cls ≠ .full → exec i s = .next (p.stops s 0x21 0)) ∧
    ((∃ o w, i = .tmma o w) → p.cls ≠ .mill → exec i s = .next (p.stops s 0x21 0)) ∧
    ((∃ o w, i = .smv o w) → (∀ n, p.cls ≠ .stack n) → exec i s = .next (p.stops s 0x21 0)) ∧
    ((∃ op red a b c, i = .coll op red a b c) → p.cls ≠ .weav → exec i s = .next (p.stops s 0x21 0)) ∧
    (∀ ea eb, (i = .esig ea eb ∨ ∃ cond : BitVec 4, cond.toNat < 4 ∧ i = .ewait ea eb cond) →
      (2 ^ 57 ≤ (p.ereg ea).toNat → exec i s = .next (p.stops s 0x10 (p.ereg ea &&& 0x01FFFFFFFFFFFFFF))) ∧
      ((p.ereg ea).toNat < 2 ^ 57 → (p.ereg ea).toNat % 4 ≠ 0 ∨ inTwinWindow (p.ereg ea).toNat = true →
        exec i s = .next (p.stops s 0x22 0)))

/-- R204, R205: CPY whose accesses go through plainly and whose source and destination lie apart completes: every row of
the box holds its source row, raw or converted, the address registers advance, and then the signal word is stored. The
conversion takes each element's number into the destination's format, rounded once. Where the scales of a block-scaled row
lie whose length is no multiple of the block, and those of a plane, is the model's choice (log 11). -/
def Obligations.EngineCopies : Prop :=
  (∀ (s : State) (p : Prog) (dims : BitVec 2) (cv sg ss : Bool) (e : WEng) (ds rs ws : List Plan) (s1 s2 : State),
    let i := Instr.cpy dims cv sg ss e
    s.running i = some p → p.cls = .cart → dims ≠ 3 → (ss = true → sg = true) →
    let src := p.ereg e.ea
    let dst := p.ereg e.eb
    let sig := p.ereg e.ed
    (p.ereg e.ec).toNat < 2 ^ 57 → (p.ereg e.ec).toNat % 8 = 0 → src.toNat < 2 ^ 57 → dst.toNat < 2 ^ 57 →
    (sg = true → ss = false → sig.toNat < 2 ^ 57 ∧ sig.toNat % 4 = 0 ∧ inTwinWindow sig.toNat = false) →
    p.goes s [(p.ereg e.ec, 64)] [] ds [] s1 →
    let b := (bytesOf s1 ds).headD []
    let k := copyOf p b
    let table := p.table
    let rows := copyRows k
    let ranges (f : Option (Nat × DWord)) (base sy sz : DWord) : List (DWord × Nat) :=
      boxRanges table (if cv then some (entOf f) else none) base sy sz k.nx rows
    copyOk b k dims.toNat cv = true →
    p.goes s1 (ranges k.src src k.sy k.sz) (ranges k.dst dst k.dy k.dz) rs ws s2 → ¬ placesMeet rs ws →
    rowsApart (ranges k.dst dst k.dy k.dz) →
    let done (u : State) : State := u.onward p fun q =>
      let q := q.put e.ea (q.ereg e.ea + k.sadv)
      (q.put e.eb (q.ereg e.eb + k.dadv)).drew (if cv then k.rnd else 0) (k.nx * k.ny * k.nz)
    ∃ m, Stored s2 m (p.acct s) ws (copyData table p k cv rows (bytesOf s2 rs)) ∧
      (sg = false → exec i s = .next (done m)) ∧
      (sg = true → ss = true → exec i s = .next (done (noteWrote p.ctx (toBytes k.sig.toNat 4) (m.mapGang p.gang fun g =>
        scratchPut (((m.launch? p.launch).map (·.hdr.scratch)).getD 0) (loOf sig).toNat g (toBytes k.sig.toNat 4))))) ∧
      (sg = true → ss = false → ∀ vs m1, p.goes m [] [(sig, 4)] [] vs m1 →
        ∃ m2, exec i s = .next (done m2) ∧ Stored m1 m2 (p.acct s) vs [toBytes k.sig.toNat 4])) ∧
  (∀ (table : Vector DWord 48) (p : Prog) (k : Copy) (rows : List BoxRow) (bytes : List (List Byte)),
    copyData table p k false rows bytes = bytes ∧
    ((entOf k.src).blk = 0 → (entOf k.dst).blk = 0 → ((entOf k.dst).wid % 8 = 0 ∨ (entOf k.dst).wid ≤ 32) →
      let out := copyData table p k true rows bytes
      out.length = rows.length ∧
      ∀ n r, rows[n]? = some r → ∀ x < k.nx,
        rowCode (out.getD n []) (entOf k.dst).wid x = ((entOf k.dst).round k.rnd k.sat (engDraw p k.rnd (x + k.nx * r.i))
          ((entOf k.src).decode (rowCode (bytes.getD n []) (entOf k.src).wid x))).1 % 2 ^ (entOf k.dst).wid))

/-- R206, R207, R294: RDST outside the twin window whose accesses go through plainly completes. Without the log each
element of the destination tile takes the sum of what it held and its source element, rounded once; with it a record of the
tile is appended to the context's log, and the log's counts advance. The barrier word, where there is one, then decreases, at
a FORK scope of FABRIC or SYSTEM only once the program's writes to peers are acknowledged.
R208: MERGE whose accesses go through plainly completes: each destination element that the folded records name, and that
no other names with another format or stride, takes the sum of what it held and its fold, rounded once; where the
descriptor says so the log's TAIL and COUNT become 0. That RND has to be 1 to 6 with the log too is the model's choice (log
41), and so is that MERGE's own FMT resolves the codes 48 to 51 in a record (log 41). -/
def Obligations.EngineReductions : Prop :=
  (∀ (s : State) (p : Prog) (bd : Bool) (e : WEng) (ds : List Plan) (s1 : State),
    let i := Instr.rdst bd e
    s.running i = some p → p.added = none → p.cls = .cart → (bd = true ∨ e.ed = 0) →
    let src := p.ereg e.ea
    let dst := p.ereg e.eb
    let bar := p.ereg e.ed
    (p.ereg e.ec).toNat < 2 ^ 57 → (p.ereg e.ec).toNat % 8 = 0 → src.toNat < 2 ^ 57 → dst.toNat < 2 ^ 57 →
    (bd = true → bar.toNat < 2 ^ 57) → p.goes s [(p.ereg e.ec, 48)] [] ds [] s1 →
    let b := (bytesOf s1 ds).headD []
    let k := reduceOf p b
    let sf := entOf k.src
    let df := entOf k.dst
    reduceOk b k false = true → touchesTwins (reduceRanges k dst) = false →
    let reads := rowRanges src k.sstr k.rows k.cols sf.wid
    let writes := rowRanges dst k.dstr k.rows k.cols df.wid
    let after (q : Prog) : Prog :=
      let q := q.put e.ea (q.ereg e.ea + k.sadv)
      (q.put e.eb (q.ereg e.eb + k.dadv)).drew k.rnd (k.rows * k.cols)
    let late : Prop := 4 ≤ p.scope ∧ p.unacked ≠ 0
    let finish (m : State) : Prop :=
      (bd = false → exec i s = .next (m.onward p after)) ∧
      (bd = true → late →
        exec i s = .next (m.performed p fun q => { after q with status := .waiting i, since := m.clock, added := some bar })) ∧
      (bd = true → ¬ late → ∀ vs m1, p.changes m [] [(bar, 4)] [] vs m1 →
        ∃ m2, exec i s = .next (m2.onward p after) ∧
          Stored m1 m2 (p.acct s) vs [toBytes (wordOf ((bytesOf m1 vs).headD []) - 1).toNat 4])
    ((s1.cfg p.ctx).wglog = false → ∀ rs ws s2, p.changes s1 reads writes rs ws s2 → placesApart ws →
      ∃ m, Stored s2 m (p.acct s) ws ((List.range k.rows).map fun r => packRow df.wid ((List.range k.cols).map fun c =>
          (df.round k.rnd k.sat (engDraw p k.rnd (r * k.cols + c))
            (Machine.Num.add (k.rnd == 4) (df.decode (rowCode ((bytesOf s2 ws).getD r []) df.wid c))
              (sf.decode (rowCode ((bytesOf s2 rs).getD r []) sf.wid c)))).1)) ∧ finish m) ∧
    ((s1.cfg p.ctx).wglog = true → ∀ hs s2, p.goes s1 [((s1.cfg p.ctx).logbase, 16)] [] hs [] s2 →
      let h := (bytesOf s2 hs).headD []
      let tail := (dwordAt h 0).toNat
      let n := 32 + 8 * k.rows * k.cols
      64 + tail + n ≤ (s1.cfg p.ctx).logsize.toNat →
      ∀ rs ws s3, p.goes s2 reads [((s1.cfg p.ctx).logbase + BitVec.ofNat 64 (64 + tail), n), ((s1.cfg p.ctx).logbase, 16)]
          rs ws s3 →
        ∃ m, Stored s3 m (p.acct s) ws [
            toBytes dst.toNat 8 ++ toBytes k.dstr.toNat 8 ++ toBytes k.rows 2 ++ toBytes k.cols 2 ++ toBytes k.code 1 ++
              List.replicate 11 0 ++ (bytesOf s3 rs).flatMap (fun r => (List.range k.cols).flatMap fun c =>
                toBytes (Ent.acc.round 1 false 0 (sf.decode (rowCode r sf.wid c))).1 8),
            toBytes (tail + n) 8 ++ toBytes ((dwordAt h 8).toNat + 1) 8] ∧ finish m)) ∧
  (∀ (s : State) (p : Prog) (e : WEng) (a : DWord) (vs : List Plan) (m1 : State),
    let i := Instr.rdst true e
    s.running i = some p → p.added = some a → p.cls = .cart →
    (p.unacked ≠ 0 → exec i s = .next (p.holds s i)) ∧
    (p.unacked = 0 → p.changes s [] [(a, 4)] [] vs m1 →
      ∃ m2, exec i s = .next (m2.onward p fun q => { q with added := none }) ∧
        Stored m1 m2 (p.acct s) vs [toBytes (wordOf ((bytesOf m1 vs).headD []) - 1).toNat 4])) ∧
  (∀ (s : State) (p : Prog) (ea eb ec : BitVec 4) (ds hs ws : List Plan) (s1 s2 s3 s4 : State) (fs : List Fold),
    let i := Instr.merge ea eb ec
    s.running i = some p → p.cls = .full → (p.ereg ec).toNat < 2 ^ 57 → (p.ereg ec).toNat % 8 = 0 →
    (p.ereg ea).toNat < 2 ^ 57 → p.goes s [(p.ereg ec, 8)] [] ds [] s1 →
    let b := (bytesOf s1 ds).headD []
    let rnd := fieldAt b 0 0 3
    let sat := fieldAt b 0 3 1 == 1
    let reset := fieldAt b 0 4 1 == 1
    fieldAt b 0 5 59 = 0 → rndOk rnd = true → p.goes s1 [(p.ereg ea, 16)] [] hs [] s2 →
    let count := (dwordAt ((bytesOf s2 hs).headD []) 8).toNat
    let want := (p.ereg eb).toNat
    foldLog p (if want = 0 ∨ count < want then count else want) (p.ereg ea + 64) (Folded.mk s2 [] none) = Folded.mk s3 fs none →
    (∀ f ∈ fs, reducible (entOf (engEntry p f.code)) = true) →
    let wid (f : Fold) : Nat := (entOf (engEntry p f.code)).wid / 8
    p.changes s3 [] (fs.map (fun f => (f.addr, wid f)) ++ if reset then [(p.ereg ea, 16)] else []) [] ws s4 → placesApart ws →
    foldsClash p fs = false →
    ∃ m, exec i s = .next (m.onward p fun q => q.drew rnd fs.length) ∧
      Stored s4 m (p.acct s) ws ((fs.zipIdx.map fun (f, n) =>
        let d := entOf (engEntry p f.code)
        toBytes (d.round rnd sat (engDraw p rnd n) (Machine.Num.add (rnd == 4)
          (d.decode (ofBytes ((bytesOf s4 ws).getD n []))) (Ent.acc.decode f.acc))).1 (d.wid / 8)) ++
        if reset then [List.replicate 16 0] else []))

/-- R117, R118, R210, R212, R213: TMMA and SMV whose accesses go through plainly complete: each element of the result is
the exact chunk sums of its products, rounded in turn, from what C held, or from 0 with OVW and for Y, rounded to the
result's format; and the account is charged the multiply-adds. The sign of a sum in which terms cancel is the model's choice
(log 25), and so is where the scales of a row lie whose length is no multiple of the block (log 11). -/
def Obligations.EngineMatrices : Prop :=
  (∀ (s : State) (p : Prog) (ovw : Bool) (e : WEng) (ds : List Plan) (s1 : State),
    let i := Instr.tmma ovw e
    s.running i = some p → p.cls = .mill → (p.ereg e.ea).toNat < 2 ^ 57 → (p.ereg e.ea).toNat % 8 = 0 →
    p.goes s [(p.ereg e.ea, 64)] [] ds [] s1 →
    let b := (bytesOf s1 ds).headD []
    let k := mulOf p b
    let m := (p.ereg e.eb).toNat
    let n := (p.ereg e.ec).toNat
    let d := (p.ereg e.ed).toNat
    mulOk b k m n d = true → k.a.toNat < 2 ^ 57 → k.b.toNat < 2 ^ 57 → k.c.toNat < 2 ^ 57 →
    let af := entOf k.af
    let bf := entOf k.bf
    let cf := entOf k.cf
    let table := p.table
    let ra := operandRows af k.a k.lda k.ta m d
    let sa := scaleRows table af k.a k.lda d m
    let rb := operandRows bf k.b k.ldb (!k.tb) n d
    let sb := scaleRows table bf k.b k.ldb d n
    let rc := operandRows cf k.c k.ldc false m n
    (m = 0 ∨ n = 0 → exec i s = .next (s1.onward p id)) ∧
    (m ≠ 0 → n ≠ 0 → ∀ pa qa pb qb pc ws s2, pa.length = ra.length → qa.length = sa.length → pb.length = rb.length →
      qb.length = sb.length →
      p.goes s1 (ra ++ sa ++ rb ++ sb ++ if ovw then [] else rc) rc (pa ++ qa ++ pb ++ qb ++ pc) ws s2 → rowsApart rc →
      let ma := Matrix.mk af (bytesOf s2 pa) (bytesOf s2 qa)
      let mb := Matrix.mk bf (bytesOf s2 pb) (bytesOf s2 qb)
      let start (r c : Nat) : Nat := if ovw then 0
        else (Ent.acc.round 1 false 0 (cf.decode (rowCode ((bytesOf s2 pc).getD r []) cf.wid c))).1
      ∃ u, exec i s = .next ((charge u (p.acct s) fun x =>
          { x with macs := x.macs + BitVec.ofNat 64 (m * n * d) }).onward p fun q => q.drew k.rnd (m * n)) ∧
        Stored s2 u (p.acct s) ws ((List.range m).map fun r => packRow cf.wid ((List.range n).map fun c =>
          (cf.round k.rnd k.sat (engDraw p k.rnd (r * n + c)) (Ent.acc.decode
            (mulElement (depthOf af.wid af.blk) d (start r c) (ma.at_ table k.ta r) (mb.at_ table (!k.tb) c)))).1)))) ∧
  (∀ (s : State) (p : Prog) (wide : Bool) (e : WEng) (ds : List Plan) (s1 : State),
    let i := Instr.smv wide e
    s.running i = some p → (∃ n, p.cls = .stack n) → (p.ereg e.ea).toNat < 2 ^ 57 → (p.ereg e.ea).toNat % 8 = 0 →
    p.goes s [(p.ereg e.ea, 48)] [] ds [] s1 →
    let b := (bytesOf s1 ds).headD []
    let k := smvOf p b
    smvOk b k wide = true → (p.ereg e.eb).toNat < 2 ^ 57 → (p.ereg e.ec).toNat < 2 ^ 57 → (p.ereg e.ed).toNat < 2 ^ 57 →
    let af := entOf k.af
    let bf := entOf k.bf
    let yf := entOf k.yf
    let table := p.table
    let rb := operandRows bf (p.ereg e.ec) k.ldb false k.rows k.cols
    let sb := scaleRows table bf (p.ereg e.ec) k.ldb k.cols k.rows
    let ra := operandRows af (p.ereg e.eb) k.lda false k.ncol k.cols
    let ry := operandRows yf (p.ereg e.ed) k.ldy false k.ncol k.rows
    (∀ q ∈ (planAll s1 p.ctx .read p.priv false (engReqs (rb ++ sb))).1, q.req.cause = 0 ∧ outsideStack p.unit_ q = false) →
    ∀ pb qb pa ws s2, pb.length = rb.length → qb.length = sb.length →
      p.goes s1 (rb ++ sb ++ ra) ry (pb ++ qb ++ pa) ws s2 → rowsApart ry →
      let ma := Matrix.mk af (bytesOf s2 pa) []
      let mb := Matrix.mk bf (bytesOf s2 pb) (bytesOf s2 qb)
      ∃ u, exec i s = .next ((charge u (p.acct s) fun x =>
          { x with macs := x.macs + BitVec.ofNat 64 (k.rows * k.cols * k.ncol) }).onward p fun q =>
            q.drew k.rnd (k.ncol * k.rows)) ∧
        Stored s2 u (p.acct s) ws ((List.range k.ncol).map fun c => packRow yf.wid ((List.range k.rows).map fun r =>
          (yf.round k.rnd k.sat (engDraw p k.rnd (c * k.rows + r))
            (Ent.acc.decode (smvElement k.cols (ma.at_ table false c) (mb.at_ table false r)))).1)))

/-- R214: COLL of a rank that is alone in its group completes at once: its buffer takes its own elements, rounded to the
wire's format and back. In a larger group the program enters the collective with its own part and waits there for the
other ranks, unless a collective with its tag is under way on this rank, for which it waits. A rank that joins is noted;
with the last one every program stops with 0x22 where their parts differ or one is bad, and else the buffer takes the
results: the source's elements in a broadcast or an all-gather, and in an all-reduce of two ranks the sum, each step
rounded; the links that the payload bytes charged go over are the model's choice (log 9), and so is that an all-gather runs
with any reduction code but 3 (log 26). -/
def Obligations.EngineCollectives : Prop :=
  (∀ (s : State) (p : Prog) (op : CollOp) (red : BitVec 2) (ea eb ec : BitVec 4) (ds : List Plan) (s1 : State) (l : Launch),
    let i := Instr.coll op red ea eb ec
    s.running i = some p → p.cls = .weav → red ≠ 3 → (op = .broadcast → red = 0) → (p.ereg ec).toNat < 2 ^ 57 →
    p.goes s [(p.ereg ec, 32)] [] ds [] s1 → s.launch? p.launch = some l →
    let own := collPart p l op red (p.ereg ec) (p.ereg ea) (p.ereg eb).toNat ((bytesOf s1 ds).headD [])
    (collBusy s1 p l own.tag = true → exec i s = .next (p.holds s i)) ∧
    (collBusy s1 p l own.tag = false → 1 < l.group.nrank →
      exec i s = .next (s1.performed p fun q => { q with status := .collective i own [] [], since := s1.clock })) ∧
    (collBusy s1 p l own.tag = false → l.group.nrank = 1 → l.group.rank = 0 → own.ok = true →
      let bf := Ent.of own.bfmt
      let wf := Ent.of own.wfmt
      let n := own.count
      let buf := if n = 0 then [] else [(p.ereg ea, rowBytes n bf.wid)]
      ∀ rs ws s2, p.goes s1 buf buf rs ws s2 →
        ∃ m, exec i s = .next (m.onward p fun q => q.drew own.rnd.toNat n) ∧
          Stored s2 m (p.acct s) ws [spanPut ((bytesOf s2 ws).headD []) 0 bf.wid 0 ((List.range n).map fun j =>
            (bf.round 1 false 0 (wf.decode (wf.round own.rnd.toNat own.sat (engDraw p own.rnd.toNat j)
              (bf.decode (spanCode ((bytesOf s2 rs).headD []) 0 bf.wid j))).1)).1)])) ∧
  (∀ (s : State) (p : Prog) (l : Launch) (i : Instr) (own peer : CollPeer) (joined : List CollPeer) (seen : List Nat),
    s.prog? p.id = some p → p.status = .collective i own joined seen → s.launch? p.launch = some l → p.saved = false →
    let ev := Instr.collJoin p.id peer
    let takes : Prop := peer.tag = own.tag ∧ peer.rank < l.group.nrank ∧ peer.rank ≠ l.group.rank ∧
      ∀ c ∈ joined, c.rank ≠ peer.rank
    let all := joined ++ [peer]
    let last : Prop := takes ∧ l.group.nrank = joined.length + 2
    (¬ takes → exec ev s = .next s) ∧
    (takes → joined.length + 2 < l.group.nrank →
      exec ev s = .next (s.mapProg p.id fun q => { q with status := .collective i own all seen })) ∧
    (last → (own.ok = false ∨ ∃ c ∈ all, c.ok = false ∨ collAgree own c = false) → exec ev s = .next (p.stops s 0x22 0)) ∧
    (∀ op red ea eb ec, last → i = .coll op red ea eb ec → own.ok = true → (∀ c ∈ all, c.ok = true ∧ collAgree own c = true) →
      own.rnd ≠ 6 → (∀ a < l.group.nrank, ∀ b < l.group.nrank, ringRank l.group a = ringRank l.group b → a = b) →
      let bf := Ent.of own.bfmt
      let wf := Ent.of own.wfmt
      let n := own.count
      let part (r : Nat × Nat) : List (DWord × Nat) := if r.2 = 0 then [] else [(p.ereg ea + BitVec.ofNat 64 r.1, r.2)]
      let mine := elemSpan bf.wid (collReads own l.group)
      ∀ rs ws s2, p.goes s (part mine) (part (elemSpan bf.wid (0, n))) rs ws s2 →
      let value (pos j : Nat) : Machine.Num := bf.decode (if ringRank l.group pos = l.group.rank
        then spanCode ((bytesOf s2 rs).headD []) mine.1 bf.wid j
        else ((all.find? (·.rank == ringRank l.group pos)).map fun c => (c.data.getD j 0).toNat).getD 0)
      let wire (v : Machine.Num) : Nat := (wf.round own.rnd.toNat own.sat 0 v).1
      let gives (code : Nat → Nat) : Prop := ∃ m,
        Stored s2 m (p.acct s) ws [spanPut ((bytesOf s2 ws).headD []) 0 bf.wid 0 ((List.range n).map fun j =>
          (bf.round 1 false 0 (wf.decode (code j))).1)] ∧
        exec ev s = .next ((chargeFabric m (p.acct s) (ringBytes own l.group)).onward p fun q => q.drew own.rnd.toNat n)
      (own.op = .broadcast → own.root.toNat < l.group.nrank → gives fun j => wire (value own.root.toNat j)) ∧
      (own.op = .allGather → gives fun j => wire (value (chunkOf n l.group.nrank j) j)) ∧
      (own.op = .allReduce → own.red = 0 → l.group.nrank = 2 → gives fun j =>
        let c := chunkOf n 2 j
        wire (Machine.Num.add (own.rnd == 4) (wf.decode (wire (value (1 - c) j))) (value c j)))))

/-! Spans. -/

/-- R125, R126, R128, R129, R130: a span executes a word once for all its items where every result is U or A: an ADD of
such values, an immediate word, NOP, MODESET. BRA sends it on, or splits it at a range predicate into two boxes that
carry one entry of a new join group; JOIN waits at its entry's address; EXIT ends it or leaves the box of the items that
stay, where they are a box. R54, R336, R349: an FMTSEL or MODESET whose register source is not U, and a MOVS of a register
marked *, deal it out whatever their guard. Every other word deals it out. That under a false U guard a span steps over an ADD whatever its
result's form is the model's reading of R125 (log 23). -/
def Obligations.SpanWords : Prop :=
  ∀ (s : State) (p : Span) (l : Launch) (x : Ctx), s.spanTurn p l x →
    let legal (i : Instr) : Prop := (formOf (widthOf x.fmtTable p.fmt) l.hdr.acc i).legal = true
    let goes (i : Instr) (f : Span → Span) : Prop :=
      exec i s = .next (s.mapSpan p.id fun q => { f q with pc := q.pc + BitVec.ofNat 64 i.size })
    let deals (i : Instr) : Prop := exec i s = .next (dealOut s p)
    let toward (v : DWord) : DWord := p.pc + 4 * v
    (∀ i, stripWord i = true → deals i) ∧
    (∀ st, goes (.nop st) id) ∧
    (∀ st rm, legal (.modesetRm st rm none) →
      goes (.modesetRm st rm none) fun q => { q with mode := q.mode.extractLsb' 3 29 ++ rm }) ∧
    (∀ v, legal (.movi v) → goes (.movi v) fun q => { q with regs := vset q.regs v.d.toNat (.u (immOf v.imm v.lit)) }) ∧
    (∀ t v, t = .i32 ∨ t = .n32 → legal (.add t v) → v.la = false → v.lb = false → v.x = none →
      let a := vget p.regs v.a.toNat (.u 0)
      let b := vget p.regs v.b.toNat (.u 0)
      (∀ m n, a = .u m → b = .u n → goes (.add t v) fun q => { q with regs := vset q.regs v.d.toNat (.u (m + n)) }) ∧
      (∀ f, (a = .a f ∧ ∃ n, b = .u n) ∨ (b = .a f ∧ ∃ n, a = .u n) ∨ (a = .a f ∧ ∃ g, b = .a g) →
        ∃ r, goes (.add t v) (fun q => { q with regs := vset q.regs v.d.toNat r }) ∧ (∀ y, r ≠ .l y) ∧
          ∀ c k, regLane c r k = regLane c a k + regLane c b k)) ∧
    (∀ i v, i = .fmtselReg v ∨ i = .modeset v ∨ i = .modesetClr v → (∀ n, vget p.regs v.a.toNat (.u 0) ≠ .u n) → deals i) ∧
    (∀ i v, i = .movs v ∨ i = .movsG v →
      v.a.toNat ∈ [4, 5, 6, 7, 8, 9, 0x0D, 0x0E, 0x10, 0x11, 0x12, 0x13, 0x14, 0x15, 0x16, 0x17, 0x18, 0x1D, 0x1E, 0x1F] →
      deals i) ∧
    (∀ t v m b, v.x = some m → m.ge = true → vget p.preds m.gp.toNat (.u false) = .u b → b = m.gn → legal (.add t v) →
      goes (.add t v) id) ∧
    (∀ st pr neg off lit,
      let i := Instr.bra st pr neg off lit
      let moved (b : Bool) : Prop := exec i s = .next (s.mapSpan p.id fun q =>
        { q with pc := if b then toward (off.signExtend 64) else q.pc + BitVec.ofNat 64 i.size })
      let part (ax : Axis) (lo n : Nat) : Box := p.box.withOn ax lo n
      let split (yes no : Box) : Prop := ∀ w, lit = some w →
        (32 ≤ p.joins.length → deals i) ∧
        (p.joins.length < 32 →
          let e := JoinEntry.mk (toward (w.signExtend 64)) s.nextId
          exec i s = .next { s with
            nextId := s.nextId + 2
            spans := s.spans.flatMap fun q => if q.id = p.id then
              [{ p with id := s.nextId + 1, box := yes, pc := toward (off.signExtend 64), joins := e :: p.joins },
                { p with box := no, pc := p.pc + BitVec.ofNat 64 i.size, joins := e :: p.joins }] else [q] })
      (pr = 31 → neg = true → moved true) ∧
      (¬ (pr = 31 ∧ neg = true) →
        (∀ b, vget p.preds pr.toNat (.u false) = .u b → moved (b != neg)) ∧
        (∀ m, vget p.preds pr.toNat (.u false) = .l m → deals i) ∧
        (∀ ax lo hi, vget p.preds pr.toNat (.u false) = .range ax lo hi →
          let o := p.box.lowOn ax
          let e := o + p.box.lenOn ax
          (o < e → hi ≤ o ∨ e ≤ lo ∨ hi ≤ lo → moved neg) ∧
          (o < e → lo ≤ o → e ≤ hi → moved (!neg)) ∧
          (o < lo → lo < hi → hi < e → deals i) ∧
          (lit = none → (lo ≤ o ∧ o < hi ∧ hi < e) ∨ (o < lo ∧ lo < e ∧ e ≤ hi) → deals i) ∧
          (lo ≤ o → o < hi → hi < e →
            split (if neg then part ax hi (e - hi) else part ax o (hi - o)) (if neg then part ax o (hi - o) else part ax hi (e - hi))) ∧
          (o < lo → lo < e → e ≤ hi →
            split (if neg then part ax o (lo - o) else part ax lo (e - lo)) (if neg then part ax lo (e - lo) else part ax o (lo - o)))))) ∧
    (∀ st,
      (∀ e rest, p.joins = e :: rest → e.pc = p.pc →
        exec (.join st) s = .next (s.mapSpan p.id fun q => { q with waiting := true })) ∧
      (p.joins = [] ∨ (∃ e rest, p.joins = e :: rest ∧ e.pc ≠ p.pc) → goes (.join st) id)) ∧
    (∀ st y, legal (.exit st y) →
      let i := Instr.exit st y
      let ends : Prop := exec i s = .next { s with spans := s.spans.filter fun q => q.id != p.id }
      (y = none → ends) ∧
      (∀ m, y = some m → m.ge = true →
        (∀ b, vget p.preds m.gp.toNat (.u false) = .u b → (b ≠ m.gn → ends) ∧ (b = m.gn → goes i id)) ∧
        (∀ ax lo hi, vget p.preds m.gp.toNat (.u false) = .range ax lo hi →
          let o := p.box.lowOn ax
          let e := o + p.box.lenOn ax
          let keeps (a n : Nat) : Prop := goes i fun q => { q with box := q.box.withOn ax a n }
          (o < e → hi ≤ o ∨ e ≤ lo ∨ hi ≤ lo → (m.gn = false → goes i id) ∧ (m.gn = true → ends)) ∧
          (o < e → lo ≤ o → e ≤ hi → (m.gn = false → ends) ∧ (m.gn = true → goes i id)) ∧
          (o < lo → lo < hi → hi < e → (m.gn = false → deals i) ∧ (m.gn = true → keeps lo (hi - lo))) ∧
          (lo ≤ o → o < hi → hi < e → if m.gn then keeps o (hi - o) else keeps hi (e - hi)) ∧
          (o < lo → lo < e → e ≤ hi → if m.gn then keeps lo (e - lo) else keeps o (lo - o)))))

/-- R123, R126, R127: a span that is dealt out is gone, and its items stand in new gangs that wait for a bench, each
item in one lane of one strip; every strip has the span's PC, registers, predicates, FMT, MODE and FPSTAT, an empty
stack, and all its live lanes active. -/
def Obligations.SpansDealtOut : Prop :=
  ∀ (s : State) (p : Span) (l : Launch), s.launch? p.launch = some l →
    1 ≤ l.hdr.gx → 1 ≤ l.hdr.gy → 1 ≤ l.hdr.gz →
    let b := stageBox l p.stage
    let u := dealOut s p
    b.ox ≤ p.box.ox → p.box.ox + p.box.ex ≤ b.ox + b.ex → b.oy ≤ p.box.oy → p.box.oy + p.box.ey ≤ b.oy + b.ey →
    b.oz ≤ p.box.oz → p.box.oz + p.box.ez ≤ b.oz + b.ez →
    ∃ gs, u.gangs = s.gangs ++ gs ∧ u = { s with
        spans := s.spans.filter fun q => q.id != p.id
        gangs := s.gangs ++ gs
        nextId := s.nextId + gs.length } ∧
      (gs.map (·.id)) = (List.range gs.length).map (s.nextId + ·) ∧
      (∀ g ∈ gs, g.ctx = p.ctx ∧ g.launch = p.launch ∧ g.stage = p.stage ∧ g.place = none ∧ g.saved = false ∧
        (g.strips.map (·.idx)).Nodup ∧
        ∀ t ∈ g.strips, t.pc = p.pc ∧ t.regs = p.regs ∧ t.preds = p.preds ∧ t.fmt = p.fmt ∧ t.mode = p.mode ∧
          t.fpstat = p.fpstat ∧ t.stack = [] ∧ t.live ≠ 0 ∧ t.active = t.live ∧
          ∀ k < 32, laneIn t.live k = true → p.box.holds (g.coord l.hdr t.idx k) = true) ∧
      ∀ c, p.box.holds c = true → ∃! y : Gang × Strip × Nat, y.1 ∈ gs ∧ y.2.1 ∈ y.1.strips ∧ y.2.2 < 32 ∧
        laneIn y.2.1.live y.2.2 = true ∧ y.1.coord l.hdr y.2.1.idx y.2.2 = c

/-! Events of waiting and of the schedule. -/

/-- R135, R189, R237, R238: a phase of a barrier completes once every live strip has arrived: its waiting strips go on
behind their words, and the next phase opens. At the recompute barrier CKPT first stores the header and the strips'
records, REPLAY starts replay mode and loads the generators that the header names, REPLEND ends it, and arrivals that
differ trap with ILLEGAL_CONVERGENCE in every strip. R67: a result that returns writes its registers, clears its locks
and sets its flags; the last one frees a strip held at the end of a region. -/
def Obligations.PhasesAndResults : Prop :=
  (∀ (s : State) (g : Gang) (l : Launch) (n : Nat), s.gang? g.id = some g → runningLaunch s g = some l → n < 16 →
    (∀ t ∈ g.strips, t.away = []) →
    let b := g.bar n
    let arrived : Prop := b.arrived ≠ [] ∧ ∀ t ∈ g.strips, t.retired = false → t.idx ∈ b.arrived
    (arrived → (∀ t ∈ g.strips, t.priv = true ∨ t.replay = []) →
      exec (.barrierPhaseComplete g.id n) s = .next (g.release (s.cfg g.ctx).sstep n
        (s.mapGang g.id fun x => { x with bars := vset x.bars n (Bar.mk (b.phase + 1) []) }))) ∧
    (¬ arrived → exec (.barrierPhaseComplete g.id n) s = .next s)) ∧
  (∀ (s : State) (g : Gang) (l : Launch) (r : RecArrival) (rest : List RecArrival),
    s.gang? g.id = some g → runningLaunch s g = some l → g.recompute = r :: rest →
    (∀ t ∈ g.strips, t.away = [] ∧ (t.priv = true ∨ t.replay = []) ∧ (∀ a ∈ t.replay, a.pos < t.seq) ∧
      ((t.retired = true ∧ t.wait = .none) ∨
        ((∃ p k, t.wait = .phase 16 p k) ∧ ∃ q ∈ g.recompute, q.strip = t.idx))) →
    let ev := Instr.barrierPhaseComplete g.id 16
    let opened (replay : Bool) : State := s.mapGang g.id fun x =>
      { x with recompute := [], recPhase := x.recPhase + 1, replayMode := replay }
    let alike : Prop := ∀ q ∈ rest, q.op = r.op ∧ q.addr = r.addr
    let record (t : Strip) : DWord := r.addr + 64 + BitVec.ofNat 64 (96 * t.idx)
    let acct := acctOf s g.launch
    let bench := g.place.map (·.bench)
    let goesOn (t : Strip) (u : State) : Prop := ∃ w, ({ t with seq := t.seq + 1 }).woken (s.cfg g.ctx).sstep 16 = some w ∧
      exec ev s = .next (u.setStrip g.id w)
    (alike → r.op = .replend → exec ev s = .next (g.release (s.cfg g.ctx).sstep 16 (opened false))) ∧
    (alike → r.op = .ckpt → ∀ t, g.strips = [t] → t.retired = false → (∀ q ∈ g.recompute, t.idx ≤ q.strip) →
      let v := opened g.replayMode
      let (ps, u) := planAll v g.ctx .write t.priv true
        [laneReq 0 r.addr 64 (slotHeader g) [], laneReq 1 (record t) 96 (genBytes t) []]
      (∀ p ∈ ps, p.plain u g.ctx false) → placesApart ps →
      ∃ m, goesOn t m ∧ Stored u m acct ps [slotHeader g, genBytes t]) ∧
    (alike → r.op = .replay → ∀ t, g.strips = [t] → t.retired = false →
      let (p, u) := planReq (opened true) g.ctx .read t.priv false (laneReq 0 r.addr 4 [] [])
      p.plain u g.ctx true →
      let named := (wordOf (p.targets.map u.byteAt)).getLsbD t.idx
      let u := u.loadSegs acct bench p.segs
      (named = false → goesOn t u) ∧
      (named = true → t.idx < 32 → ∀ q z, planReq u g.ctx .read t.priv false (laneReq 1 (record t) 96 [] []) = (q, z) →
        q.plain z g.ctx true →
        goesOn { t with gens := gensOf (q.targets.map z.byteAt) } (z.loadSegs acct bench q.segs))) ∧
    (¬ alike → (∀ t ∈ g.strips, t.priv = false) → handlerOf s g.ctx ≠ 0 →
      exec ev s = .next (g.strips.foldl (fun u t => if t.retired then u
        else u.setStrip g.id (t.vectored (g.coord l.hdr t.idx) (handlerOf s g.ctx) (plainTrap t 0x0C))) (opened g.replayMode)))) ∧
  (∀ (s : State) (g : Gang) (t : Strip) (l : Launch) (k : Nat) (x : Landing),
    s.resident g.id t.idx = some (g, t, l) → t.halted = false → t.retired = false → t.outstanding[k]? = some x →
    t.away = [] → t.lateFree = 0 → t.priv = true ∨ t.replay = [] → (x.parts.map (·.reg)).Nodup →
    (∀ p ∈ x.parts, p.reg < 80 ∧ (p.uniform = true → p.reg < 64)) →
    let c := g.coord l.hdr t.idx
    ∃ u, exec (.loadReturn g.id t.idx k) s = .next (s.setStrip g.id u) ∧
      u = { t with
        regs := u.regs
        kregs := u.kregs
        outstanding := u.outstanding
        locks := t.locks &&& ~~~x.locks
        fpstat := t.fpstat ||| x.flags
        parked := t.parked && (t.wait != .none || !u.outstanding.isEmpty) } ∧
      (∀ p ∈ x.parts, ∀ i < 32, u.word c p.reg i =
        if p.uniform then vget p.vals 0 0 else if laneIn p.mask i then vget p.vals i 0 else t.word c p.reg i) ∧
      (∀ n < 80, (∀ p ∈ x.parts, p.reg ≠ n) → ∀ i < 32, u.word c n i = t.word c n i) ∧
      u.outstanding.length + 1 = t.outstanding.length ∧
      (∀ j < k, ∀ y p, u.outstanding[j]? = some y → p ∈ x.parts → ∀ q ∈ y.parts, q.reg = p.reg → q.mask &&& p.mask = 0) ∧
      ((∀ y ∈ t.outstanding.take k, ∀ q ∈ y.parts, ∀ p ∈ x.parts, q.reg ≠ p.reg) →
        u.outstanding = t.outstanding.eraseIdx k))

/-- R152, R154, R190, R197, R199, R203, R232, R285: the events at which a wait ends. A strip or an engine program that
waits to issue a word has it performed again, and goes on or waits on as the word says. A consuming read that waits for
an OPEN block waits on; once the block is READY its value is an outstanding result and the block is empty; once the
context's timeout has run out a strip's part parks with ADJ_TIMEOUT, also one that RQREL replays in the handler, and a
program stops with it. -/
def Obligations.WaitsEnd : Prop :=
  (∀ (s : State) (g k : Nat) (t : Strip), s.strip? g k = some t →
    let events : List Instr := [.waitConditionMet g k, .hostWaitReread (.strip g k), .rdvReturn g k, .queueRoom g k,
      .forkSlotFree g k]
    ((∀ r i, t.wait ≠ .again r i) → ∀ e ∈ events, exec e s = .next s) ∧
    (∀ r i, t.wait = .again r i →
      ∃ u, exec i { bringIn g k s with cur := .strip g k } = .next u ∧
        ((∃ c v, i = .wait c v) → exec (.waitConditionMet g k) s = .next { u with cur := s.cur } ∧
          exec (.hostWaitReread (.strip g k)) s = .next { u with cur := s.cur }) ∧
        ((∃ v, i = .rdv v) → exec (.rdvReturn g k) s = .next { u with cur := s.cur }) ∧
        ((∃ st d a x, i = .qput st d a x) ∨ (∃ st d x, i = .qget st d x) →
          exec (.queueRoom g k) s = .next { u with cur := s.cur }) ∧
        ((∃ v, i = .fork v) → exec (.forkSlotFree g k) s = .next { u with cur := s.cur }))) ∧
  (∀ (s : State) (g : Gang) (k : Nat) (t : Strip) (r : Reason) (v : WAddr),
    s.gang? g.id = some g → g.strip? k = some t → t.wait = .again r (.launch v) →
    let freed := s.mapCtx g.ctx fun x => { x with intake := x.intake - 1 }
    ∃ u, exec (.launch v) { bringIn g.id k freed with cur := .strip g.id k } = .next u ∧
      exec (.launchIntakeRoom g.id k) s = .next { u with cur := s.cur }) ∧
  (∀ (s : State) (n : Nat) (p : Prog) (i : Instr), s.prog? n = some p → p.status = .waiting i →
    ∃ u, exec i { s with cur := .prog n } = .next u ∧
      ((∃ ea eb c, i = .ewait ea eb c ∧ c.toNat < 4) →
        exec (.ewaitConditionMet n) s = .next { u with cur := s.cur } ∧
        exec (.hostWaitReread (.prog n)) s = .next { u with cur := s.cur }) ∧
      ((∃ d cv sg ss w, i = .cpy d cv sg ss w ∧ p.cls = .cart ∧ d ≠ 3 ∧ (ss = true → sg = true)) ∨
          (∃ bd w, i = .rdst bd w ∧ p.cls = .cart ∧ (bd = true ∨ w.ed = 0)) ∨
          (∃ a b c, i = .merge a b c ∧ p.cls = .full) ∨ (∃ o w, i = .tmma o w ∧ p.cls = .mill) ∨
          (∃ wd w n, i = .smv wd w ∧ p.cls = .stack n) ∨ (∃ a b, i = .esig a b) ∨
          (∃ op red a b c, i = .coll op red a b c ∧ p.cls = .weav ∧ red ≠ 3 ∧ (op = .broadcast → red = 0)) →
        exec (.twinReadServed (.prog n)) s = .next { u with cur := s.cur })) ∧
  (∀ (s : State) (g : Gang) (t : Strip) (l : Launch) (a : Access) (r : LaneReq) (seg : Seg) (b : TwinBlock),
    s.resident g.id t.idx = some (g, t, l) → t.away = [] → t.wait = .access [a] → a.lanes = [r] → a.kind = .load →
    a.entry = none → a.uniform = false → a.last = false → a.flt = false → 0 < a.regs → r.cause = 0 →
    r.lane < 32 → t.parked = false → (∀ q ∈ t.replay, q.pos ≠ a.pos) →
    let bench := g.place.map (·.bench)
    let (p, u) := planReq s g.ctx .read a.priv false r
    p.req.cause = 0 → p.segs = [seg] → leafTwin seg.leaf = true → leafTw seg.leaf = false →
    segTrouble u g.ctx true seg = .none → primalMatches u g.ctx seg = true → blocksOf u seg = [b] →
    (countState u b.key ≠ 1 → a.replayed = false → ∃ x,
      exec (.twinReadServed (.strip g.id t.idx)) s =
        .next (((consume u b).loadSegs (acctOf s g.launch) bench p.segs).setStrip g.id
          { t with wait := .none, outstanding := t.outstanding ++ [x] }) ∧
      x.holds a.dst a.regs ((1 : Mask) <<< r.lane) false fun _ k => wordOf (((p.targets.map u.byteAt).drop (4 * k)).take 4)) ∧
    (countState u b.key = 1 →
      exec (.twinReadServed (.strip g.id t.idx)) s =
        .next (u.setStrip g.id { t with wait := .access [{ a with
          lanes := [{ p.req with held := p.segs }]
          since := if r.held = [] then u.clock else a.since
          bench := bench }] })) ∧
    (countState u b.key = 1 → r.held ≠ [] → twinLate s g.ctx a.since = true → t.priv = false ∨ a.replayed = true →
      exec (.twinTimeout (.strip g.id t.idx)) s = .next (u.setStrip g.id { t with
        wait := .none
        replay := parkIn a [{ p.req with cause := 0x16, at_ := BitVec.ofNat 64 seg.va, report := 0 }] t.replay }))) ∧
  (∀ (s : State) (p : Prog), s.prog? p.id = some p →
    let blocks := (waitsOn s p).map (·.1)
    let late : Prop := blocks ≠ [] ∧ twinLate s p.ctx p.since = true ∧ mayRun s p.ctx = true ∧ p.saved = false
    (late → ∃ a ∈ blocks, (∀ b ∈ blocks, a.toNat ≤ b.toNat) ∧
      exec (.twinTimeout (.prog p.id)) s = .next (p.stops s 0x16 (low57 a))) ∧
    (¬ late → exec (.twinTimeout (.prog p.id)) s = .next s))

/-- R16, R17, R59, R61, R62, R65, R140, R156, R157, R165, R274 to R277: gangs come to benches and leave them. A gang that
waits for its first bench is placed where there is room for it and its strips have images, with CORES every gang of its
launch at once where all fit together; a pre-empted one resumes there with its programs and its withdrawn accesses.
Pre-emption lets results return, withdraws what its strips wait for and takes the programs along, with CORES those of every
gang of the launch; it waits for accesses on ports and at peers. A die's Drover weighs the stages, and gives the bench of an
idle gang to the busiest stage. Which free slots and images a gang gets is the model's choice (log 1, log 20), and so is
which of a stage's waiting gangs the Drover takes (log 43), and that a strip that has retired keeps its place, lines and slot
while its gang lives (log 30). A line of a strip's image that the register cache evicts is written back
to device memory, a register in L form as one word for each lane and the generators of 24 bytes each from 0x2F80, and is
fetched from there again. -/
def Obligations.Residency : Prop :=
  (∀ (s : State) (g : Gang) (b : Nat) (l : Launch), s.gang? g.id = some g → s.launch? g.launch = some l →
    let may : Prop := g.place = none ∧ g.saved = false ∧ mayRun s g.ctx = true
    let gs := g :: s.gangs.filter fun o => o.launch == g.launch && o.id != g.id
    (¬ may → exec (.gangPlace g.id b) s = .next s) ∧
    (may → l.hdr.cores = false →
      (¬ (benchRoom s g b g.id ∧ imagesFit s g = true) → exec (.gangPlace g.id b) s = .next s) ∧
      (benchRoom s g b g.id → imagesFit s g = true → ∃ k u, exec (.gangPlace g.id b) s = .next u ∧ Seats s u g b k ∧
        ((∃ j < 64, slotsFree s b j g.strips.length) → slotsFree s b k g.strips.length))) ∧
    (may → l.hdr.cores = true → (s.gangs.map (·.id)).Nodup →
      let images : Prop := (freeImages s g.ctx (gs.map Gang.bare).sum).length = (gs.map Gang.bare).sum
      let fit : Prop := ∃ at_ : Nat → Nat, at_ g.id = b ∧ fitTogether s gs at_
      ((∃ o ∈ gs, o.place ≠ none) ∨ ¬ images ∨ ¬ fit → exec (.gangPlace g.id b) s = .next s) ∧
      ((∀ o ∈ gs, o.place = none) → images → fit →
        ∃ u, exec (.gangPlace g.id b) s = .next u ∧ ∀ o ∈ u.gangs, o.launch = g.launch → o.place ≠ none))) ∧
  (∀ (s : State) (g : Gang) (l : Launch), s.gang? g.id = some g → s.launch? g.launch = some l →
    let stays (o : Gang) : Prop := ∃ t ∈ o.strips, mustReturn s o t = true
    let settled (o : Gang) : Prop := ∀ t ∈ o.strips, t.parked = false ∧ t.away = []
    (g.place = none ∨ mayRun s g.ctx = false → exec (.preempt g.id) s = .next s) ∧
    (g.place ≠ none → mayRun s g.ctx = true → l.hdr.cores = false →
      (stays g → exec (.preempt g.id) s = .next s) ∧
      (¬ stays g → settled g → exec (.preempt g.id) s = .next (s.lifted g l.hdr))) ∧
    (g.place ≠ none → mayRun s g.ctx = true → l.hdr.cores = true → (∀ o ∈ s.gangs, ¬ stays o ∧ settled o) →
      ∃ u, exec (.preempt g.id) s = .next u ∧ ∀ o ∈ u.gangs, o.launch = l.id → o.place = none)) ∧
  (∀ (s : State) (g : Gang) (l : Launch) (b : Nat), s.gang? g.id = some g → s.launch? g.launch = some l →
    l.hdr.cores = false →
    let may : Prop := g.place = none ∧ g.saved = true ∧ mayRun s g.ctx = true ∧ benchRoom s g b g.id ∧ imagesFit s g = true
    let back (v : State) : State := v.rehomed g (dieFor b) (unitFor b)
    (¬ may → exec (.resume g.id b) s = .next s) ∧
    (may → (∀ t ∈ g.strips, t.away = [] ∧ ∀ q, t.wait ≠ .access q) →
      ∃ k v, Seats s v g b k ∧ exec (.resume g.id b) s = .next (back v)) ∧
    (may → ∀ t a, g.strips = [t] → t.away = [] → t.image ≠ 0 → t.wait = .access [a] → a.kind = .load → a.replayed = false →
      a.entry = none → a.uniform = false → a.last = false → 0 < a.regs → a.lanes ≠ [] → t.parked = false →
      (∀ q ∈ t.replay, q.pos ≠ a.pos) → ∃ k v, Seats s v g b k ∧
      let (ps, u) := planAll (back v) g.ctx .read a.priv false (a.lanes.map fun r => { r with held := [] })
      ((∀ p ∈ ps, p.plain u g.ctx true) → ∃ x, exec (.resume g.id b) s =
        .next ((u.loadSegs (acctOf s g.launch) (some b) (ps.flatMap (·.segs))).setStrip g.id
          { t with wait := .none, outstanding := t.outstanding ++ [x] }) ∧
        x.holds a.dst a.regs (maskOf fun i => a.lanes.any (·.lane == i)) false fun i k =>
          wordOf ((((((ps.find? fun p => p.req.lane == i).map fun p => p.targets.map u.byteAt).getD []).drop (4 * k)).take 4))))) ∧
  (∀ (s : State) (g : Gang) (l : Launch) (b : Nat), s.gang? g.id = some g → s.launch? g.launch = some l →
    l.hdr.cores = true → (∀ o ∈ s.gangs, ∀ t ∈ o.strips, ∀ q, t.wait ≠ .access q) →
    ∃ u, exec (.resume g.id b) s = .next u ∧ (u = s ∨ ∀ o ∈ u.gangs, o.launch = g.launch → o.place ≠ none)) ∧
  (∀ (s : State) (die : Nat), weighStages die s = { s with
    launches := s.launches.map fun l => if l.hdr.cores then l else
      { l with weights := vset l.weights die (l.queues.map fun q => 16 * q.recs.length / q.depth) } }) ∧
  (∀ (s z : State) (die : Nat) (l : Launch) (stage : Nat) (idle g : Gang) (rest : List Gang), z = weighStages die s →
    let busy (l : Launch) (stage : Nat) : Prop := l ∈ z.launches ∧ stage < l.hdr.stages ∧ l.hdr.cores = false ∧
      mayRun z l.ctx = true ∧ waitingGangs z l stage die ≠ [] ∧
      ∀ o ∈ z.gangs, o.launch = l.id → o.stage = stage → o.resident die = true → ∀ t ∈ o.strips, inQput t = false
    let fill (l : Launch) (stage : Nat) : Nat × Nat := ((stageQueue l stage).recs.length, (stageQueue l stage).depth)
    let beats (l : Launch) (stage : Nat) (l' : Launch) (stage' : Nat) : Prop :=
      (fill l' stage').1 * (fill l stage).2 < (fill l stage).1 * (fill l' stage').2 ∨
      ((fill l' stage').1 * (fill l stage).2 = (fill l stage).1 * (fill l' stage').2 ∧
        (stage < stage' ∨ (stage = stage' ∧ l.id < l'.id)))
    let rests (o : Gang) : Prop := o ∈ z.gangs ∧ o.launch = l.id ∧ o.stage ≠ stage ∧ o.resident die = true ∧
      (stageQueue l o.stage).recs = [] ∧ (stageQueue l o.stage).closed = false ∧
      ∀ t ∈ o.strips, t.retired = true ∨ inQget t = true
    busy l stage → (∀ l' k, busy l' k → (l' = l ∧ k = stage) ∨ beats l stage l' k) →
    ((∀ o, ¬ rests o) → exec (.droverAction die) s = .next z) ∧
    (rests idle → (∀ o, rests o → o = idle ∨ o.placedAt < idle.placedAt) → waitingGangs z l stage die = g :: rest →
      (∀ t ∈ idle.strips, t.parked = false ∧ t.away = []) →
      let fit : Prop := benchRoom z g idle.bench idle.id ∧ imagesFit z g = true
      (¬ fit → exec (.droverAction die) s = .next z) ∧
      (fit → g.saved = false → ∃ k u, exec (.droverAction die) s = .next u ∧ Seats (z.lifted idle l.hdr) u g idle.bench k) ∧
      (fit → g.saved = true → z.gang? g.id = some g → idle.id ≠ g.id →
        (∀ t ∈ g.strips, t.away = [] ∧ ∀ q, t.wait ≠ .access q) → ∃ k v, Seats (z.lifted idle l.hdr) v g idle.bench k ∧
        exec (.droverAction die) s = .next (v.rehomed g (dieFor idle.bench) (unitFor idle.bench))))) ∧
  (∀ (s : State) (g : Gang) (t : Strip) (k : Nat) (bad : Bool), s.strip? g.id t.idx = some t → k < 128 →
    let line := t.image / 128 + k
    t.caches line = true →
    (s.gangs.flatMap fun o => (o.strips.filter (·.caches line)).map fun w => (o.id, w.idx)) = [(g.id, t.idx)] →
    ∃ u, exec (.lineEviction false line bad) s = .next u ∧
      u = { s.mapStrip g.id t.idx (fun w => { w with away := w.away ++ [k] }) with device := u.device } ∧
      (∀ a, a < 128 * line ∨ 128 * line + 128 ≤ a → cellGet u.device.cells a = cellGet s.device.cells a) ∧
      (∀ v, k < 64 → vget t.regs k (.u 0) = .l v → ∀ i < 32, u.device.word (128 * line + 4 * i) = vget v i 0) ∧
      (k = 95 → ∀ i < 4, u.device.read (128 * line + 24 * i) 24 =
        toBytes (vget t.gens i (Gen.mk 0 0)).key.toNat 8 ++ toBytes (vget t.gens i (Gen.mk 0 0)).ctr.toNat 16)) ∧
  (∀ (s : State) (g : Gang) (t : Strip) (k : Nat) (v : Lanes), s.strip? g.id t.idx = some t → k < 64 → t.away = [k] →
    vget t.regs k (.u 0) = .l v →
    ∃ x : Lanes, (∀ i < 32, vget x i 0 = s.device.word (128 * (t.image / 128 + k) + 4 * i)) ∧
      bringIn g.id t.idx s = s.setStrip g.id { t with away := [], regs := vset t.regs k (.l x) })

/-- R130: the spans of a join group wait until each of them is at its JOIN; then each pops its entry and goes on behind
it, and two whose boxes together form a box, with equal registers, predicates and controls, are one span. R155: a drained
share's queues close, and a strip that waits in QGET receives the closing record. -/
def Obligations.JoinsAndClosing : Prop :=
  (∀ (s : State) (launch group : Nat),
    let members := s.spans.filter fun p => p.launch == launch && p.joins.any (·.group == group)
    let behind (p : Span) : Span := { p with joins := p.joins.tail, waiting := false, pc := p.pc + 4 }
    let there (p : Span) : Prop := p.waiting = true ∧ p.joins.head?.map (·.group) = some group
    let others := s.spans.filter fun p => !(p.launch == launch && p.joins.any (·.group == group))
    ((∃ p ∈ members, ¬ there p) ∨ members = [] → exec (.spanJoin launch group) s = .next s) ∧
    (∀ p, members = [p] → there p → exec (.spanJoin launch group) s = .next { s with spans := others ++ [behind p] }) ∧
    (∀ p q, members = [p, q] → there p → there q → (∀ ax, 0 < p.box.lenOn ax ∧ 0 < q.box.lenOn ax) →
      let alike : Prop := p.regs = q.regs ∧ p.preds = q.preds ∧ p.fmt = q.fmt ∧ p.mode = q.mode
      let next (ax : Axis) (a b : Span) : Prop := a.box.lowOn ax + a.box.lenOn ax = b.box.lowOn ax ∧
        ∀ c, c ≠ ax → a.box.lowOn c = b.box.lowOn c ∧ a.box.lenOn c = b.box.lenOn c
      let whole (ax : Axis) (low : Nat) : Prop := exec (.spanJoin launch group) s = .next { s with spans := others ++
        [{ behind p with
          box := p.box.withOn ax low (p.box.lenOn ax + q.box.lenOn ax)
          fpstat := p.fpstat ||| q.fpstat }] }
      (∀ ax, alike → next ax p q → whole ax (p.box.lowOn ax)) ∧
      (∀ ax, alike → next ax q p → whole ax (q.box.lowOn ax)) ∧
      (¬ alike ∨ (∀ ax, ¬ next ax p q ∧ ¬ next ax q p) →
        exec (.spanJoin launch group) s = .next { s with spans := others ++ [behind p, behind q] }))) ∧
  (∀ (s : State) (l : Launch), s.launch? l.id = some l →
    let drained : Prop := (∀ p ∈ s.spans, p.launch ≠ l.id) ∧ ∀ g ∈ s.gangs, g.launch = l.id → ∀ t ∈ g.strips,
      t.retired = true ∨ (g.place ≠ none ∧ inQget t = true ∧ (stageQueue l g.stage).recs = [] ∧
        (stageQueue l g.stage).closed = false)
    let waiting := (s.gangs.filter (·.launch == l.id)).flatMap fun g => (g.strips.filter inQget).map fun t => (g, t)
    let closed := s.mapLaunch l.id fun l => { l with queues := l.queues.map fun u => { u with closed := true } }
    (¬ drained → exec (.queueClose l.id) s = .next s) ∧
    (drained → waiting = [] → exec (.queueClose l.id) s = .next closed) ∧
    (drained → ∀ g t r i, waiting = [(g, t)] → s.strip? g.id t.idx = some t → t.wait = .again r i →
      ∃ u, exec i { bringIn g.id t.idx closed with cur := .strip g.id t.idx } = .next u ∧
        exec (.queueClose l.id) s = .next { u with cur := s.cur }))

/-- R144, R289, R291, R371: the command processor writes STATE and CODE into a record through the context's tree; a write
that faults is dropped and logged as kind 7. That one that has to wait for a port or a peer is kept and made later, in order,
while the processor goes on, is the model's choice (log 17). A record of the error log goes to the place that the count at POOL
names, and is counted there; where the count reads as poison it is lost (the model's choice, log 39). R146: a node's end is written into its record and its slot, which is free unless its counter is above 0,
and decrements its successors: one that reaches 0 is ready, or fails with code 8 in a fatal context, and one that goes below
fails with code 7. -/
def Obligations.NodeRecords : Prop :=
  (∀ (s : State) (c : Nat) (a : DWord) (st : NodeState) (code : Nat) (slot : Option Nat) (acct : Nat),
    let bs := [BitVec.ofNat 8 st.code, BitVec.ofNat 8 code]
    let (p, u) := planReq s c .write true true (laneReq 0 (a + 0x44) 2 bs [])
    let out := writeState s c a st code slot acct
    let later (s : State) : State := { s with cpWrites := s.cpWrites ++ [CpWrite.mk c a (a + 0x44) bs slot acct s.clock] }
    let behind : Prop := ∃ w ∈ s.cpWrites, w.ctx = c ∧ w.rcd = a
    (behind → out = later s) ∧
    (¬ behind → p.plain u c false → Stored u out 64 [p] [bs]) ∧
    (¬ behind → p.req.cause = 0 → p.segs ≠ [] →
      (∀ g ∈ p.segs, leafTwin g.leaf = false ∧ segTrouble u c false g = .waits) → out = later u) ∧
    (¬ behind → p.req.cause ≠ 0 → p.segs = [] → out = logError u c 7 0 a slot)) ∧
  (∀ (s : State) (x : Ctx) (kind code : Nat) (a : DWord) (slot : Option Nat), s.ctx? x.id = some x →
    let pool := x.cfg.pool.toNat
    let n := (s.device.dword pool).toNat
    let at_ := x.cfg.errlog.toNat + 32 * (n % (x.cfg.errsize.toNat / 32))
    let u := logError s x.id kind code a slot
    (deviceRead s x.id pool 8 = none → u = s) ∧
    (32 ≤ x.cfg.errsize.toNat → at_ + 32 ≤ pool ∨ pool + 8 ≤ at_ →
    tdiRefuses s x.id pool 8 = false → s.device.poisoned pool 8 = false → tdiRefuses s x.id at_ 32 = false →
    OnlyMemory s u 64 ∧ u.tier = s.tier ∧ u.host = s.host ∧ (u.device.dword pool).toNat = (n + 1) % 2 ^ 64 ∧
    u.device.read at_ 32 = toBytes s.clock.toNat 8 ++ [BitVec.ofNat 8 kind, BitVec.ofNat 8 code] ++ List.replicate 6 0 ++
      toBytes a.toNat 8 ++ toBytes ((slot.getD (2 ^ 64 - 1))) 8 ∧
    ∀ b, b < at_ ∨ at_ + 32 ≤ b → b < pool ∨ pool + 8 ≤ b → cellGet u.device.cells b = cellGet s.device.cells b)) ∧
  (∀ (s : State) (x : Ctx) (k : Nat) (n : Node) (st : NodeState) (code : Nat),
    s.ctx? x.id = some x → (x.slot k).node = some n → n.state = .waiting ∨ n.state = .running →
    st = .done ∨ st = .cancelled ∨ st = .failed → (st = .failed → n.rcd.token = 0) →
    let v := Slot.mk k (if st = .failed ∧ code = 7 then 0 else (x.slot k).counter) none
    let u := s.marked x.id k v n st code
    let out := slotActs s x.id [.finish k st code]
    (n.rcd.succs = [] → out = u) ∧
    (∀ j w y, n.rcd.succs = [j] → j ≠ k → u.ctx? x.id = some y → y.slot j = w →
      let count := w.counter - 1
      let less := u.mapCtx x.id (·.setSlot (Slot.mk j count w.node))
      (w.node = none → out = less) ∧
      (∀ m, w.node = some m → m.state = .waiting → m.readyAt = none → m.rcd.token = 0 →
        (0 < count.toInt → out = less) ∧
        (count = 0 → y.fatal = none → out = u.mapCtx x.id fun y =>
          { y.setSlot (Slot.mk j 0 (some { m with readyAt := some y.readySeq })) with readySeq := y.readySeq + 1 }) ∧
        (count = 0 → y.fatal ≠ none → m.rcd.succs = [] → out = less.marked x.id j (Slot.mk j 0 none) m .failed 8) ∧
        (count.toInt < 0 → m.rcd.succs = [] → out = less.marked x.id j (Slot.mk j 0 none) m .failed 7))))

/-- R23, R69, R121, R122, R123, R124, R140, R147, R291, R294: the node that is ready first starts: it is RUNNING, then its kernel
header (code 1), its process group (code 3), its box (code 2) and, for CORES, its fit (code 4) are checked, and it ends
FAILED where one fails; a box or a share without items ends DONE at once; else it becomes a launch with one span for
each stage, at the stage's entry with registers of 0, or dealt out at once under CORES. That the span of stage i belongs to
die i mod 4 is the model's own choice (log 35), and so are the empty weights (log 33). A node of a fatal context fails with
code 8. R291, R293: one whose header or group gets no answer waits; that nothing of its start has happened then, but for the
clocks of what it has asked peers for, is the model's choice (log 17). A launch of which nothing is left and whose writes peers have acknowledged ends DONE. -/
def Obligations.NodesRun : Prop :=
  (∀ (s : State) (x : Ctx) (k r : Nat) (n : Node), s.ctx? x.id = some x → (x.slot k).node = some n →
    n.state = .waiting → n.readyAt = some r → n.rcd.succs = [] → n.rcd.token = 0 →
    (∀ v ∈ x.slots, ∀ m j, v.node = some m → m.state = .waiting → m.readyAt = some j → r ≤ j) →
    let ev := Instr.nodeStart x.id k
    let runs : Prop := s.dev.ready = true ∧ s.dev.fatal = false ∧ s.dev.stopped = false
    let slot := Slot.mk k (x.slot k).counter none
    (¬ runs → exec ev s = .next s) ∧
    (runs → x.fatal ≠ none → exec ev s = .next (s.marked x.id k slot n .failed 8)) ∧
    (runs → x.fatal = none →
      let cur : Ctx := match x.pending with
        | some b => { x with cfg := b, root := b.ptroot, pending := none }
        | none => x
      let n' := { n with state := .running }
      let y : Ctx := { cur.setSlot (Slot.mk k (x.slot k).counter (some n')) with starting := none }
      let u := s.mapCtx x.id fun _ => y
      let asked := x.startAsked n
      let acct := n.rcd.acct
      let fails (v : State) (code : Nat) : Out :=
        .next ((writeState v x.id n.addr .running 0 (some k) acct).marked x.id k slot n' .failed code)
      let waits (keys : List Nat) : Out := .next (s.mapCtx x.id fun x => { x with starting := some (r, asked.still s keys) })
      (∀ keys v, readHeader asked acct u x.id n.rcd.header y.fmtTable = (.waits keys, v) → exec ev s = waits keys) ∧
      (∀ v, readHeader asked acct u x.id n.rcd.header y.fmtTable = (.got none, v) → exec ev s = fails v 1) ∧
      (∀ h v, readHeader asked acct u x.id n.rcd.header y.fmtTable = (.got (some h), v) →
        (∀ keys z, readGroup asked acct v x.id n.rcd.pgt = (.waits keys, z) → exec ev s = waits keys) ∧
        (∀ z, readGroup asked acct v x.id n.rcd.pgt = (.got none, z) → exec ev s = fails z 3) ∧
        (∀ g z, readGroup asked acct v x.id n.rcd.pgt = (.got (some g), z) →
          let b := n.rcd.box
          let o := writeState z x.id n.addr .running 0 (some k) acct
          let l := Launch.mk o.nextId x.id k n.addr n.rcd h g
            ((List.range h.stages).map fun i => StageQueue.mk (h.depths.getD i 64) [] false) false (Vector.replicate 4 []) [] none
          let ready := o.mapCtx x.id fun x => { x with fmtTable := h.presets.foldl (fun t p => vset t p.1 p.2) x.fmtTable }
          let share := b.ex / g.nrank + (if g.rank < b.ex % g.nrank then 1 else 0)
          let bounds : Prop := b.ox + b.ex ≤ 2 ^ 32 ∧ b.oy + b.ey ≤ 2 ^ 32 ∧ b.oz + b.ez ≤ 2 ^ 32 ∧ b.ex * b.ey * b.ez ≤ 2 ^ 48
          let tiles : Prop := ∀ i < h.stages, let c := stageBox l i
            ((c.ex + h.gx - 1) / h.gx) * ((c.ey + h.gy - 1) / h.gy) * ((c.ez + h.gz - 1) / h.gz) ≤ 2 ^ 32
          let some_ : Prop := b.ex ≠ 0 ∧ b.ey ≠ 0 ∧ b.ez ≠ 0
          let span (i : Nat) : Span := Span.mk (o.nextId + 1 + i) x.id l.id i (i % 4) (stageBox l i)
            (n.rcd.header + (h.entries.getD i 0).signExtend 64) (Vector.replicate 64 (.u 0)) (Vector.replicate 32 (.u false))
            0x303 1 0 [] false []
          (¬ some_ → exec ev s = .next (ready.marked x.id k slot n' .done 0)) ∧
          (some_ → ¬ bounds ∨ b.ez < h.stages → exec ev s = fails z 2) ∧
          (some_ → bounds → h.stages ≤ b.ez → share = 0 →
            exec ev s = .next (ready.marked x.id k slot n' .done 0)) ∧
          (some_ → bounds → h.stages ≤ b.ez → share ≠ 0 → ¬ tiles → exec ev s = fails z 2) ∧
          (some_ → bounds → h.stages ≤ b.ez → share ≠ 0 → tiles →
            (h.cores = false → exec ev s = .next { ready with
              launches := o.launches ++ [l]
              spans := o.spans ++ (List.range h.stages).map span
              nextId := o.nextId + 1 + h.stages }) ∧
            (h.cores = true → launchFits l = false → exec ev s = fails z 4) ∧
            (h.cores = true → launchFits l = true → ∃ m gs, exec ev s = .next m ∧ m.launches = o.launches ++ [l] ∧
              (∀ p ∈ m.spans, p ∈ o.spans) ∧ m.gangs = o.gangs ++ gs ∧
              ∀ g ∈ gs, g.launch = l.id ∧ g.place = none ∧ g.stage < h.stages)))))) ∧
  (∀ (s : State) (l : Launch) (x : Ctx) (n : Node), s.launch? l.id = some l → s.ctx? l.ctx = some x →
    (x.slot l.slot).node = some n → n.state = .running → n.rcd.succs = [] →
    let busy : Prop := (∃ p ∈ s.spans, p.launch = l.id) ∨ (∃ g ∈ s.gangs, g.launch = l.id) ∨
      (∃ p ∈ s.progs, p.launch = l.id) ∨ l.unacked ≠ [] ∨ l.ends ≠ none
    (busy → exec (.nodeComplete l.id) s = .next s) ∧
    (¬ busy → exec (.nodeComplete l.id) s = .next
      ({ s with launches := s.launches.filter (·.id != l.id) }.marked l.ctx l.slot
        (Slot.mk l.slot (x.slot l.slot).counter none) n .done 0)))

/-! The host, links, trust and errors. -/

/-- R98, R149, R259, R286, R287, R304, R305: a command processor takes the entry at its head where it holds the command.
A reserved bit fails it with code 1, a context that is free (for CREATE: one in use) with 2, a bad block with 3, the
wrong queue with 4. STATUS and QHEAD are written once, after the effect: CREATE makes a context from its block, DESTROY
leaves nothing of it and, R294, completes only once peers have acknowledged its agents' writes, CONFIG sets the breakpoints, SSTEP and QUOTA at once, CANCEL and UNCANCEL set and clear a token
and end the nodes that wait with it, ICINV drops fetch lines and decoded operations of the range, RESYNC writes its summary.
That RESYNC needs its context is the model's reading (log 31), and that STATUS stands in bytes 0 to 7 and SR_CLOCK at offset
8 of the summary's first 256 bytes is the model's own choice (log 35). R146, R222, R287: SUBMIT reads the record of a node and
takes it into its slot, WAITING with its predecessors and ready where none is left; a record that cannot be read, or whose
STATE cannot be written, fails the command with code 6, a bad record the node with code 5, and a slot in use with code 6; one
that gets no answer waits. That a SUBMIT that waits has taken nothing, and that DESTROY drops the writes to records that wait, is
the model's choice (log 17), and so is that a block that reads as poison is a bad one (log 39). TWCLR makes
the sectors of its range zero and EMPTY, and fails with code 5 for a range outside the frame part. -/
def Obligations.HostCommands : Prop :=
  ((∀ (s : State) (q : Bool) (status : Nat),
    let h := s.queue q
    let u := endCommand q status s
    u = { s.setQueue q { h with head := (h.head + 1) % h.size, asked := [] } with host := u.host } ∧
    cellsRead u.host (h.base.toNat + 64 * h.head + 4) 4 = toBytes status 4 ∧
    ∀ a, a < h.base.toNat + 64 * h.head + 4 ∨ h.base.toNat + 64 * h.head + 8 ≤ a → cellGet u.host a = cellGet s.host a) ∧
  (∀ (s : State) (q : Bool) (op : Nat) (ev : Instr),
    (op, ev) ∈ [(1, Instr.create q), (2, .destroy q), (3, .config q), (4, .submit q), (5, .cancel q), (6, .uncancel q),
      (7, .hostIcinv q), (8, .resync q), (9, .twclr q)] →
    (s.command q op = none → exec ev s = .next s) ∧
    (∀ e, s.command q op = some e →
      (natAt e 1 1 ≠ 0 ∨ natAt e 3 1 ≠ 0 → exec ev s = .next (endCommand q (2 ^ 31 + 1) s)) ∧
      (entryClean e = true → 2 ≤ op → op ≤ 8 → s.ctx? (natAt e 2 1) = none → exec ev s = .next (endCommand q (2 ^ 31 + 2) s)) ∧
      (∀ x, entryClean e = true → 2 ≤ op → op ≤ 8 → s.ctx? (natAt e 2 1) = some x → x.cp ≠ q →
        exec ev s = .next (endCommand q (2 ^ 31 + 4) s)))) ∧
  (∀ (s : State) (q : Bool) (e : List Byte), s.command q 1 = some e → entryClean e = true →
    let c := natAt e 2 1
    let a := dwordAt e 8
    (s.ctx? c ≠ none → exec (.create q) s = .next (endCommand q (2 ^ 31 + 2) s)) ∧
    (s.ctx? c = none → readBlock s c a = none → exec (.create q) s = .next (endCommand q (2 ^ 31 + 3) s)) ∧
    (∀ b, s.ctx? c = none → readBlock s c a = some b → ∃ x : Ctx,
      exec (.create q) s = .next (endCommand q 1 (deviceWrite { s with
        ctxs := s.ctxs ++ [x], wrote := s.wrote.filter (·.1 != c) } c none b.pool.toNat (List.replicate 8 0))) ∧
      x.id = c ∧ x.cp = q ∧ x.cfg = b ∧ x.pending = none ∧ x.root = b.ptroot ∧ x.cancelSet = [] ∧ x.slots = [] ∧
      x.starting = none ∧ x.fatal = none ∧ ∀ i < 48, vget x.fmtTable i 0 = fixedEntries.getD i 0)) ∧
  (∀ (s : State) (c : Nat) (a : DWord), deviceRead s c a.toNat 128 = none → readBlock s c a = none) ∧
  (∀ (s : State) (c : Nat) (a : DWord) (bs : List Byte), deviceRead s c a.toNat 128 = some bs →
    let d (i : Nat) : DWord := dwordAt bs i
    let w (i : Nat) : Nat := natAt bs i 4
    (a.toNat % 64 ≠ 0 ∨ (d 0).toNat / 2 ^ 40 ≠ 0 ∨ (d 0).toNat / 2 % 2 ^ 11 ≠ 0 ∨ w 0x10 / 4 ≠ 0 ∨ w 0x3C / 64 ≠ 0 ∨ (d 0x18).toNat % 64 ≠ 0 ∨ (d 0x20).toNat % 64 ≠ 0 ∨
      (d 0x40).toNat % 65536 ≠ 0 ∨ (d 0x48).toNat < 2 ^ 26 ∨ 16384 < (d 0x58).toNat ∨ (d 0x60).toNat % 32 ≠ 0 ∨
      (d 0x68).toNat % 32 ≠ 0 ∨ d 0x78 ≠ 0 → readBlock s c a = none) ∧
    (∀ b, readBlock s c a = some b → b.ptroot = d 0 ∧ b.handler = d 8 ∧ b.wglog = (w 0x10).testBit 0 ∧
      b.sstep = (w 0x10).testBit 1 ∧ b.logbase = d 0x18 ∧ b.logsize = d 0x20 ∧ b.brk0 = d 0x28 ∧ b.brk1 = d 0x30 ∧
      b.quota.toNat = w 0x38 ∧ b.hostacct = w 0x3C ∧ b.pool = d 0x40 ∧ b.poolsize = d 0x48 ∧ b.peertab = d 0x50 ∧
      b.npeer = (d 0x58).toNat ∧ b.errlog = d 0x60 ∧ b.errsize = d 0x68 ∧ b.expbase = d 0x70)) ∧
  (∀ (s : State) (q : Bool) (e : List Byte) (x : Ctx), s.ctx? (natAt e 2 1) = some x → x.cp = q → entryClean e = true →
    (s.command q 2 = some e →
      let late (l : Launch) : Prop := l.unacked ≠ [] ∨ ∃ g ∈ s.gangs, g.launch = l.id ∧
        ((∃ t ∈ g.strips, t.unacked ≠ 0) ∨ ∃ p ∈ s.progs, p.gang = g.id ∧ p.unacked ≠ 0)
      (∀ l ∈ s.launches, l.ctx = x.id → late l → (∀ m ∈ s.launches, m.id = l.id → m = l) →
        ∃ u, exec (.destroy q) s = .next u ∧ u.queue q = s.queue q ∧ (∀ g ∈ u.gangs, g.ctx ≠ x.id) ∧
          (∀ p ∈ u.progs, p.ctx ≠ x.id) ∧ (∀ p ∈ u.spans, p.ctx ≠ x.id) ∧ ∃ m ∈ u.launches, m.id = l.id ∧ m.ends ≠ none) ∧
      ((∀ l ∈ s.launches, l.ctx = x.id → ¬ late l) →
        ∃ u, exec (.destroy q) s = .next (endCommand q 1 u) ∧ u.ctx? x.id = none ∧ (∀ g ∈ u.gangs, g.ctx ≠ x.id) ∧
        (∀ p ∈ u.progs, p.ctx ≠ x.id) ∧ (∀ p ∈ u.spans, p.ctx ≠ x.id) ∧ (∀ l ∈ u.launches, l.ctx ≠ x.id) ∧
        (∀ y ∈ u.tlb, y.ctx ≠ x.id) ∧ (∀ y ∈ u.walks, y.ctx ≠ x.id) ∧ (∀ y ∈ u.fetched, y.ctx ≠ x.id) ∧
        (∀ y ∈ u.decoded, y.ctx ≠ x.id) ∧ (∀ y ∈ u.cpWrites, y.ctx ≠ x.id) ∧ ∀ y ∈ u.peerWaits, y.req.ctx ≠ x.id) ∧
      ((∀ v ∈ x.slots, v.node = none) → (∀ l ∈ s.launches, l.ctx ≠ x.id) → (∀ t ∈ s.dev.tdis, t.ctx ≠ x.id) →
        exec (.destroy q) s = .next (endCommand q 1 { s with
          gangs := s.gangs.filter (·.ctx != x.id)
          progs := s.progs.filter (·.ctx != x.id)
          spans := s.spans.filter (·.ctx != x.id)
          ctxs := s.ctxs.filter (·.id != x.id)
          tlb := s.tlb.filter (·.ctx != x.id)
          walks := s.walks.filter (·.ctx != x.id)
          fetched := s.fetched.filter (·.ctx != x.id)
          decoded := s.decoded.filter (·.ctx != x.id)
          wrote := s.wrote.filter (·.1 != x.id)
          cpWrites := s.cpWrites.filter (·.ctx != x.id)
          peerWaits := s.peerWaits.filter (·.req.ctx != x.id)
          benchChanged := addNew ((s.benchCtx.filter (·.2 == x.id)).map (·.1)) s.benchChanged
          benchCtx := s.benchCtx.filter (·.2 != x.id) }))) ∧
    (s.command q 3 = some e →
      (readBlock s x.id (dwordAt e 8) = none → exec (.config q) s = .next (endCommand q (2 ^ 31 + 3) s)) ∧
      (∀ b, readBlock s x.id (dwordAt e 8) = some b → exec (.config q) s = .next (endCommand q 1 (s.mapCtx x.id fun x => { x with
        cfg := { x.cfg with brk0 := b.brk0, brk1 := b.brk1, sstep := b.sstep, quota := b.quota }
        pending := some b
        weights := x.weights.map fun w => clampWeights w b.quota
        linkWeight := clampWeights x.linkWeight b.quota })))) ∧
    (s.command q 5 = some e →
      let t := natAt e 8 2
      let holders := x.slots.filter fun v => v.node.any fun n => n.state == .waiting && n.rcd.token == t
      let set := s.mapCtx x.id fun x =>
        { x with cancelSet := if x.cancelSet.contains t then x.cancelSet else x.cancelSet ++ [t] }
      (t = 0 → exec (.cancel q) s = .next (endCommand q 1 s)) ∧
      (t ≠ 0 → holders = [] → exec (.cancel q) s = .next (endCommand q 1 set)) ∧
      (∀ v n, t ≠ 0 → holders = [v] → x.slot v.num = v → v.node = some n → n.rcd.succs = [] →
        exec (.cancel q) s = .next (endCommand q 1 (set.marked x.id v.num (Slot.mk v.num v.counter none) n .cancelled 0)))) ∧
    (s.command q 6 = some e →
      exec (.uncancel q) s = .next (endCommand q 1
        (s.mapCtx x.id fun x => { x with cancelSet := x.cancelSet.filter (· != natAt e 8 2) }))) ∧
    (s.command q 7 = some e →
      ∃ fl dl, exec (.hostIcinv q) s = .next (endCommand q 1 { s with fetched := fl, decoded := dl }) ∧
        fl.Sublist s.fetched ∧ dl.Sublist s.decoded ∧
        (∀ f ∈ s.fetched, f ∈ fl ↔ ¬ ∃ j < (dwordAt e 16).toNat, ((dwordAt e 8).toNat + j) / 128 = f.line) ∧
        ∀ d ∈ s.decoded, d ∈ dl ↔ ¬ ∃ j < (dwordAt e 16).toNat, ∃ k < 4 * d.words.length,
          ((dwordAt e 8).toNat + j) / 4096 = (d.va + k) / 4096)) ∧
  (∀ (s : State) (q : Bool) (e : List Byte) (x : Ctx), s.command q 8 = some e → entryClean e = true →
    s.ctx? (natAt e 2 1) = some x → x.cp = q →
    ∃ b, exec (.resync q) s = .next (endCommand q 1 { s with host := cellsWrite s.host (dwordAt e 8).toNat b, tick := s.tick + 256 }) ∧
      b.length = 16384 ∧
      natAt b 0 8 = (if s.dev.ready then 1 else 0) + (if s.dev.recovery then 2 else 0) + (if s.dev.fatal then 4 else 0) ∧
      dwordAt b 8 = s.clock ∧
      (∀ x, x.id < 256 → s.ctx? x.id = some x →
        natAt b (0x100 + 32 * x.id) 4 = 1 + (if x.cp then 2 else 0) + (if x.fatal.isSome then 4 else 0)) ∧
      ∀ c < 256, s.ctx? c = none → ∀ i < 32, b.getD (0x100 + 32 * c + i) 0 = 0)) ∧
  ((∀ (s : State) (q : Bool) (e : List Byte) (x : Ctx), s.command q 4 = some e → entryClean e = true →
    s.ctx? (natAt e 2 1) = some x → x.cp = q →
    let a := dwordAt e 8
    let h := s.queue q
    let (p, v) := planReq s x.id .read true false (laneReq 0 a 80 [] [])
    let b := p.targets.map v.byteAt
    let u := v.readSegs (recordOf b).acct none p.segs
    let (w, _) := planReq u x.id .write true true (laneReq 0 (a + 0x44) 4 (List.replicate 4 0) [])
    let keys := (p.meet v x.id true false).asks v x.id
    (p.req.cause ≠ 0 → p.segs = [] → exec (.submit q) s = .next (endCommand q (2 ^ 31 + 6) v)) ∧
    (p.req.cause = 0 → p.segs ≠ [] → (∀ g ∈ p.segs, leafTwin g.leaf = false ∧ segTrouble v x.id true g = .waits) →
      (∀ k ∈ keys, peerOverdue v (h.asked.at_ (cpKey 0 k)) = false) →
      exec (.submit q) s = .next (v.setQueue q { h with asked := h.asked.still v (keys.map (cpKey 0)) })) ∧
    (p.plain v x.id true → w.req.cause ≠ 0 → exec (.submit q) s = .next (endCommand q (2 ^ 31 + 6) u)) ∧
    (p.plain v x.id true → w.plain u x.id false →
      let r := recordOf b
      natAt b 0x40 2 = 0 →
      let clean : Prop := a.toNat % 8 = 0 ∧ natAt b 0x38 4 / 2 ^ 22 = 0 ∧ natAt b 0x42 2 = 0 ∧ natAt b 0x44 1 = 0 ∧
        natAt b 0x44 4 / 2 ^ 17 = 0 ∧ natAt b 0x48 8 = 0
      let v := x.slot r.slot
      let count := v.counter + BitVec.ofNat 32 r.pred
      let node := Node.mk a r .waiting none
      let taken := u.marked x.id r.slot (Slot.mk r.slot count none) node .waiting 0
      (¬ clean → r.token = 0 → exec (.submit q) s = .next (endCommand q 1 (writeState u x.id a .failed 5 none r.acct))) ∧
      (clean → v.node ≠ none → r.token = 0 → exec (.submit q) s = .next (endCommand q 1 (writeState u x.id a .failed 6 none r.acct))) ∧
      (clean → v.node = none → r.token = 0 ∨ r.token ∉ x.cancelSet →
        (0 < count.toInt → exec (.submit q) s = .next (endCommand q 1 taken)) ∧
        (count = 0 → x.fatal = none → exec (.submit q) s = .next (endCommand q 1 (taken.mapCtx x.id fun x =>
          { x.setSlot (Slot.mk r.slot 0 (some { node with readyAt := some x.readySeq })) with readySeq := x.readySeq + 1 }))) ∧
        (count.toInt < 0 → r.token = 0 → exec (.submit q) s =
          .next (endCommand q 1 (taken.marked x.id r.slot (Slot.mk r.slot 0 none) node .failed 7)))))) ∧
  (∀ (s : State) (q : Bool) (e : List Byte), s.command q 9 = some e → entryClean e = true →
    let lo := (dwordAt e 8).toNat
    let len := (dwordAt e 16).toNat
    let good : Prop := lo % 32 = 0 ∧ len % 32 = 0 ∧ s.poolBase ≤ lo ∧ lo + len ≤ s.frameEnd
    (¬ good → exec (.twclr q) s = .next (endCommand q (2 ^ 31 + 5) s)) ∧
    (good → s.peerWaits = [] → (∀ g ∈ s.gangs, ∀ t ∈ g.strips, ∀ l, t.wait ≠ .access l) → (∀ p ∈ s.progs, ∀ i, p.status ≠ .waiting i) →
      ∃ u, exec (.twclr q) s = .next (endCommand q 1 u) ∧ u = { s with device := u.device } ∧
        (∀ j < len, cellGet u.device.cells (lo + j) = 0) ∧
        (∀ k, lo ≤ lo + 32 * k → lo + 32 * k < lo + len →
          countState u (s.countAddr (lo + 32 * k)) = 0 ∧ countUses u (s.countAddr (lo + 32 * k)) = 0) ∧
        ∀ b, (b < lo ∨ lo + len ≤ b) → (∀ k, 32 * k < len → b < s.countAddr (lo + 32 * k) ∨ s.countAddr (lo + 32 * k) + 4 ≤ b) →
          cellGet u.device.cells b = cellGet s.device.cells b)))

/-- R302, R303, R304: a doorbell gives a queue its tail, and is ignored with an error bit where the queue's
configuration or the tail is out of range; QERR's bits are cleared by writing 1; QBASE and QSIZE take a write only while
no entry is untaken; a write to a register of the window changes its implemented bits and no other register. R4, R5, R301:
a read of a register gives its value, 0 for reserved bits and for a register that is only written. -/
def Obligations.ManagementWindow : Prop :=
  (∀ (s : State) (q : Bool) (tail : Word),
    let h := s.queue q
    let valid : Prop := (∃ i < 16, h.size = 2 ^ i) ∧ h.base.toNat % 64 = 0
    (¬ valid → exec (.dbell q tail) s = .next (s.setQueue q { h with cfgErr := true })) ∧
    (valid → h.size ≤ tail.toNat → exec (.dbell q tail) s = .next (s.setQueue q { h with tailErr := true })) ∧
    (valid → tail.toNat < h.size → exec (.dbell q tail) s = .next (s.setQueue q { h with tail := tail.toNat }))) ∧
  (∀ (s : State) (q : Bool) (bits : Word), exec (.qerrClear q bits) s = .next (s.setQueue q { s.queue q with
    cfgErr := (s.queue q).cfgErr && !bits.getLsbD 0
    tailErr := (s.queue q).tailErr && !bits.getLsbD 1 })) ∧
  (∀ (s : State) (q size : Bool) (v : DWord),
    let h := s.queue q
    (h.head ≠ h.tail → exec (.queueConfigWrite q size v) s = .next s) ∧
    (h.head = h.tail → exec (.queueConfigWrite q true v) s = .next (s.setQueue q { h with size := v.toNat % 2 ^ 16 }) ∧
      exec (.queueConfigWrite q false v) s = .next (s.setQueue q { h with base := v }))) ∧
  (∀ (s : State) (off : Nat) (v : BitVec 128),
    ∃ d : Device, exec (.registerWrite off v) s = .next { s with dev := d } ∧
      d = { s.dev with c128 := d.c128, tierto := d.tierto, defport := d.defport, rowctl := d.rowctl, routes := d.routes } ∧
      d.c128 = (if off = 0x0C then v.getLsbD 0 else s.dev.c128) ∧
      d.tierto = (if off = 0x14 then v.toNat % 2 ^ 16 else s.dev.tierto) ∧
      d.defport = (if off = 0x80 then v.setWidth 12 else s.dev.defport) ∧
      (∀ i < 4, vget d.rowctl i 0 = if off = 0x20 + 4 * i then BitVec.ofNat 32 (v.toNat % 2 ^ 13) else vget s.dev.rowctl i 0) ∧
      (∀ k w, k < 4096 → off = 0x20000 + 16 * k → ((k, w) ∈ d.routes ↔ w = v &&& (2 ^ 77 - 1) ∧ w ≠ 0)) ∧
      (∀ k w, k < 4096 → off ≠ 0x20000 + 16 * k → ((k, w) ∈ d.routes ↔ (k, w) ∈ s.dev.routes))) ∧
  (∀ (s : State),
    let gives (off n v : Nat) : Prop := readRegister off s = { s with hostReply := .bytes (toBytes v n) }
    let bit (b : Bool) (n : Nat) : Nat := if b then n else 0
    gives 0x00 8 s.dev.devid.toNat ∧
    gives 0x08 4 (bit s.dev.ready 1 + bit s.dev.recovery 2 + bit s.dev.fatal 4) ∧
    gives 0x0C 4 (bit s.dev.c128 1) ∧ gives 0x10 4 s.dev.twpool.toNat ∧ gives 0x14 4 s.dev.tierto ∧
    (∀ off ∈ [0x18, 0x60, 0x68], gives off 4 0) ∧ (∀ i < 4, gives (0x20 + 4 * i) 4 (vget s.dev.rowctl i 0).toNat) ∧
    (∀ q, gives (if q then 0x50 else 0x40) 8 (s.queue q).base.toNat ∧ gives (if q then 0x58 else 0x48) 4 (s.queue q).size ∧
      gives (if q then 0x78 else 0x70) 4 (s.queue q).head ∧
      gives (if q then 0x94 else 0x90) 4 (bit (s.queue q).cfgErr 1 + bit (s.queue q).tailErr 2)) ∧
    gives 0x80 4 s.dev.defport.toNat ∧
    (∀ k < 64, let a := vget s.dev.accounts k Account.reset
      ∀ j v, [a.bench, a.macs, a.hbmrd, a.hbmwr, a.fabric, a.energy][j]? = some v → gives (0x10000 + 64 * k + 8 * j) 8 v.toNat) ∧
    ∀ k < 4096, (∀ w, s.dev.routes.find? (·.1 == k) = some (k, w) → gives (0x20000 + 16 * k) 16 w.toNat) ∧
      (s.dev.routes.find? (·.1 == k) = none → gives (0x20000 + 16 * k) 16 0))

/-- R169, R171, R278, R279, R290 to R294: an UP port of the second tier that goes down, or whose expander is late, retrains
under TIERTO; it comes back UP before that runs out, or is FAILED, when what waits for it faults with TIER_LINK and its
dirty lines are lost; PORTRESET retrains FAILED ports. A peer that has not answered for 200 ms fails what waits for it, a
load, WAIT, LAUNCH and EWAIT among them; an acknowledgement takes one write off what a release waits for, and with the last one
of a launch that has been stopped its node ends (R147). A flit resent changes
nothing, but a fabric port that goes down or comes up is a link event. An eviction writes a dirty line back, or loses it to
an uncorrectable error: its old bytes, poisoned, with a record for the page's owners. The host link trains to a generation
and a width. That link events are logged in every context, with a second-tier port's first address or a fabric port's
number, which contexts own a page, and that the widths are 1, 2, 4, 8 and 16, which is presumed from PCIe, is the model's own (log 32). -/
def Obligations.LinkEvents : Prop :=
  let logged (s : State) (at_ : Nat) : State :=
    (s.ctxs.map (·.id)).foldl (fun s c => logError s c 6 0 (BitVec.ofNat 64 at_) none) s
  let after (s : State) : Port := .retrain (s.clock + BitVec.ofNat 64 (s.dev.tierto * 2000000))
  let idle (s : State) : Prop := (∀ g ∈ s.gangs, ∀ t ∈ g.strips, ∀ l, t.wait ≠ .access l) ∧
    (∀ q ∈ s.progs, ∀ i, q.status ≠ .waiting i) ∧ s.cpWrites = []
  let overdue (s : State) (since : DWord) : Prop := 200 * 2000000 ≤ (s.clock - since).toNat
  (∀ (s : State) (p : Fin 4), ∀ ev ∈ [Instr.tierLinkDown p, .expanderTimeout p],
    (s.port p = .up → exec ev s = .next (logged (s.setPort p (after s)) (p * 2 ^ 41))) ∧
    (s.port p ≠ .up → exec ev s = .next s)) ∧
  (∀ (s : State) (mask : BitVec 4), ∃ ports, exec (.portreset mask) s = .next { s with dev := { s.dev with ports := ports } } ∧
    ∀ p < 4, vget ports p .up = if s.port p = .failed ∧ mask.getLsbD p = true then after s else s.port p) ∧
  (∀ (s : State) (p : Fin 4) (d : DWord), s.port p = .retrain d →
    let lines := (s.tier.dirty.map (·.line)).filter fun n => 128 * n / 2 ^ 41 % 4 == p.val
    (d.toNat ≤ s.clock.toNat → exec (.tierLinkUp p) s = .next s) ∧
    (s.clock.toNat < d.toNat → exec (.tierTimeout p) s = .next s) ∧
    (s.clock.toNat < d.toNat → idle s → exec (.tierLinkUp p) s = .next (logged (s.setPort p .up) (p * 2 ^ 41))) ∧
    (d.toNat ≤ s.clock.toNat → idle s → exec (.tierTimeout p) s =
      .next (lines.foldl (fun s n => loseLine s true n) (logged (s.setPort p .failed) (p * 2 ^ 41))))) ∧
  (∀ (s : State) (p : Fin 4), (∀ d, s.port p ≠ .retrain d) →
    exec (.tierLinkUp p) s = .next s ∧ exec (.tierTimeout p) s = .next s) ∧
  (∀ (s : State) (g : Gang) (t : Strip) (l : Launch) (a : Access) (r : LaneReq) (seg : Seg),
    s.resident g.id t.idx = some (g, t, l) → t.away = [] → t.parked = false → t.wait = .access [a] → a.lanes = [r] →
    a.kind = .load → r.cause = 0 → r.held = [seg] → leafTw seg.leaf = false → leafTwin seg.leaf = false →
    let parked : Strip := { t with
      wait := .none
      replay := parkIn a [{ r with held := [], cause := 0x19, at_ := BitVec.ofNat 64 seg.va, report := 0 }] t.replay }
    let bench := g.place.map (·.bench)
    (∀ (p : Fin 4) (d : DWord) (x : Nat), s.port p = .retrain d → s.gangs = [g] → g.strips = [t] → s.progs = [] → s.cpWrites = [] →
      seg.tgt = .tier x → x / 2 ^ 41 % 4 = p.val →
      (d.toNat ≤ s.clock.toNat → t.priv = false ∨ a.replayed = true → s.tier.dirty = [] →
        exec (.tierTimeout p) s = .next ((logged (s.setPort p .failed) (p * 2 ^ 41)).setStrip g.id parked)) ∧
      (s.clock.toNat < d.toNat → a.entry = none → a.uniform = false → a.last = false → a.flt = false → 0 < a.regs →
        r.lane < 32 → a.replayed = false →
        let v := logged (s.setPort p .up) (p * 2 ^ 41)
        segTrouble v g.ctx true seg = .none → ∃ y, exec (.tierLinkUp p) s =
          .next ((v.loadSegs (acctOf s g.launch) bench [seg]).setStrip g.id
            { t with wait := .none, outstanding := t.outstanding ++ [y] }) ∧
          y.holds a.dst a.regs ((1 : Mask) <<< r.lane) false fun _ k =>
            wordOf ((((Plan.mk r [seg] false).targets.map v.byteAt).drop (4 * k)).take 4))) ∧
    (∀ k x, seg.tgt = .peer k x → segTrouble s g.ctx true seg = .waits →
      let ev := Instr.peerTimeout (.strip g.id t.idx)
      (overdue s a.since → t.priv = false ∨ a.replayed = true → exec ev s = .next (s.setStrip g.id parked)) ∧
      (¬ overdue s a.since → exec ev s = .next (s.setStrip g.id { t with wait := .access [{ a with bench := bench }] })))) ∧
  (∀ (s : State) (g k : Nat) (t : Strip) (r : Reason) (i : Instr), s.strip? g k = some t →
    (∃ c v, i = .wait c v) ∨ (∃ v, i = .launch v) → t.wait = .again r i →
    ∃ u, exec i { bringIn g k s with cur := .strip g k } = .next u ∧
      exec (.peerTimeout (.strip g k)) s = .next (sendAgain (g, k) { u with cur := s.cur })) ∧
  (∀ (s : State) (p : Prog) (ea eb cond : BitVec 4) (since : DWord) (seg : Seg) (k x : Nat),
    let i := Instr.ewait ea eb cond
    let a := p.ereg ea
    let s' := { s with cur := .prog p.id }
    s'.running i = some p → p.status = .waiting i → cond.toNat < 4 → a.toNat < 2 ^ 57 - 4 → a.toNat % 4 = 0 →
    inTwinWindow a.toNat = false → p.held = [] → p.asked.at_ a.toNat = some since →
    let (q, u) := planReq s' p.ctx .read p.priv false (laneReq 0 a 4 [] [])
    q.req.cause = 0 → q.segs = [seg] → seg.tgt = .peer k x → segTrouble u p.ctx true seg = .waits →
    leafTw seg.leaf = false → leafTwin seg.leaf = false →
    (overdue s since → exec (.peerTimeout (.prog p.id)) s = .next { p.stops u 0x19 a with cur := s.cur }) ∧
    (¬ overdue s since → exec (.peerTimeout (.prog p.id)) s = .next (s.mapProg p.id fun q =>
      { q with status := .waiting i, table := p.table, held := [], asked := q.asked.still s [a.toNat] }))) ∧
  (∀ (s : State) (g k n : Nat),
    let acked (ag : Agent) : State := { s with launches := s.launches.map fun l => { l with unacked := l.unacked.erase ag } }
    (∀ l ∈ s.launches, l.ends = none) →
    exec (.peerWriteAck (.strip g k)) s =
      .next ((acked (.strip g k)).mapStrip g k fun t => { t with unacked := t.unacked - 1 }) ∧
    exec (.peerWriteAck (.prog n)) s = .next ((acked (.prog n)).mapProg n fun p => { p with unacked := p.unacked - 1 })) ∧
  (∀ (s : State) (l : Launch) (x : Ctx) (n : Node) (st : NodeState) (code : Nat) (ag : Agent),
    s.launches = [l] → l.ends = some (st, code) → s.ctx? l.ctx = some x → (x.slot l.slot).node = some n →
    n.state = .running → n.rcd.succs = [] → n.rcd.token = 0 → (st = .failed ∧ code ≠ 7) ∨ st = .cancelled →
    l.unacked = [ag] →
    let u := { s with launches := [] }.marked l.ctx l.slot (Slot.mk l.slot (x.slot l.slot).counter none) n st code
    (∀ g k, ag = .strip g k →
      exec (.peerWriteAck ag) s = .next (u.mapStrip g k fun t => { t with unacked := t.unacked - 1 })) ∧
    (∀ k, ag = .prog k → exec (.peerWriteAck ag) s = .next (u.mapProg k fun p => { p with unacked := p.unacked - 1 }))) ∧
  (∀ (s : State) (port : Nat) (up : Bool), port < 12 →
    let turned : State := logged { s with dev := { s.dev with fabricPorts := vset s.dev.fabricPorts port up } } port
    (vget s.dev.fabricPorts port false = up → exec (.flitResend (FabricLink.mk port up)) s = .next s) ∧
    (vget s.dev.fabricPorts port false ≠ up → up = false ∨ idle s →
      exec (.flitResend (FabricLink.mk port up)) s = .next turned)) ∧
  (∀ (s : State) (tier bad : Bool) (n : Nat) (d : DirtyLine),
    let ram (s : State) : Ram := if tier then s.tier else s.device
    let there : Prop := tier = true → s.port (128 * n / 2 ^ 41 % 4) = .up
    tier = true ∨ cachesLine s n = false →
    ((∀ d ∈ (ram s).dirty, d.line ≠ n) ∨ ¬ there → exec (.lineEviction tier n bad) s = .next s) ∧
    ((ram s).dirty.find? (·.line == n) = some d → there → ∃ u, exec (.lineEviction tier n bad) s = .next u ∧
      (bad = false → SameBytes s u ∧ (ram u).dirty = (ram s).dirty.filter (·.line != n) ∧ (ram u).owned = (ram s).owned.filter (·.2 != n) ∧ (ram u).poison = (ram s).poison ∧
        ((∃ o ∈ (ram s).owned, o.2 = n) → n / 32 ∈ (ram u).marks) ∧ (∀ f ∈ (ram s).marks, f ∈ (ram u).marks) ∧
        (tier = true → u = { s with tier := u.tier }) ∧
        (tier = false → u = { s with device := u.device, dev := { s.dev with accounts := u.dev.accounts }, tick := u.tick } ∧
          ∀ k < 64, d.acct ≠ some k → vget u.dev.accounts k Account.reset = vget s.dev.accounts k Account.reset)) ∧
      (bad = true → ∃ v, v = (if tier then { s with tier := v.tier } else { s with device := v.device }) ∧
        u = (ownersOf v tier (128 * n)).foldl (fun s c => logError s c 3 0 (BitVec.ofNat 64 (128 * n)) none) v ∧
        (ram v).dirty = (ram s).dirty.filter (·.line != n) ∧ (ram v).poisoned (128 * n) 128 = true ∧
        (d.old.length = 128 → (ram v).read (128 * n) 128 = d.old) ∧
        ∀ a, a < 128 * n ∨ 128 * n + d.old.length ≤ a → cellGet (ram v).cells a = cellGet (ram s).cells a))) ∧
  (∀ (s : State) (cxl : Bool) (gen width : Nat),
    (1 ≤ gen → gen ≤ 6 → width ∈ [1, 2, 4, 8, 16] → exec (.hostLinkTrain cxl gen width) s =
      .next { s with dev := { s.dev with link := .up cxl gen width } }) ∧
    (¬ (1 ≤ gen ∧ gen ≤ 6 ∧ width ∈ [1, 2, 4, 8, 16]) → exec (.hostLinkTrain cxl gen width) s = .next s))

/-- R222, R225, R230, R234, R239, R278, R279, R280, R282, R293, R298, R301: the host's accesses by physical address come
under CXL through the HDM range and else through BAR2; a read returns bytes, or poison where a sector is poisoned or a running
TDI refuses it; a write changes its bytes, but for one that a TDI refuses and one into the twin pool, which is logged. A
peer's access is translated in its context with user privilege; it answers each lane, and HOSTACCT is charged. A context
that does not export answers PERMISSION, an atomic on a twin address TWIN_MISUSE, and a misaligned access to a twin ALIGN. R232,
R293: a request that waits is kept with what it has been answered, and goes on where it stands when it comes again. That
a host access to a page of several contexts is charged to the first is the model's choice (log 9). -/
def Obligations.OutsideAccesses : Prop :=
  (∀ (s : State) (a : HostAccess),
    let under (cxl : Bool) : Prop := ∃ gen width, s.dev.link = .up cxl gen width
    let refused : Prop := ∃ t ∈ s.dev.tdis, t.state = .run ∧ a.stream ≠ some t.num ∧
      ∃ r ∈ t.regions, r.base < a.addr + a.len ∧ a.addr < r.base + r.size
    let charged (v u : State) : Prop := 0 < a.len → a.addr % 4096 + a.len ≤ 4096 → ∀ k < 64,
      (∀ c, (ownersOf v false a.addr).head? = some c → k ≠ (s.cfg c).hostacct) →
      vget u.dev.accounts k Account.reset = vget s.dev.accounts k Account.reset
    let touched (u : State) : State := { s with
      device := u.device, dev := { s.dev with accounts := u.dev.accounts }, tick := u.tick }
    ∀ p ∈ [(true, Instr.hdmAccess a), (false, Instr.bar2Access a)],
      (¬ under p.1 ∨ 2 ^ 40 < a.addr + a.len → exec p.2 s = .next { s with hostReply := .refused }) ∧
      (under p.1 → a.addr + a.len ≤ 2 ^ 40 →
        (a.write = none → refused ∨ s.device.poisoned a.addr a.len = true →
          exec p.2 s = .next { s with hostReply := .poison }) ∧
        (a.write = none → ¬ refused → s.device.poisoned a.addr a.len = false → ∃ u,
          exec p.2 s = .next { u with hostReply := .bytes ((List.range a.len).map fun i => cellGet s.device.cells (a.addr + i)) } ∧
          u = touched u ∧ u.device = { s.device with owned := u.device.owned, marks := u.device.marks } ∧ charged s u) ∧
        (∀ bs, a.write = some bs → refused → exec p.2 s = .next { s with hostReply := .done }) ∧
        (∀ bs, a.write = some bs → ¬ refused → bs.length = a.len →
          (a.addr + a.len ≤ s.poolBase ∨ s.poolBase + s.poolSize ≤ a.addr → ∃ u,
            exec p.2 s = .next { u with hostReply := .done } ∧ u = touched u ∧ charged u u ∧
            (∀ i < a.len, cellGet u.device.cells (a.addr + i) = bs.getD i 0) ∧
            ∀ b, b < a.addr ∨ a.addr + a.len ≤ b → cellGet u.device.cells b = cellGet s.device.cells b) ∧
          (0 < a.len → a.addr % 4096 + a.len ≤ 4096 → s.poolBase ≤ a.addr → a.addr + a.len ≤ s.poolBase + s.poolSize →
            exec p.2 s = .next { (ownersOf s false a.addr).foldl (fun s c => logError s c 2 0 (BitVec.ofNat 64 a.addr) none) s
              with hostReply := .done })))) ∧
  (∀ (s : State) (r : PeerRequest),
    let b := (s.cfg r.ctx).expbase
    let acct := (s.cfg r.ctx).hostacct
    let open_ : Prop := s.ctx? r.ctx ≠ none ∧ b.getLsbD 0 = true
    let lane (l : PeerLane) : DWord := BitVec.ofNat 64 (b.toNat / 2 ^ 38 % 2 ^ 19 * 2 ^ 38 + l.off)
    let total := (r.lanes.map (·.len)).sum
    let whole (l : PeerLane) : Prop := l.off + l.len ≤ 2 ^ 38 ∧ (r.op = .write → l.data.length = l.len)
    let onTwin (l : PeerLane) : Prop := ∃ j < l.len, inTwinWindow ((lane l).toNat + j) = true
    let crooked (l : PeerLane) : Prop := onTwin l ∧ l.len ≤ 16 ∧ (lane l).toNat % l.len ≠ 0
    let carried (u : State) (n : Nat) : Prop := acct < 64 →
      (vget u.dev.accounts acct Account.reset).fabric = (vget s.dev.accounts acct Account.reset).fabric + BitVec.ofNat 64 n
    let all (cause : Nat) : Out := .next { s with peerReply := r.lanes.map fun _ => .fault cause }
    (∀ p, s.peerWaits.find? (·.req == r) = some p → exec (.peerAccess r) s = .next (peerTry r p.lanes p.replies s)) ∧
    ((∀ p ∈ s.peerWaits, p.req ≠ r) → ¬ open_ ∨ (∃ l ∈ r.lanes, 2 ^ 38 < l.off + l.len) → exec (.peerAccess r) s = all 0x12) ∧
    ((∀ p ∈ s.peerWaits, p.req ≠ r) → open_ → (∀ l ∈ r.lanes, whole l) →
      ((∃ l ∈ r.lanes, crooked l) → exec (.peerAccess r) s = all 0x0D) ∧
      ((∀ l ∈ r.lanes, ¬ crooked l) →
        (r.op = .read → r.lanes ≠ [] → (∀ l ∈ r.lanes, l.data = [] ∧ l.cmp = []) →
          let (ps, u) := planAll s r.ctx .read false false (r.lanes.zipIdx.map fun (l, i) => laneReq i (lane l) l.len [] [])
          (∀ p ∈ ps, p.plain u r.ctx true) →
          exec (.peerAccess r) s = .next { chargeEnergy acct (chargeDram acct false (ps.flatMap (·.segs))
              (chargeFabric (recallSegs none (ps.flatMap (·.segs)) u) acct total)) with
            peerReply := ps.map fun p => .bytes (p.targets.map u.byteAt) }) ∧
        (r.op = .write → r.entry = none → (∀ l ∈ r.lanes, l.cmp = []) →
          let (ps, u) := planAll s r.ctx .write false true (r.lanes.zipIdx.map fun (l, i) => laneReq i (lane l) l.len l.data [])
          (∀ p ∈ ps, p.plain u r.ctx false) → ∃ m, Stored u m acct ps (r.lanes.map (·.data)) ∧ carried m total ∧
            exec (.peerAccess r) s = .next { m with peerReply := r.lanes.map fun _ => .ack }) ∧
        ((∀ l ∈ r.lanes, onTwin l) → r.op = .cas ∨ (∃ op, r.op = .atomic op) →
          exec (.peerAccess r) s = all 0x13) ∧
        (∀ l op, r.lanes = [l] → l.data.length = l.len → l.cmp = [] → r.op = .atomic op →
          inTwinWindow (lane l).toNat = false → l.len = 4 ∨ l.len = 8 →
          let (p, u) := planReq s r.ctx .both false true (laneReq 0 (lane l) l.len l.data [])
          p.plain u r.ctx true → (∀ g ∈ p.segs, ∀ x, g.tgt ≠ .host x) →
          let old := p.targets.map u.byteAt
          ∃ m, Stored u m acct [p] [toBytes (atomicOp op.toNat l.len (ofBytes old) (ofBytes l.data)) l.len] ∧ carried m l.len ∧
            exec (.peerAccess r) s = .next { m with peerReply := [.bytes old] }))))

/-- R23, R171, R221, R288, R295, R298, R300, R306: a device reset measures firmware and record; where a check fails the
device is in RECOVERY, and else bench groups start one after the other, and with the last, the twin pool is zero and the
device ready; until then no command is taken. Dirty lines are lost, the regions of running TDIs read as poison, and
memory, the host and the dump are as they were. DEVID is the low 64 bits of SHA-384 over the public key. Firmware is written
to flash where its signature and version pass, in RECOVERY with a reset; a write that is interrupted fails the next boot. The
values that the reset gives to what the rules name none for are the model's (log 3), and so is that a record which fails its
check is in force (log 29). R20, R25, R272, R289, R306: a corrected error is logged as kind 5 and changes nothing else; an
uncorrectable one in a strip halts it with MACHINE_CHECK and its context is fatal; one in device-wide state writes the dump
past the caches and makes the device fatal. That the dump's header has the magic word in bytes 0 to 7, its length in bytes 8
to 15 and SR_CLOCK in bytes 16 to 23, and that a region of less than 64 B holds no dump, is the model's own choice (log 32).
Heat and power change the clock only, but at its limit a block stops the device as by a fatal error. -/
def Obligations.BootAndErrors : Prop :=
  (let passes (own flash : Image) (whole : Bool) (r : Record) : Bool :=
    own.signed && whole && flash.signed && r.signed && decide (r.minVersion ≤ flash.version)
  let measured (own flash : Image) (r : Record) : List (BitVec 384) :=
    [own.digest, flash.digest, r.digest, BitVec.ofNat 384 flash.version]
  let accepted (s : State) (i : Image) : Prop := i.signed = true ∧ s.dev.assay.rcd.minVersion ≤ i.version
  (∀ (s : State) (r : Record), ∃ u, exec (.deviceReset r) s = .next u ∧
    let a := s.dev.assay
    let ok := passes a.own a.flash a.flashWhole r
    u = { State.reset with
      device := u.device, tier := u.tier, host := s.host, peers := s.peers, nextId := s.nextId, tick := s.tick
      schedule := s.schedule
      dev := { Device.reset with
        recovery := !ok
        devid := (sha384 (toBytes Config.publicKey.toNat 96).reverse).extractLsb' 0 64
        twpool := if ok then r.twpool else 0
        assay := Assay.mk (a.boots + 1) a.own a.flash a.flashWhole r (measured a.own a.flash r)
        dumped := s.dev.dumped } } ∧
    (∀ m : State → Ram, m = State.device ∨ m = State.tier → (m u).dirty = [] ∧ (m u).owned = [] ∧ (m u).marks = [] ∧
      (((m s).dirty.map (·.line)).Nodup → (∀ d ∈ (m s).dirty, d.old.length = 128) →
        (∀ d ∈ (m s).dirty, (m u).read (128 * d.line) 128 = d.old) ∧
        ∀ b, (∀ d ∈ (m s).dirty, b < 128 * d.line ∨ 128 * d.line + 128 ≤ b) → cellGet (m u).cells b = cellGet (m s).cells b)) ∧
    u.tier.poison = s.tier.poison ∧
    ((∀ t ∈ s.dev.tdis, t.state ≠ .run) → u.device.poison = s.device.poison) ∧
    ∀ t ∈ s.dev.tdis, t.state = .run → ∀ x ∈ t.regions, ∀ b n, x.base ≤ b → b < x.base + x.size → 0 < n →
      u.device.poisoned b n = true) ∧
  (∀ (s : State) (q : Bool) (op : Nat), s.dev.ready = false → s.command q op = none) ∧
  (∀ (s : State),
    let may : Prop := s.dev.assay.boots ≠ 0 ∧ s.dev.recovery = false ∧ s.dev.stopped = false ∧ s.dev.groups < 24
    (¬ may → exec .benchGroupStart s = .next s) ∧
    (may → s.dev.groups < 23 → exec .benchGroupStart s = .next { s with dev := { s.dev with groups := s.dev.groups + 1 } }) ∧
    (may → s.dev.groups = 23 → ∃ r, exec .benchGroupStart s =
        .next { s with device := r, dev := { s.dev with groups := 24, ready := true } } ∧
      ∀ b, cellGet r.cells b = if s.poolBase ≤ b ∧ b < s.poolBase + s.poolSize then 0 else cellGet s.device.cells b)) ∧
  (∀ (s : State) (i : Image) (cut : Bool),
    (s.dev.recovery = true ∨ ¬ accepted s i → exec (.firmwareUpdate i cut) s = .next s) ∧
    (s.dev.recovery = false → accepted s i → exec (.firmwareUpdate i cut) s =
      .next { s with dev := { s.dev with assay := { s.dev.assay with flash := i, flashWhole := !cut } } })) ∧
  (∀ (s : State) (i : Image) (r : Record) (cut : Bool),
    let ev := Instr.recoveryImage (Upload.mk i cut) r
    (s.dev.recovery = false ∨ ¬ accepted s i → exec ev s = .next s) ∧
    (s.dev.recovery = true → accepted s i → exec ev s =
      exec (.deviceReset r) { s with dev := { s.dev with assay := { s.dev.assay with flash := i, flashWhole := !cut } } } ∧
      ∃ u, exec ev s = .next u ∧ u.dev.recovery = !passes s.dev.assay.own i (!cut) r))) ∧
  ((∀ (s : State) (c : Nat) (a : DWord), exec (.correctedError c a) s = .next (logError s c 5 0 a none)) ∧
  (∀ (s : State) (g : Gang) (t : Strip) (l : Launch), s.gang? g.id = some g → g.strip? t.idx = some t →
    s.launch? g.launch = some l → t.away = [] →
    (t.halted = true ∨ t.retired = true ∨ mayRun s g.ctx = false → exec (.machineCheck g.id t.idx) s = .next s) ∧
    (t.halted = false → t.retired = false → mayRun s g.ctx = true →
      ∃ u r, exec (.machineCheck g.id t.idx) s = .next u ∧ (u.ctx? g.ctx).bind (·.fatal) = some r ∧ r.cause = 2 ∧
        r.epc = t.pc &&& 0x01FFFFFFFFFFFFFF ∧ r.fmask = t.active ∧ (u.strip? g.id t.idx).any (·.halted) = true ∧
        ∀ o ∈ u.gangs, o.ctx = g.ctx → o.place = none)) ∧
  (∀ (s : State),
    let base := s.dev.assay.rcd.dumpBase
    let size := s.dev.assay.rcd.dumpSize
    (s.dev.fatal = true → exec .deviceFatal s = .next s) ∧
    (s.dev.fatal = false → ∃ r, exec .deviceFatal s = .next { s with
        device := r, dev := { s.dev with fatal := true, dumped := decide (64 ≤ size) } } ∧
      (64 ≤ size → ∃ n, 64 ≤ n ∧ n ≤ size ∧ natAt (r.read base 64) 0 8 = 0x4C595344 ∧
        (n < 2 ^ 64 → natAt (r.read base 64) 8 8 = n) ∧ dwordAt (r.read base 64) 16 = s.clock ∧
        ∀ d ∈ r.dirty, 128 * d.line + 128 ≤ base ∨ base + n ≤ 128 * d.line) ∧
      ∀ b, b < base ∨ base + size ≤ b → cellGet r.cells b = cellGet s.device.cells b)) ∧
  (∀ (s : State) (die : Nat) (b : Block) (celsius : Nat),
    let limit : Nat := match b with
      | .stack _ => 100
      | _ => 110
    (∃ l, exec (.thermalThrottle die) s = .next { s with dev := { s.dev with hot := l } } ∧
      ∀ d, d ∈ l ↔ d = die ∨ d ∈ s.dev.hot) ∧
    (∃ l, exec (.powerThrottle b) s = .next { s with dev := { s.dev with throttled := l } } ∧
      ∀ d, d ∈ l ↔ d = b ∨ d ∈ s.dev.throttled) ∧
    (celsius < limit → exec (.overtempStop b celsius) s = .next s) ∧
    (limit ≤ celsius → ∃ u, exec .deviceFatal s = .next u ∧
      exec (.overtempStop b celsius) s = .next { u with dev := { u.dev with stopped := true } })))

/-- R296 to R298: the assay processor answers the SPDM requests in the order of a connection; a request out of order is
answered with an error. The connection takes the version 1.3 or 1.2 that its first request after GET_VERSION names, and the
four algorithms. The chain in slot 0 is issued over the public key and is returned in parts, its digest is SHA-384 over it,
measurements are given by their index with a signature, and a session is exchanged, finished and ended. A TDI of a context is
locked with its regions and one key for each, started, and stopped by its interface or by an error; after RUN its regions read
as poison. That the order is SPDM's own is presumed (log 8). -/
def Obligations.Trust : Prop :=
  (let key := (toBytes Config.publicKey.toNat 96).reverse
   ∃ head tail, certChain = head ++ key ++ tail) ∧
  (∀ (s : State),
    let p := s.dev.spdm
    let answers (d : Doe) (p : Spdm) : Out := .next { s with doe := d, dev := { s.dev with spdm := p } }
    let signs (d : Doe) (p : Spdm) : Out := .next { s with doe := d, tick := s.tick + 1, dev := { s.dev with spdm := p } }
    let refused : Out := .next { s with doe := .error }
    exec .getVersion s = answers (.versions [0x13, 0x12]) (Spdm.mk 0x10 false false none none) ∧
    exec .getCapabilities s = (if p.version = 0x10 ∧ (s.mail = 0x13 ∨ s.mail = 0x12)
      then answers .capabilities { p with version := s.mail.toNat, caps := true } else refused) ∧
    exec .negotiateAlgorithms s = (if p.caps
      then answers (.algorithms [.ecdsaP384, .sha384, .ecdheP384, .aes256Gcm]) { p with algs := true } else refused) ∧
    exec .getDigests s = (if p.algs then answers (.digests 1 (sha384 certChain)) p else refused) ∧
    (∀ slot off len,
      (p.algs = true → slot = 0 → off < certChain.length → ∃ bs rest,
        exec (.getCertificate slot off len) s = answers (.certificate bs rest) p ∧ bs.length ≤ len ∧
        off + bs.length + rest = certChain.length ∧ (0 < rest → bs.length = len) ∧
        ∀ k < bs.length, bs.getD k 0 = certChain.getD (off + k) 0) ∧
      (p.algs = false ∨ slot ≠ 0 ∨ certChain.length ≤ off → exec (.getCertificate slot off len) s = refused)) ∧
    (∀ slot nonce,
      (p.algs = true → slot = 0 → ∃ g, exec (.challenge slot nonce) s = signs (.challengeAuth slot g) p) ∧
      (p.algs = false ∨ slot ≠ 0 → exec (.challenge slot nonce) s = refused)) ∧
    (∀ (index : BitVec 8) (nonce : BitVec 256),
      let all := s.dev.assay.measurements.zipIdx.map fun (m, i) => (i + 1, m)
      let asked := if index = 0xFF then all else all.filter (·.1 == index.toNat)
      (p.algs = true → index = 0 ∨ index = 0xFF ∨ asked ≠ [] → ∃ g,
        exec (.getMeasurements index nonce) s = signs (.measurements asked g) p) ∧
      (p.algs = false ∨ (index ≠ 0 ∧ index ≠ 0xFF ∧ asked = []) → exec (.getMeasurements index nonce) s = refused)) ∧
    (∀ nonce id,
      (p.algs = true → ∃ g, exec (.keyExchange nonce id) s = signs (.keyExchangeRsp id g) { p with pendingSession := some id }) ∧
      (p.algs = false → exec (.keyExchange nonce id) s = refused)) ∧
    (∀ id, exec (.finish id) s = if p.pendingSession = some id then
        answers .done { p with pendingSession := none, session := some id } else refused) ∧
    (∀ id, exec (.endSession id) s = if p.session = some id then answers .done { p with session := none } else refused)) ∧
  (∀ (s : State) (n c : Nat) (rs : List Region),
    let free : Prop := ∀ t, s.dev.tdis.find? (·.num == n) = some t → t.state = .stopped
    let good : Prop := n < 64 ∧ s.ctx? c ≠ none ∧ rs.length ≤ 16 ∧ free ∧
      ∀ r ∈ rs, r.base % 2 ^ 21 = 0 ∧ r.size % 2 ^ 21 = 0 ∧ 0 < r.size ∧ r.base + r.size ≤ 2 ^ 40
    (¬ good → exec (.lockInterface n c rs) s = .next { s with doe := .error }) ∧
    (good → ∃ keys, keys.length = rs.length ∧ exec (.lockInterface n c rs) s = .next { s with
      tick := s.tick + rs.length
      doe := .done
      dev := { s.dev with tdis := Tdi.mk n c rs keys .locked :: s.dev.tdis.filter (·.num != n) } })) ∧
  (∀ (s : State) (n : Nat),
    let set (f : Tdi → Tdi) : Device := { s.dev with tdis := mapWhere (·.num == n) f s.dev.tdis }
    let left : Device := set fun t => { t with keys := [], state := .stopped }
    (s.dev.tdis.find? (·.num == n) = none →
      exec (.startInterface n) s = .next { s with doe := .error } ∧ exec (.stopInterface n) s = .next { s with doe := .error } ∧
      exec (.tdiError n) s = .next s) ∧
    (∀ t, s.dev.tdis.find? (·.num == n) = some t →
      (t.state = .locked → exec (.startInterface n) s = .next { s with doe := .done, dev := set fun t => { t with state := .run } }) ∧
      (t.state ≠ .locked → exec (.startInterface n) s = .next { s with doe := .error }) ∧
      ∃ r, exec (.stopInterface n) s = .next { s with device := r, doe := .done, dev := left } ∧
        exec (.tdiError n) s = .next { s with device := r, dev := left } ∧ r = { s.device with poison := r.poison } ∧
        (t.state ≠ .run → r = s.device) ∧
        (t.state = .run → ∀ x ∈ t.regions, ∀ b k, x.base ≤ b → b < x.base + x.size → 0 < k → r.poisoned b k = true)))

/-! The machine. -/

/-- R72, R91, R96, R161, R250, R269, R370: a step gives the turn to an agent (log 1), and an agent that runs executes the
instruction whose words stand at its PC: exec of the decoded instruction, in the state after the fetch, for a strip, a span
and an engine program; one that waits to issue an instruction is given that one. What an event or a command processor does is
exec of it; a read of a register is the host's. Words that are no instruction trap with ILLEGAL_OP in a strip, and stop a
program with 0x21, as does a word that announces another. A span that DEBUG would meet is dealt out. A word is fetched from its
translated address. -/
def Obligations.StepRunsDecoded : Prop :=
  (∀ (s v : State) (turn : Turn), s.begun = (turn, v) →
    (∀ gid k g t l x, turn = .issue (.strip gid k) → v.gang? gid = some g → g.strip? k = some t →
      v.launch? g.launch = some l → v.ctx? g.ctx = some x → mayRun v g.ctx = true → t.away = [] → debugHits x.cfg t = false →
      (t.wait = .none → stripReady v g t l x (.nop false) = true →
        ∀ ws u, crack g.bench g.ctx t.pc.toNat (fetchInstr g.ctx t.priv (some g.bench) t.asked t.pc.toNat v) = (.words ws, u) →
          (∀ i, decode ws = some i → step s = exec i { u.setStrip gid { t with asked := [] } with cur := .strip gid k }) ∧
          (decode ws = none → t.priv = false → t.replay = [] → handlerOf u g.ctx ≠ 0 → step s = .next (u.setStrip g.id
            (t.vectored (g.coord l.hdr t.idx) (handlerOf u g.ctx) (plainTrap t 0x08))))) ∧
      (∀ r i, t.wait = .again r i → stripReady v g t l x i = true → step s = exec i { v with cur := .strip gid k })) ∧
    (∀ n p, turn = .issue (.span n) → v.span? n = some p → p.waiting = false → mayRun v p.ctx = true →
      (spanDebug (v.cfg p.ctx) p = true → step s = .next (dealOut v p)) ∧
      (spanDebug (v.cfg p.ctx) p = false → ∀ ws u, fetchInstr p.ctx false none p.asked p.pc.toNat v = (.words ws, u) →
        (∀ i, decode ws = some i →
          step s = exec i { u.mapSpan n (fun q => { q with asked := [] }) with cur := .span n }) ∧
        (decode ws = none → step s = .next (dealOut u p)))) ∧
    (∀ n p, turn = .issue (.prog n) → v.prog? n = some p → mayRun v p.ctx = true →
      (p.status = .running → progReady v p (.nop false) = true →
        ∀ word u, fetchWord (onStack p.cls) v p.ctx p.priv none p.asked p.pc.toNat = (.word word, u) →
          (∀ i, extraWords word = 0 → decode [word] = some i →
            step s = exec i { u.mapProg n (fun q => { q with asked := [] }) with cur := .prog n }) ∧
          (0 < extraWords word ∨ decode [word] = none → u.prog? n = some p → step s = .next (p.stops u 0x21 0))) ∧
      (∀ i, p.status = .waiting i → progReady v p i = true → step s = exec i { v with cur := .prog n })) ∧
    (∀ i, turn = .event i → isEvent i = true → step s = exec i { v with cur := .nobody }) ∧
    (∀ q op ev, turn = .queue q → v.cpWrites = [] → (op, ev) ∈ [(1, Instr.create q), (2, .destroy q), (3, .config q),
        (4, .submit q), (5, .cancel q), (6, .uncancel q), (7, .hostIcinv q), (8, .resync q), (9, .twclr q)] →
      v.command q op ≠ none → step s = exec ev v) ∧
    (∀ off, turn = .readRegister off → step s = .next (readRegister off v)) ∧
    (∀ m, turn = .mail m → step s = .next { v with mail := m })) ∧
  (∀ (s : State) (c va pa : Nat) (priv stack : Bool) (asked : Asked) (leaf : DWord) (u : State),
    va + 4 ≤ 2 ^ 57 → translate s c va .fetch priv = (.ok (leaf, .device pa), u) → leafTwin leaf = false → inShadow u pa = false →
    segTrouble u c true (Seg.mk va 4 leaf (.device pa)) = .none →
    fetchWord stack s c priv none asked va = (.word (wordOf (u.device.read pa 4)), u) ∧
    ∀ b, (∀ f ∈ s.fetched, f.bench ≠ b) → u.fetched = s.fetched →
      ∃ z, fetchWord stack s c priv (some b) asked va = (.word (wordOf (u.device.read pa 4)), z) ∧
        z = { u with fetched := z.fetched, tick := z.tick } ∧ u.fetched.Sublist z.fetched)

/-- R23, R54, R286, R294, R301, R302: after reset the device is not ready and nothing exists or runs; SR_CLOCK and the
accounts are 0, and the registers of the window hold their reset values. That unwritten memory reads as 0 is the model's
choice (log 2), and so is that the tails of the queues are 0, for which no rule gives a value (log 3). -/
def Obligations.ResetState : Prop :=
  let s := State.reset
  s.dev.ready = false ∧ s.dev.recovery = false ∧ s.dev.fatal = false ∧ s.dev.groups = 0 ∧ s.dev.tierto = 50 ∧
  s.dev.c128 = false ∧ s.dev.defport = 0 ∧ s.dev.routes = [] ∧ (∀ i < 4, vget s.dev.rowctl i 0 = 0x1040) ∧
  (∀ i < 64, vget s.dev.accounts i Account.reset = Account.mk 0 0 0 0 0 0) ∧ (∀ q, s.queue q = s.queue false) ∧
  (s.queue false).base = 0 ∧ (s.queue false).size = 0 ∧ (s.queue false).head = 0 ∧ (s.queue false).tail = 0 ∧ (s.queue false).cfgErr = false ∧ (s.queue false).tailErr = false ∧
  s.ctxs = [] ∧ s.launches = [] ∧ s.spans = [] ∧ s.gangs = [] ∧ s.progs = [] ∧ s.clock = 0 ∧
  (∀ a, cellGet s.device.cells a = 0) ∧ s.device.dirty = [] ∧ s.device.poison = [] ∧ s.device.marks = [] ∧
  s.memoryWf = true

/-- A step keeps every memory in its canonical form (log 2). -/
def Obligations.MemoryStaysCanonical : Prop :=
  ∀ s u : State, s.memoryWf = true → step s = .next u → u.memoryWf = true

/-! Encoding. -/

/-- R72 to R94: words that the manual writes out decode to what they stand for, one of each of several families; and a
word of no opcode is no instruction. -/
def Obligations.SpecWordsDecode : Prop :=
  let x (vc : BitVec 6) (gn ge : Bool) (gp : BitVec 5) : XWord := XWord.mk 63 0 false vc false ge gn gp 0
  decode [0] = some (.add .i32 (W3.mk false 0 0 0 false false none)) ∧
  decode [0x200828C7, 0xFC070000] = some (.mad .i32 (W3.mk false 4 5 6 false false (some (x 7 false false 0)))) ∧
  decode [0x0482041F] = some (.andi (WImm.mk false 1 0 true 31 none)) ∧
  decode [0x27AE0000, 0x340C00D0] = some (.movi (WMovi.mk false 23 0 (some 0x340C00D0))) ∧
  decode [0x810620A0] = some (.andG (W3.mk false 3 4 5 false false none)) ∧
  decode [0x0A0420A2] = some (.fcmp false .lt (WCmp.mk false 2 4 5 false false none)) ∧
  decode [0x50182002] = some (.ld (WMem.mk true 12 4 false 0 2 none)) ∧
  decode [0x10983004] = some (.st (WMem.mk false 12 6 false 0 4 none)) ∧
  decode [0xA802001F, 0x00000014] = some (.bra false 0 true 31 (some 20)) ∧
  decode [0xAA800000, 0xFC006000] = some (.exit false (some (x 0 true true 0))) ∧
  decode [0x8B060000] = some (.barSync false 3 none) ∧
  decode [0x17700001] = some (.accrdZero (WAcc.mk false 56 0 none)) ∧
  decode [0x990020C0] = some (.pgmapL0 (WAddr2.mk false 4 6 none)) ∧
  decode [0x98000000] = some (.tret false) ∧
  decode [0x9F148100] = some (.ewait 2 9 2) ∧
  decode [0xFFFFFFFF] = none

/-- R72 to R91: the words of every well-formed instruction decode to it. -/
def Obligations.DecodeAfterEncode : Prop :=
  ∀ i : Instr, WellFormed i → isEvent i = false → decode (encode i) = some i
end

