-- ==== Sys2Proof/Laws/Access.lean ====
section
/-! SUPPORT. What follows an access to memory: the ownership that it takes from an L1 and the account that it is charged to. -/

namespace Sys2Proof.Machine

/-- Taking lines back from an L1 changes what it owns and the write marks alone (R168, R257). -/
theorem Ram.recall_same (r : Ram) (test : Nat × Nat → Bool) :
    ∃ o m, r.recall test = { r with owned := o, marks := m } := by
  unfold Ram.recall; split
  · exact ⟨_, _, rfl⟩
  · exact ⟨r.owned, r.marks, rfl⟩

/-- A charge leaves every other account as it is (R301). -/
theorem charge_others (s : State) (acct k : Nat) (f : Account → Account) (h : k ≠ acct) :
    vget (charge s acct f).dev.accounts k Account.reset = vget s.dev.accounts k Account.reset := by
  simp only [charge, vget, vset]
  split
  · split
    · rw [Vector.getElem_set_ne _ _ (Ne.symm h)]
    · rfl
  · rfl

/-- A read takes lines from L1s, and nothing more (R168, R257). -/
theorem recallSegs_same (bench : Option Nat) (gs : List Seg) (s : State) : ∃ o m o' m', recallSegs bench gs s =
    { s with device := { s.device with owned := o, marks := m }, tier := { s.tier with owned := o', marks := m' } } := by
  induction gs generalizing s with
  | nil => exact ⟨_, _, _, _, rfl⟩
  | cons g gs ih =>
    match h : g.tgt with
    | .device pa =>
      obtain ⟨o, m, e⟩ := Ram.recall_same s.device (ownedElsewhere bench pa g.len)
      obtain ⟨o1, m1, o2, m2, e'⟩ := ih { s with device := s.device.recall (ownedElsewhere bench pa g.len) }
      refine ⟨o1, m1, o2, m2, ?_⟩
      simp only [recallSegs, List.foldl_cons, h] at e' ⊢
      rw [e', e]
    | .tier pa =>
      obtain ⟨o, m, e⟩ := Ram.recall_same s.tier (ownedElsewhere bench pa g.len)
      obtain ⟨o1, m1, o2, m2, e'⟩ := ih { s with tier := s.tier.recall (ownedElsewhere bench pa g.len) }
      refine ⟨o1, m1, o2, m2, ?_⟩
      simp only [recallSegs, List.foldl_cons, h] at e' ⊢
      rw [e', e]
    | .host pa => simpa only [recallSegs, List.foldl_cons, h] using ih s
    | .peer k off => simpa only [recallSegs, List.foldl_cons, h] using ih s

/-- What a read of no twin page is charged changes one account and the counter of free values (R301). -/
theorem chargeDram_read (acct : Nat) (gs : List Seg) (s : State) (plain : ∀ g ∈ gs, leafTwin g.leaf = false) :
    chargeDram acct false gs s = s ∨ ∃ f, chargeDram acct false gs s = charge { s with tick := s.tick + 1 } acct f := by
  unfold chargeDram
  by_cases h : dramBytes gs = 0
  · simp [h]
  · right
    have none_ : (gs.filter fun g => false || leafTwin g.leaf) = [] := by
      simpa [List.filter_eq_nil_iff] using plain
    simp only [h, if_false, none_, claimSegs, List.foldl_nil]
    exact ⟨_, rfl⟩

/-- A read of no twin page, with the lines that it takes from L1s and what it is charged, only reads. -/
theorem read_onlyRead (acct : Nat) (bench : Option Nat) (rs gs : List Seg) (s : State)
    (plain : ∀ g ∈ gs, leafTwin g.leaf = false) :
    OnlyRead s (chargeDram acct false gs (recallSegs bench rs s)) acct := by
  obtain ⟨o, m, o', m', e⟩ := recallSegs_same bench rs s
  rw [e]
  obtain h | ⟨f, h⟩ := chargeDram_read acct gs
    { s with device := { s.device with owned := o, marks := m }, tier := { s.tier with owned := o', marks := m' } } plain
  · rw [h]; exact ⟨⟨rfl, fun _ _ _ => rfl⟩, ⟨fun _ => rfl, fun _ => rfl, fun _ => rfl, rfl⟩, rfl, rfl, rfl⟩
  · rw [h]
    exact ⟨⟨rfl, fun k _ hk => charge_others _ _ _ _ hk⟩, ⟨fun _ => rfl, fun _ => rfl, fun _ => rfl, rfl⟩, rfl, rfl, rfl⟩

end Sys2Proof.Machine
end

