-- ==== Sys2Proof/Laws/State.lean ====
section
/-! SUPPORT. What each update of the state leaves as it is: one lemma for each field of State and each update. -/

namespace Sys2Proof.Machine

@[simp] theorem State.mapCtx_clock (s : State) (c : Nat) (f : Ctx → Ctx) : (s.mapCtx c f).clock = s.clock := rfl
@[simp] theorem State.mapCtx_dev (s : State) (c : Nat) (f : Ctx → Ctx) : (s.mapCtx c f).dev = s.dev := rfl
@[simp] theorem State.mapCtx_device (s : State) (c : Nat) (f : Ctx → Ctx) : (s.mapCtx c f).device = s.device := rfl
@[simp] theorem State.mapCtx_tier (s : State) (c : Nat) (f : Ctx → Ctx) : (s.mapCtx c f).tier = s.tier := rfl
@[simp] theorem State.mapCtx_host (s : State) (c : Nat) (f : Ctx → Ctx) : (s.mapCtx c f).host = s.host := rfl
@[simp] theorem State.mapCtx_peers (s : State) (c : Nat) (f : Ctx → Ctx) : (s.mapCtx c f).peers = s.peers := rfl
@[simp] theorem State.mapCtx_launches (s : State) (c : Nat) (f : Ctx → Ctx) : (s.mapCtx c f).launches = s.launches := rfl
@[simp] theorem State.mapCtx_spans (s : State) (c : Nat) (f : Ctx → Ctx) : (s.mapCtx c f).spans = s.spans := rfl
@[simp] theorem State.mapCtx_gangs (s : State) (c : Nat) (f : Ctx → Ctx) : (s.mapCtx c f).gangs = s.gangs := rfl
@[simp] theorem State.mapCtx_progs (s : State) (c : Nat) (f : Ctx → Ctx) : (s.mapCtx c f).progs = s.progs := rfl
@[simp] theorem State.mapCtx_benchCtx (s : State) (c : Nat) (f : Ctx → Ctx) : (s.mapCtx c f).benchCtx = s.benchCtx := rfl
@[simp] theorem State.mapCtx_benchChanged (s : State) (c : Nat) (f : Ctx → Ctx) : (s.mapCtx c f).benchChanged = s.benchChanged := rfl
@[simp] theorem State.mapCtx_wrote (s : State) (c : Nat) (f : Ctx → Ctx) : (s.mapCtx c f).wrote = s.wrote := rfl
@[simp] theorem State.mapCtx_cpWrites (s : State) (c : Nat) (f : Ctx → Ctx) : (s.mapCtx c f).cpWrites = s.cpWrites := rfl
@[simp] theorem State.mapCtx_tlb (s : State) (c : Nat) (f : Ctx → Ctx) : (s.mapCtx c f).tlb = s.tlb := rfl
@[simp] theorem State.mapCtx_walks (s : State) (c : Nat) (f : Ctx → Ctx) : (s.mapCtx c f).walks = s.walks := rfl
@[simp] theorem State.mapCtx_fetched (s : State) (c : Nat) (f : Ctx → Ctx) : (s.mapCtx c f).fetched = s.fetched := rfl
@[simp] theorem State.mapCtx_decoded (s : State) (c : Nat) (f : Ctx → Ctx) : (s.mapCtx c f).decoded = s.decoded := rfl
@[simp] theorem State.mapCtx_nextId (s : State) (c : Nat) (f : Ctx → Ctx) : (s.mapCtx c f).nextId = s.nextId := rfl
@[simp] theorem State.mapCtx_hostReply (s : State) (c : Nat) (f : Ctx → Ctx) : (s.mapCtx c f).hostReply = s.hostReply := rfl
@[simp] theorem State.mapCtx_peerReply (s : State) (c : Nat) (f : Ctx → Ctx) : (s.mapCtx c f).peerReply = s.peerReply := rfl
@[simp] theorem State.mapCtx_peerWaits (s : State) (c : Nat) (f : Ctx → Ctx) : (s.mapCtx c f).peerWaits = s.peerWaits := rfl
@[simp] theorem State.mapCtx_doe (s : State) (c : Nat) (f : Ctx → Ctx) : (s.mapCtx c f).doe = s.doe := rfl
@[simp] theorem State.mapCtx_mail (s : State) (c : Nat) (f : Ctx → Ctx) : (s.mapCtx c f).mail = s.mail := rfl
@[simp] theorem State.mapCtx_tick (s : State) (c : Nat) (f : Ctx → Ctx) : (s.mapCtx c f).tick = s.tick := rfl
@[simp] theorem State.mapCtx_cur (s : State) (c : Nat) (f : Ctx → Ctx) : (s.mapCtx c f).cur = s.cur := rfl
@[simp] theorem State.mapCtx_schedule (s : State) (c : Nat) (f : Ctx → Ctx) : (s.mapCtx c f).schedule = s.schedule := rfl

@[simp] theorem State.mapLaunch_clock (s : State) (i : Nat) (f : Launch → Launch) : (s.mapLaunch i f).clock = s.clock := rfl
@[simp] theorem State.mapLaunch_dev (s : State) (i : Nat) (f : Launch → Launch) : (s.mapLaunch i f).dev = s.dev := rfl
@[simp] theorem State.mapLaunch_device (s : State) (i : Nat) (f : Launch → Launch) : (s.mapLaunch i f).device = s.device := rfl
@[simp] theorem State.mapLaunch_tier (s : State) (i : Nat) (f : Launch → Launch) : (s.mapLaunch i f).tier = s.tier := rfl
@[simp] theorem State.mapLaunch_host (s : State) (i : Nat) (f : Launch → Launch) : (s.mapLaunch i f).host = s.host := rfl
@[simp] theorem State.mapLaunch_peers (s : State) (i : Nat) (f : Launch → Launch) : (s.mapLaunch i f).peers = s.peers := rfl
@[simp] theorem State.mapLaunch_ctxs (s : State) (i : Nat) (f : Launch → Launch) : (s.mapLaunch i f).ctxs = s.ctxs := rfl
@[simp] theorem State.mapLaunch_spans (s : State) (i : Nat) (f : Launch → Launch) : (s.mapLaunch i f).spans = s.spans := rfl
@[simp] theorem State.mapLaunch_gangs (s : State) (i : Nat) (f : Launch → Launch) : (s.mapLaunch i f).gangs = s.gangs := rfl
@[simp] theorem State.mapLaunch_progs (s : State) (i : Nat) (f : Launch → Launch) : (s.mapLaunch i f).progs = s.progs := rfl
@[simp] theorem State.mapLaunch_benchCtx (s : State) (i : Nat) (f : Launch → Launch) : (s.mapLaunch i f).benchCtx = s.benchCtx := rfl
@[simp] theorem State.mapLaunch_benchChanged (s : State) (i : Nat) (f : Launch → Launch) : (s.mapLaunch i f).benchChanged = s.benchChanged := rfl
@[simp] theorem State.mapLaunch_wrote (s : State) (i : Nat) (f : Launch → Launch) : (s.mapLaunch i f).wrote = s.wrote := rfl
@[simp] theorem State.mapLaunch_cpWrites (s : State) (i : Nat) (f : Launch → Launch) : (s.mapLaunch i f).cpWrites = s.cpWrites := rfl
@[simp] theorem State.mapLaunch_tlb (s : State) (i : Nat) (f : Launch → Launch) : (s.mapLaunch i f).tlb = s.tlb := rfl
@[simp] theorem State.mapLaunch_walks (s : State) (i : Nat) (f : Launch → Launch) : (s.mapLaunch i f).walks = s.walks := rfl
@[simp] theorem State.mapLaunch_fetched (s : State) (i : Nat) (f : Launch → Launch) : (s.mapLaunch i f).fetched = s.fetched := rfl
@[simp] theorem State.mapLaunch_decoded (s : State) (i : Nat) (f : Launch → Launch) : (s.mapLaunch i f).decoded = s.decoded := rfl
@[simp] theorem State.mapLaunch_nextId (s : State) (i : Nat) (f : Launch → Launch) : (s.mapLaunch i f).nextId = s.nextId := rfl
@[simp] theorem State.mapLaunch_hostReply (s : State) (i : Nat) (f : Launch → Launch) : (s.mapLaunch i f).hostReply = s.hostReply := rfl
@[simp] theorem State.mapLaunch_peerReply (s : State) (i : Nat) (f : Launch → Launch) : (s.mapLaunch i f).peerReply = s.peerReply := rfl
@[simp] theorem State.mapLaunch_peerWaits (s : State) (i : Nat) (f : Launch → Launch) : (s.mapLaunch i f).peerWaits = s.peerWaits := rfl
@[simp] theorem State.mapLaunch_doe (s : State) (i : Nat) (f : Launch → Launch) : (s.mapLaunch i f).doe = s.doe := rfl
@[simp] theorem State.mapLaunch_mail (s : State) (i : Nat) (f : Launch → Launch) : (s.mapLaunch i f).mail = s.mail := rfl
@[simp] theorem State.mapLaunch_tick (s : State) (i : Nat) (f : Launch → Launch) : (s.mapLaunch i f).tick = s.tick := rfl
@[simp] theorem State.mapLaunch_cur (s : State) (i : Nat) (f : Launch → Launch) : (s.mapLaunch i f).cur = s.cur := rfl
@[simp] theorem State.mapLaunch_schedule (s : State) (i : Nat) (f : Launch → Launch) : (s.mapLaunch i f).schedule = s.schedule := rfl

@[simp] theorem State.mapGang_clock (s : State) (i : Nat) (f : Gang → Gang) : (s.mapGang i f).clock = s.clock := rfl
@[simp] theorem State.mapGang_dev (s : State) (i : Nat) (f : Gang → Gang) : (s.mapGang i f).dev = s.dev := rfl
@[simp] theorem State.mapGang_device (s : State) (i : Nat) (f : Gang → Gang) : (s.mapGang i f).device = s.device := rfl
@[simp] theorem State.mapGang_tier (s : State) (i : Nat) (f : Gang → Gang) : (s.mapGang i f).tier = s.tier := rfl
@[simp] theorem State.mapGang_host (s : State) (i : Nat) (f : Gang → Gang) : (s.mapGang i f).host = s.host := rfl
@[simp] theorem State.mapGang_peers (s : State) (i : Nat) (f : Gang → Gang) : (s.mapGang i f).peers = s.peers := rfl
@[simp] theorem State.mapGang_ctxs (s : State) (i : Nat) (f : Gang → Gang) : (s.mapGang i f).ctxs = s.ctxs := rfl
@[simp] theorem State.mapGang_launches (s : State) (i : Nat) (f : Gang → Gang) : (s.mapGang i f).launches = s.launches := rfl
@[simp] theorem State.mapGang_spans (s : State) (i : Nat) (f : Gang → Gang) : (s.mapGang i f).spans = s.spans := rfl
@[simp] theorem State.mapGang_progs (s : State) (i : Nat) (f : Gang → Gang) : (s.mapGang i f).progs = s.progs := rfl
@[simp] theorem State.mapGang_benchCtx (s : State) (i : Nat) (f : Gang → Gang) : (s.mapGang i f).benchCtx = s.benchCtx := rfl
@[simp] theorem State.mapGang_benchChanged (s : State) (i : Nat) (f : Gang → Gang) : (s.mapGang i f).benchChanged = s.benchChanged := rfl
@[simp] theorem State.mapGang_wrote (s : State) (i : Nat) (f : Gang → Gang) : (s.mapGang i f).wrote = s.wrote := rfl
@[simp] theorem State.mapGang_cpWrites (s : State) (i : Nat) (f : Gang → Gang) : (s.mapGang i f).cpWrites = s.cpWrites := rfl
@[simp] theorem State.mapGang_tlb (s : State) (i : Nat) (f : Gang → Gang) : (s.mapGang i f).tlb = s.tlb := rfl
@[simp] theorem State.mapGang_walks (s : State) (i : Nat) (f : Gang → Gang) : (s.mapGang i f).walks = s.walks := rfl
@[simp] theorem State.mapGang_fetched (s : State) (i : Nat) (f : Gang → Gang) : (s.mapGang i f).fetched = s.fetched := rfl
@[simp] theorem State.mapGang_decoded (s : State) (i : Nat) (f : Gang → Gang) : (s.mapGang i f).decoded = s.decoded := rfl
@[simp] theorem State.mapGang_nextId (s : State) (i : Nat) (f : Gang → Gang) : (s.mapGang i f).nextId = s.nextId := rfl
@[simp] theorem State.mapGang_hostReply (s : State) (i : Nat) (f : Gang → Gang) : (s.mapGang i f).hostReply = s.hostReply := rfl
@[simp] theorem State.mapGang_peerReply (s : State) (i : Nat) (f : Gang → Gang) : (s.mapGang i f).peerReply = s.peerReply := rfl
@[simp] theorem State.mapGang_peerWaits (s : State) (i : Nat) (f : Gang → Gang) : (s.mapGang i f).peerWaits = s.peerWaits := rfl
@[simp] theorem State.mapGang_doe (s : State) (i : Nat) (f : Gang → Gang) : (s.mapGang i f).doe = s.doe := rfl
@[simp] theorem State.mapGang_mail (s : State) (i : Nat) (f : Gang → Gang) : (s.mapGang i f).mail = s.mail := rfl
@[simp] theorem State.mapGang_tick (s : State) (i : Nat) (f : Gang → Gang) : (s.mapGang i f).tick = s.tick := rfl
@[simp] theorem State.mapGang_cur (s : State) (i : Nat) (f : Gang → Gang) : (s.mapGang i f).cur = s.cur := rfl
@[simp] theorem State.mapGang_schedule (s : State) (i : Nat) (f : Gang → Gang) : (s.mapGang i f).schedule = s.schedule := rfl

@[simp] theorem State.mapSpan_clock (s : State) (i : Nat) (f : Span → Span) : (s.mapSpan i f).clock = s.clock := rfl
@[simp] theorem State.mapSpan_dev (s : State) (i : Nat) (f : Span → Span) : (s.mapSpan i f).dev = s.dev := rfl
@[simp] theorem State.mapSpan_device (s : State) (i : Nat) (f : Span → Span) : (s.mapSpan i f).device = s.device := rfl
@[simp] theorem State.mapSpan_tier (s : State) (i : Nat) (f : Span → Span) : (s.mapSpan i f).tier = s.tier := rfl
@[simp] theorem State.mapSpan_host (s : State) (i : Nat) (f : Span → Span) : (s.mapSpan i f).host = s.host := rfl
@[simp] theorem State.mapSpan_peers (s : State) (i : Nat) (f : Span → Span) : (s.mapSpan i f).peers = s.peers := rfl
@[simp] theorem State.mapSpan_ctxs (s : State) (i : Nat) (f : Span → Span) : (s.mapSpan i f).ctxs = s.ctxs := rfl
@[simp] theorem State.mapSpan_launches (s : State) (i : Nat) (f : Span → Span) : (s.mapSpan i f).launches = s.launches := rfl
@[simp] theorem State.mapSpan_gangs (s : State) (i : Nat) (f : Span → Span) : (s.mapSpan i f).gangs = s.gangs := rfl
@[simp] theorem State.mapSpan_progs (s : State) (i : Nat) (f : Span → Span) : (s.mapSpan i f).progs = s.progs := rfl
@[simp] theorem State.mapSpan_benchCtx (s : State) (i : Nat) (f : Span → Span) : (s.mapSpan i f).benchCtx = s.benchCtx := rfl
@[simp] theorem State.mapSpan_benchChanged (s : State) (i : Nat) (f : Span → Span) : (s.mapSpan i f).benchChanged = s.benchChanged := rfl
@[simp] theorem State.mapSpan_wrote (s : State) (i : Nat) (f : Span → Span) : (s.mapSpan i f).wrote = s.wrote := rfl
@[simp] theorem State.mapSpan_cpWrites (s : State) (i : Nat) (f : Span → Span) : (s.mapSpan i f).cpWrites = s.cpWrites := rfl
@[simp] theorem State.mapSpan_tlb (s : State) (i : Nat) (f : Span → Span) : (s.mapSpan i f).tlb = s.tlb := rfl
@[simp] theorem State.mapSpan_walks (s : State) (i : Nat) (f : Span → Span) : (s.mapSpan i f).walks = s.walks := rfl
@[simp] theorem State.mapSpan_fetched (s : State) (i : Nat) (f : Span → Span) : (s.mapSpan i f).fetched = s.fetched := rfl
@[simp] theorem State.mapSpan_decoded (s : State) (i : Nat) (f : Span → Span) : (s.mapSpan i f).decoded = s.decoded := rfl
@[simp] theorem State.mapSpan_nextId (s : State) (i : Nat) (f : Span → Span) : (s.mapSpan i f).nextId = s.nextId := rfl
@[simp] theorem State.mapSpan_hostReply (s : State) (i : Nat) (f : Span → Span) : (s.mapSpan i f).hostReply = s.hostReply := rfl
@[simp] theorem State.mapSpan_peerReply (s : State) (i : Nat) (f : Span → Span) : (s.mapSpan i f).peerReply = s.peerReply := rfl
@[simp] theorem State.mapSpan_peerWaits (s : State) (i : Nat) (f : Span → Span) : (s.mapSpan i f).peerWaits = s.peerWaits := rfl
@[simp] theorem State.mapSpan_doe (s : State) (i : Nat) (f : Span → Span) : (s.mapSpan i f).doe = s.doe := rfl
@[simp] theorem State.mapSpan_mail (s : State) (i : Nat) (f : Span → Span) : (s.mapSpan i f).mail = s.mail := rfl
@[simp] theorem State.mapSpan_tick (s : State) (i : Nat) (f : Span → Span) : (s.mapSpan i f).tick = s.tick := rfl
@[simp] theorem State.mapSpan_cur (s : State) (i : Nat) (f : Span → Span) : (s.mapSpan i f).cur = s.cur := rfl
@[simp] theorem State.mapSpan_schedule (s : State) (i : Nat) (f : Span → Span) : (s.mapSpan i f).schedule = s.schedule := rfl

@[simp] theorem State.mapProg_clock (s : State) (i : Nat) (f : Prog → Prog) : (s.mapProg i f).clock = s.clock := rfl
@[simp] theorem State.mapProg_dev (s : State) (i : Nat) (f : Prog → Prog) : (s.mapProg i f).dev = s.dev := rfl
@[simp] theorem State.mapProg_device (s : State) (i : Nat) (f : Prog → Prog) : (s.mapProg i f).device = s.device := rfl
@[simp] theorem State.mapProg_tier (s : State) (i : Nat) (f : Prog → Prog) : (s.mapProg i f).tier = s.tier := rfl
@[simp] theorem State.mapProg_host (s : State) (i : Nat) (f : Prog → Prog) : (s.mapProg i f).host = s.host := rfl
@[simp] theorem State.mapProg_peers (s : State) (i : Nat) (f : Prog → Prog) : (s.mapProg i f).peers = s.peers := rfl
@[simp] theorem State.mapProg_ctxs (s : State) (i : Nat) (f : Prog → Prog) : (s.mapProg i f).ctxs = s.ctxs := rfl
@[simp] theorem State.mapProg_launches (s : State) (i : Nat) (f : Prog → Prog) : (s.mapProg i f).launches = s.launches := rfl
@[simp] theorem State.mapProg_spans (s : State) (i : Nat) (f : Prog → Prog) : (s.mapProg i f).spans = s.spans := rfl
@[simp] theorem State.mapProg_gangs (s : State) (i : Nat) (f : Prog → Prog) : (s.mapProg i f).gangs = s.gangs := rfl
@[simp] theorem State.mapProg_benchCtx (s : State) (i : Nat) (f : Prog → Prog) : (s.mapProg i f).benchCtx = s.benchCtx := rfl
@[simp] theorem State.mapProg_benchChanged (s : State) (i : Nat) (f : Prog → Prog) : (s.mapProg i f).benchChanged = s.benchChanged := rfl
@[simp] theorem State.mapProg_wrote (s : State) (i : Nat) (f : Prog → Prog) : (s.mapProg i f).wrote = s.wrote := rfl
@[simp] theorem State.mapProg_cpWrites (s : State) (i : Nat) (f : Prog → Prog) : (s.mapProg i f).cpWrites = s.cpWrites := rfl
@[simp] theorem State.mapProg_tlb (s : State) (i : Nat) (f : Prog → Prog) : (s.mapProg i f).tlb = s.tlb := rfl
@[simp] theorem State.mapProg_walks (s : State) (i : Nat) (f : Prog → Prog) : (s.mapProg i f).walks = s.walks := rfl
@[simp] theorem State.mapProg_fetched (s : State) (i : Nat) (f : Prog → Prog) : (s.mapProg i f).fetched = s.fetched := rfl
@[simp] theorem State.mapProg_decoded (s : State) (i : Nat) (f : Prog → Prog) : (s.mapProg i f).decoded = s.decoded := rfl
@[simp] theorem State.mapProg_nextId (s : State) (i : Nat) (f : Prog → Prog) : (s.mapProg i f).nextId = s.nextId := rfl
@[simp] theorem State.mapProg_hostReply (s : State) (i : Nat) (f : Prog → Prog) : (s.mapProg i f).hostReply = s.hostReply := rfl
@[simp] theorem State.mapProg_peerReply (s : State) (i : Nat) (f : Prog → Prog) : (s.mapProg i f).peerReply = s.peerReply := rfl
@[simp] theorem State.mapProg_peerWaits (s : State) (i : Nat) (f : Prog → Prog) : (s.mapProg i f).peerWaits = s.peerWaits := rfl
@[simp] theorem State.mapProg_doe (s : State) (i : Nat) (f : Prog → Prog) : (s.mapProg i f).doe = s.doe := rfl
@[simp] theorem State.mapProg_mail (s : State) (i : Nat) (f : Prog → Prog) : (s.mapProg i f).mail = s.mail := rfl
@[simp] theorem State.mapProg_tick (s : State) (i : Nat) (f : Prog → Prog) : (s.mapProg i f).tick = s.tick := rfl
@[simp] theorem State.mapProg_cur (s : State) (i : Nat) (f : Prog → Prog) : (s.mapProg i f).cur = s.cur := rfl
@[simp] theorem State.mapProg_schedule (s : State) (i : Nat) (f : Prog → Prog) : (s.mapProg i f).schedule = s.schedule := rfl

@[simp] theorem State.mapStrip_clock (s : State) (g i : Nat) (f : Strip → Strip) : (s.mapStrip g i f).clock = s.clock := rfl
@[simp] theorem State.mapStrip_dev (s : State) (g i : Nat) (f : Strip → Strip) : (s.mapStrip g i f).dev = s.dev := rfl
@[simp] theorem State.mapStrip_device (s : State) (g i : Nat) (f : Strip → Strip) : (s.mapStrip g i f).device = s.device := rfl
@[simp] theorem State.mapStrip_tier (s : State) (g i : Nat) (f : Strip → Strip) : (s.mapStrip g i f).tier = s.tier := rfl
@[simp] theorem State.mapStrip_host (s : State) (g i : Nat) (f : Strip → Strip) : (s.mapStrip g i f).host = s.host := rfl
@[simp] theorem State.mapStrip_peers (s : State) (g i : Nat) (f : Strip → Strip) : (s.mapStrip g i f).peers = s.peers := rfl
@[simp] theorem State.mapStrip_ctxs (s : State) (g i : Nat) (f : Strip → Strip) : (s.mapStrip g i f).ctxs = s.ctxs := rfl
@[simp] theorem State.mapStrip_launches (s : State) (g i : Nat) (f : Strip → Strip) : (s.mapStrip g i f).launches = s.launches := rfl
@[simp] theorem State.mapStrip_spans (s : State) (g i : Nat) (f : Strip → Strip) : (s.mapStrip g i f).spans = s.spans := rfl
@[simp] theorem State.mapStrip_progs (s : State) (g i : Nat) (f : Strip → Strip) : (s.mapStrip g i f).progs = s.progs := rfl
@[simp] theorem State.mapStrip_benchCtx (s : State) (g i : Nat) (f : Strip → Strip) : (s.mapStrip g i f).benchCtx = s.benchCtx := rfl
@[simp] theorem State.mapStrip_benchChanged (s : State) (g i : Nat) (f : Strip → Strip) : (s.mapStrip g i f).benchChanged = s.benchChanged := rfl
@[simp] theorem State.mapStrip_wrote (s : State) (g i : Nat) (f : Strip → Strip) : (s.mapStrip g i f).wrote = s.wrote := rfl
@[simp] theorem State.mapStrip_cpWrites (s : State) (g i : Nat) (f : Strip → Strip) : (s.mapStrip g i f).cpWrites = s.cpWrites := rfl
@[simp] theorem State.mapStrip_tlb (s : State) (g i : Nat) (f : Strip → Strip) : (s.mapStrip g i f).tlb = s.tlb := rfl
@[simp] theorem State.mapStrip_walks (s : State) (g i : Nat) (f : Strip → Strip) : (s.mapStrip g i f).walks = s.walks := rfl
@[simp] theorem State.mapStrip_fetched (s : State) (g i : Nat) (f : Strip → Strip) : (s.mapStrip g i f).fetched = s.fetched := rfl
@[simp] theorem State.mapStrip_decoded (s : State) (g i : Nat) (f : Strip → Strip) : (s.mapStrip g i f).decoded = s.decoded := rfl
@[simp] theorem State.mapStrip_nextId (s : State) (g i : Nat) (f : Strip → Strip) : (s.mapStrip g i f).nextId = s.nextId := rfl
@[simp] theorem State.mapStrip_hostReply (s : State) (g i : Nat) (f : Strip → Strip) : (s.mapStrip g i f).hostReply = s.hostReply := rfl
@[simp] theorem State.mapStrip_peerReply (s : State) (g i : Nat) (f : Strip → Strip) : (s.mapStrip g i f).peerReply = s.peerReply := rfl
@[simp] theorem State.mapStrip_peerWaits (s : State) (g i : Nat) (f : Strip → Strip) : (s.mapStrip g i f).peerWaits = s.peerWaits := rfl
@[simp] theorem State.mapStrip_doe (s : State) (g i : Nat) (f : Strip → Strip) : (s.mapStrip g i f).doe = s.doe := rfl
@[simp] theorem State.mapStrip_mail (s : State) (g i : Nat) (f : Strip → Strip) : (s.mapStrip g i f).mail = s.mail := rfl
@[simp] theorem State.mapStrip_tick (s : State) (g i : Nat) (f : Strip → Strip) : (s.mapStrip g i f).tick = s.tick := rfl
@[simp] theorem State.mapStrip_cur (s : State) (g i : Nat) (f : Strip → Strip) : (s.mapStrip g i f).cur = s.cur := rfl
@[simp] theorem State.mapStrip_schedule (s : State) (g i : Nat) (f : Strip → Strip) : (s.mapStrip g i f).schedule = s.schedule := rfl

@[simp] theorem State.setStrip_clock (s : State) (g : Nat) (t : Strip) : (s.setStrip g t).clock = s.clock := rfl
@[simp] theorem State.setStrip_dev (s : State) (g : Nat) (t : Strip) : (s.setStrip g t).dev = s.dev := rfl
@[simp] theorem State.setStrip_device (s : State) (g : Nat) (t : Strip) : (s.setStrip g t).device = s.device := rfl
@[simp] theorem State.setStrip_tier (s : State) (g : Nat) (t : Strip) : (s.setStrip g t).tier = s.tier := rfl
@[simp] theorem State.setStrip_host (s : State) (g : Nat) (t : Strip) : (s.setStrip g t).host = s.host := rfl
@[simp] theorem State.setStrip_peers (s : State) (g : Nat) (t : Strip) : (s.setStrip g t).peers = s.peers := rfl
@[simp] theorem State.setStrip_ctxs (s : State) (g : Nat) (t : Strip) : (s.setStrip g t).ctxs = s.ctxs := rfl
@[simp] theorem State.setStrip_launches (s : State) (g : Nat) (t : Strip) : (s.setStrip g t).launches = s.launches := rfl
@[simp] theorem State.setStrip_spans (s : State) (g : Nat) (t : Strip) : (s.setStrip g t).spans = s.spans := rfl
@[simp] theorem State.setStrip_progs (s : State) (g : Nat) (t : Strip) : (s.setStrip g t).progs = s.progs := rfl
@[simp] theorem State.setStrip_benchCtx (s : State) (g : Nat) (t : Strip) : (s.setStrip g t).benchCtx = s.benchCtx := rfl
@[simp] theorem State.setStrip_benchChanged (s : State) (g : Nat) (t : Strip) : (s.setStrip g t).benchChanged = s.benchChanged := rfl
@[simp] theorem State.setStrip_wrote (s : State) (g : Nat) (t : Strip) : (s.setStrip g t).wrote = s.wrote := rfl
@[simp] theorem State.setStrip_cpWrites (s : State) (g : Nat) (t : Strip) : (s.setStrip g t).cpWrites = s.cpWrites := rfl
@[simp] theorem State.setStrip_tlb (s : State) (g : Nat) (t : Strip) : (s.setStrip g t).tlb = s.tlb := rfl
@[simp] theorem State.setStrip_walks (s : State) (g : Nat) (t : Strip) : (s.setStrip g t).walks = s.walks := rfl
@[simp] theorem State.setStrip_fetched (s : State) (g : Nat) (t : Strip) : (s.setStrip g t).fetched = s.fetched := rfl
@[simp] theorem State.setStrip_decoded (s : State) (g : Nat) (t : Strip) : (s.setStrip g t).decoded = s.decoded := rfl
@[simp] theorem State.setStrip_nextId (s : State) (g : Nat) (t : Strip) : (s.setStrip g t).nextId = s.nextId := rfl
@[simp] theorem State.setStrip_hostReply (s : State) (g : Nat) (t : Strip) : (s.setStrip g t).hostReply = s.hostReply := rfl
@[simp] theorem State.setStrip_peerReply (s : State) (g : Nat) (t : Strip) : (s.setStrip g t).peerReply = s.peerReply := rfl
@[simp] theorem State.setStrip_peerWaits (s : State) (g : Nat) (t : Strip) : (s.setStrip g t).peerWaits = s.peerWaits := rfl
@[simp] theorem State.setStrip_doe (s : State) (g : Nat) (t : Strip) : (s.setStrip g t).doe = s.doe := rfl
@[simp] theorem State.setStrip_mail (s : State) (g : Nat) (t : Strip) : (s.setStrip g t).mail = s.mail := rfl
@[simp] theorem State.setStrip_tick (s : State) (g : Nat) (t : Strip) : (s.setStrip g t).tick = s.tick := rfl
@[simp] theorem State.setStrip_cur (s : State) (g : Nat) (t : Strip) : (s.setStrip g t).cur = s.cur := rfl
@[simp] theorem State.setStrip_schedule (s : State) (g : Nat) (t : Strip) : (s.setStrip g t).schedule = s.schedule := rfl

@[simp] theorem State.bump_clock (s : State) (n : Nat) : (s.bump n).clock = s.clock := rfl
@[simp] theorem State.bump_dev (s : State) (n : Nat) : (s.bump n).dev = s.dev := rfl
@[simp] theorem State.bump_device (s : State) (n : Nat) : (s.bump n).device = s.device := rfl
@[simp] theorem State.bump_tier (s : State) (n : Nat) : (s.bump n).tier = s.tier := rfl
@[simp] theorem State.bump_host (s : State) (n : Nat) : (s.bump n).host = s.host := rfl
@[simp] theorem State.bump_peers (s : State) (n : Nat) : (s.bump n).peers = s.peers := rfl
@[simp] theorem State.bump_ctxs (s : State) (n : Nat) : (s.bump n).ctxs = s.ctxs := rfl
@[simp] theorem State.bump_launches (s : State) (n : Nat) : (s.bump n).launches = s.launches := rfl
@[simp] theorem State.bump_spans (s : State) (n : Nat) : (s.bump n).spans = s.spans := rfl
@[simp] theorem State.bump_gangs (s : State) (n : Nat) : (s.bump n).gangs = s.gangs := rfl
@[simp] theorem State.bump_progs (s : State) (n : Nat) : (s.bump n).progs = s.progs := rfl
@[simp] theorem State.bump_benchCtx (s : State) (n : Nat) : (s.bump n).benchCtx = s.benchCtx := rfl
@[simp] theorem State.bump_benchChanged (s : State) (n : Nat) : (s.bump n).benchChanged = s.benchChanged := rfl
@[simp] theorem State.bump_wrote (s : State) (n : Nat) : (s.bump n).wrote = s.wrote := rfl
@[simp] theorem State.bump_cpWrites (s : State) (n : Nat) : (s.bump n).cpWrites = s.cpWrites := rfl
@[simp] theorem State.bump_tlb (s : State) (n : Nat) : (s.bump n).tlb = s.tlb := rfl
@[simp] theorem State.bump_walks (s : State) (n : Nat) : (s.bump n).walks = s.walks := rfl
@[simp] theorem State.bump_fetched (s : State) (n : Nat) : (s.bump n).fetched = s.fetched := rfl
@[simp] theorem State.bump_decoded (s : State) (n : Nat) : (s.bump n).decoded = s.decoded := rfl
@[simp] theorem State.bump_nextId (s : State) (n : Nat) : (s.bump n).nextId = s.nextId := rfl
@[simp] theorem State.bump_hostReply (s : State) (n : Nat) : (s.bump n).hostReply = s.hostReply := rfl
@[simp] theorem State.bump_peerReply (s : State) (n : Nat) : (s.bump n).peerReply = s.peerReply := rfl
@[simp] theorem State.bump_peerWaits (s : State) (n : Nat) : (s.bump n).peerWaits = s.peerWaits := rfl
@[simp] theorem State.bump_doe (s : State) (n : Nat) : (s.bump n).doe = s.doe := rfl
@[simp] theorem State.bump_mail (s : State) (n : Nat) : (s.bump n).mail = s.mail := rfl
@[simp] theorem State.bump_cur (s : State) (n : Nat) : (s.bump n).cur = s.cur := rfl
@[simp] theorem State.bump_schedule (s : State) (n : Nat) : (s.bump n).schedule = s.schedule := rfl

@[simp] theorem State.setPort_clock (s : State) (p : Nat) (v : Port) : (s.setPort p v).clock = s.clock := rfl
@[simp] theorem State.setPort_device (s : State) (p : Nat) (v : Port) : (s.setPort p v).device = s.device := rfl
@[simp] theorem State.setPort_tier (s : State) (p : Nat) (v : Port) : (s.setPort p v).tier = s.tier := rfl
@[simp] theorem State.setPort_host (s : State) (p : Nat) (v : Port) : (s.setPort p v).host = s.host := rfl
@[simp] theorem State.setPort_peers (s : State) (p : Nat) (v : Port) : (s.setPort p v).peers = s.peers := rfl
@[simp] theorem State.setPort_ctxs (s : State) (p : Nat) (v : Port) : (s.setPort p v).ctxs = s.ctxs := rfl
@[simp] theorem State.setPort_launches (s : State) (p : Nat) (v : Port) : (s.setPort p v).launches = s.launches := rfl
@[simp] theorem State.setPort_spans (s : State) (p : Nat) (v : Port) : (s.setPort p v).spans = s.spans := rfl
@[simp] theorem State.setPort_gangs (s : State) (p : Nat) (v : Port) : (s.setPort p v).gangs = s.gangs := rfl
@[simp] theorem State.setPort_progs (s : State) (p : Nat) (v : Port) : (s.setPort p v).progs = s.progs := rfl
@[simp] theorem State.setPort_benchCtx (s : State) (p : Nat) (v : Port) : (s.setPort p v).benchCtx = s.benchCtx := rfl
@[simp] theorem State.setPort_benchChanged (s : State) (p : Nat) (v : Port) : (s.setPort p v).benchChanged = s.benchChanged := rfl
@[simp] theorem State.setPort_wrote (s : State) (p : Nat) (v : Port) : (s.setPort p v).wrote = s.wrote := rfl
@[simp] theorem State.setPort_cpWrites (s : State) (p : Nat) (v : Port) : (s.setPort p v).cpWrites = s.cpWrites := rfl
@[simp] theorem State.setPort_tlb (s : State) (p : Nat) (v : Port) : (s.setPort p v).tlb = s.tlb := rfl
@[simp] theorem State.setPort_walks (s : State) (p : Nat) (v : Port) : (s.setPort p v).walks = s.walks := rfl
@[simp] theorem State.setPort_fetched (s : State) (p : Nat) (v : Port) : (s.setPort p v).fetched = s.fetched := rfl
@[simp] theorem State.setPort_decoded (s : State) (p : Nat) (v : Port) : (s.setPort p v).decoded = s.decoded := rfl
@[simp] theorem State.setPort_nextId (s : State) (p : Nat) (v : Port) : (s.setPort p v).nextId = s.nextId := rfl
@[simp] theorem State.setPort_hostReply (s : State) (p : Nat) (v : Port) : (s.setPort p v).hostReply = s.hostReply := rfl
@[simp] theorem State.setPort_peerReply (s : State) (p : Nat) (v : Port) : (s.setPort p v).peerReply = s.peerReply := rfl
@[simp] theorem State.setPort_peerWaits (s : State) (p : Nat) (v : Port) : (s.setPort p v).peerWaits = s.peerWaits := rfl
@[simp] theorem State.setPort_doe (s : State) (p : Nat) (v : Port) : (s.setPort p v).doe = s.doe := rfl
@[simp] theorem State.setPort_mail (s : State) (p : Nat) (v : Port) : (s.setPort p v).mail = s.mail := rfl
@[simp] theorem State.setPort_tick (s : State) (p : Nat) (v : Port) : (s.setPort p v).tick = s.tick := rfl
@[simp] theorem State.setPort_cur (s : State) (p : Nat) (v : Port) : (s.setPort p v).cur = s.cur := rfl
@[simp] theorem State.setPort_schedule (s : State) (p : Nat) (v : Port) : (s.setPort p v).schedule = s.schedule := rfl

@[simp] theorem State.setQueue_clock (s : State) (q : Bool) (u : Queue) : (s.setQueue q u).clock = s.clock := rfl
@[simp] theorem State.setQueue_device (s : State) (q : Bool) (u : Queue) : (s.setQueue q u).device = s.device := rfl
@[simp] theorem State.setQueue_tier (s : State) (q : Bool) (u : Queue) : (s.setQueue q u).tier = s.tier := rfl
@[simp] theorem State.setQueue_host (s : State) (q : Bool) (u : Queue) : (s.setQueue q u).host = s.host := rfl
@[simp] theorem State.setQueue_peers (s : State) (q : Bool) (u : Queue) : (s.setQueue q u).peers = s.peers := rfl
@[simp] theorem State.setQueue_ctxs (s : State) (q : Bool) (u : Queue) : (s.setQueue q u).ctxs = s.ctxs := rfl
@[simp] theorem State.setQueue_launches (s : State) (q : Bool) (u : Queue) : (s.setQueue q u).launches = s.launches := rfl
@[simp] theorem State.setQueue_spans (s : State) (q : Bool) (u : Queue) : (s.setQueue q u).spans = s.spans := rfl
@[simp] theorem State.setQueue_gangs (s : State) (q : Bool) (u : Queue) : (s.setQueue q u).gangs = s.gangs := rfl
@[simp] theorem State.setQueue_progs (s : State) (q : Bool) (u : Queue) : (s.setQueue q u).progs = s.progs := rfl
@[simp] theorem State.setQueue_benchCtx (s : State) (q : Bool) (u : Queue) : (s.setQueue q u).benchCtx = s.benchCtx := rfl
@[simp] theorem State.setQueue_benchChanged (s : State) (q : Bool) (u : Queue) : (s.setQueue q u).benchChanged = s.benchChanged := rfl
@[simp] theorem State.setQueue_wrote (s : State) (q : Bool) (u : Queue) : (s.setQueue q u).wrote = s.wrote := rfl
@[simp] theorem State.setQueue_cpWrites (s : State) (q : Bool) (u : Queue) : (s.setQueue q u).cpWrites = s.cpWrites := rfl
@[simp] theorem State.setQueue_tlb (s : State) (q : Bool) (u : Queue) : (s.setQueue q u).tlb = s.tlb := rfl
@[simp] theorem State.setQueue_walks (s : State) (q : Bool) (u : Queue) : (s.setQueue q u).walks = s.walks := rfl
@[simp] theorem State.setQueue_fetched (s : State) (q : Bool) (u : Queue) : (s.setQueue q u).fetched = s.fetched := rfl
@[simp] theorem State.setQueue_decoded (s : State) (q : Bool) (u : Queue) : (s.setQueue q u).decoded = s.decoded := rfl
@[simp] theorem State.setQueue_nextId (s : State) (q : Bool) (u : Queue) : (s.setQueue q u).nextId = s.nextId := rfl
@[simp] theorem State.setQueue_hostReply (s : State) (q : Bool) (u : Queue) : (s.setQueue q u).hostReply = s.hostReply := rfl
@[simp] theorem State.setQueue_peerReply (s : State) (q : Bool) (u : Queue) : (s.setQueue q u).peerReply = s.peerReply := rfl
@[simp] theorem State.setQueue_peerWaits (s : State) (q : Bool) (u : Queue) : (s.setQueue q u).peerWaits = s.peerWaits := rfl
@[simp] theorem State.setQueue_doe (s : State) (q : Bool) (u : Queue) : (s.setQueue q u).doe = s.doe := rfl
@[simp] theorem State.setQueue_mail (s : State) (q : Bool) (u : Queue) : (s.setQueue q u).mail = s.mail := rfl
@[simp] theorem State.setQueue_tick (s : State) (q : Bool) (u : Queue) : (s.setQueue q u).tick = s.tick := rfl
@[simp] theorem State.setQueue_cur (s : State) (q : Bool) (u : Queue) : (s.setQueue q u).cur = s.cur := rfl
@[simp] theorem State.setQueue_schedule (s : State) (q : Bool) (u : Queue) : (s.setQueue q u).schedule = s.schedule := rfl

@[simp] theorem State.mapCtx_ctxs (s : State) (c : Nat) (f : Ctx → Ctx) : (s.mapCtx c f).ctxs = mapWhere (·.id == c) f s.ctxs := rfl
@[simp] theorem State.mapLaunch_launches (s : State) (i : Nat) (f : Launch → Launch) : (s.mapLaunch i f).launches = mapWhere (·.id == i) f s.launches := rfl
@[simp] theorem State.mapGang_gangs (s : State) (i : Nat) (f : Gang → Gang) : (s.mapGang i f).gangs = mapWhere (·.id == i) f s.gangs := rfl
@[simp] theorem State.mapSpan_spans (s : State) (i : Nat) (f : Span → Span) : (s.mapSpan i f).spans = mapWhere (·.id == i) f s.spans := rfl
@[simp] theorem State.mapProg_progs (s : State) (i : Nat) (f : Prog → Prog) : (s.mapProg i f).progs = mapWhere (·.id == i) f s.progs := rfl
@[simp] theorem State.bump_tick (s : State) (n : Nat) : (s.bump n).tick = s.tick + n := rfl

end Sys2Proof.Machine
end

