-- ==== Sys2Proof/Laws/Issue.lean ====
section
/-! SUPPORT. What issue does: the one case analysis of State.issuing, and what follows from it for every kind of word. -/

namespace Sys2Proof.Machine

/-- What State.turned says of its seat. -/
structure TurnedFacts (s : State) (i : Instr) (w : Seat) (gid k : Nat) (g : Gang) (t : Strip) (l : Launch) (x : Ctx) : Prop where
  cur : s.cur = .strip gid k
  gang : s.gang? gid = some g
  strip : g.strip? k = some t
  launch : s.launch? g.launch = some l
  ctx : s.ctx? g.ctx = some x
  seat : w = seatOf s g { t with wait := .none } l x
    (guardOf t.preds (g.coord l.hdr t.idx) ((formOf (widthOf x.fmtTable t.fmt) l.hdr.acc i).guardWord i))
    (formOf (widthOf x.fmtTable t.fmt) l.hdr.acc i) i
  ready : stripReady s g t l x i = true

theorem turned_facts {s : State} {i : Instr} {w : Seat} (h : s.turned i = some w) :
    ∃ gid k g t l x, TurnedFacts s i w gid k g t l x := by
  unfold State.turned at h
  split at h
  case h_2 => cases h
  case h_1 gid k hc =>
    split at h
    case h_1 => cases h
    case h_2 g hg =>
      split at h
      case h_2 => cases h
      case h_1 t l x ht hl hx =>
        simp only at h
        split_ifs at h with hb
        cases h
        exact ⟨gid, k, g, t, l, x, hc, hg, ht, hl, hx, rfl, hb⟩

/-- What State.issuing says of its seat. -/
structure IssuingFacts (s : State) (i : Instr) (w : Seat) (gid k : Nat) (g : Gang) (t : Strip) (l : Launch) (x : Ctx) : Prop
    extends TurnedFacts s i w gid k g t l x where
  encoded : (formOf (widthOf x.fmtTable t.fmt) 16 i).legal = true
  legal : (formOf (widthOf x.fmtTable t.fmt) l.hdr.acc i).legal = true
  mode : privileged i = true → t.priv = true
  calm : t.priv = true ∨ t.replay = []
  guard : ∀ m, (formOf (widthOf x.fmtTable t.fmt) l.hdr.acc i).g = true →
    i ≠ .exit (formOf (widthOf x.fmtTable t.fmt) l.hdr.acc i).s (formOf (widthOf x.fmtTable t.fmt) l.hdr.acc i).x →
    guardOf t.preds (g.coord l.hdr t.idx) ((formOf (widthOf x.fmtTable t.fmt) l.hdr.acc i).guardWord i) ≠ .lanes m
  lanes : w.fr.active ≠ 0
  unlocked : lockedDst { t with wait := .none } (formOf (widthOf x.fmtTable t.fmt) l.hdr.acc i) i = false
  acked : releaseScope i < 4 ∨ t.unacked = 0

theorem issuing_facts {s : State} {i : Instr} {w : Seat} (h : s.issuing i = some w) :
    ∃ gid k g t l x, IssuingFacts s i w gid k g t l x := by
  unfold State.issuing at h
  obtain ⟨v, hv, h⟩ := Option.bind_eq_some_iff.mp h
  split_ifs at h with hb
  cases h
  obtain ⟨gid, k, g, t, l, x, ht⟩ := turned_facts hv
  have hs := ht.seat
  have hform : w.form i = formOf (widthOf x.fmtTable t.fmt) l.hdr.acc i := by rw [hs]; rfl
  have hgu : w.guard i = guardOf t.preds (g.coord l.hdr t.idx)
      ((formOf (widthOf x.fmtTable t.fmt) l.hdr.acc i).guardWord i) := by rw [hs]; rfl
  have hp : w.t.priv = t.priv := by rw [hs]; rfl
  have hr : w.t.replay = t.replay := by rw [hs]; rfl
  have hl : w.t = { t with wait := .none } := by rw [hs]; rfl
  have he : w.encoded i = (formOf (widthOf x.fmtTable t.fmt) 16 i).legal := by rw [hs]; rfl
  have hu : w.t.unacked = t.unacked := by rw [hs]; rfl
  simp only [Seat.allowed, Seat.unevenG, Seat.locked, Seat.unreleased, hform, hgu, he, hl, Bool.and_eq_true,
    Bool.or_eq_true, Bool.not_eq_true', bne_iff_ne, ne_eq, List.isEmpty_iff] at hb
  obtain ⟨⟨⟨⟨⟨⟨⟨h0, h1⟩, h2⟩, h3⟩, h4⟩, h5⟩, h6⟩, h7⟩ := hb
  refine ⟨gid, k, g, t, l, x, ht, h0, h1, ?_, h4, ?_, h5, h6, ?_⟩
  · intro hpr; rcases h2 with h2 | h2
    · rw [h2] at hpr; cases hpr
    · exact h2
  · intro m hgs hne hgd
    simp [hgs, hne, hgd] at h3
  · by_cases ha : 4 ≤ releaseScope i
    · right; simpa [ha] using h7
    · left; omega

theorem stripReady_wait {s : State} {g : Gang} {t : Strip} {l : Launch} {x : Ctx} {i : Instr}
    (h : stripReady s g t l x i = true) : t.parked = false := by
  simp only [stripReady, Bool.and_eq_true, Bool.not_eq_true'] at h
  exact h.1.1.1.1.2

/-- A word that issues normally is settled by the answer of its own part. -/
theorem issueStrip_issuing {s : State} {i : Instr} {w : Seat} {gid k : Nat} {g : Gang} {t : Strip} {l : Launch} {x : Ctx}
    (h : IssuingFacts s i w gid k g t l x) (spots : Seat → List (Nat × Nat)) (body : Seat → Done) :
    issueStrip s gid k i spots body = settle w i (w.form i) (body w) := by
  have hw := h.seat
  have hform : w.form i = formOf (widthOf x.fmtTable t.fmt) l.hdr.acc i := by rw [hw]; rfl
  have hgd : unevenGuard (formOf (widthOf x.fmtTable t.fmt) l.hdr.acc i) i
      (guardOf t.preds (g.coord l.hdr t.idx) ((formOf (widthOf x.fmtTable t.fmt) l.hdr.acc i).guardWord i)) = false := by
    unfold unevenGuard
    split
    · rename_i m h2
      rw [Bool.and_eq_false_imp]
      intro h1
      by_contra hc
      simp only [bne_iff_ne, ne_eq, Bool.not_eq_false] at hc
      exact absurd h2 (h.guard m h1 hc)
    · rfl
  have hq : stopsAtQueue w (w.form i) i (w.fr.active == 0) (spots w) = false := by
    rcases h.calm with hp | hr
    · have : w.t.priv = true := by rw [hw]; exact hp
      simp [stopsAtQueue, this]
    · have : w.t.replay = [] := by rw [hw]; exact hr
      simp [stopsAtQueue, this]
  have hskip : (w.fr.active == 0) = false := by simpa using h.lanes
  have hun := h.unlocked
  have hack : (decide (releaseScope i ≥ 4) && t.unacked != 0) = false := by
    rcases h.acked with ha | ha
    · simp [Nat.not_le.mpr ha]
    · simp [ha]
  have hpr : (privileged i && !w.t.priv) = false := by
    have : w.t.priv = t.priv := by rw [hw]; rfl
    cases hp : privileged i
    · rfl
    · simp [this, h.mode hp]
  have hearly : earlyTrap w i (formOf (widthOf x.fmtTable t.fmt) l.hdr.acc i)
      (guardOf t.preds (g.coord l.hdr t.idx) ((formOf (widthOf x.fmtTable t.fmt) l.hdr.acc i).guardWord i)) body = none := by
    simp only [earlyTrap, hskip, h.legal, hgd, Bool.not_true, Bool.not_false, Bool.true_and, Bool.and_false, Bool.false_and,
      Bool.false_eq_true, if_false]
    rw [hpr]
    rfl
  unfold issueStrip
  rw [h.gang]
  simp only [h.strip, h.launch, h.ctx, h.ready, if_true]
  unfold issueIn
  rw [hform, hskip] at hq
  rw [hform]
  simp only [h.encoded, ← hw, hearly, Bool.not_true, hskip, hq, Bool.false_eq_true, if_false, hun, hack]

/-- The strip of a seat that issues normally. -/
theorem IssuingFacts.t_eq {s : State} {i : Instr} {w : Seat} {gid k : Nat} {g : Gang} {t : Strip} {l : Launch} {x : Ctx}
    (h : IssuingFacts s i w gid k g t l x) : w.t = { t with wait := .none } := by rw [h.seat]; rfl

/-- What every seat in which a word issues normally is like. -/
structure SeatFacts (s : State) (i : Instr) (w : Seat) : Prop where
  wait : w.t.wait = .none
  parked : w.t.parked = false
  calm : w.t.priv = true ∨ w.t.replay = []
  legal : (w.form i).legal = true
  lanes : w.fr.active ≠ 0
  mode : privileged i = true → w.t.priv = true
  state : w.s = if w.t.outstanding.isEmpty then s else s.bump 262144
  next : w.pcNext = w.t.pc + BitVec.ofNat 64 i.size
  gd : ∃ gd, w.fr = stripFrame w.g w.t w.l.hdr w.x.fmtTable gd
    (viewFor (w.g.coord w.l.hdr w.t.idx) w.t s.tick (w.form i) i)

theorem seat_facts {s : State} {i : Instr} {w : Seat} (h : s.issuing i = some w) : SeatFacts s i w := by
  obtain ⟨gid, k, g, t, l, x, h⟩ := issuing_facts h
  have hw := h.seat
  have ht := h.t_eq
  constructor
  · rw [ht]
  · rw [ht]; exact (stripReady_wait h.ready : t.parked = false)
  · rw [ht]; exact h.calm
  · rw [hw]; exact h.legal
  · exact h.lanes
  · rw [ht]; exact h.mode
  · rw [hw]; rfl
  · rw [hw]; rfl
  · rw [hw]; exact ⟨_, rfl⟩

/-- A part that ends normally: the PC advances. -/
theorem settle_next {u : State} {i : Instr} {w : Seat} (t : Strip) (hw : t.wait = .none)
    (hp : t.parked = false) (hc : t.priv = true ∨ t.replay = []) :
    settle w i (w.form i) (.next u t) = w.passed i u t := by
  have hq : (!t.priv && decide (8 < ({ t with pc := w.pcNext } : Strip).queued)) = false := by rcases hc with hc | hc <;> simp [Strip.queued, hw, hc]
  have hq' : (!t.replay.isEmpty && !t.priv) = false := by rcases hc with hc | hc <;> simp [hc]
  simp only [settle, hq, Bool.false_eq_true, if_false, finishIssue, Seat.passed, Seat.moved, Seat.ends]
  cases hs : ((w.form i).s || endsRegion i)
  · simp [Strip.counted, hp]
  · simp [regionEnd, Strip.counted, hw, hq']

/-- A part that sets the PC. -/
theorem settle_moved {u : State} {i : Instr} {w : Seat} (t : Strip) (hw : t.wait = .none)
    (hp : t.parked = false) (hc : t.priv = true ∨ t.replay = []) :
    settle w i (w.form i) (.moved u t) = w.moved i u t := by
  have hq : (!t.priv && decide (8 < t.queued)) = false := by rcases hc with hc | hc <;> simp [Strip.queued, hw, hc]
  have hq' : (!t.replay.isEmpty && !t.priv) = false := by rcases hc with hc | hc <;> simp [hc]
  simp only [settle, hq, Bool.false_eq_true, if_false, finishIssue, Seat.moved, Seat.ends]
  cases hs : ((w.form i).s || endsRegion i)
  · simp [Strip.counted, hp]
  · simp [regionEnd, Strip.counted, hw, hq']

/-- Returned results change registers, flags, locks and what waits for a lock, and nothing else of a strip. -/
theorem landPart_same (c : Nat → Nat × Nat × Nat) (t : Strip) (p : RegPart) :
    landPart c t p = { t with regs := (landPart c t p).regs, kregs := (landPart c t p).kregs } := by
  unfold landPart; split
  · split <;> rfl
  · rfl

/-- A strip without what returned results may change. -/
def Strip.core (t : Strip) : Strip :=
  { t with
    regs := Vector.replicate 64 (.u 0), kregs := Vector.replicate 16 (Vector.replicate 32 0), outstanding := [],
    lateFree := 0, locks := 0, fpstat := 0 }

theorem foldl_core {α : Type} (f : Strip → α → Strip) (hf : ∀ t a, (f t a).core = t.core) (l : List α) (t : Strip) :
    (l.foldl f t).core = t.core := by
  induction l generalizing t with
  | nil => rfl
  | cons a r ih => rw [List.foldl_cons, ih, hf]

theorem land_core (c : Nat → Nat × Nat × Nat) (t : Strip) (x : Landing) : (land c t x).core = t.core := by
  unfold land freeUnlocked
  rw [foldl_core]
  · have := foldl_core (landPart c) (fun t p => by rw [landPart_same]; rfl) x.parts t
    exact this
  · intro t n; split <;> rfl

theorem landAll_core (c : Nat → Nat × Nat × Nat) (t : Strip) : (landAll c t).core = t.core := by
  unfold landAll
  rw [foldl_core _ (land_core c)]; rfl

@[simp] theorem landAll_priv (c : Nat → Nat × Nat × Nat) (t : Strip) : (landAll c t).priv = t.priv := by
  have h := landAll_core c t
  have h' : (landAll c t).core.priv = t.core.priv := by rw [h]
  exact h'

/-- A part that traps. -/
theorem settle_trap {s : State} {i : Instr} {w : Seat} (h : SeatFacts s i w) (p : TrapInfo)
    (hu : w.t.priv = false) (hh : handlerOf w.s w.g.ctx ≠ 0) :
    settle w i (w.form i) (.trap p) = w.trapped w.s w.t p := by
  have hr : w.t.replay = [] := by rcases h.calm with hc | hc; (rw [hu] at hc; cases hc); exact hc
  have hp : parkedTrap w.t.live w.t.pc w.t.replay = none := by rw [hr]; rfl
  simp only [settle, stopStrip, trapTaken, hu, hp, vectorWith, Seat.trapped, Seat.coord, landAll_priv, Bool.false_eq_true,
    if_false, if_neg hh]
  rfl

/-- A word that only works in its frame. -/
theorem runAlu_issuing {s : State} {i : Instr} {w : Seat} (h : s.issuing i = some w) (f : Info → Frame → Do Frame) :
    runAlu i f s = .next (settle w i (w.form i) (w.done (f w.info w.fr))) := by
  obtain ⟨gid, k, g, t, l, x, h⟩ := issuing_facts h
  simp only [runAlu, h.cur]
  rw [issueStrip_issuing h]

theorem runStrip_issuing {s : State} {i : Instr} {w : Seat} (h : s.issuing i = some w) (body : Seat → Done) :
    runStrip i body s = .next (settle w i (w.form i) (body w)) := by
  obtain ⟨gid, k, g, t, l, x, h⟩ := issuing_facts h
  simp only [runStrip, h.cur]
  rw [issueStrip_issuing h]

theorem runMem_issuing {s : State} {i : Instr} {w : Seat} (h : s.issuing i = some w) (spots : Seat → List (Nat × Nat))
    (body : Seat → Done) : runMem i spots body s = .next (settle w i (w.form i) (body w)) := by
  obtain ⟨gid, k, g, t, l, x, h⟩ := issuing_facts h
  simp only [runMem, h.cur]
  rw [issueStrip_issuing h]

theorem runBoth_issuing {s : State} {i : Instr} {w : Seat} (h : s.issuing i = some w) (inSpan : State → Nat → State)
    (body : Seat → Done) : runBoth i inSpan body s = .next (settle w i (w.form i) (body w)) := by
  obtain ⟨gid, k, g, t, l, x, h⟩ := issuing_facts h
  simp only [runBoth, h.cur]
  rw [issueStrip_issuing h]

end Sys2Proof.Machine
end

