-- ==== Sys2Proof/Laws/Operands.lean ====
section
/-! SUPPORT. What the operand forms do: one lemma for each way of writing, freeing and reading a register. -/

namespace Sys2Proof.Machine

/-! Vectors and masks. -/

@[simp] theorem vget_vset_eq {α : Type} {n : Nat} (v : Vector α n) (i : Nat) (x d : α) (h : i < n) :
    vget (vset v i x) i d = x := by simp [vget, vset, h]

@[simp] theorem vget_vset_ne {α : Type} {n : Nat} (v : Vector α n) (i j : Nat) (x d : α) (h : i ≠ j) :
    vget (vset v i x) j d = vget v j d := by
  unfold vget vset
  split
  · split
    · simp [h]
    · rfl
  · rfl

@[simp] theorem vget_ofFn {α : Type} (f : Fin 32 → α) (l : Nat) (d : α) (h : l < 32) :
    vget (Vector.ofFn f) l d = f ⟨l, h⟩ := by simp [vget, h]

theorem vget_mergeLanes (m : Mask) (old new : Nat → Word) (l : Nat) (h : l < 32) :
    vget (mergeLanes m old new) l 0 = if laneIn m l then new l else old l := by
  simp only [mergeLanes, vget_ofFn _ _ _ h]

theorem foldl_pow_lt (p : Nat → Bool) (n : Nat) :
    (List.range n).foldl (fun a l => if p l then a + 2 ^ l else a) 0 < 2 ^ n := by
  induction n with
  | zero => simp
  | succ n ih =>
    rw [List.range_succ, List.foldl_append]
    simp only [List.foldl_cons, List.foldl_nil]
    split <;> rw [Nat.pow_succ] <;> omega

theorem foldl_pow_testBit (p : Nat → Bool) (n i : Nat) :
    ((List.range n).foldl (fun a l => if p l then a + 2 ^ l else a) 0).testBit i = (decide (i < n) && p i) := by
  induction n with
  | zero => simp
  | succ n ih =>
    have hlt := foldl_pow_lt p n
    rw [List.range_succ, List.foldl_append]
    simp only [List.foldl_cons, List.foldl_nil]
    by_cases hp : p n
    · simp only [hp, if_true]
      rw [Nat.add_comm]
      rcases Nat.lt_trichotomy i n with h | h | h
      · rw [Nat.testBit_two_pow_add_gt h, ih]; simp [h, Nat.lt_succ_of_lt h]
      · subst h
        rw [Nat.testBit_two_pow_add_eq, Nat.testBit_lt_two_pow hlt]; simp [hp]
      · rw [Nat.testBit_lt_two_pow]
        · simp; intro h'; omega
        · calc _ < 2 ^ n + 2 ^ n := by omega
            _ = 2 ^ (n + 1) := by rw [Nat.pow_succ]; omega
            _ ≤ 2 ^ i := Nat.pow_le_pow_right (by omega) h
    · have hp' : p n = false := by simpa using hp
      simp only [hp', Bool.false_eq_true, if_false, ih]
      rcases Nat.lt_trichotomy i n with h | h | h
      · simp [h, Nat.lt_succ_of_lt h]
      · subst h; simp [hp']
      · have h1 : ¬ i < n := by omega
        have h2 : ¬ i < n + 1 := by omega
        simp [h1, h2]

/-- The mask of a predicate on lanes holds exactly its lanes. -/
theorem laneIn_maskOf (p : Nat → Bool) (l : Nat) (h : l < 32) : laneIn (maskOf p) l = p l := by
  unfold laneIn maskOf
  rw [BitVec.getLsbD_ofNat, foldl_pow_testBit]
  simp [h]

theorem laneIn_and (a b : Mask) (l : Nat) : laneIn (a &&& b) l = (laneIn a l && laneIn b l) := by
  simp [laneIn]

theorem exists_lane {m : Mask} (h : m ≠ 0) : ∃ l < 32, laneIn m l = true := by
  by_contra hc
  apply h
  apply BitVec.eq_of_getLsbD_eq
  intro i hi
  rcases Bool.eq_false_or_eq_true (m.getLsbD i) with hb | hb
  · exact absurd ⟨i, hi, hb⟩ hc
  · rw [hb]; simp

theorem mem_lanesOf {m : Mask} {l : Nat} : l ∈ lanesOf m ↔ l < 32 ∧ laneIn m l = true := by
  simp [lanesOf]

/-! Halves. -/

theorem loOf_eq (v : DWord) : loOf v = v.setWidth 32 := by
  apply BitVec.eq_of_toNat_eq; simp [loOf]

theorem loOf_toNat (v : DWord) : (loOf v).toNat = v.toNat % 2 ^ 32 := by simp [loOf_eq]

theorem hiOf_toNat (v : DWord) : (hiOf v).toNat = v.toNat / 2 ^ 32 := by
  have h := v.isLt
  simp only [hiOf, BitVec.extractLsb'_toNat, Nat.shiftRight_eq_div_pow]
  apply Nat.mod_eq_of_lt; omega

theorem join64_toNat (lo hi : Word) : (join64 lo hi).toNat = hi.toNat * 2 ^ 32 + lo.toNat := by
  have h := lo.isLt
  unfold join64
  rw [BitVec.toNat_append, ← Nat.shiftLeft_add_eq_or_of_lt h, Nat.shiftLeft_eq]

@[simp] theorem loOf_setWidth (v : Word) : loOf (v.setWidth 64) = v := by
  have h := v.isLt
  apply BitVec.eq_of_toNat_eq; rw [loOf_toNat, BitVec.toNat_setWidth]; omega

theorem loOf_add (a b : DWord) : loOf (a + b) = loOf a + loOf b := by
  simp only [loOf_eq]; apply BitVec.eq_of_toNat_eq; simp [BitVec.toNat_add]

theorem loOf_mul (a b : DWord) : loOf (a * b) = loOf a * loOf b := by
  simp only [loOf_eq]; apply BitVec.eq_of_toNat_eq; simp [BitVec.toNat_mul, Nat.mul_mod]

theorem loOf_low32 (a : DWord) : loOf (low32 a) = loOf a := by simp [low32]

@[simp] theorem join64_lo_hi (v : DWord) : join64 (loOf v) (hiOf v) = v := by
  apply BitVec.eq_of_toNat_eq; rw [join64_toNat, loOf_toNat, hiOf_toNat]; omega

@[simp] theorem loOf_join64 (lo hi : Word) : loOf (join64 lo hi) = lo := by
  have h := lo.isLt
  apply BitVec.eq_of_toNat_eq; rw [loOf_toNat, join64_toNat]; omega

@[simp] theorem hiOf_join64 (lo hi : Word) : hiOf (join64 lo hi) = hi := by
  have h := lo.isLt
  apply BitVec.eq_of_toNat_eq; rw [hiOf_toNat, join64_toNat]; omega

theorem loOf_affAt_low (f : Aff) (c : Nat × Nat × Nat) : loOf (affAt f.low c) = loOf (affAt f c) := by
  simp only [affAt, Aff.low, loOf_add, loOf_mul, loOf_low32]

/-! Registers of a frame. -/

/-- Register n of a frame for lane l, numbered as in RegPart. -/
def Frame.held (fr : Frame) (n l : Nat) : Word :=
  if n < 64 then regLane fr.coord (vget fr.regs n (.u 0)) l
  else vget (vget fr.kregs (n - 64) (Vector.replicate 32 0)) l 0

/-- The parts of outstanding results on register n. -/
def landingParts (o : List Landing) (n : Nat) : List RegPart := (o.flatMap (·.parts)).filter (·.reg == n)

theorem dropPart_ne {r : Nat} {m : Mask} {p q : RegPart} (h : dropPart r m p = some q) : q.reg = p.reg := by
  unfold dropPart at h; split at h
  · cases h; rfl
  · split at h
    · cases h
    · cases h; rfl

theorem landingParts_drop_ne (o : List Landing) (r n : Nat) (m : Mask) (h : r ≠ n) :
    landingParts (dropLandings r m o) n = landingParts o n := by
  unfold landingParts dropLandings
  induction o with
  | nil => rfl
  | cons x o ih =>
    simp only [List.map_cons, List.flatMap_cons, List.filter_append, ih]
    congr 1
    generalize x.parts = ps
    induction ps with
    | nil => rfl
    | cons p ps ih =>
      rw [List.filterMap_cons]
      cases hd : dropPart r m p with
      | none =>
        have : p.reg = r := by
          unfold dropPart at hd; split at hd
          · cases hd
          · rename_i hr; exact not_not.mp hr
        simp only [ih, List.filter_cons]
        rw [if_neg (by simp [this, h])]
      | some q =>
        have hq := dropPart_ne hd
        simp only [List.filter_cons, ih, hq]
        by_cases hn : p.reg = n
        · have : q = p := by
            unfold dropPart at hd; split at hd
            · cases hd; rfl
            · rename_i hr; exact absurd (hn ▸ not_not.mp hr) (Ne.symm h)
          simp [this, hn]
        · simp [hn]

theorem landingParts_drop_mask (o : List Landing) (r : Nat) (m : Mask) :
    ∀ p ∈ landingParts (dropLandings r m o) r, p.mask &&& m = 0 := by
  intro p hp
  simp only [landingParts, dropLandings, List.mem_filter, List.mem_flatMap, List.mem_map, beq_iff_eq] at hp
  obtain ⟨⟨x, ⟨y, hy, rfl⟩, hx⟩, hr⟩ := hp
  simp only [List.mem_filterMap] at hx
  obtain ⟨q, hq, hd⟩ := hx
  have hqr := dropPart_ne hd
  unfold dropPart at hd
  split at hd
  · rename_i hne; exact absurd (hqr ▸ hr) hne
  · split at hd
    · cases hd
    · cases hd
      show (q.mask &&& ~~~m) &&& m = 0
      ext i; simp

/-- One register of a frame has been written in the lanes of m. -/
structure Wrote (fr fr' : Frame) (n : Nat) (m : Mask) (val : Nat → Word) : Prop where
  rest : fr' = { fr with regs := fr'.regs, kregs := fr'.kregs, outstanding := fr'.outstanding }
  lanes : ∀ l < 32, fr'.held n l = if laneIn m l then val l else fr.held n l
  vregs : ∀ r < 64, r ≠ n → vget fr'.regs r (.u 0) = vget fr.regs r (.u 0)
  kregs : ∀ r < 16, r + 64 ≠ n → vget fr'.kregs r (Vector.replicate 32 0) = vget fr.kregs r (Vector.replicate 32 0)
  pending : ∀ r, r ≠ n → landingParts fr'.outstanding r = landingParts fr.outstanding r
  returned : ∀ p ∈ landingParts fr'.outstanding n, p.mask &&& m = 0

theorem Wrote.other {fr fr' : Frame} {n : Nat} {m : Mask} {val : Nat → Word} (h : Wrote fr fr' n m val) (r l : Nat)
    (hr : r < 80) (hn : r ≠ n) : fr'.held r l = fr.held r l := by
  have hc : fr'.coord = fr.coord := by rw [h.rest]
  unfold Frame.held
  split
  · rename_i h64; rw [hc, h.vregs r h64 hn]
  · rw [h.kregs (r - 64) (by omega) (by omega)]

/-- The register that a write names. -/
def Frame.place (fr : Frame) (n : Nat) (plain : Bool) : Nat := if fr.isK n && !plain then n + 16 else n

theorem writeLanes_wrote {fr : Frame} {n : Nat} {f : Nat → Word} {plain : Bool} (hs : fr.span = false)
    (hl : fr.noLines = false) (hn : n < 64) :
    ∃ fr', fr.writeLanes n f plain = .ok fr' ∧ Wrote fr fr' (fr.place n plain) fr.active f := by
  unfold Frame.writeLanes Frame.place
  split
  · rename_i hk
    have hk' : 48 ≤ n := by simp [Frame.isK] at hk; exact hk.1.2
    refine ⟨_, rfl, rfl, ?_, ?_, ?_, ?_, ?_⟩
    · intro l hl
      have hge : ¬ n + 16 < 64 := by omega
      have : n + 16 - 64 = n - 48 := by omega
      simp only [Frame.held, hge, if_false]
      simp only [this, vget_vset_eq _ _ _ _ (show n - 48 < 16 by omega), vget_mergeLanes _ _ _ _ hl]
    · intro r _ _; rfl
    · intro r hr hne
      exact vget_vset_ne _ _ _ _ _ (by omega)
    · intro r hne; exact landingParts_drop_ne _ _ _ _ (by omega)
    · exact landingParts_drop_mask _ _ _
  · rw [if_neg (by simp [hs]), if_neg (by simp [hl])]
    refine ⟨_, rfl, rfl, ?_, ?_, ?_, ?_, ?_⟩
    · intro l hl
      unfold Frame.held
      simp only [hn, if_true, vget_vset_eq _ _ _ _ hn, regLane, vget_mergeLanes _ _ _ _ hl]
    · intro r _ hne; exact vget_vset_ne _ _ _ _ _ (by omega)
    · intro r _ _; rfl
    · intro r hne; exact landingParts_drop_ne _ _ _ _ (by omega)
    · exact landingParts_drop_mask _ _ _

theorem writeWhole_wrote (fr : Frame) (n : Nat) (r : Reg) (hn : n < 64) :
    Wrote fr (fr.writeWhole n r) n 0xFFFFFFFF (regLane fr.coord r) := by
  refine ⟨rfl, ?_, ?_, ?_, ?_, ?_⟩
  · intro l hl
    have : laneIn 0xFFFFFFFF l = true := by
      simp only [laneIn]; interval_cases l <;> rfl
    simp only [Frame.held, hn, if_true, Frame.writeWhole, vget_vset_eq _ _ _ _ hn, this]
  · intro k _ hne; exact vget_vset_ne _ _ _ _ _ (by omega)
  · intro k _ _; rfl
  · intro k hne; exact landingParts_drop_ne _ _ _ _ (by omega)
  · exact landingParts_drop_mask _ _ _

/-- A result has been written in one register or pair of a frame: in all lanes, or in the active ones. -/
structure FrameWrites (fr fr' : Frame) (wd n : Nat) (val : Nat → DWord) : Prop where
  rest : fr' = { fr with regs := fr'.regs, kregs := fr'.kregs, outstanding := fr'.outstanding }
  word : ∀ l < 32, laneIn fr.active l = true → fr'.held n l = loOf (val l)
  high : wd = 64 → ∀ l < 32, laneIn fr.active l = true → fr'.held (n + 1) l = hiOf (val l)
  others : fr.whole = false → ∀ l < 32, laneIn fr.active l = false → ∀ r < 80, fr'.held r l = fr.held r l
  vregs : ∀ r < 64, r ≠ n → (wd = 64 → r ≠ n + 1) → vget fr'.regs r (.u 0) = vget fr.regs r (.u 0)
  kregs : ∀ r < 16, r + 64 ≠ n → (wd = 64 → r + 64 ≠ n + 1) →
    vget fr'.kregs r (Vector.replicate 32 0) = vget fr.kregs r (Vector.replicate 32 0)
  pending : ∀ r, r ≠ n → (wd = 64 → r ≠ n + 1) → landingParts fr'.outstanding r = landingParts fr.outstanding r
  returned : ∀ r, (r = n ∨ wd = 64 ∧ r = n + 1) → ∀ p ∈ landingParts fr'.outstanding r, p.mask &&& fr.active = 0

theorem and_all (a b : Mask) (h : a &&& 0xFFFFFFFF = 0) : a &&& b = 0 := by
  have : a &&& 0xFFFFFFFF = a := by
    have : (0xFFFFFFFF : Mask) = BitVec.allOnes 32 := rfl
    rw [this, BitVec.and_allOnes]
  rw [this] at h; rw [h]; exact BitVec.zero_and

theorem Wrote.writes32 {fr fr' : Frame} {n : Nat} {m : Mask} {v : Nat → Word} {val : Nat → DWord} (h : Wrote fr fr' n m v)
    (hm : m = fr.active ∨ m = 0xFFFFFFFF ∧ fr.whole = true) (hv : ∀ l, v l = loOf (val l)) :
    FrameWrites fr fr' 32 n val := by
  have hin : ∀ l < 32, laneIn fr.active l = true → laneIn m l = true := by
    intro l hl ha
    rcases hm with rfl | ⟨rfl, -⟩
    · exact ha
    · simp only [laneIn]; interval_cases l <;> rfl
  refine ⟨h.rest, ?_, by simp, ?_, ?_, ?_, ?_, ?_⟩
  · intro l hl ha; rw [h.lanes l hl, hin l hl ha, if_pos rfl, hv]
  · intro hw l hl ha r hr
    by_cases hne : r = n
    · subst hne
      rcases hm with rfl | ⟨-, hw'⟩
      · rw [h.lanes l hl, ha]; simp
      · rw [hw] at hw'; cases hw'
    · exact h.other r l hr hne
  · intro r hr hne _; exact h.vregs r hr hne
  · intro r hr hne _; exact h.kregs r hr hne
  · intro r hne _; exact h.pending r hne
  · rintro r (rfl | ⟨h', -⟩) p hp
    · have := h.returned p hp
      rcases hm with rfl | ⟨rfl, -⟩
      · exact this
      · exact and_all _ _ this
    · cases h'

theorem Wrote.writes64 {fr fr1 fr2 : Frame} {n : Nat} {m : Mask} {v u : Nat → Word} {val : Nat → DWord}
    (h1 : Wrote fr fr1 n m v) (h2 : Wrote fr1 fr2 (n + 1) m u)
    (hm : m = fr.active ∨ m = 0xFFFFFFFF ∧ fr.whole = true) (hn : n < 79) (hv : ∀ l, v l = loOf (val l))
    (hu : ∀ l, u l = hiOf (val l)) : FrameWrites fr fr2 64 n val := by
  have hin : ∀ l < 32, laneIn fr.active l = true → laneIn m l = true := by
    intro l hl ha
    rcases hm with rfl | ⟨rfl, -⟩
    · exact ha
    · simp only [laneIn]; interval_cases l <;> rfl
  have hret : ∀ p : RegPart, p.mask &&& m = 0 → p.mask &&& fr.active = 0 := by
    intro p hp
    rcases hm with rfl | ⟨rfl, -⟩
    · exact hp
    · exact and_all _ _ hp
  refine ⟨?_, ?_, ?_, ?_, ?_, ?_, ?_, ?_⟩
  · rw [h2.rest, h1.rest]
  · intro l hl ha
    rw [h2.other n l (by omega) (by omega), h1.lanes l hl, hin l hl ha, if_pos rfl, hv]
  · intro _ l hl ha
    rw [h2.lanes l hl, hin l hl ha, if_pos rfl, hu]
  · intro hw l hl ha r hr
    rcases hm with rfl | ⟨-, hw'⟩
    · by_cases hne : r = n + 1
      · subst hne
        rw [h2.lanes l hl, ha, h1.other (n + 1) l hr (by omega)]; simp
      · rw [h2.other r l hr hne]
        by_cases hne' : r = n
        · subst hne'; rw [h1.lanes l hl, ha]; simp
        · exact h1.other r l hr hne'
    · rw [hw] at hw'; cases hw'
  · intro r hr hne hne'; rw [h2.vregs r hr (hne' rfl), h1.vregs r hr hne]
  · intro r hr hne hne'; rw [h2.kregs r hr (hne' rfl), h1.kregs r hr hne]
  · intro r hne hne'; rw [h2.pending r (hne' rfl), h1.pending r hne]
  · rintro r (rfl | ⟨-, rfl⟩) p hp
    · rw [h2.pending _ (by omega)] at hp
      exact hret p (h1.returned p hp)
    · exact hret p (h2.returned p hp)

theorem setRegAs_writes {fr : Frame} {n : Nat} (v : Val) (plain : Bool) (hs : fr.span = false) (hl : fr.noLines = false)
    (hn : n < 64) :
    ∃ fr', fr.setRegAs n v plain = .ok fr' ∧ FrameWrites fr fr' 32 (fr.place n plain) (v.at_ fr) := by
  unfold Frame.setRegAs
  split
  · obtain ⟨fr', h, hw⟩ := writeLanes_wrote (f := fun l => loOf (v.at_ fr l)) (plain := plain) hs hl hn
    exact ⟨fr', h, hw.writes32 (.inl rfl) fun _ => rfl⟩
  · rename_i hc
    simp only [Bool.or_eq_true, Bool.not_eq_true', not_or, Bool.not_eq_true, Bool.not_eq_false] at hc
    have hp : fr.place n plain = n := by simp [Frame.place, hc.1]
    have hw : fr.whole = true := by simpa using hc.2
    rw [hp]
    cases v with
    | u x => exact ⟨_, rfl, (writeWhole_wrote fr n _ hn).writes32 (.inr ⟨rfl, hw⟩) fun l => rfl⟩
    | a f => exact ⟨_, rfl, (writeWhole_wrote fr n _ hn).writes32 (.inr ⟨rfl, hw⟩) fun l => loOf_affAt_low f _⟩
    | l f =>
      obtain ⟨fr', h, hw⟩ := writeLanes_wrote (f := fun l => loOf (f l)) (plain := plain) hs hl hn
      rw [hp] at hw
      exact ⟨fr', h, hw.writes32 (.inl rfl) fun _ => rfl⟩

theorem setPairAs_writes {fr : Frame} {n : Nat} (v : Val) (plain : Bool) (hs : fr.span = false) (hl : fr.noLines = false)
    (hn : n + 1 < 64) (he : n % 2 = 0) :
    ∃ fr', fr.setPairAs n v plain = .ok fr' ∧ FrameWrites fr fr' 64 (fr.place n plain) (v.at_ fr) := by
  have lanes : ∀ f : Nat → DWord, ∃ fr', (do
      let fr ← fr.writeLanes n (fun l => loOf (f l)) plain
      fr.writeLanes (n + 1) (fun l => hiOf (f l)) plain) = .ok fr' ∧ FrameWrites fr fr' 64 (fr.place n plain) f := by
    intro f
    obtain ⟨fr1, h1, w1⟩ := writeLanes_wrote (f := fun l => loOf (f l)) (plain := plain) hs hl (show n < 64 by omega)
    have hs1 : fr1.span = false := by rw [w1.rest]; exact hs
    have hl1 : fr1.noLines = false := by rw [w1.rest]; exact hl
    have hp1 : fr1.priv = fr.priv := by rw [w1.rest]
    have ha1 : fr1.active = fr.active := by rw [w1.rest]
    obtain ⟨fr2, h2, w2⟩ := writeLanes_wrote (f := fun l => hiOf (f l)) (plain := plain) hs1 hl1 hn
    have hpl : fr1.place (n + 1) plain = fr.place n plain + 1 := by
      have : fr1.isK (n + 1) = fr.isK n := by
        simp only [Frame.isK, hp1]; congr 1; simp only [decide_eq_decide]; omega
      unfold Frame.place; rw [this]; split <;> omega
    rw [hpl, ha1] at w2
    refine ⟨fr2, ?_, w1.writes64 w2 (.inl rfl) ?_ (fun _ => rfl) fun _ => rfl⟩
    · rw [h1]; exact h2
    · unfold Frame.place; split <;> omega
  unfold Frame.setPairAs
  split
  · exact lanes (v.at_ fr)
  · rename_i hc
    simp only [Bool.or_eq_true, Bool.not_eq_true', not_or, Bool.not_eq_true, Bool.not_eq_false] at hc
    have hp : fr.place n plain = n := by simp [Frame.place, hc.1]
    have hw : fr.whole = true := by simpa using hc.2
    cases v with
    | u x =>
      rw [hp]
      exact ⟨_, rfl, (writeWhole_wrote fr n _ (by omega)).writes64 (writeWhole_wrote _ (n + 1) _ hn) (.inr ⟨rfl, hw⟩)
        (by omega) (fun l => rfl) fun l => rfl⟩
    | a f =>
      rw [hp]
      exact ⟨_, rfl, (writeWhole_wrote fr n _ (by omega)).writes64 (writeWhole_wrote _ (n + 1) _ hn) (.inr ⟨rfl, hw⟩)
        (by omega) (fun l => rfl) fun l => rfl⟩
    | l f => exact lanes f

theorem dst_writes {fr : Frame} {n : Nat} (wd : Nat) (v : Val) (hwd : wd = 32 ∨ wd = 64) (hs : fr.span = false)
    (hl : fr.noLines = false) (hn : n < 64) (he : wd = 64 → n % 2 = 0) :
    ∃ fr', fr.dst wd n v = .ok fr' ∧ FrameWrites fr fr' wd (fr.slot n) (v.at_ fr) := by
  have hsl : fr.slot n = fr.place n false := by simp [Frame.slot, Frame.place]
  rw [hsl]
  rcases hwd with rfl | rfl
  · exact setRegAs_writes v false hs hl hn
  · have := he rfl
    exact setPairAs_writes v false hs hl (by omega) this

/-! Last-reads. -/

/-- A frame with registers freed. -/
structure Freed (fr fr' : Frame) (ns : List Nat) : Prop where
  rest : fr' = { fr with regs := fr'.regs, outstanding := fr'.outstanding, lateFree := fr'.lateFree }
  vregs : ∀ r < 64, vget fr'.regs r (.u 0) =
    if fr.freeing && ns.contains r && !fr.locks.getLsbD r then .u 0 else vget fr.regs r (.u 0)
  pending : ∀ r < 80, ¬ (r < 64 ∧ (fr.freeing && ns.contains r && !fr.locks.getLsbD r) = true) →
    landingParts fr'.outstanding r = landingParts fr.outstanding r

theorem Freed.refl (fr : Frame) : Freed fr fr [] := ⟨rfl, by simp, by simp⟩

theorem Freed.one {fr fr' : Frame} {ns : List Nat} (h : Freed fr fr' ns) (n : Nat) (plain : Bool) (hn : n < 64) :
    Freed fr (fr'.freeOne n plain) (ns ++ [fr'.place n plain]) := by
  have hf : fr'.freeing = fr.freeing := by rw [h.rest]
  have hl : fr'.locks = fr.locks := by rw [h.rest]
  unfold Frame.freeOne
  split
  · rename_i hc
    refine ⟨h.rest, ?_, ?_⟩
    · intro r hr
      rw [h.vregs r hr]
      congr 1
      simp only [Bool.or_eq_true, Bool.not_eq_true', hf] at hc
      rcases hc with hc | hc
      · simp [hc]
      · have : fr'.place n plain = n + 16 := by simp [Frame.place, hc]
        have h48 : 48 ≤ n := by simp [Frame.isK] at hc; exact hc.1.2
        have : r ≠ n + 16 := by omega
        simp [*]
    · intro r hr hne
      apply h.pending r hr
      intro ⟨h64, hb⟩
      apply hne
      refine ⟨h64, ?_⟩
      simp only [Bool.and_eq_true, List.contains_append] at hb ⊢
      simp only [hb.1.1, hb.2, true_and, and_true]
      rw [hb.1.2]; rfl
  · rename_i hc
    have hp : fr'.place n plain = n := by
      simp only [Bool.or_eq_true, Bool.not_eq_true', not_or] at hc
      simp [Frame.place, hc.2]
    have hfr : fr.freeing = true := by
      simp only [Bool.or_eq_true, Bool.not_eq_true', not_or, hf] at hc
      simpa using hc.1
    rw [hp]
    split
    · rename_i hlk
      rw [hl] at hlk
      refine ⟨?_, ?_, ?_⟩
      · rw [h.rest]
      · intro r hr
        show vget fr'.regs r _ = _
        rw [h.vregs r hr]
        congr 1
        by_cases hrn : r = n
        · subst hrn; simp [hlk]
        · simp [hrn]
      · intro r hr hne
        apply h.pending r hr
        intro ⟨h64, hb⟩
        apply hne
        refine ⟨h64, ?_⟩
        simp only [Bool.and_eq_true, List.contains_append] at hb ⊢
        simp only [hb.1.1, hb.2, true_and, and_true]
        rw [hb.1.2]; rfl
    · rename_i hlk
      rw [hl] at hlk
      refine ⟨?_, ?_, ?_⟩
      · rw [h.rest]
      · intro r hr
        show vget (vset fr'.regs n (.u 0)) r _ = _
        by_cases hrn : r = n
        · subst hrn; rw [vget_vset_eq _ _ _ _ hr]; simp [hlk, hfr]
        · rw [vget_vset_ne _ _ _ _ _ (Ne.symm hrn), h.vregs r hr]; simp [hrn]
      · intro r hr hne
        have hrn : n ≠ r := by
          rintro rfl; apply hne; refine ⟨hn, ?_⟩; simp [hlk, hfr]
        show landingParts (dropLandings n _ _) r = _
        rw [landingParts_drop_ne _ _ _ _ hrn]
        apply h.pending r hr
        intro ⟨h64, hb⟩
        apply hne
        refine ⟨h64, ?_⟩
        simp only [Bool.and_eq_true, List.contains_append] at hb ⊢
        simp only [hb.1.1, hb.2, true_and, and_true]
        rw [hb.1.2]; rfl

theorem Freed.slot {fr fr' : Frame} {ns : List Nat} (h : Freed fr fr' ns) (n : Nat) : fr'.slot n = fr.slot n := by
  have hp : fr'.priv = fr.priv := by rw [h.rest]
  simp [Frame.slot, Frame.isK, hp]

theorem place_slot (fr : Frame) (n : Nat) : fr.place n false = fr.slot n := by simp [Frame.place, Frame.slot]

theorem slot_succ (fr : Frame) (n : Nat) (he : n % 2 = 0) : fr.slot (n + 1) = fr.slot n + 1 := by
  have : fr.isK (n + 1) = fr.isK n := by simp only [Frame.isK]; congr 1; simp only [decide_eq_decide]; omega
  unfold Frame.slot; rw [this]; split <;> omega

/-- The registers that a last-read bit of a register or pair frees. -/
def Frame.lastRead (fr : Frame) (bit : Bool) (wd n : Nat) : List Nat :=
  if bit then (if wd = 64 then [fr.slot n, fr.slot n + 1] else [fr.slot n]) else []

theorem Freed.free {fr fr' : Frame} {ns : List Nat} (h : Freed fr fr' ns) (bit : Bool) (wd n : Nat) (hn : n < 64)
    (he : wd = 64 → n % 2 = 0) : Freed fr (fr'.free bit wd n) (ns ++ fr.lastRead bit wd n) := by
  unfold Frame.free Frame.lastRead
  cases bit
  · simpa using h
  · simp only [Bool.not_true, Bool.false_eq_true, if_false, if_true]
    split
    · rename_i hw
      have he' := he hw
      have h1 := h.one n false hn
      have h2 := h1.one (n + 1) false (by omega)
      rw [place_slot, place_slot, h1.slot, slot_succ _ _ he', h.slot, List.append_assoc] at h2
      exact h2
    · have h1 := h.one n false hn
      rw [place_slot, h.slot] at h1
      exact h1

theorem lastRead_eq (w : Seat) (bit : Bool) (r : BitVec 6) (wd : Nat) :
    w.fr.lastRead bit wd r.toNat = w.lastRead bit r (if wd = 64 then 2 else 1) := by
  unfold Frame.lastRead Seat.lastRead Seat.group Seat.slot
  cases bit
  · rfl
  · by_cases h : wd = 64 <;> simp [h, List.range_succ]

/-! Seats. -/

/-- A frame that has all of a seat's frame but flags and generators. -/
structure Based (w : Seat) (fr : Frame) : Prop where
  rest : fr = { w.fr with fpstat := fr.fpstat, gens := fr.gens }

theorem Based.refl (w : Seat) : Based w w.fr := ⟨rfl⟩

/-- What a word that has freed and written registers in its frame has made of its strip. -/
theorem writes_of {s : State} {i : Instr} {w : Seat} (hs : SeatFacts s i w) {fr0 fr1 fr2 : Frame} {ns : List Nat}
    {wd n : Nat} {val : Nat → DWord} (hb : Based w fr0) (hf : Freed fr0 fr1 ns) (hw : FrameWrites fr1 fr2 wd n val)
    (hwd : wd = 32 ∨ wd = 64) (h80 : n < 80) (hn : wd = 64 → n + 1 < 80) :
    Writes w ⟨wd, n, val, ns⟩ (w.t.withFrame fr2) ∧
      w.t.withFrame fr2 = { w.onlyRegs (w.t.withFrame fr2) with fpstat := fr0.fpstat, gens := fr0.gens } := by
  obtain ⟨gd, hgd⟩ := hs.gd
  have hfl : fr0.freeing = w.fr.freeing := by rw [hb.rest]
  have hlk : fr0.locks = w.t.locks := by rw [hb.rest, hgd]; rfl
  have hrg : fr0.regs = w.t.regs := by rw [hb.rest, hgd]; rfl
  have hkr : fr0.kregs = w.t.kregs := by rw [hb.rest, hgd]; rfl
  have hou : fr0.outstanding = w.t.outstanding := by rw [hb.rest, hgd]; rfl
  have hco : fr0.coord = w.coord := by rw [hb.rest, hgd]; rfl
  have hac : fr1.active = w.fr.active := by rw [hf.rest, hb.rest]
  have hwh : fr1.whole = w.fr.whole := by rw [hf.rest, hb.rest]
  have hk1 : fr1.kregs = w.t.kregs := by rw [hf.rest]; exact hkr
  have hc2 : fr2.coord = w.coord := by rw [hw.rest, hf.rest]; exact hco
  have held : ∀ n l, (w.t.withFrame fr2).word w.coord n l = fr2.held n l := by
    intro n l; unfold Strip.word Frame.held; rw [hc2]; rfl
  have hval : ∀ l < 32, laneIn w.fr.active l = true →
      (w.t.withFrame fr2).lane w.coord wd n l = cutTo wd (val l) := by
    intro l hl ha
    rw [← hac] at ha
    rcases hwd with rfl | rfl
    · simp only [Strip.lane, cutTo, low32, held]
      rw [hw.word l hl ha]; simp
    · simp only [Strip.lane, cutTo, held]
      rw [hw.word l hl ha, hw.high rfl l hl ha, join64_lo_hi]; simp
  refine ⟨⟨hval, ?_, ?_, ?_, ?_, ?_⟩, ?_⟩
  · intro hel l hl hlive hact
    cases hwhole : w.fr.whole
    · have hfree : w.fr.freeing = false := by
        rw [hgd] at hwhole ⊢
        simp only [stripFrame, hel, Bool.false_or] at hwhole ⊢
        cases gd with
        | absent => simpa using hwhole
        | uniform b =>
          have : (w.t.active == w.t.live) = false := by simpa using hwhole
          rw [this]; rfl
        | lanes m => simp
      have h01 : ∀ r < 80, fr1.held r l = w.t.word w.coord r l := by
        intro r hr
        have hc1 : fr1.coord = w.coord := by rw [hf.rest]; exact hco
        unfold Frame.held Strip.word
        rw [hc1, hk1]
        split
        · rename_i h64
          rw [hf.vregs r h64, hfl, hfree, hrg]; rfl
        · rfl
      have h12 : ∀ r < 80, fr2.held r l = w.t.word w.coord r l := by
        intro r hr
        rw [hw.others (hwh.trans hwhole) l hl (by rw [hac]; exact hact) r hr, h01 r hr]
      simp only [Strip.lane, held]
      split
      · rename_i h64; rw [h12 n h80, h12 (n + 1) (hn h64)]
      · rw [h12 n h80]
    · exfalso
      rw [hgd] at hwhole hact
      simp only [stripFrame, hel, Bool.false_or, Bool.and_eq_true, beq_iff_eq] at hwhole hact
      have hne := hs.lanes
      rw [hgd] at hne
      cases gd with
      | absent =>
        simp only at hact
        rw [hwhole.1, hlive] at hact; cases hact
      | uniform b =>
        cases b
        · simp [stripFrame] at hne
        · simp only [if_true] at hact
          rw [hwhole.1, hlive] at hact; cases hact
      | lanes m => exact absurd hwhole.2 (by simp)
  · intro r hr p hp
    rw [← hac]
    apply hw.returned r _ p hp
    unfold Result.regs at hr
    simp only at hr
    split at hr
    · rename_i h64
      simp only [List.mem_cons, List.not_mem_nil, or_false] at hr
      rcases hr with hr | hr
      · exact .inl hr
      · exact .inr ⟨h64, hr⟩
    · simp only [List.mem_cons, List.not_mem_nil, or_false] at hr
      exact .inl hr
  · intro r hr hne
    show vget fr2.regs r _ = _
    have h1 : r ≠ n := by rintro rfl; apply hne; unfold Result.regs; split <;> simp
    have h2 : wd = 64 → r ≠ n + 1 := by rintro h64 rfl; apply hne; unfold Result.regs; simp [h64]
    rw [hw.vregs r hr h1 h2, hf.vregs r hr, hfl, hlk, hrg]
    rfl
  · intro r hr hne
    show vget fr2.kregs r _ = _
    have h1 : r + 64 ≠ n := by rintro rfl; apply hne; unfold Result.regs; split <;> simp
    have h2 : wd = 64 → r + 64 ≠ n + 1 := by
      intro h64 h; apply hne; unfold Result.regs; simp [h64, h]
    rw [hw.kregs r hr h1 h2, hk1]
  · intro r hr hne hnf
    show landingParts fr2.outstanding r = landingParts w.t.outstanding r
    have h1 : r ≠ n := by rintro rfl; apply hne; unfold Result.regs; split <;> simp
    have h2 : wd = 64 → r ≠ n + 1 := by rintro h64 rfl; apply hne; unfold Result.regs; simp [h64]
    rw [hw.pending r h1 h2, hf.pending r hr, hou]
    rw [hfl, hlk]; exact hnf
  · unfold Strip.withFrame Seat.onlyRegs
    have hp : fr2.preds = w.t.preds := by rw [hw.rest, hf.rest, hb.rest, hgd]; rfl
    have hm : fr2.mode = w.t.mode := by rw [hw.rest, hf.rest, hb.rest, hgd]; rfl
    have hft : fr2.fmt = w.t.fmt := by rw [hw.rest, hf.rest, hb.rest, hgd]; rfl
    have hfp : fr2.fpstat = fr0.fpstat := by rw [hw.rest, hf.rest]
    have hg : fr2.gens = fr0.gens := by rw [hw.rest, hf.rest]
    simp only [hm, hft, hfp, hg]

theorem withFrame_pass {s : State} {i : Instr} {w : Seat} (hs : SeatFacts s i w) {fr : Frame} :
    settle w i (w.form i) (w.done (.ok fr)) = w.passed i w.s (w.t.withFrame fr) :=
  settle_next _ hs.wait hs.parked hs.calm

/-! Predicates. -/

/-- A predicate of a frame has been written: in all lanes, or in the active ones. -/
structure FrameWritesPred (fr fr' : Frame) (n : Nat) (val : Nat → Bool) : Prop where
  rest : fr' = { fr with preds := fr'.preds }
  active : ∀ l < 32, laneIn fr.active l = true → predLane fr.coord (vget fr'.preds n (.u false)) l = val l
  others : fr.whole = false → ∀ l < 32, laneIn fr.active l = false →
    predLane fr.coord (vget fr'.preds n (.u false)) l = predLane fr.coord (vget fr.preds n (.u false)) l
  preds : ∀ r < 32, r ≠ n → vget fr'.preds r (.u false) = vget fr.preds r (.u false)

theorem setPred_writes {fr : Frame} {n : Nat} (v : PVal) (hs : fr.span = false) (hn : n < 32) :
    ∃ fr', fr.setPred n v = .ok fr' ∧ FrameWritesPred fr fr' n (v.at_ fr) := by
  have lanes : ∀ f : Nat → Bool, ∃ fr', (if fr.span then (.error .dealOut : Do Frame)
      else .ok { fr with preds := vset fr.preds n (.l (maskOf fun l => if laneIn fr.active l then f l else
        predLane fr.coord (vget fr.preds n (.u false)) l)) }) = .ok fr' ∧ FrameWritesPred fr fr' n f := by
    intro f
    rw [if_neg (by simp [hs])]
    refine ⟨_, rfl, rfl, ?_, ?_, ?_⟩
    · intro l hl ha
      simp only [vget_vset_eq _ _ _ _ hn, predLane, laneIn_maskOf _ _ hl, ha, if_true]
    · intro _ l hl ha
      simp only [vget_vset_eq _ _ _ _ hn]
      show laneIn _ l = _
      rw [laneIn_maskOf _ _ hl]; simp [ha]
    · intro r _ hne; exact vget_vset_ne _ _ _ _ _ (Ne.symm hne)
  unfold Frame.setPred
  simp only
  split
  · exact lanes (v.at_ fr)
  · rename_i hw
    have hw : fr.whole = true := by simpa using hw
    cases v with
    | u b =>
      refine ⟨_, rfl, rfl, ?_, ?_, ?_⟩
      · intro l hl ha; simp only [vget_vset_eq _ _ _ _ hn]; rfl
      · intro h; rw [hw] at h; cases h
      · intro r _ hne; exact vget_vset_ne _ _ _ _ _ (Ne.symm hne)
    | range axis lo hi =>
      refine ⟨_, rfl, rfl, ?_, ?_, ?_⟩
      · intro l hl ha; simp only [vget_vset_eq _ _ _ _ hn]; rfl
      · intro h; rw [hw] at h; cases h
      · intro r _ hne; exact vget_vset_ne _ _ _ _ _ (Ne.symm hne)
    | l f => exact lanes f

/-- A frame whose whole is false while lanes of the strip are not acted on, or that acts on every live lane. -/
theorem whole_or {s : State} {i : Instr} {w : Seat} (hs : SeatFacts s i w) (hel : w.t.leads = false) (l : Nat)
    (hlive : laneIn w.t.live l = true) (hact : laneIn w.fr.active l = false) :
    w.fr.whole = false ∧ w.fr.freeing = false := by
  obtain ⟨gd, hgd⟩ := hs.gd
  have hne := hs.lanes
  rw [hgd] at hne hact ⊢
  simp only [stripFrame, hel, Bool.false_or] at hne hact ⊢
  cases gd with
  | absent =>
    have : (w.t.active == w.t.live) = false := by
      apply Bool.eq_false_iff.mpr; intro h; rw [beq_iff_eq] at h
      simp only at hact; rw [h, hlive] at hact; cases hact
    simp [this]
  | uniform b =>
    cases b
    · exact absurd (if_neg (by simp)) hne
    · have : (w.t.active == w.t.live) = false := by
        apply Bool.eq_false_iff.mpr; intro h; rw [beq_iff_eq] at h
        simp only [if_true] at hact; rw [h, hlive] at hact; cases hact
      simp [this]
  | lanes m => simp

/-- What a word that has freed registers and written a predicate in its frame has made of its strip. -/
theorem writesPred_of {s : State} {i : Instr} {w : Seat} (hs : SeatFacts s i w) {fr0 fr1 fr2 : Frame} {ns : List Nat}
    {p : BitVec 5} {val : Nat → Bool} (hb : Based w fr0) (hf : Freed fr0 fr1 ns) (hw : FrameWritesPred fr1 fr2 p.toNat val) :
    WritesPred w p val ns (w.t.withFrame fr2) ∧
      w.t.withFrame fr2 = { w.onlyRegs (w.t.withFrame fr2) with fpstat := fr0.fpstat, gens := fr0.gens } := by
  obtain ⟨gd, hgd⟩ := hs.gd
  have hfl : fr0.freeing = w.fr.freeing := by rw [hb.rest]
  have hlk : fr0.locks = w.t.locks := by rw [hb.rest, hgd]; rfl
  have hrg : fr0.regs = w.t.regs := by rw [hb.rest, hgd]; rfl
  have hkr : fr2.kregs = w.t.kregs := by rw [hw.rest, hf.rest, hb.rest, hgd]; rfl
  have hou : fr0.outstanding = w.t.outstanding := by rw [hb.rest, hgd]; rfl
  have hco : fr1.coord = w.coord := by rw [hf.rest, hb.rest, hgd]; rfl
  have hac : fr1.active = w.fr.active := by rw [hf.rest, hb.rest]
  have hwh : fr1.whole = w.fr.whole := by rw [hf.rest, hb.rest]
  have hp1 : fr1.preds = w.t.preds := by rw [hf.rest, hb.rest, hgd]; rfl
  have hr2 : fr2.regs = fr1.regs := by rw [hw.rest]
  have ho2 : fr2.outstanding = fr1.outstanding := by rw [hw.rest]
  refine ⟨⟨?_, ?_, ?_, ?_, ?_, ?_⟩, ?_⟩
  · intro l hl ha
    rw [← hco]; exact hw.active l hl (by rw [hac]; exact ha)
  · intro hel l hl hlive hact
    have hwhole := (whole_or hs hel l hlive hact).1
    rw [← hco, ← hp1]; exact hw.others (hwh.trans hwhole) l hl (by rw [hac]; exact hact)
  · intro r hr hne; rw [← hp1]; exact hw.preds r hr hne
  · intro r hr _
    show vget fr2.regs r _ = _
    rw [hr2, hf.vregs r hr, hfl, hlk, hrg]; rfl
  · intro r _ _
    show vget fr2.kregs r _ = _
    rw [hkr]
  · intro r hr _ hnf
    show landingParts fr2.outstanding r = landingParts w.t.outstanding r
    rw [ho2, hf.pending r hr (by rw [hfl, hlk]; exact hnf), hou]
  · unfold Strip.withFrame Seat.onlyRegs
    have hm : fr2.mode = w.t.mode := by rw [hw.rest, hf.rest, hb.rest, hgd]; rfl
    have hft : fr2.fmt = w.t.fmt := by rw [hw.rest, hf.rest, hb.rest, hgd]; rfl
    have hfp : fr2.fpstat = fr0.fpstat := by rw [hw.rest, hf.rest]
    have hg : fr2.gens = fr0.gens := by rw [hw.rest, hf.rest]
    simp only [hm, hft, hfp, hg]

/-- A word that has freed registers and then writes a predicate. -/
theorem givesPred_of {s : State} {i : Instr} {w : Seat} (h : SeatFacts s i w) {fr1 : Frame} {ns : List Nat}
    (hf : Freed w.fr fr1 ns) (p : BitVec 5) (v : PVal) :
    ∃ fr2, fr1.setPred p.toNat v = .ok fr2 ∧
      w.givesPred i (.next (settle w i (w.form i) (w.done (.ok fr2)))) p (v.at_ w.fr) ns := by
  have hs0 : w.fr.span = false := by obtain ⟨gd, hgd⟩ := h.gd; rw [hgd]; rfl
  have hs1 : fr1.span = false := by rw [hf.rest]; exact hs0
  have hco : fr1.coord = w.fr.coord := by rw [hf.rest]
  obtain ⟨fr2, h2, w2⟩ := setPred_writes v hs1 p.isLt
  have hat : v.at_ fr1 = v.at_ w.fr := by funext l; cases v <;> simp [PVal.at_, hco]
  rw [hat] at w2
  obtain ⟨hw, he⟩ := writesPred_of h (Based.refl w) hf w2
  obtain ⟨gd, hgd⟩ := h.gd
  have h0 : w.fr.fpstat = w.t.fpstat ∧ w.fr.gens = w.t.gens := by rw [hgd]; exact ⟨rfl, rfl⟩
  refine ⟨fr2, h2, w.t.withFrame fr2, by rw [withFrame_pass h], ?_, hw⟩
  rw [h0.1, h0.2] at he; exact he

end Sys2Proof.Machine
end

