-- ==== Sys2Proof/Laws/Integer.lean ====
section
/-! SUPPORT. The integer words: each form of an operand gives every lane the value that the operation has of the lane's
values, and what a word of two or three sources does in its seat. -/

namespace Sys2Proof.Machine

@[simp] theorem lift1_at (fr : Frame) (f : DWord → DWord) (a : Val) (l : Nat) :
    (lift1 fr f a).at_ fr l = f (a.at_ fr l) := by cases a <;> rfl

@[simp] theorem lift2_at (fr : Frame) (f : DWord → DWord → DWord) (a b : Val) (l : Nat) :
    (lift2 fr f a b).at_ fr l = f (a.at_ fr l) (b.at_ fr l) := by cases a <;> cases b <;> rfl

@[simp] theorem lift3_at (fr : Frame) (f : DWord → DWord → DWord → DWord) (a b c : Val) (l : Nat) :
    (lift3 fr f a b c).at_ fr l = f (a.at_ fr l) (b.at_ fr l) (c.at_ fr l) := by
  cases a <;> cases b <;> cases c <;> rfl

/-! Words without saturation are the arithmetic of their width. -/

theorem readInt_emod (t : IntType) (v : DWord) :
    readInt t v % (2 ^ typeWidth t : Nat) = (v.toNat : Int) % (2 ^ typeWidth t : Nat) := by
  cases t
  · simp only [readInt, typeWidth]
    rw [BitVec.toInt_eq_toNat_bmod, loOf_toNat]
    simp only [Int.bmod_emod]
    omega
  · simp only [readInt, typeWidth, loOf_toNat]; omega
  · simp only [readInt, typeWidth]; rw [BitVec.toInt_eq_toNat_bmod]; simp only [Int.bmod_emod]
  · simp only [readInt, typeWidth]

/-- Equality in the lanes of a register or pair. -/
def SameIn (wd : Nat) (a b : DWord) : Prop := if wd = 64 then a = b else loOf a = loOf b

theorem sameIn_iff {wd : Nat} (hwd : wd = 32 ∨ wd = 64) (a b : DWord) :
    SameIn wd a b ↔ (a.toNat : Int) % (2 ^ wd : Nat) = (b.toNat : Int) % (2 ^ wd : Nat) := by
  have ha := a.isLt
  have hb := b.isLt
  unfold SameIn
  rcases hwd with rfl | rfl
  · rw [if_neg (by decide)]
    constructor
    · intro h
      have := congrArg BitVec.toNat h
      rw [loOf_toNat, loOf_toNat] at this; omega
    · intro h
      apply BitVec.eq_of_toNat_eq
      rw [loOf_toNat, loOf_toNat]; omega
  · rw [if_pos rfl]
    constructor
    · rintro rfl; rfl
    · intro h
      apply BitVec.eq_of_toNat_eq; omega

theorem writeInt_emod (wd : Nat) (hwd : wd = 32 ∨ wd = 64) (r : Int) :
    ((writeInt wd r).toNat : Int) % (2 ^ wd : Nat) = r % (2 ^ wd : Nat) := by
  rcases hwd with rfl | rfl
  · simp only [writeInt]
    have := BitVec.toNat_ofInt (n := 32) r
    simp [this]; omega
  · simp only [writeInt, if_true]
    have := BitVec.toNat_ofInt (n := 64) r
    simp [this]; omega

theorem typeWidth_cases (t : IntType) : typeWidth t = 32 ∨ typeWidth t = 64 := by cases t <;> simp [typeWidth]

theorem intResult_emod (t : IntType) (r : Int) :
    ((intResult t false r).toNat : Int) % (2 ^ typeWidth t : Nat) = r % (2 ^ typeWidth t : Nat) :=
  writeInt_emod _ (typeWidth_cases t) r

theorem emod_two_pow (wd : Nat) (hwd : wd ≤ 64) (x : Nat) :
    ((x % 2 ^ 64 : Nat) : Int) % (2 ^ wd : Nat) = (x : Int) % (2 ^ wd : Nat) := by
  have : (2 ^ wd : Nat) ∣ 2 ^ 64 := Nat.pow_dvd_pow 2 hwd
  norm_cast
  exact Nat.mod_mod_of_dvd _ this

theorem addWord_same (t : IntType) (a b : DWord) : SameIn (typeWidth t) (addWord t false a b) (a + b) := by
  rw [sameIn_iff (typeWidth_cases t), addWord, intResult_emod, Int.add_emod, readInt_emod, readInt_emod, ← Int.add_emod,
    BitVec.toNat_add, emod_two_pow _ (by rcases typeWidth_cases t with h | h <;> omega)]
  norm_cast

theorem subWord_same (t : IntType) (a b : DWord) : SameIn (typeWidth t) (subWord t false a b) (a - b) := by
  have hb := b.isLt
  rw [sameIn_iff (typeWidth_cases t), subWord, intResult_emod, Int.sub_emod, readInt_emod, readInt_emod, ← Int.sub_emod,
    BitVec.toNat_sub, emod_two_pow _ (by rcases typeWidth_cases t with h | h <;> omega)]
  rcases typeWidth_cases t with h | h <;> rw [h] <;> omega

theorem mulWord_same (t : IntType) (a b : DWord) : SameIn (typeWidth t) (mulWord t false a b) (a * b) := by
  rw [sameIn_iff (typeWidth_cases t), mulWord, intResult_emod, Int.mul_emod, readInt_emod, readInt_emod, ← Int.mul_emod,
    BitVec.toNat_mul, emod_two_pow _ (by rcases typeWidth_cases t with h | h <;> omega)]
  norm_cast

theorem madWord_same (t : IntType) (a b c : DWord) : SameIn (typeWidth t) (madWord t false a b c) (a * b + c) := by
  rw [sameIn_iff (typeWidth_cases t), madWord, intResult_emod, Int.add_emod, Int.mul_emod, readInt_emod, readInt_emod,
    readInt_emod, ← Int.mul_emod, ← Int.add_emod,
    BitVec.toNat_add, emod_two_pow _ (by rcases typeWidth_cases t with h | h <;> omega), BitVec.toNat_mul]
  push_cast
  generalize (a.toNat : Int) * b.toNat = p
  rcases typeWidth_cases t with h | h <;> rw [h] <;> omega

theorem SameIn.symm {wd : Nat} {a b : DWord} (h : SameIn wd a b) : SameIn wd b a := by
  unfold SameIn at *; split at h
  · rw [if_pos ‹_›]; exact h.symm
  · rw [if_neg ‹_›]; exact h.symm

theorem SameIn.rfl {wd : Nat} {a : DWord} : SameIn wd a a := by unfold SameIn; split <;> trivial

theorem affAt_add (f g : Aff) (c : Nat × Nat × Nat) : affAt (f.add g) c = affAt f c + affAt g c := by
  simp only [affAt, Aff.add]; ring

theorem affAt_sub (f g : Aff) (c : Nat × Nat × Nat) : affAt (f.sub g) c = affAt f c - affAt g c := by
  simp only [affAt, Aff.sub]; ring

theorem affAt_times (f : Aff) (k : DWord) (c : Nat × Nat × Nat) : affAt (f.times k) c = affAt f c * k := by
  simp only [affAt, Aff.times]; ring

theorem affAt_const (k : DWord) (c : Nat × Nat × Nat) : affAt (Aff.mk k 0 0 0) c = k := by simp [affAt]

theorem aff?_at {fr : Frame} {v : Val} {f : Aff} (h : v.aff? = some f) (l : Nat) : affAt f (fr.coord l) = v.at_ fr l := by
  cases v with
  | u x => cases h; exact affAt_const x _
  | a g => cases h; rfl
  | l g => cases h

theorem affOf_some {sat : Bool} {v : Val} {f : Aff} (h : affOf sat v = some f) : sat = false ∧ v.aff? = some f := by
  unfold affOf at h; cases sat
  · exact ⟨Eq.refl _, h⟩
  · cases h

/-- An affine sum is the sum of the values in every lane. -/
theorem addVal_same {wd : Nat} {word : DWord → DWord → DWord} {join : Aff → Aff → Aff} (fr : Frame) (sat : Bool)
    (h : sat = false → ∀ f g c, SameIn wd (affAt (join f g) c) (word (affAt f c) (affAt g c))) (a b : Val) (l : Nat) :
    SameIn wd ((addVal fr sat word join a b).at_ fr l) (word (a.at_ fr l) (b.at_ fr l)) := by
  unfold addVal
  split
  · exact SameIn.rfl
  · split
    · rename_i f g hf hg
      obtain ⟨hs, hf⟩ := affOf_some hf
      obtain ⟨_, hg⟩ := affOf_some hg
      rw [← aff?_at (fr := fr) hf l, ← aff?_at (fr := fr) hg l]
      exact h hs f g _
    · exact SameIn.rfl

theorem mulVal_same {wd : Nat} {word : DWord → DWord → DWord} (fr : Frame) (sat : Bool)
    (h : sat = false → ∀ x y, SameIn wd (x * y) (word x y)) (a b : Val) (l : Nat) :
    SameIn wd ((mulVal fr sat word a b).at_ fr l) (word (a.at_ fr l) (b.at_ fr l)) := by
  unfold mulVal
  split
  · exact SameIn.rfl
  · show SameIn wd (affAt _ _) _
    rw [affAt_times]; exact h (Eq.refl _) _ _
  · show SameIn wd (affAt _ _) _
    rw [affAt_times, BitVec.mul_comm]; exact h (Eq.refl _) _ _
  · exact SameIn.rfl

theorem madVal_same {wd : Nat} {word : DWord → DWord → DWord → DWord} (fr : Frame) (sat : Bool)
    (h : sat = false → ∀ x y z, SameIn wd (x * y + z) (word x y z)) (a b c : Val) (l : Nat) :
    SameIn wd ((madVal fr sat word a b c).at_ fr l) (word (a.at_ fr l) (b.at_ fr l) (c.at_ fr l)) := by
  unfold madVal
  split
  · exact SameIn.rfl
  · split
    · exact SameIn.rfl
    · show SameIn wd (affAt _ _) _
      rw [affAt_add, affAt_const]; exact h (by cases sat; rfl; contradiction) _ _ _
  · split
    · rename_i hg
      obtain ⟨hs, hg⟩ := affOf_some hg
      show SameIn wd (affAt _ _) _
      rw [affAt_add, affAt_times, aff?_at (fr := fr) hg]; exact h hs _ _ _
    · exact SameIn.rfl
  · split
    · rename_i hg
      obtain ⟨hs, hg⟩ := affOf_some hg
      show SameIn wd (affAt _ _) _
      rw [affAt_add, affAt_times, aff?_at (fr := fr) hg, BitVec.mul_comm]; exact h hs _ _ _
    · exact SameIn.rfl
  · exact SameIn.rfl

theorem shlVal_same (fr : Frame) (a b : Val) (l : Nat) :
    SameIn 32 ((shlVal fr a b).at_ fr l) (on32 shlWord (a.at_ fr l) (b.at_ fr l)) := by
  unfold shlVal
  split
  · rename_i f k
    show loOf (affAt _ _) = loOf (BitVec.setWidth 64 (shlWord _ _))
    rw [affAt_times, loOf_mul, loOf_setWidth]
    unfold shlWord
    have hk : (loOf k).toNat = k.toNat % 2 ^ 32 := loOf_toNat k
    show loOf (affAt f (fr.coord l)) * _ = if (loOf k).toNat < 32 then _ else _
    rw [hk]
    split
    · show _ = loOf (affAt f (fr.coord l)) <<< _
      rw [BitVec.shiftLeft_eq_mul_twoPow]
      simp only [loOf_eq]
      apply BitVec.eq_of_toNat_eq
      simp [Nat.shiftLeft_eq, Val.at_]
    · simp [loOf_eq]
  · rw [lift2_at]; exact SameIn.rfl

theorem leaVal_same (fr : Frame) (a b c : Val) (l : Nat) :
    SameIn 32 ((leaVal fr a b c).at_ fr l) (on32t leaWord (a.at_ fr l) (b.at_ fr l) (c.at_ fr l)) := by
  unfold leaVal
  split
  · exact SameIn.rfl
  · rename_i z _
    split
    · rename_i f g hf hg
      show loOf (affAt _ _) = loOf (BitVec.setWidth 64 (leaWord _ _ _))
      rw [affAt_add, affAt_times, loOf_add, loOf_mul, loOf_setWidth, aff?_at (fr := fr) hf, aff?_at (fr := fr) hg]
      unfold leaWord
      have hk : (loOf z).toNat = z.toNat % 2 ^ 32 := loOf_toNat z
      show _ = _ + if (loOf z).toNat < 32 then _ else _
      rw [hk]
      congr 1
      split
      · show _ = loOf _ <<< _
        rw [BitVec.shiftLeft_eq_mul_twoPow]
        simp only [loOf_eq]
        apply BitVec.eq_of_toNat_eq
        simp [Nat.shiftLeft_eq, Val.at_]
      · simp [loOf_eq]
    · rw [lift3_at]; exact SameIn.rfl
  · rw [lift3_at]; exact SameIn.rfl

/-! What a word does in its seat. -/

theorem FrameWrites.congr {fr fr' : Frame} {wd n : Nat} {v u : Nat → DWord} (h : FrameWrites fr fr' wd n v)
    (hv : ∀ l, SameIn wd (v l) (u l)) : FrameWrites fr fr' wd n u := by
  refine ⟨h.rest, ?_, ?_, h.others, h.vregs, h.kregs, h.pending, h.returned⟩
  · intro l hl ha
    rw [h.word l hl ha]
    have := hv l
    unfold SameIn at this; split at this
    · rw [this]
    · exact this
  · intro h64 l hl ha
    rw [h.high h64 l hl ha]
    have := hv l
    unfold SameIn at this; rw [if_pos h64] at this; rw [this]

theorem seat_span {s : State} {i : Instr} {w : Seat} (h : SeatFacts s i w) : w.fr.span = false := by
  obtain ⟨gd, hgd⟩ := h.gd; rw [hgd]; rfl

theorem seat_noLines {s : State} {i : Instr} {w : Seat} (h : SeatFacts s i w) (hr : w.l.hdr.regs ≠ 0) :
    w.fr.noLines = false := by
  obtain ⟨gd, hgd⟩ := h.gd; rw [hgd]; simp [stripFrame, hr]

theorem slot_lt (w : Seat) (r : BitVec 6) : w.slot r + 1 ≤ 80 := by
  have := r.isLt; unfold Seat.slot Frame.slot; split <;> omega

theorem slot_even (fr : Frame) (n : Nat) (h : n % 2 = 0) : fr.slot n % 2 = 0 := by unfold Frame.slot; split <;> omega

/-- A word that has freed registers and then writes its result. -/
theorem gives_of {s : State} {i : Instr} {w : Seat} (h : SeatFacts s i w) (hr : w.l.hdr.regs ≠ 0) {fr1 : Frame}
    {ns : List Nat} (hf : Freed w.fr fr1 ns) {wd : Nat} (hwd : wd = 32 ∨ wd = 64) (d : BitVec 6)
    (hd : wd = 64 → d.toNat % 2 = 0) (v : Val) (val : Nat → DWord) (hv : ∀ l, SameIn wd (v.at_ w.fr l) (val l)) :
    ∃ fr2, fr1.dst wd d.toNat v = .ok fr2 ∧
      w.gives i (.next (settle w i (w.form i) (w.done (.ok fr2)))) ⟨wd, w.slot d, val, ns⟩ := by
  have hs1 : fr1.span = false := by rw [hf.rest]; exact seat_span h
  have hl1 : fr1.noLines = false := by rw [hf.rest]; exact seat_noLines h hr
  have hco : fr1.coord = w.fr.coord := by rw [hf.rest]
  obtain ⟨fr2, h2, w2⟩ := dst_writes wd v hwd hs1 hl1 d.isLt hd
  rw [hf.slot] at w2
  have hat : ∀ l, v.at_ fr1 l = v.at_ w.fr l := by intro l; cases v <;> simp [Val.at_, hco]
  have w3 := w2.congr (u := val) fun l => by rw [hat]; exact hv l
  have h80 : w.fr.slot d.toNat < 80 := slot_lt w d
  have hn : wd = 64 → w.fr.slot d.toNat + 1 < 80 := by
    intro h64
    have := slot_even w.fr d.toNat (hd h64)
    omega
  obtain ⟨hw, he⟩ := writes_of h (Based.refl w) hf w3 hwd h80 hn
  obtain ⟨gd, hgd⟩ := h.gd
  have h0 : w.fr.fpstat = w.t.fpstat ∧ w.fr.gens = w.t.gens := by rw [hgd]; exact ⟨Eq.refl _, Eq.refl _⟩
  refine ⟨fr2, h2, w.t.withFrame fr2, by rw [withFrame_pass h], ?_, hw⟩
  rw [h0.1, h0.2] at he; exact he

/-! The groups that a legal word names are aligned. -/

theorem legal_parts {f : Form} (h : f.legal = true) :
    f.ok = true ∧ (∀ r ∈ f.srcs, r.reg.toNat % r.n = 0) ∧ ∀ r ∈ f.dsts, r.reg.toNat % r.n = 0 := by
  simp only [Form.legal, Bool.and_eq_true, List.all_eq_true, Role.aligned, beq_iff_eq] at h
  exact ⟨h.1.1.1, h.1.2, h.2⟩

/-- A word of two sources. -/
theorem body3_gives {s : State} {i : Instr} {w : Seat} (h : SeatFacts s i w) (hr : w.l.hdr.regs ≠ 0) {wd : Nat}
    (hwd : wd = 32 ∨ wd = 64) (v : W3) (f : Frame → Val → Val → Val) (word : DWord → DWord → DWord)
    (hal : wd = 64 → v.a.toNat % 2 = 0 ∧ v.b.toNat % 2 = 0 ∧ v.d.toNat % 2 = 0)
    (hf : ∀ fr a b l, SameIn wd ((f fr a b).at_ fr l) (word (a.at_ fr l) (b.at_ fr l))) :
    w.gives i (.next (settle w i (w.form i) (w.done (body3 wd v f w.fr))))
      ⟨wd, w.slot v.d, fun l => word (w.src wd v.a l) (w.src wd v.b l),
        w.lastRead v.la v.a (if wd = 64 then 2 else 1) ++ w.lastRead v.lb v.b (if wd = 64 then 2 else 1)⟩ := by
  have h1 := (Freed.refl w.fr).free v.la wd v.a.toNat v.a.isLt fun h => (hal h).1
  have h2 := h1.free v.lb wd v.b.toNat v.b.isLt fun h => (hal h).2.1
  rw [lastRead_eq, lastRead_eq, List.nil_append] at h2
  obtain ⟨fr2, h3, h4⟩ := gives_of h hr h2 hwd v.d (fun h => (hal h).2.2)
    (f w.fr (w.fr.src wd v.a.toNat) (w.fr.src wd v.b.toNat)) _ (fun l => hf w.fr _ _ l)
  have : body3 wd v f w.fr = .ok fr2 := h3
  rw [this]; exact h4

/-- A word of three sources. -/
theorem body4_gives {s : State} {i : Instr} {w : Seat} (h : SeatFacts s i w) (hr : w.l.hdr.regs ≠ 0) {wd : Nat}
    (hwd : wd = 32 ∨ wd = 64) (v : W3) (f : Frame → Val → Val → Val → Val) (word : DWord → DWord → DWord → DWord)
    (hal : wd = 64 → v.a.toNat % 2 = 0 ∧ v.b.toNat % 2 = 0 ∧ (vcOf v.x).toNat % 2 = 0 ∧ v.d.toNat % 2 = 0)
    (hf : ∀ fr a b c l, SameIn wd ((f fr a b c).at_ fr l) (word (a.at_ fr l) (b.at_ fr l) (c.at_ fr l))) :
    w.gives i (.next (settle w i (w.form i) (w.done (body4 wd v f w.fr))))
      ⟨wd, w.slot v.d, fun l => word (w.src wd v.a l) (w.src wd v.b l) (w.src wd (vcOf v.x) l),
        w.lastRead v.la v.a (if wd = 64 then 2 else 1) ++ w.lastRead v.lb v.b (if wd = 64 then 2 else 1) ++
          w.lastRead (lcOf v.x) (vcOf v.x) (if wd = 64 then 2 else 1)⟩ := by
  have h1 := (Freed.refl w.fr).free v.la wd v.a.toNat v.a.isLt fun h => (hal h).1
  have h2 := h1.free v.lb wd v.b.toNat v.b.isLt fun h => (hal h).2.1
  have h3 := h2.free (lcOf v.x) wd (vcOf v.x).toNat (vcOf v.x).isLt fun h => (hal h).2.2.1
  rw [lastRead_eq, lastRead_eq, lastRead_eq, List.nil_append] at h3
  obtain ⟨fr2, h5, h4⟩ := gives_of h hr h3 hwd v.d (fun h => (hal h).2.2.2)
    (f w.fr (w.fr.src wd v.a.toNat) (w.fr.src wd v.b.toNat) (w.fr.src wd (vcOf v.x).toNat)) _ (fun l => hf w.fr _ _ _ l)
  have : body4 wd v f w.fr = .ok fr2 := h5
  rw [this]; exact h4

/-- A word of one source register. -/
theorem body2_gives {s : State} {i : Instr} {w : Seat} (h : SeatFacts s i w) (hr : w.l.hdr.regs ≠ 0) (v : W2)
    (f : Frame → Val → Val) (word : DWord → DWord)
    (hf : ∀ fr a l, SameIn 32 ((f fr a).at_ fr l) (word (a.at_ fr l))) :
    w.gives i (.next (settle w i (w.form i) (w.done (body2 v f w.fr))))
      ⟨32, w.slot v.d, fun l => word (w.src 32 v.a l), w.lastRead v.la v.a 1⟩ := by
  have h1 := (Freed.refl w.fr).free v.la 32 v.a.toNat v.a.isLt (by simp)
  rw [lastRead_eq, List.nil_append] at h1
  obtain ⟨fr2, h3, h4⟩ := gives_of h hr h1 (.inl rfl) v.d (by simp) (f w.fr (w.fr.reg v.a.toNat)) _ (fun l => hf w.fr _ l)
  have : body2 v f w.fr = .ok fr2 := h3
  rw [this]; exact h4

/-- An immediate word. -/
theorem bodyImm_gives {s : State} {i : Instr} {w : Seat} (h : SeatFacts s i w) (hr : w.l.hdr.regs ≠ 0) (v : WImm)
    (f : Frame → Val → Val → Val) (word : DWord → DWord → DWord)
    (hf : ∀ fr a b l, SameIn 32 ((f fr a b).at_ fr l) (word (a.at_ fr l) (b.at_ fr l))) :
    w.gives i (.next (settle w i (w.form i) (w.done (bodyImm v f w.fr))))
      ⟨32, w.slot v.d, fun l => word (w.src 32 v.a l) ((immOf v.imm v.lit).setWidth 64), w.lastRead v.la v.a 1⟩ := by
  have h1 := (Freed.refl w.fr).free v.la 32 v.a.toNat v.a.isLt (by simp)
  rw [lastRead_eq, List.nil_append] at h1
  obtain ⟨fr2, h3, h4⟩ := gives_of h hr h1 (.inl rfl) v.d (by simp) (f w.fr (w.fr.reg v.a.toNat) (immVal v)) _
    (fun l => hf w.fr _ _ l)
  have : bodyImm v f w.fr = .ok fr2 := h3
  rw [this]; exact h4

end Sys2Proof.Machine
end

