-- ==== Sys2Proof/Laws/Float.lean ====
section
/-! SUPPORT. The float words: one evaluation for each lane, whatever the forms of the operands, and its flags. -/

namespace Sys2Proof.Machine

theorem foldl_or_const (c fl : Word) (ls : List Nat) (h : ls ≠ []) : ls.foldl (fun fl _ => fl ||| c) fl = fl ||| c := by
  induction ls generalizing fl with
  | nil => exact absurd rfl h
  | cons a r ih =>
    rw [List.foldl_cons]
    by_cases hr : r = []
    · subst hr; rfl
    · rw [ih _ hr, BitVec.or_assoc, BitVec.or_self]

theorem lanesOf_ne {m : Mask} (h : m ≠ 0) : lanesOf m ≠ [] := by
  obtain ⟨l, hl, hm⟩ := exists_lane h
  intro he
  have := (mem_lanesOf (m := m) (l := l)).mpr ⟨hl, hm⟩
  rw [he] at this; cases this

/-- The word that lane l of a frame draws under a rounding mode, and the generators after it. -/
def Frame.draw (fr : Frame) (mode l : Nat) : Word := if mode = 6 then drawWord (vget fr.gens fr.srg (Gen.mk 0 0)) l else 0
def Frame.drawn (fr : Frame) (mode : Nat) : Vector Gen 4 :=
  if mode = 6 then vset fr.gens fr.srg ((vget fr.gens fr.srg (Gen.mk 0 0)).advance 32) else fr.gens

/-- The flags that the active lanes of a frame raise. -/
def Frame.flags (fr : Frame) (fl : Nat → Word) : Word := (lanesOf fr.active).foldl (fun a l => a ||| fl l) 0

/-- Rounding in a strip: each lane has its own evaluation, the flags of the active lanes are raised, and a generator that
is used advances. -/
theorem rounded_spec {fr : Frame} (mode : Nat) (uni : Bool) (eval : Nat → Word → Nat × Word) (hs : fr.span = false)
    (ha : fr.active ≠ 0) (hu : uni = true → ∀ l, eval l = eval 0) :
    ∃ v, fr.rounded mode uni eval = .ok (v,
        { fr with
          fpstat := fr.fpstat ||| fr.flags fun l => (eval l (fr.draw mode l)).2
          gens := fr.drawn mode }) ∧
      ∀ l, v.at_ fr l = BitVec.ofNat 64 (eval l (fr.draw mode l)).1 := by
  unfold Frame.rounded Frame.drawn Frame.draw
  split
  · rename_i hm
    refine ⟨.l fun l => BitVec.ofNat 64 (eval l (drawWord (vget fr.gens fr.srg (Gen.mk 0 0)) l)).1, ?_, fun l => rfl⟩
    rw [if_neg (by simp [hs])]; rfl
  · rename_i hm
    cases uni with
    | true =>
      refine ⟨.u (BitVec.ofNat 64 (eval 0 0).1), ?_, fun l => by rw [hu rfl l]; rfl⟩
      have : (fr.flags fun l => (eval l 0).2) = (eval 0 0).2 := by
        unfold Frame.flags
        have : (fun (a : Word) l => a ||| (eval l 0).2) = fun a _ => a ||| (eval 0 0).2 := by
          funext a l; rw [hu rfl l]
        rw [this, foldl_or_const _ _ _ (lanesOf_ne ha)]; simp
      rw [this]; rfl
    | false =>
      refine ⟨.l fun l => BitVec.ofNat 64 (eval l 0).1, ?_, fun l => rfl⟩
      simp only [Bool.false_eq_true, if_false]; rw [if_neg (by simp [hs])]; rfl

/-- A float word that has rounded, freed registers and then writes its result. -/
theorem givesFloat_of {s : State} {i : Instr} {w : Seat} (h : SeatFacts s i w) (hr : w.l.hdr.regs ≠ 0) (f : FloatOp)
    (hwd : f.wd = 32 ∨ f.wd = 64) (hd : f.wd = 64 → f.dst.toNat % 2 = 0) {fr1 : Frame} {v : Val}
    (hf : Freed { w.fr with
        fpstat := w.fr.fpstat ||| w.fr.flags fun l => (f.eval l (w.fr.draw f.mode l)).2
        gens := w.fr.drawn f.mode } fr1 f.freed)
    (hv : ∀ l, v.at_ w.fr l = BitVec.ofNat 64 (f.eval l (w.fr.draw f.mode l)).1) :
    ∃ fr2, fr1.dst f.wd f.dst.toNat v = .ok fr2 ∧
      w.givesFloat i (.next (settle w i (w.form i) (w.done (.ok fr2)))) f := by
  obtain ⟨gd, hgd⟩ := h.gd
  have hs1 : fr1.span = false := by rw [hf.rest]; exact seat_span h
  have hl1 : fr1.noLines = false := by rw [hf.rest]; exact seat_noLines h hr
  have hco : fr1.coord = w.fr.coord := by rw [hf.rest]
  have hp : fr1.priv = w.fr.priv := by rw [hf.rest]
  obtain ⟨fr2, h2, w2⟩ := dst_writes f.wd v hwd hs1 hl1 f.dst.isLt hd
  have hsl : fr1.slot f.dst.toNat = w.slot f.dst := by simp [Frame.slot, Frame.isK, Seat.slot, hp]
  rw [hsl] at w2
  have hg : w.fr.gens = w.t.gens := by rw [hgd]; rfl
  have hfp : w.fr.fpstat = w.t.fpstat := by rw [hgd]; rfl
  have hdraw : ∀ l, w.fr.draw f.mode l = w.draw f.mode l := by intro l; unfold Frame.draw Seat.draw; rw [hg]
  have hat : ∀ l, v.at_ fr1 l = v.at_ w.fr l := by intro l; cases v <;> simp [Val.at_, hco]
  have w3 := w2.congr (u := fun l => BitVec.ofNat 64 (f.eval l (w.draw f.mode l)).1) fun l => by
    rw [hat, hv, hdraw]; exact SameIn.rfl
  have h80 : w.slot f.dst < 80 := slot_lt w f.dst
  have hn : f.wd = 64 → w.slot f.dst + 1 < 80 := by
    intro h64
    have : w.slot f.dst % 2 = 0 := slot_even w.fr f.dst.toNat (hd h64)
    omega
  obtain ⟨hw, he⟩ := writes_of h ⟨rfl⟩ hf w3 hwd h80 hn
  refine ⟨fr2, h2, w.t.withFrame fr2, by rw [withFrame_pass h], ?_, hw⟩
  rw [he]
  have hgen : w.fr.drawn f.mode = w.drawn f.mode := by unfold Frame.drawn Seat.drawn; rw [hg]
  have hfl : (w.fr.flags fun l => (f.eval l (w.fr.draw f.mode l)).2) =
      (lanesOf w.fr.active).foldl (fun fl l => fl ||| (f.eval l (w.draw f.mode l)).2) 0 := by
    unfold Frame.flags; simp only [hdraw]
  simp only [hfp, hgen, hfl]; rfl

theorem isU_const {v : Val} (h : v.isU = true) (fr : Frame) (l : Nat) : v.at_ fr l = v.at_ fr 0 := by
  cases v with
  | u x => rfl
  | a f => cases h
  | l f => cases h

end Sys2Proof.Machine
end

