-- ==== Sys2Proof/Laws/Memory.lean ====
section
/-! SUPPORT. Memory in canonical form: what a read gives after a write, and that every operation on a memory keeps the
form. -/

namespace Sys2Proof.Machine

/-! The list of bytes. -/

theorem wfFrom_mono {lo hi : Nat} {m : List Host.Cell} (h : wfFrom hi m = true) (hl : lo ≤ hi) : wfFrom lo m = true := by
  cases m with
  | nil => rfl
  | cons c r =>
    simp only [wfFrom, Bool.and_eq_true, decide_eq_true_eq] at h ⊢
    exact ⟨⟨by omega, h.1.2⟩, h.2⟩

/-- A byte below the first address that may be listed is not listed. -/
theorem cellGet_below {lo a : Nat} {m : List Host.Cell} (h : wfFrom lo m = true) (ha : a < lo) : cellGet m a = unlisted := by
  induction m generalizing lo with
  | nil => rfl
  | cons c r ih =>
    simp only [wfFrom, Bool.and_eq_true, decide_eq_true_eq] at h
    rw [cellGet, if_neg (by omega)]
    exact ih h.2 (by omega)

/-- Writing a byte keeps the canonical form. -/
theorem cellPut_wf {lo a : Nat} {m : List Host.Cell} (v : Byte) (h : wfFrom lo m = true) (ha : lo ≤ a) :
    wfFrom lo (cellPut m a v) = true := by
  induction m generalizing lo with
  | nil =>
    by_cases hv : v = unlisted <;> simp [cellPut, hv, wfFrom, ha]
  | cons c r ih =>
    obtain ⟨x, b⟩ := c
    have hc := h
    simp only [wfFrom, Bool.and_eq_true, decide_eq_true_eq, bne_iff_ne] at hc
    obtain ⟨⟨hx, hb⟩, hr⟩ := hc
    rw [cellPut]
    split_ifs with h1 h2 h3 h4
    · exact h
    · simp only [wfFrom, Bool.and_eq_true, decide_eq_true_eq, bne_iff_ne]
      exact ⟨⟨ha, h2⟩, ⟨⟨by omega, hb⟩, hr⟩⟩
    · exact wfFrom_mono hr (by omega)
    · subst h3
      simp only [wfFrom, Bool.and_eq_true, decide_eq_true_eq, bne_iff_ne]
      exact ⟨⟨ha, h4⟩, hr⟩
    · simp only [wfFrom, Bool.and_eq_true, decide_eq_true_eq, bne_iff_ne]
      exact ⟨⟨hx, hb⟩, ih hr (by omega)⟩

/-- A byte that has been written reads as written, and every other byte as before. -/
theorem cellGet_cellPut {lo : Nat} {m : List Host.Cell} (h : wfFrom lo m = true) (a b : Nat) (v : Byte) :
    cellGet (cellPut m a v) b = if b = a then v else cellGet m b := by
  induction m generalizing lo with
  | nil =>
    by_cases hv : v = unlisted <;> by_cases hb : b = a <;> simp [cellPut, cellGet, hv, hb]
  | cons c r ih =>
    obtain ⟨x, y⟩ := c
    simp only [wfFrom, Bool.and_eq_true, decide_eq_true_eq, bne_iff_ne] at h
    have hb : ∀ b < x + 1, cellGet r b = unlisted := fun b hb => cellGet_below h.2 hb
    by_cases h1 : a < x
    · by_cases h2 : v = unlisted
      · rw [cellPut, if_pos h1, if_pos h2]
        split_ifs with h3
        · rw [cellGet, if_neg (by omega), hb b (by omega), h2]
        · rfl
      · rw [cellPut, if_pos h1, if_neg h2, cellGet]
    · by_cases h3 : a = x
      · by_cases h2 : v = unlisted
        · rw [cellPut, if_neg h1, if_pos h3, if_pos h2]
          split_ifs with h4
          · rw [hb b (by omega), h2]
          · rw [cellGet, if_neg (by omega)]
        · rw [cellPut, if_neg h1, if_pos h3, if_neg h2, cellGet, cellGet]
          split_ifs <;> first | rfl | omega
      · rw [cellPut, if_neg h1, if_neg h3, cellGet, cellGet, ih h.2]
        split_ifs <;> first | rfl | omega

/-- Writing bytes keeps the canonical form. -/
theorem cellsWrite_wf {m : List Host.Cell} (a : Nat) (bs : List Byte) (h : Memory.wf m = true) :
    Memory.wf (cellsWrite m a bs) = true := by
  induction bs generalizing m a with
  | nil => exact h
  | cons b r ih => exact ih (a + 1) (cellPut_wf b h (Nat.zero_le a))

/-- A byte after bytes have been written: the written one inside their range, the old one outside. -/
theorem cellGet_cellsWrite {m : List Host.Cell} (a b : Nat) (bs : List Byte) (h : Memory.wf m = true) :
    cellGet (cellsWrite m a bs) b = if a ≤ b ∧ b < a + bs.length then bs.getD (b - a) 0 else cellGet m b := by
  induction bs generalizing m a with
  | nil => rw [if_neg (by simp only [List.length_nil]; omega)]; rfl
  | cons x r ih =>
    rw [cellsWrite, ih (a + 1) (cellPut_wf x h (Nat.zero_le a)), cellGet_cellPut h, List.length_cons]
    by_cases h1 : b = a
    · subst h1
      simp
    · by_cases h2 : a + 1 ≤ b ∧ b < a + 1 + r.length
      · rw [if_pos h2, if_pos (by omega), show b - a = b - (a + 1) + 1 by omega, List.getD_cons_succ]
      · rw [if_neg h2, if_neg h1, if_neg (by omega)]

theorem cellsRead_eq (m : List Host.Cell) (a n : Nat) : cellsRead m a n = (List.range n).map fun i => cellGet m (a + i) := by
  induction n generalizing a with
  | zero => rfl
  | succ n ih =>
    rw [cellsRead, ih, List.range_succ_eq_map, List.map_cons, List.map_map]
    congr 1
    exact List.map_congr_left fun i _ => by simp [show a + 1 + i = a + (i + 1) by omega]

/-- Bytes that have been written read back. -/
theorem cellsRead_cellsWrite {m : List Host.Cell} (a : Nat) (bs : List Byte) (h : Memory.wf m = true) :
    cellsRead (cellsWrite m a bs) a bs.length = bs := by
  rw [cellsRead_eq]
  apply List.ext_getElem (by simp)
  intro i h1 h2
  simp only [List.getElem_map, List.getElem_range, cellGet_cellsWrite _ _ _ h]
  rw [if_pos (by omega), show a + i - a = i by omega, List.getD_eq_getElem]

/-- Bytes outside a range that has been written read as before. -/
theorem cellsRead_cellsWrite_apart {m : List Host.Cell} (a b n : Nat) (bs : List Byte) (h : Memory.wf m = true)
    (hd : b + n ≤ a ∨ a + bs.length ≤ b) : cellsRead (cellsWrite m a bs) b n = cellsRead m b n := by
  rw [cellsRead_eq, cellsRead_eq]
  refine List.map_congr_left fun i hi => ?_
  rw [cellGet_cellsWrite _ _ _ h, if_neg (by have := List.mem_range.mp hi; omega)]

theorem filter_wf (p : Host.Cell → Bool) {lo : Nat} {m : List Host.Cell} (h : wfFrom lo m = true) :
    wfFrom lo (m.filter p) = true := by
  induction m generalizing lo with
  | nil => rfl
  | cons c r ih =>
    simp only [wfFrom, Bool.and_eq_true, decide_eq_true_eq] at h
    rw [List.filter_cons]
    split
    · simp only [wfFrom, Bool.and_eq_true, decide_eq_true_eq]
      exact ⟨h.1, ih h.2⟩
    · exact ih (wfFrom_mono h.2 (by omega))

/-- Memories in canonical form that read alike are equal. -/
theorem wfFrom_ext {lo : Nat} {m n : List Host.Cell} (hm : wfFrom lo m = true) (hn : wfFrom lo n = true)
    (h : ∀ a, cellGet m a = cellGet n a) : m = n := by
  induction m generalizing lo n with
  | nil =>
    cases n with
    | nil => rfl
    | cons d t =>
      simp only [wfFrom, Bool.and_eq_true, decide_eq_true_eq, bne_iff_ne] at hn
      exact absurd (h d.1).symm (by simpa [cellGet] using hn.1.2)
  | cons c r ih =>
    cases n with
    | nil =>
      simp only [wfFrom, Bool.and_eq_true, decide_eq_true_eq, bne_iff_ne] at hm
      exact absurd (h c.1) (by simpa [cellGet] using hm.1.2)
    | cons d t =>
      simp only [wfFrom, Bool.and_eq_true, decide_eq_true_eq, bne_iff_ne] at hm hn
      have hc := h c.1
      have hd := h d.1
      simp only [cellGet, if_true] at hc hd
      have hx : c.1 = d.1 := by
        rcases Nat.lt_trichotomy c.1 d.1 with hl | he | hl
        · rw [if_neg (by omega), cellGet_below hn.2 (by omega)] at hc
          exact absurd hc hm.1.2
        · exact he
        · rw [if_neg (by omega), cellGet_below hm.2 (by omega)] at hd
          exact absurd hd.symm hn.1.2
      rw [hx, if_pos rfl] at hc
      have he : c = d := Prod.ext hx hc
      subst he
      refine congrArg (c :: ·) (ih hm.2 hn.2 fun a => ?_)
      by_cases ha : a = c.1
      · subst ha
        rw [cellGet_below hm.2 (by omega), cellGet_below hn.2 (by omega)]
      · simpa [cellGet, ha] using h a

/-! The operations of a memory. -/

theorem Ram.write_wf {r : Ram} (a : Nat) (bs : List Byte) (h : Memory.wf r.cells = true) :
    Memory.wf (r.write a bs).cells = true := cellsWrite_wf a bs h
theorem Ram.putNat_wf {r : Ram} (a v n : Nat) (h : Memory.wf r.cells = true) :
    Memory.wf (r.putNat a v n).cells = true := cellsWrite_wf a _ h
@[simp] theorem Ram.recall_cells (r : Ram) (test : Nat × Nat → Bool) : (r.recall test).cells = r.cells := by
  unfold Ram.recall
  split <;> rfl
@[simp] theorem Ram.recall_dirty (r : Ram) (test : Nat × Nat → Bool) : (r.recall test).dirty = r.dirty := by
  unfold Ram.recall
  split <;> rfl
@[simp] theorem Ram.recall_poison (r : Ram) (test : Nat × Nat → Bool) : (r.recall test).poison = r.poison := by
  unfold Ram.recall
  split <;> rfl
@[simp] theorem Ram.writeBack_cells (r : Ram) (line : Nat) : (r.writeBack line).cells = r.cells := by simp [Ram.writeBack]
@[simp] theorem Ram.claim_cells (r : Ram) (acct a n : Nat) : (r.claim acct a n).cells = r.cells := rfl
theorem Ram.writeBy_wf {r : Ram} (bench : Option Nat) (a : Nat) (bs : List Byte) (h : Memory.wf r.cells = true) :
    Memory.wf (r.writeBy bench a bs).cells = true := by
  cases bench <;> exact cellsWrite_wf a bs h
@[simp] theorem Ram.unpoison_cells (r : Ram) (l : List (Nat × Nat)) : (r.unpoison l).cells = r.cells := by
  unfold Ram.unpoison
  split <;> rfl
@[simp] theorem Ram.addPoison_cells (r : Ram) (a n : Nat) : (r.addPoison a n).cells = r.cells := by
  unfold Ram.addPoison
  split <;> rfl
theorem Ram.discard_wf {r : Ram} (line tick : Nat) (h : Memory.wf r.cells = true) :
    Memory.wf (r.discard line tick).cells = true := by
  unfold Ram.discard
  split
  · exact h
  · apply cellsWrite_wf
    exact h
theorem Ram.afterReset_wf {r : Ram} (h : Memory.wf r.cells = true) : Memory.wf r.afterReset.cells = true := by
  have hf : ∀ (d : List DirtyLine) (m : List Host.Cell), Memory.wf m = true →
      Memory.wf (d.foldl (fun m c => cellsWrite m (128 * c.line) c.old) m) = true := by
    intro d
    induction d with
    | nil => exact fun _ h => h
    | cons c t ih => exact fun m h => ih _ (cellsWrite_wf _ _ h)
  exact hf r.dirty r.cells h

/-- The words written at an address read back. -/
theorem Ram.read_write {r : Ram} (a : Nat) (bs : List Byte) (h : Memory.wf r.cells = true) :
    (r.write a bs).read a bs.length = bs := cellsRead_cellsWrite a bs h
theorem Ram.read_write_apart {r : Ram} (a b n : Nat) (bs : List Byte) (h : Memory.wf r.cells = true)
    (hd : b + n ≤ a ∨ a + bs.length ≤ b) : (r.write a bs).read b n = r.read b n :=
  cellsRead_cellsWrite_apart a b n bs h hd

@[simp] theorem toBytes_length (v n : Nat) : (toBytes v n).length = n := by
  induction n generalizing v with
  | zero => rfl
  | succ n ih => simp [toBytes, ih]

theorem ofBytes_toBytes (v n : Nat) : ofBytes (toBytes v n) = v % 256 ^ n := by
  induction n generalizing v with
  | zero => simp [toBytes, ofBytes, Nat.mod_one]
  | succ n ih =>
    have h := Nat.mod_mul (x := v) (a := 256) (b := 256 ^ n)
    rw [toBytes, ofBytes, ih, BitVec.toNat_ofNat, show 256 ^ (n + 1) = 256 * 256 ^ n from pow_succ' 256 n, h]

/-- The number written at an address reads back, cut to its bytes. -/
theorem Ram.read_putNat {r : Ram} (a v n : Nat) (h : Memory.wf r.cells = true) :
    ofBytes ((r.putNat a v n).read a n) = v % 256 ^ n := by
  have := Ram.read_write (r := r) a (toBytes v n) h
  rw [toBytes_length] at this
  rw [Ram.putNat, this, ofBytes_toBytes]

/-! The machine's memories. -/

/-- Every memory is in canonical form where its parts are those of a state that is, or a keeping operation's. -/
theorem memoryWf_of {s : State} (hd : Memory.wf s.device.cells = true) (ht : Memory.wf s.tier.cells = true)
    (hh : Memory.wf s.host = true) (hp : ∀ p ∈ s.peers, Memory.wf p.cells = true) : s.memoryWf = true := by
  simp only [State.memoryWf, hd, ht, hh, Bool.and_self, Bool.true_and, List.all_eq_true]
  exact hp

theorem memoryWf_parts {s : State} (h : s.memoryWf = true) : Memory.wf s.device.cells = true ∧ Memory.wf s.tier.cells = true ∧
    Memory.wf s.host = true ∧ ∀ p ∈ s.peers, Memory.wf p.cells = true := by
  simp only [State.memoryWf, Bool.and_eq_true, List.all_eq_true] at h
  exact ⟨h.1.1.1, h.1.1.2, h.1.2, h.2⟩

/-- A state whose memories are another's is in canonical form with it. -/
theorem memoryWf_same {s u : State} (h : s.memoryWf = true) (hd : u.device.cells = s.device.cells)
    (ht : u.tier.cells = s.tier.cells) (hh : u.host = s.host) (hp : u.peers = s.peers) : u.memoryWf = true := by
  unfold State.memoryWf at h ⊢
  rw [hd, ht, hh, hp]
  exact h

theorem reset_memoryWf : State.reset.memoryWf = true := rfl

theorem mem_mapWhere {α : Type} {q : α → Bool} {f : α → α} {l : List α} {y : α} (h : y ∈ mapWhere q f l) :
    ∃ x ∈ l, y = if q x then f x else x := by
  obtain ⟨x, hx, rfl⟩ := List.mem_map.mp h
  exact ⟨x, hx, rfl⟩

/-- The note of the byte values written changes no memory. -/
theorem noteWrote_same (c : Nat) (bs : List Byte) (s : State) : noteWrote c bs s = { s with wrote := (noteWrote c bs s).wrote } := by
  simp only [noteWrote]
  split <;> rfl

/-- A store to a segment keeps every memory in canonical form. -/
theorem writeSegBy_wf {s : State} (c : Nat) (bench : Option Nat) (g : Seg) (bs : List Byte) (h : s.memoryWf = true) :
    (writeSegBy s c bench g bs).memoryWf = true := by
  obtain ⟨hd, ht, hh, hp⟩ := memoryWf_parts h
  unfold writeSegBy
  split
  · split
    · exact h
    · exact memoryWf_of (Ram.writeBy_wf bench _ bs hd) ht hh hp
  · exact memoryWf_of hd (Ram.writeBy_wf bench _ bs ht) hh hp
  · exact memoryWf_of hd ht (cellsWrite_wf _ bs hh) hp
  · split
    · refine memoryWf_of hd ht hh fun p hm => ?_
      obtain ⟨x, hx, rfl⟩ := mem_mapWhere hm
      split
      · exact cellsWrite_wf _ bs (hp x hx)
      · exact hp x hx
    · exact h

theorem writeSeg_wf {s : State} (c : Nat) (g : Seg) (bs : List Byte) (h : s.memoryWf = true) :
    (writeSeg s c g bs).memoryWf = true := by
  unfold writeSeg
  rw [noteWrote_same]
  exact writeSegBy_wf c none g bs h

theorem writeSegs_wf {s : State} (c : Nat) (gs : List Seg) (bs : List Byte) (h : s.memoryWf = true) :
    (writeSegs s c gs bs).memoryWf = true := by
  induction gs generalizing s bs with
  | nil => exact h
  | cons g r ih => exact ih _ (writeSeg_wf c g _ h)

end Sys2Proof.Machine
end

