-- ==== Sys2Proof/Laws/PerInstr.lean ====
section
/-! SUPPORT. A property of every instruction as syntax: the first word that the encoder gives says how many words follow
it, which is how many the fetch takes (R72). -/

namespace Sys2Proof

/-- The bits of a first word. -/
theorem First.toWord_bit (f : First) (i : Nat) : f.toWord.getLsbD i =
    if i < 23 then f.low.getLsbD i else if i < 29 then f.op.getLsbD (i - 23) else if i < 30 then f.x && decide (i = 29)
    else if i < 31 then f.s && decide (i = 30) else f.g && decide (i = 31) := by
  have h : ∀ (b : Bool) (j : Nat), (BitVec.ofBool b).getLsbD j = (b && decide (j = 0)) := by
    intro b j; cases b <;> cases j <;> simp
  unfold First.toWord
  erw [BitVec.getLsbD_append, BitVec.getLsbD_append, BitVec.getLsbD_append, BitVec.getLsbD_append, h, h, h]
  repeat' split
  all_goals first | rfl | omega | (congr 1; simp; omega)

/-- A first word gives back its fields. -/
theorem First.ofWord_toWord (f : First) : First.ofWord f.toWord = f := by
  obtain ⟨g, s, x, op, low⟩ := f
  simp only [First.ofWord, bitAt, First.mk.injEq, First.toWord_bit]
  refine ⟨by simp, by simp, by simp, ?_, ?_⟩
  · apply BitVec.eq_of_getLsbD_eq; intro i hi
    simp only [BitVec.getLsbD_extractLsb', First.toWord_bit]
    simp [hi, show ¬ (23 + i < 23) by omega, show 23 + i < 29 by omega]
  · apply BitVec.eq_of_getLsbD_eq; intro i hi
    simp only [BitVec.getLsbD_extractLsb', First.toWord_bit]
    simp [hi]

theorem LowFork.of_to_n (k : LowFork) : (LowFork.of k.to).n = k.n := by
  simp only [LowFork.of, LowFork.to]
  apply BitVec.eq_of_getLsbD_eq; intro i hi
  simp only [BitVec.getLsbD_extractLsb']
  erw [BitVec.getLsbD_append, BitVec.getLsbD_append]
  simp [hi, show ¬ (5 + i < 5) by omega]

/-- The first of some words says how many follow. -/
def Announced (l : List Word) : Prop := ∀ w rest, l = w :: rest → extraWords w = rest.length

theorem announced_nil : Announced [] := fun _ _ h => by cases h

theorem announced_enc (g s : Bool) (op : BitVec 6) (low : BitVec 23) (x : Option Word) (h : (g && op == 0x19) = false) :
    Announced (enc g s op low x) := by
  intro w rest e
  cases x <;> obtain ⟨rfl, rfl⟩ := List.cons.inj e <;> simp only [extraWords, First.ofWord_toWord, h] <;> rfl

namespace Laws.Words

/-- The first word of an instruction's encoding says how many words follow it (R72). -/
def Statement (i : Instr) : Prop := Announced (encode i)

theorem add : ∀ t w, Statement (.add t w) := by
  intro t w; cases t <;> exact announced_enc _ _ _ _ _ rfl
theorem sub : ∀ t w, Statement (.sub t w) := by
  intro t w; cases t <;> exact announced_enc _ _ _ _ _ rfl
theorem mul : ∀ t w, Statement (.mul t w) := by
  intro t w; cases t <;> exact announced_enc _ _ _ _ _ rfl
theorem mulh : ∀ t w, Statement (.mulh t w) := by
  intro t w; cases t <;> exact announced_enc _ _ _ _ _ rfl
theorem min : ∀ t w, Statement (.min t w) := by
  intro t w; cases t <;> exact announced_enc _ _ _ _ _ rfl
theorem max : ∀ t w, Statement (.max t w) := by
  intro t w; cases t <;> exact announced_enc _ _ _ _ _ rfl
theorem addc : ∀ t w, Statement (.addc t w) := by
  intro t w; cases t <;> exact announced_enc _ _ _ _ _ rfl
theorem mad : ∀ t w, Statement (.mad t w) := by
  intro t w; cases t <;> exact announced_enc _ _ _ _ _ rfl
theorem addG : ∀ u w, Statement (.addG u w) := by
  intro u w; cases u <;> exact announced_enc _ _ _ _ _ rfl
theorem subG : ∀ u w, Statement (.subG u w) := by
  intro u w; cases u <;> exact announced_enc _ _ _ _ _ rfl
theorem mulG : ∀ u w, Statement (.mulG u w) := by
  intro u w; cases u <;> exact announced_enc _ _ _ _ _ rfl
theorem mulhG : ∀ u w, Statement (.mulhG u w) := by
  intro u w; cases u <;> exact announced_enc _ _ _ _ _ rfl
theorem minG : ∀ u w, Statement (.minG u w) := by
  intro u w; cases u <;> exact announced_enc _ _ _ _ _ rfl
theorem maxG : ∀ u w, Statement (.maxG u w) := by
  intro u w; cases u <;> exact announced_enc _ _ _ _ _ rfl
theorem addcG : ∀ u w, Statement (.addcG u w) := by
  intro u w; cases u <;> exact announced_enc _ _ _ _ _ rfl
theorem madG : ∀ u w, Statement (.madG u w) := by
  intro u w; cases u <;> exact announced_enc _ _ _ _ _ rfl
theorem and : ∀ w, Statement (.and w) := fun _ => announced_enc _ _ _ _ _ rfl
theorem or : ∀ w, Statement (.or w) := fun _ => announced_enc _ _ _ _ _ rfl
theorem xor : ∀ w, Statement (.xor w) := fun _ => announced_enc _ _ _ _ _ rfl
theorem andn : ∀ w, Statement (.andn w) := fun _ => announced_enc _ _ _ _ _ rfl
theorem shl : ∀ w, Statement (.shl w) := fun _ => announced_enc _ _ _ _ _ rfl
theorem shr : ∀ w, Statement (.shr w) := fun _ => announced_enc _ _ _ _ _ rfl
theorem sar : ∀ w, Statement (.sar w) := fun _ => announced_enc _ _ _ _ _ rfl
theorem andG : ∀ w, Statement (.andG w) := fun _ => announced_enc _ _ _ _ _ rfl
theorem orG : ∀ w, Statement (.orG w) := fun _ => announced_enc _ _ _ _ _ rfl
theorem xorG : ∀ w, Statement (.xorG w) := fun _ => announced_enc _ _ _ _ _ rfl
theorem andnG : ∀ w, Statement (.andnG w) := fun _ => announced_enc _ _ _ _ _ rfl
theorem shlG : ∀ w, Statement (.shlG w) := fun _ => announced_enc _ _ _ _ _ rfl
theorem shrG : ∀ w, Statement (.shrG w) := fun _ => announced_enc _ _ _ _ _ rfl
theorem sarG : ∀ w, Statement (.sarG w) := fun _ => announced_enc _ _ _ _ _ rfl
theorem popc : ∀ w, Statement (.popc w) := fun _ => announced_enc _ _ _ _ _ rfl
theorem clz : ∀ w, Statement (.clz w) := fun _ => announced_enc _ _ _ _ _ rfl
theorem brev : ∀ w, Statement (.brev w) := fun _ => announced_enc _ _ _ _ _ rfl
theorem bfx : ∀ w, Statement (.bfx w) := fun _ => announced_enc _ _ _ _ _ rfl
theorem bfi : ∀ w, Statement (.bfi w) := fun _ => announced_enc _ _ _ _ _ rfl
theorem prmt : ∀ w, Statement (.prmt w) := fun _ => announced_enc _ _ _ _ _ rfl
theorem lea : ∀ w, Statement (.lea w) := fun _ => announced_enc _ _ _ _ _ rfl
theorem sel : ∀ w, Statement (.sel w) := fun _ => announced_enc _ _ _ _ _ rfl
theorem icmp : ∀ c w, Statement (.icmp c w) := fun _ _ => announced_enc _ _ _ _ _ rfl
theorem icmpG : ∀ c w, Statement (.icmpG c w) := fun _ _ => announced_enc _ _ _ _ _ rfl
theorem addi : ∀ w, Statement (.addi w) := fun _ => announced_enc _ _ _ _ _ rfl
theorem muli : ∀ w, Statement (.muli w) := fun _ => announced_enc _ _ _ _ _ rfl
theorem andi : ∀ w, Statement (.andi w) := fun _ => announced_enc _ _ _ _ _ rfl
theorem ori : ∀ w, Statement (.ori w) := fun _ => announced_enc _ _ _ _ _ rfl
theorem xori : ∀ w, Statement (.xori w) := fun _ => announced_enc _ _ _ _ _ rfl
theorem shli : ∀ w, Statement (.shli w) := fun _ => announced_enc _ _ _ _ _ rfl
theorem shri : ∀ w, Statement (.shri w) := fun _ => announced_enc _ _ _ _ _ rfl
theorem sari : ∀ w, Statement (.sari w) := fun _ => announced_enc _ _ _ _ _ rfl
theorem movi : ∀ w, Statement (.movi w) := fun _ => announced_enc _ _ _ _ _ rfl
theorem addiG : ∀ w, Statement (.addiG w) := fun _ => announced_enc _ _ _ _ _ rfl
theorem moviG : ∀ w, Statement (.moviG w) := fun _ => announced_enc _ _ _ _ _ rfl
theorem mov : ∀ w, Statement (.mov w) := fun _ => announced_enc _ _ _ _ _ rfl
theorem mku : ∀ w, Statement (.mku w) := fun _ => announced_enc _ _ _ _ _ rfl
theorem movs : ∀ w, Statement (.movs w) := fun _ => announced_enc _ _ _ _ _ rfl
theorem pmovToReg : ∀ w, Statement (.pmovToReg w) := fun _ => announced_enc _ _ _ _ _ rfl
theorem pmovToPred : ∀ w, Statement (.pmovToPred w) := fun _ => announced_enc _ _ _ _ _ rfl
theorem movG : ∀ w, Statement (.movG w) := fun _ => announced_enc _ _ _ _ _ rfl
theorem movsG : ∀ w, Statement (.movsG w) := fun _ => announced_enc _ _ _ _ _ rfl
theorem plop : ∀ s pd pa pb t x, Statement (.plop s pd pa pb t x) := fun _ _ _ _ _ _ => announced_enc _ _ _ _ _ rfl
theorem fadd : ∀ f w, Statement (.fadd f w) := by
  intro f w; cases f <;> exact announced_enc _ _ _ _ _ rfl
theorem fsub : ∀ f w, Statement (.fsub f w) := by
  intro f w; cases f <;> exact announced_enc _ _ _ _ _ rfl
theorem fmul : ∀ f w, Statement (.fmul f w) := by
  intro f w; cases f <;> exact announced_enc _ _ _ _ _ rfl
theorem fmin : ∀ f w, Statement (.fmin f w) := by
  intro f w; cases f <;> exact announced_enc _ _ _ _ _ rfl
theorem fmax : ∀ f w, Statement (.fmax f w) := by
  intro f w; cases f <;> exact announced_enc _ _ _ _ _ rfl
theorem ffma : ∀ f w, Statement (.ffma f w) := by
  intro f w; cases f <;> exact announced_enc _ _ _ _ _ rfl
theorem fscl : ∀ f w, Statement (.fscl f w) := by
  intro f w; cases f <;> exact announced_enc _ _ _ _ _ rfl
theorem fcmp : ∀ f c w, Statement (.fcmp f c w) := by
  intro f c w; cases f <;> exact announced_enc _ _ _ _ _ rfl
theorem frcp : ∀ w, Statement (.frcp w) := fun _ => announced_enc _ _ _ _ _ rfl
theorem frsq : ∀ w, Statement (.frsq w) := fun _ => announced_enc _ _ _ _ _ rfl
theorem fsqrt : ∀ w, Statement (.fsqrt w) := fun _ => announced_enc _ _ _ _ _ rfl
theorem fexp2 : ∀ w, Statement (.fexp2 w) := fun _ => announced_enc _ _ _ _ _ rfl
theorem flog2 : ∀ w, Statement (.flog2 w) := fun _ => announced_enc _ _ _ _ _ rfl
theorem fsin : ∀ w, Statement (.fsin w) := fun _ => announced_enc _ _ _ _ _ rfl
theorem fcos : ∀ w, Statement (.fcos w) := fun _ => announced_enc _ _ _ _ _ rfl
theorem ftanh : ∀ w, Statement (.ftanh w) := fun _ => announced_enc _ _ _ _ _ rfl
theorem fclass : ∀ w, Statement (.fclass w) := fun _ => announced_enc _ _ _ _ _ rfl
theorem frnd : ∀ w, Statement (.frnd w) := fun _ => announced_enc _ _ _ _ _ rfl
theorem cvt : ∀ fn w, Statement (.cvt fn w) := fun _ _ => announced_enc _ _ _ _ _ rfl
theorem vdot : ∀ w, Statement (.vdot w) := fun _ => announced_enc _ _ _ _ _ rfl
theorem shfl : ∀ o w, Statement (.shfl o w) := fun _ _ => announced_enc _ _ _ _ _ rfl
theorem voteAll : ∀ w, Statement (.voteAll w) := fun _ => announced_enc _ _ _ _ _ rfl
theorem voteAny : ∀ w, Statement (.voteAny w) := fun _ => announced_enc _ _ _ _ _ rfl
theorem voteMask : ∀ w, Statement (.voteMask w) := fun _ => announced_enc _ _ _ _ _ rfl
theorem voteSame : ∀ w, Statement (.voteSame w) := fun _ => announced_enc _ _ _ _ _ rfl
theorem reap : ∀ o w, Statement (.reap o w) := fun _ _ => announced_enc _ _ _ _ _ rfl
theorem rng : ∀ fn w, Statement (.rng fn w) := fun _ _ => announced_enc _ _ _ _ _ rfl
theorem ld : ∀ w, Statement (.ld w) := fun _ => announced_enc _ _ _ _ _ rfl
theorem st : ∀ w, Statement (.st w) := fun _ => announced_enc _ _ _ _ _ rfl
theorem lds : ∀ w, Statement (.lds w) := fun _ => announced_enc _ _ _ _ _ rfl
theorem sts : ∀ w, Statement (.sts w) := fun _ => announced_enc _ _ _ _ _ rfl
theorem atom : ∀ w, Statement (.atom w) := fun _ => announced_enc _ _ _ _ _ rfl
theorem atoms : ∀ w, Statement (.atoms w) := fun _ => announced_enc _ _ _ _ _ rfl
theorem cas : ∀ w, Statement (.cas w) := fun _ => announced_enc _ _ _ _ _ rfl
theorem pref : ∀ w, Statement (.pref w) := fun _ => announced_enc _ _ _ _ _ rfl
theorem ldt : ∀ w, Statement (.ldt w) := fun _ => announced_enc _ _ _ _ _ rfl
theorem stt : ∀ w, Statement (.stt w) := fun _ => announced_enc _ _ _ _ _ rfl
theorem stash : ∀ w, Statement (.stash w) := fun _ => announced_enc _ _ _ _ _ rfl
theorem mma : ∀ w, Statement (.mma w) := fun _ => announced_enc _ _ _ _ _ rfl
theorem smma : ∀ w, Statement (.smma w) := fun _ => announced_enc _ _ _ _ _ rfl
theorem accrd : ∀ w, Statement (.accrd w) := fun _ => announced_enc _ _ _ _ _ rfl
theorem accrdZero : ∀ w, Statement (.accrdZero w) := fun _ => announced_enc _ _ _ _ _ rfl
theorem accwr : ∀ w, Statement (.accwr w) := fun _ => announced_enc _ _ _ _ _ rfl
theorem accwrZero : ∀ s acc x, Statement (.accwrZero s acc x) := fun _ _ _ => announced_enc _ _ _ _ _ rfl
theorem ldG : ∀ w, Statement (.ldG w) := fun _ => announced_enc _ _ _ _ _ rfl
theorem stG : ∀ w, Statement (.stG w) := fun _ => announced_enc _ _ _ _ _ rfl
theorem bra : ∀ s p neg off lit, Statement (.bra s p neg off lit) := fun _ _ _ _ _ => announced_enc _ _ _ _ _ rfl
theorem join : ∀ s, Statement (.join s) := fun _ => announced_enc _ _ _ _ _ rfl
theorem call : ∀ s off lit, Statement (.call s off lit) := fun _ _ _ => announced_enc _ _ _ _ _ rfl
theorem ret : ∀ s, Statement (.ret s) := fun _ => announced_enc _ _ _ _ _ rfl
theorem jmpi : ∀ w, Statement (.jmpi w) := fun _ => announced_enc _ _ _ _ _ rfl
theorem exit : ∀ s x, Statement (.exit s x) := fun _ _ => announced_enc _ _ _ _ _ rfl
theorem barSync : ∀ s n x, Statement (.barSync s n x) := fun _ _ _ => announced_enc _ _ _ _ _ rfl
theorem barArrive : ∀ s n x, Statement (.barArrive s n x) := fun _ _ _ => announced_enc _ _ _ _ _ rfl
theorem barWait : ∀ s n x, Statement (.barWait s n x) := fun _ _ _ => announced_enc _ _ _ _ _ rfl
theorem elect : ∀ s, Statement (.elect s) := fun _ => announced_enc _ _ _ _ _ rfl
theorem elend : ∀ s, Statement (.elend s) := fun _ => announced_enc _ _ _ _ _ rfl
theorem fork : ∀ w, Statement (.fork w) := by
  intro w v rest e
  obtain ⟨s, d, cls, scope, n, low, off, src⟩ := w
  cases off
  · obtain ⟨rfl, rfl⟩ := List.cons.inj e
    simp [extraWords, First.ofWord_toWord]
  · obtain ⟨rfl, rfl⟩ := List.cons.inj e
    simp only [extraWords, First.ofWord_toWord, LowFork.of_to_n]
    by_cases a : n.toNat = 0 ∨ 8 < n.toNat <;> by_cases b : n.toNat ≤ 4 <;> simp [a, b]
theorem rdv : ∀ w, Statement (.rdv w) := fun _ => announced_enc _ _ _ _ _ rfl
theorem fence : ∀ w, Statement (.fence w) := fun _ => announced_enc _ _ _ _ _ rfl
theorem tfence : ∀ s, Statement (.tfence s) := fun _ => announced_enc _ _ _ _ _ rfl
theorem wait : ∀ c w, Statement (.wait c w) := fun _ _ => announced_enc _ _ _ _ _ rfl
theorem nop : ∀ s, Statement (.nop s) := fun _ => announced_enc _ _ _ _ _ rfl
theorem trap : ∀ s imm lit, Statement (.trap s imm lit) := fun _ _ _ => announced_enc _ _ _ _ _ rfl
theorem fmtset : ∀ w, Statement (.fmtset w) := fun _ => announced_enc _ _ _ _ _ rfl
theorem fmtget : ∀ w, Statement (.fmtget w) := fun _ => announced_enc _ _ _ _ _ rfl
theorem fmtselSlot : ∀ s code n x, Statement (.fmtselSlot s code n x) := fun _ _ _ _ => announced_enc _ _ _ _ _ rfl
theorem fmtselReg : ∀ w, Statement (.fmtselReg w) := fun _ => announced_enc _ _ _ _ _ rfl
theorem modeset : ∀ w, Statement (.modeset w) := fun _ => announced_enc _ _ _ _ _ rfl
theorem modesetRm : ∀ s rm x, Statement (.modesetRm s rm x) := fun _ _ _ => announced_enc _ _ _ _ _ rfl
theorem modesetClr : ∀ w, Statement (.modesetClr w) := fun _ => announced_enc _ _ _ _ _ rfl
theorem ckpt : ∀ w, Statement (.ckpt w) := fun _ => announced_enc _ _ _ _ _ rfl
theorem replay : ∀ w, Statement (.replay w) := fun _ => announced_enc _ _ _ _ _ rfl
theorem replend : ∀ s, Statement (.replend s) := fun _ => announced_enc _ _ _ _ _ rfl
theorem qput : ∀ s d g x, Statement (.qput s d g x) := fun _ _ _ _ => announced_enc _ _ _ _ _ rfl
theorem qget : ∀ s d x, Statement (.qget s d x) := fun _ _ _ => announced_enc _ _ _ _ _ rfl
theorem launch : ∀ w, Statement (.launch w) := fun _ => announced_enc _ _ _ _ _ rfl
theorem icinv : ∀ w, Statement (.icinv w) := fun _ => announced_enc _ _ _ _ _ rfl
theorem cflush : ∀ w, Statement (.cflush w) := fun _ => announced_enc _ _ _ _ _ rfl
theorem cflushInv : ∀ w, Statement (.cflushInv w) := fun _ => announced_enc _ _ _ _ _ rfl
theorem rngseed : ∀ g w, Statement (.rngseed g w) := fun _ _ => announced_enc _ _ _ _ _ rfl
theorem bwsetMem : ∀ w, Statement (.bwsetMem w) := fun _ => announced_enc _ _ _ _ _ rfl
theorem bwsetLink : ∀ w, Statement (.bwsetLink w) := fun _ => announced_enc _ _ _ _ _ rfl
theorem tret : ∀ s, Statement (.tret s) := fun _ => announced_enc _ _ _ _ _ rfl
theorem rqrel : ∀ s, Statement (.rqrel s) := fun _ => announced_enc _ _ _ _ _ rfl
theorem pgmapL0 : ∀ w, Statement (.pgmapL0 w) := fun _ => announced_enc _ _ _ _ _ rfl
theorem pgmapL1 : ∀ w, Statement (.pgmapL1 w) := fun _ => announced_enc _ _ _ _ _ rfl
theorem tlbinv : ∀ w, Statement (.tlbinv w) := fun _ => announced_enc _ _ _ _ _ rfl
theorem tlbinvCtx : ∀ s x, Statement (.tlbinvCtx s x) := fun _ _ => announced_enc _ _ _ _ _ rfl
theorem tlbinvAll : ∀ s x, Statement (.tlbinvAll s x) := fun _ _ => announced_enc _ _ _ _ _ rfl
theorem harvest : ∀ w, Statement (.harvest w) := fun _ => announced_enc _ _ _ _ _ rfl
theorem setsr : ∀ w, Statement (.setsr w) := fun _ => announced_enc _ _ _ _ _ rfl
theorem cpy : ∀ n cv sg ss w, Statement (.cpy n cv sg ss w) := fun _ _ _ _ _ => announced_enc _ _ _ _ _ rfl
theorem rdst : ∀ bd w, Statement (.rdst bd w) := fun _ _ => announced_enc _ _ _ _ _ rfl
theorem merge : ∀ ea eb ec, Statement (.merge ea eb ec) := fun _ _ _ => announced_enc _ _ _ _ _ rfl
theorem tmma : ∀ o w, Statement (.tmma o w) := fun _ _ => announced_enc _ _ _ _ _ rfl
theorem smv : ∀ o w, Statement (.smv o w) := fun _ _ => announced_enc _ _ _ _ _ rfl
theorem coll : ∀ o red ea eb ec, Statement (.coll o red ea eb ec) := fun _ _ _ _ _ => announced_enc _ _ _ _ _ rfl
theorem ewait : ∀ ea eb c, Statement (.ewait ea eb c) := fun _ _ _ => announced_enc _ _ _ _ _ rfl
theorem eloop : ∀ ea off, Statement (.eloop ea off) := fun _ _ => announced_enc _ _ _ _ _ rfl
theorem eend : Statement (.eend) := announced_enc _ _ _ _ _ rfl
theorem esig : ∀ ea eb, Statement (.esig ea eb) := fun _ _ => announced_enc _ _ _ _ _ rfl
theorem create : ∀ a, Statement (.create a) := fun _ => announced_nil
theorem destroy : ∀ a, Statement (.destroy a) := fun _ => announced_nil
theorem config : ∀ a, Statement (.config a) := fun _ => announced_nil
theorem submit : ∀ a, Statement (.submit a) := fun _ => announced_nil
theorem cancel : ∀ a, Statement (.cancel a) := fun _ => announced_nil
theorem uncancel : ∀ a, Statement (.uncancel a) := fun _ => announced_nil
theorem hostIcinv : ∀ a, Statement (.hostIcinv a) := fun _ => announced_nil
theorem resync : ∀ a, Statement (.resync a) := fun _ => announced_nil
theorem twclr : ∀ a, Statement (.twclr a) := fun _ => announced_nil
theorem portreset : ∀ a, Statement (.portreset a) := fun _ => announced_nil
theorem qerrClear : ∀ a b, Statement (.qerrClear a b) := fun _ _ => announced_nil
theorem queueConfigWrite : ∀ a b c, Statement (.queueConfigWrite a b c) := fun _ _ _ => announced_nil
theorem registerWrite : ∀ a b, Statement (.registerWrite a b) := fun _ _ => announced_nil
theorem deviceReset : ∀ a, Statement (.deviceReset a) := fun _ => announced_nil
theorem benchGroupStart : Statement (.benchGroupStart) := announced_nil
theorem firmwareUpdate : ∀ a b, Statement (.firmwareUpdate a b) := fun _ _ => announced_nil
theorem recoveryImage : ∀ a b, Statement (.recoveryImage a b) := fun _ _ => announced_nil
theorem getVersion : Statement (.getVersion) := announced_nil
theorem getCapabilities : Statement .getCapabilities := announced_nil
theorem negotiateAlgorithms : Statement (.negotiateAlgorithms) := announced_nil
theorem getDigests : Statement (.getDigests) := announced_nil
theorem getCertificate : ∀ a b c, Statement (.getCertificate a b c) := fun _ _ _ => announced_nil
theorem challenge : ∀ a b, Statement (.challenge a b) := fun _ _ => announced_nil
theorem getMeasurements : ∀ a b, Statement (.getMeasurements a b) := fun _ _ => announced_nil
theorem keyExchange : ∀ a b, Statement (.keyExchange a b) := fun _ _ => announced_nil
theorem finish : ∀ a, Statement (.finish a) := fun _ => announced_nil
theorem endSession : ∀ a, Statement (.endSession a) := fun _ => announced_nil
theorem lockInterface : ∀ a b c, Statement (.lockInterface a b c) := fun _ _ _ => announced_nil
theorem stopInterface : ∀ a, Statement (.stopInterface a) := fun _ => announced_nil
theorem hostLinkTrain : ∀ a b c, Statement (.hostLinkTrain a b c) := fun _ _ _ => announced_nil
theorem hdmAccess : ∀ a, Statement (.hdmAccess a) := fun _ => announced_nil
theorem bar2Access : ∀ a, Statement (.bar2Access a) := fun _ => announced_nil
theorem peerAccess : ∀ a, Statement (.peerAccess a) := fun _ => announced_nil
theorem peerTimeout : ∀ a, Statement (.peerTimeout a) := fun _ => announced_nil
theorem peerWriteAck : ∀ a, Statement (.peerWriteAck a) := fun _ => announced_nil
theorem flitResend : ∀ a, Statement (.flitResend a) := fun _ => announced_nil
theorem tierLinkDown : ∀ a, Statement (.tierLinkDown a) := fun _ => announced_nil
theorem expanderTimeout : ∀ a, Statement (.expanderTimeout a) := fun _ => announced_nil
theorem tierLinkUp : ∀ a, Statement (.tierLinkUp a) := fun _ => announced_nil
theorem tierTimeout : ∀ a, Statement (.tierTimeout a) := fun _ => announced_nil
theorem nodeStart : ∀ a b, Statement (.nodeStart a b) := fun _ _ => announced_nil
theorem nodeComplete : ∀ a, Statement (.nodeComplete a) := fun _ => announced_nil
theorem spanJoin : ∀ a b, Statement (.spanJoin a b) := fun _ _ => announced_nil
theorem gangPlace : ∀ a b, Statement (.gangPlace a b) := fun _ _ => announced_nil
theorem droverAction : ∀ a, Statement (.droverAction a) := fun _ => announced_nil
theorem queueClose : ∀ a, Statement (.queueClose a) := fun _ => announced_nil
theorem barrierPhaseComplete : ∀ a b, Statement (.barrierPhaseComplete a b) := fun _ _ => announced_nil
theorem waitConditionMet : ∀ a b, Statement (.waitConditionMet a b) := fun _ _ => announced_nil
theorem hostWaitReread : ∀ a, Statement (.hostWaitReread a) := fun _ => announced_nil
theorem ewaitConditionMet : ∀ a, Statement (.ewaitConditionMet a) := fun _ => announced_nil
theorem rdvReturn : ∀ a b, Statement (.rdvReturn a b) := fun _ _ => announced_nil
theorem queueRoom : ∀ a b, Statement (.queueRoom a b) := fun _ _ => announced_nil
theorem forkSlotFree : ∀ a b, Statement (.forkSlotFree a b) := fun _ _ => announced_nil
theorem loadReturn : ∀ a b c, Statement (.loadReturn a b c) := fun _ _ _ => announced_nil
theorem twinReadServed : ∀ a, Statement (.twinReadServed a) := fun _ => announced_nil
theorem twinTimeout : ∀ a, Statement (.twinTimeout a) := fun _ => announced_nil
theorem preempt : ∀ a, Statement (.preempt a) := fun _ => announced_nil
theorem resume : ∀ a b, Statement (.resume a b) := fun _ _ => announced_nil
theorem lineEviction : ∀ a b c, Statement (.lineEviction a b c) := fun _ _ _ => announced_nil
theorem correctedError : ∀ a b, Statement (.correctedError a b) := fun _ _ => announced_nil
theorem machineCheck : ∀ a b, Statement (.machineCheck a b) := fun _ _ => announced_nil
theorem deviceFatal : Statement (.deviceFatal) := announced_nil
theorem thermalThrottle : ∀ a, Statement (.thermalThrottle a) := fun _ => announced_nil
theorem powerThrottle : ∀ a, Statement (.powerThrottle a) := fun _ => announced_nil
theorem overtempStop : ∀ a b, Statement (.overtempStop a b) := fun _ _ => announced_nil
theorem dbell : ∀ a b, Statement (.dbell a b) := fun _ _ => announced_nil
theorem startInterface : ∀ a, Statement (.startInterface a) := fun _ => announced_nil
theorem tdiError : ∀ a, Statement (.tdiError a) := fun _ => announced_nil
theorem launchIntakeRoom : ∀ a b, Statement (.launchIntakeRoom a b) := fun _ _ => announced_nil
theorem collJoin : ∀ a b, Statement (.collJoin a b) := fun _ _ => announced_nil

end Laws.Words

end Sys2Proof
end

