-- ==== Sys2Proof/Tests/Slice0.lean ====
section
/-! SUPPORT. Tests: ill-formed terms that WellFormed refuses, words that the manual writes out, single steps whose results
stand in the manual, and for each statement with hypotheses a state that meets them. -/

namespace Sys2Proof.Tests

open Sys2Proof Sys2Proof.Machine

set_option Elab.async false

/-! Well-formed terms. -/

def x0 : XWord := XWord.mk 63 0 false 0 false false false 0 0
def w3 (d a b : BitVec 6) : W3 := W3.mk false d a b false false none
def w2 (d a : BitVec 6) : W2 := W2.mk false d a false none
def mem (d a : BitVec 6) (off : BitVec 7) (sz : BitVec 3) : WMem := WMem.mk false d a false off sz none
def lane (off len : Nat) (data : List Byte) : PeerLane := PeerLane.mk off len data []

theorem test_wf_accepts : ([.add .i32 (w3 1 2 3), .nop true, .eend, .gangPlace 0 191, .create false] : List Instr).all
    WellFormed = true := by decide
theorem test_wf_odd_pair : WellFormed (.add .i64 (w3 1 2 4)) = false := by decide
theorem test_wf_missing_x : WellFormed (.mad .i32 (w3 1 2 3)) = false := by decide
theorem test_wf_rounding_7 : WellFormed (.fadd false { w3 1 2 3 with x := some { x0 with rnd := 7 } }) = false := by decide
theorem test_wf_guard_without_ge : WellFormed (.and { w3 1 2 3 with x := some { x0 with gp := 3 } }) = false := by decide
theorem test_wf_fixed_t : WellFormed (.stt (WTile.mk false 8 2 4 true none)) = false := by decide
theorem test_wf_fixed_vd : WellFormed (.rngseed 0 (w3 1 2 4)) = false := by decide
theorem test_wf_cpy_dims : WellFormed (.cpy 3 false false false (WEng.mk 0 1 2 3)) = false := by decide
theorem test_wf_cpy_signal : WellFormed (.cpy 0 false false true (WEng.mk 0 1 2 3)) = false := by decide
theorem test_wf_rdst : WellFormed (.rdst false (WEng.mk 0 1 2 3)) = false := by decide
theorem test_wf_coll : WellFormed (.coll .broadcast 1 0 1 2) = false ∧ WellFormed (.coll .allReduce 3 0 1 2) = false := by
  decide
theorem test_wf_ewait : WellFormed (.ewait 0 1 4) = false := by decide
theorem test_wf_queue_size : WellFormed (.queueConfigWrite false true 65536) = false := by decide
theorem test_wf_register : WellFormed (.registerWrite 2 0) = false := by decide
theorem test_wf_record : WellFormed (.deviceReset { Record.initial with shares := [3001] }) = false := by decide
theorem test_wf_regions : WellFormed (.lockInterface 0 0 [Region.mk 4096 2097152]) = false ∧
    WellFormed (.lockInterface 64 0 []) = false := by decide
theorem test_wf_interfaces : WellFormed (.stopInterface 64) = false ∧ WellFormed (.startInterface 64) = false ∧
    WellFormed (.tdiError 64) = false := by decide
theorem test_wf_link : WellFormed (.hostLinkTrain true 7 16) = false ∧ WellFormed (.hostLinkTrain true 6 3) = false := by decide
theorem test_wf_host : WellFormed (.hdmAccess (HostAccess.mk (2 ^ 40 - 1) 2 none none)) = false ∧
    WellFormed (.bar2Access (HostAccess.mk 0 2 (some [1]) none)) = false := by decide
theorem test_wf_peer : WellFormed (.peerAccess (PeerRequest.mk 256 .read false none [] 0)) = false ∧
    WellFormed (.peerAccess (PeerRequest.mk 0 .read false none (List.replicate 33 (lane 0 4 [])) 0)) = false ∧
    WellFormed (.peerAccess (PeerRequest.mk 0 .read false none [lane (2 ^ 38 - 1) 2 []] 0)) = false ∧
    WellFormed (.peerAccess (PeerRequest.mk 0 .write false none [lane 0 4 [1]] 0)) = false ∧
    WellFormed (.peerAccess (PeerRequest.mk 0 (.atomic 0) false none [lane 0 2 [1, 2]] 0)) = false ∧
    WellFormed (.peerAccess (PeerRequest.mk 0 .cas false none [lane 0 4 [1, 2, 3, 4]] 0)) = false := by decide
theorem test_wf_numbers : ([.flitResend (FabricLink.mk 12 true), .nodeStart 256 0, .nodeStart 0 65536, .gangPlace 0 192, .resume 0 192,
    .droverAction 4, .barrierPhaseComplete 0 17, .correctedError 256 0, .thermalThrottle 6, .powerThrottle (.compute 4),
    .powerThrottle (.hub 2), .overtempStop (.stack 16) 0] : List Instr).all (fun i => !WellFormed i) = true := by decide

/-! Words that the manual writes out, one at least for each family. -/

theorem test_decode_integer : decode [0x000828C0] = some (.add .i32 (w3 4 5 6)) ∧
    decode [0x01883100] = some (.add .n64 (w3 4 6 8)) ∧ decode [0x800828C0] = some (.addG false (w3 4 5 6)) ∧
    decode [0x200828C0, 0xFC400000] = some (.add .i32 { w3 4 5 6 with x := some { x0 with sat := true } }) := by decide
theorem test_decode_bits : decode [0x02862002] = some (.brev (w2 3 4)) ∧ decode [0x02862001] = some (.clz (w2 3 4)) ∧
    decode [0x028620A3] = some (.bfx (w3 3 4 5)) ∧
    decode [0x228620A4, 0xFC060000] = some (.bfi { w3 3 4 5 with x := some { x0 with vc := 6 } }) := by decide
theorem test_decode_immediates : decode [0x03A00001] = some (.addi (WImm.mk false 16 0 false 1 none)) ∧
    decode [0x81882808] = some (.addiG (WImm.mk false 4 5 false 8 none)) := by decide
theorem test_decode_comparisons : decode [0x0300012A] = some (.icmp .lt (WCmp.mk false 0 0 9 false true none)) ∧
    decode [0x23028080, 0xFC000001] = some (.icmp .eq (WCmp.mk false 1 16 4 false false (some { x0 with cls := 1 }))) ∧
    decode [0x828420A2] = some (.icmpG .lt (WCmp.mk false 2 4 5 false false none)) ∧
    decode [0x0A8220C6] = some (.fcmp true .un (WCmp.mk false 1 4 6 false false none)) := by decide
theorem test_decode_float : decode [0x090828C0] = some (.fadd false (w3 4 5 6)) ∧ decode [0x090828C2] = some (.fmul false (w3 4 5 6)) ∧
    decode [0x09883106] = some (.fscl true (w3 4 6 8)) ∧ decode [0x0B882801] = some (.frnd (w2 4 5)) ∧
    decode [0x0B082813] = some (.fexp2 (W2.mk false 4 5 true none)) ∧
    decode [0x2C062102, 0x00000000] = some (.cvt 2 { w3 3 4 8 with x := some { x0 with fmt := 0 } }) := by decide
theorem test_decode_lanes : decode [0x0D0828C0] = some (.shfl .lane (w3 4 5 6)) := by decide
theorem test_decode_memory : decode [0x50182002] = some (.ld { mem 12 4 0 2 with s := true }) ∧
    decode [0x10983004] = some (.st (mem 12 6 0 4)) := by decide
theorem test_decode_tiles : decode [0x17700000] = some (.accrd (WAcc.mk false 56 0 none)) ∧
    decode [0x57500800] = some (.accrd (WAcc.mk true 40 1 none)) ∧ decode [0x17844000] = some (.accwr (WAcc.mk false 8 2 none)) ∧
    decode [0x17860001] = some (.accwrZero false 3 none) := by decide
theorem test_decode_control : decode [0x8804000D] = some (.bra false 1 false 13 none) ∧
    decode [0x887EFFF4] = some (.bra false 31 true (-12) none) ∧ decode [0x8A800000] = some (.exit false none) ∧
    decode [0x8B800000] = some (.elect false) ∧ decode [0x8C000000] = some (.elend false) ∧
    decode [0x8F800005] = some (.trap false 5 none) := by decide
theorem test_decode_barriers : decode [0x8B060001] = some (.barArrive false 3 none) ∧
    decode [0x8B060002] = some (.barWait false 3 none) := by decide
theorem test_decode_formats : decode [0x90888800] = some (.fmtget (WNoLa.mk false 4 17 none)) ∧
    decode [0x91120000] = some (.fmtselSlot false 9 0 none) ∧ decode [0x91003804] = some (.fmtselReg (WSrc.mk false 7 false none)) ∧
    decode [0x9022B010] = some (.fmtset (W2.mk false 17 22 true none)) := by decide
theorem test_decode_system : decode [0x98800000] = some (.rqrel false) ∧ decode [0x99802000] = some (.tlbinv (WAddr.mk false 4 none)) ∧
    decode [0x9A0020C0] = some (.harvest (WAddr2.mk false 4 6 none)) ∧ decode [0x950020C0] = some (.icinv (WAddr2.mk false 4 6 none)) ∧
    decode [0x94802000] = some (.launch (WAddr.mk false 4 none)) ∧ decode [0x96803000] = some (.bwsetMem (WSrc.mk false 6 false none)) ∧
    decode [0x8E000000] = some (.tfence false) := by decide
theorem test_decode_random : decode [0x960020C1] = some (.rngseed 1 (w3 0 4 6)) := by decide
theorem test_decode_engine : decode [0x9F120000] = some (.ewait 2 4 0) ∧ decode [0x9F47FE81] = some (.eloop 8 (-3)) ∧
    decode [0x9F000002] = some .eend ∧ decode [0x9F008003] = some (.esig 0 1) := by decide
theorem test_decode_table : decodeTableWord 64 0xFC060000228620A4 = decode [0x228620A4, 0xFC060000] ∧
    decodeTableWord 32 0x9F000002 = some .eend := by decide

/-! Single steps. The strip of the placed launch has its turn; registers and results are those of the manual's tables. -/

/-- A machine in which strip 0 of gang 1 runs and has the turn; f changes the strip. -/
def base : State := { place State.reset 32 0 with cur := .strip 1 0, schedule := [] }
def withStrip (f : Strip → Strip) : State := base.mapStrip 1 0 f

/-- The strip with U words in registers. -/
def withRegs (l : List (Nat × Word)) : State :=
  withStrip fun t => { t with regs := l.foldl (fun v r => vset v r.1 (.u r.2)) t.regs }

/-- What register n holds in lane l afterwards, with SR_FPSTAT. -/
def result (o : Out) (n l : Nat) : Option (Word × Word) :=
  match o with
  | .next u => (u.strip? 1 0).map fun t => (t.word (fun _ => (0, 0, 0)) n l, t.fpstat)
  | _ => none

/-- A strip afterwards. -/
def stripOf (o : Out) : Option Strip :=
  match o with
  | .next u => u.strip? 1 0
  | _ => none

def xr (rnd : BitVec 3) : Option XWord := some { x0 with rnd := rnd }
def two (a b : Word) : State := withRegs [(5, a), (6, b)]

theorem test_add_saturates : result (exec (.add .i32 { w3 4 5 6 with x := some { x0 with sat := true } }) (two 0x7FFFFFF0 0x20)) 4 0 =
    some (0x7FFFFFFF, 0) := by decide
theorem test_add_wraps : result (exec (.add .n32 (w3 4 5 6)) (two 0xFFFFFFFF 2)) 4 0 = some (1, 0) := by decide
theorem test_addc : result (exec (.addc .n32 (w3 4 5 6)) (two 0xFFFFFFFF 2)) 4 0 = some (1, 0) ∧
    result (exec (.addc .i32 (w3 4 5 6)) (two 0xFFFFFFFF 0xFFFFFFFE)) 4 0 = some (0xFFFFFFFF, 0) := by decide
theorem test_mul : result (exec (.mul .i32 (w3 4 5 6)) (two 0x80000000 2)) 4 0 = some (0, 0) := by decide
theorem test_mulh : result (exec (.mulh .i32 (w3 4 5 6)) (two 0x80000000 2)) 4 0 = some (0xFFFFFFFF, 0) ∧
    result (exec (.mulh .n32 (w3 4 5 6)) (two 0x80000000 2)) 4 0 = some (1, 0) := by decide
theorem test_bfx : result (exec (.bfx (w3 4 5 6)) (two 0xABCD1234 0x0C08)) 4 0 = some (0xD12, 0) := by decide
theorem test_bfi : result (exec (.bfi { w3 4 5 6 with x := some { x0 with vc := 7 } })
    (withRegs [(5, 5), (6, 0xFFFF), (7, 0x081C)])) 4 0 = some (0x5000FFFF, 0) := by decide
theorem test_brev_clz_popc : result (exec (.brev (w2 4 5)) (two 1 0)) 4 0 = some (0x80000000, 0) ∧
    result (exec (.clz (w2 4 5)) (two 0xF0F 0)) 4 0 = some (20, 0) ∧
    result (exec (.popc (w2 4 5)) (two 0xF0F00001 0)) 4 0 = some (9, 0) := by decide
theorem test_shift_of_33 : result (exec (.shl (w3 4 5 6)) (two 1 33)) 4 0 = some (0, 0) ∧
    result (exec (.sar (w3 4 5 6)) (two 0x80000000 33)) 4 0 = some (0xFFFFFFFF, 0) := by decide
theorem test_movi : result (exec (.movi (WMovi.mk false 4 (-1) none)) base) 4 31 = some (0xFFFFFFFF, 0) := by decide
theorem test_fadd_tie : result (exec (.fadd false (w3 4 5 6)) (two 0x3F800000 0x33800000)) 4 0 = some (0x3F800000, flagNX) ∧
    result (exec (.fadd false { w3 4 5 6 with x := xr 3 }) (two 0x3F800000 0x33800000)) 4 0 = some (0x3F800001, flagNX) := by decide
theorem test_fadd_zero : result (exec (.fadd false { w3 4 5 6 with x := xr 4 }) (two 0 0x80000000)) 4 0 = some (0x80000000, 0) := by
  decide
theorem test_fmul_overflow : result (exec (.fmul false (w3 4 5 6)) (two 0x7F7FFFFF 0x40000000)) 4 0 =
    some (0x7F800000, flagOF ||| flagNX ||| flagNF) ∧
    result (exec (.fmul false (w3 4 5 6)) (two 0x7F800000 0)) 4 0 = some (0x7FC00000, flagIV ||| flagNF) := by decide
theorem test_fmin_zeros : result (exec (.fmin false (w3 4 5 6)) (two 0 0x80000000)) 4 0 = some (0x80000000, 0) ∧
    result (exec (.fmin false (w3 4 5 6)) (two 0x7F800001 0x40400000)) 4 0 = some (0x40400000, flagIV) := by decide
theorem test_fmax_nan : result (exec (.fmax false (w3 4 5 6)) (two 0x7FC00000 0xFFC00000)) 4 0 = some (0x7FC00000, flagNF) := by
  decide
theorem test_fscl : result (exec (.fscl false (w3 4 5 6)) (two 0x3FC00000 (-130))) 4 0 = some (0x000C0000, 0) ∧
    result (exec (.fscl false { w3 4 5 6 with x := xr 2 }) (two 0x3F800000 200)) 4 0 = some (0x7F7FFFFF, flagOF ||| flagNX) := by
  decide
theorem test_frnd : result (exec (.frnd { w2 4 5 with x := xr 1 }) (two 0x40200000 0)) 4 0 = some (0x40000000, 0) ∧
    result (exec (.frnd { w2 4 5 with x := xr 3 }) (two 0xBF000000 0)) 4 0 = some (0x80000000, 0) := by decide
theorem test_frcp : result (exec (.frcp { w2 4 5 with x := xr 1 }) (two 0x40400000 0)) 4 0 = some (0x3EAAAAAB, flagNX) ∧
    result (exec (.frcp { w2 4 5 with x := xr 2 }) (two 0x40400000 0)) 4 0 = some (0x3EAAAAAA, flagNX) := by decide
theorem test_fsqrt : result (exec (.fsqrt { w2 4 5 with x := xr 3 }) (two 0x40000000 0)) 4 0 = some (0x3FB504F4, flagNX) := by decide +kernel
theorem test_flog2_exact : result (exec (.flog2 (w2 4 5)) (two 0x41000000 0)) 4 0 = some (0x40400000, 0) := by decide
theorem test_special_inputs : (List.range 8).map (fun fn => (specialInput fn false 0xFF800000).map (·.1)) =
    [some 0x80000000, some 0x7FC00000, some 0x7FC00000, some 0, some 0x7FC00000, some 0x7FC00000, some 0x7FC00000, some 0xBF800000] := by decide
theorem test_sha384 : sha384 [0x61, 0x62, 0x63] =
    0xcb00753f45a35e8bb5a03d699ac65007272c32ab0eded1631a8b605a43ff5bed8086072ba1e7cc2358baeca134c825a7 := by decide +kernel
theorem test_cvt_e2m1 : result (exec (.cvt 2 { w3 4 5 8 with x := some { x0 with fmt := 0 } }) (two 0x7A31 0)) 4 0 =
    some (0xBF800000, 0) := by decide
theorem test_cvt_int8 : result (exec (.cvt 0 { w3 4 5 0 with x := some { x0 with fmt := 9, sat := true } }) (two 0xC3960000 0)) 4 0 =
    some (0xFFFFFF80, flagIV) ∧
    result (exec (.cvt 0 { w3 4 5 0 with x := some { x0 with fmt := 9 } }) (two 0xC0200000 0)) 4 0 = some (0xFFFFFFFE, flagNX) := by
  decide

/-- Register 5 holds l in lane l. -/
def ramp : State := withStrip fun t => { t with
  regs := vset (vset t.regs 5 (.l (Vector.ofFn fun l : Fin 32 => BitVec.ofNat 32 l.val))) 6 (.u 1) }

theorem test_reap : result (exec (.reap .add (w2 4 5)) ramp) 4 7 = some (496, 0) ∧
    result (exec (.reap .max (w2 4 5)) ramp) 4 7 = some (31, 0) ∧ result (exec (.reap .xor (w2 4 5)) ramp) 4 7 = some (0, 0) := by decide +kernel
theorem test_shfl_pair : result (exec (.shfl .pair (w3 4 5 6)) ramp) 4 0 = some (1, 0) ∧
    result (exec (.shfl .pair (w3 4 5 6)) ramp) 4 30 = some (31, 0) := by decide
theorem test_icmp : (stripOf (exec (.icmp .ltn (WCmp.mk false 2 5 6 false false none)) (two 0xFFFFFFFF 1))).map
    (fun t => vget t.preds 2 (.u true)) = some (.u false) ∧
    (stripOf (exec (.icmp .lt (WCmp.mk false 2 5 6 false false none)) (two 0xFFFFFFFF 1))).map
    (fun t => vget t.preds 2 (.u false)) = some (.u true) := by decide
theorem test_vote_mask : result (exec (.voteMask (WRP.mk false 4 1 none))
    (withStrip fun t => { t with preds := vset t.preds 1 (.l 0x3FF) })) 4 31 = some (0x3FF, 0) := by decide
theorem test_unif : result (exec (.rng 1 (WNoLa.mk false 4 0 none)) base) 4 0 = some (BitVec.ofNat 32
    (unifCode (drawWord (Gen.mk 0 0) 0)), 0) ∧ unifCode 0 = 0x33800000 ∧ unifCode 0x80000000 = 0x3F000001 ∧
    unifCode 0xFFFFFFFF = 0x3F800000 := by decide

/-! Traps, control and memory. -/

theorem test_trap : (stripOf (exec (.trap false 5 none) base)).map (fun t => (t.cause, t.epc, t.priv, t.pc, t.fmask)) =
    some (0x30, 0x10004, true, 0x20000, 0xFFFFFFFF) ∧ result (exec (.trap false 5 none) base) 78 3 = some (5, 0) := by decide
theorem test_tret_in_user_mode : (stripOf (exec (.tret false) base)).map (fun t => (t.cause, t.epc)) = some (9, 0x10000) := by decide
theorem test_tret : (stripOf (exec (.tret false) (withStrip fun t => { t with priv := true, epc := 0x10040, trapMask := 3 }))).map
    (fun t => (t.pc, t.priv, t.active)) = some (0x10040, false, 3) := by decide
theorem test_bra_divides : (stripOf (exec (.bra false 1 false 8 (some 20))
    (withStrip fun t => { t with preds := vset t.preds 1 (.l 0x3FF) }))).map (fun t => (t.pc, t.active, t.stack.map fun e => (e.pc, e.mask))) =
    some (0x10008, 0xFFFFFC00, [(0x10021, 0x3FF), (0x10050, 0xFFFFFFFF)]) := by decide
theorem test_elect : (stripOf (exec (.elect false) (withStrip fun t => { t with active := 0xF0 }))).map (·.active) = some 0x10 := by
  decide
theorem test_exit_retires : (match exec (.exit false none) base with
    | .next u => u.gangs.length == 0
    | _ => false) = true := by decide
theorem test_store_then_load : (match exec (.st (mem 5 8 3 2)) (withRegs [(5, 0xA1B2C3D4), (8, 0x12000)]) with
    | .next u => cellsRead u.device.cells 0x1200C 4 == [0xD4, 0xC3, 0xB2, 0xA1] &&
      (match exec (.ld (mem 6 8 3 2)) u with
       | .next v => (v.strip? 1 0).any fun t => t.outstanding.any fun x => x.parts.any fun p => p.reg == 6 && vget p.vals 9 0 == 0xA1B2C3D4
       | _ => false)
    | _ => false) = true := by decide +kernel
theorem test_misaligned_atomic : (stripOf (exec (.atom { mem 4 8 0 2 with x := some x0 }) (withRegs [(8, 0x12002)]))).map (·.cause) =
    some 0x0D := by decide
theorem test_first_step_runs_placed_word : (match step (State.reset.withFetchWord 32 0x03A00001) with
    | .next u => (u.strip? 1 0).any fun t => vget t.regs 16 (.u 0) == .u 1 && t.pc == 0x10004
    | _ => false) = true := by decide
theorem test_first_step_runs_placed_command : (match step (State.reset.withFetchWord 32 0x9F000002) with
    | .next u => (u.prog? 2).any fun p => p.status == .ended
    | _ => false) = true := by decide

/-! States that meet the hypotheses of the statements. -/

/-- Whether the strip with the turn issues i in a seat of which p holds, and whether it stands before i in one. -/
def issues (s : State) (i : Instr) (p : Seat → Bool) : Bool := (s.issuing i).any p
def stands (s : State) (i : Instr) (p : Seat → Bool) : Bool := (s.turned i).any p

/-- A value read is the U value n. -/
def holdsU (v : Val) (n : DWord) : Bool :=
  match v with
  | .u m => m == n
  | _ => false

/-- The premises that many statements share: registers of the launch, and a trap that vectors. -/
def lines (w : Seat) : Bool := w.l.hdr.regs != 0
def vectorsNow (w : Seat) : Bool := !w.t.priv && handlerOf w.s w.g.ctx != 0

theorem vectors_of {w : Seat} (h : vectorsNow w = true) : w.vectors := by
  simpa [vectorsNow, Seat.vectors] using h

def withHdr (f : Header → Header) (s : State) : State :=
  { s with launches := s.launches.map fun l => { l with hdr := f l.hdr } }
def lRegs : Strip → Strip := fun t => { t with regs := vset t.regs 5 (.l (Vector.ofFn fun l : Fin 32 => BitVec.ofNat 32 l.val)) }
def xAcq (cls : BitVec 8) : Option XWord := some { x0 with cls := cls }

theorem witness_IntegerWords : issues base (.add .i64 (w3 4 6 8)) (fun w => (w.arithmetic (.add .i64 (w3 4 6 8))).isSome && lines w) = true ∧
    issues ramp (.and (w3 4 5 6)) (fun w => (w.logic (.and (w3 4 5 6))).isSome && lines w) = true ∧
    issues ramp (.muli (WImm.mk false 4 5 true 511 none)) (fun w => (w.immediate (.muli (WImm.mk false 4 5 true 511 none))).isSome && lines w) = true := by
  decide
theorem witness_IntegerWords_uniform : issues base (.add .i32 (w3 4 5 6)) (fun w => (w.arithmetic (.add .i32 (w3 4 5 6))).isSome && !w.t.priv &&
    w.fr.whole && (w.form (.add .i32 (w3 4 5 6))).srcs.all fun r => (w.fr.src (if r.n = 2 then 64 else 32) r.reg.toNat).isU) = true := by decide
theorem witness_GSetWords : issues base (.addG false (w3 4 5 6)) (fun w => (w.gset (.addG false (w3 4 5 6))).any (fun r => r.2.all fun f =>
    (w.fr.reg f.toNat).isU) && lines w) = true ∧
    issues base (.movG (w2 4 5)) (fun w => (movSource (w2 4 5) w.fr).isU && lines w) = true := by decide
theorem witness_GSetWords_trap : issues ramp (.addG false (w3 4 6 5)) (fun w => (w.gset (.addG false (w3 4 6 5))).any (fun r => r.2.any fun f =>
    !(w.fr.reg f.toNat).isU) && !w.t.priv && handlerOf w.s w.g.ctx != 0) = true := by decide
theorem witness_RegisterWordTraps : issues (withHdr (fun h => { h with regs := 0 }) (withStrip fun t => { t with active := 1 }))
    (.add .i32 (w3 4 5 6)) (fun w => w.hasResult (.add .i32 (w3 4 5 6)) && w.l.hdr.regs == 0 && !w.t.priv && !w.fr.whole &&
      handlerOf w.s w.g.ctx != 0) = true := by decide
theorem witness_RegisterWordTraps_formats : issues base (.cvt 0 { w3 4 6 52 with x := some { x0 with fmt := 0 } }) (fun w =>
      lines w && vectorsNow w && (w.plainEntry 52).isNone &&
      cvtFits (w.fr.width 52) (w.fr.width 0) 0 { w3 4 6 52 with x := some { x0 with fmt := 0 } }) = true ∧
    issues base (.cvt 1 { w3 4 6 0 with x := some { x0 with fmt := 1 } }) (fun w => vectorsNow w &&
      !cvtFits (w.fr.width 0) (w.fr.width 1) 1 { w3 4 6 0 with x := some { x0 with fmt := 1 } }) = true ∧
    issues base (.vdot { w3 4 6 8 with x := some { x0 with fmt := 0 } }) (fun w => lines w && vectorsNow w &&
      (w.plainEntry 0).any fun e => (Ent.of e).wid == 32) = true := by decide
theorem witness_MoveWords : issues base (.mov (w2 4 5)) (fun w => (w.moves (.mov (w2 4 5))).isSome && lines w) = true ∧
    issues (withStrip fun t => { t with active := 0xFF }) (.movs (WNoLa.mk false 4 0 none)) (fun w => lines w &&
      (lanesOf w.fr.active).all fun l => w.l.rcd.box.holds (w.coord l)) = true := by decide
theorem witness_CrossLaneWords : issues ramp (.shfl .back (w3 4 5 6)) (fun w => (w.crossed (.shfl .back (w3 4 5 6))).isSome && lines w) = true ∧
    issues base (.plop false 1 2 3 0b1000 none) (fun w => (w.predicate (.plop false 1 2 3 0b1000 none)).isSome) = true ∧
    issues ramp (.reap .fadd (w2 4 5)) lines = true := by decide
theorem witness_Comparisons : issues ramp (.icmp .lt (WCmp.mk false 1 5 6 false true none)) (fun w => (List.range 32).all (fun l =>
      !laneIn w.fr.active l || w.g.box.holds (w.coord l)) && decide (w.g.box.ex ≤ 2 ^ 32) && decide (w.g.box.ey ≤ 2 ^ 32) &&
      decide (w.g.box.ez ≤ 2 ^ 32)) = true ∧
    issues base (.icmpG .gen (WCmp.mk false 1 5 6 false false none)) (fun w => (w.fr.src 32 5).isU && (w.fr.src 32 6).isU) = true ∧
    issues ramp (.fcmp false .un (WCmp.mk false 1 5 6 false false none)) (fun _ => true) = true := by decide
theorem witness_FloatWords : issues base (.ffma true { w3 4 6 8 with x := some { x0 with vc := 10 } }) (fun w =>
      (w.float (.ffma true { w3 4 6 8 with x := some { x0 with vc := 10 } })).isSome && lines w) = true ∧
    issues base (.cvt 0 { w3 4 6 0 with x := some { x0 with fmt := 1 } }) (fun w => (w.plainEntry 0).any (fun e => fitsSlot (Ent.of e) 6) &&
      (w.plainEntry 1).any (fun f => fitsSlot (Ent.of f) 4) && lines w && cvtFits 32 64 0 { w3 4 6 0 with x := some { x0 with fmt := 1 } }) = true ∧
    issues base (.vdot { w3 4 6 8 with x := some { x0 with fmt := 4, vc := 10 } }) (fun w => (w.plainEntry 4).any (fun e =>
      (Ent.of e).wid == 8) && lines w) = true := by decide
theorem witness_FloatWords_functions : issues (two 0x40400000 0) (.fsqrt (w2 4 5)) (fun w => lines w && functionWord (.fsqrt (w2 4 5)) == some (2, w2 4 5) &&
      !w.fr.ftz && specialInput 2 false (loOf (w.src 32 5 0)) == none) = true ∧
    issues (two 0xFF800000 0) (.frcp (w2 4 5)) (fun w => lines w && specialInput 0 w.fr.ftz (loOf (w.src 32 5 0)) == some (0x80000000, 0)) = true := by
  decide
theorem witness_RandomNumbers : issues base (.rngseed 3 (w3 0 4 6)) (fun w => holdsU (w.fr.pair 4) 0 && holdsU (w.fr.pair 6) 0) = true ∧
    issues base (.rng 2 (WNoLa.mk false 4 3 none)) lines = true := by decide

/-! Control words. -/

/-- Predicate 1 holds in lanes 0 to 9; the stack has n entries. -/
def stacked (n : Nat) (e : StackEntry) : State :=
  withStrip fun t => { t with preds := vset t.preds 1 (.l 0x3FF), stack := List.replicate n e }
def recEntry : StackEntry := StackEntry.mk 0x10080 0xFFFFFFFF 0 1

theorem witness_Branches : issues base (.bra false 31 true 8 none) (fun w => w.taken 31 true == w.t.active) = true ∧
    issues base (.bra false 2 false 8 none) (fun w => w.taken 2 false == 0) = true ∧
    issues (stacked 31 recEntry) (.bra false 1 false 8 (some 8)) (fun w => w.taken 1 false != 0 && w.taken 1 false != w.t.active &&
      w.toward 8 == w.toward 8 && decide (w.t.stack.length < 32)) = true ∧
    issues (stacked 30 recEntry) (.bra false 1 false 8 (some 9)) (fun w => w.taken 1 false != 0 && w.taken 1 false != w.t.active &&
      w.toward 8 != w.toward 9 && decide (w.t.stack.length < 31)) = true := by decide
theorem witness_Branches_traps : issues (stacked 0 recEntry) (.bra false 1 false 8 none) (fun w => vectorsNow w && w.taken 1 false != 0 &&
      w.taken 1 false != w.t.active) = true ∧
    issues (stacked 32 recEntry) (.bra false 1 false 8 (some 8)) (fun w => vectorsNow w && decide (32 < w.t.stack.length + 1)) = true ∧
    issues (stacked 31 recEntry) (.bra false 1 false 8 (some 9)) (fun w => vectorsNow w && decide (32 < w.t.stack.length + 2)) = true := by
  decide
theorem witness_Joins : issues base (.join false) (fun w => w.t.stack.isEmpty) = true ∧
    issues (stacked 1 (StackEntry.mk 0x10081 1 0 1)) (.join false) (fun w => w.t.ownTop && w.t.stack.any (·.isPath)) = true ∧
    issues (stacked 1 (StackEntry.mk 0x10000 1 0 1)) (.join false) (fun w => w.t.ownTop && w.t.stack.any fun e => !e.isPath && e.pc == w.t.pc) = true ∧
    issues (stacked 1 (StackEntry.mk 0x10002 1 0 1)) (.join false) (fun w => w.t.stack.any fun e => !e.isPath && e.pc != w.t.pc) = true ∧
    issues (withStrip fun t => { t with stack := [recEntry], elect := some (3, 1), active := 1 }) (.join false) (fun w => !w.t.ownTop) = true := by
  decide
theorem witness_CallsAndReturns : issues (stacked 31 recEntry) (.call false 5 none) (fun w => decide (w.t.stack.length < 32)) = true ∧
    issues (stacked 1 (StackEntry.mk 0x10012 3 0 1)) (.ret false) (fun w => w.t.ownTop && w.t.stack.any (·.isCall)) = true ∧
    issues (withRegs [(4, 0x10020)]) (.jmpi (WSrc.mk false 4 true none)) (fun w => holdsU (w.fr.pair 4) 0x10020) = true := by decide
theorem witness_CallsAndReturns_traps : issues (stacked 32 recEntry) (.call false 5 none) (fun w => vectorsNow w && decide (32 ≤ w.t.stack.length)) = true ∧
    issues base (.ret false) (fun w => vectorsNow w && w.t.stack.isEmpty) = true ∧
    issues (stacked 1 recEntry) (.ret false) (fun w => vectorsNow w && w.t.stack.any fun e => !e.isCall) = true ∧
    issues (withRegs [(4, 0x10022)]) (.jmpi (WSrc.mk false 4 false none)) (fun w => vectorsNow w && holdsU (w.fr.pair 4) 0x10022) = true := by decide
theorem witness_ExitsAndElect_exit :
    issues (withStrip fun t => { t with preds := vset t.preds 1 (.l 0x3FF) }) (.exit false (some { x0 with ge := true, gp := 1 }))
      (fun w => !w.t.priv && w.t.elect.isNone && w.left.active != 0) = true ∧
    issues (withStrip fun t => { t with active := 0xFF, stack := [StackEntry.mk 0x10080 0xFF 0 1, recEntry] }) (.exit false none)
      (fun w => w.left.active == 0 && w.t.stack.length == 2 && (w.t.stack.headD recEntry).mask &&& w.left.live == 0 &&
        recEntry.mask &&& w.left.live != 0) = true ∧
    issues base (.exit false none) (fun w => w.left.active == 0 && w.t.stack.all fun d => d.mask &&& w.left.live == 0) = true := by decide
theorem witness_ExitsAndElect_traps : issues (withStrip fun t => { t with elect := some (3, 0), active := 1 }) (.exit false none) (fun w =>
      w.t.elect.isSome && vectorsNow w) = true ∧
    issues (withStrip fun t => { t with priv := true }) (.exit false none) (fun w => w.t.priv) = true := by decide
theorem witness_ExitsAndElect_retire : ((withStrip fun t => { t with retired := true }).gang? 1).any (fun g => g.id == 1 &&
    g.strips.all (·.retired) && (withStrip fun t => { t with retired := true }).progs.isEmpty) = true := by decide
theorem witness_ExitsAndElect_elect : issues base (.elect false) (fun w => w.t.elect.isNone) = true ∧
    issues (withStrip fun t => { t with elect := some (3, 0), active := 1 }) (.elect false) (fun w => w.t.elect.isSome && vectorsNow w) = true ∧
    issues (withStrip fun t => { t with elect := some (3, 0), active := 1 }) (.elend false) (fun w => w.t.elect == some (3, 0)) = true ∧
    issues base (.elend false) (fun w => w.t.elect.isNone && vectorsNow w) = true := by decide
theorem witness_OnlyAdvance : issues base (.nop true) (fun _ => true) = true ∧
    issues base (.fence (WFence.mk false 0xFF 0xFF 3)) (fun w => w.s.progs.all fun p =>
      !fencesProg (WFence.mk false 0xFF 0xFF 3) w.g w.t p && !fencesAck (WFence.mk false 0xFF 0xFF 3) w.g w.t p) = true ∧
    issues base (.cflush (WAddr2.mk false 4 6 (xAcq 0))) (fun w => holdsU (w.fr.pair 4) 0 && holdsU (w.fr.reg 6) 0 && scopeOf (xAcq 0) != 5) = true ∧
    issues base (.pref (WPref.mk false 4 true 0 none)) (fun _ => true) = true := by decide
theorem witness_OnlyAdvance_tfence : issues (withStrip fun t => { t with fpstat := 1 }) (.tfence false) (fun w =>
      let t := setMillFlags (fun x => x.tile.isSome) w.t
      t.fpstat.extractLsb' 0 6 &&& t.mode.extractLsb' 4 6 == 0) = true ∧
    issues (withStrip fun t => { t with fpstat := 1, mode := 0x11 }) (.tfence false) (fun w =>
      let t := setMillFlags (fun x => x.tile.isSome) w.t
      t.fpstat.extractLsb' 0 6 &&& t.mode.extractLsb' 4 6 != 0 && vectorsNow w) = true := by decide

/-! Words that do not issue normally, and traps. -/

/-- A guard by predicate 1, which is L. -/
def byP1 : Option XWord := some { x0 with ge := true, gp := 1 }
def guarded (m : Mask) : State := withStrip fun t => { t with preds := vset t.preds 1 (.l m) }
def fatedNow (w : Seat) : Bool := vectorsNow w && w.t.replay.isEmpty && w.fr.active != 0

theorem witness_IssueFates_traps : stands base (.add .i64 (w3 1 2 4)) (fun w => !w.encoded (.add .i64 (w3 1 2 4)) && fatedNow w) = true ∧
    stands (withHdr (fun h => { h with acc := 1 }) base) (.accwrZero false 2 none) (fun w => !(w.form (.accwrZero false 2 none)).legal &&
      w.encoded (.accwrZero false 2 none) && fatedNow w) = true ∧
    stands base (.tret false) (fun w => w.encoded (.tret false) && (w.form (.tret false)).legal && privileged (.tret false) && fatedNow w) = true ∧
    stands base .eend (fun w => isEngineWord .eend && fatedNow w) = true := by decide
theorem witness_IssueFates_uneven : ([.addG false { w3 4 5 6 with x := byP1 }, .fmtselSlot false 48 0 byP1] : List Instr).all (fun i =>
      stands (guarded 3) i fun w => w.allowed i && w.unevenG i && lines w && fatedNow w) = true ∧
    stands (guarded 0) (.addG false { w3 4 5 6 with x := byP1 }) (fun w => w.encoded (.addG false { w3 4 5 6 with x := byP1 }) && vectorsNow w &&
      w.fr.active == 0 && w.unevenG (.addG false { w3 4 5 6 with x := byP1 })) = true ∧
    stands ((guarded 0).mapStrip 1 0 lRegs) (.ldt (WTile.mk false 16 4 5 false byP1)) (fun w => w.encoded (.ldt (WTile.mk false 16 4 5 false byP1)) &&
      vectorsNow w && w.t.replay.isEmpty && w.fr.active == 0 && !w.unevenG (.ldt (WTile.mk false 16 4 5 false byP1)) &&
      w.unevenTile (.ldt (WTile.mk false 16 4 5 false byP1))) = true := by decide
theorem witness_IssueFates_skipped : ([.rng 0 (WNoLa.mk false 4 0 byP1), .setsr (W2.mk false 0x10 4 false (some { x0 with ge := true, gp := 2 })),
    .ldt (WTile.mk false 16 4 6 false byP1)] : List Instr).all (fun i =>
      stands (guarded 0) i fun w => w.encoded i && !w.unevenG i && w.t.replay.isEmpty && w.fr.active == 0 && !w.unevenTile i) = true := by decide
theorem witness_IssueFates_held : stands (withStrip fun t => { t with locks := 0x10 }) (.add .i32 (w3 4 5 6)) (fun w => w.allowed (.add .i32 (w3 4 5 6)) &&
      !w.unevenG (.add .i32 (w3 4 5 6)) && w.fr.active != 0 && w.locked (.add .i32 (w3 4 5 6))) = true ∧
    stands (withStrip fun t => { t with unacked := 1 }) (.fence (WFence.mk false 0xFF 0xFF 5)) (fun w => w.allowed (.fence (WFence.mk false 0xFF 0xFF 5)) &&
      w.fr.active != 0 && !w.locked (.fence (WFence.mk false 0xFF 0xFF 5)) && w.unreleased (.fence (WFence.mk false 0xFF 0xFF 5))) = true := by decide

/-- A load of register 8 of which lane 3 has faulted with cause 0x10. -/
def parked : Access where
  kind := .load
  pc := 0x0FFFC
  pos := 0
  replayed := false
  bench := none
  lanes := [{ laneReq 3 0x40000000 4 [] [] with cause := 0x10, at_ := 0x40000000 }]
  active := 0xFFFFFFFF
  dst := 8
  regs := 1
  size := 4
  uniform := false
  whole := true
  op := 0
  entry := none
  trans := false
  scope := 0
  order := 0
  nc := false
  last := false
  flt := false
  counts := true
  priv := false
  srcs := []
  ftz := false
  since := 0

theorem witness_ParkedTraps : stands (withStrip fun t => { t with replay := [parked] }) (.nop true) (fun w => w.allowed (.nop true) &&
      !w.unevenG (.nop true) && vectorsNow w && w.fr.active != 0 && w.t.replay == [parked]) = true ∧
    stands (withStrip fun t => { t with replay := [parked] }) (.add .i32 (w3 4 8 6)) (fun w => w.allowed (.add .i32 (w3 4 8 6)) &&
      vectorsNow w && lines w && (roleRegs false (w.form (.add .i32 (w3 4 8 6))).srcs).contains (parked.dst + 0)) = true ∧
    allFaulted [parked] := by
  refine ⟨by decide, by decide, ?_⟩
  simp [allFaulted, parked, laneReq]
theorem witness_Traps : issues base (.trap false 5 none) vectorsNow = true ∧
    stands (withStrip fun t => { t with priv := true }) (.add .i64 (w3 1 2 4)) (fun w => !w.encoded (.add .i64 (w3 1 2 4)) && w.t.priv) = true ∧
    stands { base with ctxs := base.ctxs.map fun x => { x with cfg := { x.cfg with handler := 0 } } } (.add .i64 (w3 1 2 4)) (fun w =>
      !w.encoded (.add .i64 (w3 1 2 4)) && handlerOf w.s w.g.ctx == 0 && w.t.replay.isEmpty) = true := by decide
theorem witness_TrapReturn : issues (withStrip fun t => { t with priv := true, stack := [recEntry], trapDepth := 0 }) (.tret false) (fun _ => true) = true := by
  decide

/-- A load of lane 0; one that waits at VA 0x200000; and a state in which that page is mapped to the start of the second tier
(1) or of peer slot 0 (3). -/
def plainLoad : Access := { parked with pc := 0x10000, lanes := [laneReq 0 0x12000 4 [] []], dst := 9 }
def outward (seg : Seg) : Access := { plainLoad with lanes := [{ laneReq 0 0x200000 4 [] [] with held := [seg] }] }
def atTarget (tgt : Nat) (s : State) : State :=
  let cs := cellsWrite (cellsWrite s.device.cells 0x400008 (toBytes (0x1B + tgt * 2 ^ 52) 8)) 0x30000 (toBytes 7 8 ++ toBytes 0x0103 8)
  { s with
    device := { s.device with cells := cs }
    ctxs := s.ctxs.map fun x => { x with cfg := { x.cfg with peertab := 0x30000, npeer := 1, errlog := 0x80000, errsize := 64, pool := 0x90000 } } }
def withPort (p : Port) (s : State) : State := { s with dev := { s.dev with ports := Vector.replicate 4 p } }

/-! Words that synchronise. -/

/-- The strip has arrived at barrier 3 in the phase that is open, or at the recompute barrier. -/
def arrived (t : Strip) : Strip := { t with barPhase := vset t.barPhase 3 (some 0) }
def recalled (t : Strip) : Strip := { t with withdrawn := some 3 }

theorem witness_BarrierArrivals : issues base (.barSync false 3 none) (fun w => w.t.withdrawn != some 3 && vget w.t.barPhase 3 none != some (w.g.bar 3).phase) = true ∧
    issues (withStrip arrived) (.barSync false 3 none) (fun w => w.t.withdrawn != some 3 && vget w.t.barPhase 3 none == some (w.g.bar 3).phase) = true ∧
    issues (withStrip fun t => recalled (arrived t)) (.barSync false 3 none) (fun w => w.t.withdrawn == some 3 && vget w.t.barPhase 3 none == some (w.g.bar 3).phase) = true ∧
    issues (withStrip recalled) (.barSync false 3 none) (fun w => w.t.withdrawn == some 3 && vget w.t.barPhase 3 none != some (w.g.bar 3).phase) = true ∧
    issues (withStrip arrived) (.barArrive false 15 none) (fun w => vget w.t.barPhase 15 none != some (w.g.bar 15).phase) = true ∧
    issues (withStrip arrived) (.barArrive false 3 none) (fun w => vget w.t.barPhase 3 none == some (w.g.bar 3).phase) = true ∧
    issues (withStrip arrived) (.barWait false 3 none) (fun w => vget w.t.barPhase 3 none == some (w.g.bar 3).phase) = true := by decide
theorem witness_BarrierArrivals_recompute : issues (withRegs [(4, 0x12000)]) (.ckpt (WAddr.mk false 4 none)) (fun w => holdsU (w.fr.pair 4) 0x12000 &&
      !inTwinWindow 0x12000 && !inTwinWindow (0x12000 + slotSize - 1) && vget w.t.barPhase 16 none != some w.g.recPhase && w.t.withdrawn != some 16) = true ∧
    issues (withRegs [(4, 0x12000)]) (.replay (WAddr.mk false 4 none)) (fun w => holdsU (w.fr.pair 4) 0x12000) = true ∧
    issues base (.replend false) (fun w => vget w.t.barPhase 16 none != some w.g.recPhase && w.t.withdrawn != some 16) = true := by decide

/-- A word's read of n bytes goes through with a word of which c holds. -/
def readsTo (w : Seat) (a : DWord) (n : Nat) (c : Word → Bool) : Bool :=
  let (p, u) := w.reads a n
  p.req.cause == 0 && !p.waits && c (wordOf (p.read u w.g.ctx))

theorem witness_WaitWord : issues (withRegs [(4, 0x12000)]) (.wait .eq (WAddr2.mk false 4 6 none)) (fun w => holdsU (w.fr.pair 4) 0x12000 &&
      holdsU (w.fr.reg 6) 0 && !inTwinWindow 0x12000 && readsTo w 0x12000 4 (· == 0)) = true ∧
    issues (withRegs [(4, 0x12000)]) (.wait .ne (WAddr2.mk false 4 6 none)) (fun w => readsTo w 0x12000 4 fun m => !(m != 0)) = true ∧
    issues (withRegs [(4, 0x40000000)]) (.wait .gen (WAddr2.mk false 4 6 none)) (fun w => vectorsNow w &&
      (w.reads 0x40000000 4).1.req.cause != 0) = true ∧
    [withPort (.retrain 5) (atTarget 1 (withRegs [(4, 0x200000)])), atTarget 3 (withRegs [(4, 0x200000)])].all (fun s =>
      issues s (.wait .eq (WAddr2.mk false 4 6 none)) fun w => holdsU (w.fr.pair 4) 0x200000 &&
        let (p, _) := w.reads 0x200000 4
        p.req.cause == 0 && p.waits) = true := by decide +kernel

def forkWord : WFork := WFork.mk false 16 0 3 2 0 (some 0x40) 0x0504
theorem witness_ForkAndRdv_fork : issues (withRegs [(4, 7), (5, 8)]) (.fork forkWord) (fun w => (List.range 2).all (fun k =>
      holdsU (w.fr.src 32 ((forkByte forkWord k).extractLsb' 0 6).toNat) (BitVec.ofNat 64 (7 + k)) && !(forkByte forkWord k).getLsbD 7) &&
    (freeSlot w.s w.g).isSome && classRoom w.s w.g (classOf 0) && lines w) = true := by decide

/-- Gang 1 has token 1 of program 2, which has a status. -/
def forked (st : ProgStatus) : State :=
  { (base.mapGang 1 fun g => { g with tokens := [Token.mk 1 0 2 false false] }) with
    progs := [{ probeProg 0 .cart with status := st }] }
def rdvOn (n : Word) (s : State) : State := s.mapStrip 1 0 fun t => { t with regs := vset t.regs 7 (.u n) }
def rdvWord : Instr := .rdv (WSrc.mk false 7 true none)

theorem witness_ForkAndRdv_rdv : issues base rdvWord (fun w => holdsU (w.fr.reg 7) 0) = true ∧
    issues (rdvOn 1 base) rdvWord (fun w => holdsU (w.fr.reg 7) 1 && w.g.tokens.isEmpty && vectorsNow w) = true ∧
    issues (rdvOn 1 (forked .running)) rdvWord (fun w => (w.g.tokens.find? (fun k => k.value == 1)).any fun k =>
      (w.s.prog? k.prog).any fun p => !p.over) = true ∧
    issues (rdvOn 1 (forked .ended)) rdvWord (fun w => (w.g.tokens.find? (fun k => k.value == 1)).any fun k =>
      (w.s.prog? k.prog).any fun p => p.status == .ended) = true ∧
    issues (rdvOn 1 (forked (.stopped 0x21 0 0x10000))) rdvWord (fun w => vectorsNow w && (w.g.tokens.find? (fun k => k.value == 1)).any fun k =>
      !k.overtaken && (w.s.prog? k.prog).any fun p => p.status == .stopped 0x21 0 0x10000) = true := by decide

/-- The stage's queue, in an ELECT region. -/
def queued (u : StageQueue) : State :=
  { (withStrip fun t => { t with elect := some (0xFFFFFFFF, 0), active := 1 }) with
    launches := base.launches.map fun l => { l with queues := [u] } }
def rec16 : List Word := (List.range 16).map (BitVec.ofNat 32)

theorem witness_uniform : issues base (.mku (w2 4 5)) (fun w => (w.moves (.mku (w2 4 5))).isSome && lines w && !w.t.priv && w.fr.whole) = true ∧
    issues base (.fmtget (WNoLa.mk false 4 47 none)) (fun w => lines w && !w.t.priv && w.fr.whole) = true ∧
    issues (withRegs [(4, 7), (5, 8)]) (.fork forkWord) (fun w => !w.t.priv && w.fr.whole) = true ∧
    issues (queued (StageQueue.mk 1 [] true)) (.qget false 32 none) (fun w => !w.t.priv && w.fr.whole) = true := by decide
theorem witness_StageQueues : issues (queued (StageQueue.mk 2 [rec16] false)) (.qput false 0 0 none) (fun w => w.t.elect.isSome && decide (0 < w.l.hdr.stages) &&
      (w.l.queues[0]?).any (fun u => decide (u.recs.length < u.depth)) && (List.range 16).all fun k => holdsU (w.fr.reg k) 0) = true ∧
    issues (queued (StageQueue.mk 1 [rec16] false)) (.qput false 0 0 none) (fun w => (w.l.queues[0]?).any fun u => decide (u.depth ≤ u.recs.length)) = true ∧
    issues (queued (StageQueue.mk 1 [rec16] false)) (.qget false 32 none) (fun w => w.t.elect.isSome && (w.l.queues[w.g.stage]?).any fun u => u.recs == [rec16]) = true ∧
    issues (queued (StageQueue.mk 1 [] true)) (.qget false 32 none) (fun w => (w.l.queues[w.g.stage]?).any fun u => u.recs.isEmpty && u.closed) = true ∧
    issues (queued (StageQueue.mk 1 [] false)) (.qget false 32 none) (fun w => (w.l.queues[w.g.stage]?).any fun u => u.recs.isEmpty && !u.closed) = true := by decide
/-- LAUNCH finds its record with a read of which k holds, and waits says whether its successor list waits. -/
def launches (s : State) (a : DWord) (k : Seat → Plan → Bool → Bool) : Bool := issues s (.launch (WAddr.mk false 4 none)) fun w =>
  let (p, u) := w.reads a 80
  holdsU (w.fr.pair 4) a && decide (a.toNat % 8 = 0) && !inTwinWindow a.toNat && decide (w.x.intake < Config.intakePlaces) &&
    k w p (match submitRead w.t.asked (readDone u w.g p) w.g.ctx a (p.read u w.g.ctx) (some (acctOf u w.g.launch)) with
      | .waits _ => true
      | _ => false)
/-- The record at 0x12000 names one successor, at 0x200000. -/
def succeeded (s : State) : State :=
  { s with device := { s.device with cells := cellsWrite (cellsWrite s.device.cells 0x12040 (toBytes 1 8)) 0x12018 (toBytes 0x200000 8) } }

theorem witness_LaunchWord : launches (withRegs [(4, 0x12000)]) 0x12000 (fun _ p late => p.req.cause == 0 && !p.waits && !late) = true ∧
    launches (succeeded (atTarget 3 (withRegs [(4, 0x12000)]))) 0x12000 (fun _ p late => p.req.cause == 0 && !p.waits && late) = true ∧
    launches (withRegs [(4, 0x40000000)]) 0x40000000 (fun w p _ => p.req.cause != 0 && vectorsNow w) = true ∧
    launches (atTarget 3 (withRegs [(4, 0x200000)])) 0x200000 (fun _ p _ => p.req.cause == 0 && p.waits) = true ∧
    issues { withRegs [(4, 0x12000)] with ctxs := base.ctxs.map fun x => { x with intake := 16 } } (.launch (WAddr.mk false 4 none))
      (fun w => decide (Config.intakePlaces ≤ w.x.intake)) = true := by decide +kernel

/-! Controls and formats. -/

theorem witness_Controls : issues base (.fmtselSlot false 47 3 none) (fun _ => true) = true ∧ issues base (.modesetRm false 2 none) (fun _ => true) = true ∧
    issues (withRegs [(7, 0x2F000102)]) (.fmtselReg (WSrc.mk false 7 true none)) (fun w => holdsU (w.fr.reg 7) 0x2F000102) = true ∧
    issues (withRegs [(7, 6)]) (.modeset (WSrc.mk false 7 false none)) (fun w => holdsU (w.fr.reg 7) 6) = true ∧
    issues (withRegs [(7, 63)]) (.modesetClr (WSrc.mk false 7 false none)) (fun w => holdsU (w.fr.reg 7) 63) = true := by decide
theorem witness_Controls_table : issues { withRegs [(4, loOf (fixedEntries.getD 2 0)), (5, hiOf (fixedEntries.getD 2 0))] with cur := .strip 1 0 }
      (.fmtset (W2.mk false 16 4 true none)) (fun w => holdsU (w.fr.pair 4) (fixedEntries.getD 2 0) &&
        fmtsetAccepts w.x.fmtTable 16 (fixedEntries.getD 2 0)) = true ∧
    issues base (.fmtget (WNoLa.mk false 4 47 none)) lines = true ∧
    issues (withRegs [(6, 0xFFFFF)]) (.bwsetMem (WSrc.mk false 6 false none)) (fun w => holdsU (w.fr.reg 6) 0xFFFFF && w.g.place.isSome) = true ∧
    issues base (.bwsetLink (WSrc.mk false 6 true none)) (fun w => holdsU (w.fr.reg 6) 0) = true := by decide

def privileged_ (l : List (Nat × Word)) : State := (withRegs l).mapStrip 1 0 fun t => { t with priv := true }
def setsr (d : BitVec 6) (cls : BitVec 8) : Instr := .setsr (W2.mk false d 4 false (some { x0 with cls := cls }))
theorem witness_SetSpecial : [(0x10, 0), (0x11, 1), (0x12, 63), (0x13, 0x16), (0x1D, 5), (0x1E, 6), (0x1F, 8)].all (fun (d, n) =>
      issues (privileged_ [(4, n)]) (setsr d 0) (fun w => holdsU (w.fr.src 32 4) (n.setWidth 64))) = true ∧
    issues (privileged_ [(4, 8), (5, 1)]) (setsr 0x1F 1) (fun w => holdsU (w.fr.src 64 4) 0x100000008) = true := by decide

/-! Memory words. -/

/-- A part goes through plainly, as a check. -/
def plainB (s : State) (c : Nat) (rd : Bool) (p : Plan) : Bool :=
  p.req.cause == 0 && !p.waits && p.segs.all fun g => !leafTw g.leaf && !leafTwin g.leaf && segTrouble s c rd g == .none &&
    (match g.tgt with
     | .device pa => !tdiRefuses s c pa g.len && !inShadow s pa
     | .peer _ _ => false
     | _ => true)

theorem plain_of {s : State} {c : Nat} {rd : Bool} {p : Plan} (h : plainB s c rd p = true) : p.plain s c rd := by
  simp only [plainB, Bool.and_eq_true, beq_iff_eq, Bool.not_eq_true', List.all_eq_true] at h
  refine ⟨h.1.1, h.1.2, fun g hg => ?_⟩
  obtain ⟨⟨⟨h1, h2⟩, h3⟩, h4⟩ := h.2 g hg
  refine ⟨h1, h2, h3, ?_⟩
  revert h4
  cases g.tgt <;> simp

/-- The parts of a word go through plainly, outside the twin window. -/
def plainParts (w : Seat) (need : Need) (wr rd : Bool) (reqs : List LaneReq) : Bool :=
  let (ps, u) := w.plans need wr reqs
  !ps.isEmpty && reqs.all (fun r => !inTwinWindow r.addr.toNat) && ps.all (plainB u w.g.ctx rd)

/-- Register pair 8 points at data, in one address or one for each lane. -/
def at8 (a : Word) : State := withRegs [(8, a)]
def apart8 : State := withStrip fun t => { t with regs := vset t.regs 8 (.l (Vector.ofFn fun l : Fin 32 => BitVec.ofNat 32 (0x12000 + 4 * l.val))) }
def noParts : Nat → List Byte := fun _ => []

theorem witness_Loads : issues apart8 (.ld (mem 4 8 0 2)) (fun w => lines w && fmtOf (mem 4 8 0 2).x == 63 &&
      plainParts w .read false true (w.parts false (mem 4 8 0 2) noParts noParts)) = true ∧
    issues (at8 0x12FFE) (.ldG (mem 4 8 0 2)) (fun w => lines w && (w.fr.pair 8).isU &&
      plainParts w .read false true (w.parts true (mem 4 8 0 2) noParts noParts)) = true ∧
    issues apart8 (.ld { mem 4 8 0 1 with x := some { x0 with fmt := 2 } }) (fun w => (w.plainEntry 2).any fun f => (Ent.of f).wid == 8 * 2 ^ 1) = true := by
  decide +kernel
theorem witness_Stores : issues (at8 0x12000) (.st (mem 4 8 0 4)) (fun w =>
      plainParts w .write true false (w.parts false (mem 4 8 0 4) (w.storeData (mem 4 8 0 4) none) noParts)) = true ∧
    issues (at8 0x12000) (.stG (mem 4 8 0 4)) (fun w => (w.fr.pair 8).isU && (w.fr.pair 4).isU && (w.fr.pair 6).isU &&
      plainParts w .write true false (w.parts true (mem 4 8 0 4) (w.storeData (mem 4 8 0 4) none) noParts)) = true := by decide +kernel
def amem : WMem := { mem 4 8 0 2 with x := some { x0 with vc := 10 } }
theorem witness_Atomics : issues (at8 0x12000) (.atom amem) (fun w => lines w &&
      plainParts w .both true true (w.parts false amem (fun l => w.bytes 10 4 l) noParts) && (0x12000 % 4 == 0)) = true ∧
    issues (at8 0x12000) (.cas { amem with sz := 4, d := 4, x := some { x0 with vc := 12 } }) (fun w => lines w &&
      plainParts w .both true true (w.parts false { amem with sz := 4 } (fun l => w.bytes 12 16 l) (fun l => w.bytes 4 16 l))) = true := by
  decide +kernel
theorem witness_Scratchpad : issues (at8 0xFFFC) (.lds (mem 4 8 0 2)) (fun w => lines w && fmtOf (mem 4 8 0 2).x == 63) = true ∧
    issues (at8 0xFFFE) (.sts (mem 4 8 0 2)) (fun _ => true) = true ∧
    issues (at8 0xFFFC) (.atoms amem) (fun w => lines w && (List.range 32).all fun l => !laneIn w.fr.active l || w.offset amem l % 4 == 0) = true := by
  decide +kernel

/-! Tile words, caches, page tables, parked and twin accesses. -/

/-- A strip whose lanes all live, with U words in registers. -/
def tiled (l : List (Nat × Word)) : State := (withRegs l).mapStrip 1 0 fun t => { t with live := 0xFFFFFFFF }
def ldtWord (t : Bool) (fmt : BitVec 6) : WTile := WTile.mk false 32 8 10 t (some { x0 with fmt := fmt })

theorem witness_TileLoads_raw : issues (tiled [(8, 0x12000), (10, 64)]) (.ldt (ldtWord false 63)) (fun w => lines w && w.fr.active == w.t.live &&
      holdsU (w.fr.pair 8) 0x12000 && holdsU (w.fr.reg 10) 64 &&
      plainParts w .read false true (ldtRows w.x.fmtTable false none 0x12000 64)) = true := by decide +kernel
theorem witness_TileLoads_scaled : [(false, 15), (true, 0), (false, 4)].all (fun (t, n) => issues (tiled [(8, 0x12000), (10, 64)]) (.ldt (ldtWord t n)) (fun w =>
      (entryOf w.x.fmtTable w.t.fmt n.toNat).any fun f => (Ent.of f).wid != 64 && (Ent.of f).wid != 0 && (!t || (Ent.of f).blk == 0) &&
        plainParts w .read false true (ldtRows w.x.fmtTable t (some (Ent.of f)) 0x12000 64))) = true := by decide +kernel
/-- The rows of a store go through plainly. -/
def plainRows (w : Seat) (rows : List LaneReq) : Bool :=
  plainParts { w with s := w.s.bump (choiceCount rows) } .write true false (chooseBytes w.s.tick [16, 8] rows)
def sttWord : WTile := WTile.mk false 32 8 10 false none
def stashWord : WTile := WTile.mk false 32 8 10 false (some { x0 with fmt := 4, vc := 12 })

theorem witness_TileStores : issues (tiled [(8, 0x12000), (10, 64)]) (.stt sttWord) (fun w => w.fr.active == w.t.live &&
      holdsU (w.fr.pair 8) 0x12000 && holdsU (w.fr.reg 10) 64 && plainRows w
        ((List.range 16).map fun n => laneReq n (0x12000 + BitVec.ofNat 64 n * 64) 64 (blockRow w.fr 32 n) [])) = true ∧
    issues (tiled [(8, 0x12000), (10, 0x13000), (12, 0x200040)]) (.stash stashWord) (fun w => holdsU (w.fr.pair 8) 0x12000 &&
      holdsU (w.fr.pair 10) 0x13000 && holdsU (w.fr.reg 12) 0x200040 && (w.plainEntry 4).any fun e => (Ent.of e).wid == 8 &&
        plainRows w (stashRows w.fr 32 8 0x12000 0x13000 0x200040)) = true := by
  decide +kernel
/-- Two rows that both write the part at 0x12010 as a whole. -/
def twoRows : List LaneReq := [laneReq 0 0x12000 64 (List.replicate 64 1) [], laneReq 1 0x12010 64 (List.replicate 64 2) []]
theorem witness_TileStores_parts : (16 ∣ 0x12010) ∧ (List.range 16).all (fun j => !inTwinWindow (0x12010 + j)) = true ∧
    twoRows.all (fun r => decide (r.addr.toNat ≤ 0x12010 ∧ 0x12020 ≤ r.addr.toNat + r.data.length)) = true := by decide

/-- The slots of the mill name codes 2 and 2, and that of ACCRD and ACCWR code 0. -/
def milled : State := (tiled []).mapStrip 1 0 fun t => { t with fmt := 0x202 }
def mmaWord : WMma := WMma.mk false 1 16 24 true (some { x0 with vc := 32 })

theorem witness_MillAndTiles : issues milled (.mma { mmaWord with x := none }) (fun w => w.fr.active == w.t.live &&
      (entryOf w.x.fmtTable w.t.fmt 48).any fun ea => (entryOf w.x.fmtTable w.t.fmt 49).any fun eb => millAccepts (Ent.of ea) (Ent.of eb)) = true ∧
    issues milled (.smma mmaWord) (fun w => w.fr.active == w.t.live) = true ∧
    issues milled (.accrd (WAcc.mk false 16 2 none)) (fun w => lines w && (w.plainEntry 50).any fun e => (Ent.of e).wid != 64 && (Ent.of e).wid != 0) = true ∧
    issues milled (.accrdZero (WAcc.mk false 16 2 none)) lines = true ∧
    issues milled (.accwr (WAcc.mk false 16 2 none)) (fun w => (w.plainEntry 50).any fun e => (Ent.of e).wid != 64 && (Ent.of e).wid != 0) = true ∧
    issues milled (.accwrZero false 2 none) (fun w => w.fr.active == w.t.live) = true := by decide +kernel

/-- A privileged strip with an address in pair 8, a number in 10 and an entry in pair 12; line 576 of memory is dirty and
fetched, and the leaf at 0x400000 is cached. -/
def ranged (a n e : Word) : State :=
  let s := privileged_ [(8, a), (10, n), (12, e)]
  { s with
    device := { s.device with dirty := [DirtyLine.mk 576 (List.replicate 128 7) (some 0)], marks := [18] }
    fetched := [FetchLine.mk 0 0 576 []]
    tlb := [TlbEntry.mk 1 0 0x200000 0x3B] }
def onSystem : Option XWord := some { x0 with cls := 0xA0 }
def deviceAt (s : State) (w : Seat) (a : Nat) : Option Nat :=
  match (translate s w.g.ctx a .read w.t.priv).1 with
  | .ok (_, .device pa) => some pa
  | _ => none

theorem witness_CacheMaintenance : issues (ranged 0x12000 64 0) (.icinv (WAddr2.mk false 8 10 onSystem)) (fun w => holdsU (w.fr.pair 8) 0x12000 &&
      holdsU (w.fr.reg 10) 64) = true ∧
    issues (ranged 0x12000 64 0) (.tlbinv (WAddr.mk false 8 none)) (fun w => holdsU (w.fr.pair 8) 0x12000) = true ∧
    issues (ranged 0 0 0) (.tlbinvCtx false none) (fun _ => true) = true ∧ issues (ranged 0 0 0) (.tlbinvAll false none) (fun _ => true) = true ∧
    issues (ranged 0x12000 64 0) (.cflush (WAddr2.mk false 8 10 onSystem)) (fun w => holdsU (w.fr.pair 8) 0x12000 &&
      holdsU (w.fr.reg 10) 64 && deviceAt w.s w 0x12000 == some 0x12000) = true ∧
    issues (ranged 0x12000 4 0) (.cflushInv (WAddr2.mk false 8 10 onSystem)) (fun _ => true) = true := by decide +kernel
/-- Strip 1 of the gang waits at the second tier, whose port 0 is p and whose line 0 is dirty; strip 0 issues. -/
def besideTier (p : Port) : State :=
  let s := withPort p (atTarget 1 (ranged 0x200000 64 0))
  { s with
    tier := { s.tier with dirty := [DirtyLine.mk 0 (List.replicate 128 7) (some 0)] }
    gangs := s.gangs.map fun g => { g with strips := g.strips.flatMap fun t =>
      [t, { t with idx := 1, wait := .access [outward (Seg.mk 0x200000 4 0x1001B (.tier 0))] }] } }
theorem witness_CacheMaintenance_waits : issues (besideTier (.retrain 5)) (.tlbinv (WAddr.mk false 8 none)) (fun w => holdsU (w.fr.pair 8) 0x200000 &&
      w.s.gangs.any fun g => g.strips.any fun t => match t.wait with
        | .access [a] => a.lanes.any fun r => r.held.any fun y => g.ctx == w.g.ctx && y.va / 4096 == 0x200000 / 4096 &&
            !leafTwin y.leaf
        | _ => false) = true ∧
    issues (besideTier (.retrain 5)) (.cflush (WAddr2.mk false 8 10 onSystem)) (fun w => scopeOf onSystem == 5 &&
      (rangePages 0x200000 64).any (flushWaits w.g.ctx w.t.priv w.s)) = true ∧
    issues (besideTier .up) (.cflush (WAddr2.mk false 8 10 onSystem)) (fun w => !(rangePages 0x200000 64).any (flushWaits w.g.ctx w.t.priv w.s) &&
      (match (translate w.s w.g.ctx 0x200000 .read w.t.priv).1 with
       | .ok (_, .tier pa) => pa == 0
       | _ => false)) = true := by decide +kernel

theorem witness_PageTables : issues (ranged 0x200000 0 0x80001B) (.pgmapL1 (WAddr2.mk false 8 12 none)) (fun w => holdsU (w.fr.pair 8) 0x200000 && holdsU (w.fr.pair 12) 0x80001B &&
      entryV 0x80001B && entryLf 0x80001B &&
      !entryReserved w.s 0x80001B 1 0x200000 && (slotFor w.s w.g.ctx w.x.root 0x200000 1).any fun k => (entryRead w.s w.g.ctx k).any fun old => !entryV old) = true ∧
    issues (ranged 0 0 0x80001B) (.pgmapL1 (WAddr2.mk false 8 12 none)) (fun w =>
      (slotFor w.s w.g.ctx w.x.root 0 1).any fun k => (entryRead w.s w.g.ctx k).any entryV) = true ∧
    issues (ranged 0 0 0x90001A) (.pgmapL0 (WAddr2.mk false 8 12 none)) (fun _ => !entryV 0x90001A) = true := by decide +kernel
theorem witness_PageTables_harvest : issues (ranged 0x12000 64 0) (.harvest (WAddr2.mk false 8 10 none)) (fun w => holdsU (w.fr.reg 10) 64 &&
      (match (walkFresh w.s w.g.ctx w.x.root 0x12000).1 with
       | .leaf e l => l == 1 && leafTgt e == 0 && leafFrame e == 0 && w.s.device.marks == [18]
       | _ => false)) = true ∧
    issues (ranged 0x40000000 64 0) (.harvest (WAddr2.mk false 8 10 none)) (fun w =>
      (match (walkFresh w.s w.g.ctx w.x.root 0x40000000).1 with
       | .fault _ _ => true
       | _ => false)) = true := by decide +kernel

/-- Lane 0 points at a page that is not mapped, the others at data. -/
def halfMapped : State := withStrip fun t => { t with regs := vset (vset t.regs 8 (.l (Vector.ofFn fun l : Fin 32 =>
  if l.val = 0 then 0x40000000 else BitVec.ofNat 32 (0x12000 + 4 * l.val)))) 9 (.u 0) }
/-- The queue that a word leaves, put back into the strip with the turn. -/
def parkedLoad : State :=
  let again (q : List Access) : State := withStrip fun t => { t with replay := q, priv := true }
  match exec (.ld (mem 4 8 0 2)) halfMapped with
  | .next u => ((u.strip? 1 0).map fun t => again (t.replay.map fun a => { a with
      lanes := a.lanes.map fun r => { r with addr := 0x12000, cause := 0 } })).getD base
  | _ => base

theorem witness_ParkedAccesses : issues halfMapped (.ld (mem 4 8 0 2)) (fun w => lines w && fmtOf (mem 4 8 0 2).x == 63 && !w.t.priv &&
      (let (ps, u) := w.plans .read false (w.parts false (mem 4 8 0 2) noParts noParts)
      ps.any (fun p => p.req.cause != 0) && ps.all fun p => (p.req.cause != 0 && p.segs.isEmpty) || plainB u w.g.ctx true p)) = true := by
  decide +kernel
theorem witness_ParkedAccesses_again : issues parkedLoad (.rqrel false) (fun w => lines w &&
    (match w.t.replay with
     | [a] => a.kind == .load && a.entry.isNone && !a.last && !a.uniform && decide (a.dst + a.regs ≤ 80) && !a.lanes.isEmpty &&
       (let (ps, u) := planAll w.s w.g.ctx .read a.priv false a.lanes
       ps.all (plainB u w.g.ctx true))
     | _ => false)) = true ∧
    issues (withHdr (fun h => { h with regs := 0 }) parkedLoad) (.rqrel false) (fun w => w.l.hdr.regs == 0 && w.t.replay.any fun a =>
      a.regs != 0 && decide (a.dst < 64)) = true := by decide +kernel

theorem witness_CacheMaintenance_peer : ({ base with peerWaits := [PeerWait.mk (PeerRequest.mk 0 .read false none [lane 0x200000 4 []] 0)
      [{ laneReq 0 0x200000 4 [] [] with held := [Seg.mk 0x200000 4 0x1001B (.tier 0)] }] [.waits]] } : State).peerWaits.any (fun p =>
        p.lanes.any fun r => r.held.any fun y => p.req.ctx == 0 && y.va / 4096 == 0x200000 / 4096 && !leafTwin y.leaf) = true := by decide
/-- VA 0x12000 is twin-enabled: its node at 0x600000 maps it to frame 0x12, and the twin window's tree, from 0xA00000,
maps the adjoint and the count word. -/
def twinned : State :=
  let s := apart8
  let cs := [(0x400000, 0x600001), (0x600080, 0x1003B), (0x600098, 0x1301B), (0x6000A0, 0x1401B), (0x600090, 0x4000000001201B), (0x280000, 0xA00005), (0xA00000, 0xC00001),
    (0xC00090, 0x80000000100001B)].foldl (fun cs (e : Nat × Nat) => cellsWrite cs e.1 (toBytes e.2 8)) s.device.cells
  { s with
    dev := { s.dev with twpool := 0x00010001 }
    device := { s.device with cells := cs } }

theorem witness_CacheMaintenance_twin : (match (translate twinned 0 (twinBase + 0x12000) .read false).1 with
    | .ok (e, .device _) => leafTwin e
    | _ => false) = true := by decide +kernel
theorem witness_TwinAccesses_counts : addOverflows base 0x12000 5 = false ∧ countState (addUses base 0x12000 5) 0x12000 = 1 ∧
    countUses (addUses base 0x12000 5) 0x12000 = 5 ∧ countState (subUses (addUses base 0x12000 5) 0x12000 5) 0x12000 = 2 := by decide +kernel
theorem witness_TwinAccesses : issues twinned (.ld (mem 4 8 0 2)) (fun w => lines w && !w.g.replayMode &&
      (let (ps, u) := w.plans .read false (w.parts false (mem 4 8 0 2) noParts noParts)
      ps.length == 32 && ps.all fun p => p.req.cause == 0 && !inTwinWindow p.req.addr.toNat && p.segs.all fun g => !leafTwin g.leaf &&
        leafTw g.leaf && segTrouble u w.g.ctx true g == .none && (match g.tgt with
          | .device pa => !inShadow u pa
          | .peer _ _ => false
          | _ => true) && (sectorKeys u w.g.ctx g).any fun k => k.all fun k => countState u k != 1)) = true := by decide +kernel

/-! Engine programs: 0x12000 and 0x13000 hold data, 0x14000 a descriptor. -/

def engine (c : EngClass) (e : List DWord) (descriptor : List Byte) : State :=
  { base with
    device := { base.device with cells := cellsWrite base.device.cells 0x14000 descriptor }
    progs := [{ probeProg 0 c with e := Vector.ofFn fun k : Fin 16 => e.getD k.val 0 }]
    cur := .prog 2 }
def runs (s : State) (i : Instr) (k : Prog → Bool) : Bool := (s.running i).any k

/-- Reads and writes of a command that go through plainly, and what holds of their parts and the state after. -/
def passesB (rmw : Bool) (p : Prog) (s : State) (reads writes : List (DWord × Nat)) (k : List Plan → List Plan → State → Bool) : Bool :=
  let (rs, v) := planAll s p.ctx .read p.priv false ((engReqs reads).map (keptReq p.held))
  let (ws, v) := planAll v p.ctx .write p.priv true (engReqs writes)
  let u := v.readSegs (p.acct v) none (rs.flatMap (·.segs))
  rs.all (plainB u p.ctx true) && ws.all (plainB u p.ctx rmw) && (!onStack p.cls || rs.all fun q => !q.onTier) && k rs ws u
def goesB : Prog → State → List (DWord × Nat) → List (DWord × Nat) → (List Plan → List Plan → State → Bool) → Bool := passesB false
def changesB : Prog → State → List (DWord × Nat) → List (DWord × Nat) → (List Plan → List Plan → State → Bool) → Bool := passesB true
def first (s : State) (ps : List Plan) : List Byte := (bytesOf s ps).headD []
def yes3 : List Plan → List Plan → State → Bool := fun _ _ _ => true
def eng : WEng := WEng.mk 0 1 2 3
def word4 (n : Nat) : List Byte := toBytes n 4

theorem witness_EngineControl : runs (engine .cart [] []) .eend (fun _ => true) = true ∧
    runs (engine .cart [0, 1, 5] []) (.eloop 2 0xFFF) (fun p => p.ereg 0 == 0 && p.ereg 1 == 1 && decide (1 < (p.ereg 2).toNat)) = true ∧
    runs (engine .cart [0x12000, 0] []) (.ewait 0 1 0) (fun p => !inTwinWindow (p.ereg 0).toNat &&
      goesB p (engine .cart [0x12000, 0] []) [(0x12000, 4)] [] fun rs _ u => wordOf (first u rs) == 0) = true ∧
    runs (engine .cart [0x12000, 0] []) (.ewait 0 1 1) (fun _ => true) = true ∧
    runs (engine .cart [0x12000, 7] []) (.esig 0 1) (fun p => decide (p.scope < 4) && changesB p (engine .cart [0x12000, 7] []) [] [(0x12000, 4)] yes3) = true ∧
    runs { engine .cart [0x12000, 7] [] with progs := (engine .cart [0x12000, 7] []).progs.map fun p => { p with scope := 5, unacked := 1 } }
      (.esig 0 1) (fun p => decide (4 ≤ p.scope) && p.unacked != 0) = true := by decide +kernel
theorem witness_EngineStops : runs (engine .weav [0xFFFFFFFFFFFFFFFF, 0x12001] []) (.add .i32 (w3 4 5 6)) (fun p => p.cls != .cart) = true ∧
    [.cpy 0 false false false eng, .rdst false { eng with ed := 0 }, .merge 0 1 2, .tmma false eng, .smv false eng, .esig 0 3, .ewait 0 3 0, .esig 1 3].all
      (fun i => runs (engine .weav [0xFFFFFFFFFFFFFFFF, 0x12001] []) i fun p => decide (2 ^ 57 ≤ (p.ereg 0).toNat) && (p.ereg 1).toNat % 4 != 0) = true ∧
    runs (engine .cart [] []) (.coll .allReduce 0 0 1 2) (fun p => p.cls != .weav) = true := by decide +kernel

/-- A copy of two rows of eight FP16 elements, raw or to FP32, with the word 9 to store at E3. -/
def copied (cv : Bool) : State := engine .cart [0x12000, 0x13000, 0x14000, 0x12FF0] (toBytes (if cv then 8 else 16) 4 ++ toBytes 2 2 ++ toBytes 1 2 ++
  toBytes (if cv then 2 + 65536 else 63 + 63 * 256) 4 ++ toBytes 9 4 ++ (toBytes 32 8 ++ toBytes 0 8 ++ toBytes 64 8 ++ toBytes 0 24))
def copies (cv sg : Bool) : Bool := runs (copied cv) (.cpy 1 cv sg false eng) fun p => goesB p (copied cv) [(0x14000, 64)] [] fun ds _ s1 =>
  let b := first s1 ds
  let k := copyOf p b
  let ranges (f : Option (Nat × DWord)) (a sy sz : DWord) : List (DWord × Nat) :=
    boxRanges p.table (if cv then some (entOf f) else none) a sy sz k.nx (copyRows k)
  copyOk b k 1 cv && goesB p s1 (ranges k.src 0x12000 k.sy k.sz) (ranges k.dst 0x13000 k.dy k.dz) fun rs ws s2 =>
    (rs.flatMap (·.targets)).all (fun x => !(ws.flatMap (·.targets)).contains x) && ws.length == 2 &&
      (ranges k.dst 0x13000 k.dy k.dz).map (·.1.toNat) == [0x13000, 0x13040] && goesB p s2 [] [(p.ereg 3, 4)] yes3

theorem witness_EngineCopies : copies false true = true ∧ copies true false = true := by decide +kernel

/-- A reduction of two rows of four FP32 elements, with or without the log at 0x15000. -/
def reduced (log : Bool) : State :=
  let s := engine .cart [0x12000, 0x13000, 0x14000, 0x12FF0] (toBytes 2 2 ++ toBytes 4 2 ++ word4 65536 ++ toBytes 16 8 ++ toBytes 16 8 ++ toBytes 0 24)
  { s with ctxs := s.ctxs.map fun x => { x with cfg := { x.cfg with wglog := log, logbase := 0x15000, logsize := 0x1000 } } }
def reduces (log : Bool) : Bool := runs (reduced log) (.rdst true eng) fun p => goesB p (reduced log) [(0x14000, 48)] [] fun ds _ s1 =>
  let b := first s1 ds
  let k := reduceOf p b
  let reads := rowRanges 0x12000 k.sstr k.rows k.cols (entOf k.src).wid
  p.added.isNone && reduceOk b k false && (s1.cfg p.ctx).wglog == log && !touchesTwins (reduceRanges k 0x13000) &&
    if log then goesB p s1 [(0x15000, 16)] [] fun hs _ s2 => decide (64 + (dwordAt (first s2 hs) 0).toNat + 32 + 8 * k.rows * k.cols ≤ 0x1000) &&
      goesB p s2 reads [(0x15040, 32 + 8 * k.rows * k.cols), (0x15000, 16)] fun _ _ m => changesB p m [] [(p.ereg 3, 4)] yes3
    else changesB p s1 reads (rowRanges 0x13000 k.dstr k.rows k.cols (entOf k.dst).wid) fun _ ws _ =>
      decide (ws.flatMap (·.targets)).Nodup

theorem witness_EngineReductions : reduces false = true ∧ reduces true = true := by decide +kernel
/-- The reduction's program has something to change; its barrier word is at 0x12FF0. -/
def reducing (f : Prog → Prog) : State := { reduced false with progs := (reduced false).progs.map f }
theorem witness_EngineReductions_barrier : runs (reducing fun p => { p with scope := 5, unacked := 1 }) (.rdst true eng) (fun p => decide (4 ≤ p.scope) && p.unacked != 0) = true ∧
    runs (reducing fun p => { p with added := some 0x12FF0, unacked := 1 }) (.rdst true eng) (fun p => p.added == some 0x12FF0 && p.unacked != 0) = true ∧
    runs (reducing fun p => { p with added := some 0x12FF0 }) (.rdst true eng) (fun p => p.added == some 0x12FF0 && p.unacked == 0 &&
      changesB p (reducing fun p => { p with added := some 0x12FF0 }) [] [(0x12FF0, 4)] yes3) = true := by decide +kernel

/-- A log at 0x15000 of one record: one row of two FP32 elements at 0x13000. -/
def merging : State :=
  let s := engine .full [0x15000, 0, 0x14000] (toBytes 0x11 8)
  { s with device := { s.device with cells := cellsWrite s.device.cells 0x15000 (toBytes 48 8 ++ toBytes 1 8 ++ List.replicate 48 0 ++
      (toBytes 0x13000 8 ++ toBytes 8 8 ++ toBytes 1 2 ++ toBytes 2 2 ++ List.replicate 28 0)) } }

theorem witness_EngineReductions_merge : runs merging (.merge 0 1 2) (fun p => goesB p merging [(0x14000, 8)] [] fun ds _ s1 =>
    fieldAt (first s1 ds) 0 5 59 == 0 && rndOk (fieldAt (first s1 ds) 0 0 3) && goesB p s1 [(0x15000, 16)] [] fun hs _ s2 =>
      (dwordAt (first s2 hs) 8).toNat == 1 && (match foldLog p 1 0x15040 (Folded.mk s2 [] none) with
        | { s := s3, folds := fs, halt := none } => fs.length == 2 && fs.all (fun f => reducible (entOf (engEntry p f.code))) && !foldsClash p fs &&
          changesB p s3 [] (fs.map (fun f => (f.addr, (entOf (engEntry p f.code)).wid / 8)) ++ [(0x15000, 16)]) fun _ ws _ =>
            decide (ws.flatMap (·.targets)).Nodup
        | _ => false)) = true := by decide +kernel

/-- A product of a row and a column of two FP16 elements, into FP32. -/
def multiplied : State := engine .mill [0x14000, 1, 1, 2] (toBytes 0x12000 8 ++ toBytes 0x12100 8 ++ toBytes 0x13000 8 ++ toBytes 16 8 ++ toBytes 16 8 ++
  toBytes 16 8 ++ (word4 (2 + 256 * 2 + 65536 * 0 + 2 ^ 22) ++ toBytes 0 12))
theorem witness_EngineMatrices : runs multiplied (.tmma false eng) (fun p => goesB p multiplied [(0x14000, 64)] [] fun ds _ s1 =>
    let b := first s1 ds
    let k := mulOf p b
    let rc := operandRows (entOf k.cf) k.c k.ldc false 1 1
    mulOk b k 1 1 2 && goesB p s1 (operandRows (entOf k.af) k.a k.lda k.ta 1 2 ++ operandRows (entOf k.bf) k.b k.ldb (!k.tb) 1 2 ++ rc) rc fun rs ws _ =>
      rs.length == 4 && ws.length == 1 && rc.length == 1 && (scaleRows p.table (entOf k.af) k.a k.lda 2 1).isEmpty) = true := by
  decide +kernel
/-- A product of one row of two FP32 elements with a vector. -/
def vectored : State := engine (.stack 0) [0x14000, 0x12000, 0x12100, 0x13000] (word4 1 ++ word4 2 ++ word4 0x401 ++ word4 1 ++
  (toBytes 64 8 ++ toBytes 64 8 ++ toBytes 32 8 ++ toBytes 0 8))
theorem witness_EngineMatrices_stack : runs vectored (.smv false eng) (fun p => goesB p vectored [(0x14000, 48)] [] fun ds _ s1 =>
    let b := first s1 ds
    let k := smvOf p b
    let rb := operandRows (entOf k.bf) 0x12100 k.ldb false 1 2
    let ra := operandRows (entOf k.af) 0x12000 k.lda false 1 2
    let ry := operandRows (entOf k.yf) 0x13000 k.ldy false 1 1
    smvOk b k false && k.rows == 1 && k.cols == 2 && k.ncol == 1 && goesB p s1 (rb ++ ra) ry (fun rs _ _ => rs.length == 2 && ry.length == 1) &&
      (planAll s1 p.ctx .read p.priv false (engReqs rb)).1.all fun q => q.req.cause == 0 && !outsideStack p.unit_ q) = true := by decide +kernel

/-- An all-reduce of two FP32 elements, in a group of n ranks. -/
def gathered (n : Nat) : State :=
  let s := engine .weav [0x12000, 2, 0x14000] (word4 5 ++ word4 65536 ++ toBytes 0 24)
  { s with launches := s.launches.map fun l => { l with group := { Group.alone with nrank := n, links := [(0, 1, 1), (0, 0, 0)] } } }
def joins (s : State) (k : Prog → Launch → CollPeer → Bool) : Bool := runs s (.coll .allReduce 0 0 1 2) fun p => goesB p s [(0x14000, 32)] [] fun ds _ s1 =>
  (s.launch? p.launch).any fun l => k p l (collPart p l .allReduce 0 0x14000 0x12000 2 (first s1 ds))
def part0 : CollPeer := collPart (probeProg 0 .weav) (probeLaunch 0) .allReduce 0 0x14000 0x12000 2 (word4 5 ++ word4 65536 ++ toBytes 0 24)
def within (p : Prog) : Prog := { p with status := .collective (.coll .allReduce 0 0 1 2) part0 [] [] }
def under (s : State) : State := { s with progs := s.progs.flatMap fun p => [p, { within p with id := 3 }] }

theorem witness_EngineCollectives : joins (gathered 1) (fun p l own => !collBusy (gathered 1) p l own.tag && l.group.nrank == 1 && l.group.rank == 0 &&
      own.ok && own.count * (Ent.of own.bfmt).wid % 8 == 0 && goesB p (gathered 1) [(0x12000, 8)] [(0x12000, 8)] yes3) = true ∧
    joins (gathered 2) (fun p l own => !collBusy (gathered 2) p l own.tag && decide (1 < l.group.nrank)) = true ∧
    joins (under (gathered 2)) (fun p l own => collBusy (under (gathered 2)) p l own.tag) = true := by decide +kernel

/-- The part of another rank. -/
def part1 (n : Nat) : CollPeer := { part0 with rank := n, data := [0x3F800000, 0] }
def joining (n : Nat) : State := { gathered n with progs := (gathered n).progs.map within }

theorem witness_EngineCollectives_join : ((joining 2).prog? 2).any (fun p => p.status == .collective (.coll .allReduce 0 0 1 2) part0 [] [] && !p.saved &&
      (part1 1).ok && part0.ok && collAgree part0 (part1 1) && part0.rnd != 6 && part0.op == .allReduce && part0.red == 0 &&
      ((joining 2).launch? 0).any fun l =>
        let part (r : Nat × Nat) : List (DWord × Nat) := if r.2 = 0 then [] else [(0x12000 + BitVec.ofNat 64 r.1, r.2)]
        ((List.range 2).all fun a => (List.range 2).all fun b => ringRank l.group a != ringRank l.group b || a == b) &&
        goesB p (joining 2) (part (elemSpan 32 (collReads part0 l.group))) (part (elemSpan 32 (0, 2))) yes3) = true ∧
    ((joining 2).launch? 0).any (fun l => (part1 1).tag == part0.tag && decide ((part1 1).rank < l.group.nrank) && (part1 1).rank != l.group.rank &&
      l.group.nrank == 2) = true ∧
    ((joining 3).launch? 0).any (fun l => l.group.nrank == 3 && !decide ((part1 3).rank < l.group.nrank)) = true ∧
    collAgree part0 { part1 1 with count := 1 } = false := by decide +kernel

/-! Spans. -/

/-- A span over the launch's 32 items: v4 is U, v5 and v6 are A; p1 is U, p2 is L, p3 to p6 are ranges of X. -/
def aSpan : Span :=
  { newSpan (probeLaunch 0) 0 5 with
    regs := vset (vset (vset (Vector.replicate 64 (.u 0)) 4 (.u 7)) 5 (.a (Aff.mk 1 2 0 0))) 6 (.a (Aff.mk 1 2 3 0))
    preds := [(3, 0, 8), (4, 8, 32), (5, 8, 16), (6, 40, 50), (7, 0, 32)].foldl (fun v (n, lo, hi) => vset v n (.range .x lo hi))
      (vset (vset (Vector.replicate 32 (.u false)) 1 (.u true)) 2 (.l 5))
    joins := [JoinEntry.mk 0 9] }
def spanning (p : Span) : State := { base with gangs := [], spans := [p], cur := .span 5 }
def aCtx : Ctx := newCtx 0 false probeBlock
def guardBy (gp : BitVec 5) (gn : Bool) : Option XWord := some { x0 with ge := true, gn := gn, gp := gp }

theorem witness_SpanWords : (spanning aSpan).spanTurn aSpan (probeLaunch 0) aCtx :=
  ⟨by decide, by decide, by decide, by decide, by decide⟩
theorem witness_SpanWords_legal : ([.modesetRm false 2 none, .movi (WMovi.mk false 9 3 none), .add .i32 (w3 9 4 4), .add .n32 (w3 9 4 5),
    .add .i32 (w3 9 5 6), .add .i32 { w3 9 4 4 with x := guardBy 1 true }, .exit false none, .exit false (guardBy 3 false), .exit false (guardBy 5 true)] : List Instr).all (fun i =>
      (formOf (widthOf aCtx.fmtTable aSpan.fmt) (probeLaunch 0).hdr.acc i).legal) = true ∧ stripWord (.ld (mem 4 8 0 2)) = true := by decide
theorem witness_SpanWords_unfit : (∀ n, vget aSpan.regs 5 (.u 0) ≠ .u n) ∧ (WNoLa.mk false 9 4 none).a.toNat = 4 := by
  rw [show vget aSpan.regs 5 (.u 0) = .a (Aff.mk 1 2 0 0) by decide]; simp
theorem witness_SpanWords_values : vget aSpan.regs 4 (.u 0) = .u 7 ∧ vget aSpan.regs 5 (.u 0) = .a (Aff.mk 1 2 0 0) ∧
    vget aSpan.preds 1 (.u false) = .u true ∧ vget aSpan.preds 2 (.u false) = .l 5 ∧ vget aSpan.preds 3 (.u false) = .range .x 0 8 ∧
    vget aSpan.preds 4 (.u false) = .range .x 8 32 ∧ vget aSpan.preds 5 (.u false) = .range .x 8 16 ∧
    vget aSpan.preds 6 (.u false) = .range .x 40 50 ∧ vget aSpan.preds 7 (.u false) = .range .x 0 32 ∧
    aSpan.box.lowOn .x = 0 ∧ aSpan.box.lenOn .x = 32 ∧ aSpan.joins.length = 1 ∧ aSpan.pc = 0 := by decide
theorem witness_SpansDealtOut : (spanning aSpan).launch? aSpan.launch = some (probeLaunch 0) ∧ probeHeader.gx = 32 ∧
    stageBox (probeLaunch 0) aSpan.stage = Box.mk 0 0 0 32 1 1 ∧ aSpan.box = Box.mk 0 0 0 32 1 1 := by decide

/-! Events. -/

/-- The running gang and its strip changed. -/
def gangWith (f : Gang → Gang) (g : Strip → Strip) : State := (withStrip g).mapGang 1 f
def running_ (s : State) (k : Gang → Strip → Launch → Bool) : Bool := (s.resident 1 0).any fun (g, t, l) => k g t l
def recAt (op : RecOp) (a : DWord) : State := gangWith (fun g => { g with recompute := [RecArrival.mk 0 op a] }) fun t => { t with wait := .phase 16 0 8 }

theorem witness_PhasesAndResults : running_ (gangWith (fun g => { g with bars := vset g.bars 3 (Bar.mk 7 [0]) }) fun t => { t with wait := .phase 3 7 4 })
      (fun g t _ => (g.bar 3).arrived == [t.idx] && t.replay.isEmpty && t.away.isEmpty) = true ∧
    running_ base (fun g t _ => !(g.bar 3).arrived.contains t.idx && !t.retired) = true := by decide
theorem witness_PhasesAndResults_recompute : running_ (recAt .replend 0) (fun g t _ => g.recompute == [RecArrival.mk 0 .replend 0] &&
      t.wait == .phase 16 0 8 && !t.retired && t.replay.isEmpty && t.away.isEmpty && g.strips == [t]) = true ∧
    running_ (recAt .ckpt 0x12000) (fun g t _ =>
      let (ps, u) := planAll (recAt .ckpt 0x12000) g.ctx .write t.priv true
        [laneReq 0 0x12000 64 (slotHeader g) [], laneReq 1 (0x12040 + BitVec.ofNat 64 (96 * t.idx)) 96 (genBytes t) []]
      ps.all (plainB u g.ctx false) && decide (ps.flatMap (·.targets)).Nodup) = true ∧
    running_ (recAt .replay 0x12000) (fun g t _ =>
      let (p, u) := planReq (recAt .replay 0x12000) g.ctx .read t.priv false (laneReq 0 0x12000 4 [] [])
      plainB u g.ctx true p && !(wordOf (p.targets.map u.byteAt)).getLsbD t.idx) = true ∧
    running_ ((gangWith (fun g => { g with recompute := [RecArrival.mk 0 .ckpt 0x12000, RecArrival.mk 0 .replay 0x12000] }) fun t =>
      { t with wait := .phase 16 0 8 })) (fun g t _ => g.recompute.length == 2 && !t.priv && handlerOf base g.ctx != 0) = true := by decide +kernel
def landed : Landing := Landing.mk [RegPart.mk 9 0xFF (Vector.replicate 32 7) false] 2 1 none

theorem witness_PhasesAndResults_return : running_ (withStrip fun t => { t with outstanding := [landed] }) (fun _ t _ => !t.halted && !t.retired &&
    t.outstanding == [landed] && t.away.isEmpty && t.lateFree == 0 && landed.parts.all (fun p => decide (p.reg < 80)) && t.replay.isEmpty && decide (landed.parts.map (·.reg)).Nodup) = true := by decide

/-- The strip waits to issue a word, and the program to perform one. -/
def waiting (r : Reason) (i : Instr) : State := withStrip fun t => { t with wait := .again r i }
def stalled (c : EngClass) (i : Instr) : State := { engine c [0x12000] [] with progs := (engine c [0x12000] []).progs.map fun p => { p with status := .waiting i } }

theorem witness_WaitsEnd : ([.wait .eq (WAddr2.mk false 4 6 none), .rdv (WSrc.mk false 7 true none), .qget false 32 none, .fork forkWord] : List Instr).all (fun i =>
      ((waiting .cond i).strip? 1 0).any fun t => t.wait == .again .cond i) = true ∧
    ((waiting .intake (.launch (WAddr.mk false 4 none))).strip? 1 0).any (fun t => t.wait == .again .intake (.launch (WAddr.mk false 4 none))) = true ∧
    ((stalled .cart (.ewait 0 1 0)).prog? 2).any (fun p => p.status == .waiting (.ewait 0 1 0)) = true ∧
    (base.strip? 1 0).any (fun t => t.wait == .none) = true := by decide

/-- A load of a twin page that waits: the twin window's page 0x12 maps frame 0x1000, in the twin pool, whose first sector is
OPEN or not; its read stands at its home or is still to be sent. -/
def twinReq : LaneReq := laneReq 0 (BitVec.ofNat 64 (twinBase + 0x12000)) 4 [] []
def twinPage (open_ : Bool) : State :=
  let s := twinned.mapCtx 0 fun x => { x with cfg := { x.cfg with twto := 1 } }
  if open_ then { setCount s (s.countAddr 0x1000000) 1 3 with clock := 0x1000000000000 } else s
def twinWait (open_ there : Bool) : State :=
  let s := twinPage open_
  s.mapStrip 1 0 fun t => { t with wait := .access [{ plainLoad with
    lanes := [{ twinReq with held := if there then (planReq s 0 .read false false twinReq).1.segs else [] }] }] }

theorem witness_WaitsEnd_twin : [(true, true), (true, false), (false, true), (false, false)].all (fun (o, h) => running_ (twinWait o h) fun g t _ =>
    match t.wait with
    | .access [a] => (match a.lanes with
      | [r] =>
        let (p, u) := planReq (twinWait o h) g.ctx .read a.priv false r
        a.kind == .load && a.entry.isNone && !a.uniform && !a.last && !a.flt && decide (0 < a.regs) && r.cause == 0 && !t.parked && !t.priv &&
        t.away.isEmpty && t.replay.isEmpty && !a.replayed && r.held.isEmpty == !h && p.req.cause == 0 && (match p.segs with
          | [seg] => leafTwin seg.leaf && !leafTw seg.leaf && segTrouble u g.ctx true seg == .none && primalMatches u g.ctx seg &&
            (match blocksOf u seg with
              | [b] => (countState u b.key == 1) == o && (!o || twinLate (twinWait o h) g.ctx a.since)
              | _ => false)
          | _ => false)
      | _ => false)
    | _ => false) = true := by decide +kernel

/-- A program that waits at a copy whose source is that twin block. -/
def twinCopy : State :=
  let s := twinPage true
  let d := word4 4 ++ toBytes 1 2 ++ toBytes 1 2 ++ word4 (63 + 63 * 256) ++ toBytes 0 52
  { s with
    device := { s.device with cells := cellsWrite s.device.cells 0x14000 d }
    progs := [{ probeProg 0 .cart with
      e := vset (vset (vset (Vector.replicate 16 0) 0 (BitVec.ofNat 64 (twinBase + 0x12000))) 1 0x13000) 2 0x14000
      status := .waiting (.cpy 0 false false false eng) }] }

theorem witness_WaitsEnd_program : (twinCopy.prog? 2).any (fun p => !(waitsOn twinCopy p).isEmpty && twinLate twinCopy p.ctx p.since &&
      mayRun twinCopy p.ctx && !p.saved) = true ∧
    ((stalled .cart (.ewait 0 1 0)).prog? 2).any (fun p => (waitsOn base p).isEmpty) = true := by decide +kernel

/-! Residency and the schedule. -/

def roomB (s : State) (g : Gang) (b except : Nat) : Bool :=
  decide (b < 8 * s.dev.groups) && decide (benchSum s g b except Load.strips ≤ 64) && decide (benchSum s g b except Load.scratch ≤ 458752) &&
  decide (benchSum s g b except Load.tiles ≤ 64) && decide (benchSum s g b except Load.lines ≤ 8192) && imagesFit s g
def unseated (saved : Bool) (f : Strip → Strip) : State := gangWith (fun g => { g with place := none, saved := saved }) f
def cored (s : State) : State := withHdr (fun h => { h with cores := true }) s
def ofGang (s : State) (k : Gang → Launch → Bool) : Bool := (s.gang? 1).any fun g => (s.launch? g.launch).any (k g)

theorem witness_Residency : ofGang (unseated false id) (fun g l => g.place.isNone && !g.saved && mayRun base g.ctx && !l.hdr.cores &&
      roomB (unseated false id) g 5 g.id && !decide (200 < 8 * (unseated false id).dev.groups)) = true ∧
    ofGang base (fun g l => g.place.isSome && mayRun base g.ctx && !l.hdr.cores && g.strips.all fun t => !t.parked && t.away.isEmpty &&
      !mustReturn base g t) = true ∧
    ofGang (cored base) (fun g l => g.place.isSome && mayRun (cored base) g.ctx && l.hdr.cores &&
      (cored base).gangs.all fun o => o.strips.all fun t => !mustReturn (cored base) o t && !t.parked && t.away.isEmpty) = true ∧
    ofGang (unseated true id) (fun g l => g.saved && !l.hdr.cores && roomB (unseated true id) g 5 g.id && g.strips.all fun t => t.wait == .none && t.away.isEmpty) = true ∧
    ofGang (cored (unseated true id)) (fun g l => g.saved && l.hdr.cores && g.strips.all fun t => t.wait == .none) = true := by
  decide +kernel
/-- Gangs 1 and 7 of a CORES launch wait for benches; bench 5 is asked for, and gang 7 goes to bench 6. -/
def twoCores : State := (cored (unseated false id)) |> fun s => { s with gangs := s.gangs.flatMap fun g => [g, { g with id := 7 }] }
theorem witness_Residency_cores : ofGang twoCores (fun g l =>
    let gs := g :: twoCores.gangs.filter fun o => o.launch == g.launch && o.id != g.id
    let at_ (n : Nat) : Nat := if n = 1 then 5 else 6
    l.hdr.cores && decide (twoCores.gangs.map (·.id)).Nodup && gs.length == 2 && gs.all (·.place.isNone) &&
    (freeImages twoCores g.ctx (gs.map Gang.bare).sum).length == (gs.map Gang.bare).sum &&
    gs.all fun g =>
      let sum (f : Load → Nat) : Nat :=
        ((twoCores.gangs.filter fun o => o.benchNow == some (at_ g.id)).map fun o => f (gangLoad twoCores o)).sum +
        ((gs.filter fun o => at_ o.id == at_ g.id).map fun o => f (gangLoad twoCores o)).sum
      decide (at_ g.id < 8 * twoCores.dev.groups) && decide (sum Load.strips ≤ 64) && decide (sum Load.scratch ≤ 458752) &&
      decide (sum Load.tiles ≤ 64) && decide (sum Load.lines ≤ 8192)) = true := by decide +kernel
/-- The strip waits with a load of VA 0x12000; it has an image. -/
def reloads : State := unseated true fun t => { t with wait := .access [plainLoad] }
theorem witness_Residency_resume : ofGang reloads (fun g _ => g.saved && g.strips.length == 1 && g.strips.all (fun t =>
      t.wait == .access [plainLoad] && !t.parked && t.image != 0 && t.away.isEmpty && t.replay.isEmpty) &&
    (let (ps, u) := planAll reloads g.ctx .read false false plainLoad.lanes
    ps.all (plainB u g.ctx true))) = true := by decide +kernel
/-- The strip's register 5 is L, and line 5 of its image has been evicted, or not. -/
def evicted (away : List Nat) : State := ramp.mapStrip 1 0 fun t => { t with away := away }
theorem witness_Residency_lines : ((evicted []).strip? 1 0).any (fun t => t.image != 0 && t.caches (t.image / 128 + 5) &&
      ((evicted []).gangs.flatMap fun o => (o.strips.filter (·.caches (t.image / 128 + 5))).map fun w => (o.id, w.idx)) == [(1, t.idx)] &&
      (match vget t.regs 5 (.u 0) with
       | .l _ => true
       | _ => false)) = true ∧
    ((evicted [5]).strip? 1 0).any (fun t => t.away == [5]) = true := by decide +kernel

/-- Two stages: gang 1 of stage 0 is idle, and gang 7 waits for a bench in stage 1, pre-empted or new. -/
def idleStage (saved : Bool) : State :=
  let s := (withHdr (fun h => { h with stages := 2 }) (withStrip fun t => { t with wait := .again .queue (.qget false 4 none) }))
  { s with
    launches := s.launches.map fun l => { l with queues := [StageQueue.mk 4 [] false, StageQueue.mk 4 [[1]] false] }
    gangs := s.gangs.flatMap fun g => [g, { g with id := 7, stage := 1, place := none, saved := saved,
                                                   strips := g.strips.map fun t => { t with wait := .none } }] }

theorem witness_Residency_drover : [true, false].all (fun b =>
    let z := weighStages 0 (idleStage b)
    ofGang z (fun g l => (waitingGangs z l 1 0).map (fun o => (o.id, o.saved)) == [(7, b)] && (waitingGangs z l 0 0).isEmpty && !l.hdr.cores &&
    z.launches == [l] && mayRun z l.ctx && g.resident 0 && (stageQueue l g.stage).recs.isEmpty && !(stageQueue l g.stage).closed &&
    g.strips.all (fun t => inQget t && !t.parked && t.away.isEmpty) && (z.gang? 7).any fun o => roomB z o g.bench g.id &&
      o.strips.all fun t => t.away.isEmpty && t.wait == .none)) = true := by decide +kernel
def half (id lo n : Nat) : Span := { aSpan with id := id, box := Box.mk lo 0 0 n 1 1, waiting := true }

theorem witness_JoinsAndClosing : ({ base with spans := [half 5 0 8, half 6 8 24] } : State).spans.all (fun p => p.launch == 0 && p.waiting &&
      p.joins.head?.map (·.group) == some 9 && decide (0 < p.box.lenOn .x) && decide (0 < p.box.lenOn .y) && decide (0 < p.box.lenOn .z)) = true ∧
    (spanning aSpan).spans.all (fun p => p.joins.any (·.group == 9) && !p.waiting) = true ∧
    (half 5 0 8).box.lowOn .x + (half 5 0 8).box.lenOn .x = (half 6 8 24).box.lowOn .x ∧ (half 5 0 8).regs = (half 6 8 24).regs ∧
    (half 5 0 8).box.lowOn .y = (half 6 8 24).box.lowOn .y ∧ (half 5 0 8).box.lenOn .z = (half 6 8 24).box.lenOn .z := by decide
theorem witness_JoinsAndClosing_drained : ofGang (idleStage false) (fun g l => g.strips.all fun t => inQget t && (stageQueue l g.stage).recs.isEmpty) = true ∧
    ({ base with gangs := [] }.launch? 0).isSome = true ∧
    ofGang (withStrip fun t => { t with wait := .again .queue (.qget false 4 none) }) (fun g l => g.place.isSome && l.id == g.launch &&
      (stageQueue l g.stage).recs.isEmpty && !(stageQueue l g.stage).closed && g.strips.all inQget) = true := by decide

/-! Nodes and commands. -/

/-- A node in slot 5 whose record stands at 0x13000 and whose kernel header stands at 0x14000. -/
def aRecord (box : Box) : NodeRec := NodeRec.mk 0x14000 0 0 box 0 3 5 0 []
def aNode (box : Box) : Node := Node.mk 0x13000 (aRecord box) .waiting (some 4)
def headerBytes (word : Nat) : List Byte := word4 word ++ word4 (16 + 256 * 2 + 65536 * 1) ++ word4 256 ++ toBytes 8 2 ++ toBytes 2 2 ++ word4 1 ++ word4 0 ++ word4 0x100 ++ toBytes 0 52
def noded (word : Nat) (box : Box) (state : NodeState) (succs : List Nat) : State :=
  { base with
    device := { base.device with cells := cellsWrite base.device.cells 0x14000 (headerBytes word) }
    gangs := []
    ctxs := base.ctxs.map fun x => { x with
      cfg := { x.cfg with errlog := 0x80000, errsize := 64, pool := 0x90000 }
      slots := [Slot.mk 5 0 (some { aNode box with state := state, rcd := { aRecord box with succs := succs } }), Slot.mk 6 2 none] } }
def box1 : Box := Box.mk 0 0 0 8 2 1
def ofCtx (s : State) (k : Ctx → Bool) : Bool := (s.ctx? 0).any k

def writesTo (s : State) (a : DWord) (k : Plan → State → Bool) : Bool :=
  let (p, u) := planReq s 0 .write true true (laneReq 0 (a + 0x44) 2 [3, 0] [])
  k p u

theorem witness_NodeRecords : writesTo (noded 4 box1 .running []) 0x13000 (fun p u => plainB u 0 false p) = true ∧
    writesTo base 0x40000000 (fun p _ => p.req.cause != 0 && p.segs.isEmpty) = true ∧
    ofCtx (noded 4 box1 .running []) (fun x => decide (32 ≤ x.cfg.errsize.toNat) && decide (x.cfg.errlog.toNat + 64 ≤ x.cfg.pool.toNat)) = true ∧
    writesTo (atTarget 3 base) 0x200000 (fun p u => p.req.cause == 0 && !p.segs.isEmpty && p.segs.all fun g => !leafTwin g.leaf &&
      segTrouble u 0 false g == .waits) = true ∧
    ofCtx (noded 4 box1 .running [6]) (fun x => (x.slot 5).node.any (fun n => n.state == .running && n.rcd.token == 0 && n.rcd.succs == [6]) &&
      (x.slot 6).node.isNone) = true := by decide +kernel
theorem witness_NodeRecords_lost : deviceRead { base with device := base.device.addPoison 0 32 } 0 0 8 = none ∧
    ofCtx (noded 4 box1 .running []) (fun x => !tdiRefuses (noded 4 box1 .running []) 0 x.cfg.pool.toNat 8 &&
      !(noded 4 box1 .running []).device.poisoned x.cfg.pool.toNat 8 && !tdiRefuses (noded 4 box1 .running []) 0 x.cfg.errlog.toNat 32) = true := by
  decide +kernel
/-- Slot 6, which the node of slot 5 names, has a node that waits, and its counter. -/
def behind (n : Nat) : Ctx := ((noded 4 box1 .running [6]).ctxs.headD (newCtx 0 false probeBlock)).setSlot
  (Slot.mk 6 (BitVec.ofNat 32 n) (some { aNode box1 with readyAt := none }))
theorem witness_NodeRecords_counts : [(2, true), (0, false)].all (fun (n, more) => ((behind n).slot 6).node.any (fun m => m.state == .waiting && m.readyAt.isNone &&
      m.rcd.token == 0 && m.rcd.succs.isEmpty) && (decide (0 < (((behind n).slot 6).counter - 1).toInt) == more) &&
      (decide ((((behind n).slot 6).counter - 1).toInt < 0) == !more)) = true ∧ ((behind 1).slot 6).counter - 1 = 0 ∧ (behind 1).fatal = none := by
  decide
/-- The node of slot 5 starts with a header and a group that are read, as a launch. -/
def startsAs (s : State) (k : Header → Launch → State → Bool) : Bool := ofCtx s fun x =>
  (x.slot 5).node.any fun n =>
    let u := s.mapCtx 0 fun _ => { x.setSlot (Slot.mk 5 0 (some { n with state := .running })) with starting := none }
    n.state == .waiting && n.readyAt == some 4 && n.rcd.token == 0 && n.rcd.succs.isEmpty && x.fatal.isNone && x.pending.isNone &&
    (match readHeader (x.startAsked n) n.rcd.acct u 0 n.rcd.header x.fmtTable with
      | (.got (some h), v) => (match readGroup (x.startAsked n) n.rcd.acct v 0 n.rcd.pgt with
        | (.got (some g), z) =>
          let o := writeState z 0 n.addr .running 0 (some 5) n.rcd.acct
          k h (Launch.mk o.nextId 0 5 n.addr n.rcd h g ((List.range h.stages).map fun i => StageQueue.mk (h.depths.getD i 64) [] false) false
            (Vector.replicate 4 []) [] none) o
        | _ => false)
      | _ => false)
def readsNone {α : Type} (r : Reach (Option α)) : Bool := match r with
  | .got none => true
  | _ => false
def readsLate {α : Type} (r : Reach (Option α)) : Bool := match r with
  | .waits _ => true
  | _ => false

theorem witness_NodesRun : startsAs (noded 4 box1 .waiting []) (fun h l z => h.stages == 1 && !h.cores && l.group.nrank == 1 && z.dev.ready) = true ∧
    startsAs (noded 0x204 box1 .waiting []) (fun h l _ => h.cores && launchFits l) = true ∧
    startsAs (noded 4 (Box.mk 0 0 0 0 2 1) .waiting []) (fun _ _ _ => true) = true ∧
    startsAs (noded 4 (Box.mk 0 0 0 (2 ^ 32) 2 (2 ^ 32)) .waiting []) (fun _ _ _ => true) = true ∧
    readsNone (readHeader [] 0 base 0 0x14001 aCtx.fmtTable).1 = true ∧ readsNone (readGroup [] 0 base 0 1).1 = true ∧
    readsLate (readHeader [] 0 (atTarget 3 base) 0 0x200000 aCtx.fmtTable).1 = true ∧
    readsLate (readGroup [] 0 (atTarget 3 base) 0 0x200000).1 = true := by decide +kernel
def launchedNode : State :=
  let s := noded 4 box1 .running []
  { s with launches := base.launches.map fun l => { l with slot := 5 } }

theorem witness_NodesRun_complete : (launchedNode.launch? 0).any (fun l =>
    l.slot == 5 && ofCtx (noded 4 box1 .running []) fun x => (x.slot l.slot).node.any fun n => n.state == .running && n.rcd.succs.isEmpty) = true := by decide

/-- The queue of command processor 0 holds one entry at 0x10000 of host memory: an operation with two operands. -/
def asked (op : Nat) (a b : Nat) : State :=
  { noded 4 box1 .waiting [] with
    host := cellsWrite base.host 0x10000 (toBytes op 8 ++ toBytes a 8 ++ toBytes b 8 ++ toBytes 0 40)
    dev := { base.dev with q0 := Queue.mk 0x10000 8 0 1 false false [] } }
def entryFits (s : State) (op : Nat) (k : List Byte → Bool) : Bool := (s.command false op).any fun e => entryClean e && k e
def withBlock (s : State) : State :=
  { s with device := { s.device with cells := cellsWrite s.device.cells 0x70000 (toBytes 0x200001 8 ++ toBytes 0x20000 8 ++ toBytes 0 40 ++
      (word4 0xFFFFF ++ word4 3 ++ toBytes 0x90000 8 ++ toBytes 0x4000000 8 ++ toBytes 0 48)) } }

theorem witness_HostCommands : base.command false 1 = none ∧ entryFits (withBlock (asked (1 + 5 * 65536) 0x70000 0)) 1 (fun e =>
      ((asked 1 0 0).ctx? (natAt e 2 1)).isNone && (readBlock (withBlock (asked 1 0 0)) (natAt e 2 1) (dwordAt e 8)).isSome) = true ∧
    entryFits (asked (1 + 5 * 65536) 0x70001 0) 1 (fun e => (readBlock (asked 1 0 0) (natAt e 2 1) (dwordAt e 8)).isNone) = true ∧
    [2, 5, 6, 7].all (fun op => entryFits (asked op 7 64) op fun e => ofCtx (asked op 7 64) fun x => natAt e 2 1 == x.id && !x.cp) = true ∧
    entryFits (withBlock (asked 3 0x70000 0)) 3 (fun e => (readBlock (withBlock (asked 3 0x70000 0)) (natAt e 2 1) (dwordAt e 8)).isSome) = true ∧
    ((asked (2 + 256) 0 0).command false 2).any (fun e => natAt e 1 1 != 0) = true ∧
    entryFits (asked (2 + 9 * 65536) 0 0) 2 (fun e => ((asked 2 0 0).ctx? (natAt e 2 1)).isNone) = true ∧
    entryFits { asked 2 0 0 with ctxs := (asked 2 0 0).ctxs.map fun x => { x with cp := true } } 2 (fun _ => true) = true := by decide +kernel
theorem witness_HostCommands_cancel : entryFits { asked 5 7 0 with ctxs := (asked 5 7 0).ctxs.map fun x => { x with
      slots := [Slot.mk 5 0 (some { aNode box1 with rcd := { aRecord box1 with token := 7 } })] } } 5 (fun e => natAt e 8 2 == 7) = true ∧
    entryFits (asked 8 0x30000 0) 8 (fun _ => true) = true ∧ entryFits (asked 9 0x1000000 64) 9 (fun e => (dwordAt e 8).toNat % 32 == 0) = true ∧
    entryFits { asked 9 0x1000000 64 with dev := { (asked 9 0 0).dev with twpool := 0x00010001 } } 9 (fun e =>
      decide ({ asked 9 0 0 with dev := { (asked 9 0 0).dev with twpool := 0x00010001 } }.poolBase ≤ (dwordAt e 8).toNat) &&
      decide ((dwordAt e 8).toNat + (dwordAt e 16).toNat ≤ { asked 9 0 0 with dev := { (asked 9 0 0).dev with twpool := 0x00010001 } }.frameEnd)) = true := by
  decide +kernel

/-- The launch of context 0 has a write to a peer that is not acknowledged, of strip 0 or of one that has retired. -/
def unacknowledged : State :=
  { asked 2 0 0 with
    launches := base.launches.map fun l => { l with unacked := [.strip 1 3] } }
theorem witness_HostCommands_late : entryFits unacknowledged 2 (fun e => natAt e 2 1 == 0) = true ∧
    unacknowledged.launches.all (fun l => l.ctx == 0 && !l.unacked.isEmpty && unacknowledged.launches.all fun m => m.id != l.id || m == l) = true ∧
    (asked 2 0 0).launches.all (fun l => l.unacked.isEmpty && (asked 2 0 0).gangs.isEmpty) = true ∧
    ofCtx (asked 2 0 0) (fun x => x.slots.any (·.node.isSome)) = true ∧
    (deviceRead (asked 1 0 0) 0 0x70000 128).isSome = true ∧ deviceRead { base with device := base.device.addPoison 0 32 } 0 0 128 = none := by
  decide +kernel

/-- A record at 0x13000 to be submitted, for slot n with a number of predecessors. -/
def submits (n pred : Nat) : State :=
  let s := asked 4 0x13000 0
  { s with device := { s.device with cells := cellsWrite s.device.cells 0x13000 (toBytes 0x14000 8 ++ toBytes 0 24 ++ toBytes 0 12 ++
      (word4 8 ++ word4 2 ++ word4 1 ++ word4 0 ++ word4 (n + 65536 * pred)) ++ toBytes 0 16) } }

theorem witness_HostCommands_submit : [(5, 0), (7, 0), (7, 2)].all (fun (n, pred) => entryFits (submits n pred) 4 fun e =>
      let (p, u) := planReq (submits n pred) 0 .read true false (laneReq 0 (dwordAt e 8) 80 [] [])
      let b := p.targets.map u.byteAt
      let v := u.readSegs (recordOf b).acct none p.segs
      let (w, _) := planReq v 0 .write true true (laneReq 0 (dwordAt e 8 + 0x44) 4 (List.replicate 4 0) [])
      plainB u 0 true p && plainB v 0 false w && (recordOf b).slot == n && (recordOf b).pred == pred && (recordOf b).token == 0 && natAt b 0x40 2 == 0 &&
        natAt b 0x44 4 == 0 && ofCtx (submits n pred) fun x => (x.slot 7).node.isNone && (x.slot 5).node.isSome) = true ∧
    entryFits (asked 4 0x40000000 0) 4 (fun e =>
      let (p, _) := planReq (asked 4 0x40000000 0) 0 .read true false (laneReq 0 (dwordAt e 8) 80 [] [])
      p.req.cause != 0 && p.segs.isEmpty) = true := by decide +kernel
/-- The record stands at VA 0x400000, which may only be read, or at a peer. -/
def submitsAt (a : Nat) : State :=
  let s := atTarget 3 (asked 4 a 0)
  { s with device := { s.device with cells := cellsWrite s.device.cells 0x400010 (toBytes 0x0B 8) } }
theorem witness_HostCommands_answers : entryFits (submitsAt 0x200000) 4 (fun e =>
      let (p, u) := planReq (submitsAt 0x200000) 0 .read true false (laneReq 0 (dwordAt e 8) 80 [] [])
      p.req.cause == 0 && !p.segs.isEmpty && ((submitsAt 0x200000).queue false).asked.isEmpty &&
        p.segs.all fun g => !leafTwin g.leaf && segTrouble u 0 true g == .waits) = true ∧
    entryFits (submitsAt 0x400000) 4 (fun e =>
      let (p, v) := planReq (submitsAt 0x400000) 0 .read true false (laneReq 0 (dwordAt e 8) 80 [] [])
      let (w, _) := planReq (v.readSegs (recordOf (p.targets.map v.byteAt)).acct none p.segs) 0 .write true true
        (laneReq 0 (dwordAt e 8 + 0x44) 4 (List.replicate 4 0) [])
      plainB v 0 true p && w.req.cause != 0) = true := by decide +kernel
theorem witness_ManagementWindow : (asked 1 0 0).queue false = Queue.mk 0x10000 8 0 1 false false [] ∧ (8 : Nat) = 2 ^ 3 ∧ 0x10000 % 64 = 0 ∧
    (base.queue false).head = (base.queue false).tail ∧ (∀ i < 16, (base.queue false).size ≠ 2 ^ i) ∧
    [((3 : Nat), (9 : BitVec 128))].find? (·.1 == 3) = some (3, 9) ∧ base.dev.routes.find? (·.1 == 3) = none := by decide

/-! Links, accesses from outside, boot, trust, and the machine. -/

theorem witness_LinkEvents : base.port 0 = .up ∧ (withPort (.retrain 5) base).port 0 = .retrain 5 ∧ (withPort .failed base).port 3 = .failed ∧
    (∀ d, (withPort .failed base).port 3 ≠ .retrain d) ∧ base.clock = 0 ∧ base.cpWrites = [] ∧ base.progs = [] ∧
    (∀ g ∈ base.gangs, ∀ t ∈ g.strips, t.wait = .none) ∧ vget base.dev.fabricPorts 11 false = true := by
  refine ⟨by decide +kernel, by decide +kernel, by decide +kernel, fun d => ?_, by decide +kernel, by decide +kernel, by decide +kernel,
    by decide +kernel, by decide +kernel⟩
  rw [show (withPort .failed base).port 3 = .failed by decide +kernel]; simp
/-- The strip's load waits at a place of the second tier or of a peer. -/
def awaits (x : Target) (s : State) : State := s.mapStrip 1 0 fun t => { t with wait := .access [outward (Seg.mk 0x200000 4 0x1001B x)] }
def holdsAt (x : Target) (s : State) (k : Gang → Strip → Bool) : Bool := running_ s fun g t _ =>
  t.wait == .access [outward (Seg.mk 0x200000 4 0x1001B x)] && !t.parked && !t.priv && t.away.isEmpty && !leafTw 0x1001B && !leafTwin 0x1001B && k g t
theorem witness_LinkEvents_waiting :
    (let s := awaits (.tier 0) (withPort (.retrain 5) (atTarget 1 base))
    holdsAt (.tier 0) s fun g t => s.gangs == [g] && g.strips == [t] && s.progs.isEmpty && s.cpWrites.isEmpty && s.port 0 == .retrain 5 &&
      s.tier.dirty.isEmpty && s.clock == 0 && segTrouble (s.setPort 0 .up) g.ctx true (Seg.mk 0x200000 4 0x1001B (.tier 0)) == .none) = true ∧
    [0, 400000000].all (fun n =>
      let s := { awaits (.peer 0 0) (atTarget 3 base) with clock := n }
      holdsAt (.peer 0 0) s fun g _ => segTrouble s g.ctx true (Seg.mk 0x200000 4 0x1001B (.peer 0 0)) == .waits) = true ∧
    ((waiting .reread (.wait .eq (WAddr2.mk false 4 6 none))).strip? 1 0).any (fun t => t.wait == .again .reread (.wait .eq (WAddr2.mk false 4 6 none))) = true := by
  decide +kernel
/-- A program waits for the word at a peer that it has asked for. -/
def peerWaits (n : DWord) : State :=
  { atTarget 3 base with
    clock := n
    progs := [{ probeProg 0 .cart with
      e := vset (Vector.replicate 16 0) 0 0x200000
      status := .waiting (.ewait 0 1 0)
      asked := [(0x200000, 0)] }] }
theorem witness_LinkEvents_program : [0, 400000000].all (fun n => runs { peerWaits n with cur := .prog 2 } (.ewait 0 1 0) fun p =>
    let (q, u) := planReq { peerWaits n with cur := .prog 2 } p.ctx .read p.priv false (laneReq 0 (p.ereg 0) 4 [] [])
    p.status == .waiting (.ewait 0 1 0) && !inTwinWindow (p.ereg 0).toNat && p.held.isEmpty && p.asked.at_ (p.ereg 0).toNat == some 0 && q.req.cause == 0 &&
    (match q.segs with
      | [seg] => seg.tgt.isPeer && segTrouble u p.ctx true seg == .waits && !leafTw seg.leaf && !leafTwin seg.leaf
      | _ => false)) = true := by decide +kernel
/-- The launch has been stopped, and ends with the last acknowledgement. -/
def stoppedLaunch : State :=
  { noded 4 box1 .running [] with launches := base.launches.map fun l => { l with slot := 5, unacked := [.strip 1 0], ends := some (.cancelled, 0) } }
theorem witness_LinkEvents_stopped : stoppedLaunch.launches.length = 1 ∧ stoppedLaunch.launches.all (fun l => l.ends == some (.cancelled, 0) &&
      l.unacked == [.strip 1 0] && ofCtx stoppedLaunch fun x => l.ctx == x.id && (x.slot l.slot).node.any fun n => n.state == .running &&
        n.rcd.succs.isEmpty && n.rcd.token == 0) = true ∧ base.launches.all (fun l => l.ends.isNone) = true ∧
    ((waiting .intake (.launch (WAddr.mk false 4 none))).strip? 1 0).any (fun t => t.wait == .again .intake (.launch (WAddr.mk false 4 none))) = true := by
  decide +kernel
/-- Line 576 is dirty in both memories. -/
def dirtied (n : Nat) : State :=
  let d := [DirtyLine.mk n (List.replicate 128 7) (some 0)]
  { base with device := { base.device with dirty := d }, tier := { base.tier with dirty := d } }
theorem witness_LinkEvents_lines : [true, false].all (fun tier =>
      let s := dirtied (2 ^ 33)
      ((if tier then s.tier else s.device).dirty.find? (·.line == 2 ^ 33)).any (fun d => d.old.length == 128) && (tier || !cachesLine s (2 ^ 33)) &&
      s.port (128 * 2 ^ 33 / 2 ^ 41 % 4) == .up) = true ∧
    base.device.dirty = [] := by decide +kernel

def linked (cxl : Bool) : State :=
  { base with dev := { base.dev with
      link := .up cxl 5 16
      twpool := 0x00010001
      tdis := [Tdi.mk 3 0 [Region.mk 0x400000 0x200000] [7] .run] } }
def inTdi (a : HostAccess) : Bool := (linked true).dev.tdis.any fun t => t.state == .run && a.stream != some t.num &&
  t.regions.any fun r => decide (r.base < a.addr + a.len) && decide (a.addr < r.base + r.size)

theorem witness_OutsideAccesses_host : (linked true).dev.link = .up true 5 16 ∧ base.dev.link = .down ∧ inTdi (HostAccess.mk 0x400000 4 none none) = true ∧
    inTdi (HostAccess.mk 0x12000 4 (some [1, 2, 3, 4]) none) = false ∧ (linked true).device.poisoned 0x12000 4 = false ∧
    0x12004 ≤ (linked true).poolBase ∧ (linked true).poolBase + 4 ≤ (linked true).poolBase + (linked true).poolSize := by decide +kernel
/-- The context exports its pages under its window 0. -/
def exporting : State := base.mapCtx 0 fun x => { x with cfg := { x.cfg with expbase := 1 } }
def asksOf (op : PeerOp) (l : List PeerLane) (k : List Plan → State → Bool) : Bool :=
  let need : Need := match op with
    | .read => .read
    | .write => .write
    | _ => .both
  let (ps, u) := planAll exporting 0 need false (op != .read) (l.zipIdx.map fun (x, i) => laneReq i (BitVec.ofNat 64 x.off) x.len x.data [])
  k ps u

theorem witness_OutsideAccesses_peer : ((exporting.cfg 0).expbase.getLsbD 0 && (exporting.ctx? 0).isSome && !(base.cfg 0).expbase.getLsbD 0) = true ∧
    asksOf .read [lane 0x12000 4 []] (fun ps u => ps.length == 1 && ps.all (plainB u 0 true)) = true ∧
    asksOf .write [lane 0x12000 4 [1, 2, 3, 4]] (fun ps u => ps.all (plainB u 0 false)) = true ∧
    asksOf (.atomic 0) [lane 0x12000 4 [1, 2, 3, 4]] (fun ps u => ps.all (plainB u 0 true)) = true ∧
    inTwinWindow (twinBase / 2 ^ 38 * 2 ^ 38 + (twinBase % 2 ^ 38 + 16)) = true ∧ twinBase % 2 ^ 38 + 32 ≤ 2 ^ 38 ∧
    (twinBase / 2 ^ 38 * 2 ^ 38 + (twinBase % 2 ^ 38 + 18)) % 4 ≠ 0 := by decide +kernel

theorem witness_OutsideAccesses_kept : let r := PeerRequest.mk 0 .read false none [lane 0x12000 4 []] 0
    ({ exporting with peerWaits := [PeerWait.mk r [] []] } : State).peerWaits.find? (·.req == r) = some (PeerWait.mk r [] []) ∧
    exporting.peerWaits = [] ∧ inTwinWindow (twinBase - 2 + 3) = true ∧ (twinBase - 2) % 4 ≠ 0 := by decide +kernel

def booted (n : Nat) : State := { base with dev := { base.dev with groups := n, assay := { base.dev.assay with boots := 1 } } }
def image9 : Image := Image.mk true 9 0

theorem witness_BootAndErrors : State.reset.dev.ready = false ∧ (booted 5).dev.groups < 23 ∧ (booted 23).dev.groups = 23 ∧ (booted 5).dev.assay.boots ≠ 0 ∧
    (booted 5).dev.recovery = false ∧ (booted 5).dev.stopped = false ∧ State.reset.dev.assay.boots = 0 ∧ image9.signed = true ∧
    base.dev.assay.rcd.minVersion ≤ image9.version ∧ { base.dev with recovery := true }.recovery = true ∧ (dirtied 576).device.dirty.map (·.line) = [576] ∧
    (linked true).dev.tdis.map (·.state) = [.run] := by decide +kernel
theorem witness_BootAndErrors_errors : ofGang base (fun g _ => g.strips.all fun t => !t.halted && !t.retired && mayRun base g.ctx) = true ∧
    ofGang (withStrip fun t => { t with retired := true }) (fun g _ => g.strips.all (·.retired)) = true ∧ base.dev.fatal = false ∧
    { base.dev with fatal := true }.fatal = true ∧ base.dev.assay.rcd.dumpSize = 0 ∧ { base.dev.assay.rcd with dumpSize := 4096 }.dumpSize = 4096 ∧
    (109 : Nat) < 110 ∧ (dirtied 576).device.dirty.all (fun d => d.old.length == 128) = true ∧ base.dev.assay.own.signed = true ∧
    base.dev.assay.rcd.signed = true := by decide +kernel
theorem witness_Trust : { base.dev.spdm with algs := true }.algs = true ∧ base.dev.spdm.algs = false ∧
    ((linked true).dev.tdis.find? (·.num == 3)).map (·.state) = some .run ∧ (linked true).dev.tdis.find? (·.num == 4) = none ∧
    (base.ctx? 0).isSome = true ∧ 0x400000 % 2 ^ 21 = 0 ∧ (3 : Nat) < 64 := by decide +kernel
theorem witness_Trust_chain : 0 < certChain.length := by
  simp only [certChain, keyBytes, List.length_append, List.length_reverse, toBytes_length]; omega

def turnOf (t : Turn) (s : State) : State := { s with schedule := [(1, t)] }
def begins (s : State) (k : Turn → State → Bool) : Bool := k s.begun.1 s.begun.2
def fetchesAt (c : Nat) (pr : Bool) (b : Option Nat) (s : State) (k : List Word → Bool) : Bool :=
  let r := fetchInstr c pr b [] 0x10000 s
  match (match b with
    | some b => crack b c 0x10000 r
    | none => r) with
  | (.words ws, _) => k ws
  | _ => false
def fetchesWord (p : Prog) (s : State) (k : Word → Bool) : Bool :=
  match fetchWord (onStack p.cls) s p.ctx p.priv none p.asked p.pc.toNat with
  | (.word w, _) => k w
  | _ => false
def illegalWord : State := { base with device := { base.device with cells := cellsWrite base.device.cells 0x10000 (word4 0xFFFFFFFF) } }

theorem witness_StepRunsDecoded : [base, illegalWord].all (fun b => begins (turnOf (.issue (.strip 1 0)) b) fun turn v => turn == .issue (.strip 1 0) &&
      running_ v fun g t l => (v.ctx? g.ctx).any fun x => mayRun v g.ctx && !debugHits x.cfg t && t.wait == .none && stripReady v g t l x (.nop false) &&
        !t.priv && t.replay.isEmpty && t.away.isEmpty && t.asked.isEmpty && handlerOf v g.ctx != 0 && t.pc == 0x10000 && fetchesAt g.ctx t.priv (some g.bench) v fun ws =>
          (decode ws).isSome || b == illegalWord) = true ∧
    begins (turnOf (.issue (.strip 1 0)) (waiting .cond (.wait .eq (WAddr2.mk false 4 6 none)))) (fun _ v => running_ v fun g t l =>
      (v.ctx? g.ctx).any fun x => stripReady v g t l x (.wait .eq (WAddr2.mk false 4 6 none))) = true := by decide +kernel
theorem witness_StepRunsDecoded_others : begins (turnOf (.issue (.span 5)) (spanning { aSpan with pc := 0x10000 })) (fun turn v => turn == .issue (.span 5) &&
      (v.span? 5).any fun p => !p.waiting && mayRun v p.ctx && p.asked.isEmpty && !spanDebug (v.cfg p.ctx) p &&
        fetchesAt p.ctx false none v fun ws => (decode ws).isSome) = true ∧
    spanDebug { probeBlock with sstep := true } aSpan = true ∧ begins (turnOf (.readRegister 8) base) (fun turn _ => turn == .readRegister 8) = true ∧
    begins (turnOf (.mail 0x12) base) (fun turn _ => turn == .mail 0x12) = true ∧
    begins (turnOf (.issue (.prog 2)) (engine .cart [] [])) (fun _ v => (v.prog? 2).any fun p => p.status == .running && progReady v p (.nop false) &&
      fetchesWord p v fun w => extraWords w == 0 && (decode [w]).isSome) = true ∧
    begins (turnOf (.issue (.prog 2)) { engine .cart [] [] with device := illegalWord.device }) (fun _ v => (v.prog? 2).any fun p =>
      fetchesWord p v fun w => decide (0 < extraWords w) || (decode [w]).isNone) = true ∧
    begins (turnOf (.issue (.prog 2)) (stalled .cart (.ewait 0 1 0))) (fun _ v => (v.prog? 2).any fun p => progReady v p (.ewait 0 1 0)) = true ∧
    begins (turnOf (.event (.flitResend (FabricLink.mk 3 true))) base) (fun turn _ => turn == .event (.flitResend (FabricLink.mk 3 true)) && isEvent (.flitResend (FabricLink.mk 3 true))) = true ∧
    begins (turnOf (.queue false) (asked 8 0x30000 0)) (fun turn v => turn == .queue false && v.cpWrites.isEmpty && (v.command false 8).isSome) = true := by decide +kernel
theorem witness_StepRunsDecoded_fetch : (match translate base 0 0x10000 .fetch false with
    | (.ok (leaf, .device pa), u) => pa == 0x10000 && !leafTwin leaf && !inShadow u pa && segTrouble u 0 true (Seg.mk 0x10000 4 leaf (.device pa)) == .none && base.fetched.isEmpty &&
      u.fetched.isEmpty
    | _ => false) = true := by decide +kernel
theorem witness_MemoryStaysCanonical : State.reset.memoryWf = true ∧ (match step base with
    | .next _ => true
    | _ => false) = true := by decide +kernel
theorem witness_DecodeAfterEncode : WellFormed (.bra false 3 true (-5) (some 7)) = true ∧ isEvent (.bra false 3 true (-5) (some 7)) = false := by decide +kernel

end Sys2Proof.Tests
end

section
/-! The words across the lanes of a strip (R137, R138, R351, R356, R362, R369), and PLOP and PMOV to a predicate. -/

namespace Sys2Proof.Machine

/-! A result counts in the active lanes alone. -/

theorem Writes.congr {w : Seat} {r : Result} {t : Strip} (h : Writes w r t) {val : Nat → DWord}
    (hv : ∀ l < 32, laneIn w.fr.active l = true → r.val l = val l) : Writes w { r with val := val } t where
  active l hl ha := (h.active l hl ha).trans (congrArg (cutTo r.wd) (hv l hl ha))
  others := h.others
  returned := h.returned
  keeps := h.keeps

theorem WritesPred.congr {w : Seat} {p : BitVec 5} {val val' : Nat → Bool} {freed : List Nat} {t : Strip}
    (h : WritesPred w p val freed t) (hv : ∀ l < 32, laneIn w.fr.active l = true → val l = val' l) :
    WritesPred w p val' freed t where
  active l hl ha := (h.active l hl ha).trans (hv l hl ha)
  others := h.others
  preds := h.preds
  keeps := h.keeps

/-- A fold over a list depends on its members alone. -/
theorem foldl_or_congr {f g : Nat → Word} {ls : List Nat} (h : ∀ l ∈ ls, f l = g l) (a : Word) :
    ls.foldl (fun fl l => fl ||| f l) a = ls.foldl (fun fl l => fl ||| g l) a :=
  List.foldl_ext _ _ a fun b l hl => by rw [h l hl]

/-- Two evaluations that agree in the active lanes are one float word. -/
theorem Seat.givesFloat_congr {w : Seat} {i : Instr} {out : Out} {f : FloatOp} {eval : Nat → Word → Nat × Word}
    (h : w.givesFloat i out { f with eval := eval })
    (he : ∀ l < 32, laneIn w.fr.active l = true → eval l (w.draw f.mode l) = f.eval l (w.draw f.mode l)) :
    w.givesFloat i out f := by
  obtain ⟨t, hout, ht, hw⟩ := h
  refine ⟨t, hout, ?_, hw.congr fun l hl ha => congrArg (BitVec.ofNat 64 ·.1) (he l hl ha)⟩
  have hfl := foldl_or_congr (f := fun l => (eval l (w.draw f.mode l)).2) (g := fun l => (f.eval l (w.draw f.mode l)).2)
    (fun l hl => congrArg (·.2) (he l (mem_lanesOf.mp hl).1 (mem_lanesOf.mp hl).2)) 0
  rw [← hfl]
  exact ht

/-! What a seat's frame has of its seat. -/

section
variable {s : State} {i : Instr} {w : Seat} (h : SeatFacts s i w)
include h

theorem seat_w16 : w.fr.w16 = w.l.hdr.w16 := by obtain ⟨gd, hgd⟩ := h.gd; rw [hgd]; rfl
theorem seat_box : w.fr.box = w.g.box := by obtain ⟨gd, hgd⟩ := h.gd; rw [hgd]; rfl
theorem seat_coord : w.fr.coord = w.coord := by obtain ⟨gd, hgd⟩ := h.gd; rw [hgd]; rfl
theorem seat_gens : w.fr.gens = w.t.gens := by obtain ⟨gd, hgd⟩ := h.gd; rw [hgd]; rfl

theorem seat_pred (p : BitVec 5) (l : Nat) : (w.fr.pred p.toNat).at_ w.fr l = w.pred p l := by
  have hp : w.fr.preds = w.t.preds := by obtain ⟨gd, hgd⟩ := h.gd; rw [hgd]; rfl
  unfold Frame.pred Seat.pred
  rw [hp, ← seat_coord h]
  cases vget w.t.preds p.toNat (.u false) <;> rfl

theorem seat_groupSize : groupSize w.fr = if w.l.hdr.w16 then 16 else 32 := by rw [groupSize, seat_w16 h]

/-- R138: a group's active lanes: the strip's natively, a half's under W16. -/
theorem seat_peers (l : Nat) : w.peers l = if w.l.hdr.w16 then groupLanes w.fr l else lanesOf w.fr.active := by
  unfold Seat.peers groupLanes
  rw [seat_groupSize h]
  cases w.l.hdr.w16 <;> simp

theorem groupVal_at (f : List Nat → DWord) (l : Nat) : (groupVal w.fr f).at_ w.fr l = f (w.peers l) := by
  rw [seat_peers h, groupVal, seat_w16 h]
  cases w.l.hdr.w16 <;> rfl

theorem groupPred_at (f : List Nat → Bool) (l : Nat) : (groupPred w.fr f).at_ w.fr l = f (w.peers l) := by
  rw [seat_peers h, groupPred, seat_w16 h]
  cases w.l.hdr.w16 <;> rfl

/-- A word that frees registers and then writes a predicate. -/
theorem setPred_gives {out : Out} {fr1 : Frame} {ns : List Nat} {p : BitVec 5} {v : PVal} {val : Nat → Bool}
    (hout : out = .next (settle w i (w.form i) (w.done (fr1.setPred p.toNat v)))) (hf : Freed w.fr fr1 ns)
    (hv : ∀ l < 32, laneIn w.fr.active l = true → v.at_ w.fr l = val l) : w.givesPred i out p val ns := by
  obtain ⟨fr2, h2, t, hnext, ht, hw⟩ := givesPred_of h hf p v
  rw [hout, h2]
  exact ⟨t, hnext, ht, hw.congr hv⟩

/-- A word that frees registers and then writes a register. -/
theorem setReg_gives (hr : w.l.hdr.regs ≠ 0) {out : Out} {fr1 : Frame} {ns : List Nat} {d : BitVec 6} {v : Val}
    {val : Nat → DWord} (hout : out = .next (settle w i (w.form i) (w.done (fr1.setReg d.toNat v))))
    (hf : Freed w.fr fr1 ns) (hv : ∀ l, v.at_ w.fr l = val l) : w.gives i out ⟨32, w.slot d, val, ns⟩ := by
  obtain ⟨fr2, h2, hg⟩ := gives_of h hr hf (.inl rfl) d (by simp) v val fun l => hv l ▸ SameIn.rfl
  have h2 : fr1.setReg d.toNat v = .ok fr2 := h2
  rw [hout, h2]
  exact hg

end

theorem mem_peers {w : Seat} {l k : Nat} :
    k ∈ w.peers l ↔ k ∈ lanesOf w.fr.active ∧ (w.l.hdr.w16 = true → k / 16 = l / 16) := by
  unfold Seat.peers
  cases w.l.hdr.w16 <;> simp

/-- The register that a last-read bit of a word's 32-bit source frees. -/
theorem Freed.freeReg {fr1 : Frame} {w : Seat} {ns : List Nat} (h : Freed w.fr fr1 ns) (bit : Bool) (r : BitVec 6) :
    Freed w.fr (fr1.free bit 32 r.toNat) (ns ++ w.lastRead bit r 1) := by
  have := h.free bit 32 r.toNat r.isLt (by simp)
  rwa [lastRead_eq] at this

/-! SHFL. -/

/-- R137: SHFL's value where z is the source lane's offset in its group. -/
theorem shflLane_eq {fr : Frame} {op : ShflOp} {a b : Val} {g l : Nat} {z : Int} (hg : groupSize fr = g)
    (hz : (shflSource op (l % g) (loOf (b.at_ fr l)) : Int) = z) :
    shflLane fr op a b l = if z < g ∧ laneIn fr.active (l - l % g + z.toNat) then a.at_ fr (l - l % g + z.toNat)
      else a.at_ fr l := by
  have hfirst : l / g * g = l - l % g := by rw [Nat.mul_comm]; have := Nat.div_add_mod l g; omega
  subst hg hz
  simp only [shflLane, hfirst, Int.toNat_natCast, Nat.cast_lt, Bool.and_eq_true, decide_eq_true_eq]

theorem shfl_gives {s : State} {w : Seat} {op : ShflOp} {v : W3} {r : Result} (hi : s.issuing (.shfl op v) = some w)
    (hc : w.crossed (.shfl op v) = some r) (hr : w.l.hdr.regs ≠ 0) : w.gives (.shfl op v) (exec (.shfl op v) s) r := by
  have h := seat_facts hi
  have hg := seat_groupSize h
  cases hc
  refine setReg_gives h hr (runStrip_issuing hi _) (((Freed.refl w.fr).freeReg v.la v.a).freeReg v.lb v.b) fun l => ?_
  have hd := (loOf (w.src 32 v.b l)).isLt
  refine shflLane_eq hg ?_
  cases op with
  | lane => rfl
  | back =>
    show (((_ + 2 ^ 32 - (loOf (w.src 32 v.b l)).toNat) % 2 ^ 32 : Nat) : Int) = _
    simp only
    omega
  | ahead => exact Int.natCast_emod _ _
  | pair => rfl

/-! VOTE. -/

/-- R369: the sum of the bits of the lanes that hold a predicate. -/
theorem foldl_bits (p : Nat → Bool) (b : Nat → Nat) (ls : List Nat) (n : Nat) :
    ls.foldl (fun n l => if p l then n + b l else n) n = n + ((ls.filter p).map b).sum := by
  induction ls generalizing n with
  | nil => rfl
  | cons l ls ih => rw [List.foldl_cons, ih]; cases hp : p l <;> simp [hp]; omega

theorem voteMask_gives {s : State} {w : Seat} {v : WRP} {r : Result} (hi : s.issuing (.voteMask v) = some w)
    (hc : w.crossed (.voteMask v) = some r) (hr : w.l.hdr.regs ≠ 0) :
    w.gives (.voteMask v) (exec (.voteMask v) s) r := by
  have h := seat_facts hi
  cases hc
  refine setReg_gives h hr (runStrip_issuing hi _) (Freed.refl w.fr) fun l => ?_
  have hp : (w.fr.pred v.q.toNat).at_ w.fr = w.pred v.q := funext (seat_pred h v.q)
  rw [groupVal_at h, voteMask, hp, foldl_bits, seat_groupSize h, Nat.zero_add]

/-- SAME compares every lane with the first, which compares every lane with every other. -/
theorem voteSame_eq (fr : Frame) (v : Val) (ls : List Nat) :
    voteSame fr v ls = ls.all fun k => ls.all fun j => loOf (v.at_ fr k) == loOf (v.at_ fr j) := by
  cases ls with
  | nil => rfl
  | cons a ls =>
    apply Bool.eq_iff_iff.mpr
    simp only [voteSame, List.all_eq_true, beq_iff_eq]
    constructor
    · intro hs
      have first : ∀ k ∈ a :: ls, loOf (v.at_ fr k) = loOf (v.at_ fr a) := List.forall_mem_cons.mpr ⟨rfl, hs⟩
      exact fun k hk j hj => (first k hk).trans (first j hj).symm
    · exact fun hs k hk => hs k (List.mem_cons_of_mem a hk) a List.mem_cons_self

/-! PLOP. -/

/-- A table that does not depend on one source is a constant or, where it depends on the other, that source or its
negation. -/
theorem plopBit_const {t : BitVec 4} (ha : plopOnA t = false) (hb : plopOnB t = false) (a b : Bool) :
    plopBit t a b = plopBit t false false := by
  revert t a b; decide
theorem plopBit_onA {t : BitVec 4} (ha : plopOnA t = true) (hb : plopOnB t = false) (a b : Bool) :
    plopBit t a b = (a != plopBit t false false) := by
  revert t a b; decide
theorem plopBit_onB {t : BitVec 4} (ha : plopOnA t = false) (hb : plopOnB t = true) (a b : Bool) :
    plopBit t a b = (b != plopBit t false false) := by
  revert t a b; decide

theorem Box.holds_boxOn {b : Box} {c : Nat × Nat × Nat} (h : b.holds c = true) (ax : Axis) :
    (boxOn b ax).1 ≤ coordOn ax c ∧ coordOn ax c < (boxOn b ax).1 + (boxOn b ax).2 := by
  simp only [Box.holds, Bool.and_eq_true, decide_eq_true_eq] at h
  cases ax <;> simp only [boxOn, coordOn] <;> omega

/-- R49: the negation of a range holds for the items of the box for which the range does not. -/
theorem rangeCopy_at {fr : Frame} {ax : Axis} {lo hi l : Nat} {neg : Bool} {p : PVal}
    (h : fr.box.holds (fr.coord l) = true) (hp : rangeCopy fr.box ax lo hi neg = some p) :
    p.at_ fr l = ((PVal.range ax lo hi).at_ fr l != neg) := by
  have hb := Box.holds_boxOn h ax
  cases neg with
  | false => cases hp; simp
  | true =>
    simp only [rangeCopy, Bool.not_true, Bool.false_eq_true, if_false] at hp
    generalize boxOn fr.box ax = q at hb hp
    apply Bool.eq_iff_iff.mpr
    split_ifs at hp <;> cases hp <;>
      simp only [PVal.at_, predLane, Bool.bne_true, Bool.and_eq_true, Bool.not_eq_true', Bool.and_eq_false_iff,
        decide_eq_true_eq, decide_eq_false_iff_not] <;> omega

/-- R351: PLOP gives each item of the box the entry of its sources. -/
theorem plopVal_at {fr : Frame} {l : Nat} (h : fr.box.holds (fr.coord l) = true) (t : BitVec 4) (a b : PVal) :
    (plopVal fr t a b).at_ fr l = plopBit t (a.at_ fr l) (b.at_ fr l) := by
  have copy : ∀ ax lo hi, plopBit t (a.at_ fr l) (b.at_ fr l) = ((PVal.range ax lo hi).at_ fr l != plopBit t false false) →
      ((rangeCopy fr.box ax lo hi (plopBit t false false)).getD (.l fun l => plopBit t (a.at_ fr l) (b.at_ fr l))).at_ fr l =
        plopBit t (a.at_ fr l) (b.at_ fr l) := by
    intro ax lo hi hv
    cases hc : rangeCopy fr.box ax lo hi (plopBit t false false) with
    | none => rfl
    | some p => exact (rangeCopy_at h hc).trans hv.symm
  cases hA : plopOnA t <;> cases hB : plopOnB t <;> simp only [plopVal, hA, hB]
  case false.false => exact (plopBit_const hA hB _ _).symm
  case true.false =>
    have hbit := plopBit_onA hA hB
    cases a with
    | u x => exact (hbit _ _).trans (hbit _ _).symm
    | range ax lo hi => exact copy ax lo hi (hbit _ _)
    | l f => rfl
  case false.true =>
    have hbit := plopBit_onB hA hB
    cases b with
    | u y => exact (hbit _ _).trans (hbit _ _).symm
    | range ax lo hi => exact copy ax lo hi (hbit _ _)
    | l f => rfl
  case true.true => cases a <;> cases b <;> rfl

/-- R351: PLOP completes where the active lanes hold items of the gang's box. -/
theorem plop_gives {s : State} {w : Seat} {st : Bool} {pd pa pb : BitVec 5} {t : BitVec 4} {x : Option XWord}
    (hi : s.issuing (.plop st pd pa pb t x) = some w)
    (hbox : ∀ l < 32, laneIn w.fr.active l = true → w.g.box.holds (w.coord l) = true) :
    w.givesPred (.plop st pd pa pb t x) (exec (.plop st pd pa pb t x) s) pd
      (fun l => plopBit t (w.pred pa l) (w.pred pb l)) [] := by
  have h := seat_facts hi
  have hout : exec (.plop st pd pa pb t x) s = _ :=
    runAlu_issuing hi fun _ fr => fr.setPred pd.toNat (plopVal fr t (fr.pred pa.toNat) (fr.pred pb.toNat))
  refine setPred_gives h hout (Freed.refl w.fr) fun l hl ha => ?_
  rw [plopVal_at (by rw [seat_box h, seat_coord h]; exact hbox l hl ha), seat_pred h, seat_pred h]

theorem wordPred_at (fr : Frame) (v : Val) (l : Nat) : (wordPred fr v).at_ fr l = (loOf (v.at_ fr l) != 0) := by
  cases v <;> rfl

theorem pmovToPred_gives {s : State} {w : Seat} {v : WPred} (hi : s.issuing (.pmovToPred v) = some w) :
    w.givesPred (.pmovToPred v) (exec (.pmovToPred v) s) v.p (fun l => loOf (w.src 32 v.a l) != 0)
      (w.lastRead v.la v.a 1) := by
  have h := seat_facts hi
  have hout : exec (.pmovToPred v) s = _ :=
    runAlu_issuing hi fun _ fr => (fr.free v.la 32 v.a.toNat).setPred v.p.toNat (wordPred fr (fr.reg v.a.toNat))
  exact setPred_gives h hout ((Freed.refl w.fr).freeReg v.la v.a) fun l _ _ => wordPred_at w.fr _ l

/-- R347, R351, R369: PLOP, PMOV to a predicate and the VOTEs complete with their predicate where the active lanes hold items
of the gang's box. -/
theorem predicate_gives {s : State} {i : Instr} {w : Seat} {p : BitVec 5} {val : Nat → Bool} {freed : List Nat}
    (hi : s.issuing i = some w) (hp : w.predicate i = some (p, val, freed))
    (hbox : ∀ l < 32, laneIn w.fr.active l = true → w.g.box.holds (w.coord l) = true) :
    w.givesPred i (exec i s) p val freed := by
  have h := seat_facts hi
  have hpred : ∀ q : BitVec 5, (w.fr.pred q.toNat).at_ w.fr = w.pred q := fun q => funext (seat_pred h q)
  unfold Seat.predicate at hp
  split at hp
  case h_1 => cases hp; exact plop_gives hi hbox
  case h_2 => cases hp; exact pmovToPred_gives hi
  case h_3 =>
    cases hp
    exact setPred_gives h (runStrip_issuing hi _) (Freed.refl w.fr) fun l _ _ => by rw [groupPred_at h, hpred]
  case h_4 =>
    cases hp
    exact setPred_gives h (runStrip_issuing hi _) (Freed.refl w.fr) fun l _ _ => by rw [groupPred_at h, hpred]
  case h_5 =>
    cases hp
    exact setPred_gives h (runStrip_issuing hi _) ((Freed.refl w.fr).freeReg _ _) fun l _ _ => by
      rw [groupPred_at h, voteSame_eq]; rfl
  case h_6 => cases hp

/-! REAP. -/

theorem foldWords_eq_foldr {f : Word → Word → Word} [Std.Commutative f] [Std.Associative f] {e : Word} (he : ∀ a, f a e = a)
    {vs : List Word} (h : vs ≠ []) : foldWords f vs = vs.foldr f e := by
  obtain ⟨a, r, rfl⟩ := List.exists_cons_of_ne_nil h
  rw [foldWords, ← List.foldl_eq_foldr, List.foldl_cons, Std.Commutative.comm (op := f) e a, he]

/-- R356: the integer folds of the lanes of a group with an active lane. -/
theorem reapInt_eq (op : ReapOp) {vs : List Word} (h : vs ≠ []) : reapInt op vs = reapFold op vs := by
  have hslt : ∀ a b : Word, (b.slt a = true) = (b.toInt < a.toInt) := fun a b => propext BitVec.slt_iff_toInt_lt
  cases op with
  | add => exact foldWords_eq_foldr (by simp) h
  | and => exact foldWords_eq_foldr (fun a => BitVec.and_allOnes) h
  | or => exact foldWords_eq_foldr (by simp) h
  | xor | fadd | fmax => exact foldWords_eq_foldr (by simp) h
  | min =>
    obtain ⟨a, r, rfl⟩ := List.exists_cons_of_ne_nil h
    simp only [reapInt, reapFold, foldWords, hslt, List.tail_cons, List.headD_cons]
  | max =>
    obtain ⟨a, r, rfl⟩ := List.exists_cons_of_ne_nil h
    simp only [reapInt, reapFold, foldWords, hslt, List.tail_cons, List.headD_cons, gt_iff_lt]

/-- A flag of a fold over a list is one of its members'. -/
theorem foldl_or_getLsbD {α : Type} (f : α → Word) (ls : List α) (a : Word) (k : Nat) :
    (ls.foldl (fun fl l => fl ||| f l) a).getLsbD k = (a.getLsbD k || ls.any fun l => (f l).getLsbD k) := by
  induction ls generalizing a with
  | nil => simp
  | cons l ls ih => rw [List.foldl_cons, ih, BitVec.getLsbD_or, List.any_cons, Bool.or_assoc]

section
variable {s : State} {i : Instr} {w : Seat} (h : SeatFacts s i w)
include h

/-- R138: the groups with an active lane are those of the active lanes. -/
theorem mem_groupsOf (ls : List Nat) : ls ∈ groupsOf w.fr ↔ ∃ l ∈ lanesOf w.fr.active, w.peers l = ls := by
  have hpeers := seat_peers h
  have hsize := seat_groupSize h
  unfold groupsOf
  rw [seat_w16 h]
  cases hw : w.l.hdr.w16 with
  | false =>
    simp only [hw, Bool.false_eq_true, if_false] at hpeers ⊢
    obtain ⟨l, hl, ha⟩ := exists_lane h.lanes
    simp only [List.mem_singleton, hpeers]
    exact ⟨fun e => ⟨l, mem_lanesOf.mpr ⟨hl, ha⟩, e.symm⟩, fun ⟨_, _, e⟩ => e.symm⟩
  | true =>
    simp only [hw, if_true] at hpeers hsize ⊢
    have same : ∀ k l, k / 16 = l / 16 → w.peers k = w.peers l := fun k l e => by
      simp only [hpeers, groupLanes, hsize, e]
    simp only [List.mem_filter, List.mem_cons, List.not_mem_nil, or_false, ne_eq, decide_eq_true_eq, ← hpeers]
    constructor
    · rintro ⟨hls, hne⟩
      obtain ⟨k, r, e⟩ := List.exists_cons_of_ne_nil hne
      have hk : k ∈ ls := e ▸ List.mem_cons_self
      rcases hls with rfl | rfl
      · exact ⟨k, (mem_peers.mp hk).1, same k 0 ((mem_peers.mp hk).2 hw)⟩
      · exact ⟨k, (mem_peers.mp hk).1, same k 16 ((mem_peers.mp hk).2 hw)⟩
    · rintro ⟨l, hl, rfl⟩
      have h32 : l < 32 := (mem_lanesOf.mp hl).1
      refine ⟨?_, List.ne_nil_of_mem (mem_peers.mpr ⟨hl, fun _ => rfl⟩)⟩
      rcases Nat.lt_or_ge l 16 with h16 | h16
      · exact .inl (same l 0 (by omega))
      · exact .inr (same l 16 (by omega))

/-- The flags of the groups are those of the active lanes. -/
theorem groups_flags (f : List Nat → Word) :
    (groupsOf w.fr).foldl (fun fl ls => fl ||| f ls) 0 = w.fr.flags fun l => f (w.peers l) := by
  apply BitVec.eq_of_getLsbD_eq
  intro k _
  rw [Frame.flags, foldl_or_getLsbD, foldl_or_getLsbD, Bool.eq_iff_iff]
  simp only [Bool.or_eq_true, List.any_eq_true, mem_groupsOf h]
  constructor
  · rintro (h0 | ⟨_, ⟨l, hl, rfl⟩, hb⟩)
    · exact .inl h0
    · exact .inr ⟨l, hl, hb⟩
  · rintro (h0 | ⟨l, hl, hb⟩)
    · exact .inl h0
    · exact .inr ⟨_, ⟨l, hl, rfl⟩, hb⟩

/-- R356: a group's result is the fold over the active lanes of a lane's group. -/
theorem reapGroup_eq (op : ReapOp) (v : W2) {l : Nat} (hl : l ∈ lanesOf w.fr.active) (dw : Word) :
    reapGroup w.fr op (w.reap op v).mode (w.fr.reg v.a.toNat) (w.peers l) = (w.reap op v).eval l dw := by
  have hmem : l ∈ w.peers l := mem_peers.mpr ⟨hl, fun _ => rfl⟩
  have hne : w.peers l ≠ [] := List.ne_nil_of_mem hmem
  have hint := reapInt_eq op (vs := (w.peers l).map fun k => loOf (w.src 32 v.a k)) (by simpa using hne)
  cases op with
  | fadd =>
    obtain ⟨k, r, hk⟩ := List.exists_cons_of_ne_nil hne
    have hdraw : (if w.fr.w16 then 16 * (((w.peers l).head?.getD 0) / 16) else 0) =
        if w.l.hdr.w16 then 16 * (l / 16) else 0 := by
      rw [seat_w16 h]
      cases hw : w.l.hdr.w16 with
      | false => rfl
      | true =>
        have hh : k / 16 = l / 16 := (mem_peers.mp (hk ▸ List.mem_cons_self : k ∈ w.peers l)).2 hw
        simp [hk, hh]
    simp only [reapGroup, Seat.reap, Seat.draw, hdraw, seat_gens h]
    rfl
  | fmax => rfl
  | _ => exact congrArg (fun x : Word => (x.toNat, (0 : Word))) hint

end

/-- REAP with the model's own fold of each lane's group. -/
def Seat.reapGroups (w : Seat) (op : ReapOp) (v : W2) : FloatOp :=
  { w.reap op v with
    eval := fun l _ => reapGroup w.fr op (w.reap op v).mode (w.fr.reg v.a.toNat) (w.peers l) }

/-- The frame after REAP has raised the groups' flags and advanced a generator that it drew from. -/
def Seat.reapFrame (w : Seat) (op : ReapOp) (v : W2) : Frame :=
  { w.fr with
    fpstat := w.fr.fpstat ||| w.fr.flags fun l => ((w.reapGroups op v).eval l 0).2
    gens := w.fr.drawn (w.reap op v).mode }

/-- REAP's value for the active lanes of a group. -/
def Seat.reapValue (w : Seat) (op : ReapOp) (v : W2) (ls : List Nat) : DWord :=
  BitVec.ofNat 64 (reapGroup w.fr op (w.reap op v).mode (w.fr.reg v.a.toNat) ls).1

theorem reapBody_eq {s : State} {i : Instr} {w : Seat} (h : SeatFacts s i w) (op : ReapOp) (v : W2) :
    reapBody op v w.fr =
      ((w.reapFrame op v).free v.la 32 v.a.toNat).setReg v.d.toNat (groupVal w.fr (w.reapValue op v)) := by
  have hfl := groups_flags h fun ls => (reapGroup w.fr op (w.reap op v).mode (w.fr.reg v.a.toNat) ls).2
  have hmode : (if op == .fadd then w.fr.rounding (rndOf v.x) else 1) = (w.reap op v).mode := rfl
  simp only [reapBody, hmode, hfl, Frame.raise, Seat.reapFrame, Frame.drawn]
  split <;> rfl

/-- R356: REAP completes with the fold over the active lanes of a lane's group. -/
theorem reap_gives {s : State} {w : Seat} {op : ReapOp} {v : W2} (hi : s.issuing (.reap op v) = some w)
    (hr : w.l.hdr.regs ≠ 0) : w.givesFloat (.reap op v) (exec (.reap op v) s) (w.reap op v) := by
  have h := seat_facts hi
  have hfreed := (Freed.refl (w.reapFrame op v)).free v.la 32 v.a.toNat v.a.isLt (by simp)
  have hlast : (w.reapFrame op v).lastRead v.la 32 v.a.toNat = w.lastRead v.la v.a 1 := lastRead_eq w v.la v.a 32
  rw [List.nil_append, hlast] at hfreed
  obtain ⟨fr2, h2, hg⟩ := givesFloat_of h hr (w.reapGroups op v) (.inl rfl) (fun e => absurd e (by decide : (32 : Nat) ≠ 64))
    hfreed (groupVal_at h (w.reapValue op v))
  have hbody : reapBody op v w.fr = .ok fr2 := (reapBody_eq h op v).trans h2
  have hout : exec (.reap op v) s = .next (settle w _ _ (w.done (reapBody op v w.fr))) := runStrip_issuing hi _
  rw [hout, hbody]
  exact Seat.givesFloat_congr (f := w.reap op v) hg fun l hl ha => reapGroup_eq h op v (mem_lanesOf.mpr ⟨hl, ha⟩) _

/-- R137, R138, R362, R369: SHFL and VOTE.MASK complete with a value taken across the active lanes of a lane's group. -/
theorem crossed_gives {s : State} {i : Instr} {w : Seat} {r : Result} (hi : s.issuing i = some w)
    (hc : w.crossed i = some r) (hr : w.l.hdr.regs ≠ 0) : w.gives i (exec i s) r := by
  have hc' := hc
  unfold Seat.crossed at hc'
  split at hc'
  case h_1 => exact shfl_gives hi hc hr
  case h_2 => exact voteMask_gives hi hc hr
  case h_3 => cases hc'

/-- What holds of O5: all of it where the active lanes hold items of the gang's box, which PLOP's range predicates need. -/
theorem crossLaneWords_of_items_in_box :
    (∀ (s : State) (i : Instr) (w : Seat) (r : Result),
      s.issuing i = some w → w.crossed i = some r → w.l.hdr.regs ≠ 0 → w.gives i (exec i s) r) ∧
    (∀ (s : State) (i : Instr) (w : Seat) (p : BitVec 5) (val : Nat → Bool) (freed : List Nat),
      s.issuing i = some w → w.predicate i = some (p, val, freed) →
      (∀ l < 32, laneIn w.fr.active l = true → w.g.box.holds (w.coord l) = true) →
      w.givesPred i (exec i s) p val freed) ∧
    (∀ (s : State) (w : Seat) (op : ReapOp) (v : W2),
      s.issuing (.reap op v) = some w → w.l.hdr.regs ≠ 0 →
      w.givesFloat (.reap op v) (exec (.reap op v) s) (w.reap op v)) :=
  ⟨fun _ _ _ _ => crossed_gives, fun _ _ _ _ _ _ => predicate_gives, fun _ _ _ _ => reap_gives⟩

/-! A strip that has issued a word is found in its place. -/

/-- Where an update keeps the test, the element found afterwards is the updated one. -/
theorem find?_mapWhere {α : Type} {p : α → Bool} {f : α → α} {l : List α} {a : α} (h : l.find? p = some a)
    (hf : p (f a) = true) : (mapWhere p f l).find? p = some (f a) := by
  induction l with
  | nil => cases h
  | cons x r ih =>
    simp only [mapWhere, List.map_cons] at ih ⊢
    cases hx : p x with
    | true =>
      rw [List.find?_cons_of_pos hx] at h
      cases h
      simp [hf]
    | false =>
      rw [List.find?_cons_of_neg (by simp [hx])] at h
      simpa [hx] using ih h

theorem State.strip?_setStrip {s : State} {g : Nat} {u t : Strip} (h : s.strip? g t.idx = some u) :
    (s.setStrip g t).strip? g t.idx = some t := by
  obtain ⟨a, ha, hu⟩ := Option.bind_eq_some_iff.mp h
  have hid : (a.id == g) = true := List.find?_some (p := fun x : Gang => x.id == g) ha
  have hg : (s.setStrip g t).gang? g = some (a.mapStrip t.idx fun _ => t) := find?_mapWhere ha hid
  have ht : (a.mapStrip t.idx fun _ => t).strip? t.idx = some t :=
    find?_mapWhere (f := fun _ => t) hu (beq_self_eq_true t.idx)
  simp only [State.strip?, hg, Option.bind_some, ht]

/-- The predicates of a strip that has passed a word are those of what the word has made of it. -/
theorem Seat.preds_passed {w : Seat} {i : Instr} {t u : Strip} {k : Nat} (hk : t.idx = k)
    (h : w.s.strip? w.g.id k = some u) :
    ((w.passed i w.s t).strip? w.g.id k).map (·.preds) = some t.preds := by
  subst hk
  exact congrArg (Option.map (·.preds)) (State.strip?_setStrip (t := { ({ t with pc := w.pcNext } : Strip).counted _ with
    parked := _ }) h)

/-! The counterexample. R49 negates a range within the gang's box, and a state may have a live lane beside it. -/

/-- A machine in which strip 0 of gang 1 has the turn, with an item in each lane from x = 0 on. The gang's box ends before
x = ex, and predicate 1 is the range of x below 8. -/
def rangeMachine (ex : Nat) : State :=
  (({ place State.reset 32 0 with cur := .strip 1 0, schedule := [] } : State).mapGang 1 fun g =>
    { g with box := { g.box with ex := ex } }).mapStrip 1 0 fun t => { t with preds := vset t.preds 1 (.range .x 0 8) }

/-- The PLOP that gives predicate 2 the negation of predicate 1. -/
def negation : Instr := .plop false 2 1 0 0b0011 none

/-- In a box of 32 items the strip meets what predicate_gives supposes. -/
theorem rangeMachine_in_box : ((rangeMachine 32).issuing negation).any (fun w => (w.predicate negation).isSome &&
    (lanesOf w.fr.active).all fun l => w.g.box.holds (w.coord l)) = true := by decide

/-- In a box of 16 items the lanes 16 to 31 are live beside the box. -/
def besideBox : State := rangeMachine 16

theorem besideBox_issues : (besideBox.issuing negation).isSome = true := by decide

/-- The seat in which the strip issues it. -/
def besideSeat : Seat := (besideBox.issuing negation).get besideBox_issues

theorem besideBox_issuing : besideBox.issuing negation = some besideSeat := (Option.some_get _).symm

/-- PLOP leaves the range of x from 8 to 15 in predicate 2. -/
theorem exec_negation : ∃ u, exec negation besideBox = .next u ∧
    (u.strip? 1 0).map (fun t => vget t.preds 2 (.u false)) = some (.range .x 8 16) := ⟨_, rfl, by decide⟩

/-- Refutes O5: PLOP negates a range predicate within the gang's box (R49). Predicate 1 is false in lane 20, which is active
beside the box, so R351 gives the negation there the value true; the range that PLOP writes does not hold that lane. The
statement lacks the hypothesis that the active lanes hold items of the box. -/
theorem not_crossLaneWords : ¬ Obligations.CrossLaneWords := by
  unfold Obligations.CrossLaneWords
  rintro ⟨-, hpred, -⟩
  obtain ⟨t, hout, ht, hw⟩ := hpred besideBox negation besideSeat _ _ _ besideBox_issuing rfl
  obtain ⟨u, hu, hrange⟩ := exec_negation
  have hidx : t.idx = 0 := ht ▸ (by decide : besideSeat.t.idx = 0)
  have hpreds : (u.strip? 1 0).map (·.preds) = some t.preds := by
    cases hu.symm.trans hout
    exact Seat.preds_passed hidx (u := besideSeat.t) (by decide)
  have hp2 : vget t.preds 2 (.u false) = .range .x 8 16 := by
    obtain ⟨v, hv, hvt⟩ := Option.map_eq_some_iff.mp hpreds
    rw [hv] at hrange
    rw [← hvt]
    exact Option.some.inj hrange
  have hlane := hw.active 20 (by decide) (by decide)
  have hfalse : predLane besideSeat.coord (.range .x 8 16) 20 = false := by decide
  rw [show (2 : BitVec 5).toNat = 2 from rfl, hp2, hfalse] at hlane
  exact absurd hlane (by decide)

end Sys2Proof.Machine
end

section
/-! The management window (R302 to R304): its command queues, and the writes and the reads of its registers. -/

namespace Sys2Proof.Machine

/-! Queues. -/

theorem Queue.valid_iff (u : Queue) :
    u.valid = true ↔ (∃ i < 16, u.size = 2 ^ i) ∧ u.base.toNat % 64 = 0 := by
  simp [Queue.valid]

/-- R304: what a doorbell does with the queue's configuration and the tail that it gives. -/
theorem exec_dbell (q : Bool) (tail : Word) (s : State) :
    exec (.dbell q tail) s = .next (s.setQueue q
      (if (s.queue q).valid = false then { s.queue q with cfgErr := true }
      else if (s.queue q).size ≤ tail.toNat then { s.queue q with tailErr := true }
      else { s.queue q with tail := tail.toNat })) := by
  have harm : exec (.dbell q tail) s = .next (ring q tail s) := rfl
  rw [harm, ring]
  cases (s.queue q).valid
  case false => rfl
  case true =>
    by_cases htail : (s.queue q).size ≤ tail.toNat
    · simp [htail]
    · simp [htail]

theorem exec_qerrClear (q : Bool) (bits : Word) (s : State) :
    exec (.qerrClear q bits) s = .next (s.setQueue q { s.queue q with
      cfgErr := (s.queue q).cfgErr && !bits.getLsbD 0
      tailErr := (s.queue q).tailErr && !bits.getLsbD 1 }) := rfl

/-- R303: QBASE and QSIZE while the queue holds untaken entries. -/
theorem exec_queueConfigWrite_untaken {s : State} {q : Bool} (h : (s.queue q).head ≠ (s.queue q).tail) (size : Bool)
    (v : DWord) : exec (.queueConfigWrite q size v) s = .next s :=
  congrArg Host.Outcome.next (if_pos h)

/-- R302: QBASE and QSIZE while the queue holds none. -/
theorem exec_queueConfigWrite_empty {s : State} {q : Bool} (h : (s.queue q).head = (s.queue q).tail) (size : Bool)
    (v : DWord) : exec (.queueConfigWrite q size v) s = .next (s.setQueue q
      (if size then { s.queue q with size := v.toNat % 2 ^ 16 } else { s.queue q with base := v })) :=
  congrArg Host.Outcome.next (if_neg (not_not_intro h))

/-! The route table: the list of the entries that are not 0, in order. -/

/-- A route table after a write of w to entry k. -/
def putRoute (routes : List (Nat × BitVec 128)) (k : Nat) (w : BitVec 128) : List (Nat × BitVec 128) :=
  let rest := routes.filter (·.1 != k)
  if w = 0 then rest else rest.filter (·.1 < k) ++ (k, w) :: rest.filter (k < ·.1)

theorem mem_putRoute {routes : List (Nat × BitVec 128)} {k j : Nat} {w x : BitVec 128} :
    (j, x) ∈ putRoute routes k w ↔ (j = k ∧ x = w ∧ w ≠ 0) ∨ (j ≠ k ∧ (j, x) ∈ routes) := by
  unfold putRoute
  split
  case isTrue hw => simp [hw, and_comm]
  case isFalse hw =>
    rcases Nat.lt_trichotomy j k with h | rfl | h
    · simp [h, h.ne, h.not_gt]
    · simpa using fun _ => hw
    · simp [h, h.ne', h.not_gt]

/-! Writes of registers. -/

/-- ROWCTL of the dies after a write at an offset. -/
def Device.rowctlWritten (d : Device) (off : Nat) (v : BitVec 128) : Vector Word 4 :=
  if off = 0x20 ∨ off = 0x24 ∨ off = 0x28 ∨ off = 0x2C then
    vset d.rowctl ((off - 0x20) / 4) (BitVec.ofNat 32 (v.toNat % 2 ^ 13))
  else d.rowctl

/-- The route table after a write at an offset. -/
def Device.routesWritten (d : Device) (off : Nat) (v : BitVec 128) : List (Nat × BitVec 128) :=
  if 0x20000 ≤ off ∧ off < 0x20000 + 16 * 4096 ∧ off % 16 = 0 then
    putRoute d.routes ((off - 0x20000) / 16) (v &&& (2 ^ 77 - 1))
  else d.routes

/-- The device after a write at an offset of the window. -/
def Device.written (d : Device) (off : Nat) (v : BitVec 128) : Device :=
  { d with
    c128 := if off = 0x0C then v.getLsbD 0 else d.c128
    tierto := if off = 0x14 then v.toNat % 2 ^ 16 else d.tierto
    defport := if off = 0x80 then v.setWidth 12 else d.defport
    rowctl := d.rowctlWritten off v
    routes := d.routesWritten off v }

theorem bitAt_toNat_zero (v : BitVec 128) : bitAt v.toNat 0 = v.getLsbD 0 := by
  rw [Bool.eq_iff_iff]
  simp [bitAt, bitsOf, BitVec.getLsbD, Nat.testBit_zero]

/-- The implemented bits of a ROUTE entry (log 32). -/
theorem ofNat_bitsOf_route (v : BitVec 128) : BitVec.ofNat 128 (bitsOf v.toNat 0 77) = v &&& (2 ^ 77 - 1) := by
  refine BitVec.eq_of_toNat_eq ?_
  have hlt : v.toNat % 2 ^ 77 < 2 ^ 128 := by omega
  have hmask : (2 ^ 77 - 1 : BitVec 128).toNat = 2 ^ 77 - 1 := by simp [BitVec.toNat_sub, BitVec.toNat_pow]
  rw [BitVec.toNat_ofNat, BitVec.toNat_and, hmask, Nat.and_two_pow_sub_one_eq_mod, bitsOf, Nat.shiftRight_zero,
    Nat.mod_eq_of_lt hlt]

/-- R302: a write changes the register at its offset alone. -/
theorem writeRegister_eq (off : Nat) (v : BitVec 128) (s : State) :
    writeRegister off v s = { s with dev := s.dev.written off v } := by
  by_cases hc128 : off = 0x0C
  · subst hc128
    simp [writeRegister, Device.written, Device.rowctlWritten, Device.routesWritten, bitAt_toNat_zero]
  by_cases htierto : off = 0x14
  · subst htierto
    simp [writeRegister, Device.written, Device.rowctlWritten, Device.routesWritten, bitsOf]
  by_cases hdefport : off = 0x80
  · subst hdefport
    simp [writeRegister, Device.written, Device.rowctlWritten, Device.routesWritten, BitVec.ofNat_toNat]
  by_cases hrowctl : off = 0x20 ∨ off = 0x24 ∨ off = 0x28 ∨ off = 0x2C
  · have hroute : ¬ 0x20000 ≤ off := by omega
    simp [writeRegister, Device.written, Device.rowctlWritten, Device.routesWritten, hc128, htierto, hdefport, hrowctl,
      hroute, bitsOf]
  by_cases hroute : 0x20000 ≤ off ∧ off < 0x20000 + 16 * 4096 ∧ off % 16 = 0
  · simp only [writeRegister, Device.written, Device.rowctlWritten, Device.routesWritten, hc128, htierto, hdefport,
      hrowctl, hroute, and_self, if_true, if_false, ofNat_bitsOf_route, putRoute]
  · simp only [writeRegister, Device.written, Device.rowctlWritten, Device.routesWritten, hc128, htierto, hdefport,
      hrowctl, hroute, if_false]

theorem vget_rowctlWritten (d : Device) (off : Nat) (v : BitVec 128) {i : Nat} (hi : i < 4) :
    vget (d.rowctlWritten off v) i 0 =
      if off = 0x20 + 4 * i then BitVec.ofNat 32 (v.toNat % 2 ^ 13) else vget d.rowctl i 0 := by
  unfold Device.rowctlWritten
  by_cases hoff : off = 0x20 + 4 * i
  · have hrow : off = 0x20 ∨ off = 0x24 ∨ off = 0x28 ∨ off = 0x2C := by omega
    have hdie : (off - 0x20) / 4 = i := by omega
    rw [if_pos hrow, if_pos hoff, hdie, vget_vset_eq _ _ _ _ hi]
  · rw [if_neg hoff]
    split
    case isTrue hrow => exact vget_vset_ne _ _ _ _ _ (by omega)
    case isFalse => rfl

theorem mem_routesWritten_same (d : Device) (v w : BitVec 128) {k : Nat} (hk : k < 4096) :
    (k, w) ∈ d.routesWritten (0x20000 + 16 * k) v ↔ w = v &&& (2 ^ 77 - 1) ∧ w ≠ 0 := by
  have hroute : 0x20000 ≤ 0x20000 + 16 * k ∧ 0x20000 + 16 * k < 0x20000 + 16 * 4096 ∧ (0x20000 + 16 * k) % 16 = 0 := by
    omega
  have hentry : (0x20000 + 16 * k - 0x20000) / 16 = k := by omega
  rw [Device.routesWritten, if_pos hroute, hentry, mem_putRoute]
  constructor
  · rintro (⟨-, rfl, hw⟩ | ⟨hne, -⟩)
    · exact ⟨rfl, hw⟩
    · exact absurd rfl hne
  · rintro ⟨rfl, hw⟩
    exact .inl ⟨rfl, rfl, hw⟩

theorem mem_routesWritten_other (d : Device) (v w : BitVec 128) {off k : Nat} (hoff : off ≠ 0x20000 + 16 * k) :
    (k, w) ∈ d.routesWritten off v ↔ (k, w) ∈ d.routes := by
  unfold Device.routesWritten
  split
  case isTrue hroute =>
    have hne : k ≠ (off - 0x20000) / 16 := by omega
    simp [mem_putRoute, hne]
  case isFalse => rfl

/-! Reads of registers. -/

theorem readRegister_of_registerAt {s : State} {off n v : Nat} (h : registerAt s off = some (n, v)) :
    readRegister off s = { s with hostReply := .bytes (toBytes v n) } := by
  rw [readRegister, h]

theorem registerAt_rowctl (s : State) {i : Nat} (hi : i < 4) :
    registerAt s (0x20 + 4 * i) = some (4, (vget s.dev.rowctl i 0).toNat) := by
  match i, hi with
  | 0, _ | 1, _ | 2, _ | 3, _ => rfl

/-- R301: counter j of account k. -/
theorem registerAt_account (s : State) {k j : Nat} (hk : k < 64) (hj : j < 6) :
    registerAt s (0x10000 + 64 * k + 8 * j) = some (8, ((vget s.dev.accounts k Account.reset).counter j).toNat) := by
  have hroute : ¬ 0x20000 ≤ 0x10000 + 64 * k + 8 * j := by omega
  have hacct : 0x10000 ≤ 0x10000 + 64 * k + 8 * j := by omega
  have haccount : (0x10000 + 64 * k + 8 * j - 0x10000) / 64 = k := by omega
  have hin : 0x10000 + 64 * k + 8 * j - 0x10000 - 64 * k = 8 * j := by omega
  have hcounter : 8 * j / 8 = j := by omega
  have haligned : 8 * j % 8 = 0 := by omega
  simp only [registerAt, hroute, hacct, haccount, hin, hcounter, haligned, hk, and_self, if_true, if_false]

/-- ROUTE entry k, 0 where the table does not list it. -/
theorem registerAt_route (s : State) {k : Nat} (hk : k < 4096) :
    registerAt s (0x20000 + 16 * k) =
      some (16, ((s.dev.routes.find? (·.1 == k)).map fun r => r.2.toNat).getD 0) := by
  have hroute : 0x20000 ≤ 0x20000 + 16 * k := by omega
  have hentry : (0x20000 + 16 * k - 0x20000) / 16 = k := by omega
  have haligned : (0x20000 + 16 * k) % 16 = 0 := by omega
  simp only [registerAt, hroute, hentry, haligned, hk, and_self, if_true]

/-- Settles O51: a doorbell, a clearing of QERR and a write to QBASE or QSIZE act on their queue alone; a write to any other
register is Device.written; and a read gives what registerAt has at the offset. -/
theorem managementWindow : Obligations.ManagementWindow := by
  unfold Obligations.ManagementWindow
  refine ⟨fun s q tail => ?_, fun s q bits => exec_qerrClear q bits s, fun s q size v => ?_, fun s off v => ?_,
    fun s => ?_⟩
  case refine_1 =>
    have hiff := (s.queue q).valid_iff
    refine ⟨fun hbad => ?_, fun hok hhigh => ?_, fun hok hlow => ?_⟩
    · rw [exec_dbell, if_pos (Bool.eq_false_iff.mpr (mt hiff.mp hbad))]
    · rw [exec_dbell, if_neg (by simp [hiff.mpr hok]), if_pos hhigh]
    · rw [exec_dbell, if_neg (by simp [hiff.mpr hok]), if_neg (Nat.not_le.mpr hlow)]
  case refine_2 =>
    exact ⟨fun h => exec_queueConfigWrite_untaken h size v,
      fun h => ⟨exec_queueConfigWrite_empty h true v, exec_queueConfigWrite_empty h false v⟩⟩
  case refine_3 =>
    refine ⟨s.dev.written off v, congrArg Host.Outcome.next (writeRegister_eq off v s), rfl, rfl, rfl, rfl,
      fun i hi => vget_rowctlWritten s.dev off v hi, ?_, ?_⟩
    · rintro k w hk rfl
      exact mem_routesWritten_same s.dev v w hk
    · exact fun k w _ hoff => mem_routesWritten_other s.dev v w hoff
  case refine_4 =>
    intro gives bit
    have hgives {off n v : Nat} (h : registerAt s off = some (n, v)) : gives off n v := readRegister_of_registerAt h
    refine ⟨hgives rfl, hgives rfl, hgives rfl, hgives rfl, hgives rfl, ?_, fun i hi => hgives (registerAt_rowctl s hi),
      ?_, hgives rfl, ?_, ?_⟩
    · intro off hoff
      have hcases : off = 0x18 ∨ off = 0x60 ∨ off = 0x68 := by simpa using hoff
      rcases hcases with rfl | rfl | rfl <;> exact hgives rfl
    · rintro (_ | _) <;> exact ⟨hgives rfl, hgives rfl, hgives rfl, hgives rfl⟩
    · intro k hk a j v hv
      obtain ⟨hj, -⟩ := List.getElem?_eq_some_iff.mp hv
      have hcounter : a.counter j = v := by rw [Account.counter, List.getD_eq_getElem?_getD, hv, Option.getD_some]
      exact hcounter ▸ hgives (registerAt_account s hk hj)
    · intro k hk
      have hroute := hgives (registerAt_route s hk)
      refine ⟨fun w hw => ?_, fun hnone => ?_⟩
      · rwa [hw] at hroute
      · rwa [hnone] at hroute

end Sys2Proof.Machine
end

section
/-! The encoder's layouts are read back by the decoder's, and so every word decodes to its instruction (R71 to R91). -/

namespace Sys2Proof

open BitVec (extractLsb'_append_eq_of_le extractLsb'_append_eq_right extractLsb'_eq_self)

/-! A field or a bit above the lowest part of a word. -/

theorem bitAt_append_of_le {m n i : Nat} {a : BitVec m} {b : BitVec n} (h : n ≤ i) :
    bitAt (a ++ b) i = bitAt a (i - n) := by
  rw [bitAt, BitVec.getLsbD_append, if_neg (Nat.not_lt.mpr h)]
  rfl

theorem bitAt_append_of_lt {m n i : Nat} {a : BitVec m} {b : BitVec n} (h : i < n) : bitAt (a ++ b) i = bitAt b i := by
  rw [bitAt, BitVec.getLsbD_append, if_pos h]
  rfl

@[simp] theorem bitAt_ofBool (v : Bool) : bitAt (BitVec.ofBool v) 0 = v := by cases v <;> rfl

@[simp] theorem bitAt_append_ofBool {m : Nat} (a : BitVec m) (v : Bool) : bitAt (a ++ BitVec.ofBool v) 0 = v :=
  (bitAt_append_of_lt Nat.one_pos).trans (bitAt_ofBool v)

/-! The layouts (R73, R76, R88, R89). Each field is what is left when the fields below it are taken off. -/

@[simp] theorem XWord.ofWord_toWord (m : XWord) : XWord.ofWord m.toWord = m := by
  rw [XWord.ofWord, XWord.mk.injEq]
  unfold XWord.toWord
  refine ⟨?_, ?_, ?_, ?_, ?_, ?_, ?_, ?_, ?_⟩ <;>
    (repeat erw [extractLsb'_append_eq_of_le (by decide)]) <;> (repeat erw [bitAt_append_of_le (by decide)])
  case refine_1 => exact extractLsb'_eq_self
  case refine_2 | refine_4 | refine_8 | refine_9 => exact extractLsb'_append_eq_right
  all_goals exact bitAt_append_ofBool _ _

@[simp] theorem LowLR.of_to (f : LowLR) : LowLR.of f.to = f := by
  rw [LowLR.of, LowLR.mk.injEq]
  unfold LowLR.to
  refine ⟨?_, ?_, ?_, ?_, ?_, ?_⟩ <;>
    (repeat erw [extractLsb'_append_eq_of_le (by decide)]) <;> (repeat erw [bitAt_append_of_le (by decide)])
  case refine_1 => exact extractLsb'_eq_self
  case refine_2 | refine_3 | refine_6 => exact extractLsb'_append_eq_right
  all_goals exact bitAt_append_ofBool _ _

@[simp] theorem LowLI.of_to (f : LowLI) : LowLI.of f.to = f := by
  rw [LowLI.of, LowLI.mk.injEq]
  unfold LowLI.to
  refine ⟨?_, ?_, ?_, ?_⟩ <;>
    (repeat erw [extractLsb'_append_eq_of_le (by decide)]) <;> (repeat erw [bitAt_append_of_le (by decide)])
  case refine_1 => exact extractLsb'_eq_self
  case refine_3 => exact bitAt_append_ofBool _ _
  all_goals exact extractLsb'_append_eq_right

@[simp] theorem LowLM.of_to (f : LowLM) : LowLM.of f.to = f := by
  rw [LowLM.of, LowLM.mk.injEq]
  unfold LowLM.to
  refine ⟨?_, ?_, ?_, ?_, ?_⟩ <;>
    (repeat erw [extractLsb'_append_eq_of_le (by decide)]) <;> (repeat erw [bitAt_append_of_le (by decide)])
  case refine_1 => exact extractLsb'_eq_self
  case refine_3 => exact bitAt_append_ofBool _ _
  all_goals exact extractLsb'_append_eq_right

@[simp] theorem LowLT.of_to (f : LowLT) : LowLT.of f.to = f := by
  rw [LowLT.of, LowLT.mk.injEq]
  unfold LowLT.to
  refine ⟨?_, ?_, ?_, ?_⟩ <;> (repeat erw [extractLsb'_append_eq_of_le (by decide)])
  case refine_1 => exact extractLsb'_eq_self
  all_goals exact extractLsb'_append_eq_right

@[simp] theorem LowGB.of_to (f : LowGB) : LowGB.of f.to = f := by
  rw [LowGB.of, LowGB.mk.injEq]
  unfold LowGB.to
  refine ⟨?_, ?_, ?_, ?_⟩ <;>
    (repeat erw [extractLsb'_append_eq_of_le (by decide)]) <;> (repeat erw [bitAt_append_of_le (by decide)])
  case refine_1 => exact extractLsb'_eq_self
  case refine_4 => exact extractLsb'_append_eq_right
  all_goals exact bitAt_append_ofBool _ _

@[simp] theorem LowES.of_to (f : LowES) : LowES.of f.to = f := by
  rw [LowES.of, LowES.mk.injEq]
  unfold LowES.to
  refine ⟨?_, ?_, ?_, ?_, ?_⟩ <;> (repeat erw [extractLsb'_append_eq_of_le (by decide)])
  case refine_1 => exact extractLsb'_eq_self
  all_goals exact extractLsb'_append_eq_right

@[simp] theorem LowFork.of_to (f : LowFork) : LowFork.of f.to = f := by
  rw [LowFork.of, LowFork.mk.injEq]
  unfold LowFork.to
  refine ⟨?_, ?_, ?_, ?_, ?_⟩ <;> (repeat erw [extractLsb'_append_eq_of_le (by decide)])
  case refine_1 => exact extractLsb'_eq_self
  all_goals exact extractLsb'_append_eq_right

@[simp] theorem LowFence.of_to (f : LowFence) : LowFence.of f.to = f := by
  rw [LowFence.of, LowFence.mk.injEq]
  unfold LowFence.to
  refine ⟨?_, ?_, ?_, ?_⟩ <;> (repeat erw [extractLsb'_append_eq_of_le (by decide)])
  case refine_1 => exact extractLsb'_eq_self
  all_goals exact extractLsb'_append_eq_right

/-- PLOP's layout (R83). -/
theorem decodePlop_fields (s : Bool) (x : Option XWord) (pd pa pb : BitVec 5) (t : BitVec 4) :
    decodePlop s x (0#1 ++ pd ++ 0#1 ++ pa ++ t ++ 0#2 ++ pb) = some (.plop s pd pa pb t x) := by
  have hbits : bitAt (0#1 ++ pd ++ 0#1 ++ pa ++ t ++ 0#2 ++ pb : BitVec 23) 22 = false ∧
      bitAt (0#1 ++ pd ++ 0#1 ++ pa ++ t ++ 0#2 ++ pb : BitVec 23) 16 = false := by
    constructor <;> (repeat erw [bitAt_append_of_le (by decide)])
    · rfl
    · erw [bitAt_append_of_lt (by decide)]
      rfl
  have hfields : (0#1 ++ pd ++ 0#1 ++ pa ++ t ++ 0#2 ++ pb : BitVec 23).extractLsb' 5 2 = 0 ∧
      (0#1 ++ pd ++ 0#1 ++ pa ++ t ++ 0#2 ++ pb : BitVec 23).extractLsb' 17 5 = pd ∧
      (0#1 ++ pd ++ 0#1 ++ pa ++ t ++ 0#2 ++ pb : BitVec 23).extractLsb' 11 5 = pa ∧
      (0#1 ++ pd ++ 0#1 ++ pa ++ t ++ 0#2 ++ pb : BitVec 23).extractLsb' 0 5 = pb ∧
      (0#1 ++ pd ++ 0#1 ++ pa ++ t ++ 0#2 ++ pb : BitVec 23).extractLsb' 7 4 = t := by
    refine ⟨?_, ?_, ?_, ?_, ?_⟩ <;> (repeat erw [extractLsb'_append_eq_of_le (by decide)]) <;>
      exact extractLsb'_append_eq_right
  obtain ⟨hzero, hpd, hpa, hpb, ht⟩ := hfields
  rw [decodePlop, hbits.1, hbits.2, hzero, hpd, hpa, hpb, ht]
  rfl

/-! Narrow fields and codes. -/

@[simp] theorem predField_append (p : BitVec 5) : predField (0#1 ++ p) = some p := by decide +revert
@[simp] theorem accField_append (n : BitVec 4) : accField (0#2 ++ n) = some n := by decide +revert
@[simp] theorem ICond.of_to (c : ICond) : ICond.of c.to = c := by cases c <;> rfl
@[simp] theorem FCond.of_to (c : FCond) : FCond.of c.to = c := by cases c <;> rfl
@[simp] theorem ReapOp.of_to (o : ReapOp) : ReapOp.of o.to = o := by cases o <;> rfl
@[simp] theorem ShflOp.bit_to (o : ShflOp) : bitAt o.to 2 = false := by cases o <;> decide
@[simp] theorem ShflOp.of_to (o : ShflOp) : ShflOp.of (o.to.extractLsb' 0 2) = o := by cases o <;> decide
@[simp] theorem WaitCond.bit_to (c : WaitCond) : bitAt c.to 2 = false := by cases c <;> decide
@[simp] theorem WaitCond.of_to (c : WaitCond) : WaitCond.of (c.to.extractLsb' 0 2) = c := by cases c <;> decide
@[simp] theorem CollOp.of_to (o : CollOp) : CollOp.of o.to = o := by cases o <;> rfl
@[simp] theorem flag5_rest (b : Bool) : (0#4 ++ BitVec.ofBool b).extractLsb' 1 4 = 0 := by cases b <;> decide
@[simp] theorem flag7_rest (b : Bool) : (0#6 ++ BitVec.ofBool b).extractLsb' 1 6 = 0 := by cases b <;> decide
@[simp] theorem slot_bit (n : BitVec 2) : bitAt (0#1 ++ n) 2 = false := by decide +revert
@[simp] theorem slot_number (n : BitVec 2) : (0#1 ++ n).extractLsb' 0 2 = n := by decide +revert
@[simp] theorem rm_rest (n : BitVec 3) : (0#3 ++ n).extractLsb' 3 3 = 0 := by decide +revert
@[simp] theorem rm_code (n : BitVec 3) : (0#3 ++ n).extractLsb' 0 3 = n := by decide +revert


theorem cpy_fields (n : BitVec 2) (cv sg ss : Bool) :
    let fn : BitVec 7 := 0#2 ++ BitVec.ofBool ss ++ BitVec.ofBool sg ++ BitVec.ofBool cv ++ n
    fn.extractLsb' 5 2 = 0 ∧ fn.extractLsb' 0 2 = n ∧ bitAt fn 2 = cv ∧ bitAt fn 3 = sg ∧ bitAt fn 4 = ss := by
  decide +revert

theorem coll_fields (o red : BitVec 2) :
    let fn : BitVec 7 := 0#3 ++ red ++ o
    fn.extractLsb' 4 3 = 0 ∧ fn.extractLsb' 0 2 = o ∧ fn.extractLsb' 2 2 = red := by
  decide +revert

theorem eloop_offset (off : BitVec 12) : off.extractLsb' 8 4 ++ off.extractLsb' 4 4 ++ off.extractLsb' 0 4 = off := by
  refine BitVec.eq_of_getLsbD_eq fun i hi => ?_
  simp only [BitVec.getLsbD_append, BitVec.getLsbD_extractLsb']
  by_cases h4 : i < 4
  · simp [h4]
  by_cases h8 : i < 8
  · simp [h4, show i - 4 < 4 by omega, show 4 + (i - 4) = i by omega]
  · simp [h4, show ¬ i - 4 < 4 by omega, show i - 4 - 4 < 4 by omega, show 8 + (i - 4 - 4) = i by omega]

/-! What follows the first word. -/

@[simp] theorem xword_isSome (x : Option XWord) : (xword x).isSome = x.isSome := by cases x <;> rfl

@[simp] theorem xword_map_ofWord (x : Option XWord) : (xword x).map XWord.ofWord = x := by
  cases x with
  | none => rfl
  | some m => exact congrArg some m.ofWord_toWord

/-- A word is decoded from its set, S, opcode and low bits, and from the word after it. -/
theorem decode_enc (g s : Bool) (op : BitVec 6) (low : BitVec 23) (ext : Option Word) (more : List Word) :
    decode (enc g s op low ext more) =
      if g then decodeG ⟨g, s, ext.isSome, op, low⟩ (ext.map XWord.ofWord) ext (ext.elim [] (· :: more))
      else decodeL ⟨g, s, ext.isSome, op, low⟩ (ext.map XWord.ofWord) ext := by
  cases ext <;> simp only [decode, enc, First.ofWord_toWord] <;> rfl

/-! One word of each layout. A layout is a pair of functions of which the decoder's takes the encoder's back. -/

section
variable {α : Type} {rd : BitVec 23 → α} {lay : α → BitVec 23} (hof : ∀ f, rd (lay f) = f)
  {s : Bool} {op : BitVec 6} {f : α} {x : Option XWord} {ext : Option Word} {i : Instr} {k : α → Option Instr}
include hof

/-- A word of the L set with a modifier word: the opcode's row reads the fields of the layout. -/
theorem decode_enc_L (hrow : ∀ low, decodeL ⟨false, s, x.isSome, op, low⟩ x (xword x) = k (rd low))
    (hk : k f = some i) : decode (enc false s op (lay f) (xword x)) = some i := by
  have h := hrow (lay f)
  rw [hof, hk] at h
  rw [decode_enc, xword_map_ofWord, xword_isSome]
  exact h

/-- A word of the L set with a literal. -/
theorem decode_enc_L_lit (hrow : ∀ low, decodeL ⟨false, s, ext.isSome, op, low⟩ (ext.map XWord.ofWord) ext = k (rd low))
    (hk : k f = some i) : decode (enc false s op (lay f) ext) = some i := by
  have h := hrow (lay f)
  rw [hof, hk] at h
  exact (decode_enc ..).trans h

/-- A word of the G set with a modifier word. -/
theorem decode_enc_G
    (hrow : ∀ low rest, decodeG ⟨true, s, x.isSome, op, low⟩ x (xword x) rest = k (rd low))
    (hk : k f = some i) : decode (enc true s op (lay f) (xword x)) = some i := by
  have h := hrow (lay f) ((xword x).elim [] (· :: []))
  rw [hof, hk] at h
  rw [decode_enc, xword_map_ofWord, xword_isSome]
  exact h

/-- A word of the G set with a literal. -/
theorem decode_enc_G_lit
    (hrow : ∀ low rest, decodeG ⟨true, s, ext.isSome, op, low⟩ (ext.map XWord.ofWord) ext rest = k (rd low))
    (hk : k f = some i) : decode (enc true s op (lay f) ext) = some i := by
  have h := hrow (lay f) (ext.elim [] (· :: []))
  rw [hof, hk] at h
  exact (decode_enc ..).trans h

end

theorem decode_encImm_L {op : BitVec 6} {w : WImm} {mk : WImm → Instr}
    (hrow : ∀ low, decodeL ⟨false, w.s, w.lit.isSome, op, low⟩ (w.lit.map XWord.ofWord) w.lit =
      some (mk ⟨w.s, (LowLI.of low).d, (LowLI.of low).a, (LowLI.of low).la, (LowLI.of low).imm, w.lit⟩)) :
    decode (encImm false op w) = some (mk w) :=
  decode_enc_L_lit LowLI.of_to (k := fun li => some (mk ⟨w.s, li.d, li.a, li.la, li.imm, w.lit⟩)) hrow rfl

theorem decode_encMem_L {op : BitVec 6} {w : WMem} {mk : WMem → Instr}
    (hrow : ∀ low, decodeL ⟨false, w.s, w.x.isSome, op, low⟩ w.x (xword w.x) = some (mk ((LowLM.of low).mem w.s w.x))) :
    decode (encMem false op w) = some (mk w) :=
  decode_enc_L LowLM.of_to (k := fun lm => some (mk (lm.mem w.s w.x))) hrow rfl

theorem decode_encMem_G {op : BitVec 6} {w : WMem} {mk : WMem → Instr}
    (hrow : ∀ low rest, decodeG ⟨true, w.s, w.x.isSome, op, low⟩ w.x (xword w.x) rest =
      some (mk ((LowLM.of low).mem w.s w.x))) :
    decode (encMem true op w) = some (mk w) :=
  decode_enc_G LowLM.of_to (k := fun lm => some (mk (lm.mem w.s w.x))) hrow rfl

/-- The rows of MODESET. -/
def decodeModeset (s : Bool) (x : Option XWord) (lr : LowLR) : Option Instr :=
  match lr.fn.toNat with
  | 0 => lr.src s x .modeset
  | 1 => only (lr.d.extractLsb' 3 3 == 0 && lr.a == 0 && lr.b == 0 && !lr.la && !lr.lb)
      (.modesetRm s (lr.d.extractLsb' 0 3) x)
  | 2 => lr.src s x .modesetClr
  | _ => none

/-- The rows of TLBINV. -/
def decodeTlbinv (s : Bool) (x : Option XWord) (lr : LowLR) : Option Instr :=
  if lr.fn = 0 then lr.addr s x .tlbinv
  else if lr.fn = 1 then only (lr.d == 0 && lr.a == 0 && lr.b == 0 && !lr.la && !lr.lb) (.tlbinvCtx s x)
  else if lr.fn = 2 then only (lr.d == 0 && lr.a == 0 && lr.b == 0 && !lr.la && !lr.lb) (.tlbinvAll s x)
  else none

/-- The rows of ECTL. -/
def decodeEctl (e : LowES) : Option Instr :=
  match e.fn.toNat with
  | 0 => only (e.ec == 0) (.ewait e.ea e.eb e.ed)
  | 1 => some (.eloop e.ea (e.eb ++ e.ec ++ e.ed))
  | 2 => only (e.ea == 0 && e.eb == 0 && e.ec == 0 && e.ed == 0) .eend
  | 3 => only (e.ec == 0 && e.ed == 0) (.esig e.ea e.eb)
  | _ => none

/-- An engine-class word. -/
theorem decode_encES {op : BitVec 6} {ea eb ec ed : BitVec 4} {fn : BitVec 7} {i : Instr} {k : LowES → Option Instr}
    (hrow : ∀ low rest, decodeG ⟨true, false, false, op, low⟩ none none rest = k (LowES.of low))
    (hk : k ⟨ea, eb, ec, ed, fn⟩ = some i) : decode (encES op ea eb ec ed fn) = some i :=
  decode_enc_G_lit LowES.of_to (ext := none) hrow hk

/-! What a well-formed term's fields are. -/

theorem legal_of_wellFormed {i : Instr} (hw : WellFormed i = true) (he : i.isEvent = false) (hc : engineClass i = false) :
    fixedOk i = true ∧ (Machine.formOf (fun _ => 0) 16 i).legal = true := by
  simpa [WellFormed, he, hc] using hw

theorem ok_of_wellFormed {i : Instr} (hw : WellFormed i = true) (he : i.isEvent = false) (hc : engineClass i = false) :
    (Machine.formOf (fun _ => 0) 16 i).ok = true := by
  have h := (legal_of_wellFormed hw he hc).2
  simp only [Machine.Form.legal, Bool.and_eq_true] at h
  exact h.1.1.1

/-! FORK (R88): the bytes of sources that it does not have are 0. -/

theorem getLsbD_src_of_forkByte {w : WFork} {i : Nat} (h : Machine.forkByte w (i / 8) = 0) : w.src.getLsbD i = false := by
  have hbit : (Machine.forkByte w (i / 8)).getLsbD (i % 8) = w.src.getLsbD i := by
    simp only [Machine.forkByte, BitVec.getLsbD_extractLsb', Nat.mod_lt i (by decide : 8 > 0), Nat.div_add_mod, decide_true,
      Bool.true_and]
  rw [← hbit, h]
  exact BitVec.getLsbD_zero

theorem extractLsb'_src_eq_zero {w : WFork} {lo n : Nat} (hlo : ∀ i, lo ≤ i → i < 8 → Machine.forkByte w i = 0) :
    w.src.extractLsb' (8 * lo) n = 0 := by
  refine BitVec.eq_of_getLsbD_eq fun i _ => ?_
  refine (BitVec.getLsbD_extractLsb' ..).trans (Eq.trans ?_ BitVec.getLsbD_zero.symm)
  rw [Bool.and_eq_false_iff]
  by_cases hi : 8 * lo + i < 64
  · exact .inr (getLsbD_src_of_forkByte (hlo _ (by omega) (by omega)))
  · exact .inr (BitVec.getLsbD_of_ge _ _ (by omega))

theorem src_halves (v : BitVec 64) : v.extractLsb' 32 32 ++ v.extractLsb' 0 32 = v := by
  refine BitVec.eq_of_getLsbD_eq fun i hi => ?_
  rw [BitVec.getLsbD_append, BitVec.getLsbD_extractLsb', BitVec.getLsbD_extractLsb']
  by_cases h : i < 32
  · simp [h]
  · simp [h, show i - 32 < 32 by omega, show 32 + (i - 32) = i by omega]

/-- FORK reads back its sources from the words that follow the offset. -/
theorem forkSrc_of_sources {w : WFork} (off : Word) (hn : w.n.toNat ≤ 8)
    (hz : ∀ i, w.n.toNat ≤ i → i < 8 → Machine.forkByte w i = 0) :
    forkSrc w.n (off :: if w.n.toNat = 0 ∨ 8 < w.n.toNat then [] else if w.n.toNat ≤ 4 then [w.src.extractLsb' 0 32]
      else [w.src.extractLsb' 0 32, w.src.extractLsb' 32 32]) = w.src := by
  have hmax : ¬ 8 < w.n.toNat := Nat.not_lt.mpr hn
  by_cases h0 : w.n.toNat = 0
  · have hn0 : w.n = 0 := BitVec.eq_of_toNat_eq h0
    have hsrc := extractLsb'_src_eq_zero (w := w) (lo := 0) (n := 64) fun i _ => hz i (by omega)
    rw [BitVec.extractLsb'_eq_self] at hsrc
    rw [if_pos (.inl h0), forkSrc, hsrc, if_pos hn0, if_pos (by omega)]
    decide
  have hne : w.n ≠ 0 := fun h => h0 (by rw [h]; rfl)
  by_cases h4 : w.n.toNat ≤ 4
  · have hhigh := extractLsb'_src_eq_zero (w := w) (lo := 4) (n := 32) fun i hi => hz i (by omega)
    rw [if_neg (by omega), if_pos h4, forkSrc, if_neg hne, if_pos h4]
    exact (congrArg (· ++ w.src.extractLsb' 0 32) hhigh.symm).trans (src_halves w.src)
  · rw [if_neg (by omega), if_neg h4, forkSrc, if_neg hne, if_neg h4]
    exact src_halves w.src

theorem decode_encFork {w : WFork} (hok : Machine.forkOk w = true) : decode (encFork w) = some (.fork w) := by
  simp only [Machine.forkOk, Bool.and_eq_true, decide_eq_true_eq, List.all_eq_true, List.mem_range] at hok
  obtain ⟨⟨⟨⟨⟨hoff, -⟩, hn⟩, -⟩, -⟩, hbytes⟩ := hok
  obtain ⟨off, hoff⟩ := Option.isSome_iff_exists.mp hoff.1.1
  have hz : ∀ i, w.n.toNat ≤ i → i < 8 → Machine.forkByte w i = 0 := fun i hi h8 => by
    simpa [Nat.not_lt.mpr hi] using hbytes i h8
  have hrow (low : BitVec 23) (rest : List Word) :
      decodeG ⟨true, w.s, true, 0x19, low⟩ (some (XWord.ofWord off)) (some off) rest =
        some (.fork ⟨w.s, (LowFork.of low).d, (LowFork.of low).cls, (LowFork.of low).scope, (LowFork.of low).n,
          (LowFork.of low).low, some off, forkSrc (LowFork.of low).n rest⟩) := rfl
  rw [encFork, hoff, decode_enc, if_pos rfl]
  refine (hrow ..).trans ?_
  rw [LowFork.of_to]
  have hsrc := congrArg (fun src => some (Instr.fork { w with off := some off, src := src })) (forkSrc_of_sources off hn hz)
  exact hsrc.trans (by rw [← hoff])

/-- Every word of a strip and of an engine program decodes to its instruction. -/
theorem decode_encode (i : Instr) (hw : WellFormed i = true) (he : i.isEvent = false) : decode (encode i) = some i := by
  cases i
  case add t w | sub t w | mul t w | mulh t w | min t w | max t w | addc t w | mad t w =>
    exact decode_enc_L LowLR.of_to (k := decodeIalu t w.s w.x) (by cases t <;> exact fun _ => rfl) rfl
  case addG u w | subG u w | mulG u w | mulhG u w | minG u w | maxG u w | addcG u w | madG u w =>
    exact decode_enc_G LowLR.of_to (k := decodeIaluG u w.s w.x) (by cases u <;> exact fun _ _ => rfl) rfl
  case and w | or w | xor w | andn w | shl w | shr w | sar w =>
    exact decode_enc_L LowLR.of_to (k := decodeLogic false w.s w.x) (fun _ => rfl) rfl
  case andG w | orG w | xorG w | andnG w | shlG w | shrG w | sarG w =>
    exact decode_enc_G LowLR.of_to (k := decodeLogic true w.s w.x) (fun _ _ => rfl) rfl
  case popc w | clz w | brev w | bfx w | bfi w | prmt w | lea w | sel w =>
    exact decode_enc_L LowLR.of_to (k := decodeBits w.s w.x) (fun _ => rfl) rfl
  case icmp c w =>
    exact decode_enc_L LowLR.of_to (k := fun lr => decodeCmp w.s w.x lr (.icmp (ICond.of lr.fn))) (fun _ => rfl)
      (by simp [decodeCmp])
  case icmpG c w =>
    exact decode_enc_G LowLR.of_to (k := fun lr => decodeCmp w.s w.x lr (.icmpG (ICond.of lr.fn))) (fun _ _ => rfl)
      (by simp [decodeCmp])
  case addi w | muli w | andi w | ori w | xori w | shli w | shri w | sari w =>
    exact decode_encImm_L fun _ => rfl
  case movi w =>
    exact decode_enc_L_lit LowLI.of_to (k := fun li => only (li.a == 0 && !li.la) (.movi ⟨w.s, li.d, li.imm, w.lit⟩))
      (fun _ => rfl) rfl
  case addiG w =>
    exact decode_enc_G_lit LowLI.of_to (k := fun li => some (.addiG ⟨w.s, li.d, li.a, li.la, li.imm, w.lit⟩))
      (fun _ _ => rfl) rfl
  case moviG w =>
    exact decode_enc_G_lit LowLI.of_to (k := fun li => only (li.a == 0 && !li.la) (.moviG ⟨w.s, li.d, li.imm, w.lit⟩))
      (fun _ _ => rfl) rfl
  case mov w | mku w | movs w =>
    exact decode_enc_L LowLR.of_to (k := decodeMove w.s w.x) (fun _ => rfl) rfl
  case pmovToReg w | pmovToPred w =>
    exact decode_enc_L LowLR.of_to (k := decodeMove w.s w.x) (fun _ => rfl) (by simp [decodeMove, only])
  case movG w | movsG w =>
    exact decode_enc_G LowLR.of_to (k := decodeMoveG w.s w.x) (fun _ _ => rfl) rfl
  case plop s pd pa pb t x =>
    rw [encode, decode_enc, xword_map_ofWord]
    exact decodePlop_fields s x pd pa pb t
  case fadd f w | fsub f w | fmul f w | fmin f w | fmax f w | ffma f w | fscl f w =>
    exact decode_enc_L LowLR.of_to (k := decodeFalu f w.s w.x) (by cases f <;> exact fun _ => rfl) rfl
  case fcmp f c w =>
    exact decode_enc_L LowLR.of_to (k := fun lr => decodeCmp w.s w.x lr (.fcmp f (FCond.of lr.fn)))
      (by cases f <;> exact fun _ => rfl) (by simp [decodeCmp])
  case frcp w | frsq w | fsqrt w | fexp2 w | flog2 w | fsin w | fcos w | ftanh w =>
    exact decode_enc_L LowLR.of_to (k := decodeFunc w.s w.x) (fun _ => rfl) rfl
  case fclass w | frnd w =>
    exact decode_enc_L LowLR.of_to (k := fun lr => if lr.fn = 0 then lr.w2 w.s w.x .fclass
      else if lr.fn = 1 then lr.w2 w.s w.x .frnd else none) (fun _ => rfl) rfl
  case cvt fn w =>
    exact decode_enc_L LowLR.of_to (k := fun lr => some (.cvt lr.fn (lr.w3 w.s w.x))) (fun _ => rfl) rfl
  case vdot w =>
    exact decode_enc_L LowLR.of_to (k := fun lr => only (lr.fn == 0) (.vdot (lr.w3 w.s w.x))) (fun _ => rfl) rfl
  case shfl o w =>
    exact decode_enc_L LowLR.of_to (k := fun lr => only (!bitAt lr.fn 2)
      (.shfl (ShflOp.of (lr.fn.extractLsb' 0 2)) (lr.w3 w.s w.x))) (fun _ => rfl) (by simp [only, LowLR.w3])
  case voteAll w | voteAny w | voteMask w | voteSame w =>
    exact decode_enc_L LowLR.of_to (k := decodeVote w.s w.x) (fun _ => rfl) (by simp [decodeVote, only])
  case reap o w =>
    exact decode_enc_L LowLR.of_to (k := fun lr => lr.w2 w.s w.x (.reap (ReapOp.of lr.fn))) (fun _ => rfl)
      (by simp [LowLR.w2, only])
  case rng fn w =>
    have hfn : fn.toNat < 3 := of_decide_eq_true (Bool.and_eq_true_iff.mp (ok_of_wellFormed hw he rfl)).2
    exact decode_enc_L LowLR.of_to (k := fun lr => only (lr.b == 0 && !lr.lb && !lr.la && decide (lr.fn.toNat < 3))
      (.rng lr.fn ⟨w.s, lr.d, lr.a, w.x⟩)) (fun _ => rfl) (by simp [only, hfn])
  case ld w | st w | lds w | sts w | atom w | atoms w | cas w =>
    exact decode_encMem_L fun _ => rfl
  case pref w =>
    exact decode_enc_L LowLM.of_to (k := fun lm => only (lm.d == 0 && lm.sz == 0) (.pref ⟨w.s, lm.a, lm.la, lm.off, w.x⟩))
      (fun _ => rfl) rfl
  case ldt w =>
    exact decode_enc_L LowLT.of_to (k := fun lt => only (lt.fn.extractLsb' 1 4 == 0)
      (.ldt ⟨w.s, lt.d, lt.a, lt.b, bitAt lt.fn 0, w.x⟩)) (fun _ => rfl) (by simp [only])
  case stt w =>
    obtain ⟨s, d, a, b, t, x⟩ := w
    obtain rfl : t = false := by simpa [fixedOk] using (legal_of_wellFormed hw he rfl).1
    exact decode_enc_L LowLT.of_to (k := fun lt => only (lt.fn == 0) (.stt ⟨s, lt.d, lt.a, lt.b, false, x⟩))
      (fun _ => rfl) rfl
  case stash w =>
    obtain ⟨s, d, a, b, t, x⟩ := w
    obtain rfl : t = false := by simpa [fixedOk] using (legal_of_wellFormed hw he rfl).1
    exact decode_enc_L LowLT.of_to (k := fun lt => only (lt.fn == 0) (.stash ⟨s, lt.d, lt.a, lt.b, false, x⟩))
      (fun _ => rfl) rfl
  case mma w =>
    exact decode_enc_L LowLT.of_to (k := fun lt => decodeMma w.s w.x lt .mma) (fun _ => rfl) (by simp [decodeMma, only])
  case smma w =>
    exact decode_enc_L LowLT.of_to (k := fun lt => decodeMma w.s w.x lt .smma) (fun _ => rfl) (by simp [decodeMma, only])
  case accrd w | accrdZero w =>
    exact decode_enc_L LowLT.of_to (k := fun lt => (accField lt.a).bind fun c =>
      if lt.fn = 0 then only (lt.b == 0) (.accrd ⟨w.s, lt.d, c, w.x⟩)
      else if lt.fn = 1 then only (lt.b == 0) (.accrdZero ⟨w.s, lt.d, c, w.x⟩) else none) (fun _ => rfl) (by simp [only])
  case accwr w =>
    exact decode_enc_L LowLT.of_to (k := fun lt => (accField lt.d).bind fun c =>
      if lt.fn = 0 then only (lt.b == 0) (.accwr ⟨w.s, lt.a, c, w.x⟩)
      else if lt.fn = 1 then only (lt.b == 0 && lt.a == 0) (.accwrZero w.s c w.x) else none) (fun _ => rfl) (by simp [only])
  case accwrZero s acc x =>
    exact decode_enc_L LowLT.of_to (k := fun lt => (accField lt.d).bind fun c =>
      if lt.fn = 0 then only (lt.b == 0) (.accwr ⟨s, lt.a, c, x⟩)
      else if lt.fn = 1 then only (lt.b == 0 && lt.a == 0) (.accwrZero s c x) else none) (fun _ => rfl) (by simp [only])
  case ldG w | stG w =>
    exact decode_encMem_G fun _ _ => rfl
  case bra s p neg off lit =>
    exact decode_enc_G_lit LowGB.of_to (k := fun gb => only (!gb.z) (.bra s gb.p gb.neg gb.off lit)) (fun _ _ => rfl) rfl
  case call s off lit =>
    exact decode_enc_G_lit LowGB.of_to (k := fun gb => only (!gb.z && gb.neg && gb.p == 31) (.call s gb.off lit))
      (fun _ _ => rfl) rfl
  case join s | ret s | elect s | elend s | tfence s | nop s | replend s | tret s | rqrel s => exact decode_enc (more := []) ..
  case exit s x =>
    rw [encode, decode_enc, xword_map_ofWord]
    rfl
  case jmpi w =>
    exact decode_enc_G LowLR.of_to (k := fun lr => if lr.fn = 0 then lr.src w.s w.x .jmpi else none) (fun _ _ => rfl) rfl
  case rdv w =>
    exact decode_enc_G LowLR.of_to (k := fun lr => if lr.fn = 0 then lr.src w.s w.x .rdv else none) (fun _ _ => rfl) rfl
  case barSync s n x | barArrive s n x | barWait s n x =>
    exact decode_enc_G LowLR.of_to (k := decodeBar s x) (fun _ _ => rfl) (by simp [decodeBar])
  case fork w => exact decode_encFork (ok_of_wellFormed hw he rfl)
  case fence w =>
    exact decode_enc_G_lit LowFence.of_to (ext := none)
      (k := fun k => only (k.low == 0) (.fence ⟨w.s, k.pre, k.succ, k.scope⟩))
      (fun _ _ => rfl) rfl
  case wait c w =>
    exact decode_enc_G LowLR.of_to (k := fun lr => if bitAt lr.fn 2 then none
      else lr.addr2 w.s w.x (.wait (WaitCond.of (lr.fn.extractLsb' 0 2)))) (fun _ _ => rfl) (by simp [LowLR.addr2, only])
  case trap s imm lit =>
    exact decode_enc_G_lit LowLI.of_to (k := fun li => only (li.d == 0 && li.a == 0 && !li.la) (.trap s li.imm lit))
      (fun _ _ => rfl) rfl
  case fmtset w =>
    exact decode_enc_G LowLR.of_to (k := fun lr => if lr.fn = 0 then lr.w2 w.s w.x .fmtset else none) (fun _ _ => rfl) rfl
  case setsr w =>
    exact decode_enc_G LowLR.of_to (k := fun lr => if lr.fn = 0 then lr.w2 w.s w.x .setsr else none) (fun _ _ => rfl) rfl
  case fmtget w =>
    exact decode_enc_G LowLR.of_to (k := fun lr => if lr.fn = 0 then only (lr.b == 0 && !lr.la && !lr.lb)
      (.fmtget ⟨w.s, lr.d, lr.a, w.x⟩) else none) (fun _ _ => rfl) rfl
  case fmtselSlot s code n x =>
    exact decode_enc_G LowLR.of_to (k := fun lr => if bitAt lr.fn 2 then (if lr.fn = 4 then lr.src s x .fmtselReg else none)
      else only (lr.a == 0 && lr.b == 0 && !lr.la && !lr.lb) (.fmtselSlot s lr.d (lr.fn.extractLsb' 0 2) x))
      (fun _ _ => rfl) (by simp [only])
  case fmtselReg w =>
    exact decode_enc_G LowLR.of_to (k := fun lr => if bitAt lr.fn 2 then (if lr.fn = 4 then lr.src w.s w.x .fmtselReg else none)
      else only (lr.a == 0 && lr.b == 0 && !lr.la && !lr.lb) (.fmtselSlot w.s lr.d (lr.fn.extractLsb' 0 2) w.x))
      (fun _ _ => rfl) (by simp [LowLR.src, only, (by decide : bitAt 4#3 2 = true)])
  case modeset w | modesetClr w =>
    exact decode_enc_G LowLR.of_to (k := decodeModeset w.s w.x) (fun _ _ => rfl) rfl
  case modesetRm s rm x =>
    exact decode_enc_G LowLR.of_to (k := decodeModeset s x) (fun _ _ => rfl) (by simp [decodeModeset, only])
  case ckpt w =>
    exact decode_enc_G LowLR.of_to (k := fun lr => if lr.fn = 0 then lr.addr w.s w.x .ckpt else none) (fun _ _ => rfl) rfl
  case replay w =>
    exact decode_enc_G LowLR.of_to (k := fun lr => if lr.fn = 0 then lr.addr w.s w.x .replay else none) (fun _ _ => rfl) rfl
  case launch w =>
    exact decode_enc_G LowLR.of_to (k := fun lr => if lr.fn = 0 then lr.addr w.s w.x .launch else none) (fun _ _ => rfl) rfl
  case qput s d g x =>
    exact decode_enc_G LowLR.of_to (k := fun lr => only (lr.fn == 0 && lr.a == 0 && !lr.la && !lr.lb) (.qput s lr.d lr.b x))
      (fun _ _ => rfl) rfl
  case qget s d x =>
    exact decode_enc_G LowLR.of_to (k := fun lr => only (lr.fn == 0 && lr.a == 0 && lr.b == 0 && !lr.la && !lr.lb)
      (.qget s lr.d x)) (fun _ _ => rfl) rfl
  case icinv w =>
    exact decode_enc_G LowLR.of_to (k := fun lr => if lr.fn = 0 then lr.addr2 w.s w.x .icinv else none) (fun _ _ => rfl) rfl
  case cflush w | cflushInv w =>
    exact decode_enc_G LowLR.of_to (k := fun lr => if lr.fn = 0 then lr.addr2 w.s w.x .cflush
      else if lr.fn = 1 then lr.addr2 w.s w.x .cflushInv else none) (fun _ _ => rfl) rfl
  case rngseed n w =>
    obtain ⟨s, d, a, b, la, lb, x⟩ := w
    obtain rfl : d = 0 := by simpa [fixedOk] using (legal_of_wellFormed hw he rfl).1
    exact decode_enc_G LowLR.of_to (k := fun lr => only (!bitAt lr.fn 2 && lr.d == 0)
      (.rngseed (lr.fn.extractLsb' 0 2) (lr.w3 s x))) (fun _ _ => rfl) (by simp [only, LowLR.w3])
  case bwsetMem w | bwsetLink w =>
    exact decode_enc_G LowLR.of_to (k := fun lr => if lr.fn = 0 then lr.src w.s w.x .bwsetMem
      else if lr.fn = 1 then lr.src w.s w.x .bwsetLink else none) (fun _ _ => rfl) rfl
  case pgmapL0 w | pgmapL1 w =>
    exact decode_enc_G LowLR.of_to (k := fun lr => if lr.fn = 0 then lr.addr2 w.s w.x .pgmapL0
      else if lr.fn = 1 then lr.addr2 w.s w.x .pgmapL1 else none) (fun _ _ => rfl) rfl
  case harvest w =>
    exact decode_enc_G LowLR.of_to (k := fun lr => if lr.fn = 0 then lr.addr2 w.s w.x .harvest else none) (fun _ _ => rfl) rfl
  case tlbinv w => exact decode_enc_G LowLR.of_to (k := decodeTlbinv w.s w.x) (fun _ _ => rfl) rfl
  case tlbinvCtx s x | tlbinvAll s x => exact decode_enc_G LowLR.of_to (k := decodeTlbinv s x) (fun _ _ => rfl) rfl
  case cpy n cv sg ss w =>
    obtain ⟨hrest, hn, hcv, hsg, hss⟩ := cpy_fields n cv sg ss
    exact decode_encES (k := fun e => only (e.fn.extractLsb' 5 2 == 0) (.cpy (e.fn.extractLsb' 0 2) (bitAt e.fn 2)
      (bitAt e.fn 3) (bitAt e.fn 4) ⟨e.ea, e.eb, e.ec, e.ed⟩)) (fun _ _ => rfl) (by simp [only, hrest, hn, hcv, hsg, hss])
  case rdst bd w =>
    exact decode_encES (k := fun e => only (e.fn.extractLsb' 1 6 == 0) (.rdst (bitAt e.fn 0) ⟨e.ea, e.eb, e.ec, e.ed⟩))
      (fun _ _ => rfl) (by simp [only])
  case tmma o w =>
    exact decode_encES (k := fun e => only (e.fn.extractLsb' 1 6 == 0) (.tmma (bitAt e.fn 0) ⟨e.ea, e.eb, e.ec, e.ed⟩))
      (fun _ _ => rfl) (by simp [only])
  case smv o w =>
    exact decode_encES (k := fun e => only (e.fn.extractLsb' 1 6 == 0) (.smv (bitAt e.fn 0) ⟨e.ea, e.eb, e.ec, e.ed⟩))
      (fun _ _ => rfl) (by simp [only])
  case merge ea eb ec =>
    exact decode_encES (k := fun e => only (e.fn == 0 && e.ed == 0) (.merge e.ea e.eb e.ec)) (fun _ _ => rfl) rfl
  case coll o red ea eb ec =>
    obtain ⟨hrest, hop, hred⟩ := coll_fields o.to red
    exact decode_encES (k := fun e => only (e.fn.extractLsb' 4 3 == 0 && e.ed == 0)
      (.coll (CollOp.of (e.fn.extractLsb' 0 2)) (e.fn.extractLsb' 2 2) e.ea e.eb e.ec)) (fun _ _ => rfl)
      (by simp [only, hrest, hop, hred])
  case ewait ea eb c => exact decode_encES (k := decodeEctl) (fun _ _ => rfl) rfl
  case eloop ea off => exact decode_encES (k := decodeEctl) (fun _ _ => rfl) (by simp [decodeEctl, eloop_offset])
  case eend => exact decode_encES (k := decodeEctl) (fun _ _ => rfl) rfl
  case esig ea eb => exact decode_encES (k := decodeEctl) (fun _ _ => rfl) rfl
  all_goals cases he

/-- Settles O60, format by format: each layout is read back. -/
theorem decodeAfterEncode : Obligations.DecodeAfterEncode := by
  unfold Obligations.DecodeAfterEncode
  exact fun i hw he => decode_encode i hw he

end Sys2Proof
end

section
/-! The state after reset, and words that the manual writes out. -/

namespace Sys2Proof.Machine

/-- Settles O57: each field of the reset state is the literal that it is given. -/
theorem resetState : Obligations.ResetState := by
  unfold Obligations.ResetState
  refine ⟨rfl, rfl, rfl, rfl, rfl, rfl, rfl, rfl, by decide, by decide, ?_, rfl, rfl, rfl, rfl, rfl, rfl, rfl, rfl, rfl, rfl,
    rfl, rfl, fun _ => rfl, rfl, rfl, rfl, by decide⟩
  rintro (_ | _) <;> rfl

/-- Settles O59: the decoder run on each word. -/
theorem specWordsDecode : Obligations.SpecWordsDecode := by
  unfold Obligations.SpecWordsDecode
  intro x
  refine ⟨?_, ?_, ?_, ?_, ?_, ?_, ?_, ?_, ?_, ?_, ?_, ?_, ?_, ?_, ?_, ?_⟩ <;> decide

end Sys2Proof.Machine
end

section
/-! Words of one result: what follows once a word's own part is known to free registers and to write one value. -/

namespace Sys2Proof.Machine

/-- The one way in which results are written, as 32 bits or as a pair; plain names a v register in supervisor mode. -/
def Frame.dstAs (fr : Frame) (wd n : Nat) (v : Val) (plain : Bool) : Do Frame :=
  if wd = 64 then fr.setPairAs n v plain else fr.setRegAs n v plain

theorem dst_eq_dstAs (fr : Frame) (wd n : Nat) (v : Val) : fr.dst wd n v = fr.dstAs wd n v false := rfl

theorem dstAs_writes {fr : Frame} {wd n : Nat} (v : Val) (plain : Bool) (hwd : wd = 32 ∨ wd = 64) (hs : fr.span = false)
    (hl : fr.noLines = false) (hn : n < 64) (he : wd = 64 → n % 2 = 0) :
    ∃ fr', fr.dstAs wd n v plain = .ok fr' ∧ FrameWrites fr fr' wd (fr.place n plain) (v.at_ fr) := by
  rcases hwd with rfl | rfl
  · exact setRegAs_writes v plain hs hl hn
  · exact setPairAs_writes v plain hs hl (by have := he rfl; omega) (he rfl)

/-- A U value is written as a whole by a word of a user-mode strip that acts on the whole strip (R45): no line is needed. -/
theorem dstAs_uniform {fr : Frame} {wd n : Nat} (x : DWord) (hwd : wd = 32 ∨ wd = 64) (hp : fr.priv = false)
    (hw : fr.whole = true) (hn : n < 64) (he : wd = 64 → n % 2 = 0) :
    ∃ fr', fr.dstAs wd n (.u x) false = .ok fr' ∧ FrameWrites fr fr' wd n (fun _ => x) ∧
      vget fr'.regs n (.u 0) = .u (loOf x) ∧ (wd = 64 → vget fr'.regs (n + 1) (.u 0) = .u (hiOf x)) := by
  have hk (m : Nat) : fr.isK m = false := by simp [Frame.isK, hp]
  rcases hwd with rfl | rfl
  · refine ⟨fr.writeWhole n (.u (loOf x)), ?_, (writeWhole_wrote fr n _ hn).writes32 (.inr ⟨rfl, hw⟩) fun _ => rfl,
      vget_vset_eq _ _ _ _ hn, by simp⟩
    simp [Frame.dstAs, Frame.setRegAs, hk, hw]
  · have hn1 : n + 1 < 64 := by have := he rfl; omega
    refine ⟨(fr.writeWhole n (.u (loOf x))).writeWhole (n + 1) (.u (hiOf x)), ?_,
      (writeWhole_wrote fr n _ hn).writes64 (writeWhole_wrote _ (n + 1) _ hn1) (.inr ⟨rfl, hw⟩) (by omega) (fun _ => rfl)
        fun _ => rfl, ?_, fun _ => vget_vset_eq _ _ _ _ hn1⟩
    · simp [Frame.dstAs, Frame.setPairAs, hk, hw]
    · exact (vget_vset_ne _ _ _ _ _ (by omega)).trans (vget_vset_eq _ _ _ _ hn)

theorem Freed.at_eq {w : Seat} {fr1 : Frame} {ns : List Nat} (hf : Freed w.fr fr1 ns) (v : Val) (l : Nat) :
    v.at_ fr1 l = v.at_ w.fr l := by
  have hco : fr1.coord = w.fr.coord := by rw [hf.rest]
  cases v <;> simp [Val.at_, hco]

theorem Freed.place_eq {w : Seat} {fr1 : Frame} {ns : List Nat} (hf : Freed w.fr fr1 ns) (n : Nat) (plain : Bool) :
    fr1.place n plain = w.fr.place n plain := by
  have hp : fr1.priv = w.fr.priv := by rw [hf.rest]
  simp [Frame.place, Frame.isK, hp]

/-- The own part of a word frees r's registers and writes v in the field d, with the result r. -/
structure Seat.WritesAs (w : Seat) (i : Instr) (out : Out) (r : Result) (v : Val) (d : BitVec 6) (plain : Bool) : Prop where
  width : r.wd = 32 ∨ r.wd = 64
  even : r.wd = 64 → d.toNat % 2 = 0
  dst : r.dst = w.fr.place d.toNat plain
  val : ∀ l, SameIn r.wd (v.at_ w.fr l) (r.val l)
  out : ∃ fr1, Freed w.fr fr1 r.freed ∧ out = .next (settle w i (w.form i) (w.done (fr1.dstAs r.wd d.toNat v plain)))

section
variable {s : State} {i : Instr} {w : Seat} (h : SeatFacts s i w)
include h

theorem seat_based : w.fr.fpstat = w.t.fpstat ∧ w.fr.gens = w.t.gens ∧ w.fr.priv = w.t.priv := by
  obtain ⟨gd, hgd⟩ := h.gd
  rw [hgd]
  exact ⟨rfl, rfl, rfl⟩

variable {out : Out} {r : Result} {v : Val} {d : BitVec 6} {plain : Bool}

/-- What a frame that holds the result makes of the strip. -/
theorem passes_of_writes (hv : w.WritesAs i out r v d plain) {fr1 fr2 : Frame} (hf : Freed w.fr fr1 r.freed)
    (hw : FrameWrites fr1 fr2 r.wd r.dst r.val) :
    w.t.withFrame fr2 = w.onlyRegs (w.t.withFrame fr2) ∧ Writes w r (w.t.withFrame fr2) := by
  have hlt := d.isLt
  have hplace : r.dst = d.toNat ∨ r.dst = d.toNat + 16 := by
    rw [hv.dst, Frame.place]
    split
    · exact .inr rfl
    · exact .inl rfl
  have hnext : r.wd = 64 → r.dst + 1 < 80 := fun h64 => by have := hv.even h64; omega
  obtain ⟨hwrites, hrest⟩ := writes_of h (Based.refl w) hf hw hv.width (by omega) hnext
  obtain ⟨hfp, hgens, -⟩ := seat_based h
  rw [hfp, hgens] at hrest
  exact ⟨hrest, hwrites⟩

/-- The word completes with its result. -/
theorem Seat.WritesAs.gives (hv : w.WritesAs i out r v d plain) (hr : w.l.hdr.regs ≠ 0) : w.gives i out r := by
  obtain ⟨fr1, hf, hout⟩ := hv.out
  have hspan : fr1.span = false := by rw [hf.rest]; exact seat_span h
  have hlines : fr1.noLines = false := by rw [hf.rest]; exact seat_noLines h hr
  obtain ⟨fr2, hok, hw⟩ := dstAs_writes v plain hv.width hspan hlines d.isLt hv.even
  rw [Freed.place_eq hf, ← hv.dst] at hw
  have hw := hw.congr (u := r.val) fun l => (Freed.at_eq hf v l).symm ▸ hv.val l
  obtain ⟨hrest, hwrites⟩ := passes_of_writes h hv hf hw
  exact ⟨w.t.withFrame fr2, by rw [hout, hok, withFrame_pass h], hrest, hwrites⟩

/-- R45: where the value is U and the word acts on the whole strip in user mode, the result is U. -/
theorem Seat.WritesAs.gives_uniform (hv : w.WritesAs i out r v d false) (hu : v.isU = true) (hp : w.t.priv = false)
    (hwhole : w.fr.whole = true) : w.gives i out r ∧ w.givesUniform i out r.regs := by
  cases v with
  | a f => cases hu
  | l f => cases hu
  | u x =>
    obtain ⟨fr1, hf, hout⟩ := hv.out
    obtain ⟨-, -, hpriv⟩ := seat_based h
    have hp1 : fr1.priv = false := by rw [hf.rest]; exact hpriv.trans hp
    have hw1 : fr1.whole = true := by rw [hf.rest]; exact hwhole
    obtain ⟨fr2, hok, hw, hlo, hhi⟩ := dstAs_uniform x hv.width hp1 hw1 d.isLt hv.even
    have hdst : r.dst = d.toNat := by rw [hv.dst, Frame.place, Frame.isK, hpriv, hp]; rfl
    rw [← hdst] at hw hlo hhi
    have hw := hw.congr (u := r.val) hv.val
    obtain ⟨hrest, hwrites⟩ := passes_of_writes h hv hf hw
    have hnext : out = .next (w.passed i w.s (w.t.withFrame fr2)) := by rw [hout, hok, withFrame_pass h]
    refine ⟨⟨_, hnext, hrest, hwrites⟩, _, hnext, fun n hn => ?_⟩
    rw [Result.regs] at hn
    split at hn
    · rcases List.mem_pair.mp hn with rfl | rfl
      · exact ⟨_, hlo⟩
      · exact ⟨_, hhi ‹_›⟩
    · exact ⟨_, (List.mem_singleton.mp hn) ▸ hlo⟩

end

/-! The shapes of bodies. A word's registers are aligned as its form says. -/

/-- Every source of a word is U. -/
def Seat.uniformSrcs (w : Seat) (i : Instr) : Prop :=
  ∀ ρ ∈ (w.form i).srcs, (w.fr.src (if ρ.n = 2 then 64 else 32) ρ.reg.toNat).isU = true

theorem width_regsOf {wd : Nat} (hwd : wd = 32 ∨ wd = 64) : (if regsOf wd = 2 then 64 else 32) = wd := by
  rcases hwd with rfl | rfl <;> rfl

theorem even_of_aligned {wd n : Nat} (h : n % regsOf wd = 0) (h64 : wd = 64) : n % 2 = 0 := by
  subst h64
  exact h

section
variable {s : State} {i : Instr} {w : Seat} (h : SeatFacts s i w) {wd : Nat} (hwd : wd = 32 ∨ wd = 64) {out : Out}
include h

theorem src_even {r : BitVec 6} (hm : ⟨r, regsOf wd⟩ ∈ (w.form i).srcs) (h64 : wd = 64) : r.toNat % 2 = 0 :=
  even_of_aligned ((legal_parts h.legal).2.1 _ hm) h64

theorem dst_even {r : BitVec 6} (hm : ⟨r, regsOf wd⟩ ∈ (w.form i).dsts) (h64 : wd = 64) : r.toNat % 2 = 0 :=
  even_of_aligned ((legal_parts h.legal).2.2 _ hm) h64

theorem Freed.freeSrc {fr1 : Frame} {ns : List Nat} (hf : Freed w.fr fr1 ns) (bit : Bool) {r : BitVec 6}
    (hm : ⟨r, regsOf wd⟩ ∈ (w.form i).srcs) :
    Freed w.fr (fr1.free bit wd r.toNat) (ns ++ w.lastRead bit r (regsOf wd)) := by
  have := hf.free bit wd r.toNat r.isLt (src_even h hm)
  rwa [lastRead_eq] at this

include hwd

omit h in
theorem Seat.uniformSrcs.src {r : BitVec 6} (hu : w.uniformSrcs i) (hm : ⟨r, regsOf wd⟩ ∈ (w.form i).srcs) :
    (w.fr.src wd r.toNat).isU = true := by
  have := hu _ hm
  rwa [width_regsOf hwd] at this

/-- A word of two sources. -/
theorem body3_writes {v : W3} {f : Frame → Val → Val → Val} {word : DWord → DWord → DWord}
    (hout : out = .next (settle w i (w.form i) (w.done (body3 wd v f w.fr))))
    (hsrcs : (w.form i).srcs = [⟨v.a, regsOf wd⟩, ⟨v.b, regsOf wd⟩]) (hdsts : (w.form i).dsts = [⟨v.d, regsOf wd⟩])
    (hf : ∀ a b l, SameIn wd ((f w.fr a b).at_ w.fr l) (word (a.at_ w.fr l) (b.at_ w.fr l))) :
    w.WritesAs i out (w.of3 wd v word) (f w.fr (w.fr.src wd v.a.toNat) (w.fr.src wd v.b.toNat)) v.d false where
  width := hwd
  even := dst_even h (wd := wd) (r := v.d) (by simp [hdsts])
  dst := (place_slot ..).symm
  val l := hf ..
  out := by
    have hfree := ((Freed.refl w.fr).freeSrc h (wd := wd) v.la (r := v.a) (by simp [hsrcs])).freeSrc h (wd := wd) v.lb
      (r := v.b) (by simp [hsrcs])
    exact ⟨_, hfree, hout⟩

/-- A word of three sources. -/
theorem body4_writes {v : W3} {f : Frame → Val → Val → Val → Val} {word : DWord → DWord → DWord → DWord}
    (hout : out = .next (settle w i (w.form i) (w.done (body4 wd v f w.fr))))
    (hsrcs : (w.form i).srcs = [⟨v.a, regsOf wd⟩, ⟨v.b, regsOf wd⟩, ⟨vcOf v.x, regsOf wd⟩])
    (hdsts : (w.form i).dsts = [⟨v.d, regsOf wd⟩])
    (hf : ∀ a b c l, SameIn wd ((f w.fr a b c).at_ w.fr l) (word (a.at_ w.fr l) (b.at_ w.fr l) (c.at_ w.fr l))) :
    w.WritesAs i out (w.of4 wd v word)
      (f w.fr (w.fr.src wd v.a.toNat) (w.fr.src wd v.b.toNat) (w.fr.src wd (vcOf v.x).toNat)) v.d false where
  width := hwd
  even := dst_even h (wd := wd) (r := v.d) (by simp [hdsts])
  dst := (place_slot ..).symm
  val l := hf ..
  out := by
    have hfree := (((Freed.refl w.fr).freeSrc h (wd := wd) v.la (r := v.a) (by simp [hsrcs])).freeSrc h (wd := wd) v.lb
      (r := v.b) (by simp [hsrcs])).freeSrc h (wd := wd) (lcOf v.x) (r := vcOf v.x) (by simp [hsrcs])
    exact ⟨_, hfree, hout⟩

end

section
variable {s : State} {i : Instr} {w : Seat} {out : Out}

/-- A word of one source register. -/
theorem body2_writes {v : W2} {f : Frame → Val → Val} {word : DWord → DWord}
    (hout : out = .next (settle w i (w.form i) (w.done (body2 v f w.fr))))
    (hf : ∀ a l, SameIn 32 ((f w.fr a).at_ w.fr l) (word (a.at_ w.fr l))) :
    w.WritesAs i out (w.of2 v word) (f w.fr (w.fr.src 32 v.a.toNat)) v.d false where
  width := .inl rfl
  even := by simp [Seat.of2]
  dst := (place_slot ..).symm
  val l := hf ..
  out := ⟨_, (Freed.refl w.fr).freeReg v.la v.a, hout⟩

/-- An immediate word. -/
theorem bodyImm_writes {v : WImm} {f : Frame → Val → Val → Val} {word : DWord → DWord → DWord}
    (hout : out = .next (settle w i (w.form i) (w.done (bodyImm v f w.fr))))
    (hf : ∀ a b l, SameIn 32 ((f w.fr a b).at_ w.fr l) (word (a.at_ w.fr l) (b.at_ w.fr l))) :
    w.WritesAs i out (w.ofImm v word) (f w.fr (w.fr.src 32 v.a.toNat) (immVal v)) v.d false where
  width := .inl rfl
  even := by simp [Seat.ofImm]
  dst := (place_slot ..).symm
  val l := hf ..
  out := ⟨_, (Freed.refl w.fr).freeReg v.la v.a, hout⟩

/-- A word that has freed registers and writes one. -/
theorem setReg_writes {fr1 : Frame} {ns : List Nat} {d : BitVec 6} {v : Val} {val : Nat → DWord} (hf : Freed w.fr fr1 ns)
    (hout : out = .next (settle w i (w.form i) (w.done (fr1.setReg d.toNat v))))
    (hv : ∀ l, SameIn 32 (v.at_ w.fr l) (val l)) : w.WritesAs i out ⟨32, w.slot d, val, ns⟩ v d false where
  width := .inl rfl
  even := by simp
  dst := (place_slot ..).symm
  val := hv
  out := ⟨_, hf, hout⟩

end

end Sys2Proof.Machine
end

section
/-! The integer, logic, bit and immediate words (R310 to R313, R316, R318, R330, R346, R352, R354). -/

namespace Sys2Proof.Machine

/-! The model's words are the statement's. -/

theorem minWord_eq (t : IntType) (a b : DWord) : minWord t a b = intResult t false (min (readInt t a) (readInt t b)) := by
  rw [minWord, min_comm, min_def_lt]

theorem maxWord_eq (t : IntType) (a b : DWord) : maxWord t a b = intResult t false (max (readInt t a) (readInt t b)) := by
  rw [maxWord, max_def_lt]

theorem shlWord_eq (a b : Word) : shlWord a b = a <<< b.toNat := by
  rw [shlWord]
  split
  · rfl
  · exact (BitVec.shiftLeft_eq_zero (Nat.not_lt.mp ‹_›)).symm

theorem shrWord_eq (a b : Word) : shrWord a b = a >>> b.toNat := by
  rw [shrWord]
  split
  · rfl
  · exact (BitVec.ushiftRight_eq_zero (Nat.not_lt.mp ‹_›)).symm

theorem sarWord_eq (a b : Word) : sarWord a b = a.sshiftRight b.toNat := by
  rw [sarWord]
  split
  · rfl
  · refine BitVec.eq_of_getLsbD_eq fun i hi => ?_
    have hb : ¬ b.toNat + i < 32 := by omega
    rw [BitVec.getLsbD_sshiftRight, BitVec.getLsbD_sshiftRight, if_neg hb, BitVec.msb_eq_getLsbD_last]
    split
    · obtain rfl : i = 0 := by omega
      rfl
    · rfl

theorem leaWord_eq (a b c : Word) : leaWord a b c = a + b <<< c.toNat := congrArg (a + ·) (shlWord_eq b c)

theorem on32t_leaWord (a b c : DWord) :
    on32t leaWord a b c = (loOf a + loOf b <<< (loOf c).toNat).setWidth 64 :=
  congrArg (BitVec.setWidth 64) (leaWord_eq ..)

theorem addWord_n32 (a b : DWord) : addWord .n32 false a b = (loOf a + loOf b).setWidth 64 := by
  simp [addWord, intResult, typeWidth, writeInt, readInt, BitVec.ofInt_add]

theorem mulWord_n32 (a b : DWord) : mulWord .n32 false a b = (loOf a * loOf b).setWidth 64 := by
  simp [mulWord, intResult, typeWidth, writeInt, readInt, BitVec.ofInt_mul]

theorem foldl_count (p : Nat → Bool) (ls : List Nat) (n : Nat) :
    ls.foldl (fun n i => if p i then n + 1 else n) n = n + ls.countP p := by
  induction ls generalizing n with
  | nil => rfl
  | cons i ls ih =>
    rw [List.foldl_cons, ih, List.countP_cons]
    split <;> omega

theorem popcWord_setWidth (a : Word) :
    (popcWord a).setWidth 64 = BitVec.ofNat 64 ((List.range 32).countP a.getLsbD) := by
  have hle := List.countP_le_length (p := a.getLsbD) (l := List.range 32)
  rw [List.length_range] at hle
  rw [popcWord, foldl_count, Nat.zero_add]
  refine BitVec.eq_of_toNat_eq ?_
  simp only [BitVec.toNat_setWidth, BitVec.toNat_ofNat]
  omega

theorem takeWhile_range_length {p : Nat → Bool} {j n : Nat} (hj : j < n) (hp : ∀ i < j, p i = true) (hf : p j = false) :
    ((List.range n).takeWhile p).length = j := by
  obtain ⟨k, rfl⟩ : ∃ k, n = j + (k + 1) := ⟨n - j - 1, by omega⟩
  rw [List.range_add, List.takeWhile_append_of_pos (by simpa using hp), List.range_succ_eq_map]
  simp [hf]

/-- The leading zeros are the bits above the highest set one. -/
theorem takeWhile_leading {a : Word} (h : a ≠ 0) :
    ((List.range 32).takeWhile fun i => !a.getLsbD (31 - i)).length = 31 - a.toNat.log2 := by
  have h0 : a.toNat ≠ 0 := fun h0 => h (BitVec.eq_of_toNat_eq h0)
  have hlog : a.toNat.log2 < 32 := (Nat.log2_lt h0).mpr a.isLt
  refine takeWhile_range_length (by omega) (fun i hi => ?_) ?_
  · have hbig : a.toNat < 2 ^ (31 - i) := (Nat.log2_lt h0).mp (by omega)
    simp [BitVec.getLsbD, Nat.testBit_lt_two_pow hbig]
  · have : 31 - (31 - a.toNat.log2) = a.toNat.log2 := by omega
    simp [this, BitVec.getLsbD, Nat.testBit_log2 h0]

theorem clzWord_setWidth (a : Word) :
    (clzWord a).setWidth 64 = BitVec.ofNat 64 (((List.range 32).takeWhile fun i => !a.getLsbD (31 - i)).length) := by
  by_cases h : a = 0
  · subst h
    decide
  · rw [takeWhile_leading h, clzWord, if_neg h]
    refine BitVec.eq_of_toNat_eq ?_
    simp only [BitVec.toNat_setWidth, BitVec.toNat_ofNat]
    omega

theorem brevWord_eq (a : Word) : brevWord a = a.reverse := by
  refine BitVec.eq_of_getLsbD_eq fun i hi => ?_
  have hbit : (brevWord a).getLsbD i = a.getLsbD (31 - i) := laneIn_maskOf (fun i => a.getLsbD (31 - i)) i hi
  rw [hbit, BitVec.getLsbD_reverse, BitVec.getMsbD_eq_getLsbD]
  simp [hi]

/-! Each word computes its result, and from U sources a U value. -/

/-- What the three families share: the own part writes a value that is U where every source is. -/
def Seat.Computes (w : Seat) (i : Instr) (out : Out) (r : Result) : Prop :=
  ∃ v d, w.WritesAs i out r v d false ∧ (w.uniformSrcs i → v.isU = true)

theorem Val.isU_iff {v : Val} : v.isU = true ↔ ∃ x, v = .u x := by
  cases v <;> simp [Val.isU]

section
variable {s : State} {i : Instr} {w : Seat} (h : SeatFacts s i w) {wd : Nat} (hwd : wd = 32 ∨ wd = 64) {out : Out}

section
include h hwd

theorem body3_computes {v : W3} {f : Frame → Val → Val → Val} {word word' : DWord → DWord → DWord}
    (hout : out = .next (settle w i (w.form i) (w.done (body3 wd v f w.fr))))
    (hsrcs : (w.form i).srcs = [⟨v.a, regsOf wd⟩, ⟨v.b, regsOf wd⟩]) (hdsts : (w.form i).dsts = [⟨v.d, regsOf wd⟩])
    (hf : ∀ a b l, SameIn wd ((f w.fr a b).at_ w.fr l) (word (a.at_ w.fr l) (b.at_ w.fr l)))
    (hword : ∀ a b, word a b = word' a b) (hu : ∀ x y, (f w.fr (.u x) (.u y)).isU = true) :
    w.Computes i out (w.of3 wd v word') := by
  obtain rfl : word = word' := funext fun a => funext (hword a)
  refine ⟨_, _, body3_writes h hwd hout hsrcs hdsts hf, fun hs => ?_⟩
  obtain ⟨x, hx⟩ := Val.isU_iff.mp (hs.src hwd (r := v.a) (by simp [hsrcs]))
  obtain ⟨y, hy⟩ := Val.isU_iff.mp (hs.src hwd (r := v.b) (by simp [hsrcs]))
  rw [hx, hy]
  exact hu x y

theorem body4_computes {v : W3} {f : Frame → Val → Val → Val → Val} {word word' : DWord → DWord → DWord → DWord}
    (hout : out = .next (settle w i (w.form i) (w.done (body4 wd v f w.fr))))
    (hsrcs : (w.form i).srcs = [⟨v.a, regsOf wd⟩, ⟨v.b, regsOf wd⟩, ⟨vcOf v.x, regsOf wd⟩])
    (hdsts : (w.form i).dsts = [⟨v.d, regsOf wd⟩])
    (hf : ∀ a b c l, SameIn wd ((f w.fr a b c).at_ w.fr l) (word (a.at_ w.fr l) (b.at_ w.fr l) (c.at_ w.fr l)))
    (hword : ∀ a b c, word a b c = word' a b c) (hu : ∀ x y z, (f w.fr (.u x) (.u y) (.u z)).isU = true) :
    w.Computes i out (w.of4 wd v word') := by
  obtain rfl : word = word' := funext fun a => funext fun b => funext (hword a b)
  refine ⟨_, _, body4_writes h hwd hout hsrcs hdsts hf, fun hs => ?_⟩
  obtain ⟨x, hx⟩ := Val.isU_iff.mp (hs.src hwd (r := v.a) (by simp [hsrcs]))
  obtain ⟨y, hy⟩ := Val.isU_iff.mp (hs.src hwd (r := v.b) (by simp [hsrcs]))
  obtain ⟨z, hz⟩ := Val.isU_iff.mp (hs.src hwd (r := vcOf v.x) (by simp [hsrcs]))
  rw [hx, hy, hz]
  exact hu x y z

end

theorem body2_computes {v : W2} {f : Frame → Val → Val} {word word' : DWord → DWord}
    (hout : out = .next (settle w i (w.form i) (w.done (body2 v f w.fr)))) (hsrcs : (w.form i).srcs = [⟨v.a, regsOf 32⟩])
    (hf : ∀ a l, SameIn 32 ((f w.fr a).at_ w.fr l) (word (a.at_ w.fr l)))
    (hword : ∀ a, word a = word' a) (hu : ∀ x, (f w.fr (.u x)).isU = true) : w.Computes i out (w.of2 v word') := by
  obtain rfl : word = word' := funext hword
  refine ⟨_, _, body2_writes hout hf, fun hs => ?_⟩
  obtain ⟨x, hx⟩ := Val.isU_iff.mp (hs.src (.inl rfl) (r := v.a) (by simp [hsrcs]))
  rw [hx]
  exact hu x

theorem bodyImm_computes {v : WImm} {f : Frame → Val → Val → Val} {word word' : DWord → DWord → DWord}
    (hout : out = .next (settle w i (w.form i) (w.done (bodyImm v f w.fr)))) (hsrcs : (w.form i).srcs = [⟨v.a, regsOf 32⟩])
    (hf : ∀ a b l, SameIn 32 ((f w.fr a b).at_ w.fr l) (word (a.at_ w.fr l) (b.at_ w.fr l)))
    (hword : ∀ a b, word a b = word' a b) (hu : ∀ x y, (f w.fr (.u x) (.u y)).isU = true) :
    w.Computes i out (w.ofImm v word') := by
  obtain rfl : word = word' := funext fun a => funext (hword a)
  refine ⟨_, _, bodyImm_writes hout hf, fun hs => ?_⟩
  obtain ⟨x, hx⟩ := Val.isU_iff.mp (hs.src (.inl rfl) (r := v.a) (by simp [hsrcs]))
  rw [hx]
  exact hu x _

end

theorem lift1_same {wd : Nat} (fr : Frame) {f : DWord → DWord} (a : Val) (l : Nat) :
    SameIn wd ((lift1 fr f a).at_ fr l) (f (a.at_ fr l)) :=
  lift1_at fr f a l ▸ SameIn.rfl

theorem lift2_same {wd : Nat} (fr : Frame) {f : DWord → DWord → DWord} (a b : Val) (l : Nat) :
    SameIn wd ((lift2 fr f a b).at_ fr l) (f (a.at_ fr l) (b.at_ fr l)) :=
  lift2_at fr f a b l ▸ SameIn.rfl

theorem lift3_same {wd : Nat} (fr : Frame) {f : DWord → DWord → DWord → DWord} (a b c : Val) (l : Nat) :
    SameIn wd ((lift3 fr f a b c).at_ fr l) (f (a.at_ fr l) (b.at_ fr l) (c.at_ fr l)) :=
  lift3_at fr f a b c l ▸ SameIn.rfl

theorem on32u_congr {f g : Word → Word} (h : ∀ a, f a = g a) (a : DWord) : on32u f a = (g (loOf a)).setWidth 64 :=
  congrArg _ (h _)

theorem on32_congr {f g : Word → Word → Word} (h : ∀ a b, f a b = g a b) (a b : DWord) :
    on32 f a b = (g (loOf a) (loOf b)).setWidth 64 :=
  congrArg _ (h ..)

section
variable {s : State} {i : Instr} {w : Seat} {r : Result} (hi : s.issuing i = some w)
include hi

theorem arithmetic_computes (hr : w.arithmetic i = some r) : w.Computes i (exec i s) r := by
  have h := seat_facts hi
  unfold Seat.arithmetic at hr
  split at hr <;> cases hr
  case h_1 t v =>
    show w.Computes _ (execAdd t v s) _
    rw [execAdd, runAlu_issuing hi]
    refine body3_computes h (typeWidth_cases t) rfl (by cases t <;> rfl) (by cases t <;> rfl)
      (addVal_same w.fr _ fun hs f g c => ?_) (fun _ _ => rfl) fun _ _ => rfl
    rw [hs, affAt_add]
    exact (addWord_same ..).symm
  case h_2 t v =>
    show w.Computes _ (execSub t v s) _
    rw [execSub, runAlu_issuing hi]
    refine body3_computes h (typeWidth_cases t) rfl (by cases t <;> rfl) (by cases t <;> rfl)
      (addVal_same w.fr _ fun hs f g c => ?_) (fun _ _ => rfl) fun _ _ => rfl
    rw [hs, affAt_sub]
    exact (subWord_same ..).symm
  case h_3 t v =>
    show w.Computes _ (execMul t v s) _
    rw [execMul, runAlu_issuing hi]
    refine body3_computes h (typeWidth_cases t) rfl (by cases t <;> rfl) (by cases t <;> rfl)
      (mulVal_same w.fr _ fun hs x y => ?_) (fun _ _ => rfl) fun _ _ => rfl
    rw [hs]
    exact (mulWord_same ..).symm
  case h_4 t v =>
    show w.Computes _ (execMulh t v s) _
    rw [execMulh, runAlu_issuing hi]
    exact body3_computes h (typeWidth_cases t) rfl (by cases t <;> rfl) (by cases t <;> rfl)
      (lift2_same _) (fun _ _ => rfl) fun _ _ => rfl
  case h_5 t v =>
    show w.Computes _ (execMin t v s) _
    rw [execMin, runAlu_issuing hi]
    exact body3_computes h (typeWidth_cases t) rfl (by cases t <;> rfl) (by cases t <;> rfl)
      (lift2_same _) (minWord_eq t) fun _ _ => rfl
  case h_6 t v =>
    show w.Computes _ (execMax t v s) _
    rw [execMax, runAlu_issuing hi]
    exact body3_computes h (typeWidth_cases t) rfl (by cases t <;> rfl) (by cases t <;> rfl)
      (lift2_same _) (maxWord_eq t) fun _ _ => rfl
  case h_7 t v =>
    show w.Computes _ (execAddc t v s) _
    rw [execAddc, runAlu_issuing hi]
    exact body3_computes h (typeWidth_cases t) rfl (by cases t <;> rfl) (by cases t <;> rfl)
      (lift2_same _) (fun _ _ => rfl) fun _ _ => rfl
  case h_8 t v =>
    show w.Computes _ (execMad t v s) _
    rw [execMad, runAlu_issuing hi]
    refine body4_computes h (typeWidth_cases t) rfl (by cases t <;> rfl) (by cases t <;> rfl)
      (madVal_same w.fr _ fun hs x y z => ?_) (fun _ _ _ => rfl) fun _ _ _ => rfl
    rw [hs]
    exact (madWord_same ..).symm

theorem logic_computes (hr : w.logic i = some r) : w.Computes i (exec i s) r := by
  have h := seat_facts hi
  unfold Seat.logic at hr
  split at hr <;> cases hr
  case h_1 v =>
    show w.Computes _ (execAnd v s) _
    rw [execAnd, runAlu_issuing hi]
    exact body3_computes h (.inl rfl) rfl rfl rfl (lift2_same _) (fun _ _ => rfl) fun _ _ => rfl
  case h_2 v =>
    show w.Computes _ (execOr v s) _
    rw [execOr, runAlu_issuing hi]
    exact body3_computes h (.inl rfl) rfl rfl rfl (lift2_same _) (fun _ _ => rfl) fun _ _ => rfl
  case h_3 v =>
    show w.Computes _ (execXor v s) _
    rw [execXor, runAlu_issuing hi]
    exact body3_computes h (.inl rfl) rfl rfl rfl (lift2_same _) (fun _ _ => rfl) fun _ _ => rfl
  case h_4 v =>
    show w.Computes _ (execAndn v s) _
    rw [execAndn, runAlu_issuing hi]
    exact body3_computes h (.inl rfl) rfl rfl rfl (lift2_same _) (fun _ _ => rfl) fun _ _ => rfl
  case h_5 v =>
    show w.Computes _ (execShl v s) _
    rw [execShl, runAlu_issuing hi]
    exact body3_computes h (.inl rfl) rfl rfl rfl (shlVal_same _) (on32_congr shlWord_eq) fun _ _ => rfl
  case h_6 v =>
    show w.Computes _ (execShr v s) _
    rw [execShr, runAlu_issuing hi]
    exact body3_computes h (.inl rfl) rfl rfl rfl (lift2_same _) (on32_congr shrWord_eq) fun _ _ => rfl
  case h_7 v =>
    show w.Computes _ (execSar v s) _
    rw [execSar, runAlu_issuing hi]
    exact body3_computes h (.inl rfl) rfl rfl rfl (lift2_same _) (on32_congr sarWord_eq) fun _ _ => rfl
  case h_8 v =>
    show w.Computes _ (execFclass v s) _
    rw [execFclass, runAlu_issuing hi]
    exact body2_computes rfl rfl (lift1_same _) (fun _ => rfl) fun _ => rfl
  case h_9 v =>
    show w.Computes _ (execPopc v s) _
    rw [execPopc, runAlu_issuing hi]
    exact body2_computes rfl rfl (lift1_same _) (fun a => popcWord_setWidth _) fun _ => rfl
  case h_10 v =>
    show w.Computes _ (execClz v s) _
    rw [execClz, runAlu_issuing hi]
    exact body2_computes rfl rfl (lift1_same _) (fun a => clzWord_setWidth _) fun _ => rfl
  case h_11 v =>
    show w.Computes _ (execBrev v s) _
    rw [execBrev, runAlu_issuing hi]
    exact body2_computes rfl rfl (lift1_same _) (on32u_congr brevWord_eq) fun _ => rfl
  case h_12 v =>
    show w.Computes _ (execBfx v s) _
    rw [execBfx, runAlu_issuing hi]
    exact body3_computes h (.inl rfl) rfl rfl rfl (lift2_same _) (fun _ _ => rfl) fun _ _ => rfl
  case h_13 v =>
    show w.Computes _ (execBfi v s) _
    rw [execBfi, runAlu_issuing hi]
    exact body4_computes h (.inl rfl) rfl rfl rfl (lift3_same _) (fun _ _ _ => rfl) fun _ _ _ => rfl
  case h_14 v =>
    show w.Computes _ (execPrmt v s) _
    rw [execPrmt, runAlu_issuing hi]
    exact body4_computes h (.inl rfl) rfl rfl rfl (lift3_same _) (fun _ _ _ => rfl) fun _ _ _ => rfl
  case h_15 v =>
    show w.Computes _ (execLea v s) _
    rw [execLea, runAlu_issuing hi]
    exact body4_computes h (.inl rfl) rfl rfl rfl (leaVal_same _) on32t_leaWord fun _ _ _ => rfl

theorem immediate_computes (hr : w.immediate i = some r) : w.Computes i (exec i s) r := by
  unfold Seat.immediate at hr
  split at hr <;> cases hr
  case h_1 v =>
    show w.Computes _ (execAddi v s) _
    rw [execAddi, runAlu_issuing hi]
    refine bodyImm_computes rfl rfl (addVal_same w.fr _ fun _ f g c => ?_) addWord_n32 fun _ _ => rfl
    rw [affAt_add]
    exact (addWord_same .n32 ..).symm
  case h_2 v =>
    show w.Computes _ (execMuli v s) _
    rw [execMuli, runAlu_issuing hi]
    exact bodyImm_computes rfl rfl (mulVal_same w.fr _ fun _ x y => (mulWord_same .n32 x y).symm) mulWord_n32 fun _ _ => rfl
  case h_3 v =>
    show w.Computes _ (execAndi v s) _
    rw [execAndi, runAlu_issuing hi]
    exact bodyImm_computes rfl rfl (lift2_same _) (fun _ _ => rfl) fun _ _ => rfl
  case h_4 v =>
    show w.Computes _ (execOri v s) _
    rw [execOri, runAlu_issuing hi]
    exact bodyImm_computes rfl rfl (lift2_same _) (fun _ _ => rfl) fun _ _ => rfl
  case h_5 v =>
    show w.Computes _ (execXori v s) _
    rw [execXori, runAlu_issuing hi]
    exact bodyImm_computes rfl rfl (lift2_same _) (fun _ _ => rfl) fun _ _ => rfl
  case h_6 v =>
    show w.Computes _ (execShli v s) _
    rw [execShli, runAlu_issuing hi]
    exact bodyImm_computes rfl rfl (shlVal_same _) (on32_congr shlWord_eq) fun _ _ => rfl
  case h_7 v =>
    show w.Computes _ (execShri v s) _
    rw [execShri, runAlu_issuing hi]
    exact bodyImm_computes rfl rfl (lift2_same _) (on32_congr shrWord_eq) fun _ _ => rfl
  case h_8 v =>
    show w.Computes _ (execSari v s) _
    rw [execSari, runAlu_issuing hi]
    exact bodyImm_computes rfl rfl (lift2_same _) (on32_congr sarWord_eq) fun _ _ => rfl
  case h_9 v =>
    show w.Computes _ (execMovi v s) _
    rw [execMovi, runAlu_issuing hi]
    exact ⟨_, _, setReg_writes (Freed.refl w.fr) rfl fun l => SameIn.rfl, fun _ => rfl⟩

end

/-- Settles O1: each family's word computes its result, which its own part then writes in whatever form it has. -/
theorem integerWords : Obligations.IntegerWords := by
  unfold Obligations.IntegerWords
  refine ⟨fun s i w r hi h hr => ?_, fun s i w r hi h hr => ?_, fun s i w r hi h hr => ?_, fun s i w r hi h hp hw hu => ?_⟩
  · obtain ⟨v, d, hv, -⟩ := arithmetic_computes hi h
    exact hv.gives (seat_facts hi) hr
  · obtain ⟨v, d, hv, -⟩ := logic_computes hi h
    exact hv.gives (seat_facts hi) hr
  · obtain ⟨v, d, hv, -⟩ := immediate_computes hi h
    exact hv.gives (seat_facts hi) hr
  · obtain ⟨v, d, hv, huni⟩ : w.Computes i (exec i s) r := by
      rcases h with h | h | h
      · exact arithmetic_computes hi h
      · exact logic_computes hi h
      · exact immediate_computes hi h
    exact hv.gives_uniform (seat_facts hi) (huni hu) hp hw

end Sys2Proof.Machine
end

section
/-! The G-set words of one result (R86), the moves (R347) and SEL (R360). -/

namespace Sys2Proof.Machine

/-- A trap of a user-mode word whose own part stops. -/
theorem trapped_of_stop {s : State} {i : Instr} {w : Seat} (h : SeatFacts s i w) (hp : w.t.priv = false)
    (hh : handlerOf w.s w.g.ctx ≠ 0) {d : Do Frame} {c : Nat} (hd : d = .error (.trap c)) :
    settle w i (w.form i) (w.done d) = w.trapped w.s w.t (plainTrap w.t c) := by
  rw [hd]
  exact settle_trap h _ hp hh

/-- A type of the G set has 32 bits. -/
theorem typeWidth_typeG (u : Bool) : typeWidth (typeG u) = 32 := by cases u <;> rfl

theorem mulhWord_eq (u : Bool) (a b : DWord) : mulhWord (typeG u) a b =
    intResult (typeG u) false (readInt (typeG u) a * readInt (typeG u) b / (2 ^ 32 : Nat)) := by
  rw [mulhWord, typeWidth_typeG]

theorem addcWord_eq (u : Bool) (a b : DWord) : addcWord (typeG u) a b =
    intResult (typeG u) false ((readInt (typeG u) a + readInt (typeG u) b) / (2 ^ 32 : Nat)) := by
  rw [addcWord, typeWidth_typeG]

theorem Val.uni_of_not_isU {v : Val} (h : v.isU = false) : v.uni = .error (.trap 0x0B) := by
  cases v with
  | u x => cases h
  | a f => rfl
  | l f => rfl

theorem Val.uni_cases (v : Val) : (∃ x, v = .u x) ∨ v.uni = .error (.trap 0x0B) := by
  cases h : v.isU with
  | true => exact .inl (Val.isU_iff.mp h)
  | false => exact .inr (Val.uni_of_not_isU h)

theorem Seat.src_of_uniform {w : Seat} {r : BitVec 6} {x : DWord} (h : w.fr.reg r.toNat = .u x) (l : Nat) : w.src 32 r l = x := by
  simp [Seat.src, Frame.src, h, Val.at_]

/-! A G-set word completes where its sources are U, and stops where one is not. -/

/-- The own part of a word writes its result where the registers us are U, and stops with NOT_UNIFORM where one is not. -/
structure Seat.NeedsUniform (w : Seat) (i : Instr) (out : Out) (r : Result) (us : List (BitVec 6)) : Prop where
  writes : (∀ f ∈ us, (w.fr.reg f.toNat).isU = true) → ∃ v d, w.WritesAs i out r v d false
  stops : (∃ f ∈ us, (w.fr.reg f.toNat).isU = false) → out = .next (settle w i (w.form i) (w.done (.error (.trap 0x0B))))

section
variable {s : State} {i : Instr} {w : Seat} {out : Out}

theorem bodyG3_needs {v : W3} {f word : DWord → DWord → DWord}
    (hout : out = .next (settle w i (w.form i) (w.done (bodyG3 v f w.fr)))) (hword : ∀ a b, f a b = word a b) :
    w.NeedsUniform i out (w.of3 32 v word) [v.a, v.b] where
  writes hu := by
    obtain ⟨x, hx⟩ := Val.isU_iff.mp (hu v.a (by simp))
    obtain ⟨y, hy⟩ := Val.isU_iff.mp (hu v.b (by simp))
    refine ⟨.u (f x y), v.d, .inl rfl, by simp [Seat.of3], (place_slot ..).symm, fun l => ?_, _,
      ((Freed.refl w.fr).freeReg v.la v.a).freeReg v.lb v.b, ?_⟩
    · simp only [Seat.of3, Val.at_, Seat.src_of_uniform hx, Seat.src_of_uniform hy, hword]
      exact SameIn.rfl
    · rw [hout]
      simp only [bodyG3, hx, hy]
      rfl
  stops hu := by
    rw [hout, bodyG3]
    rcases Val.uni_cases (w.fr.reg v.a.toNat) with ⟨x, hx⟩ | ha
    · have hb : (w.fr.reg v.b.toNat).isU = false := by
        simpa [hx, Val.isU] using hu
      rw [hx, Val.uni_of_not_isU hb]
      rfl
    · rw [ha]
      rfl

theorem bodyG4_needs {v : W3} {f word : DWord → DWord → DWord → DWord}
    (hout : out = .next (settle w i (w.form i) (w.done (bodyG4 v f w.fr)))) (hword : ∀ a b c, f a b c = word a b c) :
    w.NeedsUniform i out (w.of4 32 v word) [v.a, v.b, vcOf v.x] where
  writes hu := by
    obtain ⟨x, hx⟩ := Val.isU_iff.mp (hu v.a (by simp))
    obtain ⟨y, hy⟩ := Val.isU_iff.mp (hu v.b (by simp))
    obtain ⟨z, hz⟩ := Val.isU_iff.mp (hu (vcOf v.x) (by simp))
    refine ⟨.u (f x y z), v.d, .inl rfl, by simp [Seat.of4], (place_slot ..).symm, fun l => ?_, _,
      (((Freed.refl w.fr).freeReg v.la v.a).freeReg v.lb v.b).freeReg (lcOf v.x) (vcOf v.x), ?_⟩
    · simp only [Seat.of4, Val.at_, Seat.src_of_uniform hx, Seat.src_of_uniform hy, Seat.src_of_uniform hz, hword]
      exact SameIn.rfl
    · rw [hout]
      simp only [bodyG4, hx, hy, hz]
      rfl
  stops hu := by
    rw [hout, bodyG4]
    rcases Val.uni_cases (w.fr.reg v.a.toNat) with ⟨x, hx⟩ | ha
    · rcases Val.uni_cases (w.fr.reg v.b.toNat) with ⟨y, hy⟩ | hb
      · have hc : (w.fr.reg (vcOf v.x).toNat).isU = false := by
          simpa [hx, hy, Val.isU] using hu
        rw [hx, hy, Val.uni_of_not_isU hc]
        rfl
      · rw [hx, hb]
        rfl
    · rw [ha]
      rfl

theorem addiG_needs {v : WImm}
    (hout : out = .next (settle w i (w.form i) (w.done (do
      let a ← (w.fr.reg v.a.toNat).uni
      (w.fr.free v.la 32 v.a.toNat).setReg v.d.toNat (.u (addWord .n32 false a ((immOf v.imm v.lit).setWidth 64))))))) :
    w.NeedsUniform i out (w.ofImm v fun a b => (loOf a + loOf b).setWidth 64) [v.a] where
  writes hu := by
    obtain ⟨x, hx⟩ := Val.isU_iff.mp (hu v.a (by simp))
    refine ⟨.u (addWord .n32 false x ((immOf v.imm v.lit).setWidth 64)), v.d, .inl rfl, by simp [Seat.ofImm],
      (place_slot ..).symm, fun l => ?_, _, (Freed.refl w.fr).freeReg v.la v.a, by rw [hout, hx]; rfl⟩
    simp only [Seat.ofImm, Val.at_, Seat.src_of_uniform hx, addWord_n32]
    exact SameIn.rfl
  stops hu := by
    obtain ⟨r, hr, hu⟩ := hu
    obtain rfl := List.mem_singleton.mp hr
    rw [hout, Val.uni_of_not_isU hu]
    rfl

/-- What needs no source always writes. -/
theorem needs_none {r : Result} {v : Val} {d : BitVec 6} (h : w.WritesAs i out r v d false) : w.NeedsUniform i out r [] where
  writes _ := ⟨v, d, h⟩
  stops hu := by simp at hu

end

section
variable {s : State} {i : Instr} {w : Seat} (hi : s.issuing i = some w)
include hi

theorem gset_needs {r : Result} {us : List (BitVec 6)} (hr : w.gset i = some (r, us)) : w.NeedsUniform i (exec i s) r us := by
  unfold Seat.gset at hr
  split at hr <;> cases hr
  case h_1 u v =>
    show w.NeedsUniform _ (execAddG u v s) _ _
    rw [execAddG, runAlu_issuing hi]
    exact bodyG3_needs rfl (fun _ _ => rfl)
  case h_2 u v =>
    show w.NeedsUniform _ (execSubG u v s) _ _
    rw [execSubG, runAlu_issuing hi]
    exact bodyG3_needs rfl (fun _ _ => rfl)
  case h_3 u v =>
    show w.NeedsUniform _ (execMulG u v s) _ _
    rw [execMulG, runAlu_issuing hi]
    exact bodyG3_needs rfl (fun _ _ => rfl)
  case h_4 u v =>
    show w.NeedsUniform _ (execMulhG u v s) _ _
    rw [execMulhG, runAlu_issuing hi]
    exact bodyG3_needs rfl (mulhWord_eq _)
  case h_5 u v =>
    show w.NeedsUniform _ (execMinG u v s) _ _
    rw [execMinG, runAlu_issuing hi]
    exact bodyG3_needs rfl (minWord_eq _)
  case h_6 u v =>
    show w.NeedsUniform _ (execMaxG u v s) _ _
    rw [execMaxG, runAlu_issuing hi]
    exact bodyG3_needs rfl (maxWord_eq _)
  case h_7 u v =>
    show w.NeedsUniform _ (execAddcG u v s) _ _
    rw [execAddcG, runAlu_issuing hi]
    exact bodyG3_needs rfl (addcWord_eq _)
  case h_8 u v =>
    show w.NeedsUniform _ (execMadG u v s) _ _
    rw [execMadG, runAlu_issuing hi]
    exact bodyG4_needs rfl (fun _ _ _ => rfl)
  case h_9 v =>
    show w.NeedsUniform _ (execAndG v s) _ _
    rw [execAndG, runAlu_issuing hi]
    exact bodyG3_needs rfl (fun _ _ => rfl)
  case h_10 v =>
    show w.NeedsUniform _ (execOrG v s) _ _
    rw [execOrG, runAlu_issuing hi]
    exact bodyG3_needs rfl (fun _ _ => rfl)
  case h_11 v =>
    show w.NeedsUniform _ (execXorG v s) _ _
    rw [execXorG, runAlu_issuing hi]
    exact bodyG3_needs rfl (fun _ _ => rfl)
  case h_12 v =>
    show w.NeedsUniform _ (execAndnG v s) _ _
    rw [execAndnG, runAlu_issuing hi]
    exact bodyG3_needs rfl (fun _ _ => rfl)
  case h_13 v =>
    show w.NeedsUniform _ (execShlG v s) _ _
    rw [execShlG, runAlu_issuing hi]
    exact bodyG3_needs rfl (on32_congr shlWord_eq)
  case h_14 v =>
    show w.NeedsUniform _ (execShrG v s) _ _
    rw [execShrG, runAlu_issuing hi]
    exact bodyG3_needs rfl (on32_congr shrWord_eq)
  case h_15 v =>
    show w.NeedsUniform _ (execSarG v s) _ _
    rw [execSarG, runAlu_issuing hi]
    exact bodyG3_needs rfl (on32_congr sarWord_eq)
  case h_16 v =>
    show w.NeedsUniform _ (execAddiG v s) _ _
    rw [execAddiG, runAlu_issuing hi]
    exact addiG_needs rfl
  case h_17 v =>
    show w.NeedsUniform _ (execMoviG v s) _ _
    rw [execMoviG, runAlu_issuing hi]
    exact needs_none (setReg_writes (Freed.refl w.fr) rfl fun l => SameIn.rfl)

end

/-! MOV, whose modifier lets its registers be v registers in supervisor mode (R80). -/

section
variable {s : State} {i : Instr} {w : Seat} {out : Out}

theorem movSrc_eq (w : Seat) (v : W2) (l : Nat) : w.movSrc v l = (movSource v w.fr).at_ w.fr l := by
  unfold Seat.movSrc movSource Seat.src
  split <;> rfl

@[simp] theorem cmpWidth_eq_64 {x : Option XWord} : cmpWidth x = 64 ↔ wideOf x = true := by
  unfold cmpWidth
  split <;> simp [*]

theorem cmpWidth_cases (x : Option XWord) : cmpWidth x = 32 ∨ cmpWidth x = 64 := by
  unfold cmpWidth
  split <;> simp

theorem regsOf_cmpWidth (x : Option XWord) : regsOf (cmpWidth x) = if wideOf x then 2 else 1 := by
  simp [regsOf]

theorem place_plain (fr : Frame) (n : Nat) : fr.place n true = n := by simp [Frame.place]

theorem Seat.group_one (w : Seat) (r : BitVec 6) : w.group r 1 = [w.fr.slot r.toNat] := rfl

theorem Seat.group_two (w : Seat) (r : BitVec 6) : w.group r 2 = [w.fr.slot r.toNat, w.fr.slot r.toNat + 1] := rfl

theorem movFree_freed {v : W2} (ha : wideOf v.x = true → v.a.toNat % 2 = 0) :
    Freed w.fr (movFree v w.fr) (w.movResult v).freed := by
  have hlt := v.a.isLt
  have h1 := (Freed.refl w.fr).one v.a.toNat (xsOf v.x) hlt
  unfold movFree Seat.movResult cmpWidth regsOf
  cases v.la with
  | false => exact Freed.refl w.fr
  | true =>
    cases hw : wideOf v.x with
    | false => cases hx : xsOf v.x <;> simpa [hx, place_plain, place_slot, Seat.group_one] using h1
    | true =>
      have h2 := h1.one (v.a.toNat + 1) (xsOf v.x) (by have := ha hw; omega)
      rw [h1.place_eq] at h2
      cases hx : xsOf v.x <;>
        simpa [hx, place_plain, place_slot, Seat.group_two, slot_succ _ _ (ha hw), List.range_succ] using h2

/-- MOV's own part writes a value that is its source's in every lane. -/
theorem mov_writes {v : W2} (h : SeatFacts s i w) {u : Val} (hsrcs : (w.form i).srcs = [⟨v.a, regsOf (cmpWidth v.x)⟩])
    (hdsts : (w.form i).dsts = [⟨v.d, regsOf (cmpWidth v.x)⟩])
    (hout : out = .next (settle w i (w.form i) (w.done (movWrite v (movFree v w.fr) u))))
    (hu : ∀ l, u.at_ w.fr l = (movSource v w.fr).at_ w.fr l) :
    w.WritesAs i out (w.movResult v) u v.d (xdOf v.x) where
  width := cmpWidth_cases v.x
  even := dst_even h (wd := cmpWidth v.x) (r := v.d) (by simp [hdsts])
  dst := by
    simp only [Seat.movResult]
    cases xdOf v.x <;> simp [place_plain, place_slot, Seat.slot]
  val l := by
    show SameIn _ _ (w.movSrc v l)
    rw [movSrc_eq, hu]
    exact SameIn.rfl
  out := by
    refine ⟨_, movFree_freed fun hw => ?_, ?_⟩
    · exact src_even h (wd := cmpWidth v.x) (by simp [hsrcs]) (cmpWidth_eq_64.mpr hw)
    · simp [hout, movWrite, Frame.dstAs, Seat.movResult]

end

/-- Settles O2: a G-set word's own part writes a U value, or stops at the first source that is none. -/
theorem gSetWords : Obligations.GSetWords := by
  unfold Obligations.GSetWords
  refine ⟨fun s i w r us hi h hu hr => ?_, fun s w v hi hu hr => ?_, fun s i w r us hi h hu hp hh => ?_⟩
  · obtain ⟨v, d, hv⟩ := (gset_needs hi h).writes hu
    exact hv.gives (seat_facts hi) hr
  · obtain ⟨x, hx⟩ := Val.isU_iff.mp hu
    have hout : exec (.movG v) s = .next (settle w (.movG v) (w.form (.movG v))
        (w.done (movWrite v (movFree v w.fr) (.u x)))) := by
      show execMovG v s = _
      rw [execMovG, runAlu_issuing hi, hx]
      rfl
    exact (mov_writes (seat_facts hi) (by rw [regsOf_cmpWidth]; rfl) (by rw [regsOf_cmpWidth]; rfl) hout
      fun l => by rw [hx]).gives (seat_facts hi) hr
  · rw [(gset_needs hi h).stops hu]
    exact congrArg _ (trapped_of_stop (seat_facts hi) hp hh rfl)

end Sys2Proof.Machine
end

section
/-! MKU, PMOV, SEL and the special registers (R54, R55, R347, R360). -/

namespace Sys2Proof.Machine

theorem sameIn_of_eq {wd : Nat} {a b : DWord} (h : a = b) : SameIn wd a b := h ▸ SameIn.rfl

theorem cutTo_of_sameIn {wd : Nat} (hwd : wd = 32 ∨ wd = 64) {a b : DWord} (h : SameIn wd a b) : cutTo wd a = cutTo wd b := by
  rcases hwd with rfl | rfl
  · exact congrArg (BitVec.setWidth 64) h
  · exact congrArg _ h

/-- Only the active lanes' values count, and of those only the bits of the width. -/
theorem Writes.congr_sameIn {w : Seat} {r : Result} {t : Strip} {val : Nat → DWord} (h : Writes w r t)
    (hwd : r.wd = 32 ∨ r.wd = 64) (hv : ∀ l < 32, laneIn w.fr.active l = true → SameIn r.wd (r.val l) (val l)) :
    Writes w { r with val := val } t where
  active l hl ha := (h.active l hl ha).trans (cutTo_of_sameIn hwd (hv l hl ha))
  others := h.others
  returned := h.returned
  keeps := h.keeps

section
variable {s : State} {i : Instr} {w : Seat} (h : SeatFacts s i w)
include h

theorem predWord_at (p : BitVec 5) (l : Nat) :
    (predWord w.fr (w.fr.pred p.toNat)).at_ w.fr l = if w.pred p l then 1 else 0 := by
  rw [← seat_pred h]
  cases w.fr.pred p.toNat with
  | u b => cases b <;> rfl
  | range a lo hi => rfl
  | l m => rfl

theorem selVal_at (p : BitVec 5) (gn : Bool) (a b : Val) (l : Nat) :
    (selVal w.fr (w.fr.pred p.toNat) gn a b).at_ w.fr l = if w.pred p l != gn then a.at_ w.fr l else b.at_ w.fr l := by
  rw [← seat_pred h]
  cases w.fr.pred p.toNat with
  | u c =>
    simp only [selVal, PVal.at_]
    exact apply_ite (fun v : Val => v.at_ w.fr l) ..
  | range a lo hi => rfl
  | l m => rfl

end

/-! The special registers. -/

theorem hiOf_setWidth (x : DWord) : (hiOf x).setWidth 64 = x >>> 32 := by
  have := x.isLt
  refine BitVec.eq_of_toNat_eq ?_
  rw [BitVec.toNat_setWidth, hiOf_toNat, BitVec.toNat_ushiftRight, Nat.shiftRight_eq_div_pow]
  omega

/-- What a register of 64 bits gives to MOVS, and its low half to a narrow one. -/
theorem half_same (wide : Bool) (x : DWord) (fr : Frame) (l : Nat) :
    SameIn (if wide then 64 else 32) (Val.at_ fr (if wide then .u x else uWord (loOf x)) l) (if wide then x else low32 x) := by
  cases wide <;> rfl

/-- The stride of an axis is left out where the axis has one coordinate (log 12). -/
theorem stride_mul {e k n d : Nat} (hd : d < e) (hn : n = k * d) : (if e = 1 then 0 else k) * d = n := by
  split
  · obtain rfl : d = 0 := by omega
    simpa using hn.symm
  · exact hn.symm

theorem itemAff_at {b : Box} {x y z : Nat} (h : b.holds (x, y, z) = true) :
    affAt (itemAff b) (x, y, z) = BitVec.ofNat 64 ((x - b.ox) + b.ex * ((y - b.oy) + b.ey * (z - b.oz))) := by
  simp only [Box.holds, Bool.and_eq_true, decide_eq_true_eq] at h
  obtain ⟨⟨⟨⟨⟨hx, hx'⟩, hy⟩, hy'⟩, hz⟩, hz'⟩ := h
  obtain ⟨x, rfl⟩ := Nat.exists_eq_add_of_le hx
  obtain ⟨y, rfl⟩ := Nat.exists_eq_add_of_le hy
  obtain ⟨z, rfl⟩ := Nat.exists_eq_add_of_le hz
  have h1 := stride_mul (e := b.ex) (k := 1) (d := x) (by omega) rfl
  have h2 := stride_mul (e := b.ey) (k := b.ex) (d := y) (by omega) rfl
  have h3 := stride_mul (e := b.ez) (k := b.ex * b.ey) (d := z) (by omega) rfl
  simp only [affAt, itemAff, Nat.add_sub_cancel_left, BitVec.ofInt_neg, BitVec.ofInt_natCast]
  generalize (if b.ex = 1 then 0 else 1) = sx at *
  generalize (if b.ey = 1 then 0 else b.ex) = sy at *
  generalize (if b.ez = 1 then 0 else b.ex * b.ey) = sz at *
  have hsum : sx * (b.ox + x) + sy * (b.oy + y) + sz * (b.oz + z) =
      (x + b.ex * (y + b.ey * z)) + (sx * b.ox + sy * b.oy + sz * b.oz) := by
    linear_combination h1 + h2 + h3
  have := congrArg (BitVec.ofNat 64) hsum
  simp only [BitVec.ofNat_add, BitVec.ofNat_mul] at this ⊢
  linear_combination this

/-- What MOVS reads of a special register of a strip: a value that is the register's in every lane, U for MOVS.G. -/
structure Seat.Reads (w : Seat) (wide : Bool) (n : Nat) (v : Val) : Prop where
  value : srValue w.info n wide = .ok v
  same : ∀ l, (n = 0 → w.l.rcd.box.holds (w.coord l) = true) →
    SameIn (if wide then 64 else 32) (v.at_ w.fr l) (w.special wide n l)
  uniform : uniformSrs.contains n = true → v.isU = true

theorem half_isU (wide : Bool) (x : DWord) : (if wide then Val.u x else uWord (loOf x)).isU = true := by
  cases wide <;> rfl

theorem faddr_same (wide : Bool) (x : DWord) : SameIn (if wide then 64 else 32) x (if wide then x else low32 x) := by
  cases wide
  · exact (loOf_low32 x).symm
  · rfl

theorem coordX_at (c : Nat × Nat × Nat) : affAt (Aff.mk 0 1 0 0) c = BitVec.ofNat 64 c.1 := by simp [affAt]
theorem coordY_at (c : Nat × Nat × Nat) : affAt (Aff.mk 0 0 1 0) c = BitVec.ofNat 64 c.2.1 := by simp [affAt]
theorem coordZ_at (c : Nat × Nat × Nat) : affAt (Aff.mk 0 0 0 1) c = BitVec.ofNat 64 c.2.2 := by simp [affAt]

theorem srValue_reads {w : Seat} (hco : w.fr.coord = w.coord) (wide : Bool) {n : Nat} (hn : n < 0x20) :
    ∃ v, w.Reads wide n v :=
  match n, hn with
  | 0x00, _ => ⟨_, rfl, fun l h => sameIn_of_eq ((congrArg _ (congrFun hco l)).trans (itemAff_at (h rfl))), fun hu => absurd hu (by decide)⟩
  | 0x01, _ => ⟨_, rfl, fun l _ => sameIn_of_eq ((congrArg _ (congrFun hco l)).trans (coordX_at _)), fun hu => absurd hu (by decide)⟩
  | 0x02, _ => ⟨_, rfl, fun l _ => sameIn_of_eq ((congrArg _ (congrFun hco l)).trans (coordY_at _)), fun hu => absurd hu (by decide)⟩
  | 0x03, _ => ⟨_, rfl, fun l _ => sameIn_of_eq ((congrArg _ (congrFun hco l)).trans (coordZ_at _)), fun hu => absurd hu (by decide)⟩
  | 0x04, _ => ⟨_, rfl, fun l _ => SameIn.rfl, fun hu => absurd hu (by decide)⟩
  | 0x05, _ => ⟨_, rfl, fun l _ => SameIn.rfl, fun _ => rfl⟩
  | 0x06, _ => ⟨_, rfl, fun l _ => SameIn.rfl, fun _ => rfl⟩
  | 0x07, _ => ⟨_, rfl, fun l _ => SameIn.rfl, fun _ => rfl⟩
  | 0x08, _ => ⟨_, rfl, fun l _ => SameIn.rfl, fun _ => rfl⟩
  | 0x09, _ => ⟨_, rfl, fun l _ => SameIn.rfl, fun _ => rfl⟩
  | 0x0A, _ => ⟨_, rfl, fun l _ => SameIn.rfl, fun _ => rfl⟩
  | 0x0B, _ => ⟨_, rfl, fun l _ => SameIn.rfl, fun _ => rfl⟩
  | 0x0C, _ => ⟨_, rfl, fun l _ => SameIn.rfl, fun _ => rfl⟩
  | 0x0D, _ => ⟨_, rfl, fun l _ => SameIn.rfl, fun _ => rfl⟩
  | 0x0E, _ => ⟨_, rfl, fun l _ => SameIn.rfl, fun _ => rfl⟩
  | 0x0F, _ => ⟨_, rfl, fun l _ => half_same .., fun _ => half_isU ..⟩
  | 0x10, _ => ⟨_, rfl, fun l _ => SameIn.rfl, fun _ => rfl⟩
  | 0x11, _ => ⟨_, rfl, fun l _ => SameIn.rfl, fun _ => rfl⟩
  | 0x12, _ => ⟨_, rfl, fun l _ => SameIn.rfl, fun _ => rfl⟩
  | 0x13, _ => ⟨_, rfl, fun l _ => SameIn.rfl, fun _ => rfl⟩
  | 0x14, _ => ⟨_, rfl, fun l _ => faddr_same .., fun hu => absurd hu (by decide)⟩
  | 0x15, _ => ⟨_, rfl, fun l _ => sameIn_of_eq (hiOf_setWidth _), fun hu => absurd hu (by decide)⟩
  | 0x16, _ => ⟨_, rfl, fun l _ => SameIn.rfl, fun _ => rfl⟩
  | 0x17, _ => ⟨_, rfl, fun l _ => half_same .., fun _ => half_isU ..⟩
  | 0x18, _ => ⟨_, rfl, fun l _ => sameIn_of_eq (hiOf_setWidth _), fun _ => rfl⟩
  | 0x19, _ => ⟨_, rfl, fun l _ => SameIn.rfl, fun _ => rfl⟩
  | 0x1A, _ => ⟨_, rfl, fun l _ => half_same .., fun _ => half_isU ..⟩
  | 0x1B, _ => ⟨_, rfl, fun l _ => SameIn.rfl, fun _ => rfl⟩
  | 0x1C, _ => ⟨_, rfl, fun l _ => SameIn.rfl, fun _ => rfl⟩
  | 0x1D, _ => ⟨_, rfl, fun l _ => half_same .., fun _ => half_isU ..⟩
  | 0x1E, _ => ⟨_, rfl, fun l _ => sameIn_of_eq (hiOf_setWidth _), fun _ => rfl⟩
  | 0x1F, _ => ⟨_, rfl, fun l _ => half_same .., fun _ => half_isU ..⟩
  | n + 32, hn => absurd hn (by omega)

theorem mku_writes {s : State} {w : Seat} {v : W2} {r : Result} (hi : s.issuing (.mku v) = some w)
    (hr : w.moves (.mku v) = some r) : ∃ x, w.WritesAs (.mku v) (exec (.mku v) s) r (.u x) v.d false := by
  have h := seat_facts hi
  cases hr
  have hout : exec (.mku v) s = .next (settle w (.mku v) (w.form (.mku v)) (w.done (mkuFrame v w.fr))) :=
    runStrip_issuing hi _
  have hsrcs : (w.form (.mku v)).srcs = [⟨v.a, regsOf (cmpWidth v.x)⟩] := by rw [regsOf_cmpWidth]; rfl
  have hdsts : (w.form (.mku v)).dsts = [⟨v.d, regsOf (cmpWidth v.x)⟩] := by rw [regsOf_cmpWidth]; rfl
  exact ⟨_, cmpWidth_cases v.x, dst_even h (wd := cmpWidth v.x) (r := v.d) (by simp [hdsts]), (place_slot ..).symm,
    fun l => SameIn.rfl, _, (Freed.refl w.fr).freeSrc h (wd := cmpWidth v.x) v.la (r := v.a) (by simp [hsrcs]), hout⟩

/-- Every move writes its result. -/
theorem moves_writes {s : State} {i : Instr} {w : Seat} {r : Result} (hi : s.issuing i = some w) (hr : w.moves i = some r) :
    ∃ u d plain, w.WritesAs i (exec i s) r u d plain := by
  have h := seat_facts hi
  unfold Seat.moves at hr
  split at hr
  case h_5 => cases hr
  case h_1 v =>
    cases hr
    show ∃ u d plain, w.WritesAs _ (execMov v s) _ u d plain
    rw [execMov, runAlu_issuing hi]
    exact ⟨_, _, _, mov_writes h (by rw [regsOf_cmpWidth]; rfl) (by rw [regsOf_cmpWidth]; rfl) rfl fun l => rfl⟩
  case h_2 v =>
    obtain ⟨x, hv⟩ := mku_writes hi hr
    exact ⟨_, _, _, hv⟩
  case h_3 v =>
    cases hr
    show ∃ u d plain, w.WritesAs _ (execPmovToReg v s) _ u d plain
    rw [execPmovToReg, runAlu_issuing hi]
    exact ⟨_, _, _, setReg_writes (Freed.refl w.fr) rfl fun l => sameIn_of_eq (predWord_at h v.q l)⟩
  case h_4 v =>
    cases hr
    show ∃ u d plain, w.WritesAs _ (execSel v s) _ u d plain
    have hp : (v.x.map (XWord.gp · |>.toNat)).getD 0 = ((v.x.map XWord.gp).getD 0).toNat := by cases v.x <;> rfl
    rw [execSel, runAlu_issuing hi, hp]
    exact ⟨_, _, _, setReg_writes (((Freed.refl w.fr).freeReg v.la v.a).freeReg v.lb v.b) rfl fun l =>
      sameIn_of_eq (selVal_at h _ _ _ _ l)⟩

theorem movs_writes {s : State} {i : Instr} {w : Seat} {v : WNoLa} (hi : s.issuing i = some w) (hv : i = .movs v ∨ i = .movsG v) :
    ∃ u, w.Reads (wideOf v.x) v.a.toNat u ∧
      w.WritesAs i (exec i s) { w.movsResult v with val := u.at_ w.fr } u v.d false := by
  have h := seat_facts hi
  have hok : (w.form i).ok = true := (legal_parts h.legal).1
  have hform : ∃ g, w.form i = formMovs g v ∧ (i = .movsG v → g = true) := by
    rcases hv with rfl | rfl
    · exact ⟨_, rfl, fun hc => by cases hc⟩
    · exact ⟨_, rfl, fun _ => rfl⟩
  obtain ⟨g, hform, hg⟩ := hform
  rw [hform] at hok
  simp only [formMovs, Bool.and_eq_true, decide_eq_true_eq, Bool.or_eq_true, Bool.not_eq_true'] at hok
  obtain ⟨⟨hn, -⟩, hu⟩ := hok
  obtain ⟨u, hreads⟩ := srValue_reads (seat_coord h) (wideOf v.x) hn
  have hout : exec i s = .next (settle w i (w.form i) (w.done (w.fr.dst (cmpWidth v.x) v.d.toNat u))) := by
    rcases hv with rfl | rfl
    · show execMovs v s = _
      rw [execMovs, runAlu_issuing hi, movsFrame, hreads.value]
      rfl
    · obtain ⟨x, rfl⟩ := Val.isU_iff.mp (hreads.uniform (by simpa [hg] using hu))
      show execMovsG v s = _
      rw [execMovsG, runAlu_issuing hi, hreads.value]
      rfl
  exact ⟨u, hreads, cmpWidth_cases v.x, dst_even h (wd := cmpWidth v.x) (r := v.d) (by simp [hform, formMovs, regsOf_cmpWidth]),
    (place_slot ..).symm, fun l => SameIn.rfl, _, Freed.refl w.fr, hout⟩

/-- Settles O4: MOVS reads each register of a strip as SR's table says, and the other moves write their source. -/
theorem moveWords : Obligations.MoveWords := by
  unfold Obligations.MoveWords
  refine ⟨fun s i w r hi hr hregs => ?_, fun s i w v hi hv hregs hbox => ?_,
    fun s w v r hi hr hregs hp hw => ?_⟩
  · obtain ⟨u, d, plain, hv⟩ := moves_writes hi hr
    exact hv.gives (seat_facts hi) hregs
  · obtain ⟨u, hreads, hwrites⟩ := movs_writes hi hv
    obtain ⟨t, hout, hrest, ht⟩ := hwrites.gives (seat_facts hi) hregs
    refine ⟨t, hout, hrest, ht.congr_sameIn (cmpWidth_cases v.x) fun l hl ha => hreads.same l fun h0 => ?_⟩
    exact hbox (BitVec.eq_of_toNat_eq h0) l hl ha
  · obtain ⟨x, hv⟩ := mku_writes hi hr
    exact (hv.gives_uniform (seat_facts hi) rfl hp hw).2

end Sys2Proof.Machine
end

section
/-! The float words (R327 to R333): each rounds once in every lane, frees its sources and writes the result. -/

namespace Sys2Proof.Machine

/-- The frame of a seat once a float word has rounded: its flags are raised, and the generator that it used has advanced. -/
def Seat.roundedFrame (w : Seat) (f : FloatOp) : Frame :=
  { w.fr with
    fpstat := w.fr.fpstat ||| w.fr.flags fun l => (f.eval l (w.fr.draw f.mode l)).2
    gens := w.fr.drawn f.mode }

/-- The own part of a word rounds as f says, frees f's registers and writes the result. -/
structure Seat.RoundsAs (w : Seat) (i : Instr) (out : Out) (f : FloatOp) : Prop where
  width : f.wd = 32 ∨ f.wd = 64
  even : f.wd = 64 → f.dst.toNat % 2 = 0
  out : ∃ fr1 v, Freed (w.roundedFrame f) fr1 f.freed ∧
    (∀ l, v.at_ w.fr l = BitVec.ofNat 64 (f.eval l (w.fr.draw f.mode l)).1) ∧
    out = .next (settle w i (w.form i) (w.done (fr1.dst f.wd f.dst.toNat v)))

@[simp] theorem Frame.src_32 (fr : Frame) (n : Nat) : fr.src 32 n = fr.reg n := rfl

theorem floatWidth_cases (f : Bool) : floatWidth f = 32 ∨ floatWidth f = 64 := by cases f <;> simp [floatWidth]

theorem regsOf_floatWidth (f : Bool) : regsOf (floatWidth f) = if f then 2 else 1 := by cases f <;> rfl

section
variable {s : State} {i : Instr} {w : Seat} (h : SeatFacts s i w) {out : Out} {f : FloatOp}
include h

theorem Seat.RoundsAs.gives (hf : w.RoundsAs i out f) (hr : w.l.hdr.regs ≠ 0) : w.givesFloat i out f := by
  obtain ⟨fr1, v, hfree, hv, hout⟩ := hf.out
  obtain ⟨fr2, hok, hgives⟩ := givesFloat_of h hr f hf.width hf.even hfree hv
  rw [hout, hok]
  exact hgives

/-- A word that rounds, frees registers and writes: rounding in a strip always succeeds. -/
theorem rounds_of (hwd : f.wd = 32 ∨ f.wd = 64) (heven : f.wd = 64 → f.dst.toNat % 2 = 0) {uni : Bool}
    {free : Frame → Frame} (hfree : ∀ fr, Freed (w.roundedFrame f) fr [] → Freed (w.roundedFrame f) (free fr) f.freed)
    (huni : uni = true → ∀ l, f.eval l = f.eval 0)
    (hout : out = .next (settle w i (w.form i) (w.done (do
      let (v, fr) ← w.fr.rounded f.mode uni f.eval
      (free fr).dst f.wd f.dst.toNat v)))) : w.RoundsAs i out f where
  width := hwd
  even := heven
  out := by
    obtain ⟨v, hok, hv⟩ := rounded_spec f.mode uni f.eval (seat_span h) h.lanes huni
    exact ⟨_, v, hfree _ (Freed.refl _), hv, by rw [hout, hok]; rfl⟩

omit h in
/-- A last-read of a source by a word that has rounded. -/
theorem Freed.freeRounded {fr1 : Frame} {ns : List Nat} (hf : Freed (w.roundedFrame f) fr1 ns) (bit : Bool) {wd : Nat}
    {r : BitVec 6} (he : wd = 64 → r.toNat % 2 = 0) :
    Freed (w.roundedFrame f) (fr1.free bit wd r.toNat) (ns ++ w.lastRead bit r (regsOf wd)) := by
  have := hf.free bit wd r.toNat r.isLt he
  rwa [show (w.roundedFrame f).lastRead bit wd r.toNat = w.fr.lastRead bit wd r.toNat from rfl, lastRead_eq] at this

theorem floatBody_rounds {f64 draws : Bool} {v : W3} {op : Nat → Num → Num → Num × Bool} {op' : Num → Num → Num × Bool}
    (hsrcs : (w.form i).srcs = [⟨v.a, if f64 then 2 else 1⟩, ⟨v.b, if f64 then 2 else 1⟩])
    (hdsts : (w.form i).dsts = [⟨v.d, if f64 then 2 else 1⟩])
    (hop : op (if draws then w.mode v.x else 1) = op')
    (hout : out = .next (settle w i (w.form i) (w.done (floatBody f64 v draws op w.fr)))) :
    w.RoundsAs i out (w.float2 f64 v (if draws then w.mode v.x else 1) op') := by
  subst hop
  rw [← regsOf_floatWidth] at hsrcs hdsts
  have heven (r : BitVec 6) := src_even h (wd := floatWidth f64) (r := r)
  refine rounds_of h (floatWidth_cases f64) (dst_even h (wd := floatWidth f64) (r := v.d) (by simp [hdsts]))
    (uni := (w.fr.src (floatWidth f64) v.a.toNat).isU && (w.fr.src (floatWidth f64) v.b.toNat).isU)
    (fun fr hfr => (hfr.freeRounded v.la (heven _ (by simp [hsrcs]))).freeRounded v.lb (heven _ (by simp [hsrcs])))
    (fun hu l => ?_) hout
  obtain ⟨ha, hb⟩ := Bool.and_eq_true_iff.mp hu
  simp only [Seat.float2, Seat.num, Seat.src, isU_const ha w.fr l, isU_const hb w.fr l]

/-- A word of one FP32 source. -/
theorem floatBody1_rounds {v : W2} {eval : Frame → Nat → Word → DWord → Nat × Word}
    (hout : out = .next (settle w i (w.form i) (w.done (floatBody1 v eval w.fr)))) :
    w.RoundsAs i out (w.float1 v eval) := by
  refine rounds_of h (.inl rfl) nofun (uni := (w.fr.reg v.a.toNat).isU)
    (fun fr hfr => hfr.freeRounded (wd := 32) v.la nofun) (fun hu l => ?_) hout
  simp only [Seat.float1, Seat.src, Frame.src_32, isU_const hu w.fr l]

theorem ffmaBody_rounds {f64 : Bool} {v : W3}
    (hsrcs : (w.form i).srcs = [⟨v.a, if f64 then 2 else 1⟩, ⟨v.b, if f64 then 2 else 1⟩, ⟨vcOf v.x, if f64 then 2 else 1⟩])
    (hdsts : (w.form i).dsts = [⟨v.d, if f64 then 2 else 1⟩]) (hf : w.float (.ffma f64 v) = some f)
    (hout : out = .next (settle w i (w.form i) (w.done (ffmaBody f64 v w.fr)))) : w.RoundsAs i out f := by
  cases hf
  rw [← regsOf_floatWidth] at hsrcs hdsts
  have heven (r : BitVec 6) := src_even h (wd := floatWidth f64) (r := r)
  refine rounds_of h (floatWidth_cases f64) (dst_even h (wd := floatWidth f64) (r := v.d) (by simp [hdsts]))
    (uni := (w.fr.src (floatWidth f64) v.a.toNat).isU && (w.fr.src (floatWidth f64) v.b.toNat).isU &&
      (w.fr.src (floatWidth f64) (vcOf v.x).toNat).isU)
    (fun fr hfr => ((hfr.freeRounded v.la (heven _ (by simp [hsrcs]))).freeRounded v.lb (heven _ (by simp [hsrcs]))).freeRounded
      (lcOf v.x) (heven _ (by simp [hsrcs]))) (fun hu l => ?_) hout
  obtain ⟨hab, hc⟩ := Bool.and_eq_true_iff.mp hu
  obtain ⟨ha, hb⟩ := Bool.and_eq_true_iff.mp hab
  simp only [Seat.num, Seat.src, isU_const ha w.fr l, isU_const hb w.fr l, isU_const hc w.fr l]

theorem fsclBody_rounds {f64 : Bool} {v : W3} (hsrcs : (w.form i).srcs = [⟨v.a, if f64 then 2 else 1⟩, ⟨v.b, 1⟩])
    (hdsts : (w.form i).dsts = [⟨v.d, if f64 then 2 else 1⟩]) (hf : w.float (.fscl f64 v) = some f)
    (hout : out = .next (settle w i (w.form i) (w.done (fsclBody f64 v w.fr)))) : w.RoundsAs i out f := by
  cases hf
  rw [← regsOf_floatWidth] at hsrcs hdsts
  have heven (r : BitVec 6) := src_even h (wd := floatWidth f64) (r := r)
  refine rounds_of h (floatWidth_cases f64) (dst_even h (wd := floatWidth f64) (r := v.d) (by simp [hdsts]))
    (uni := (w.fr.src (floatWidth f64) v.a.toNat).isU && (w.fr.reg v.b.toNat).isU)
    (fun fr hfr => (hfr.freeRounded v.la (heven _ (by simp [hsrcs]))).freeRounded (wd := 32) v.lb nofun) (fun hu l => ?_) hout
  obtain ⟨ha, hb⟩ := Bool.and_eq_true_iff.mp hu
  simp only [Seat.num, Seat.src, isU_const ha w.fr l, Frame.src_32, isU_const hb w.fr l]

end

theorem float_rounds {s : State} {i : Instr} {w : Seat} {f : FloatOp} (hi : s.issuing i = some w) (hf : w.float i = some f) :
    w.RoundsAs i (exec i s) f := by
  have h := seat_facts hi
  have hf' := hf
  unfold Seat.float at hf
  split at hf
  case h_1 f64 v =>
    cases hf
    show w.RoundsAs _ (execFadd f64 v s) _
    rw [execFadd, runAlu_issuing hi]
    exact floatBody_rounds h (draws := true) rfl rfl rfl rfl
  case h_2 f64 v =>
    cases hf
    show w.RoundsAs _ (execFsub f64 v s) _
    rw [execFsub, runAlu_issuing hi]
    exact floatBody_rounds h (draws := true) rfl rfl rfl rfl
  case h_3 f64 v =>
    cases hf
    show w.RoundsAs _ (execFmul f64 v s) _
    rw [execFmul, runAlu_issuing hi]
    exact floatBody_rounds h (draws := true) rfl rfl rfl rfl
  case h_4 f64 v =>
    cases hf
    show w.RoundsAs _ (execFmin f64 v s) _
    rw [execFmin, runAlu_issuing hi]
    exact floatBody_rounds h (draws := false) rfl rfl rfl rfl
  case h_5 f64 v =>
    cases hf
    show w.RoundsAs _ (execFmax f64 v s) _
    rw [execFmax, runAlu_issuing hi]
    exact floatBody_rounds h (draws := false) rfl rfl rfl rfl
  case h_6 f64 v =>
    show w.RoundsAs _ (execFfma f64 v s) _
    rw [execFfma, runAlu_issuing hi]
    exact ffmaBody_rounds h rfl rfl hf' rfl
  case h_7 f64 v =>
    show w.RoundsAs _ (execFscl f64 v s) _
    rw [execFscl, runAlu_issuing hi]
    exact fsclBody_rounds h rfl rfl hf' rfl
  case h_8 v =>
    cases hf
    show w.RoundsAs _ (execFrcp v s) _
    rw [execFrcp, runAlu_issuing hi]
    exact floatBody1_rounds h rfl
  case h_9 v =>
    cases hf
    show w.RoundsAs _ (execFrsq v s) _
    rw [execFrsq, runAlu_issuing hi]
    exact floatBody1_rounds h rfl
  case h_10 v =>
    cases hf
    show w.RoundsAs _ (execFsqrt v s) _
    rw [execFsqrt, runAlu_issuing hi]
    exact floatBody1_rounds h rfl
  case h_11 v =>
    cases hf
    show w.RoundsAs _ (execFexp2 v s) _
    rw [execFexp2, runAlu_issuing hi]
    exact floatBody1_rounds h rfl
  case h_12 v =>
    cases hf
    show w.RoundsAs _ (execFlog2 v s) _
    rw [execFlog2, runAlu_issuing hi]
    exact floatBody1_rounds h rfl
  case h_13 v =>
    cases hf
    show w.RoundsAs _ (execFsin v s) _
    rw [execFsin, runAlu_issuing hi]
    exact floatBody1_rounds h rfl
  case h_14 v =>
    cases hf
    show w.RoundsAs _ (execFcos v s) _
    rw [execFcos, runAlu_issuing hi]
    exact floatBody1_rounds h rfl
  case h_15 v =>
    cases hf
    show w.RoundsAs _ (execFtanh v s) _
    rw [execFtanh, runAlu_issuing hi]
    exact floatBody1_rounds h rfl
  case h_16 v =>
    cases hf
    show w.RoundsAs _ (execFrnd v s) _
    rw [execFrnd, runAlu_issuing hi]
    exact floatBody1_rounds h rfl
  case h_17 => cases hf

/-! CVT and VDOT. -/

theorem ok_bind {α β : Type} (a : α) (f : α → Do β) : ((.ok a : Do α) >>= f) = f a := rfl

theorem error_bind {α β : Type} (e : Stop) (f : α → Do β) : ((.error e : Do α) >>= f) = .error e := rfl

section
variable {s : State} {i : Instr} {w : Seat} (h : SeatFacts s i w) {out : Out}
include h

theorem seat_table : w.fr.table = w.x.fmtTable ∧ w.fr.fmt = w.t.fmt := by
  obtain ⟨gd, hgd⟩ := h.gd
  rw [hgd]
  exact ⟨rfl, rfl⟩

/-- R107: an entry that is not block-scaled, or ILLEGAL_FORMAT. -/
theorem plainEntry_eq (code : Nat) :
    w.fr.plainEntry code = match w.plainEntry code with
      | some e => .ok e
      | none => .error (.trap 0x0A) := by
  obtain ⟨htable, hfmt⟩ := seat_table h
  unfold Frame.plainEntry Frame.entry Seat.plainEntry
  rw [htable, hfmt]
  cases entryOf w.x.fmtTable w.t.fmt code with
  | none => rfl
  | some e =>
    simp only [Option.bind_some]
    show (if (Ent.of e).blk = 0 then .ok e else illegalFormat) = _
    split <;> rfl

theorem width_of_plainEntry {code : Nat} {e : DWord} (he : w.plainEntry code = some e) : w.fr.width code = (Ent.of e).wid := by
  obtain ⟨htable, hfmt⟩ := seat_table h
  obtain ⟨e', he', hblk⟩ := Option.bind_eq_some_iff.mp he
  split at hblk <;> cases hblk
  rw [Frame.width, htable, hfmt, he']
  rfl

theorem lineFor_ok (hr : w.l.hdr.regs ≠ 0) (n : Nat) (uniform : Bool) : w.fr.lineFor n uniform = .ok () := by
  simp [Frame.lineFor, seat_noLines h hr]

omit h in
theorem even_of_fitsSlot {e : Ent} {r : BitVec 6} (hf : fitsSlot e r = true) (h64 : (if e.wid = 64 then 64 else 32) = 64) :
    r.toNat % 2 = 0 := by
  have hwid : e.wid = 64 := by
    by_contra hne
    rw [if_neg hne] at h64
    cases h64
  simpa [fitsSlot, hwid] using hf

theorem cvt_rounds {fn : BitVec 3} {v : W3} {e f : DWord} (he : w.plainEntry v.b.toNat = some e)
    (hf : w.plainEntry (fmtOf v.x) = some f) (hfits : cvtFits (Ent.of e).wid (Ent.of f).wid fn v = true)
    (ha : fitsSlot (Ent.of e) v.a = true) (hd : fitsSlot (Ent.of f) v.d = true) (hr : w.l.hdr.regs ≠ 0)
    (hout : out = .next (settle w i (w.form i) (w.done (cvtBody fn v w.fr)))) : w.RoundsAs i out (w.cvt fn v e f) := by
  have hwidth (x : Nat) : (if x = 64 then 64 else 32) = 32 ∨ (if x = 64 then 64 else 32) = 64 := by split <;> simp
  refine rounds_of h (hwidth _) (even_of_fitsSlot hd) (uni := (w.fr.src (if (Ent.of e).wid = 64 then 64 else 32) v.a.toNat).isU)
    (fun fr hfr => hfr.freeRounded v.la (even_of_fitsSlot ha)) (fun hu l => ?_) ?_
  · simp only [Seat.cvt, Seat.src, isU_const hu w.fr l]
  · rw [hout]
    unfold cvtBody
    simp only [width_of_plainEntry h he, width_of_plainEntry h hf, hfits, plainEntry_eq h, he, hf, lineFor_ok h hr, ha, hd,
      ok_bind, if_true, Bool.not_true, Bool.or_self, Bool.false_eq_true, if_false]
    rfl

theorem vdot_rounds {v : W3} {e : DWord} (he : w.plainEntry (fmtOf v.x) = some e)
    (hwid : (Ent.of e).wid = 4 ∨ (Ent.of e).wid = 8 ∨ (Ent.of e).wid = 16) (hr : w.l.hdr.regs ≠ 0)
    (hout : out = .next (settle w i (w.form i) (w.done (vdotBody v w.fr)))) : w.RoundsAs i out (w.vdot v e) := by
  refine rounds_of h (.inl rfl) nofun
    (uni := (w.fr.reg v.a.toNat).isU && (w.fr.reg v.b.toNat).isU && (w.fr.reg (vcOf v.x).toNat).isU)
    (fun fr hfr => ((hfr.freeRounded (wd := 32) v.la nofun).freeRounded (wd := 32) v.lb nofun).freeRounded (wd := 32)
      (lcOf v.x) nofun) (fun hu l => ?_) ?_
  · obtain ⟨hab, hc⟩ := Bool.and_eq_true_iff.mp hu
    obtain ⟨ha, hb⟩ := Bool.and_eq_true_iff.mp hab
    simp only [Seat.vdot, Seat.src, Frame.src_32, isU_const ha w.fr l, isU_const hb w.fr l, isU_const hc w.fr l]
  · have hw : ¬((Ent.of e).wid ≠ 4 ∧ (Ent.of e).wid ≠ 8 ∧ (Ent.of e).wid ≠ 16) := by omega
    rw [hout]
    unfold vdotBody
    simp only [plainEntry_eq h, he, lineFor_ok h hr, ok_bind, if_neg hw]
    rfl

end

/-! What stops a word whose result has no register, or whose format is no entry for it. -/

/-- The own part of a word ends in writing a register in a frame like the seat's. -/
def Seat.EndsInWrite (w : Seat) (i : Instr) (out : Out) : Prop :=
  ∃ (fr1 : Frame) (wd n : Nat) (v : Val) (plain : Bool), fr1.priv = w.fr.priv ∧ fr1.span = w.fr.span ∧ fr1.whole = w.fr.whole ∧ fr1.noLines = w.fr.noLines ∧
    out = .next (settle w i (w.form i) (w.done (fr1.dstAs wd n v plain)))

/-- R65: a value that is written in a part of the strip is L, and has no line in a launch without registers. -/
theorem dstAs_noLines {fr : Frame} (wd n : Nat) (v : Val) (plain : Bool) (hp : fr.priv = false) (hs : fr.span = false)
    (hw : fr.whole = false) (hl : fr.noLines = true) : fr.dstAs wd n v plain = .error (.trap 0x08) := by
  have hlanes (f : Nat → Word) : fr.writeLanes n f plain = .error (.trap 0x08) := by
    simp [Frame.writeLanes, Frame.isK, hp, hs, hl, illegalOp]
  unfold Frame.dstAs
  split
  · simp only [Frame.setPairAs, hw, Bool.not_false, Bool.or_true, if_true, hlanes]
    rfl
  · simp only [Frame.setRegAs, hw, Bool.not_false, Bool.or_true, if_true, hlanes]

theorem Seat.WritesAs.ends {w : Seat} {i : Instr} {out : Out} {r : Result} {v : Val} {d : BitVec 6} {plain : Bool}
    (h : w.WritesAs i out r v d plain) : w.EndsInWrite i out := by
  obtain ⟨fr1, hf, hout⟩ := h.out
  exact ⟨fr1, _, _, _, _, by rw [hf.rest], by rw [hf.rest], by rw [hf.rest], by rw [hf.rest], hout⟩

theorem Seat.RoundsAs.ends {w : Seat} {i : Instr} {out : Out} {f : FloatOp} (h : w.RoundsAs i out f) : w.EndsInWrite i out := by
  obtain ⟨fr1, v, hf, -, hout⟩ := h.out
  exact ⟨fr1, _, _, _, false, by rw [hf.rest]; rfl, by rw [hf.rest]; rfl, by rw [hf.rest]; rfl, by rw [hf.rest]; rfl, hout⟩

theorem crossed_ends {s : State} {i : Instr} {w : Seat} {r : Result} (hi : s.issuing i = some w) (hr : w.crossed i = some r) :
    w.EndsInWrite i (exec i s) := by
  unfold Seat.crossed at hr
  split at hr
  case h_1 op v =>
    have hf := ((Freed.refl w.fr).freeReg v.la v.a).freeReg v.lb v.b
    exact ⟨_, 32, v.d.toNat, _, false, by rw [hf.rest], by rw [hf.rest], by rw [hf.rest], by rw [hf.rest], runStrip_issuing hi _⟩
  case h_2 v =>
    exact ⟨w.fr, 32, v.d.toNat, _, false, rfl, rfl, rfl, rfl, runStrip_issuing hi _⟩
  case h_3 => cases hr

theorem hasResult_ends {s : State} {i : Instr} {w : Seat} (hi : s.issuing i = some w) (hr : w.hasResult i = true) :
    w.EndsInWrite i (exec i s) := by
  simp only [Seat.hasResult, Bool.or_eq_true, Option.isSome_iff_exists] at hr
  rcases hr with ((((⟨r, hr⟩ | ⟨r, hr⟩) | ⟨r, hr⟩) | ⟨r, hr⟩) | ⟨r, hr⟩) | ⟨f, hf⟩
  · obtain ⟨v, d, hv, -⟩ := arithmetic_computes hi hr
    exact hv.ends
  · obtain ⟨v, d, hv, -⟩ := logic_computes hi hr
    exact hv.ends
  · obtain ⟨v, d, hv, -⟩ := immediate_computes hi hr
    exact hv.ends
  · obtain ⟨v, d, plain, hv⟩ := moves_writes hi hr
    exact hv.ends
  · exact crossed_ends hi hr
  · exact (float_rounds hi hf).ends

/-- CVT stops where its element or its registers do not fit, and at a code that selects no entry for it. -/
theorem cvtBody_misfit {fn : BitVec 3} {v : W3} {fr : Frame}
    (h : cvtFits (fr.width v.b.toNat) (fr.width (fmtOf v.x)) fn v = false) : cvtBody fn v fr = .error (.trap 0x08) := by
  simp only [cvtBody, h]
  rfl

section
variable {s : State} {i : Instr} {w : Seat} (h : SeatFacts s i w) (hr : w.l.hdr.regs ≠ 0)
include h hr

theorem cvtBody_noEntry {fn : BitVec 3} {v : W3} (hfits : cvtFits (w.fr.width v.b.toNat) (w.fr.width (fmtOf v.x)) fn v = true)
    (hn : w.plainEntry v.b.toNat = none ∨ w.plainEntry (fmtOf v.x) = none) : cvtBody fn v w.fr = .error (.trap 0x0A) := by
  simp only [cvtBody, hfits, lineFor_ok h hr, plainEntry_eq h, if_true, ok_bind]
  cases he : w.plainEntry v.b.toNat with
  | none => rfl
  | some e =>
    rw [hn.resolve_left (by simp [he])]
    rfl

theorem vdotBody_noEntry {v : W3} (hn : w.plainEntry (fmtOf v.x) = none ∨ ∃ e, w.plainEntry (fmtOf v.x) = some e ∧
    (Ent.of e).wid ≠ 4 ∧ (Ent.of e).wid ≠ 8 ∧ (Ent.of e).wid ≠ 16) : vdotBody v w.fr = .error (.trap 0x0A) := by
  simp only [vdotBody, lineFor_ok h hr, plainEntry_eq h, ok_bind]
  rcases hn with hn | ⟨e, he, hwid⟩
  · rw [hn]
    rfl
  · rw [he]
    exact if_pos hwid

end

/-- Settles O3: a result in a part of the strip needs a line, and a format code an entry of its word's kind. -/
theorem registerWordTraps : Obligations.RegisterWordTraps := by
  unfold Obligations.RegisterWordTraps
  refine ⟨fun s i w hi hres hr hp hw hh => ?_, fun s w fn v hi hp hh hfits => ?_, fun s i w hi hr hp hh hcase => ?_⟩
  · have h := seat_facts hi
    obtain ⟨-, -, hpriv⟩ := seat_based h
    have hlines : w.fr.noLines = true := by
      obtain ⟨gd, hgd⟩ := h.gd
      rw [hgd]
      simp [stripFrame, hr]
    obtain ⟨fr1, wd, n, v, plain, hp1, hs1, hw1, hl1, hout⟩ := hasResult_ends hi hres
    rw [hout]
    exact congrArg _ (trapped_of_stop h hp hh
      (dstAs_noLines wd n v plain (hp1.trans (hpriv.trans hp)) (hs1.trans (seat_span h)) (hw1.trans hw) (hl1.trans hlines)))
  · show execCvt fn v s = _
    rw [execCvt, runAlu_issuing hi]
    exact congrArg _ (trapped_of_stop (seat_facts hi) hp hh (cvtBody_misfit hfits))
  · rcases hcase with ⟨fn, v, rfl, hfits, hn⟩ | ⟨v, rfl, hn⟩
    · show execCvt fn v s = _
      rw [execCvt, runAlu_issuing hi]
      exact congrArg _ (trapped_of_stop (seat_facts hi) hp hh (cvtBody_noEntry (seat_facts hi) hr hfits hn))
    · show execVdot v s = _
      rw [execVdot, runAlu_issuing hi]
      exact congrArg _ (trapped_of_stop (seat_facts hi) hp hh (vdotBody_noEntry (seat_facts hi) hr hn))

end Sys2Proof.Machine
end

section
/-! Words that only free registers in their frame, and the random numbers (R59, R358, R359). -/

namespace Sys2Proof.Machine

section
variable {s : State} {i : Instr} {w : Seat} (h : SeatFacts s i w)
include h

/-- What a word that only frees registers in its frame has made of its strip. -/
theorem keeps_of_freed {fr0 fr1 : Frame} {ns : List Nat} (hb : Based w fr0) (hf : Freed fr0 fr1 ns) :
    Keeps w (w.t.withFrame fr1) [] ns ∧
      w.t.withFrame fr1 = { w.onlyRegs (w.t.withFrame fr1) with fpstat := fr0.fpstat, gens := fr0.gens } := by
  obtain ⟨gd, hgd⟩ := h.gd
  have hfr0 : fr0 = { stripFrame w.g w.t w.l.hdr w.x.fmtTable gd (viewFor (w.g.coord w.l.hdr w.t.idx) w.t s.tick (w.form i) i)
      with fpstat := fr0.fpstat, gens := fr0.gens } := by rw [hb.rest, hgd]
  have hfreeing : fr0.freeing = w.fr.freeing := by rw [hb.rest]
  have hlocks : fr0.locks = w.t.locks := by rw [hfr0]; rfl
  have hregs : fr0.regs = w.t.regs := by rw [hfr0]; rfl
  have hkregs : fr1.kregs = w.t.kregs := by rw [hf.rest, hfr0]; rfl
  have hpending : fr0.outstanding = w.t.outstanding := by rw [hfr0]; rfl
  refine ⟨⟨fun n hn _ => ?_, fun n _ _ => ?_, fun n hn _ hnf => ?_⟩, ?_⟩
  · show vget fr1.regs n _ = _
    rw [hf.vregs n hn, hfreeing, hlocks, hregs]
    rfl
  · exact congrArg (vget · n _) hkregs
  · show landingParts fr1.outstanding n = landingParts w.t.outstanding n
    rw [hf.pending n hn (by rw [hfreeing, hlocks]; exact hnf), hpending]
  · have hpreds : fr1.preds = w.t.preds := by rw [hf.rest, hfr0]; rfl
    have hmode : fr1.mode = w.t.mode := by rw [hf.rest, hfr0]; rfl
    have hfmt : fr1.fmt = w.t.fmt := by rw [hf.rest, hfr0]; rfl
    have hfp : fr1.fpstat = fr0.fpstat := by rw [hf.rest]
    have hgens : fr1.gens = fr0.gens := by rw [hf.rest]
    simp only [Strip.withFrame, Seat.onlyRegs, hmode, hfmt, hfp, hgens]

/-- A word that frees registers of its frame, and then changes its strip outside the registers. -/
theorem sets_of_freed {out : Out} {u : State} {fr1 : Frame} {ns : List Nat} {f : Strip → Strip} (hf : Freed w.fr fr1 ns)
    (hout : out = .next (w.passed i u (f (w.t.withFrame fr1)))) : w.sets i out u ns f := by
  obtain ⟨hkeeps, hrest⟩ := keeps_of_freed h (Based.refl w) hf
  obtain ⟨hfp, hgens, -⟩ := seat_based h
  rw [hfp, hgens] at hrest
  exact ⟨_, hout, hrest, hkeeps⟩

end

/-! RNGSEED and RNG. -/

theorem rngseed_sets {s : State} {w : Seat} {n : BitVec 2} {v : W3} {key ctr : DWord}
    (hi : s.issuing (.rngseed n v) = some w) (hkey : w.fr.pair v.a.toNat = .u key) (hctr : w.fr.pair v.b.toNat = .u ctr) :
    w.sets (.rngseed n v) (exec (.rngseed n v) s) w.s (w.lastRead v.la v.a 2 ++ w.lastRead v.lb v.b 2)
      fun t => { t with gens := vset t.gens n.toNat (Gen.mk key (ctr.setWidth 128)) } := by
  have h := seat_facts hi
  obtain ⟨hfp, hgens, -⟩ := seat_based h
  let fr0 : Frame := { w.fr with gens := vset w.fr.gens n.toNat (Gen.mk key (ctr.setWidth 128)) }
  have ha : v.a.toNat % 2 = 0 := src_even h (wd := 64) (by simp [Seat.form, formOf, regsOf]) rfl
  have hb : v.b.toNat % 2 = 0 := src_even h (wd := 64) (by simp [Seat.form, formOf, regsOf]) rfl
  have hfree := ((Freed.refl fr0).free v.la 64 v.a.toNat v.a.isLt fun _ => ha).free v.lb 64 v.b.toNat v.b.isLt fun _ => hb
  have hreads : fr0.lastRead v.la 64 v.a.toNat = w.fr.lastRead v.la 64 v.a.toNat ∧
      fr0.lastRead v.lb 64 v.b.toNat = w.fr.lastRead v.lb 64 v.b.toNat := ⟨rfl, rfl⟩
  rw [hreads.1, hreads.2, lastRead_eq, lastRead_eq] at hfree
  obtain ⟨hkeeps, hrest⟩ := keeps_of_freed h (fr0 := fr0) ⟨rfl⟩ hfree
  generalize hfr1 : (fr0.free v.la 64 v.a.toNat).free v.lb 64 v.b.toNat = fr1 at *
  refine ⟨{ w.t.withFrame fr1 with gens := w.t.gens }, ?_, ?_, hkeeps.vregs, hkeeps.kregs, hkeeps.pending⟩
  · have hout : exec (.rngseed n v) s = .next (w.passed (.rngseed n v) w.s (w.t.withFrame fr1)) := by
      show execRngseed n v s = _
      rw [execRngseed, runStrip_issuing hi, rngseedBody, hkey, hctr, ← withFrame_pass h, ← hfr1]
      rfl
    have hset : (w.t.withFrame fr1).gens = vset w.t.gens n.toNat (Gen.mk key (ctr.setWidth 128)) := by
      rw [hrest, ← hgens]
    refine hout.trans (congrArg (fun t => Host.Outcome.next (w.passed _ w.s t)) ?_)
    show _ = { w.t.withFrame fr1 with gens := vset w.t.gens n.toNat (Gen.mk key (ctr.setWidth 128)) }
    rw [← hset]
  · have hfp0 : fr0.fpstat = w.t.fpstat := hfp
    rw [hrest, hfp0]
    rfl

theorem rng_gives {s : State} {w : Seat} {fn : BitVec 3} {v : WNoLa} (hi : s.issuing (.rng fn v) = some w)
    (hr : w.l.hdr.regs ≠ 0) :
    let g := vget w.t.gens v.a.toNat (Gen.mk 0 0)
    ∃ t, exec (.rng fn v) s = .next (w.passed (.rng fn v) w.s t) ∧
      t = { w.onlyRegs t with gens := vset w.t.gens v.a.toNat (g.advance (if fn.toNat ≤ 1 then 32 else 64)) } ∧
      Writes w ⟨32, w.slot v.d, rngLane fn.toNat g, []⟩ t := by
  have h := seat_facts hi
  intro g
  obtain ⟨hfp, hgens, -⟩ := seat_based h
  let fr0 : Frame := { w.fr with gens := vset w.t.gens v.a.toNat (g.advance (if fn.toNat ≤ 1 then 32 else 64)) }
  obtain ⟨fr2, hok, hw⟩ := dst_writes (fr := fr0) 32 (.l (rngLane fn.toNat g)) (.inl rfl) (seat_span h) (seat_noLines h hr)
    v.d.isLt nofun
  obtain ⟨hwrites, hrest⟩ := writes_of h (fr0 := fr0) ⟨rfl⟩ (Freed.refl fr0) hw (.inl rfl) (slot_lt w v.d) nofun
  refine ⟨w.t.withFrame fr2, ?_, ?_, hwrites⟩
  · show execRng fn v s = _
    rw [execRng, runStrip_issuing hi, ← withFrame_pass h, ← hok, rngBody, hgens]
    rfl
  · have hfp0 : fr0.fpstat = w.t.fpstat := hfp
    rw [hrest, hfp0]
    rfl

/-- Settles O8: a generator's words are Philox's own, and RNG advances the generator that it draws from. -/
theorem randomNumbers : Obligations.RandomNumbers := by
  unfold Obligations.RandomNumbers
  refine ⟨fun s w n v key ctr hi hkey hctr => rngseed_sets hi hkey hctr, fun s w fn v hi hr => ?_⟩
  obtain ⟨t, hout, ht, hw⟩ := rng_gives hi hr
  have hfn : fn.toNat < 3 := by
    have := (legal_parts (seat_facts hi).legal).1
    simp only [Seat.form, formOf, Bool.and_eq_true, decide_eq_true_eq] at this
    exact this.2
  have hcase : ∀ fn : BitVec 3, fn.toNat < 3 → fn = 0 ∨ fn = 1 ∨ fn = 2 := by decide
  refine ⟨t, hout, ?_, ?_⟩
  · rcases hcase fn hfn with rfl | rfl | rfl <;> exact ht
  · convert hw using 2
    funext l
    rcases hcase fn hfn with rfl | rfl | rfl <;> rfl

end Sys2Proof.Machine
end

section
/-! SETSR of the page-table root (R242, R361). A state may hold two contexts of one number, whose roots differ. -/

namespace Sys2Proof.Machine

/-- A machine in which strip 0 of gang 1 has the turn in supervisor mode, and two contexts have the number 0: the root of the
first is 0, that of the second the given one. -/
def rootMachine (root : DWord) : State :=
  let s := place State.reset 32 0
  { s with
    cur := .strip 1 0
    schedule := []
    ctxs := s.ctxs ++ s.ctxs.map fun x => { x with root := root }
    gangs := s.gangs.map fun g => { g with strips := g.strips.map fun t => { t with priv := true } } }

/-- The SETSR that commits v0 as the high half of the root. -/
def commit : Instr := .setsr (W2.mk false 0x1E 0 false none)

def splitRoots : State := rootMachine 1

theorem splitRoots_issues : (splitRoots.issuing commit).isSome = true := by decide

/-- The seat in which the strip issues it. -/
def rootSeat : Seat := (splitRoots.issuing commit).get splitRoots_issues

theorem splitRoots_issuing : splitRoots.issuing commit = some rootSeat := (Option.some_get _).symm

/-- SETSR takes the low half from the first context's root, and writes it into both. -/
theorem exec_commit : ∃ u, exec commit splitRoots = .next u ∧ (u.ctxs.map (·.root)).dedup.length = 1 := ⟨_, rfl, by decide⟩

/-- Refutes O24: where no low half is staged, the second context of the strip's number keeps the low half of its own root by
the statement, and gets the first one's by the model. -/
theorem not_setSpecial : ¬ Obligations.SetSpecial := by
  unfold Obligations.SetSpecial
  intro h
  have hsrc : rootSeat.fr.src 32 0 = .u 0 := by rfl
  obtain ⟨t, hout, -, -⟩ := h splitRoots rootSeat _ 0 _ _ splitRoots_issuing hsrc
    (.inr <| .inr <| .inr <| .inr <| .inr <| .inl ⟨rfl, rfl, rfl⟩)
  obtain ⟨u, hu, hroots⟩ := exec_commit
  cases hu.symm.trans hout
  have hctxs : (((rootSeat.s.mapCtx rootSeat.g.ctx fun x =>
    { x with root := (0 : Word) ++ rootSeat.t.staged.getD (x.root.extractLsb' 0 32) }).ctxs.map (·.root)).dedup.length) = 1 :=
    hroots
  exact absurd hctxs (by decide)

end Sys2Proof.Machine
end

section
/-! Counting values of an arithmetic progression modulo m: Euclid's sum of quotients (R48). -/

namespace Sys2Proof.Machine

/-- The sum of the quotients (a·i + b) / m over i below n. -/
def quotients (n m a b : Nat) : Nat := ∑ i ∈ Finset.range n, (a * i + b) / m

/-- Whole multiples of m in a and b come out of the sum. -/
theorem quotients_reduce {m : Nat} (hm : 0 < m) (n a b : Nat) :
    quotients n m a b = n * (n - 1) / 2 * (a / m) + n * (b / m) + quotients n m (a % m) (b % m) := by
  have hterm (i : Nat) : (a * i + b) / m = i * (a / m) + b / m + (a % m * i + b % m) / m := by
    have ha := Nat.div_add_mod a m
    have hb := Nat.div_add_mod b m
    have : a * i + b = (a % m * i + b % m) + m * (i * (a / m) + b / m) := by
      calc a * i + b = (m * (a / m) + a % m) * i + (m * (b / m) + b % m) := by rw [ha, hb]
        _ = _ := by ring
    rw [this, Nat.add_mul_div_left _ _ hm]
    omega
  simp only [quotients, hterm, Finset.sum_add_distrib, Finset.sum_const, Finset.card_range, smul_eq_mul, ← Finset.sum_mul,
    Finset.sum_range_id]

theorem div_eq_sum {m x q : Nat} (hm : 0 < m) (hq : x / m ≤ q) :
    x / m = ∑ j ∈ Finset.range q, if (j + 1) * m ≤ x then 1 else 0 := by
  have hset : Finset.filter (fun j => (j + 1) * m ≤ x) (Finset.range q) = Finset.range (x / m) := by
    ext j
    simp only [Finset.mem_filter, Finset.mem_range, ← Nat.le_div_iff_mul_le hm]
    omega
  rw [Finset.sum_boole, hset, Finset.card_range]
  rfl

/-- The pairs (i, j) under a line, counted by columns and by rows. -/
theorem quotients_swap {n m a b : Nat} (ha : 0 < a) (hb : b < m) :
    quotients n m a b = quotients ((a * n + b) / m) a m ((a * n + b) % m) := by
  have hm : 0 < m := by omega
  set q := (a * n + b) / m with hq
  set r := (a * n + b) % m with hr
  have htop : a * n + b = m * q + r := (Nat.div_add_mod ..).symm
  have hcol (i : Nat) (hi : i ∈ Finset.range n) : (a * i + b) / m =
      ∑ j ∈ Finset.range q, if (j + 1) * m ≤ a * i + b then 1 else 0 := by
    refine div_eq_sum hm (Nat.div_le_div_right (Nat.add_le_add_right (Nat.mul_le_mul_left a ?_) b))
    exact (Finset.mem_range.mp hi).le
  have hrow (j : Nat) (hj : j ∈ Finset.range q) : (m * j + r) / a =
      ∑ i ∈ Finset.range n, if (i + 1) * a ≤ m * j + r then 1 else 0 := by
    refine div_eq_sum ha (Nat.div_le_of_le_mul ?_)
    have : m * (j + 1) ≤ m * q := Nat.mul_le_mul_left m (Finset.mem_range.mp hj)
    rw [Nat.mul_succ] at this
    omega
  unfold quotients
  rw [Finset.sum_congr rfl hcol, Finset.sum_congr rfl hrow, ← Finset.sum_range_reflect, Finset.sum_comm,
    ← Finset.sum_range_reflect]
  refine Finset.sum_congr rfl fun j hj => Finset.sum_congr rfl fun i hi => if_congr ?_ rfl rfl
  obtain ⟨j', hj'⟩ : ∃ j', j + j' + 1 = q := ⟨q - 1 - j, by have := Finset.mem_range.mp hj; omega⟩
  obtain ⟨i', hi'⟩ : ∃ i', i + i' + 1 = n := ⟨n - 1 - i, by have := Finset.mem_range.mp hi; omega⟩
  rw [show q - 1 - j = j' by omega, show n - 1 - i = i' by omega]
  have hn : a * n = a * i' + (i + 1) * a := by rw [← hi']; ring
  have hqm : m * q = m * j + (j' + 1) * m := by rw [← hj']; ring
  omega

theorem quotients_zero {n m a b : Nat} (htop : a * n + b < m) : quotients n m a b = 0 := by
  refine Finset.sum_eq_zero fun i hi => Nat.div_eq_of_lt (lt_of_le_of_lt ?_ htop)
  exact Nat.add_le_add_right (Nat.mul_le_mul_left a (Finset.mem_range.mp hi).le) b

/-- One step of Euclid's algorithm, where the rest is right. -/
theorem floorSum_step {fuel n m a b : Nat} (hm : 0 < m)
    (hrest : ∀ n b, 0 < a % m → floorSum fuel n (a % m) m b = quotients n (a % m) m b) :
    floorSum (fuel + 1) n m a b = quotients n m a b := by
  rw [quotients_reduce hm]
  simp only [floorSum]
  split
  case isTrue hn => simp [hn, quotients]
  case isFalse =>
    split
    case isTrue htop => rw [quotients_zero htop, Nat.add_zero]
    case isFalse htop =>
      have ha : 0 < a % m := by
        by_contra h0
        have hb := Nat.mod_lt b hm
        simp only [show a % m = 0 by omega, Nat.zero_mul] at htop
        omega
      rw [hrest _ _ ha, ← quotients_swap ha (Nat.mod_lt b hm)]

/-- Two steps halve the modulus, so twice its bits are fuel enough. -/
theorem floorSum_eq {k : Nat} : ∀ {fuel n m a b : Nat}, 0 < m → m < 2 ^ k → 2 * k ≤ fuel →
    floorSum fuel n m a b = quotients n m a b := by
  induction k with
  | zero => intro fuel n m a b hm hk; omega
  | succ k ih =>
    intro fuel n m a b hm hk hfuel
    obtain ⟨f, rfl⟩ : ∃ f, fuel = f + 1 + 1 := ⟨fuel - 2, by omega⟩
    refine floorSum_step hm fun n b ha => floorSum_step ha fun n b hr => ih hr ?_ (by omega)
    have hlt := Nat.mod_lt a hm
    have hlt' := Nat.mod_lt m ha
    have hdiv := Nat.div_add_mod m (a % m)
    have hone : 1 ≤ m / (a % m) := (Nat.one_le_div_iff ha).mpr hlt.le
    have : a % m * 1 ≤ a % m * (m / (a % m)) := Nat.mul_le_mul_left _ hone
    rw [Nat.pow_succ] at hk
    omega

/-! Values in an arc of the cycle of m values. -/

/-- The number of i below n for which p holds. -/
def countIf (n : Nat) (p : Nat → Bool) : Nat := (List.range n).countP p

theorem countIf_succ (n : Nat) (p : Nat → Bool) : countIf (n + 1) p = countIf n p + if p n then 1 else 0 := by
  simp [countIf, List.range_succ, List.countP_cons]

theorem countIf_congr {n : Nat} {p q : Nat → Bool} (h : ∀ i < n, p i = q i) : countIf n p = countIf n q :=
  List.countP_congr fun i hi => by rw [h i (List.mem_range.mp hi)]

theorem countBelow_eq (n a b : Nat) {len : Nat} (hlen : len ≤ 2 ^ 32) :
    countBelow n (2 ^ 32) a b len = countIf n fun i => decide ((a * i + b) % 2 ^ 32 < len) := by
  have hm : 0 < 2 ^ 32 := by norm_num
  have hsum : quotients n (2 ^ 32) a b + n = quotients n (2 ^ 32) a (b + 2 ^ 32 - len) +
      countIf n fun i => decide ((a * i + b) % 2 ^ 32 < len) := by
    induction n with
    | zero => simp [quotients, countIf]
    | succ n ih =>
      have hterm : (a * n + b) / 2 ^ 32 + 1 = (a * n + (b + 2 ^ 32 - len)) / 2 ^ 32 +
          if decide ((a * n + b) % 2 ^ 32 < len) then 1 else 0 := by
        generalize a * n = x
        simp only [decide_eq_true_eq]
        split <;> omega
      rw [countIf_succ]
      simp only [quotients, Finset.sum_range_succ] at ih ⊢
      omega
  rw [countBelow, floorSum_eq (k := 33) hm (by norm_num) (by norm_num), floorSum_eq (k := 33) hm (by norm_num) (by norm_num)]
  omega

/-- The value of index i in an arc of values, that starts at base and goes on by st. -/
def Arc.holdsAt (v : Arc) (base st i : Nat) : Bool := arcHas v (base + st * i)

theorem arcHas_mod (v : Arc) (hlo : v.lo < 2 ^ 32) (x : Nat) : arcHas v (x % 2 ^ 32) = arcHas v x := by
  have : (x % 2 ^ 32 + 2 ^ 32 - v.lo) % 2 ^ 32 = (x + 2 ^ 32 - v.lo) % 2 ^ 32 := by omega
  simp only [arcHas, this]

theorem arcCount_eq {v : Arc} (hlo : v.lo < 2 ^ 32) (hlen : v.len ≤ 2 ^ 32) (base st n : Nat) :
    arcCount v base st n = countIf n (v.holdsAt base st) := by
  rw [arcCount, countBelow_eq _ _ _ hlen]
  refine countIf_congr fun i _ => ?_
  have : (st * i + (base + 2 ^ 32 - v.lo) % 2 ^ 32) % 2 ^ 32 = (base + st * i + 2 ^ 32 - v.lo) % 2 ^ 32 := by omega
  simp only [Arc.holdsAt, arcHas, this]

theorem countIf_sub {n : Nat} {p q : Nat → Bool} (h : ∀ i < n, q i = true → p i = true) :
    countIf n p - countIf n q = countIf n fun i => p i && !q i := by
  have hadd : countIf n p = countIf n q + countIf n fun i => p i && !q i := by
    induction n with
    | zero => rfl
    | succ n ih =>
      have := ih fun i hi => h i (by omega)
      have hn := h n (by omega)
      rw [countIf_succ, countIf_succ, countIf_succ]
      cases hp : p n <;> cases hq : q n <;> simp_all <;> omega
  omega

theorem countIf_false (n : Nat) : countIf n (fun _ => false) = 0 := by simp [countIf]

/-- The indices whose value lies in the arc while the next one's does not. -/
theorem fallsOut_eq {v : Arc} (hlo : v.lo < 2 ^ 32) (hlen : v.len ≤ 2 ^ 32) (base st n : Nat) :
    fallsOut v base st n = countIf n fun i => v.holdsAt base st i && !v.holdsAt base st (i + 1) := by
  obtain ⟨lo, len⟩ := v
  simp only at hlo hlen
  have hlt : st % 2 ^ 32 < 2 ^ 32 := Nat.mod_lt _ (by norm_num)
  generalize hst : st % 2 ^ 32 = d at hlt
  generalize hb : (base + 2 ^ 32 - lo) % 2 ^ 32 = b
  have hmul (i : Nat) : st * i % 2 ^ 32 = d * i % 2 ^ 32 := by rw [← hst, Nat.mod_mul_mod]
  have hat (i : Nat) : (Arc.mk lo len).holdsAt base st i = decide ((d * i + b) % 2 ^ 32 < len) := by
    have := hmul i
    have : (base + st * i + 2 ^ 32 - lo) % 2 ^ 32 = (d * i + b) % 2 ^ 32 := by omega
    simp only [Arc.holdsAt, arcHas, this]
  have hnext (i : Nat) : (Arc.mk lo len).holdsAt base st (i + 1) = decide (((d * i + b) % 2 ^ 32 + d) % 2 ^ 32 < len) := by
    have : (d * (i + 1) + b) % 2 ^ 32 = ((d * i + b) % 2 ^ 32 + d) % 2 ^ 32 := by rw [Nat.mul_succ]; omega
    rw [hat, this]
  simp only [fallsOut, hst, hb, hnext, hat]
  by_cases hd : d = 0
  · subst hd
    simp only [if_true, Nat.sub_self]
    refine (countIf_false n).symm.trans (countIf_congr fun i _ => ?_)
    simp
  · simp only [if_neg hd]
    have hlow : (if d < len then len - d else 0) ≤ 2 ^ 32 := by split <;> omega
    have hhigh : (if 2 ^ 32 - d < len then len - (2 ^ 32 - d) else 0) ≤ 2 ^ 32 := by split <;> omega
    rw [countBelow_eq _ _ _ hlen, countBelow_eq _ _ _ hlow, countBelow_eq _ _ _ hhigh, countIf_sub, countIf_sub]
    · refine countIf_congr fun i _ => ?_
      generalize d * i = x
      rw [Bool.eq_iff_iff]
      simp only [Bool.and_eq_true, Bool.not_eq_true', decide_eq_true_eq, decide_eq_false_iff_not]
      split <;> split <;> omega
    · intro i _ h
      generalize d * i = x at h ⊢
      simp only [Bool.and_eq_true, Bool.not_eq_true', decide_eq_true_eq, decide_eq_false_iff_not] at h ⊢
      split at h
      · split <;> omega
      · omega
    · intro i _ h
      generalize d * i = x at h ⊢
      simp only [decide_eq_true_eq] at h ⊢
      split at h <;> omega

end Sys2Proof.Machine
end

section
/-! The true set of an ordered comparison of an affine value with a U one, where it is one interval (R48). -/

namespace Sys2Proof.Machine

theorem countIf_eq_card (n : Nat) (p : Nat → Bool) : countIf n p = ((Finset.range n).filter fun i => p i = true).card := by
  induction n with
  | zero => rfl
  | succ n ih =>
    rw [countIf_succ, ih, Finset.range_add_one, Finset.filter_insert]
    split
    · rw [Finset.card_insert_of_notMem (by simp)]
    · rfl

theorem countIf_pos {n i : Nat} {p : Nat → Bool} (hi : i < n) (hp : p i = true) : 0 < countIf n p := by
  rw [countIf_eq_card, Finset.card_pos]
  exact ⟨i, by simp [hi, hp]⟩

theorem one_lt_countIf {n i j : Nat} {p : Nat → Bool} (hij : i < j) (hj : j < n) (hpi : p i = true) (hpj : p j = true) :
    1 < countIf n p := by
  rw [countIf_eq_card, Finset.one_lt_card]
  exact ⟨i, by simp [hpi]; omega, j, by simp [hj, hpj], by omega⟩

/-- Between an index in the set and a later one outside it the set falls. -/
theorem exists_fall {p : Nat → Bool} {i j : Nat} (hij : i ≤ j) (hi : p i = true) (hj : p j = false) :
    ∃ k, i ≤ k ∧ k < j ∧ (p k && !p (k + 1)) = true := by
  induction j, hij using Nat.le_induction with
  | base => rw [hi] at hj; cases hj
  | succ j hij ih =>
    cases hpj : p j with
    | true => exact ⟨j, hij, by omega, by simp [hpj, hj]⟩
    | false =>
      obtain ⟨k, hk, hkj, hf⟩ := ih hpj
      exact ⟨k, hk, by omega, hf⟩

/-- How often a set ends below n: where it falls, and at n itself. -/
def runsOf (n : Nat) (p : Nat → Bool) : Nat := (countIf (n - 1) fun i => p i && !p (i + 1)) + if p (n - 1) then 1 else 0

/-- A set that ends once is an interval. -/
theorem convex_of_runs {n : Nat} {p : Nat → Bool} (hruns : runsOf n p = 1) {i j k : Nat} (hij : i ≤ j) (hjk : j ≤ k)
    (hk : k < n) (hi : p i = true) (hpk : p k = true) : p j = true := by
  by_contra hj
  rw [Bool.not_eq_true] at hj
  obtain ⟨f, hf, hfj, hfall⟩ := exists_fall hij hi hj
  unfold runsOf at hruns
  cases hlast : p (n - 1) with
  | true =>
    have := countIf_pos (n := n - 1) (p := fun i => p i && !p (i + 1)) (i := f) (by omega) hfall
    rw [hlast, if_pos rfl] at hruns
    omega
  | false =>
    obtain ⟨f', hf', hfn, hfall'⟩ := exists_fall (show k ≤ n - 1 by omega) hpk hlast
    have := one_lt_countIf (n := n - 1) (p := fun i => p i && !p (i + 1)) (show f < f' by omega) (by omega) hfall hfall'
    rw [hlast] at hruns
    simp only [Bool.false_eq_true, if_false] at hruns
    omega

theorem interval_of_runs {n : Nat} {p : Nat → Bool} (hruns : runsOf n p = 1) (hpos : countIf n p ≠ 0) :
    ∃ lo hi, lo < hi ∧ hi ≤ n ∧ countIf n p = hi - lo ∧ ∀ i < n, p i = true ↔ lo ≤ i ∧ i < hi := by
  rw [countIf_eq_card] at hpos ⊢
  set S := (Finset.range n).filter fun i => p i = true with hS
  have hne : S.Nonempty := Finset.card_pos.mp (by omega)
  have hmem (i : Nat) : i ∈ S ↔ i < n ∧ p i = true := by simp [hS]
  obtain ⟨hminN, hminP⟩ := (hmem _).mp (S.min'_mem hne)
  obtain ⟨hmaxN, hmaxP⟩ := (hmem _).mp (S.max'_mem hne)
  have hset : S = Finset.Ico (S.min' hne) (S.max' hne + 1) := by
    ext i
    rw [Finset.mem_Ico]
    refine ⟨fun hi => ⟨S.min'_le i hi, Nat.lt_succ_of_le (S.le_max' i hi)⟩, fun ⟨hlo, hhi⟩ => ?_⟩
    exact (hmem i).mpr ⟨by omega, convex_of_runs hruns hlo (Nat.le_of_lt_succ hhi) hmaxN hminP hmaxP⟩
  have hle := S.min'_le _ (S.max'_mem hne)
  refine ⟨S.min' hne, S.max' hne + 1, by omega, by omega, ?_, fun i hi => ?_⟩
  · conv_lhs => rw [hset]
    exact Nat.card_Ico ..
  · rw [← Finset.mem_Ico, ← hset, hmem]
    simp [hi]

/-- The search by halving: from an empty beginning and one that is not, the last empty one. -/
theorem firstIn_spec {v : Arc} (hlo : v.lo < 2 ^ 32) (hlen : v.len ≤ 2 ^ 32) (base st : Nat) {fuel : Nat} :
    ∀ {a b : Nat}, a < b → b - a ≤ 2 ^ fuel → countIf a (v.holdsAt base st) = 0 → countIf b (v.holdsAt base st) ≠ 0 →
      let r := firstIn v base st fuel a b
      countIf r (v.holdsAt base st) = 0 ∧ countIf (r + 1) (v.holdsAt base st) ≠ 0 ∧ r < b := by
  induction fuel with
  | zero =>
    intro a b hab hfuel ha hb
    obtain rfl : b = a + 1 := by omega
    exact ⟨ha, hb, hab⟩
  | succ fuel ih =>
    intro a b hab hfuel ha hb
    simp only [firstIn]
    rw [Nat.pow_succ] at hfuel
    split
    case isTrue h1 =>
      obtain rfl : b = a + 1 := by omega
      exact ⟨ha, hb, hab⟩
    case isFalse h1 =>
      rw [arcCount_eq hlo hlen]
      split
      case isTrue hmid => exact ih (by omega) (by omega) hmid hb
      case isFalse hmid =>
        obtain ⟨h0, h1, h2⟩ := ih (a := a) (b := (a + b) / 2) (by omega) (by omega) ha hmid
        exact ⟨h0, h1, by omega⟩

theorem of_countIf_zero {n : Nat} {p : Nat → Bool} (h : countIf n p = 0) {i : Nat} (hi : i < n) : p i = false := by
  by_contra hp
  have := countIf_pos hi (by simpa using hp)
  omega

theorem of_countIf_self {n : Nat} {p : Nat → Bool} (h : countIf n p = n) {i : Nat} (hi : i < n) : p i = true :=
  (List.countP_eq_length.mp (h.trans (List.length_range).symm)) i (List.mem_range.mpr hi)

/-- R48: the interval that intervalOf gives is the set of the indices whose value lies in the arc. -/
theorem intervalOf_spec {v : Arc} (hlo : v.lo < 2 ^ 32) (hlen : v.len ≤ 2 ^ 32) {base st o n lo hi : Nat} (hn : n ≤ 2 ^ 32)
    (h : intervalOf v base st o n = some (lo, hi)) {i : Nat} (hi' : i < n) :
    (lo ≤ o + i ∧ o + i < hi) ↔ arcHas v (base + st * (o + i)) = true := by
  have hbase : arcHas v (base + st * (o + i)) = v.holdsAt ((base + st * o) % 2 ^ 32) st i := by
    rw [Arc.holdsAt, ← arcHas_mod v hlo, ← arcHas_mod v hlo ((base + st * o) % 2 ^ 32 + st * i), Nat.mul_add, ← Nat.add_assoc,
      Nat.mod_add_mod]
  rw [hbase]
  simp only [intervalOf, arcCount_eq hlo hlen, fallsOut_eq hlo hlen] at h
  generalize (base + st * o) % 2 ^ 32 = b at h ⊢
  set p := v.holdsAt b st with hp
  have hlast : arcHas v (b + st * (n - 1) % 2 ^ 32) = p (n - 1) := by
    rw [← arcHas_mod v hlo, Nat.add_mod_mod, arcHas_mod v hlo, hp, Arc.holdsAt]
  have hfirst : arcHas v b = p 0 := by rw [hp, Arc.holdsAt, Nat.mul_zero, Nat.add_zero]
  have hruns : ((countIf (n - 1) fun i => p i && !p (i + 1)) + if p (n - 1) = true then 1 else 0) = runsOf n p := rfl
  rw [hlast, hfirst, hruns] at h
  split at h
  case isTrue h0 =>
    cases h
    simp [of_countIf_zero h0 hi']
  case isFalse h0 =>
    split at h
    case isTrue hall =>
      cases h
      simp [of_countIf_self hall hi', hi']
    case isFalse hall =>
      split at h
      case isTrue => cases h
      case isFalse hruns =>
        obtain ⟨a, c, hac, hcn, hcount, hmem⟩ := interval_of_runs (not_not.mp hruns) h0
        rw [hmem i hi']
        split at h
        case isTrue h1 =>
          obtain rfl : a = 0 := by have := (hmem 0 (by omega)).mp h1; omega
          cases h
          omega
        case isFalse h1 =>
          split at h
          case isTrue h2 =>
            obtain rfl : c = n := by have := (hmem (n - 1) (by omega)).mp h2; omega
            cases h
            omega
          case isFalse h2 =>
            cases h
            obtain ⟨hz, hs, hr⟩ := firstIn_spec hlo hlen b st (fuel := 40) (a := 0) (b := n) (by omega) (by omega) rfl h0
            generalize firstIn v b st 40 0 n = r at hz hs hr ⊢
            have hpr : p r = true := by
              by_contra hpr
              rw [← hp, countIf_succ, if_neg hpr] at hs
              exact hs hz
            have har := (hmem r hr).mp hpr
            have hra : ¬ a < r := fun har' => by
              have := of_countIf_zero hz har'
              rw [← hp, (hmem a (by omega)).mpr ⟨le_rfl, hac⟩] at this
              cases this
            omega

end Sys2Proof.Machine
end

section
/-! Integer and float comparisons (R332, R339, R48). -/

namespace Sys2Proof.Machine

/-! The truth of an integer comparison. -/

theorem low32_toNat (a : DWord) : (low32 a).toNat = (loOf a).toNat := by
  have := (loOf a).isLt
  rw [low32, BitVec.toNat_setWidth]
  omega

theorem cutTo_32_toNat (a : DWord) : (cutTo 32 a).toNat = (loOf a).toNat := low32_toNat a

/-- The numbers that a comparison of a width reads are those of the codes, cut to the width. -/
theorem icmp_eq (c : ICond) {wd : Nat} (hwd : wd = 32 ∨ wd = 64) (a b : DWord) : icmp c wd a b = compares c wd a b := by
  rw [Bool.eq_iff_iff]
  rcases hwd with rfl | rfl
  · cases c <;> simp [icmp, compares, readInt, BitVec.slt_iff_toInt_lt, BitVec.sle_iff_toInt_le, BitVec.ult, BitVec.ule,
      ← BitVec.toNat_inj, cutTo_32_toNat]
  · cases c <;> simp [icmp, compares, readInt, BitVec.slt_iff_toInt_lt, BitVec.sle_iff_toInt_le, BitVec.ult, BitVec.ule,
      ← BitVec.toNat_inj, cutTo]

/-- The ordered comparisons, for which there are range predicates. -/
def orderedCond : ICond → Bool
  | .eq | .ne => false
  | _ => true

/-- The arc of a comparison with u lies on the cycle of 32-bit values. -/
theorem arcOf_bounds (c : ICond) {u : Nat} (hu : u < 2 ^ 32) (left : Bool) :
    (arcOf c u left).lo < 2 ^ 32 ∧ (arcOf c u left).len ≤ 2 ^ 32 := by
  cases c <;> cases left <;> simp only [arcOf] <;> omega

theorem toInt_cases (x : Word) :
    (x.toNat < 2 ^ 31 ∧ x.toInt = x.toNat) ∨ (2 ^ 31 ≤ x.toNat ∧ x.toInt = x.toNat - 2 ^ 32) := by
  have := x.isLt
  rw [BitVec.toInt_eq_toNat_cond]
  split <;> omega

section
variable (a b : DWord)

theorem icmp_lt_32 : icmp .lt 32 a b = decide ((loOf a).toInt < (loOf b).toInt) := rfl
theorem icmp_le_32 : icmp .le 32 a b = decide ((loOf a).toInt ≤ (loOf b).toInt) := rfl
theorem icmp_gt_32 : icmp .gt 32 a b = decide ((loOf a).toInt > (loOf b).toInt) := rfl
theorem icmp_ge_32 : icmp .ge 32 a b = decide ((loOf a).toInt ≥ (loOf b).toInt) := rfl
theorem icmp_ltn_32 : icmp .ltn 32 a b = decide (((loOf a).toNat : Int) < (loOf b).toNat) := rfl
theorem icmp_gen_32 : icmp .gen 32 a b = decide (((loOf a).toNat : Int) ≥ (loOf b).toNat) := rfl

end

theorem arcHas_iff (v : Arc) (x : Nat) : arcHas v x = true ↔ (x + 2 ^ 32 - v.lo) % 2 ^ 32 < v.len := by
  rw [arcHas, decide_eq_true_eq]

/-- The values in the arc of a comparison are those that satisfy it. -/
theorem arcHas_arcOf {c : ICond} (hc : orderedCond c = true) (x u : DWord) (left : Bool) :
    arcHas (arcOf c (u.toNat % 2 ^ 32) left) (loOf x).toNat = if left then icmp c 32 x u else icmp c 32 u x := by
  have hx := (loOf x).isLt
  have hu := (loOf u).isLt
  rw [← loOf_toNat]
  have hxi := toInt_cases (loOf x)
  have hui := toInt_cases (loOf u)
  rw [Bool.eq_iff_iff, arcHas_iff]
  cases c with
  | eq | ne => cases hc
  | lt | le | gt | ge =>
    cases left <;>
      (dsimp only [arcOf]
       simp only [icmp_lt_32, icmp_le_32, icmp_gt_32, icmp_ge_32, decide_eq_true_eq, if_true, if_false, Bool.false_eq_true]
       generalize (loOf x).toInt = x', (loOf u).toInt = u', (loOf x).toNat = m, (loOf u).toNat = n at *
       omega)
  | ltn | gen =>
    cases left <;>
      (dsimp only [arcOf]
       simp only [icmp_ltn_32, icmp_gen_32, decide_eq_true_eq, if_true, if_false, Bool.false_eq_true]
       generalize (loOf x).toNat = m, (loOf u).toNat = n at *
       omega)

/-! Range predicates of affine values. -/

theorem loOf_eq_zero_of_low32 {x : DWord} (h : (low32 x != 0) = false) : loOf x = 0#32 := by
  have hx : low32 x = 0 := by simpa using h
  rw [← loOf_low32, hx]
  rfl

/-- An affine value with one stride is an arithmetic progression along its axis. -/
theorem oneStride_spec {f : Aff} {axis : Axis} {base st : Nat} (h : oneStride f = some (axis, base, st))
    (c : Nat × Nat × Nat) : (loOf (affAt f c)).toNat = (base + st * coordOn axis c) % 2 ^ 32 := by
  have hat : loOf (affAt f c) = loOf f.base + loOf f.sx * BitVec.ofNat 32 c.1 + loOf f.sy * BitVec.ofNat 32 c.2.1 +
      loOf f.sz * BitVec.ofNat 32 c.2.2 := by
    have hof (n : Nat) : loOf (BitVec.ofNat 64 n) = BitVec.ofNat 32 n := by
      refine BitVec.eq_of_toNat_eq ?_
      rw [loOf_toNat, BitVec.toNat_ofNat, BitVec.toNat_ofNat]
      omega
    simp only [affAt, loOf_add, loOf_mul, hof]
  have hsum (b s : Word) (n : Nat) : (b + s * BitVec.ofNat 32 n).toNat = (b.toNat + s.toNat * n) % 2 ^ 32 := by
    rw [BitVec.toNat_add, BitVec.toNat_mul, BitVec.toNat_ofNat, Nat.mul_mod_mod, Nat.add_mod_mod]
  simp only [oneStride, Aff.low] at h
  split at h
  case h_1 hx hy hz =>
    cases h
    rw [hat, loOf_eq_zero_of_low32 hy, loOf_eq_zero_of_low32 hz]
    simp only [BitVec.zero_mul, BitVec.add_zero, hsum, low32_toNat, coordOn]
  case h_2 hx hy hz =>
    cases h
    rw [hat, loOf_eq_zero_of_low32 hx, loOf_eq_zero_of_low32 hz]
    simp only [BitVec.zero_mul, BitVec.add_zero, hsum, low32_toNat, coordOn]
  case h_3 hx hy hz =>
    cases h
    rw [hat, loOf_eq_zero_of_low32 hx, loOf_eq_zero_of_low32 hy]
    simp only [BitVec.zero_mul, BitVec.add_zero, hsum, low32_toNat, coordOn]
  case h_4 => cases h

/-- What a seat's strip has of its box, whose extents a node record bounds. -/
structure Box.Bounded (b : Box) : Prop where
  ex : b.ex ≤ 2 ^ 32
  ey : b.ey ≤ 2 ^ 32
  ez : b.ez ≤ 2 ^ 32

theorem boxOn_le {b : Box} (h : b.Bounded) (axis : Axis) : (boxOn b axis).2 ≤ 2 ^ 32 := by
  cases axis
  · exact h.ex
  · exact h.ey
  · exact h.ez

/-- A range predicate holds for the items of the box whose values compare so. -/
theorem rangeOf_holds {fr : Frame} {c : ICond} (hc : orderedCond c = true) (hb : fr.box.Bounded) {f : Aff} {u : DWord}
    {left : Bool} {axis : Axis} {base st lo hi : Nat} (hf : oneStride f = some (axis, base, st))
    (h : intervalOf (arcOf c (u.toNat % 2 ^ 32) left) base st (boxOn fr.box axis).1 (boxOn fr.box axis).2 = some (lo, hi))
    {l : Nat} (hl : fr.box.holds (fr.coord l) = true) :
    (PVal.range axis lo hi).at_ fr l =
      if left then icmp c 32 (affAt f (fr.coord l)) u else icmp c 32 u (affAt f (fr.coord l)) := by
  obtain ⟨hge, hlt⟩ := Box.holds_boxOn hl axis
  obtain ⟨i, hi'⟩ := Nat.exists_eq_add_of_le hge
  have hu : u.toNat % 2 ^ 32 < 2 ^ 32 := Nat.mod_lt _ (by norm_num)
  obtain ⟨hlo, hlen⟩ := arcOf_bounds c hu left
  rw [← arcHas_arcOf hc, oneStride_spec hf, arcHas_mod _ hlo, Bool.eq_iff_iff, hi',
    ← intervalOf_spec hlo hlen (boxOn_le hb axis) h (by omega), ← hi']
  simp only [PVal.at_, predLane, Bool.and_eq_true, decide_eq_true_eq]

theorem orderedCond_of_ne {c : ICond} (h1 : c = .eq → False) (h2 : c = .ne → False) : orderedCond c = true := by
  cases c with
  | eq => exact (h1 rfl).elim
  | ne => exact (h2 rfl).elim
  | _ => rfl

theorem rangeVal_at {fr : Frame} {c : ICond} (hb : fr.box.Bounded) {a b : Val} {p : PVal} (h : rangeVal fr c a b = some p)
    {l : Nat} (hl : fr.box.holds (fr.coord l) = true) : p.at_ fr l = icmp c 32 (a.at_ fr l) (b.at_ fr l) := by
  unfold rangeVal at h
  split at h
  case h_1 => cases h
  case h_2 => cases h
  case h_3 f y h1 h2 =>
    dsimp only at h
    split at h
    case h_1 => cases h
    case h_2 axis base st hf =>
      obtain ⟨⟨lo, hi⟩, hint, rfl⟩ := Option.map_eq_some_iff.mp h
      exact rangeOf_holds (left := true) (orderedCond_of_ne h1 h2) hb hf hint hl
  case h_4 x f h1 h2 =>
    dsimp only at h
    split at h
    case h_1 => cases h
    case h_2 axis base st hf =>
      obtain ⟨⟨lo, hi⟩, hint, rfl⟩ := Option.map_eq_some_iff.mp h
      exact rangeOf_holds (left := false) (orderedCond_of_ne h1 h2) hb hf hint hl
  case h_5 => cases h

theorem icmpVal_at {fr : Frame} {c : ICond} {wd : Nat} (hwd : wd = 32 ∨ wd = 64) (hb : fr.box.Bounded) (a b : Val) {l : Nat}
    (hl : fr.box.holds (fr.coord l) = true) :
    (icmpVal fr c wd a b).at_ fr l = icmp c wd (a.at_ fr l) (b.at_ fr l) := by
  unfold icmpVal
  split
  · rfl
  · split
    case h_2 => rfl
    case h_1 p hp =>
      split at hp
      · cases hp
      · obtain rfl : wd = 32 := by omega
        exact rangeVal_at hb hp hl

/-! The words. -/

section
variable {s : State} {w : Seat} {c : ICond} {v : WCmp}

theorem icmp_gives (hi : s.issuing (.icmp c v) = some w)
    (hbox : ∀ l < 32, laneIn w.fr.active l = true → w.g.box.holds (w.coord l) = true) (hb : w.g.box.Bounded) :
    w.givesPred (.icmp c v) (exec (.icmp c v) s) v.p
      (fun l => compares c (cmpWidth v.x) (w.src (cmpWidth v.x) v.a l) (w.src (cmpWidth v.x) v.b l))
      (w.lastRead v.la v.a (regsOf (cmpWidth v.x)) ++ w.lastRead v.lb v.b (regsOf (cmpWidth v.x))) := by
  have h := seat_facts hi
  show w.givesPred _ (execIcmp c v s) _ _ _
  rw [execIcmp, runAlu_issuing hi]
  have hsrcs : (w.form (.icmp c v)).srcs = [⟨v.a, regsOf (cmpWidth v.x)⟩, ⟨v.b, regsOf (cmpWidth v.x)⟩] := by
    rw [regsOf_cmpWidth]; rfl
  refine setPred_gives h rfl (((Freed.refl w.fr).freeSrc h (wd := cmpWidth v.x) v.la (by simp [hsrcs])).freeSrc h
    (wd := cmpWidth v.x) v.lb (by simp [hsrcs])) fun l hl ha => ?_
  have hholds : w.fr.box.holds (w.fr.coord l) = true := by rw [seat_box h, seat_coord h]; exact hbox l hl ha
  rw [← seat_box h] at hb
  rw [icmpVal_at (cmpWidth_cases v.x) hb _ _ hholds, icmp_eq c (cmpWidth_cases v.x)]
  rfl

theorem icmpG_gives (hi : s.issuing (.icmpG c v) = some w) (ha : (w.fr.src (cmpWidth v.x) v.a.toNat).isU = true)
    (hb : (w.fr.src (cmpWidth v.x) v.b.toNat).isU = true) :
    w.givesPred (.icmpG c v) (exec (.icmpG c v) s) v.p
      (fun l => compares c (cmpWidth v.x) (w.src (cmpWidth v.x) v.a l) (w.src (cmpWidth v.x) v.b l))
      (w.lastRead v.la v.a (regsOf (cmpWidth v.x)) ++ w.lastRead v.lb v.b (regsOf (cmpWidth v.x))) := by
  have h := seat_facts hi
  obtain ⟨x, hx⟩ := Val.isU_iff.mp ha
  obtain ⟨y, hy⟩ := Val.isU_iff.mp hb
  show w.givesPred _ (execIcmpG c v s) _ _ _
  rw [execIcmpG, runAlu_issuing hi]
  dsimp only
  rw [hx, hy]
  have hsrcs : (w.form (.icmpG c v)).srcs = [⟨v.a, regsOf (cmpWidth v.x)⟩, ⟨v.b, regsOf (cmpWidth v.x)⟩] := by
    rw [regsOf_cmpWidth]; rfl
  refine setPred_gives h (v := .u (icmp c (cmpWidth v.x) x y)) rfl (((Freed.refl w.fr).freeSrc h (wd := cmpWidth v.x) v.la (by simp [hsrcs])).freeSrc h
    (wd := cmpWidth v.x) v.lb (by simp [hsrcs])) fun l _ _ => ?_
  simp only [Seat.src, hx, hy, ← icmp_eq c (cmpWidth_cases v.x)]
  rfl

end

/-- The flags that FCMP raises in a lane: IV for a signalling NaN. -/
def Seat.fcmpFlags (w : Seat) (f : Bool) (v : WCmp) (l : Nat) : Word :=
  flagIf ((w.num f v.a l).isSig || (w.num f v.b l).isSig) flagIV

/-- The frame after FCMP has raised its flags. -/
def Seat.fcmpFrame (w : Seat) (f : Bool) (v : WCmp) : Frame :=
  { w.fr with fpstat := w.fr.fpstat ||| (lanesOf w.fr.active).foldl (fun fl l => fl ||| w.fcmpFlags f v l) 0 }

/-- FCMP raises its flags, frees its sources and writes its predicate. -/
theorem fcmpBody_eq {s : State} {i : Instr} {w : Seat} (h : SeatFacts s i w) (f : Bool) (c : FCond) (v : WCmp) :
    ∃ p : PVal, (∀ l, p.at_ w.fr l = fcmp c (w.num f v.a l) (w.num f v.b l)) ∧
      fcmpBody f c v w.fr = (((w.fcmpFrame f v).free v.la (floatWidth f) v.a.toNat).free v.lb (floatWidth f) v.b.toNat).setPred
        v.p.toNat p := by
  cases hu : (w.fr.src (floatWidth f) v.a.toNat).isU && (w.fr.src (floatWidth f) v.b.toNat).isU with
  | true =>
    obtain ⟨ha, hb⟩ := Bool.and_eq_true_iff.mp hu
    have hnum (l : Nat) : w.num f v.a l = w.num f v.a 0 ∧ w.num f v.b l = w.num f v.b 0 := by
      simp only [Seat.num, Seat.src, isU_const ha w.fr l, isU_const hb w.fr l, and_self]
    have hflags : (lanesOf w.fr.active).foldl (fun fl l => fl ||| w.fcmpFlags f v l) 0 = w.fcmpFlags f v 0 := by
      simp only [Seat.fcmpFlags, (hnum _).1, (hnum _).2]
      rw [foldl_or_const _ _ _ (lanesOf_ne h.lanes)]
      exact BitVec.zero_or
    refine ⟨.u (fcmp c (w.num f v.a 0) (w.num f v.b 0)), fun l => by rw [(hnum l).1, (hnum l).2]; rfl, ?_⟩
    rw [Seat.fcmpFrame, hflags]
    exact if_pos hu
  | false =>
    refine ⟨.l fun l => fcmp c (w.num f v.a l) (w.num f v.b l), fun l => rfl, ?_⟩
    exact if_neg (by simp [hu])

theorem fcmp_gives {s : State} {w : Seat} {f : Bool} {c : FCond} {v : WCmp} (hi : s.issuing (.fcmp f c v) = some w) :
    ∃ t, exec (.fcmp f c v) s = .next (w.passed (.fcmp f c v) w.s t) ∧
      t = { w.onlyRegs t with
        fpstat := w.t.fpstat ||| (lanesOf w.fr.active).foldl (fun fl l => fl ||| w.fcmpFlags f v l) 0 } ∧
      WritesPred w v.p (fun l => fcmp c (w.num f v.a l) (w.num f v.b l))
        (w.lastRead v.la v.a (regsOf (floatWidth f)) ++ w.lastRead v.lb v.b (regsOf (floatWidth f))) t := by
  have h := seat_facts hi
  obtain ⟨hfp, hgens, -⟩ := seat_based h
  obtain ⟨p, hp, hbody⟩ := fcmpBody_eq h f c v
  have hsrcs : (w.form (.fcmp f c v)).srcs = [⟨v.a, regsOf (floatWidth f)⟩, ⟨v.b, regsOf (floatWidth f)⟩] := by
    rw [regsOf_floatWidth]; rfl
  have hfree := ((Freed.refl (w.fcmpFrame f v)).free v.la (floatWidth f) v.a.toNat v.a.isLt
    (src_even h (by simp [hsrcs]))).free v.lb (floatWidth f) v.b.toNat v.b.isLt (src_even h (by simp [hsrcs]))
  have hreads (bit : Bool) (r : BitVec 6) : (w.fcmpFrame f v).lastRead bit (floatWidth f) r.toNat =
    w.lastRead bit r (regsOf (floatWidth f)) := lastRead_eq w bit r _
  rw [hreads, hreads, List.nil_append] at hfree
  generalize ((w.fcmpFrame f v).free v.la (floatWidth f) v.a.toNat).free v.lb (floatWidth f) v.b.toNat = fr1 at hbody hfree
  obtain ⟨fr2, hok, hw⟩ := setPred_writes (n := v.p.toNat) p (fr := fr1) (by rw [hfree.rest]; exact seat_span h) v.p.isLt
  obtain ⟨hwrites, hrest⟩ := writesPred_of h (fr0 := w.fcmpFrame f v) ⟨rfl⟩ hfree hw
  refine ⟨w.t.withFrame fr2, ?_, ?_, hwrites.congr fun l _ _ => ?_⟩
  · show execFcmp f c v s = _
    rw [execFcmp, runAlu_issuing hi, hbody, hok, withFrame_pass h]
  · have hgens0 : (w.fcmpFrame f v).gens = w.t.gens := hgens
    rw [hrest, hgens0, Seat.fcmpFrame, hfp]
    rfl
  · have hco : fr1.coord = w.fr.coord := by rw [hfree.rest]; rfl
    rw [← hp l]
    cases p <;> simp [PVal.at_, hco]

/-- Settles O6: the interval of an affine comparison is found by counting, the rest is the comparison of the operands. -/
theorem comparisons : Obligations.Comparisons := by
  unfold Obligations.Comparisons
  refine ⟨fun s w c v hi hbox hx hy hz => icmp_gives hi hbox ⟨hx, hy, hz⟩, fun s w c v hi ha hb => icmpG_gives hi ha hb,
    fun s w f c v hi => ?_⟩
  obtain ⟨t, hout, ht, hw⟩ := fcmp_gives hi
  refine ⟨t, hout, ht, ?_⟩
  cases c <;> exact hw

end Sys2Proof.Machine
end

section
/-! Formats, modes, the format table and bandwidth weights (R50 to R52, R108, R215, R335 to R337, R349). -/

namespace Sys2Proof.Machine

theorem extractLsb'_toNat_eq {n : Nat} (x : BitVec n) (lo len : Nat) : (x.extractLsb' lo len).toNat = bitsOf x.toNat lo len :=
  BitVec.extractLsb'_toNat ..

/-! A slot of FMT. -/

theorem getLsbD_63 (j : Nat) : (0x3F : Word).getLsbD j = decide (j < 6) := by
  by_cases hj : j < 32
  · have : ∀ j < 32, (0x3F : Word).getLsbD j = decide (j < 6) := by decide
    exact this j hj
  · rw [BitVec.getLsbD_of_ge _ _ (by omega)]
    simp
    omega

/-- FMT with one slot replaced (R336). -/
def slotSet (f : Word) (code : BitVec 6) (n : BitVec 2) : Word :=
  (f &&& ~~~((0x3F : Word) <<< (8 * n.toNat))) ||| (code.setWidth 32 <<< (8 * n.toNat))

theorem slotSet_getLsbD (f : Word) (code : BitVec 6) (n : BitVec 2) {k : Nat} (hk : k < 32) :
    (slotSet f code n).getLsbD k =
      if 8 * n.toNat ≤ k ∧ k < 8 * n.toNat + 6 then code.getLsbD (k - 8 * n.toNat) else f.getLsbD k := by
  simp only [slotSet, BitVec.getLsbD_or, BitVec.getLsbD_and, BitVec.getLsbD_not, BitVec.getLsbD_shiftLeft, getLsbD_63,
    BitVec.getLsbD_setWidth, hk, decide_true, Bool.true_and]
  by_cases hlo : 8 * n.toNat ≤ k
  · by_cases hhi : k < 8 * n.toNat + 6
    · simp [hlo, hhi, show k - 8 * n.toNat < 6 by omega, show ¬ k < 8 * n.toNat by omega,
        show k - 8 * n.toNat < 32 by omega]
    · simp [hlo, hhi, show ¬ k - 8 * n.toNat < 6 by omega, show ¬ k < 8 * n.toNat by omega,
        BitVec.getLsbD_of_ge code _ (show 6 ≤ k - 8 * n.toNat by omega)]
  · simp [hlo, show k < 8 * n.toNat by omega]

theorem slotSet_slot (f : Word) (code : BitVec 6) (n : BitVec 2) : (slotSet f code n).extractLsb' (8 * n.toNat) 6 = code := by
  have hn := n.isLt
  refine BitVec.eq_of_getLsbD_eq fun j hj => ?_
  rw [BitVec.getLsbD_extractLsb', slotSet_getLsbD _ _ _ (by omega), if_pos (by omega)]
  simp [hj]

theorem slotSet_other (f : Word) (code : BitVec 6) (n : BitVec 2) {k : Nat} (hk : k < 32) (h : k / 8 ≠ n.toNat ∨ 6 ≤ k % 8) :
    (slotSet f code n).getLsbD k = f.getLsbD k := by
  rw [slotSet_getLsbD _ _ _ hk, if_neg (by omega)]

theorem getLsbD_7 (j : Nat) : (7 : Word).getLsbD j = decide (j < 3) := by
  by_cases hj : j < 32
  · have : ∀ j < 32, (7 : Word).getLsbD j = decide (j < 3) := by decide
    exact this j hj
  · rw [BitVec.getLsbD_of_ge _ _ (by omega)]
    simp
    omega

theorem modesetRm_bits (f : Word) (rm : BitVec 3) : (f &&& ~~~(7 : Word)) ||| rm.setWidth 32 = f.extractLsb' 3 29 ++ rm := by
  refine BitVec.eq_of_getLsbD_eq fun k hk => ?_
  rw [BitVec.getLsbD_append]
  simp only [BitVec.getLsbD_or, BitVec.getLsbD_and, BitVec.getLsbD_not, getLsbD_7, BitVec.getLsbD_setWidth, hk,
    decide_true, Bool.true_and, BitVec.getLsbD_extractLsb']
  by_cases h3 : k < 3
  · simp [h3]
  · simp [h3, show k - 3 < 29 by omega, show 3 + (k - 3) = k by omega, BitVec.getLsbD_of_ge rm k (by omega)]

/-! Weights. -/

/-- The sum of five digits of a base-16 number. -/
def digits5 (d : Nat → Nat) : Nat := d 0 + d 1 * 16 + d 2 * 256 + d 3 * 4096 + d 4 * 65536

theorem digits5_lt {d : Nat → Nat} (hd : ∀ k, d k < 16) : digits5 d < 2 ^ 20 := by
  have := hd 0; have := hd 1; have := hd 2; have := hd 3; have := hd 4
  simp only [digits5]
  omega

theorem digits5_digit {d : Nat → Nat} (hd : ∀ k, d k < 16) {k : Nat} (hk : k < 5) : bitsOf (digits5 d) (4 * k) 4 = d k := by
  have := hd 0; have := hd 1; have := hd 2; have := hd 3; have := hd 4
  simp only [bitsOf, Nat.shiftRight_eq_div_pow, digits5]
  obtain rfl | rfl | rfl | rfl | rfl : k = 0 ∨ k = 1 ∨ k = 2 ∨ k = 3 ∨ k = 4 := by omega
  all_goals omega

/-- Each weight clamped to its quota. -/
def clamped (v quota : Word) (k : Nat) : Nat := min (bitsOf v.toNat (4 * k) 4) (bitsOf quota.toNat (4 * k) 4)

theorem clamped_lt (v quota : Word) (k : Nat) : clamped v quota k < 16 :=
  lt_of_le_of_lt (min_le_left _ _) (by rw [bitsOf]; exact Nat.mod_lt _ (by norm_num))

theorem clampWeights_toNat (v quota : Word) : (clampWeights v quota).toNat = digits5 (clamped v quota) := by
  have hlt := digits5_lt (clamped_lt v quota)
  have hsum : clampWeights v quota = BitVec.ofNat 32 (digits5 (clamped v quota)) := by
    simp [clampWeights, digits5, clamped, List.range_succ, ← min_def]
  rw [hsum, BitVec.toNat_ofNat, Nat.mod_eq_of_lt (by omega)]

theorem clampWeights_high (v quota : Word) : (clampWeights v quota).extractLsb' 20 12 = 0 := by
  have hlt := digits5_lt (clamped_lt v quota)
  refine BitVec.eq_of_toNat_eq ?_
  rw [extractLsb'_toNat_eq, clampWeights_toNat, bitsOf, Nat.shiftRight_eq_div_pow, Nat.div_eq_of_lt hlt]
  rfl

theorem clampWeights_weight (v quota : Word) {k : Nat} (hk : k < 5) : ((clampWeights v quota).extractLsb' (4 * k) 4).toNat =
    min (v.extractLsb' (4 * k) 4).toNat (quota.extractLsb' (4 * k) 4).toNat := by
  rw [extractLsb'_toNat_eq, extractLsb'_toNat_eq, extractLsb'_toNat_eq, clampWeights_toNat,
    digits5_digit (clamped_lt v quota) hk, clamped]

/-! The words. -/

/-- A part of a body that does not trap. -/
theorem done_ok {ε α β : Type} (a : α) (f : α → Except ε β) : (Except.ok a >>= f) = f a := rfl

/-- A part that ends normally with what a frame makes of the strip, in a state of its own. -/
theorem settle_withFrame {s u : State} {i : Instr} {w : Seat} (h : SeatFacts s i w) {fr : Frame} :
    settle w i (w.form i) (.next u (w.t.withFrame fr)) = w.passed i u (w.t.withFrame fr) :=
  settle_next _ h.wait h.parked h.calm

theorem fmtselSlot_passes {s : State} {w : Seat} {st : Bool} {code : BitVec 6} {n : BitVec 2} {x : Option XWord}
    (hi : s.issuing (.fmtselSlot st code n x) = some w) (hc : code.toNat < 48) :
    exec (.fmtselSlot st code n x) s =
      .next (w.passed (.fmtselSlot st code n x) w.s { w.t with fmt := slotSet w.t.fmt code n }) := by
  have h := seat_facts hi
  show execFmtselSlot st code n x s = _
  obtain ⟨gd, hgd⟩ := h.gd
  rw [execFmtselSlot, runAlu_issuing hi, fmtselSlotBody, if_neg (by omega), withFrame_pass h, hgd]
  rfl

theorem modesetRm_passes {s : State} {w : Seat} {st : Bool} {rm : BitVec 3} {x : Option XWord}
    (hi : s.issuing (.modesetRm st rm x) = some w) :
    exec (.modesetRm st rm x) s =
      .next (w.passed (.modesetRm st rm x) w.s { w.t with mode := w.t.mode.extractLsb' 3 29 ++ rm }) := by
  have h := seat_facts hi
  show execModesetRm st rm x s = _
  obtain ⟨gd, hgd⟩ := h.gd
  rw [execModesetRm, runAlu_issuing hi, modesetRmBody, withFrame_pass h, ← modesetRm_bits, hgd]
  rfl

section
variable {s : State} {w : Seat} {v : WSrc} {n : DWord}

theorem freed_src (w : Seat) (v : WSrc) : Freed w.fr (w.fr.free v.la 32 v.a.toNat) (w.lastRead v.la v.a 1) :=
  (Freed.refl w.fr).freeReg v.la v.a

theorem fmtNames_of {f : Word} (h : ∀ k < 4, (f.extractLsb' (8 * k) 6).toNat < 48) : fmtNames f = true := by
  simpa [fmtNames, ← extractLsb'_toNat_eq] using h

theorem modeNames_of {f : Word} (h0 : (f.extractLsb' 0 3).toNat ≠ 0) (h7 : (f.extractLsb' 0 3).toNat ≠ 7) :
    modeNames f = true := by
  rw [extractLsb'_toNat_eq] at h0 h7
  simp [modeNames, h0, h7]

theorem fmtselReg_sets (hi : s.issuing (.fmtselReg v) = some w) (hn : w.fr.reg v.a.toNat = .u n)
    (hk : ∀ k < 4, ((loOf n).extractLsb' (8 * k) 6).toNat < 48) :
    w.sets (.fmtselReg v) (exec (.fmtselReg v) s) w.s (w.lastRead v.la v.a 1)
      fun t => { t with fmt := loOf n &&& 0x3F3F3F3F } := by
  have h := seat_facts hi
  refine sets_of_freed h (freed_src w v) ?_
  show execFmtselReg v s = _
  rw [execFmtselReg, runAlu_issuing hi, fmtselRegBody, hn]
  simp only [fmtNames_of hk, if_true, withFrame_pass h]
  rfl

theorem modeset_sets (hi : s.issuing (.modeset v) = some w) (hn : w.fr.reg v.a.toNat = .u n)
    (h0 : ((loOf n).extractLsb' 0 3).toNat ≠ 0) (h7 : ((loOf n).extractLsb' 0 3).toNat ≠ 7) :
    w.sets (.modeset v) (exec (.modeset v) s) w.s (w.lastRead v.la v.a 1)
      fun t => { t with mode := loOf n &&& 0x33FF } := by
  have h := seat_facts hi
  refine sets_of_freed h (freed_src w v) ?_
  show execModeset v s = _
  rw [execModeset, runAlu_issuing hi, modesetBody, hn]
  simp only [Val.uni, ok_bind, modeNames_of h0 h7, if_true, withFrame_pass h]
  rfl

theorem modesetClr_sets (hi : s.issuing (.modesetClr v) = some w) (hn : w.fr.reg v.a.toNat = .u n) :
    w.sets (.modesetClr v) (exec (.modesetClr v) s) w.s (w.lastRead v.la v.a 1)
      fun t => { t with fpstat := t.fpstat &&& ~~~(loOf n &&& 0x3F) } := by
  have h := seat_facts hi
  refine sets_of_freed h (freed_src w v) ?_
  show execModesetClr v s = _
  rw [execModesetClr, runAlu_issuing hi, modesetClrBody, hn]
  simp only [Val.uni, ok_bind, withFrame_pass h]
  have hfp : (w.fr.free v.la 32 v.a.toNat).fpstat = w.fr.fpstat := by rw [(freed_src w v).rest]
  rw [← hfp]
  rfl

/-- BWSET of either kind. -/
theorem bwset_sets {i : Instr} {put : Word → Ctx → Ctx} (hi : s.issuing i = some w) (hn : w.fr.reg v.a.toNat = .u n)
    (hz : (loOf n).extractLsb' 20 12 = 0) (hout : exec i s = .next (settle w i (w.form i) (bwsetBody v put w))) :
    w.sets i (exec i s) (w.s.mapCtx w.g.ctx (put (clampWeights (loOf n) w.x.cfg.quota))) (w.lastRead v.la v.a 1) id := by
  have h := seat_facts hi
  refine sets_of_freed h (freed_src w v) ?_
  have hz' : bitsOf (loOf n).toNat 20 12 = 0 := by rw [← extractLsb'_toNat_eq, hz]; rfl
  have hbody : bwsetBody v put w = .next (w.s.mapCtx w.g.ctx (put (clampWeights (loOf n) w.x.cfg.quota)))
      (w.t.withFrame (w.fr.free v.la 32 v.a.toNat)) := by
    rw [bwsetBody, hn, Val.uni, Seat.part, done_ok, hz']
    rfl
  rw [hout, hbody, settle_withFrame h, id]

end

theorem fmtset_sets {s : State} {w : Seat} {v : W2} {e : DWord} (hi : s.issuing (.fmtset v) = some w)
    (he : w.fr.pair v.a.toNat = .u e) (hd : 16 ≤ v.d.toNat) (ha : fmtsetAccepts w.x.fmtTable v.d.toNat e = true) :
    w.sets (.fmtset v) (exec (.fmtset v) s)
      (w.s.mapCtx w.g.ctx fun x => { x with fmtTable := vset x.fmtTable v.d.toNat e }) (w.lastRead v.la v.a 2) id := by
  have h := seat_facts hi
  have hf := (Freed.refl w.fr).freeSrc h (wd := 64) v.la (r := v.a) (by simp [Seat.form, formOf, regsOf])
  refine sets_of_freed h hf ?_
  show execFmtset v s = _
  have hbody : fmtsetBody v w = .next (w.s.mapCtx w.g.ctx fun x => { x with fmtTable := vset x.fmtTable v.d.toNat e })
      (w.t.withFrame (w.fr.free v.la 64 v.a.toNat)) := by
    simp only [fmtsetBody, he, if_neg (show ¬ v.d.toNat < 16 by omega), ha]
    rfl
  rw [execFmtset, runStrip_issuing hi, hbody, settle_withFrame h, id]

theorem fmtget_writes {s : State} {w : Seat} {v : WNoLa} (hi : s.issuing (.fmtget v) = some w) :
    w.WritesAs (.fmtget v) (exec (.fmtget v) s) ⟨64, w.slot v.d, fun _ => vget w.x.fmtTable v.a.toNat 0, []⟩
      (.u (vget w.x.fmtTable v.a.toNat 0)) v.d false where
  width := .inr rfl
  even := dst_even (seat_facts hi) (wd := 64) (r := v.d) (by simp [Seat.form, formOf, regsOf])
  dst := (place_slot ..).symm
  val _ := SameIn.rfl
  out := by
    refine ⟨w.fr, Freed.refl w.fr, ?_⟩
    show execFmtget v s = _
    rw [execFmtget, runAlu_issuing hi]
    rfl

/-- Settles O23: each control word's own part is its entry's; a slot's six bits, a rounding mode's three and a weight's four
are taken apart bit by bit. -/
theorem controls : Obligations.Controls := by
  unfold Obligations.Controls
  refine ⟨⟨?_, fun s w st rm x hi => modesetRm_passes hi, ?_⟩, ⟨?_, ?_, ?_⟩, ?_⟩
  · intro s w st code n x hi hc
    exact ⟨_, fmtselSlot_passes hi hc, slotSet_slot .., fun k hk h => slotSet_other _ _ _ hk h⟩
  · rintro s w i v n f hi hn (⟨rfl, hk, rfl⟩ | ⟨rfl, h0, h7, rfl⟩ | ⟨rfl, rfl⟩)
    · exact fmtselReg_sets hi hn hk
    · exact modeset_sets hi hn h0 h7
    · exact modesetClr_sets hi hn
  · intro s w v e hi he hd ha
    exact fmtset_sets hi he hd ha
  · intro s w v hi hr
    exact (fmtget_writes hi).gives (seat_facts hi) hr
  · intro s w v hi _ hp hw
    exact ((fmtget_writes hi).gives_uniform (seat_facts hi) rfl hp hw).2
  · rintro s w i v n put hi hn hz hput
    have hout : exec i s = .next (settle w i (w.form i) (bwsetBody v put w)) := by
      rcases hput with ⟨rfl, p, hp, rfl⟩ | ⟨rfl, rfl⟩
      · show execBwsetMem v s = _
        rw [execBwsetMem, runStrip_issuing hi, bwsetMemBody, hp]
        rfl
      · show execBwsetLink v s = _
        rw [execBwsetLink, runStrip_issuing hi]
    exact ⟨_, clampWeights_high .., fun k hk => clampWeights_weight _ _ hk, bwset_sets hi hn hz hout⟩

end Sys2Proof.Machine
end

section
/-! Control flow in a strip: BRA, JOIN, CALL, RET, JMPI and TRET (R87, R131, R132, R268, R319, R341, R357). -/

namespace Sys2Proof.Machine

section
variable {s : State} {i : Instr} {w : Seat} (h : SeatFacts s i w)
include h

/-- A word whose part sets the PC, and of a strip's course only what its entry says. -/
theorem moves_of {out : Out} {d : Done} {u : State} {t : Strip} (hout : out = .next (settle w i (w.form i) d))
    (hd : d = .moved u t) (hw : t.wait = w.t.wait := by rfl) (hp : t.parked = w.t.parked := by rfl)
    (hc : t.priv = w.t.priv := by rfl) (hr : t.replay = w.t.replay := by rfl) : out = .next (w.moved i u t) := by
  rw [hout, hd, settle_moved t (hw.trans h.wait) (hp.trans h.parked) (by rw [hc, hr]; exact h.calm)]

/-- A word whose part ends normally. -/
theorem passes_of {out : Out} {d : Done} {u : State} {t : Strip} (hout : out = .next (settle w i (w.form i) d))
    (hd : d = .next u t) (hw : t.wait = w.t.wait := by rfl) (hp : t.parked = w.t.parked := by rfl)
    (hc : t.priv = w.t.priv := by rfl) (hr : t.replay = w.t.replay := by rfl) : out = .next (w.passed i u t) := by
  rw [hout, hd, settle_next t (hw.trans h.wait) (hp.trans h.parked) (by rw [hc, hr]; exact h.calm)]

/-- A word whose part traps. -/
theorem traps_of {out : Out} {d : Done} {p : TrapInfo} (hv : w.vectors) (hout : out = .next (settle w i (w.form i) d))
    (hd : d = .trap p) : out = .next (w.trapped w.s w.t p) := by
  rw [hout, hd, settle_trap h p hv.1 hv.2]

omit h in
/-- A word whose part waits. -/
theorem again_of {out : Out} {d : Done} {u : State} {r : Reason} (hout : out = .next (settle w i (w.form i) d))
    (hd : d = .waits u w.t r) : out = .next (w.again i u r) := by
  rw [hout, hd]
  rfl

theorem seat_preds : w.fr.preds = w.t.preds := by
  obtain ⟨gd, hgd⟩ := h.gd
  rw [hgd]
  rfl

end

/-- The lanes of a word that takes no guard. -/
theorem active_of_unguarded {s : State} {i : Instr} {w : Seat} (hi : s.issuing i = some w)
    (hx : ∀ f : Form, f = w.form i → f.guardWord i = none) : w.fr.active = w.t.active := by
  obtain ⟨gid, k, g, t, l, x, h⟩ := issuing_facts hi
  have hform : w.form i = formOf (widthOf x.fmtTable t.fmt) l.hdr.acc i := by rw [h.seat]; rfl
  have hgw := hx _ rfl
  rw [hform] at hgw
  rw [h.seat, hgw]
  rfl

/-- The lanes of a word of the G set other than EXIT: its guard is uniform and true. -/
theorem active_of_gset {s : State} {i : Instr} {w : Seat} (hi : s.issuing i = some w) (hg : (w.form i).g = true)
    (he : i ≠ .exit (w.form i).s (w.form i).x) : w.fr.active = w.t.active := by
  obtain ⟨gid, k, g, t, l, x, h⟩ := issuing_facts hi
  have hform : w.form i = formOf (widthOf x.fmtTable t.fmt) l.hdr.acc i := by rw [h.seat]; rfl
  rw [hform] at hg he
  have hlanes := h.lanes
  rw [h.seat] at hlanes ⊢
  generalize hgd : guardOf t.preds (g.coord l.hdr t.idx) _ = gd at *
  cases gd with
  | absent => rfl
  | uniform b =>
    cases b with
    | true => rfl
    | false => exact absurd rfl hlanes
  | lanes m => exact absurd hgd (h.guard m hg he)

/-! TRET. -/

/-- Settles O17: TRET's own part is the return itself. -/
theorem trapReturn : Obligations.TrapReturn := by
  unfold Obligations.TrapReturn
  intro s w st hi
  show execTret st s = _
  rw [execTret, runStrip_issuing hi]
  rfl

/-! BRA. -/

theorem mask_ext {a b : Mask} (h : ∀ l, l < 32 → laneIn a l = laneIn b l) : a = b := BitVec.eq_of_getLsbD_eq h

theorem maskOf_laneIn (m : Mask) : (maskOf fun l => laneIn m l) = m := mask_ext fun _ hl => laneIn_maskOf _ _ hl

theorem takenLanes_eq {s : State} {i : Instr} {w : Seat} (h : SeatFacts s i w) (p : BitVec 5) (neg : Bool) :
    takenLanes w p neg = w.taken p neg := by
  refine mask_ext fun l hl => ?_
  rw [Seat.taken, laneIn_maskOf _ _ hl, takenLanes]
  cases hp : p == 31 && neg
  · simp only [Bool.false_eq_true, if_false, laneIn_and, laneIn_maskOf _ _ hl, seat_preds h, Bool.false_or, Seat.pred]
  · simp

theorem taken_active {w : Seat} {p : BitVec 5} {neg : Bool} {l : Nat} (hl : l < 32) (h : laneIn (w.taken p neg) l = true) :
    laneIn w.fr.active l = true := by
  rw [Seat.taken, laneIn_maskOf _ _ hl] at h
  exact (Bool.and_eq_true_iff.mp h).1

/-- No active lane is left where every one takes the branch, and only there. -/
theorem untaken_eq_zero {a yes : Mask} (hsub : ∀ l < 32, laneIn yes l = true → laneIn a l = true) :
    a &&& ~~~yes = 0 ↔ yes = a := by
  constructor
  · intro h
    refine mask_ext fun l hl => ?_
    have hlane : laneIn (a &&& ~~~yes) l = false := by rw [h]; simp [laneIn]
    have hsub := hsub l hl
    simp only [laneIn, BitVec.getLsbD_and, BitVec.getLsbD_not, hl, decide_true, Bool.true_and] at hlane hsub ⊢
    cases ha : a.getLsbD l <;> cases hy : yes.getLsbD l <;> simp_all
  · rintro rfl
    simp

/-- What a seat's branch has to do with its lanes: the mask of those that stay behind is 0 where all take it. -/
theorem untaken_zero_iff (w : Seat) (p : BitVec 5) (neg : Bool) :
    w.fr.active &&& ~~~(w.taken p neg) = 0 ↔ w.taken p neg = w.fr.active :=
  untaken_eq_zero fun _ hl h => taken_active hl h

section
variable {s : State} {w : Seat} {st : Bool} {p : BitVec 5} {neg : Bool} {off : BitVec 16} {lit : Option Word}
  (hi : s.issuing (.bra st p neg off lit) = some w)
include hi

theorem bra_active : w.fr.active = w.t.active := active_of_unguarded hi fun _ hf => by subst hf; rfl

theorem bra_out : exec (.bra st p neg off lit) s =
    .next (settle w (.bra st p neg off lit) (w.form (.bra st p neg off lit)) (braBody p neg off lit w)) := by
  show execBra st p neg off lit s = _
  rw [execBra, runBoth_issuing hi]

/-- Every active lane takes the branch. -/
theorem bra_all (hy : w.taken p neg = w.t.active) : braBody p neg off lit w =
    .moved w.s { w.t with pc := w.toward (off.signExtend 64) } := by
  have hno := (untaken_zero_iff w p neg).mpr (hy.trans (bra_active hi).symm)
  rw [← takenLanes_eq (seat_facts hi)] at hno
  rw [braBody, if_pos hno]
  rfl

/-- No active lane takes it. -/
theorem bra_none (hy : w.taken p neg = 0) : braBody p neg off lit w = .moved w.s { w.t with pc := w.pcNext } := by
  have h := seat_facts hi
  have hno : w.fr.active &&& ~~~(takenLanes w p neg) ≠ 0 := by
    rw [takenLanes_eq h, ne_eq, untaken_zero_iff, hy]
    exact h.lanes.symm
  rw [braBody, if_neg hno, if_pos (by rw [takenLanes_eq h, hy])]
  rfl

/-- Some take it, and no X word names the join. -/
theorem bra_unnamed (h0 : w.taken p neg ≠ 0) (h1 : w.taken p neg ≠ w.t.active) (hl : lit = none) :
    braBody p neg off lit w = .trap (plainTrap w.t 0x0B) := by
  have h := seat_facts hi
  have hno : w.fr.active &&& ~~~(takenLanes w p neg) ≠ 0 := by
    rw [takenLanes_eq h, ne_eq, untaken_zero_iff, bra_active hi]
    exact h1
  rw [braBody, if_neg hno, if_neg (by rw [takenLanes_eq h]; exact h0), hl]
  rfl

/-- Some take it, and the X word names the join: the strip divides, where the stack has room. -/
theorem bra_divides {x : Word} (h0 : w.taken p neg ≠ 0) (h1 : w.taken p neg ≠ w.t.active) (hl : lit = some x) :
    braBody p neg off lit w = .of (do
      let one := w.toward (off.signExtend 64) == w.toward (x.signExtend 64)
      w.diverges (decide (w.t.stack.length + (if one then 1 else 2) > 32))
      .ok (.moved w.s { w.t with
        stack := if one then w.entry (w.toward (x.signExtend 64)) w.t.active :: w.t.stack
          else w.entry (w.toward (off.signExtend 64) + 1) (w.taken p neg) ::
            w.entry (w.toward (x.signExtend 64)) w.t.active :: w.t.stack
        active := w.t.active &&& ~~~(w.taken p neg)
        pc := w.pcNext })) := by
  have h := seat_facts hi
  have hno : w.fr.active &&& ~~~(w.taken p neg) ≠ 0 := by
    rw [ne_eq, untaken_zero_iff, bra_active hi]
    exact h1
  rw [braBody, takenLanes_eq h, if_neg hno, if_neg h0, hl, bra_active hi]
  rfl

end

/-- Some take it, and the stack has no room for the entries of a division. -/
theorem bra_overflows {s : State} {w : Seat} {st : Bool} {p : BitVec 5} {neg : Bool} {off : BitVec 16} {lit : Option Word}
    {x : Word} (hi : s.issuing (.bra st p neg off lit) = some w) (h0 : w.taken p neg ≠ 0) (h1 : w.taken p neg ≠ w.t.active)
    (hl : lit = some x)
    (hs : 32 < w.t.stack.length + (if w.toward (off.signExtend 64) = w.toward (x.signExtend 64) then 1 else 2)) :
    braBody p neg off lit w = .trap (plainTrap w.t 0x0C) := by
  have hfull : decide (w.t.stack.length + (if (w.toward (off.signExtend 64) == w.toward (x.signExtend 64)) = true
      then 1 else 2) > 32) = true := by simpa using hs
  rw [bra_divides hi h0 h1 hl]
  simp only [hfull]
  rfl

/-- Settles O9: the lanes that take a branch are its own mask; the cases are those of its entry. -/
theorem branches : Obligations.Branches := by
  unfold Obligations.Branches
  refine ⟨fun s w st p neg off lit hi => ?_, fun s w st p neg off lit hi hv h0 h1 => ?_⟩
  · have h := seat_facts hi
    refine ⟨fun hy => moves_of h (bra_out hi) (bra_all hi hy), fun hy => moves_of h (bra_out hi) (bra_none hi hy),
      fun h0 h1 => ⟨fun x hl ht hs => ?_, fun x hl ht hs => ?_⟩⟩
    · have hroom : ¬ w.t.stack.length + 1 > 32 := by omega
      refine moves_of h (t := { w.t with
        stack := w.entry (w.toward (off.signExtend 64)) w.t.active :: w.t.stack
        active := w.t.active &&& ~~~(w.taken p neg)
        pc := w.pcNext }) (bra_out hi) ?_
      rw [bra_divides hi h0 h1 hl, ht]
      simp only [beq_self_eq_true, if_true, hroom, decide_false]
      rfl
    · have hroom : ¬ w.t.stack.length + 2 > 32 := by omega
      have hone : (w.toward (off.signExtend 64) == w.toward (x.signExtend 64)) = false := beq_eq_false_iff_ne.mpr ht
      refine moves_of h (t := { w.t with
        stack := w.entry (w.toward (off.signExtend 64) + 1) (w.taken p neg) ::
          w.entry (w.toward (x.signExtend 64)) w.t.active :: w.t.stack
        active := w.t.active &&& ~~~(w.taken p neg)
        pc := w.pcNext }) (bra_out hi) ?_
      rw [bra_divides hi h0 h1 hl]
      simp only [hone, Bool.false_eq_true, if_false, hroom, decide_false]
      rfl
  · have h := seat_facts hi
    exact ⟨fun hl => traps_of h hv (bra_out hi) (bra_unnamed hi h0 h1 hl),
      fun x hl hs => traps_of h hv (bra_out hi) (bra_overflows hi h0 h1 hl hs)⟩

/-! JOIN, CALL, RET and JMPI. -/

theorem joinBody_nil {w : Seat} (he : w.t.stack = []) : joinBody w = .moved w.s { w.t with pc := w.t.pc + 4 } := by
  rw [joinBody]
  split
  case h_1 => rfl
  case h_2 e rest hs => cases he.symm.trans hs

/-- JOIN with an entry on top of the stack. -/
theorem joinBody_cons {w : Seat} {e : StackEntry} {rest : List StackEntry} (he : w.t.stack = e :: rest) : joinBody w =
    if !w.t.ownTop then .moved w.s { w.t with pc := w.t.pc + 4 }
    else if e.isPath then .moved w.s (w.t.resumed e rest (e.pc - 1))
    else if e.pc = w.t.pc then .moved w.s (w.t.resumed e rest (w.t.pc + 4))
    else .moved w.s { w.t with pc := w.t.pc + 4 } := by
  rw [joinBody]
  split
  case h_1 hs => cases he.symm.trans hs
  case h_2 e' rest' hs =>
    cases he.symm.trans hs
    rfl

/-- Settles O10: JOIN's cases are those of its entry. -/
theorem joins : Obligations.Joins := by
  unfold Obligations.Joins
  intro s w st hi
  have h := seat_facts hi
  have hnext : w.pcNext = w.t.pc + 4 := h.next
  have hout : exec (.join st) s = .next (settle w (.join st) (w.form (.join st)) (joinBody w)) := by
    show execJoin st s = _
    rw [execJoin, runBoth_issuing hi]
  have hplain (hd : joinBody w = .moved w.s { w.t with pc := w.t.pc + 4 }) :
      exec (.join st) s = .next (w.passed (.join st) w.s w.t) := by
    rw [← hnext] at hd
    exact moves_of h hout hd
  refine ⟨fun he => hplain (joinBody_nil he), fun e rest he => ⟨fun ho hp => ?_, fun ho hp hpc => ?_, fun hcase => ?_⟩⟩
  · exact moves_of h (t := w.t.resumed e rest (e.pc - 1)) hout (by simp [joinBody_cons he, ho, hp])
  · exact moves_of h (t := w.t.resumed e rest (w.t.pc + 4)) hout (by simp [joinBody_cons he, ho, hp, hpc])
  · refine hplain ?_
    rcases hcase with ho | ⟨hp, hpc⟩
    · simp [joinBody_cons he, ho]
    · simp [joinBody_cons he, hp, hpc]

theorem isCall_iff (e : StackEntry) : (e.pc.extractLsb' 0 2 == 2) = e.isCall := by
  rw [StackEntry.isCall, Bool.eq_iff_iff, beq_iff_eq]
  constructor
  · intro h
    have h0 := congrArg (·.getLsbD 0) h
    have h1 := congrArg (·.getLsbD 1) h
    simp at h0 h1
    simp [h0, h1]
  · intro h
    refine BitVec.eq_of_getLsbD_eq fun j hj => ?_
    obtain rfl | rfl : j = 0 ∨ j = 1 := by omega
    · simpa using (Bool.and_eq_true_iff.mp h).1
    · simpa using (Bool.and_eq_true_iff.mp h).2

theorem any_lanesOf (m : Mask) (a : DWord) {l : Nat} (hl : l < 32) :
    ((lanesOf m).map fun k => (k, a)).any (·.1 == l) = laneIn m l := by
  rw [Bool.eq_iff_iff, List.any_eq_true]
  constructor
  · rintro ⟨x, hx, hk⟩
    obtain ⟨k, hk', rfl⟩ := List.mem_map.mp hx
    exact beq_iff_eq.mp hk ▸ (mem_lanesOf.mp hk').2
  · intro h
    exact ⟨(l, a), List.mem_map.mpr ⟨l, mem_lanesOf.mpr ⟨hl, h⟩, rfl⟩, beq_self_eq_true l⟩

/-- A trap that reports one address in every active lane. -/
theorem addrTrap_active (t : Strip) (c : Nat) (a : DWord) : addrTrap t c ((lanesOf t.active).map fun l => (l, a)) =
    TrapInfo.mk c t.active ((lanesOf t.active).map fun l => (l, a)) [] [] t.pc := by
  have hm : (maskOf fun l => ((lanesOf t.active).map fun k => (k, a)).any (·.1 == l)) = t.active :=
    mask_ext fun l hl => by rw [laneIn_maskOf _ _ hl, any_lanesOf _ _ hl]
  rw [addrTrap, hm]

/-- CALL's part. -/
theorem call_out {s : State} {w : Seat} {st : Bool} {off : BitVec 16} {lit : Option Word}
    (hi : s.issuing (.call st off lit) = some w) : exec (.call st off lit) s =
      .next (settle w (.call st off lit) (w.form (.call st off lit)) (callBody off lit w)) := by
  show execCall st off lit s = _
  rw [execCall, runStrip_issuing hi]

theorem ret_out {s : State} {w : Seat} {st : Bool} (hi : s.issuing (.ret st) = some w) :
    exec (.ret st) s = .next (settle w (.ret st) (w.form (.ret st)) (retBody w)) := by
  show execRet st s = _
  rw [execRet, runStrip_issuing hi]

theorem jmpi_out {s : State} {w : Seat} {v : WSrc} (hi : s.issuing (.jmpi v) = some w) :
    exec (.jmpi v) s = .next (settle w (.jmpi v) (w.form (.jmpi v)) (jmpiBody v w)) := by
  show execJmpi v s = _
  rw [execJmpi, runStrip_issuing hi]

/-- RET with an entry on top of the stack. -/
theorem retBody_cons {w : Seat} {e : StackEntry} {rest : List StackEntry} (he : w.t.stack = e :: rest) : retBody w =
    if w.t.ownTop && e.isCall then .moved w.s { w.t with stack := rest, active := e.mask &&& w.t.live, pc := e.pc - 2 }
    else .trap (plainTrap w.t 0x0C) := by
  rw [retBody]
  split
  case h_1 e' rest' hs =>
    cases he.symm.trans hs
    rw [isCall_iff]
  case h_2 hs => cases he.symm.trans hs

theorem ret_traps {w : Seat} (hc : w.t.stack = [] ∨ w.t.ownTop = false ∨ ∃ e rest, w.t.stack = e :: rest ∧ e.isCall = false) :
    retBody w = .trap (plainTrap w.t 0x0C) := by
  rcases hs : w.t.stack with _ | ⟨e, rest⟩
  · rw [retBody, hs]
  · rw [retBody_cons hs]
    rcases hc with hc | hc | ⟨e', rest', hs', hc⟩
    · cases hs.symm.trans hc
    · simp [hc]
    · cases hs.symm.trans hs'
      simp [hc]

/-- Settles O11: the entry's mark tells a call, and a jump frees its pair. -/
theorem callsAndReturns : Obligations.CallsAndReturns := by
  unfold Obligations.CallsAndReturns
  refine ⟨⟨?_, ?_, ?_⟩, ?_, ?_, ?_⟩
  · intro s w st off lit hi hs
    have hroom : ¬ w.t.stack.length + 1 > 32 := by omega
    refine moves_of (seat_facts hi) (call_out hi) ?_
    rw [callBody]
    simp only [hroom, decide_false]
    rfl
  · intro s w st e rest hi hs ho hc
    refine moves_of (seat_facts hi) (t := { w.t with stack := rest, pc := e.pc - 2, active := e.mask &&& w.t.live })
      (ret_out hi) ?_
    simp [retBody_cons hs, ho, hc]
  · intro s w v a hi ha h4
    have h := seat_facts hi
    have hf := (Freed.refl w.fr).freeSrc h (wd := 64) v.la (r := v.a) (by simp [Seat.form, formOf, formSrc, regsOf])
    obtain ⟨hkeeps, hrest⟩ := keeps_of_freed h (Based.refl w) hf
    obtain ⟨hfp, hgens, -⟩ := seat_based h
    rw [hfp, hgens] at hrest
    refine ⟨w.t.withFrame (w.fr.free v.la 64 v.a.toNat), ?_, hrest, hkeeps⟩
    refine moves_of h (jmpi_out hi) ?_
    rw [jmpiBody, ha, Val.uni, Seat.part, done_ok, h4]
    rfl
  · intro s w st off lit hi hv hs
    have hfull : w.t.stack.length + 1 > 32 := by omega
    refine traps_of (seat_facts hi) hv (call_out hi) ?_
    rw [callBody]
    simp only [hfull, decide_true]
    rfl
  · intro s w st hi hv hc
    exact traps_of (seat_facts hi) hv (ret_out hi) (ret_traps hc)
  · intro s w v a hi hv ha h4
    refine traps_of (seat_facts hi) hv (jmpi_out hi) ?_
    rw [jmpiBody, ha, Val.uni, Seat.part, done_ok, addrTrap_active, bne_iff_ne.mpr h4]
    rfl

end Sys2Proof.Machine
end

section
/-! Words that synchronise a strip, and those that only advance: barriers, FENCE, PREF and TFENCE (R135, R187, R189, R237,
R271, R350, R353). -/

namespace Sys2Proof.Machine

/-- A word whose part has set the strip itself. -/
theorem gone_of {i : Instr} {w : Seat} {out : Out} {d : Done} {u : State} (hout : out = .next (settle w i (w.form i) d))
    (hd : d = .gone u) : out = .next u := by
  rw [hout, hd]
  rfl

/-! Barriers. -/

theorem pendingAt_iff {t : Strip} {n p : Nat} : pendingAt t n p = true ↔ vget t.barPhase n none = some p := by
  rw [pendingAt, beq_iff_eq]

section
variable {s : State} {w : Seat} {st : Bool} {n : BitVec 4} {x : Option XWord}

theorem barSync_out (hi : s.issuing (.barSync st n x) = some w) : exec (.barSync st n x) s =
    .next (settle w (.barSync st n x) (w.form (.barSync st n x)) (barSyncBody n.toNat (Instr.barSync st n x).size w)) := by
  show execBarSync st n x s = _
  rw [execBarSync, runStrip_issuing hi]

theorem barArrive_out (hi : s.issuing (.barArrive st n x) = some w) : exec (.barArrive st n x) s =
    .next (settle w (.barArrive st n x) (w.form (.barArrive st n x)) (barArriveBody n.toNat w)) := by
  show execBarArrive st n x s = _
  rw [execBarArrive, runStrip_issuing hi]

theorem barWait_out (hi : s.issuing (.barWait st n x) = some w) : exec (.barWait st n x) s =
    .next (settle w (.barWait st n x) (w.form (.barWait st n x)) (barWaitBody n.toNat (Instr.barWait st n x).size w)) := by
  show execBarWait st n x s = _
  rw [execBarWait, runStrip_issuing hi]

end

/-- A strip that arrives at the recompute barrier. -/
theorem recomputeBody_arrives {w : Seat} {op : RecOp} {a : DWord} {size : Nat}
    (hp : vget w.t.barPhase 16 none ≠ some w.g.recPhase) (hw : w.t.withdrawn ≠ some 16) : recomputeBody op a size w =
    .gone ((w.s.mapGang w.g.id fun g => { g with recompute := g.recompute ++ [RecArrival.mk w.t.idx op a] }).setStrip
      w.g.id (waitPhase { w.t with barPhase := vset w.t.barPhase 16 (some w.g.recPhase) } 16 w.g.recPhase size)) := by
  have hw : (w.t.withdrawn == some 16) = false := beq_eq_false_iff_ne.mpr hw
  simp only [recomputeBody, pendingAt_iff, hp, if_false, hw, Bool.false_eq_true]

/-- A slot's address that is aligned and whose slot has no byte in the twin window. -/
theorem slotBody_arrives {w : Seat} {op : RecOp} {v : WAddr} {a : DWord} {size : Nat} (ha : w.fr.pair v.a.toNat = .u a)
    (h64 : a.toNat % 64 = 0) (ht : outsideTwins a) : slotBody op v size w = recomputeBody op a size w := by
  rw [slotBody, ha, Val.uni, Seat.part, done_ok, h64, ht.1, ht.2]
  rfl

/-- Settles O18: each barrier word's part is a case of the strip's last arrival. -/
theorem barrierArrivals : Obligations.BarrierArrivals := by
  unfold Obligations.BarrierArrivals
  refine ⟨fun s w st n x => ⟨fun hi => ?_, fun hi => ?_, fun hi => ?_⟩, fun s w i op a hi hcase hp hw => ?_⟩
  · have h := seat_facts hi
    refine ⟨fun hw ho => ?_, fun hw ho => ?_, fun hw ho => ?_, fun hw ho => ?_⟩
    · have hw : (w.t.withdrawn == some n.toNat) = false := beq_eq_false_iff_ne.mpr hw
      refine gone_of (barSync_out hi) ?_
      simp only [barSyncBody, pendingAt_iff, hw, ho, Bool.false_eq_true, if_false]
      rfl
    · have hw : (w.t.withdrawn == some n.toNat) = false := beq_eq_false_iff_ne.mpr hw
      refine again_of (barSync_out hi) ?_
      simp only [barSyncBody, pendingAt_iff, hw, ho, Bool.false_eq_true, if_false, if_true]
    · refine gone_of (barSync_out hi) ?_
      simp only [barSyncBody, pendingAt_iff, hw, ho, beq_self_eq_true, if_true]
      rfl
    · refine passes_of h (t := { w.t with withdrawn := none }) (barSync_out hi) ?_
      simp only [barSyncBody, pendingAt_iff, hw, ho, beq_self_eq_true, if_true, if_false]
  · have h := seat_facts hi
    refine ⟨fun ho => ?_, fun ho => ?_⟩
    · refine passes_of h (t := (arriveAt w.s w.g w.t n.toNat).2) (barArrive_out hi) ?_
      simp only [barArriveBody, pendingAt_iff, ho, if_false]
      rfl
    · refine again_of (barArrive_out hi) ?_
      simp only [barArriveBody, pendingAt_iff, ho, if_true]
  · have h := seat_facts hi
    refine ⟨fun ho => ?_, fun ho => ?_⟩
    · refine gone_of (barWait_out hi) ?_
      simp only [barWaitBody, pendingAt_iff, ho, if_true]
      rfl
    · refine passes_of h (t := { w.t with withdrawn := none }) (barWait_out hi) ?_
      simp only [barWaitBody, pendingAt_iff, ho, if_false]
  · rcases hcase with ⟨v, rfl, rfl, ha, h64, ht⟩ | ⟨v, rfl, rfl, ha, h64, ht⟩ | ⟨st, rfl, rfl, rfl⟩
    · show execCkpt v s = _
      rw [execCkpt, runMem_issuing hi, slotBody_arrives ha h64 ht, recomputeBody_arrives hp hw]
      rfl
    · show execReplay v s = _
      rw [execReplay, runMem_issuing hi, slotBody_arrives ha h64 ht, recomputeBody_arrives hp hw]
      rfl
    · show execReplend st s = _
      rw [execReplend, runStrip_issuing hi, recomputeBody_arrives hp hw]
      rfl

/-! Words that only advance. -/

theorem nop_passes {s : State} {w : Seat} {st : Bool} (hi : s.issuing (.nop st) = some w) :
    exec (.nop st) s = .next (w.passed (.nop st) w.s w.t) := by
  have h := seat_facts hi
  show execNop st s = _
  obtain ⟨gd, hgd⟩ := h.gd
  rw [execNop, runAlu_issuing hi, withFrame_pass h, hgd]
  rfl

theorem fence_passes {s : State} {w : Seat} {v : WFence} (hi : s.issuing (.fence v) = some w)
    (hn : ∀ p ∈ w.s.progs, fencesProg v w.g w.t p = false ∧ fencesAck v w.g w.t p = false) :
    exec (.fence v) s = .next (w.passed (.fence v) w.s w.t) := by
  have hnone : (w.s.progs.any fun p => fencesProg v w.g w.t p || fencesAck v w.g w.t p) = false := by
    rw [List.any_eq_false]
    intro p hp
    simp [hn p hp]
  show execFence v s = _
  rw [execFence, runStrip_issuing hi]
  refine passes_of (seat_facts hi) rfl ?_
  simp only [fenceBody, hnone, Bool.false_eq_true, if_false]

theorem pref_sets {s : State} {w : Seat} {v : WPref} (hi : s.issuing (.pref v) = some w) :
    w.sets (.pref v) (exec (.pref v) s) w.s (w.lastRead v.la v.a 2) id := by
  have h := seat_facts hi
  have hf := (Freed.refl w.fr).freeSrc h (wd := 64) v.la (r := v.a) (by simp [Seat.form, formOf, regsOf])
  refine sets_of_freed h hf ?_
  show execPref v s = _
  rw [execPref, runStrip_issuing hi]
  exact passes_of h rfl rfl

/-- The flags that MODE enables, as numbers and as bit vectors. -/
theorem enabled_iff (a b : Word) : bitsOf a.toNat 0 6 &&& bitsOf b.toNat 4 6 = 0 ↔
    a.extractLsb' 0 6 &&& b.extractLsb' 4 6 = 0 := by
  rw [← BitVec.toNat_inj, BitVec.toNat_and, extractLsb'_toNat_eq, extractLsb'_toNat_eq]
  rfl

theorem tfence_out {s : State} {w : Seat} {st : Bool} (hi : s.issuing (.tfence st) = some w) :
    exec (.tfence st) s = .next (settle w (.tfence st) (w.form (.tfence st)) (tfenceBody w)) := by
  show execTfence st s = _
  rw [execTfence, runStrip_issuing hi]

/-- Settles O13: the words' own parts keep the strip, but for PREF's last-read and TFENCE's flags. -/
theorem onlyAdvance : Obligations.OnlyAdvance := by
  unfold Obligations.OnlyAdvance
  refine ⟨⟨?_, fun s w v hi => pref_sets hi⟩, fun s w st hi => ⟨fun h0 => ?_, fun h0 hv => ?_⟩⟩
  · rintro s w i hi (⟨st, rfl⟩ | ⟨v, rfl, hn⟩)
    · exact nop_passes hi
    · exact fence_passes hi hn
  · have hnone := (enabled_iff (setMillFlags (fun x => x.tile.isSome) w.t).fpstat w.t.mode).mpr h0
    refine passes_of (seat_facts hi) (t := setMillFlags (fun x => x.tile.isSome) w.t) (tfence_out hi) ?_
    rw [tfenceBody]
    exact if_neg (not_not.mpr hnone)
  · have hsome := (enabled_iff (setMillFlags (fun x => x.tile.isSome) w.t).fpstat w.t.mode).not.mpr h0
    refine traps_of (seat_facts hi) hv (tfence_out hi) ?_
    rw [tfenceBody]
    exact if_pos hsome

end Sys2Proof.Machine
end

section
/-! What a translation changes (R248, R252), and the words that read memory before they go on: WAIT and LAUNCH (R152, R190,
R372). -/

namespace Sys2Proof.Machine

/-- A state after walks: only the cached translations, the walk cache and the counter of free values may differ. -/
def State.Walks (s u : State) : Prop := u = { s with tlb := u.tlb, walks := u.walks, tick := u.tick }

theorem State.Walks.refl (s : State) : s.Walks s := rfl

theorem State.Walks.trans {s u v : State} (h : s.Walks u) (h' : u.Walks v) : s.Walks v := by
  unfold State.Walks at *
  rw [h', h]

theorem State.Walks.bump {s u : State} (h : s.Walks u) (n : Nat) : s.Walks (u.bump n) := h.trans rfl

theorem remember_walks (s : State) (c va : Nat) (path : List (Nat × Nat × Nat × Bool)) (leaf : Option (DWord × Nat)) :
    s.Walks (remember s c va path leaf) := by
  unfold remember
  split
  · rfl
  · dsimp only
    split_ifs <;> rfl

theorem translate_walks (s : State) (c va : Nat) (need : Need) (priv : Bool) : s.Walks (translate s c va need priv).2 := by
  unfold translate
  split
  · exact .refl s
  · split
    · exact .refl s
    · dsimp only
      split
      · exact (remember_walks ..).bump _
      · split
        · exact (remember_walks ..).bump _
        · exact (remember_walks ..).bump _

theorem planPages_walks (c : Nat) (need : Need) (priv wr : Bool) (req : LaneReq) (pages : List (Nat × Nat)) (s : State) :
    s.Walks (planPages s c need priv wr req pages).2 := by
  induction pages generalizing s with
  | nil => exact .refl s
  | cons page rest ih =>
    obtain ⟨va, len⟩ := page
    have hstep := (translate_walks s c va need priv).trans (ih (translate s c va need priv).2)
    simp only [planPages]
    split <;> exact hstep

theorem planReq_walks (s : State) (c : Nat) (need : Need) (priv wr : Bool) (req : LaneReq) :
    s.Walks (planReq s c need priv wr req).2 := by
  unfold planReq
  dsimp only
  split
  · exact .refl s
  · split
    · exact .refl s
    · exact planPages_walks ..

theorem planAll_walks (c : Nat) (need : Need) (priv wr : Bool) (reqs : List LaneReq) (s : State) :
    s.Walks (planAll s c need priv wr reqs).2 := by
  induction reqs generalizing s with
  | nil => exact .refl s
  | cons r rest ih => exact (planReq_walks s c need priv wr r).trans (ih _)

/-- A strip's requests keep their clocks: walks do not change the device's. -/
theorem asks_walked {s u : State} (h : s.Walks u) (t : Strip) (keys : List Nat) :
    t.asks u keys = { t with asked := t.asked.still s keys } := by
  have hc : u.clock = s.clock := by rw [h]
  rw [Strip.asks, Asked.still, Asked.still, hc]

/-! WAIT. -/

theorem waitMet_iff {c : WaitCond} {a b : Word} : waitMet c a b = true ↔ match c with
    | .eq => a = b
    | .ne => a ≠ b
    | .gen => b.toNat ≤ a.toNat
    | .ltn => a.toNat < b.toNat := by
  cases c <;> simp [waitMet]

theorem refuseIf_false (p : TrapInfo) : refuseIf false p = .ok () := rfl

/-- What a WAIT makes of its read. -/
theorem waitBody_reads {w : Seat} {c : WaitCond} {v : WAddr2} {a n : DWord} {p : Plan} {u : State}
    (ha : w.fr.pair v.a.toNat = .u a) (hn : w.fr.reg v.b.toNat = .u n) (h4 : a.toNat % 4 = 0)
    (ht : inTwinWindow a.toNat = false) (hr : w.reads a 4 = (p, u)) : waitBody c v w = .of (do
      refuseIf (p.req.cause != 0) (readTrap w.t p.req)
      if !p.waits && waitMet c (wordOf (p.read u w.g.ctx)) (loOf n) then .ok (.next (readDone u w.g p) w.t)
      else .ok (.waits (readDone u w.g p) (w.t.asks u (if p.waits then p.asks u w.g.ctx else []))
        (if rereads p.segs then .reread else .cond))) := by
  rw [waitBody, ha, hn, Val.uni, Val.uni, Seat.part, Seat.part, done_ok, done_ok, h4, ht, bne_self_eq_false]
  simp only [refuseIf_false, done_ok]
  rw [Seat.reads] at hr
  generalize planReq w.s w.g.ctx .read w.t.priv false (laneReq 0 a 4 [] []) = pu at *
  obtain ⟨q, v⟩ := pu
  cases hr
  rfl

theorem reads_walks (w : Seat) (a : DWord) (n : Nat) : w.s.Walks (w.reads a n).2 :=
  planReq_walks w.s w.g.ctx .read w.t.priv false (laneReq 0 a n [] [])

theorem wait_out {s : State} {w : Seat} {c : WaitCond} {v : WAddr2} (hi : s.issuing (.wait c v) = some w) :
    exec (.wait c v) s = .next (settle w (.wait c v) (w.form (.wait c v)) (waitBody c v w)) := by
  show execWait c v s = _
  rw [execWait, runMem_issuing hi]

/-- A word whose part waits, and keeps the clocks of what it has asked peers for. -/
theorem pends_of {i : Instr} {w : Seat} {out : Out} {d : Done} {u v : State} {keys : List Nat} {r : Reason}
    (hw : w.s.Walks v) (hout : out = .next (settle w i (w.form i) d)) (hd : d = .waits u (w.t.asks v keys) r) :
    out = .next (w.pends i u keys r) := by
  rw [hout, hd, asks_walked hw]
  rfl

/-! LAUNCH. -/

theorem launch_out {s : State} {w : Seat} {v : WAddr} (hi : s.issuing (.launch v) = some w) :
    exec (.launch v) s = .next (settle w (.launch v) (w.form (.launch v)) (launchBody v w)) := by
  show execLaunch v s = _
  rw [execLaunch, runMem_issuing hi]

/-- What a LAUNCH makes of the read of its record. -/
theorem launchBody_reads {w : Seat} {v : WAddr} {a : DWord} {p : Plan} {u : State} (ha : w.fr.pair v.a.toNat = .u a)
    (h8 : a.toNat % 8 = 0) (ht : inTwinWindow a.toNat = false) (hr : w.reads a 80 = (p, u)) : launchBody v w = .of (
      if Config.intakePlaces ≤ w.x.intake then .ok (.waits w.s w.t .intake)
      else do
        refuseIf (p.req.cause != 0) (readTrap w.t p.req)
        if p.waits then .ok (.waits u (w.t.asks u (p.asks u w.g.ctx)) .intake)
        else
          match submitRead w.t.asked (readDone u w.g p) w.g.ctx a (p.read u w.g.ctx) (some (acctOf u w.g.launch)) with
          | .got s => .ok (.next (s.mapCtx w.g.ctx fun x => { x with intake := x.intake + 1 }) w.t)
          | r => .ok (.waits u (w.t.asks u r.keys) .intake)) := by
  rw [launchBody, ha, Val.uni, Seat.part, done_ok, h8, ht, bne_self_eq_false]
  simp only [refuseIf_false, done_ok]
  rw [Seat.reads] at hr
  generalize planReq w.s w.g.ctx .read w.t.priv false (laneReq 0 a 80 [] []) = pu at *
  obtain ⟨q, v⟩ := pu
  cases hr
  rfl

/-- A submission is made or waits; it is never refused. -/
theorem submitRead_ne_refused (asked : Asked) (s : State) (c : Nat) (addr : DWord) (b : List Byte) (acct : Option Nat) :
    submitRead asked s c addr b acct ≠ .refused := by
  unfold submitRead
  dsimp only
  split <;> nofun

end Sys2Proof.Machine

namespace Sys2Proof
open Machine

/-- Settles O19: WAIT's own part is its entry's; a walk leaves the clock that its requests keep. -/
theorem waitWord : Obligations.WaitWord := by
  unfold Obligations.WaitWord
  intro s w c v a n i hi ha hn h4 ht
  have h := seat_facts hi
  have hwalks := reads_walks w a 4
  rcases hr : w.reads a 4 with ⟨p, u⟩
  rw [hr] at hwalks
  have hbody := waitBody_reads (c := c) ha hn h4 ht hr
  refine ⟨fun hc hw hm => ?_, fun hc hcase => ?_, fun hc hv => ?_⟩
  · have hm : waitMet c (wordOf (p.read u w.g.ctx)) (loOf n) = true := waitMet_iff.mpr hm
    refine passes_of h (wait_out hi) ?_
    rw [hbody, hc, hw, hm]
    rfl
  · have hm : (!p.waits && waitMet c (wordOf (p.read u w.g.ctx)) (loOf n)) = false := by
      rw [Bool.and_eq_false_iff, Bool.not_eq_false']
      exact hcase.imp id fun hm => Bool.eq_false_iff.mpr fun hm' => hm (waitMet_iff.mp hm')
    refine ⟨if rereads p.segs then .reread else .cond, ?_, ?_⟩
    · split
      · exact .inr rfl
      · exact .inl rfl
    · refine pends_of hwalks (wait_out hi) ?_
      rw [hbody, hc, hm]
      rfl
  · refine traps_of h hv (wait_out hi) ?_
    rw [hbody, bne_iff_ne.mpr hc]
    rfl

/-- Settles O22: LAUNCH's own part is its entry's. -/
theorem launchWord : Obligations.LaunchWord := by
  unfold Obligations.LaunchWord
  intro s w v a i hi ha h8 ht
  have h := seat_facts hi
  have hwalks := reads_walks w a 80
  rcases hr : w.reads a 80 with ⟨p, u⟩
  rw [hr] at hwalks
  have hbody := launchBody_reads ha h8 ht hr
  refine ⟨fun hroom hc hw x hr => ?_, fun hroom hc hw keys hr => ?_, fun hroom hc hw => ?_, fun hroom hc hv => ?_,
    fun hroom => ?_⟩
  · refine passes_of h (launch_out hi) ?_
    rw [hbody, if_neg (Nat.not_le.mpr hroom), hc, hw, hr]
    rfl
  · refine pends_of hwalks (launch_out hi) ?_
    rw [hbody, if_neg (Nat.not_le.mpr hroom), hc, hw, hr]
    rfl
  · refine pends_of hwalks (launch_out hi) ?_
    rw [hbody, if_neg (Nat.not_le.mpr hroom), hc, hw]
    rfl
  · refine traps_of h hv (launch_out hi) ?_
    rw [hbody, if_neg (Nat.not_le.mpr hroom), bne_iff_ne.mpr hc]
    rfl
  · refine again_of (launch_out hi) ?_
    rw [hbody, if_pos hroom]
    rfl

end Sys2Proof
end

section
/-! QGET in an ELECT region whose leader does not act (R46, R65, R154). -/

namespace Sys2Proof.Machine

/-- A machine in which strip 0 of gang 1 has the turn, in a launch whose header gives no registers and whose only queue is
closed. The strip is in an ELECT region, and its lanes 0 and 1 are active. -/
def electMachine : State :=
  let s := place State.reset 32 0
  { s with
    cur := .strip 1 0
    schedule := []
    launches := s.launches.map fun l => { l with hdr := { l.hdr with regs := 0 }, queues := [StageQueue.mk 1 [] true] }
    gangs := s.gangs.map fun g => { g with
      strips := g.strips.map fun t => { t with elect := some (0xFFFFFFFF, 0), active := 3 } } }

/-- The QGET into v0 to v15. -/
def getRecord : Instr := .qget false 0 none

theorem electMachine_issues : (electMachine.issuing getRecord).isSome = true := by decide

/-- The seat in which the strip issues it. -/
def electSeat : Seat := (electMachine.issuing getRecord).get electMachine_issues

theorem electMachine_issuing : electMachine.issuing getRecord = some electSeat := (Option.some_get _).symm

/-- Whether a strip of a state has trapped. -/
def State.anyTrapped (s : State) : Bool := s.gangs.any fun g => g.strips.any fun t => t.halted || t.priv

/-- The record is an L result, for which a strip without registers has no line: the word traps. -/
theorem exec_getRecord : ∃ u, exec getRecord electMachine = .next u ∧ u.anyTrapped = true := ⟨_, rfl, by decide⟩

/-- Refutes O21: where the leader of the ELECT region does not act alone, QGET's registers are in L form, and in a launch whose
header gives none it traps with ILLEGAL_OP. -/
theorem not_stageQueues : ¬ Obligations.StageQueues := by
  unfold Obligations.StageQueues
  intro h
  obtain ⟨-, hclosed, -⟩ := h.2 electMachine electSeat false 0 none ⟨1, [], true⟩ electMachine_issuing (by decide) (by rfl)
  obtain ⟨t, ht, -, -, -, hout⟩ := hclosed rfl
  obtain ⟨u, hu, htrapped⟩ := exec_getRecord
  rw [ht] at hout
  cases hu.symm.trans hout
  have hnone : (electSeat.passed getRecord electSeat.s (electSeat.onlyRegs t)).anyTrapped = false := by rfl
  exact absurd (htrapped.symm.trans hnone) (by decide)

end Sys2Proof.Machine
end

section
/-! FORK and RDV (R198, R199, R338, R355). -/

namespace Sys2Proof.Machine

theorem mapM_ok {ε α β : Type} {f : α → Except ε β} {g : α → β} {l : List α} (h : ∀ x ∈ l, f x = .ok (g x)) :
    l.mapM f = .ok (l.map g) := by
  induction l with
  | nil => rfl
  | cons x xs ih =>
    have hx := h x (List.mem_cons_self ..)
    have hxs := ih fun y hy => h y (List.mem_cons_of_mem _ hy)
    rw [List.mapM_cons, hx, done_ok, hxs, done_ok]
    rfl

/-- The sources of a FORK, where they are U. -/
theorem forkSources_ok {v : WFork} {fr : Frame} {es : Nat → DWord}
    (h : ∀ k < v.n.toNat, fr.src (if (forkByte v k).getLsbD 7 then 64 else 32) ((forkByte v k).extractLsb' 0 6).toNat = .u (es k)) :
    forkSources v fr = .ok ((List.range v.n.toNat).map es) := by
  have hmap : forkSources v fr = (List.range v.n.toNat).mapM fun k =>
      (fr.src (if (forkByte v k).getLsbD 7 then 64 else 32) ((forkByte v k).extractLsb' 0 6).toNat).uni := by
    rw [forkSources, forkRoles, List.mapM_map]
    congr 1
    funext k
    simp only [Frame.src, Function.comp]
    generalize (forkByte v k).getLsbD 7 = wide
    cases wide <;> rfl
  rw [hmap]
  exact mapM_ok fun k hk => by rw [h k (List.mem_range.mp hk)]; rfl

/-- What a word makes of a strip that frees no register and writes a U value into one. -/
theorem setReg_uniform {s : State} {i : Instr} {w : Seat} (h : SeatFacts s i w) (hr : w.l.hdr.regs ≠ 0) (d : BitVec 6)
    (x : DWord) : ∃ fr2, w.fr.setReg d.toNat (.u x) = .ok fr2 ∧ w.t.withFrame fr2 = w.onlyRegs (w.t.withFrame fr2) ∧
      Writes w ⟨32, w.slot d, fun _ => x, []⟩ (w.t.withFrame fr2) ∧
      (w.t.priv = false → w.fr.whole = true → (w.t.withFrame fr2).uniformIn [w.slot d]) := by
  obtain ⟨fr2, hok, hw⟩ := dst_writes (fr := w.fr) 32 (.u x) (.inl rfl) (seat_span h) (seat_noLines h hr) d.isLt nofun
  obtain ⟨hwrites, hrest⟩ := writes_of h (Based.refl w) (Freed.refl w.fr) hw (.inl rfl) (slot_lt w d) nofun
  obtain ⟨hfp, hgens, hpriv⟩ := seat_based h
  rw [hfp, hgens] at hrest
  refine ⟨fr2, hok, hrest, hwrites, fun hp hwh n hn => ?_⟩
  obtain ⟨fr3, hok3, -, hlo, -⟩ := dstAs_uniform (fr := w.fr) x (.inl rfl) (hpriv.trans hp) hwh d.isLt nofun
  cases hok3.symm.trans hok
  have hslot : w.slot d = d.toNat := by
    rw [Seat.slot, Frame.slot, Frame.isK, hpriv, hp]
    rfl
  rw [List.mem_singleton.mp hn, hslot]
  exact ⟨_, hlo⟩

theorem fork_out {s : State} {w : Seat} {v : WFork} (hi : s.issuing (.fork v) = some w) :
    exec (.fork v) s = .next (settle w (.fork v) (w.form (.fork v)) (forkBody v w)) := by
  show execFork v s = _
  rw [execFork, runStrip_issuing hi]

/-- A FORK's e registers. -/
theorem forkRegs_eq (n : Nat) (es : Nat → DWord) :
    (Vector.ofFn fun i : Fin 16 => ((List.range n).map es).getD i.val 0) =
      Vector.ofFn fun k : Fin 16 => if k.val < n then es k else 0 := by
  congr 1
  funext k
  by_cases hk : k.val < n
  · simp [hk]
  · simp [hk]

theorem rdv_out {s : State} {w : Seat} {v : WSrc} (hi : s.issuing (.rdv v) = some w) :
    exec (.rdv v) s = .next (settle w (.rdv v) (w.form (.rdv v)) (rdvBody v w)) := by
  show execRdv v s = _
  rw [execRdv, runStrip_issuing hi]

theorem fork_goes {s : State} {w : Seat} {v : WFork} {es : Nat → DWord} {slot : Nat} (hi : s.issuing (.fork v) = some w)
    (hes : ∀ k < v.n.toNat,
      w.fr.src (if (forkByte v k).getLsbD 7 then 64 else 32) ((forkByte v k).extractLsb' 0 6).toNat = .u (es k))
    (hslot : freeSlot w.s w.g = some slot) (hroom : classRoom w.s w.g (classOf v.cls) = true) {fr2 : Frame}
    (hok : w.fr.setReg v.d.toNat (.u ((BitVec.ofNat 32 w.g.nextToken).setWidth 64)) = .ok fr2) :
    exec (.fork v) s = .next (w.passed (.fork v)
      { w.s.mapGang w.g.id (fun g => { g with
          tokens := mapWhere (·.slot == slot) (fun k => { k with overtaken := true }) g.tokens ++
            [Token.mk (BitVec.ofNat 32 w.g.nextToken) slot w.s.nextId false false]
          nextToken := g.nextToken + 1 }) with
        progs := w.s.progs ++ [Prog.mk w.s.nextId w.g.ctx w.g.launch w.g.id w.t.idx (homeOf w.g (classOf v.cls)).1
          (classOf v.cls) (homeOf w.g (classOf v.cls)).2 (w.t.pc + (v.off.getD 0).signExtend 64)
          (Vector.ofFn fun k : Fin 16 => if k.val < v.n.toNat then es k else 0) v.scope.toNat w.t.priv w.g.replayMode
          w.t.fmt (vget w.t.gens (bitsOf w.t.mode.toNat 12 2) (Gen.mk 0 0)) .running w.s.clock false 0
          w.x.fmtTable [] [] none]
        nextId := w.s.nextId + 1 } (w.t.withFrame fr2)) := by
  have h := seat_facts hi
  obtain ⟨gd, hgd⟩ := h.gd
  have hsrg : w.fr.srg = bitsOf w.t.mode.toNat 12 2 := by rw [hgd]; rfl
  refine passes_of h (fork_out hi) ?_
  rw [forkBody, forkSources_ok hes, Seat.part, done_ok]
  simp only [hslot, hroom, hok, Seat.part, done_ok, forkRegs_eq, hsrg]
  rfl

theorem find_value {ts : List Token} {n : Word} {k : Token} (h : ts.find? (fun k => k.value == n) = some k) : k.value = n := by
  have := List.find?_some h
  exact beq_iff_eq.mp this

/-- RDV of a token that is in use. -/
theorem rdvBody_found {w : Seat} {v : WSrc} {n : DWord} {k : Token} {p : Prog} (hn : w.fr.reg v.a.toNat = .u n)
    (h0 : loOf n ≠ 0) (hk : w.g.tokens.find? (fun k => k.value == loOf n) = some k) (hp : w.s.prog? k.prog = some p) :
    rdvBody v w = .of (
      if !p.over then .ok (.waits w.s w.t .rdv)
      else
        let u := w.s.mapGang w.g.id fun g =>
          { g with tokens := mapWhere (·.value == loOf n) (fun k => { k with collected := true }) g.tokens }
        let t := w.t.withFrame (w.fr.free v.la 32 v.a.toNat)
        match p.status with
        | .stopped sub addr word =>
          if k.overtaken then .ok (.next u t) else .ok (.after u t (engineTrap t sub addr word))
        | _ => .ok (.next u t)) := by
  rw [rdvBody, hn, Val.uni, Seat.part, done_ok, if_neg h0]
  simp only [hk, hp, find_value hk] <;> rfl

/-- A word that traps after its effect. -/
theorem after_of {u : State} {i : Instr} {w : Seat} {out : Out} {d : Done} {t : Strip} {p : TrapInfo}
    (hv : w.vectors) (hu : handlerOf u w.g.ctx = handlerOf w.s w.g.ctx) (ht : t.priv = false) (hidx : t.idx = w.t.idx)
    (hout : out = .next (settle w i (w.form i) d)) (hd : d = .after u t p) :
    out = .next (w.trapped u (t.counted w.x.cfg.sstep) { p with epc := w.pcNext }) := by
  have hh : handlerOf u w.g.ctx ≠ 0 := by rw [hu]; exact hv.2
  have hp : (t.counted w.x.cfg.sstep).priv = false := ht
  have hco : w.g.coord w.l.hdr (t.counted w.x.cfg.sstep).idx = w.coord := by
    rw [Seat.coord, ← hidx]
    rfl
  rw [hout, hd]
  simp only [settle, vectorWith, landAll_priv, hp, ht, Bool.false_eq_true, if_false, if_neg hh, hco]
  rfl

section
variable {s : State} {w : Seat} {v : WSrc} {n : DWord} (hi : s.issuing (.rdv v) = some w) (hn : w.fr.reg v.a.toNat = .u n)
include hi hn

omit hn in
/-- RDV passes, in a state of its own, where it frees its source. -/
theorem rdv_sets {u : State} (hd : rdvBody v w = .next u (w.t.withFrame (w.fr.free v.la 32 v.a.toNat))) :
    w.sets (.rdv v) (exec (.rdv v) s) u (w.lastRead v.la v.a 1) id := by
  have h := seat_facts hi
  exact sets_of_freed h (freed_src w v) (passes_of h (rdv_out hi) hd)

theorem rdv_zero (h0 : loOf n = 0) : w.sets (.rdv v) (exec (.rdv v) s) w.s (w.lastRead v.la v.a 1) id := by
  refine rdv_sets hi ?_
  rw [rdvBody, hn, Val.uni, Seat.part, done_ok, if_pos h0]
  rfl

theorem rdv_unknown (h0 : loOf n ≠ 0) (hk : ∀ k ∈ w.g.tokens, k.value ≠ loOf n) (hv : w.vectors) :
    exec (.rdv v) s = .next (w.trapped w.s w.t (plainTrap w.t 0x08)) := by
  have hnone : (w.g.tokens.find? fun k => k.value == loOf n) = none := by
    rw [List.find?_eq_none]
    intro k hm
    rw [beq_iff_eq]
    exact hk k hm
  refine traps_of (seat_facts hi) hv (rdv_out hi) ?_
  rw [rdvBody, hn, Val.uni, Seat.part, done_ok, if_neg h0]
  simp only [hnone]
  rfl

end

/-- Settles O20: FORK's program and token are its entry's; RDV's cases are those of its token's program. -/
theorem forkAndRdv : Obligations.ForkAndRdv := by
  unfold Obligations.ForkAndRdv
  refine ⟨fun s w v es slot hi hes hslot hroom hr => ?_, ?_⟩
  · obtain ⟨fr2, hok, ht, hw, hu⟩ := setReg_uniform (seat_facts hi) hr v.d ((BitVec.ofNat 32 w.g.nextToken).setWidth 64)
    have htok : (BitVec.ofNat 32 w.g.nextToken).setWidth 64 = BitVec.ofNat 64 (w.g.nextToken % 2 ^ 32) := by
      apply BitVec.eq_of_toNat_eq
      simp
    rw [htok] at hw
    exact ⟨_, ht, hw, hu, fork_goes hi hes hslot hroom hok⟩
  · intro s w v n i hi hn freed
    refine ⟨fun h0 => rdv_zero hi hn h0, fun h0 hk hv => rdv_unknown hi hn h0 hk hv, fun k p h0 hk hp => ?_⟩
    have hbody := rdvBody_found (v := v) hn h0 hk hp
    intro u
    refine ⟨fun ho => ?_, fun he => ?_, fun sub addr word hs hov hv => ?_⟩
    · refine again_of (rdv_out hi) ?_
      rw [hbody, ho]
      rfl
    · have ho : p.over = true := by rw [Prog.over, he]
      refine rdv_sets hi ?_
      rw [hbody, ho, he]
      rfl
    · have h := seat_facts hi
      have ho : p.over = true := by rw [Prog.over, hs]
      obtain ⟨hkeeps, hrest⟩ := keeps_of_freed h (Based.refl w) (freed_src w v)
      obtain ⟨hfp, hgens, -⟩ := seat_based h
      rw [hfp, hgens] at hrest
      refine ⟨w.t.withFrame (w.fr.free v.la 32 v.a.toNat), hrest, hkeeps, ?_⟩
      refine after_of (p := engineTrap (w.t.withFrame (w.fr.free v.la 32 v.a.toNat)) sub addr word) hv rfl hv.1 rfl
        (rdv_out hi) ?_
      rw [hbody, ho, hs, hov]
      rfl

end Sys2Proof.Machine
end

section
/-! What the command processor's accesses and acts leave as it is (R144 to R151, R289, R371): agents, launches, and of a context
all but its slots. -/

namespace Sys2Proof.Machine

/-- A context without what the command processor's acts change. -/
def Ctx.core (x : Ctx) : Ctx := { x with slots := [], readySeq := 0, cancelSet := [] }

/-- A state after accesses to memory and acts of the command processor. -/
structure State.Acts (s u : State) : Prop where
  rest : u = { s with
    device := u.device, tier := u.tier, host := u.host, peers := u.peers
    dev := { s.dev with accounts := u.dev.accounts }, ctxs := u.ctxs, wrote := u.wrote, cpWrites := u.cpWrites
    tlb := u.tlb, walks := u.walks, tick := u.tick }
  ctxs : u.ctxs.map Ctx.core = s.ctxs.map Ctx.core
  wf : s.memoryWf = true → u.memoryWf = true

theorem State.Acts.refl (s : State) : s.Acts s := ⟨rfl, rfl, id⟩

theorem State.Acts.trans {s u v : State} (h : s.Acts u) (h' : u.Acts v) : s.Acts v := by
  refine ⟨?_, h'.ctxs.trans h.ctxs, h'.wf ∘ h.wf⟩
  rw [h'.rest, h.rest]

theorem State.Walks.acts {s u : State} (h : s.Walks u) : s.Acts u := by
  rw [h]
  exact ⟨rfl, rfl, fun hw => memoryWf_same hw rfl rfl rfl rfl⟩

/-- A fold of steps that are such acts. -/
theorem foldl_acts {α : Type} {f : State → α → State} (hf : ∀ (s : State) a, s.Acts (f s a)) (l : List α) (s : State) :
    s.Acts (l.foldl f s) := by
  induction l generalizing s with
  | nil => exact .refl s
  | cons a l ih => exact (hf s a).trans (ih _)

/-! Accounts and notes. -/

theorem charge_acts (s : State) (acct : Nat) (f : Account → Account) : s.Acts (charge s acct f) :=
  ⟨rfl, rfl, fun hw => memoryWf_same hw rfl rfl rfl rfl⟩

theorem bump_acts (s : State) (n : Nat) : s.Acts (s.bump n) := ⟨rfl, rfl, fun hw => memoryWf_same hw rfl rfl rfl rfl⟩

theorem chargeFabric_acts (s : State) (acct n : Nat) : s.Acts (chargeFabric s acct n) := by
  unfold chargeFabric
  split
  · exact .refl s
  · exact charge_acts ..

theorem noteWrote_acts (c : Nat) (bs : List Byte) (s : State) : s.Acts (noteWrote c bs s) := by
  rw [noteWrote_same]
  exact ⟨rfl, rfl, fun hw => memoryWf_same hw rfl rfl rfl rfl⟩

/-- A change of device memory that keeps its form. -/
theorem device_acts {s : State} {r : Ram} (hr : Memory.wf s.device.cells = true → Memory.wf r.cells = true) :
    s.Acts { s with device := r } :=
  ⟨rfl, rfl, fun hw => by
    obtain ⟨hd, ht, hh, hp⟩ := memoryWf_parts hw
    exact memoryWf_of (hr hd) ht hh hp⟩

theorem tier_acts {s : State} {r : Ram} (hr : Memory.wf s.tier.cells = true → Memory.wf r.cells = true) :
    s.Acts { s with tier := r } :=
  ⟨rfl, rfl, fun hw => by
    obtain ⟨hd, ht, hh, hp⟩ := memoryWf_parts hw
    exact memoryWf_of hd (hr ht) hh hp⟩

theorem claimSegs_acts (acct : Option Nat) (gs : List Seg) (s : State) : s.Acts (claimSegs acct gs s) := by
  refine foldl_acts (fun s g => ?_) gs s
  split
  · exact device_acts id
  · exact .refl s

theorem chargeDram_acts (acct : Nat) (wr : Bool) (gs : List Seg) (s : State) : s.Acts (chargeDram acct wr gs s) := by
  unfold chargeDram
  dsimp only
  split
  · exact .refl s
  · exact ((bump_acts s 1).trans (charge_acts ..)).trans (claimSegs_acts ..)

theorem chargeEnergy_acts (acct : Nat) (s : State) : s.Acts (chargeEnergy acct s) := (bump_acts s 1).trans (charge_acts ..)

theorem recallSegs_acts (bench : Option Nat) (gs : List Seg) (s : State) : s.Acts (recallSegs bench gs s) := by
  refine foldl_acts (fun s g => ?_) gs s
  split
  · exact device_acts fun h => by rwa [Ram.recall_cells]
  · exact tier_acts fun h => by rwa [Ram.recall_cells]
  · exact .refl s

/-! Writes. -/

theorem writeSegBy_acts (s : State) (c : Nat) (bench : Option Nat) (g : Seg) (bs : List Byte) :
    s.Acts (writeSegBy s c bench g bs) := by
  refine ⟨?_, ?_, writeSegBy_wf c bench g bs⟩ <;> unfold writeSegBy
  · split
    · split <;> rfl
    · rfl
    · rfl
    · split <;> rfl
  · split
    · split <;> rfl
    · rfl
    · rfl
    · split <;> rfl

theorem writeSegs_acts (c : Nat) (gs : List Seg) (bs : List Byte) (s : State) : s.Acts (writeSegs s c gs bs) := by
  induction gs generalizing s bs with
  | nil => exact .refl s
  | cons g r ih => exact ((noteWrote_acts c _ s).trans (writeSegBy_acts ..)).trans (ih _ _)

theorem unpoisonBy_acts (s : State) (c : Nat) (ps : List Plan) : s.Acts (unpoisonBy s c ps) :=
  ⟨rfl, rfl, fun hw => memoryWf_same hw (Ram.unpoison_cells ..) (Ram.unpoison_cells ..) rfl rfl⟩

theorem deviceWrite_acts (s : State) (c : Nat) (acct : Option Nat) (pa : Nat) (bs : List Byte) :
    s.Acts (deviceWrite s c acct pa bs) := by
  unfold deviceWrite
  split
  · exact .refl s
  · exact device_acts fun h => by
      rw [Ram.unpoison_cells]
      exact Ram.write_wf pa bs h

theorem logError_acts (s : State) (c kind code : Nat) (addr : DWord) (slot : Option Nat) :
    s.Acts (logError s c kind code addr slot) := by
  unfold logError
  split
  · exact .refl s
  · dsimp only
    split
    · exact .refl s
    · refine State.Acts.trans ?_ (deviceWrite_acts ..)
      split
      · exact .refl s
      · exact deviceWrite_acts ..

/-! The command processor's accesses. -/

theorem cpRead_acts (asked : Asked) (part : Nat) (acct : List Byte → Nat) (s : State) (c : Nat) (va : DWord) (n : Nat) :
    s.Acts (cpRead asked part acct s c va n).2 := by
  have hplan := (planReq_walks s c .read true false (laneReq 0 va n [] [])).acts
  unfold cpRead
  rcases hp : planReq s c .read true false (laneReq 0 va n [] []) with ⟨p, v⟩
  rw [hp] at hplan
  dsimp only
  split
  · exact ((hplan.trans (chargeFabric_acts ..)).trans (chargeDram_acts ..)).trans (recallSegs_acts ..)
  · exact hplan
  · exact hplan

theorem cpWritePlan_acts (s : State) (c : Nat) (va : DWord) (bs : List Byte) : s.Acts (cpWritePlan s c va bs).2 :=
  (planReq_walks s c .write true true (laneReq 0 va bs.length bs [])).acts

theorem cpWrite_acts (since : Option DWord) (acct : Nat) (s : State) (c : Nat) (va : DWord) (bs : List Byte) :
    s.Acts (cpWrite since acct s c va bs).2 := by
  have hplan := cpWritePlan_acts s c va bs
  unfold cpWrite
  rcases hp : cpWritePlan s c va bs with ⟨p, v⟩
  rw [hp] at hplan
  dsimp only
  split
  · exact (((hplan.trans (writeSegs_acts ..)).trans (unpoisonBy_acts ..)).trans (claimSegs_acts ..)).trans (chargeFabric_acts ..)
  · exact hplan

theorem putRecord_acts (s : State) (c : Nat) (rcd at_ : DWord) (bs : List Byte) (slot : Option Nat) (acct : Nat) :
    s.Acts (putRecord s c rcd at_ bs slot acct) := by
  have hlater (u : State) (l : List CpWrite) : u.Acts { u with cpWrites := l } :=
    ⟨rfl, rfl, fun hw => memoryWf_same hw rfl rfl rfl rfl⟩
  have hwrite := cpWrite_acts none acct s c at_ bs
  unfold putRecord
  dsimp only
  split
  · exact hlater ..
  · split <;> rename_i hw <;> rw [hw] at hwrite
    · exact hwrite
    · exact hwrite.trans (logError_acts ..)
    · exact hwrite.trans (hlater ..)

theorem writeState_acts (s : State) (c : Nat) (addr : DWord) (st : NodeState) (code : Nat) (slot : Option Nat) (acct : Nat) :
    s.Acts (writeState s c addr st code slot acct) := putRecord_acts ..

/-! Acts on a context's slots. -/

theorem mapCtx_acts (s : State) (c : Nat) {f : Ctx → Ctx} (hf : ∀ x, (f x).core = x.core) : s.Acts (s.mapCtx c f) := by
  refine ⟨rfl, ?_, fun hw => memoryWf_same hw rfl rfl rfl rfl⟩
  rw [State.mapCtx_ctxs, mapWhere, List.map_map]
  refine List.map_congr_left fun x _ => ?_
  show Ctx.core (if _ then f x else x) = _
  split
  · exact hf x
  · rfl

@[simp] theorem Ctx.core_setSlot (x : Ctx) (v : Slot) : (x.setSlot v).core = x.core := rfl

/-- A slot has a new value, and a record a new STATE. -/
theorem marked_acts (s : State) (c : Nat) (v : Slot) (addr : DWord) (st : NodeState) (code : Nat) (slot : Option Nat)
    (acct : Nat) : s.Acts (writeState (s.mapCtx c (·.setSlot v)) c addr st code slot acct) :=
  (mapCtx_acts s c (f := (·.setSlot v)) fun _ => rfl).trans (writeState_acts ..)

theorem slotAct_acts (s : State) (c : Nat) (act : SlotAct) : s.Acts (slotAct s c act).1 := by
  unfold slotAct
  split
  · exact .refl s
  next x hx =>
    cases act with
    | dec num => exact mapCtx_acts s c fun x => rfl
    | settle num =>
      dsimp only
      split
      · split
        · split
          · exact .refl s
          · split
            · exact .refl s
            · split
              · split
                · exact .refl s
                · exact mapCtx_acts s c fun x => rfl
              · exact .refl s
        · exact .refl s
      · exact .refl s
    | finish num st code =>
      dsimp only
      split
      · split
        · dsimp only
          exact marked_acts ..
        · exact .refl s
      · exact .refl s
    | cancel token =>
      dsimp only
      split
      · exact .refl s
      · exact mapCtx_acts s c fun x => rfl

theorem runActs_acts (c : Nat) (fuel : Nat) (acts : List SlotAct) (s : State) : s.Acts (runActs fuel s c acts) := by
  induction fuel generalizing acts s with
  | zero => exact .refl s
  | succ fuel ih =>
    cases acts with
    | nil => exact .refl s
    | cons a rest => exact (slotAct_acts s c a).trans (ih _ _)

theorem slotActs_acts (s : State) (c : Nat) (acts : List SlotAct) : s.Acts (slotActs s c acts) := runActs_acts ..

/-! What ends with a launch or a context (R147, R272, R294). -/

/-- A context is as it was but for its slots. -/
theorem State.Acts.ctx_core {s u : State} (h : s.Acts u) (c : Nat) : (u.ctx? c).map Ctx.core = (s.ctx? c).map Ctx.core := by
  have hfind (l : List Ctx) : (l.find? (·.id == c)).map Ctx.core = (l.map Ctx.core).find? (·.id == c) := by
    rw [List.find?_map]
    rfl
  rw [State.ctx?, State.ctx?, hfind, hfind, h.ctxs]

/-- A state after launches have ended or may end. -/
structure State.Ends (s u : State) : Prop where
  acts : { s with launches := u.launches }.Acts u

theorem State.Acts.ends {s u : State} (h : s.Acts u) : s.Ends u := by
  have hl : u.launches = s.launches := by rw [h.rest]
  exact ⟨by rw [hl]; exact h⟩

theorem State.Ends.launches {s u : State} (l : List Launch) (h : { s with launches := l }.Ends u) : s.Ends u := ⟨h.acts⟩

theorem State.Acts.withLaunches {s u : State} (h : s.Acts u) (l : List Launch) :
    { s with launches := l }.Acts { u with launches := l } := by
  refine ⟨?_, h.ctxs, h.wf⟩
  have := h.rest
  rw [this]

theorem State.Ends.trans {s u v : State} (h : s.Ends u) (h' : u.Ends v) : s.Ends v :=
  ⟨(h.acts.withLaunches v.launches).trans h'.acts⟩

theorem State.Ends.refl (s : State) : s.Ends s := (State.Acts.refl s).ends

theorem endLaunch_ends (s : State) (l : Launch) (st : NodeState) (code : Nat) : s.Ends (endLaunch s l st code) :=
  .launches (s.launches.filter (·.id != l.id)) (slotActs_acts ..).ends

theorem stopLaunch_ends (s : State) (l : Launch) (st : NodeState) (code : Nat) : s.Ends (stopLaunch s l st code) := by
  unfold stopLaunch
  split
  · exact endLaunch_ends ..
  · exact .refl s
  · exact .launches _ (.refl _)

theorem foldl_ends {α : Type} {f : State → α → State} (hf : ∀ (s : State) a, s.Ends (f s a)) (l : List α) (s : State) :
    s.Ends (l.foldl f s) := by
  induction l generalizing s with
  | nil => exact .refl s
  | cons a l ih => exact (hf s a).trans (ih _)

/-- The state in which a context is fatal, before its launches end. -/
def State.halted (s : State) (c : Nat) (r : FatalReport) : State :=
  { s.mapCtx c (fun x => { x with fatal := some r }) with
    gangs := mapWhere (·.ctx == c) (fun g => { g with place := none, saved := true }) s.gangs
    progs := mapWhere (·.ctx == c) (fun p => { p with saved := true }) s.progs
    spans := s.spans.filter (·.ctx != c) }

theorem fatalCtx_ends (s : State) (c : Nat) (r : FatalReport) (slot : Option Nat) :
    ∃ v, s.Acts v ∧ (v.halted c r).Ends (fatalCtx s c r slot) := by
  refine ⟨logError s c 4 (if r.cause = 1 then r.inner else r.cause.toNat) r.epc slot, logError_acts .., ?_⟩
  unfold fatalCtx
  dsimp only
  generalize logError s c 4 _ r.epc slot = v
  have hstop := foldl_ends (fun s l => stopLaunch_ends s l .failed 8) ((v.halted c r).launches.filter (·.ctx == c))
    (v.halted c r)
  refine hstop.trans ?_
  split
  · exact (slotActs_acts ..).ends
  · exact .refl _

theorem fatalCtx_report {s : State} {c : Nat} {x : Ctx} (hx : s.ctx? c = some x) (r : FatalReport) (slot : Option Nat) :
    ((fatalCtx s c r slot).ctx? c).bind (·.fatal) = some r := by
  obtain ⟨v, hv, hu⟩ := fatalCtx_ends s c r slot
  have hcore := hu.acts.ctx_core c
  have hvc := hv.ctx_core c
  rw [hx] at hvc
  obtain ⟨y, hy, -⟩ := Option.map_eq_some_iff.mp hvc
  have hid : (y.id == c) = true := List.find?_some (p := fun x : Ctx => x.id == c) hy
  have hhalted : (v.halted c r).ctx? c = some { y with fatal := some r } := find?_mapWhere hy hid
  have hcore : ((fatalCtx s c r slot).ctx? c).map Ctx.core = ((v.halted c r).ctx? c).map Ctx.core := hcore
  rw [hhalted] at hcore
  obtain ⟨z, hz, hzc⟩ := Option.map_eq_some_iff.mp hcore
  rw [hz]
  exact congrArg Ctx.fatal hzc

/-- The strips of a gang are as they were in a context that has become fatal. -/
theorem fatalCtx_strip (s : State) (c : Nat) (r : FatalReport) (slot : Option Nat) (gid k : Nat) :
    (fatalCtx s c r slot).strip? gid k = s.strip? gid k := by
  obtain ⟨v, hv, hu⟩ := fatalCtx_ends s c r slot
  have hgangs : (fatalCtx s c r slot).gangs =
      mapWhere (·.ctx == c) (fun g => { g with place := none, saved := true }) s.gangs := by
    rw [hu.acts.rest, State.halted, hv.rest]
  have hfind : (fatalCtx s c r slot).gang? gid = (s.gang? gid).map fun g =>
      if g.ctx == c then { g with place := none, saved := true } else g := by
    rw [State.gang?, hgangs, mapWhere, List.find?_map]
    have hid (g : Gang) : (if g.ctx == c then { g with place := none, saved := true } else g).id = g.id := by split <;> rfl
    simp only [Function.comp_def, hid]
    rfl
  rw [State.strip?, State.strip?, hfind, Option.bind_map]
  congr 1
  funext g
  simp only [Function.comp_def]
  split <;> rfl

/-! What a trap writes. -/

/-- A k register's lane has a new value. -/
def kput (k : Vector Lanes 16) (n l : Nat) (v : Word) : Vector Lanes 16 :=
  vset k n (vset (vget k n (Vector.replicate 32 0)) l v)

/-- The k registers that a trap writes. -/
def trapKregs (k : Vector Lanes 16) (p : TrapInfo) : Vector Lanes 16 :=
  p.reports.foldl (fun k (l, v) => kput k 15 l v)
    (p.kset.foldl (fun k (n, v) => (lanesOf p.lanes).foldl (fun k l => kput k n l v) k) k)

/-- A fold over a strip that changes its k registers alone. -/
theorem foldl_kregs {α : Type} {f : Strip → α → Strip} {g : Vector Lanes 16 → α → Vector Lanes 16}
    (hf : ∀ (t : Strip) a, f t a = { t with kregs := g t.kregs a }) (l : List α) (t : Strip) :
    l.foldl f t = { t with kregs := l.foldl g t.kregs } := by
  induction l generalizing t with
  | nil => rfl
  | cons a l ih => rw [List.foldl_cons, List.foldl_cons, ih, hf]

theorem writeTrapState_eq (t : Strip) (p : TrapInfo) : writeTrapState t p = { t with
    kregs := trapKregs t.kregs p
    cause := BitVec.ofNat 32 p.cause
    epc := p.epc &&& 0x01FFFFFFFFFFFFFF
    fmask := p.lanes
    faddr := Vector.ofFn fun i : Fin 32 => ((p.addrs.find? (·.1 == i.val)).map (·.2)).getD 0 } := by
  have hlane (n : Nat) (v : Word) (t : Strip) := foldl_kregs (g := fun k l => kput k n l v)
    (f := fun t l => { t with kregs := kput t.kregs n l v }) (fun t a => rfl) (lanesOf p.lanes) t
  have hset := foldl_kregs (g := fun k (x : Nat × Word) => (lanesOf p.lanes).foldl (fun k l => kput k x.1 l x.2) k)
    (f := fun t (x : Nat × Word) => (lanesOf p.lanes).foldl (fun t l => { t with kregs := kput t.kregs x.1 l x.2 }) t)
    (fun t x => hlane x.1 x.2 t) p.kset t
  have hreports := foldl_kregs (g := fun k (x : Nat × Word) => kput k 15 x.1 x.2)
    (f := fun t (x : Nat × Word) => { t with kregs := kput t.kregs 15 x.1 x.2 }) (fun t x => rfl) p.reports
  show ({ (p.reports.foldl (fun t (x : Nat × Word) => { t with kregs := kput t.kregs 15 x.1 x.2 })
    (p.kset.foldl (fun t (x : Nat × Word) =>
      (lanesOf p.lanes).foldl (fun t l => { t with kregs := kput t.kregs x.1 l x.2 }) t) t)) with
      cause := _, epc := _, fmask := _, faddr := _ } : Strip) = _
  rw [hset, hreports]
  rfl

theorem haltStrip_eq (s : State) (g : Gang) (t : Strip) (p : TrapInfo) (inner : Nat) :
    ∃ v : Strip, v.idx = t.idx ∧ v.halted = true ∧ haltStrip s g t p inner = fatalCtx (s.setStrip g.id v) g.ctx
      (FatalReport.mk (BitVec.ofNat 32 p.cause) (p.epc &&& 0x01FFFFFFFFFFFFFF) p.lanes inner) (slotOf s g.launch) := by
  let q : TrapInfo := { p with kset := if (if inner = 0 then p.cause else inner) = 0x30 then p.kset else [], reports := [] }
  have hq := writeTrapState_eq t q
  refine ⟨{ writeTrapState t q with halted := true, wait := .none, parked := false }, ?_, rfl, ?_⟩
  · rw [hq]
  · show fatalCtx _ g.ctx (FatalReport.mk (writeTrapState t q).cause (writeTrapState t q).epc (writeTrapState t q).fmask inner)
      _ = _
    rw [hq]

/-- A strip that halts: its context is fatal with a report, and it is noted as halted. -/
theorem haltStrip_reports {s : State} {g : Gang} {t u : Strip} {x : Ctx} (p : TrapInfo) (inner : Nat)
    (hx : s.ctx? g.ctx = some x) (ht : s.strip? g.id t.idx = some u) :
    ((haltStrip s g t p inner).ctx? g.ctx).bind (·.fatal) =
        some (FatalReport.mk (BitVec.ofNat 32 p.cause) (p.epc &&& 0x01FFFFFFFFFFFFFF) p.lanes inner) ∧
      ((haltStrip s g t p inner).strip? g.id t.idx).any (·.halted) = true := by
  obtain ⟨v, hidx, hhalted, he⟩ := haltStrip_eq s g t p inner
  rw [he]
  refine ⟨fatalCtx_report (s := s.setStrip g.id v) (x := x) (by exact hx) _ _, ?_⟩
  rw [fatalCtx_strip, ← hidx, State.strip?_setStrip (u := u) (hidx ▸ ht)]
  exact hhalted

end Sys2Proof.Machine
end

section
/-! How any word issues in a strip, whatever becomes of it (R39, R91 to R93, R262 to R266). -/

namespace Sys2Proof.Machine

/-- What becomes of a word of a strip with the turn. -/
def Seat.issues (w : Seat) (s : State) (i : Instr) (spots : Seat → List (Nat × Nat)) (body : Seat → Done) : State :=
  let stop (own : Option TrapInfo) : State := stopStrip s w.g w.t w.l.hdr own w.t.pc
  if !w.encoded i then stop (some (plainTrap w.t 0x08))
  else
    match earlyTrap w i (w.form i) (w.guard i) body with
    | some p => stop (some p)
    | none =>
      let skip := w.fr.active == 0
      if stopsAtQueue w (w.form i) i skip (spots w) then stop (if skip then none else ownTrap (body w))
      else if skip then
        finishIssue s w.g { w.t with pc := w.pcNext, gens := passedGens w.fr i } w.l.hdr w.x.cfg.sstep (w.ends i)
      else if w.locked i then w.again i s .lock
      else if w.unreleased i then w.again i s .ack
      else settle w i (w.form i) (body w)

/-- A word that is no engine word, whatever has the turn: a strip issues it, a span does something of its own, and an engine
program stops at it. -/
def runWord (i : Instr) (spots : Seat → List (Nat × Nat)) (body : Seat → Done) (inSpan : State → Nat → State) (s : State) : Out :=
  match s.cur with
  | .nobody => .fault .noIssuer
  | .strip g k => .next (issueStrip s g k i spots body)
  | .span n => .next (inSpan s n)
  | .prog n => .next (foreignWord s n i)

theorem runAlu_eq (i : Instr) (f : Info → Frame → Do Frame) (s : State) : runAlu i f s =
    runWord i (fun _ => []) (fun w => w.done (f w.info w.fr)) (fun s n => issueSpan s n i (some f)) s := rfl

theorem runStrip_eq (i : Instr) (body : Seat → Done) (s : State) :
    runStrip i body s = runWord i (fun _ => []) body (fun s n => issueSpan s n i none) s := rfl

theorem runMem_eq (i : Instr) (spots : Seat → List (Nat × Nat)) (body : Seat → Done) (s : State) :
    runMem i spots body s = runWord i spots body (fun s n => issueSpan s n i none) s := rfl

theorem runBoth_eq (i : Instr) (inSpan : State → Nat → State) (body : Seat → Done) (s : State) :
    runBoth i inSpan body s = runWord i (fun _ => []) body inSpan s := rfl

/-- Every word but the engine words is run so. -/
theorem exec_word {i : Instr} (he : isEvent i = false) (hn : isEngineWord i = false) :
    ∃ spots body inSpan, ∀ s, exec i s = runWord i spots body inSpan s := by
  cases i
  case add t w => exact ⟨_, _, _, fun s => (runAlu_eq _ _ s : execAdd t w s = _)⟩
  case sub t w => exact ⟨_, _, _, fun s => (runAlu_eq _ _ s : execSub t w s = _)⟩
  case mul t w => exact ⟨_, _, _, fun s => (runAlu_eq _ _ s : execMul t w s = _)⟩
  case mulh t w => exact ⟨_, _, _, fun s => (runAlu_eq _ _ s : execMulh t w s = _)⟩
  case min t w => exact ⟨_, _, _, fun s => (runAlu_eq _ _ s : execMin t w s = _)⟩
  case max t w => exact ⟨_, _, _, fun s => (runAlu_eq _ _ s : execMax t w s = _)⟩
  case addc t w => exact ⟨_, _, _, fun s => (runAlu_eq _ _ s : execAddc t w s = _)⟩
  case mad t w => exact ⟨_, _, _, fun s => (runAlu_eq _ _ s : execMad t w s = _)⟩
  case addG u w => exact ⟨_, _, _, fun s => (runAlu_eq _ _ s : execAddG u w s = _)⟩
  case subG u w => exact ⟨_, _, _, fun s => (runAlu_eq _ _ s : execSubG u w s = _)⟩
  case mulG u w => exact ⟨_, _, _, fun s => (runAlu_eq _ _ s : execMulG u w s = _)⟩
  case mulhG u w => exact ⟨_, _, _, fun s => (runAlu_eq _ _ s : execMulhG u w s = _)⟩
  case minG u w => exact ⟨_, _, _, fun s => (runAlu_eq _ _ s : execMinG u w s = _)⟩
  case maxG u w => exact ⟨_, _, _, fun s => (runAlu_eq _ _ s : execMaxG u w s = _)⟩
  case addcG u w => exact ⟨_, _, _, fun s => (runAlu_eq _ _ s : execAddcG u w s = _)⟩
  case madG u w => exact ⟨_, _, _, fun s => (runAlu_eq _ _ s : execMadG u w s = _)⟩
  case and w => exact ⟨_, _, _, fun s => (runAlu_eq _ _ s : execAnd w s = _)⟩
  case or w => exact ⟨_, _, _, fun s => (runAlu_eq _ _ s : execOr w s = _)⟩
  case xor w => exact ⟨_, _, _, fun s => (runAlu_eq _ _ s : execXor w s = _)⟩
  case andn w => exact ⟨_, _, _, fun s => (runAlu_eq _ _ s : execAndn w s = _)⟩
  case shl w => exact ⟨_, _, _, fun s => (runAlu_eq _ _ s : execShl w s = _)⟩
  case shr w => exact ⟨_, _, _, fun s => (runAlu_eq _ _ s : execShr w s = _)⟩
  case sar w => exact ⟨_, _, _, fun s => (runAlu_eq _ _ s : execSar w s = _)⟩
  case andG w => exact ⟨_, _, _, fun s => (runAlu_eq _ _ s : execAndG w s = _)⟩
  case orG w => exact ⟨_, _, _, fun s => (runAlu_eq _ _ s : execOrG w s = _)⟩
  case xorG w => exact ⟨_, _, _, fun s => (runAlu_eq _ _ s : execXorG w s = _)⟩
  case andnG w => exact ⟨_, _, _, fun s => (runAlu_eq _ _ s : execAndnG w s = _)⟩
  case shlG w => exact ⟨_, _, _, fun s => (runAlu_eq _ _ s : execShlG w s = _)⟩
  case shrG w => exact ⟨_, _, _, fun s => (runAlu_eq _ _ s : execShrG w s = _)⟩
  case sarG w => exact ⟨_, _, _, fun s => (runAlu_eq _ _ s : execSarG w s = _)⟩
  case popc w => exact ⟨_, _, _, fun s => (runAlu_eq _ _ s : execPopc w s = _)⟩
  case clz w => exact ⟨_, _, _, fun s => (runAlu_eq _ _ s : execClz w s = _)⟩
  case brev w => exact ⟨_, _, _, fun s => (runAlu_eq _ _ s : execBrev w s = _)⟩
  case bfx w => exact ⟨_, _, _, fun s => (runAlu_eq _ _ s : execBfx w s = _)⟩
  case bfi w => exact ⟨_, _, _, fun s => (runAlu_eq _ _ s : execBfi w s = _)⟩
  case prmt w => exact ⟨_, _, _, fun s => (runAlu_eq _ _ s : execPrmt w s = _)⟩
  case lea w => exact ⟨_, _, _, fun s => (runAlu_eq _ _ s : execLea w s = _)⟩
  case sel w => exact ⟨_, _, _, fun s => (runAlu_eq _ _ s : execSel w s = _)⟩
  case icmp c w => exact ⟨_, _, _, fun s => (runAlu_eq _ _ s : execIcmp c w s = _)⟩
  case icmpG c w => exact ⟨_, _, _, fun s => (runAlu_eq _ _ s : execIcmpG c w s = _)⟩
  case addi w => exact ⟨_, _, _, fun s => (runAlu_eq _ _ s : execAddi w s = _)⟩
  case muli w => exact ⟨_, _, _, fun s => (runAlu_eq _ _ s : execMuli w s = _)⟩
  case andi w => exact ⟨_, _, _, fun s => (runAlu_eq _ _ s : execAndi w s = _)⟩
  case ori w => exact ⟨_, _, _, fun s => (runAlu_eq _ _ s : execOri w s = _)⟩
  case xori w => exact ⟨_, _, _, fun s => (runAlu_eq _ _ s : execXori w s = _)⟩
  case shli w => exact ⟨_, _, _, fun s => (runAlu_eq _ _ s : execShli w s = _)⟩
  case shri w => exact ⟨_, _, _, fun s => (runAlu_eq _ _ s : execShri w s = _)⟩
  case sari w => exact ⟨_, _, _, fun s => (runAlu_eq _ _ s : execSari w s = _)⟩
  case movi w => exact ⟨_, _, _, fun s => (runAlu_eq _ _ s : execMovi w s = _)⟩
  case addiG w => exact ⟨_, _, _, fun s => (runAlu_eq _ _ s : execAddiG w s = _)⟩
  case moviG w => exact ⟨_, _, _, fun s => (runAlu_eq _ _ s : execMoviG w s = _)⟩
  case mov w => exact ⟨_, _, _, fun s => (runAlu_eq _ _ s : execMov w s = _)⟩
  case mku w => exact ⟨_, _, _, fun s => (runStrip_eq _ _ s : execMku w s = _)⟩
  case movs w => exact ⟨_, _, _, fun s => (runAlu_eq _ _ s : execMovs w s = _)⟩
  case pmovToReg w => exact ⟨_, _, _, fun s => (runAlu_eq _ _ s : execPmovToReg w s = _)⟩
  case pmovToPred w => exact ⟨_, _, _, fun s => (runAlu_eq _ _ s : execPmovToPred w s = _)⟩
  case movG w => exact ⟨_, _, _, fun s => (runAlu_eq _ _ s : execMovG w s = _)⟩
  case movsG w => exact ⟨_, _, _, fun s => (runAlu_eq _ _ s : execMovsG w s = _)⟩
  case plop st pd pa pb t x => exact ⟨_, _, _, fun s => (runAlu_eq _ _ s : execPlop st pd pa pb t x s = _)⟩
  case fadd f w => exact ⟨_, _, _, fun s => (runAlu_eq _ _ s : execFadd f w s = _)⟩
  case fsub f w => exact ⟨_, _, _, fun s => (runAlu_eq _ _ s : execFsub f w s = _)⟩
  case fmul f w => exact ⟨_, _, _, fun s => (runAlu_eq _ _ s : execFmul f w s = _)⟩
  case fmin f w => exact ⟨_, _, _, fun s => (runAlu_eq _ _ s : execFmin f w s = _)⟩
  case fmax f w => exact ⟨_, _, _, fun s => (runAlu_eq _ _ s : execFmax f w s = _)⟩
  case ffma f w => exact ⟨_, _, _, fun s => (runAlu_eq _ _ s : execFfma f w s = _)⟩
  case fscl f w => exact ⟨_, _, _, fun s => (runAlu_eq _ _ s : execFscl f w s = _)⟩
  case fcmp f c w => exact ⟨_, _, _, fun s => (runAlu_eq _ _ s : execFcmp f c w s = _)⟩
  case frcp w => exact ⟨_, _, _, fun s => (runAlu_eq _ _ s : execFrcp w s = _)⟩
  case frsq w => exact ⟨_, _, _, fun s => (runAlu_eq _ _ s : execFrsq w s = _)⟩
  case fsqrt w => exact ⟨_, _, _, fun s => (runAlu_eq _ _ s : execFsqrt w s = _)⟩
  case fexp2 w => exact ⟨_, _, _, fun s => (runAlu_eq _ _ s : execFexp2 w s = _)⟩
  case flog2 w => exact ⟨_, _, _, fun s => (runAlu_eq _ _ s : execFlog2 w s = _)⟩
  case fsin w => exact ⟨_, _, _, fun s => (runAlu_eq _ _ s : execFsin w s = _)⟩
  case fcos w => exact ⟨_, _, _, fun s => (runAlu_eq _ _ s : execFcos w s = _)⟩
  case ftanh w => exact ⟨_, _, _, fun s => (runAlu_eq _ _ s : execFtanh w s = _)⟩
  case fclass w => exact ⟨_, _, _, fun s => (runAlu_eq _ _ s : execFclass w s = _)⟩
  case frnd w => exact ⟨_, _, _, fun s => (runAlu_eq _ _ s : execFrnd w s = _)⟩
  case cvt fn w => exact ⟨_, _, _, fun s => (runAlu_eq _ _ s : execCvt fn w s = _)⟩
  case vdot w => exact ⟨_, _, _, fun s => (runAlu_eq _ _ s : execVdot w s = _)⟩
  case shfl op w => exact ⟨_, _, _, fun s => (runStrip_eq _ _ s : execShfl op w s = _)⟩
  case voteAll w => exact ⟨_, _, _, fun s => (runStrip_eq _ _ s : execVoteAll w s = _)⟩
  case voteAny w => exact ⟨_, _, _, fun s => (runStrip_eq _ _ s : execVoteAny w s = _)⟩
  case voteMask w => exact ⟨_, _, _, fun s => (runStrip_eq _ _ s : execVoteMask w s = _)⟩
  case voteSame w => exact ⟨_, _, _, fun s => (runStrip_eq _ _ s : execVoteSame w s = _)⟩
  case reap op w => exact ⟨_, _, _, fun s => (runStrip_eq _ _ s : execReap op w s = _)⟩
  case rng fn w => exact ⟨_, _, _, fun s => (runStrip_eq _ _ s : execRng fn w s = _)⟩
  case ld w => exact ⟨_, _, _, fun s => (runMem_eq _ _ _ s : execLd w s = _)⟩
  case st w => exact ⟨_, _, _, fun s => (runMem_eq _ _ _ s : execSt w s = _)⟩
  case lds w => exact ⟨_, _, _, fun s => (runStrip_eq _ _ s : execLds w s = _)⟩
  case sts w => exact ⟨_, _, _, fun s => (runStrip_eq _ _ s : execSts w s = _)⟩
  case atom w => exact ⟨_, _, _, fun s => (runMem_eq _ _ _ s : execAtom w s = _)⟩
  case atoms w => exact ⟨_, _, _, fun s => (runStrip_eq _ _ s : execAtoms w s = _)⟩
  case cas w => exact ⟨_, _, _, fun s => (runMem_eq _ _ _ s : execCas w s = _)⟩
  case pref w => exact ⟨_, _, _, fun s => (runStrip_eq _ _ s : execPref w s = _)⟩
  case ldt w => exact ⟨_, _, _, fun s => (runMem_eq _ _ _ s : execLdt w s = _)⟩
  case stt w => exact ⟨_, _, _, fun s => (runMem_eq _ _ _ s : execStt w s = _)⟩
  case stash w => exact ⟨_, _, _, fun s => (runMem_eq _ _ _ s : execStash w s = _)⟩
  case mma w => exact ⟨_, _, _, fun s => (runStrip_eq _ _ s : execMma w s = _)⟩
  case smma w => exact ⟨_, _, _, fun s => (runStrip_eq _ _ s : execSmma w s = _)⟩
  case accrd w => exact ⟨_, _, _, fun s => (runStrip_eq _ _ s : execAccrd w s = _)⟩
  case accrdZero w => exact ⟨_, _, _, fun s => (runStrip_eq _ _ s : execAccrdZero w s = _)⟩
  case accwr w => exact ⟨_, _, _, fun s => (runStrip_eq _ _ s : execAccwr w s = _)⟩
  case accwrZero st acc x => exact ⟨_, _, _, fun s => (runStrip_eq _ _ s : execAccwrZero st acc x s = _)⟩
  case ldG w => exact ⟨_, _, _, fun s => (runMem_eq _ _ _ s : execLdG w s = _)⟩
  case stG w => exact ⟨_, _, _, fun s => (runMem_eq _ _ _ s : execStG w s = _)⟩
  case bra st p neg off lit => exact ⟨_, _, _, fun s => (runBoth_eq _ _ _ s : execBra st p neg off lit s = _)⟩
  case join st => exact ⟨_, _, _, fun s => (runBoth_eq _ _ _ s : execJoin st s = _)⟩
  case call st off lit => exact ⟨_, _, _, fun s => (runStrip_eq _ _ s : execCall st off lit s = _)⟩
  case ret st => exact ⟨_, _, _, fun s => (runStrip_eq _ _ s : execRet st s = _)⟩
  case jmpi w => exact ⟨_, _, _, fun s => (runStrip_eq _ _ s : execJmpi w s = _)⟩
  case exit st x => exact ⟨_, _, _, fun s => (runBoth_eq _ _ _ s : execExit st x s = _)⟩
  case barSync st n x => exact ⟨_, _, _, fun s => (runStrip_eq _ _ s : execBarSync st n x s = _)⟩
  case barArrive st n x => exact ⟨_, _, _, fun s => (runStrip_eq _ _ s : execBarArrive st n x s = _)⟩
  case barWait st n x => exact ⟨_, _, _, fun s => (runStrip_eq _ _ s : execBarWait st n x s = _)⟩
  case elect st => exact ⟨_, _, _, fun s => (runStrip_eq _ _ s : execElect st s = _)⟩
  case elend st => exact ⟨_, _, _, fun s => (runStrip_eq _ _ s : execElend st s = _)⟩
  case fork w => exact ⟨_, _, _, fun s => (runStrip_eq _ _ s : execFork w s = _)⟩
  case rdv w => exact ⟨_, _, _, fun s => (runStrip_eq _ _ s : execRdv w s = _)⟩
  case fence w => exact ⟨_, _, _, fun s => (runStrip_eq _ _ s : execFence w s = _)⟩
  case tfence st => exact ⟨_, _, _, fun s => (runStrip_eq _ _ s : execTfence st s = _)⟩
  case wait c w => exact ⟨_, _, _, fun s => (runMem_eq _ _ _ s : execWait c w s = _)⟩
  case nop st => exact ⟨_, _, _, fun s => (runAlu_eq _ _ s : execNop st s = _)⟩
  case trap st imm lit => exact ⟨_, _, _, fun s => (runStrip_eq _ _ s : execTrap st imm lit s = _)⟩
  case fmtset w => exact ⟨_, _, _, fun s => (runStrip_eq _ _ s : execFmtset w s = _)⟩
  case fmtget w => exact ⟨_, _, _, fun s => (runAlu_eq _ _ s : execFmtget w s = _)⟩
  case fmtselSlot st code n x => exact ⟨_, _, _, fun s => (runAlu_eq _ _ s : execFmtselSlot st code n x s = _)⟩
  case fmtselReg w => exact ⟨_, _, _, fun s => (runAlu_eq _ _ s : execFmtselReg w s = _)⟩
  case modeset w => exact ⟨_, _, _, fun s => (runAlu_eq _ _ s : execModeset w s = _)⟩
  case modesetRm st rm x => exact ⟨_, _, _, fun s => (runAlu_eq _ _ s : execModesetRm st rm x s = _)⟩
  case modesetClr w => exact ⟨_, _, _, fun s => (runAlu_eq _ _ s : execModesetClr w s = _)⟩
  case ckpt w => exact ⟨_, _, _, fun s => (runMem_eq _ _ _ s : execCkpt w s = _)⟩
  case replay w => exact ⟨_, _, _, fun s => (runMem_eq _ _ _ s : execReplay w s = _)⟩
  case replend st => exact ⟨_, _, _, fun s => (runStrip_eq _ _ s : execReplend st s = _)⟩
  case qput st d stage x => exact ⟨_, _, _, fun s => (runStrip_eq _ _ s : execQput st d stage x s = _)⟩
  case qget st d x => exact ⟨_, _, _, fun s => (runStrip_eq _ _ s : execQget st d x s = _)⟩
  case launch w => exact ⟨_, _, _, fun s => (runMem_eq _ _ _ s : execLaunch w s = _)⟩
  case icinv w => exact ⟨_, _, _, fun s => (runStrip_eq _ _ s : execIcinv w s = _)⟩
  case cflush w => exact ⟨_, _, _, fun s => (runMem_eq _ _ _ s : execCflush w s = _)⟩
  case cflushInv w => exact ⟨_, _, _, fun s => (runMem_eq _ _ _ s : execCflushInv w s = _)⟩
  case rngseed g w => exact ⟨_, _, _, fun s => (runStrip_eq _ _ s : execRngseed g w s = _)⟩
  case bwsetMem w => exact ⟨_, _, _, fun s => (runStrip_eq _ _ s : execBwsetMem w s = _)⟩
  case bwsetLink w => exact ⟨_, _, _, fun s => (runStrip_eq _ _ s : execBwsetLink w s = _)⟩
  case tret st => exact ⟨_, _, _, fun s => (runStrip_eq _ _ s : execTret st s = _)⟩
  case rqrel st => exact ⟨_, _, _, fun s => (runStrip_eq _ _ s : execRqrel st s = _)⟩
  case pgmapL0 w => exact ⟨_, _, _, fun s => (runStrip_eq _ _ s : execPgmapL0 w s = _)⟩
  case pgmapL1 w => exact ⟨_, _, _, fun s => (runStrip_eq _ _ s : execPgmapL1 w s = _)⟩
  case tlbinv w => exact ⟨_, _, _, fun s => (runStrip_eq _ _ s : execTlbinv w s = _)⟩
  case tlbinvCtx st x => exact ⟨_, _, _, fun s => (runStrip_eq _ _ s : execTlbinvCtx st x s = _)⟩
  case tlbinvAll st x => exact ⟨_, _, _, fun s => (runStrip_eq _ _ s : execTlbinvAll st x s = _)⟩
  case harvest w => exact ⟨_, _, _, fun s => (runStrip_eq _ _ s : execHarvest w s = _)⟩
  case setsr w => exact ⟨_, _, _, fun s => (runStrip_eq _ _ s : execSetsr w s = _)⟩
  case cpy => cases hn
  case rdst => cases hn
  case merge => cases hn
  case tmma => cases hn
  case smv => cases hn
  case coll => cases hn
  case ewait => cases hn
  case eloop => cases hn
  case eend => cases hn
  case esig => cases hn
  all_goals cases he

/-- The engine words. -/
theorem exec_engine {i : Instr} (hn : isEngineWord i = true) : ∃ body, ∀ s, exec i s = runEngine i body s := by
  cases i
  case cpy dims cv sg ss w => exact ⟨_, fun s => (rfl : execCpy dims cv sg ss w s = _)⟩
  case rdst bd w => exact ⟨_, fun s => (rfl : execRdst bd w s = _)⟩
  case merge ea eb ec => exact ⟨_, fun s => (rfl : execMerge ea eb ec s = _)⟩
  case tmma ovw w => exact ⟨_, fun s => (rfl : execTmma ovw w s = _)⟩
  case smv wide w => exact ⟨_, fun s => (rfl : execSmv wide w s = _)⟩
  case coll op red ea eb ec => exact ⟨_, fun s => (rfl : execColl op red ea eb ec s = _)⟩
  case ewait ea eb cond => exact ⟨_, fun s => (rfl : execEwait ea eb cond s = _)⟩
  case eloop ea off => exact ⟨_, fun s => (rfl : execEloop ea off s = _)⟩
  case eend => exact ⟨_, fun s => (rfl : execEend s = _)⟩
  case esig ea eb => exact ⟨_, fun s => (rfl : execEsig ea eb s = _)⟩
  all_goals cases hn

section
variable {s : State} {i : Instr} {w : Seat} (h : s.turned i = some w)
include h

theorem issueStrip_turned (spots : Seat → List (Nat × Nat)) (body : Seat → Done) :
    ∃ gid k, s.cur = .strip gid k ∧ issueStrip s gid k i spots body = w.issues s i spots body := by
  obtain ⟨gid, k, g, t, l, x, ht⟩ := turned_facts h
  refine ⟨gid, k, ht.cur, ?_⟩
  rw [issueStrip, ht.gang]
  simp only [ht.strip, ht.launch, ht.ctx, ht.ready, if_true]
  rw [ht.seat]
  rfl

theorem runWord_turned (spots : Seat → List (Nat × Nat)) (body : Seat → Done) (inSpan : State → Nat → State) :
    runWord i spots body inSpan s = .next (w.issues s i spots body) := by
  obtain ⟨gid, k, hc, hissue⟩ := issueStrip_turned h spots body
  rw [runWord, hc, ← hissue]

theorem runAlu_turned (f : Info → Frame → Do Frame) :
    runAlu i f s = .next (w.issues s i (fun _ => []) fun w => w.done (f w.info w.fr)) :=
  (runAlu_eq i f s).trans (runWord_turned h _ _ _)

theorem runEngine_turned (body : State → Prog → State) :
    runEngine i body s = .next (w.issues s i (fun _ => []) fun w => .trap (plainTrap w.t 0x08)) := by
  obtain ⟨gid, k, hc, hissue⟩ := issueStrip_turned h (fun _ => []) fun w => .trap (plainTrap w.t 0x08)
  rw [runEngine, hc, ← hissue]

/-- A word of a strip issues with a part of its own. -/
theorem exec_turned (he : isEvent i = false) : ∃ spots body, exec i s = .next (w.issues s i spots body) := by
  cases hn : isEngineWord i with
  | false =>
    obtain ⟨spots, body, inSpan, hrun⟩ := exec_word he hn
    exact ⟨spots, body, (hrun s).trans (runWord_turned h spots body inSpan)⟩
  | true =>
    obtain ⟨body, hrun⟩ := exec_engine hn
    exact ⟨_, _, (hrun s).trans (runEngine_turned h body)⟩

end

/-! What issue looks at before a word's own part. -/

section
variable {s : State} {i : Instr} {w : Seat} (h : s.turned i = some w)
include h

theorem turned_wait : w.t.wait = .none := by
  obtain ⟨gid, k, g, t, l, x, ht⟩ := turned_facts h
  rw [ht.seat]
  rfl

theorem turned_parked : w.t.parked = false := by
  obtain ⟨gid, k, g, t, l, x, ht⟩ := turned_facts h
  rw [ht.seat]
  exact (stripReady_wait ht.ready : t.parked = false)

/-- The state in which a word of a strip works differs by the clock from the one in which it issues. -/
theorem turned_state : w.s = if w.t.outstanding.isEmpty then s else s.bump 262144 := by
  obtain ⟨gid, k, g, t, l, x, ht⟩ := turned_facts h
  rw [ht.seat]
  rfl

theorem turned_handler : handlerOf w.s w.g.ctx = handlerOf s w.g.ctx := by
  rw [turned_state h]
  split <;> rfl

/-- A strip with the turn whose word is allowed, takes lanes, and meets no replay queue has the seat of a word that issues. -/
theorem turned_seatFacts (ha : w.allowed i = true) (hc : w.t.priv = true ∨ w.t.replay = []) (hl : w.fr.active ≠ 0) :
    SeatFacts s i w := by
  have hwait := turned_wait h
  have hparked := turned_parked h
  have hstate := turned_state h
  simp only [Seat.allowed, Bool.and_eq_true, Bool.or_eq_true, Bool.not_eq_true'] at ha
  obtain ⟨⟨-, hlegal⟩, hmode⟩ := ha
  obtain ⟨gid, k, g, t, l, x, ht⟩ := turned_facts h
  refine ⟨hwait, hparked, hc, hlegal, hl, fun hp => ?_, hstate, ?_, ?_⟩
  · rcases hmode with hm | hm
    · cases hp.symm.trans hm
    · exact hm
  · rw [ht.seat]
    rfl
  · rw [ht.seat]
    exact ⟨_, rfl⟩

end

theorem unevenGuard_eq (w : Seat) (i : Instr) : unevenGuard (w.form i) i (w.guard i) = w.unevenG i := by
  rw [Seat.unevenG]
  cases w.guard i <;> simp [unevenGuard]

/-- A strip without parked accesses in user mode, or in supervisor mode, does not stop at its queue. -/
theorem stopsAtQueue_calm {w : Seat} (hc : w.t.priv = true ∨ w.t.replay = []) (f : Form) (i : Instr) (skip : Bool)
    (spots : List (Nat × Nat)) : stopsAtQueue w f i skip spots = false := by
  rcases hc with hc | hc <;> simp [stopsAtQueue, hc]

/-- A user-mode strip without parked accesses that stops takes its own trap. -/
theorem stop_trapped {s : State} {w : Seat} (hp : w.t.priv = false) (hh : handlerOf s w.g.ctx ≠ 0) (hr : w.t.replay = [])
    (p : TrapInfo) : stopStrip s w.g w.t w.l.hdr (some p) w.t.pc = w.trapped s w.t p := by
  have hq : parkedTrap w.t.live w.t.pc w.t.replay = none := by rw [hr]; rfl
  simp only [stopStrip, hp, hq, trapTaken, vectorWith, Bool.false_eq_true, if_false, landAll_priv, if_neg hh, Seat.trapped,
    Seat.coord]
  rfl

/-- A word under a guard that leaves no lane passes. -/
theorem finish_passed {s : State} {i : Instr} {w : Seat} (h : s.turned i = some w)
    (hc : w.t.priv = true ∨ w.t.replay = []) (g : Vector Gen 4) :
    finishIssue s w.g { w.t with pc := w.pcNext, gens := g } w.l.hdr w.x.cfg.sstep (w.ends i) =
      w.passed i s { w.t with gens := g } := by
  have hpass := settle_next (u := s) (i := i) (w := w) { w.t with gens := g } (turned_wait h) (turned_parked h) hc
  have hq : (!w.t.priv && decide (8 < w.t.queued)) = false := by
    rcases hc with hc | hc <;> simp [Strip.queued, turned_wait h, hc]
  rw [← hpass]
  simp only [settle]
  rw [if_neg (by simpa [Strip.queued] using hq)]
  rfl

section
variable {s : State} {i : Instr} {w : Seat} {spots : Seat → List (Nat × Nat)} {body : Seat → Done}

theorem skip_of_lanes (hl : w.fr.active ≠ 0) : (w.fr.active == 0) = false := by simpa using hl

theorem skip_of_none (hl : w.fr.active = 0) : (w.fr.active == 0) = true := by simp [hl]

/-- A word whose encoding is illegal, for its gang too, or that is privileged in user mode, has that fate first. -/
theorem issues_early {p : TrapInfo} (he : w.encoded i = true) (hp : earlyTrap w i (w.form i) (w.guard i) body = some p) :
    w.issues s i spots body = stopStrip s w.g w.t w.l.hdr (some p) w.t.pc := by
  simp only [Seat.issues, he, hp, Bool.not_true, Bool.false_eq_true, if_false]

theorem issues_illegal (he : w.encoded i = false) :
    w.issues s i spots body = stopStrip s w.g w.t w.l.hdr (some (plainTrap w.t 0x08)) w.t.pc := by
  simp only [Seat.issues, he, Bool.not_false, if_true]

theorem early_unlawful (hl : w.fr.active ≠ 0) (hf : (w.form i).legal = false) :
    earlyTrap w i (w.form i) (w.guard i) body = some (plainTrap w.t 0x08) := by
  rw [earlyTrap, skip_of_lanes hl, hf]
  rfl

theorem early_privileged (hl : w.fr.active ≠ 0) (hf : (w.form i).legal = true) (hp : privileged i = true)
    (hu : w.t.priv = false) : earlyTrap w i (w.form i) (w.guard i) body = some (plainTrap w.t 0x09) := by
  rw [earlyTrap, skip_of_lanes hl, hf, hp, hu]
  rfl

/-- The guard of a G-set word is looked at next. -/
theorem early_uneven (ha : w.fr.active ≠ 0 → (w.form i).legal = true ∧ (privileged i && !w.t.priv) = false)
    (hg : w.unevenG i = true) : earlyTrap w i (w.form i) (w.guard i) body =
      some (lowerTrap (plainTrap w.t 0x0B) (if w.fr.active = 0 then none else ownTrap (body w))) := by
  by_cases hl : w.fr.active = 0
  · rw [earlyTrap, skip_of_none hl, unevenGuard_eq, hg, if_pos hl]
    rfl
  · obtain ⟨hf, hp⟩ := ha hl
    simp only [earlyTrap, skip_of_lanes hl, hf, unevenGuard_eq, hg, if_neg hl, Bool.not_true, Bool.not_false, Bool.and_false,
      Bool.true_and, hp, Bool.false_eq_true, if_false, if_true]

/-- A word under a guard that leaves no lane meets no trap of its own but for its operands (log 22). -/
theorem early_skipped (hl : w.fr.active = 0) (hg : w.unevenG i = false) : earlyTrap w i (w.form i) (w.guard i) body =
    if beforeGuard w i then none else some (plainTrap w.t 0x0B) := by
  simp only [earlyTrap, skip_of_none hl, unevenGuard_eq, hg]
  cases beforeGuard w i <;> rfl

theorem early_none (ha : w.allowed i = true) (hl : w.fr.active ≠ 0) (hg : w.unevenG i = false) :
    earlyTrap w i (w.form i) (w.guard i) body = none := by
  simp only [Seat.allowed, Bool.and_eq_true, Bool.or_eq_true, Bool.not_eq_true'] at ha
  obtain ⟨⟨-, hf⟩, hp⟩ := ha
  have hp : (privileged i && !w.t.priv) = false := by rcases hp with hp | hp <;> simp [hp]
  simp only [earlyTrap, skip_of_lanes hl, hf, unevenGuard_eq, hg, Bool.not_true, Bool.not_false, Bool.and_false, Bool.true_and,
    Bool.false_and, hp, Bool.false_eq_true, if_false]

theorem issues_skipped (h : s.turned i = some w) (he : w.encoded i = true) (hc : w.t.priv = true ∨ w.t.replay = [])
    (hl : w.fr.active = 0) (hg : w.unevenG i = false) (hb : beforeGuard w i = true) :
    w.issues s i spots body = w.passed i s { w.t with gens := passedGens w.fr i } := by
  simp only [Seat.issues, he, early_skipped hl hg, hb, stopsAtQueue_calm hc, Bool.not_true, Bool.false_eq_true, if_false,
    if_true]
  rw [if_pos (skip_of_none hl), finish_passed h hc]

theorem issues_waits (ha : w.allowed i = true) (hc : w.t.priv = true ∨ w.t.replay = []) (hl : w.fr.active ≠ 0)
    (hg : w.unevenG i = false) : w.issues s i spots body =
      if w.locked i then w.again i s .lock else if w.unreleased i then w.again i s .ack else
        settle w i (w.form i) (body w) := by
  have he : w.encoded i = true := by
    simp only [Seat.allowed, Bool.and_eq_true] at ha
    exact ha.1.1
  simp only [Seat.issues, he, early_none ha hl hg, stopsAtQueue_calm hc, Bool.not_true, Bool.false_eq_true, if_false]
  rw [skip_of_lanes hl]
  rfl

end

theorem encoded_of_engine (w : Seat) {i : Instr} (h : isEngineWord i = true) : w.encoded i = false := by
  cases i <;> cases h
  all_goals rfl

/-! The own traps of G-set words: none but NOT_UNIFORM where the launch has registers. -/

/-- A part of a G-set word stops with NOT_UNIFORM, or writes a U value after it has freed registers. -/
def Seat.PutsUniform (w : Seat) (d : Do Frame) : Prop :=
  d = .error (.trap 0x0B) ∨ ∃ fr1 ns, Freed w.fr fr1 ns ∧ ∃ (n : BitVec 6) (x : DWord), d = fr1.setReg n.toNat (.u x)

theorem bodyG3_puts (v : W3) (f : DWord → DWord → DWord) (w : Seat) : w.PutsUniform (bodyG3 v f w.fr) := by
  rw [bodyG3]
  rcases Val.uni_cases (w.fr.reg v.a.toNat) with ⟨x, hx⟩ | ha
  · rcases Val.uni_cases (w.fr.reg v.b.toNat) with ⟨y, hy⟩ | hb
    · exact .inr ⟨_, _, ((Freed.refl w.fr).freeReg v.la v.a).freeReg v.lb v.b, v.d, f x y, by rw [hx, hy]; rfl⟩
    · exact .inl (by rw [hx, hb]; rfl)
  · exact .inl (by rw [ha]; rfl)

theorem bodyG4_puts (v : W3) (f : DWord → DWord → DWord → DWord) (w : Seat) : w.PutsUniform (bodyG4 v f w.fr) := by
  rw [bodyG4]
  rcases Val.uni_cases (w.fr.reg v.a.toNat) with ⟨x, hx⟩ | ha
  · rcases Val.uni_cases (w.fr.reg v.b.toNat) with ⟨y, hy⟩ | hb
    · rcases Val.uni_cases (w.fr.reg (vcOf v.x).toNat) with ⟨z, hz⟩ | hc
      · exact .inr ⟨_, _, (((Freed.refl w.fr).freeReg v.la v.a).freeReg v.lb v.b).freeReg (lcOf v.x) (vcOf v.x), v.d,
          f x y z, by rw [hx, hy, hz]; rfl⟩
      · exact .inl (by rw [hx, hy, hc]; rfl)
    · exact .inl (by rw [hx, hb]; rfl)
  · exact .inl (by rw [ha]; rfl)

/-- Such a part has no other trap of its own where the launch has registers. -/
theorem Seat.PutsUniform.own {s : State} {i : Instr} {w : Seat} (h : SeatFacts s i w) (hr : w.l.hdr.regs ≠ 0) {d : Do Frame}
    (hd : w.PutsUniform d) : ownTrap (w.done d) = none ∨ ownTrap (w.done d) = some (plainTrap w.t 0x0B) := by
  rcases hd with rfl | ⟨fr1, ns, hf, n, x, rfl⟩
  · exact .inr rfl
  · have hspan : fr1.span = false := by rw [hf.rest]; exact seat_span h
    have hlines : fr1.noLines = false := by rw [hf.rest]; exact seat_noLines h hr
    obtain ⟨fr2, hok, -⟩ := dst_writes 32 (.u x) (.inl rfl) hspan hlines n.isLt nofun
    have hok : fr1.setReg n.toNat (.u x) = .ok fr2 := hok
    exact .inl (by rw [hok]; rfl)

/-- What a G-set word of one result does in a strip with the turn. -/
theorem gset_turned {s : State} {i : Instr} {w : Seat} (h : s.turned i = some w) (hg : (w.gset i).isSome = true) :
    ∃ body, exec i s = .next (w.issues s i (fun _ => []) body) ∧ ∃ d, body w = w.done d ∧ w.PutsUniform d := by
  unfold Seat.gset at hg
  split at hg
  case h_1 u v => exact ⟨_, (runAlu_turned h _ : execAddG u v s = _), _, rfl, bodyG3_puts _ _ _⟩
  case h_2 u v => exact ⟨_, (runAlu_turned h _ : execSubG u v s = _), _, rfl, bodyG3_puts _ _ _⟩
  case h_3 u v => exact ⟨_, (runAlu_turned h _ : execMulG u v s = _), _, rfl, bodyG3_puts _ _ _⟩
  case h_4 u v => exact ⟨_, (runAlu_turned h _ : execMulhG u v s = _), _, rfl, bodyG3_puts _ _ _⟩
  case h_5 u v => exact ⟨_, (runAlu_turned h _ : execMinG u v s = _), _, rfl, bodyG3_puts _ _ _⟩
  case h_6 u v => exact ⟨_, (runAlu_turned h _ : execMaxG u v s = _), _, rfl, bodyG3_puts _ _ _⟩
  case h_7 u v => exact ⟨_, (runAlu_turned h _ : execAddcG u v s = _), _, rfl, bodyG3_puts _ _ _⟩
  case h_8 u v => exact ⟨_, (runAlu_turned h _ : execMadG u v s = _), _, rfl, bodyG4_puts _ _ _⟩
  case h_9 v => exact ⟨_, (runAlu_turned h _ : execAndG v s = _), _, rfl, bodyG3_puts _ _ _⟩
  case h_10 v => exact ⟨_, (runAlu_turned h _ : execOrG v s = _), _, rfl, bodyG3_puts _ _ _⟩
  case h_11 v => exact ⟨_, (runAlu_turned h _ : execXorG v s = _), _, rfl, bodyG3_puts _ _ _⟩
  case h_12 v => exact ⟨_, (runAlu_turned h _ : execAndnG v s = _), _, rfl, bodyG3_puts _ _ _⟩
  case h_13 v => exact ⟨_, (runAlu_turned h _ : execShlG v s = _), _, rfl, bodyG3_puts _ _ _⟩
  case h_14 v => exact ⟨_, (runAlu_turned h _ : execShrG v s = _), _, rfl, bodyG3_puts _ _ _⟩
  case h_15 v => exact ⟨_, (runAlu_turned h _ : execSarG v s = _), _, rfl, bodyG3_puts _ _ _⟩
  case h_16 v =>
    refine ⟨_, (runAlu_turned h _ : execAddiG v s = _), _, rfl, ?_⟩
    rcases Val.uni_cases (w.fr.reg v.a.toNat) with ⟨x, hx⟩ | ha
    · exact .inr ⟨_, _, (Freed.refl w.fr).freeReg v.la v.a, v.d, _, by rw [hx]; rfl⟩
    · exact .inl (by rw [ha]; rfl)
  case h_17 v => exact ⟨_, (runAlu_turned h _ : execMoviG v s = _), _, rfl, .inr ⟨w.fr, [], .refl w.fr, v.d, _, rfl⟩⟩
  case h_18 => cases hg

theorem lowerTrap_cause_le (a : TrapInfo) (b : Option TrapInfo) : (lowerTrap a b).cause ≤ a.cause := by
  unfold lowerTrap
  split
  · split <;> omega
  · exact Nat.le_refl _

/-- The operands that LDT and STASH look at are U where nothing says otherwise. -/
theorem beforeGuard_of_even {w : Seat} {i : Instr} (h : w.unevenTile i = false) : beforeGuard w i = true := by
  unfold Seat.unevenTile at h
  unfold beforeGuard
  split <;> simp_all

/-- Settles O14: the order in which issue looks at a word, for every word that a strip issues. -/
theorem issueFates : Obligations.IssueFates := by
  unfold Obligations.IssueFates
  refine ⟨fun s i w h he hv hr => ?_, fun s i w h he henc hg hc hl ht => ?_, fun s i w h he ha hg hc => ?_⟩
  · have hh : handlerOf s w.g.ctx ≠ 0 := turned_handler h ▸ hv.2
    have hstop := stop_trapped hv.1 hh hr
    obtain ⟨spots, body, hex⟩ := exec_turned h he
    dsimp only
    refine ⟨fun hne => ?_, fun hl => ⟨fun hf => ?_, fun henc hf hp => ?_, fun ha hg => ?_⟩, fun hl henc => ⟨fun hg => ?_, fun hg ht => ?_⟩⟩
    · have henc : w.encoded i = false := hne.elim id (encoded_of_engine w)
      rw [hex, issues_illegal henc, hstop]
    · cases henc : w.encoded i with
      | false => rw [hex, issues_illegal henc, hstop]
      | true => rw [hex, issues_early henc (early_unlawful hl hf), hstop]
    · rw [hex, issues_early henc (early_privileged hl hf hp hv.1), hstop]
    · have hs := turned_seatFacts h ha (.inr hr) hl
      have hab := ha
      simp only [Seat.allowed, Bool.and_eq_true] at hab
      obtain ⟨⟨henc, hf⟩, -⟩ := hab
      have hp : (privileged i && !w.t.priv) = false := by
        cases hp : privileged i with
        | false => rfl
        | true => rw [hs.mode hp]; rfl
      have hearly (body) := early_uneven (body := body) (fun _ => ⟨hf, hp⟩) hg
      refine ⟨⟨lowerTrap (plainTrap w.t 0x0B) (if w.fr.active = 0 then none else ownTrap (body w)),
        lowerTrap_cause_le _ _, ?_⟩, fun hgs hregs => ?_, fun st code n x hi hcode => ?_⟩
      · rw [hex, issues_early henc (hearly body), hstop]
      · obtain ⟨own, hex, d, hd, hputs⟩ := gset_turned h hgs
        rw [hex, issues_early henc (hearly _), hstop, if_neg hl, hd]
        rcases hputs.own hs hregs with ho | ho <;> rw [ho] <;> rfl
      · subst hi
        have hex : exec (.fmtselSlot st code n x) s = _ := (runAlu_turned h _ : execFmtselSlot st code n x s = _)
        rw [hex, issues_early henc (hearly _), hstop, if_neg hl, fmtselSlotBody, if_pos hcode]
        rfl
    · rw [hex, issues_early henc (early_uneven (fun hc => absurd hl hc) hg), hstop, if_pos hl]
      rfl
    · have hearly := early_skipped (body := body) hl hg
      cases hb : beforeGuard w i with
      | false =>
        rw [hb] at hearly
        exact .inl (by rw [hex, issues_early henc hearly, hstop])
      | true => exact .inr (by rw [hex, issues_skipped h henc (.inr hr) hl hg hb])
  · obtain ⟨spots, body, hex⟩ := exec_turned h he
    rw [hex, issues_skipped h henc hc hl hg (beforeGuard_of_even ht)]
  · obtain ⟨spots, body, hex⟩ := exec_turned h he
    refine ⟨fun hl hlock => ?_, fun hl hlock hack => ?_⟩
    · rw [hex, issues_waits ha hc hl hg, if_pos hlock]
    · rw [hex, issues_waits ha hc hl hg, hlock, if_neg Bool.false_ne_true, if_pos hack]

end Sys2Proof.Machine
end

section
/-! What traps save, and where strips stop at parked accesses (R261 to R266, R269, R272). -/

namespace Sys2Proof.Machine

/-! The k registers of a trap. -/

/-- A lane of a k register. -/
def klane (k : Vector Lanes 16) (n l : Nat) : Word := vget (vget k n (Vector.replicate 32 0)) l 0

theorem klane_kput_other (k : Vector Lanes 16) {n l n' l' : Nat} (v : Word) (h : n' ≠ n ∨ l' ≠ l) :
    klane (kput k n' l' v) n l = klane k n l := by
  rw [klane, kput]
  by_cases hn : n' = n
  · subst hn
    have hl : l' ≠ l := h.elim (fun hc => absurd rfl hc) id
    by_cases h16 : n' < 16
    · rw [vget_vset_eq _ _ _ _ h16, vget_vset_ne _ _ _ _ _ hl]
      rfl
    · rw [vset, dif_neg h16]
      rfl
  · rw [vget_vset_ne _ _ _ _ _ hn]
    rfl

theorem klane_kput_same (k : Vector Lanes 16) {n l : Nat} (v : Word) (hn : n < 16) (hl : l < 32) :
    klane (kput k n l v) n l = v := by
  rw [klane, kput, vget_vset_eq _ _ _ _ hn, vget_vset_eq _ _ _ _ hl]

theorem foldl_klane {α : Type} {f : Vector Lanes 16 → α → Vector Lanes 16} {L : List α} {n l : Nat}
    (h : ∀ k, ∀ a ∈ L, klane (f k a) n l = klane k n l) (k : Vector Lanes 16) : klane (L.foldl f k) n l = klane k n l := by
  induction L generalizing k with
  | nil => rfl
  | cons a L ih => rw [List.foldl_cons, ih fun k b hb => h k b (List.mem_cons_of_mem _ hb), h k a List.mem_cons_self]

/-- A trap writes no k register but those it sets, and k15 of the lanes that report. -/
theorem trapKregs_others (k : Vector Lanes 16) {p : TrapInfo} {n l : Nat}
    (hk : ∀ v, (n, v) ∈ p.kset → laneIn p.lanes l = false) (hr : n = 15 → ∀ v, (l, v) ∉ p.reports) :
    klane (trapKregs k p) n l = klane k n l := by
  rw [trapKregs, foldl_klane, foldl_klane]
  · rintro k ⟨m, v⟩ hm
    refine foldl_klane (fun k j hj => klane_kput_other k v ?_) k
    by_cases hmn : m = n
    · subst hmn
      refine .inr fun hjl => ?_
      subst hjl
      have hin := (mem_lanesOf.mp hj).2
      rw [hk v hm] at hin
      cases hin
    · exact .inl hmn
  · rintro k ⟨j, v⟩ hj
    refine klane_kput_other k v ?_
    by_cases hn : n = 15
    · refine .inr fun hjl => ?_
      subst hjl
      exact hr hn v hj
    · exact .inl (Ne.symm hn)

theorem foldl_kput {n l : Nat} {v : Word} (hn : n < 16) (hl : l < 32) (L : List Nat) (k : Vector Lanes 16)
    (h : l ∈ L ∨ klane k n l = v) : klane (L.foldl (fun k l => kput k n l v) k) n l = v := by
  induction L generalizing k with
  | nil => exact h.elim (fun hc => absurd hc List.not_mem_nil) id
  | cons j L ih =>
    refine ih _ ?_
    by_cases hj : l ∈ L
    · exact .inl hj
    · refine .inr ?_
      by_cases hjl : j = l
      · subst hjl
        exact klane_kput_same k v hn hl
      · rw [klane_kput_other k v (.inr hjl)]
        refine h.elim (fun hm => ?_) id
        rcases List.mem_cons.mp hm with rfl | hm
        · exact absurd rfl hjl
        · exact absurd hm hj

theorem word_klane (t : Strip) (co : Nat → Nat × Nat × Nat) (n l : Nat) : t.word co (n + 64) l = klane t.kregs n l := by
  rw [Strip.word, if_neg (by omega), klane, Nat.add_sub_cancel]

/-- R263: what a trap writes. -/
theorem writeTrapState_reports (t : Strip) (p : TrapInfo) :
    let u := writeTrapState t p
    u.cause = BitVec.ofNat 32 p.cause ∧ u.epc = p.epc &&& 0x01FFFFFFFFFFFFFF ∧ u.fmask = p.lanes ∧
    (∀ l < 32, vget u.faddr l 0 = ((p.addrs.find? fun a => a.1 == l).map (·.2)).getD 0) ∧
    (∀ n < 16, ∀ l < 32, (∀ v, (n, v) ∈ p.kset → laneIn p.lanes l = false) → (n = 15 → ∀ v, (l, v) ∉ p.reports) →
      u.word (fun _ => (0, 0, 0)) (n + 64) l = t.word (fun _ => (0, 0, 0)) (n + 64) l) ∧
    (∀ n v l, p.kset = [(n, v)] → p.reports = [] → n < 16 → l < 32 → laneIn p.lanes l = true →
      u.word (fun _ => (0, 0, 0)) (n + 64) l = v) ∧
    u = { t with cause := u.cause, epc := u.epc, fmask := u.fmask, faddr := u.faddr, kregs := u.kregs } := by
  rw [writeTrapState_eq]
  refine ⟨rfl, rfl, rfl, fun l hl => ?_, fun n _ l _ hk hr => ?_, fun n v l hk hr hn hl hin => ?_, rfl⟩
  · simp [vget, hl]
  · rw [word_klane, word_klane]
    exact trapKregs_others t.kregs hk hr
  · rw [word_klane]
    show klane (trapKregs t.kregs p) n l = v
    rw [trapKregs, hk, hr]
    exact foldl_kput hn hl _ _ (.inl (mem_lanesOf.mpr ⟨hl, hin⟩))

/-! Traps that do not vector. -/

@[simp] theorem landAll_active (c : Nat → Nat × Nat × Nat) (t : Strip) : (landAll c t).active = t.active := by
  have h := landAll_core c t
  have h' : (landAll c t).core.active = t.core.active := by rw [h]
  exact h'

@[simp] theorem landAll_idx (c : Nat → Nat × Nat × Nat) (t : Strip) : (landAll c t).idx = t.idx := by
  have h := landAll_core c t
  have h' : (landAll c t).core.idx = t.core.idx := by rw [h]
  exact h'

/-- The strip and the context of a seat with the turn stand in the state. -/
theorem turned_stands {s : State} {i : Instr} {w : Seat} (h : s.turned i = some w) :
    s.ctx? w.g.ctx = some w.x ∧ ∃ u, s.strip? w.g.id w.t.idx = some u := by
  obtain ⟨gid, k, g, t, l, x, ht⟩ := turned_facts h
  have hgid : g.id = gid := by simpa using List.find?_some ht.gang
  have hidx : t.idx = k := by simpa using List.find?_some ht.strip
  rw [ht.seat]
  refine ⟨ht.ctx, t, ?_⟩
  show s.strip? g.id t.idx = some t
  rw [hgid, hidx, State.strip?, ht.gang]
  exact ht.strip

/-- A trap in supervisor mode, or without a handler, halts the strip and its context. -/
theorem stop_halts {s : State} {w : Seat} (p : TrapInfo) (hstands : s.ctx? w.g.ctx = some w.x ∧ ∃ u, s.strip? w.g.id w.t.idx = some u)
    (hc : w.t.priv = true ∨ handlerOf s w.g.ctx = 0) (hr : w.t.priv = false → w.t.replay = []) :
    ∃ u r, stopStrip s w.g w.t w.l.hdr (some p) w.t.pc = u ∧ (u.ctx? w.g.ctx).bind (·.fatal) = some r ∧
      r.cause = (if w.t.priv then 1 else BitVec.ofNat 32 p.cause) ∧ r.inner = (if w.t.priv then p.cause else 0) ∧
      r.epc = p.epc &&& 0x01FFFFFFFFFFFFFF ∧ r.fmask = (if w.t.priv then w.t.active else p.lanes) ∧
      (u.strip? w.g.id w.t.idx).any (·.halted) = true := by
  obtain ⟨hx, u, hu⟩ := hstands
  have halt (p : TrapInfo) (inner : Nat) := haltStrip_reports (t := landAll (w.g.coord w.l.hdr w.t.idx) w.t) p inner hx
    (by rw [landAll_idx]; exact hu)
  rw [landAll_idx] at halt
  cases hp : w.t.priv with
  | true =>
    obtain ⟨hfatal, hhalted⟩ := halt { p with cause := 1, lanes := w.t.active } p.cause
    refine ⟨_, _, ?_, hfatal, rfl, rfl, rfl, rfl, hhalted⟩
    simp only [stopStrip, hp, trapTaken, vectorWith, landAll_priv, landAll_active, if_true]
  | false =>
    have hh : handlerOf s w.g.ctx = 0 := hc.elim (fun hc => by rw [hp] at hc; cases hc) id
    have hq : parkedTrap w.t.live w.t.pc w.t.replay = none := by rw [hr hp]; rfl
    obtain ⟨hfatal, hhalted⟩ := halt p 0
    refine ⟨_, _, ?_, hfatal, rfl, rfl, rfl, rfl, hhalted⟩
    simp only [stopStrip, hp, hq, trapTaken, vectorWith, landAll_priv, hh, Bool.false_eq_true, if_false, if_true]

/-- Settles O16: what TRAP and every trap report, and what one does that cannot vector. -/
theorem traps : Obligations.Traps := by
  unfold Obligations.Traps
  refine ⟨fun s w st imm lit hi hv => ?_, writeTrapState_reports, fun s i w h he henc hc hr => ?_⟩
  · have hs := seat_facts hi
    have hout : exec (.trap st imm lit) s =
        .next (settle w (.trap st imm lit) (w.form (.trap st imm lit)) (trapBody imm lit w)) := by
      show execTrap st imm lit s = _
      rw [execTrap, runStrip_issuing hi]
    rw [after_of hv rfl hv.1 rfl hout rfl]
    rfl
  · obtain ⟨spots, body, hex⟩ := exec_turned h he
    obtain ⟨u, r, hu, hfatal, hcause, hinner, hepc, hmask, hhalted⟩ := stop_halts (plainTrap w.t 0x08) (turned_stands h) hc hr
    refine ⟨u, r, ?_, hfatal, hcause, hinner, hepc, ?_, hhalted⟩
    · rw [hex, issues_illegal henc, hu]
    · rw [hmask]
      exact ite_self _

end Sys2Proof.Machine
end

section
/-! Where strips stop at parked accesses (R262, R264, R265). -/

namespace Sys2Proof.Machine

/-! The lowest cause in a replay queue. -/

/-- One faulted part seen by the search for the lowest cause. -/
def lowerOf (a : Access) (best : Option (Nat × Access)) (r : LaneReq) : Option (Nat × Access) :=
  match best with
  | none => if r.cause = 0 then none else some (r.cause, a)
  | some (c, _) => if r.cause ≠ 0 ∧ r.cause < c then some (r.cause, a) else best

/-- What the search has found after the parts of one access: what it had before, or the access itself. -/
inductive Lower (a : Access) (rs : List LaneReq) (best : Option (Nat × Access)) : Option (Nat × Access) → Prop
  | kept (b : Nat × Access) (hb : best = some b) (hle : ∀ r ∈ rs, b.1 ≤ r.cause) : Lower a rs best (some b)
  | found (c : Nat) (hc : ∃ r ∈ rs, r.cause = c) (hle : ∀ r ∈ rs, c ≤ r.cause) (hlt : ∀ b, best = some b → c < b.1) :
      Lower a rs best (some (c, a))
  | empty (hr : rs = []) (hb : best = none) : Lower a rs best none

theorem foldl_lower (a : Access) (rs : List LaneReq) (best : Option (Nat × Access)) (h : ∀ r ∈ rs, r.cause ≠ 0) :
    Lower a rs best (rs.foldl (lowerOf a) best) := by
  induction rs using List.reverseRecOn with
  | nil =>
    cases best with
    | none => exact .empty rfl rfl
    | some b => exact .kept b rfl (by simp)
  | append_singleton rs r ih =>
    have ih := ih fun q hq => h q (List.mem_append_left _ hq)
    have hr : r.cause ≠ 0 := h r (by simp)
    rw [List.foldl_append, List.foldl_cons, List.foldl_nil]
    generalize rs.foldl (lowerOf a) best = now at ih
    cases ih with
    | kept b hb hle =>
      by_cases hlt : r.cause < b.1
      · rw [lowerOf, if_pos ⟨hr, hlt⟩]
        refine .found _ ⟨r, by simp, rfl⟩ (fun q hq => ?_) fun b' hb' => ?_
        · rcases List.mem_append.mp hq with hq | hq
          · exact hlt.le.trans (hle q hq)
          · rw [List.mem_singleton.mp hq]
        · cases hb.symm.trans hb'
          exact hlt
      · rw [lowerOf, if_neg fun hc => hlt hc.2]
        refine .kept b hb fun q hq => ?_
        rcases List.mem_append.mp hq with hq | hq
        · exact hle q hq
        · rw [List.mem_singleton.mp hq]
          exact Nat.le_of_not_lt hlt
    | found c hc hle hlow =>
      by_cases hlt : r.cause < c
      · rw [lowerOf, if_pos ⟨hr, hlt⟩]
        refine .found _ ⟨r, by simp, rfl⟩ (fun q hq => ?_) fun b hb => hlt.trans (hlow b hb)
        rcases List.mem_append.mp hq with hq | hq
        · exact hlt.le.trans (hle q hq)
        · rw [List.mem_singleton.mp hq]
      · rw [lowerOf, if_neg fun hc => hlt hc.2]
        obtain ⟨q, hq, hqc⟩ := hc
        refine .found c ⟨q, List.mem_append_left _ hq, hqc⟩ (fun q hq => ?_) hlow
        rcases List.mem_append.mp hq with hq | hq
        · exact hle q hq
        · rw [List.mem_singleton.mp hq]
          exact Nat.le_of_not_lt hlt
    | empty hnil hb =>
      subst hnil
      rw [lowerOf, if_neg hr]
      exact .found _ ⟨r, by simp, rfl⟩ (by simp) (by simp [hb])

theorem lowestParked_eq (q : List Access) : lowestParked q = q.foldl (fun best a => a.lanes.foldl (lowerOf a) best) none := rfl

/-- The oldest access of a queue that holds its lowest cause. -/
structure OldestLowest (q : List Access) (c : Nat) (a : Access) : Prop where
  split : ∃ pre post, q = pre ++ a :: post ∧ ∀ b ∈ pre, ∀ r ∈ b.lanes, c < r.cause
  holds : ∃ r ∈ a.lanes, r.cause = c
  least : ∀ b ∈ q, ∀ r ∈ b.lanes, c ≤ r.cause

theorem lowestParked_cases (q : List Access) (h : allFaulted q) :
    (q = [] ∧ lowestParked q = none) ∨ ∃ c a, lowestParked q = some (c, a) ∧ OldestLowest q c a := by
  induction q using List.reverseRecOn with
  | nil => exact .inl ⟨rfl, rfl⟩
  | append_singleton q a ih =>
    have ih := ih fun b hb => h b (List.mem_append_left _ hb)
    obtain ⟨hne, hcauses⟩ := h a (by simp)
    have hlow := foldl_lower a a.lanes (lowestParked q) hcauses
    have hfold : lowestParked (q ++ [a]) = a.lanes.foldl (lowerOf a) (lowestParked q) := by
      rw [lowestParked_eq, List.foldl_append]
      rfl
    rw [← hfold] at hlow
    generalize lowestParked (q ++ [a]) = now at hlow
    refine .inr ?_
    cases hlow with
    | kept b hb hle =>
      rcases ih with ⟨-, hnone⟩ | ⟨c, a', hsome, ⟨pre, post, rfl, hpre⟩, hholds, hleast⟩
      · cases hnone.symm.trans hb
      · cases hsome.symm.trans hb
        refine ⟨c, a', rfl, ⟨pre, post ++ [a], by simp, hpre⟩, hholds, fun b hb r hr => ?_⟩
        rcases List.mem_append.mp hb with hb | hb
        · exact hleast b hb r hr
        · rw [List.mem_singleton.mp hb] at hr
          exact hle r hr
    | found c hc hle hlt =>
      have hpre : ∀ b ∈ q, ∀ r ∈ b.lanes, c < r.cause := by
        rcases ih with ⟨rfl, -⟩ | ⟨c', a', hsome, -, -, hleast⟩
        · simp
        · exact fun b hb r hr => (hlt _ hsome).trans_le (hleast b hb r hr)
      refine ⟨c, a, rfl, ⟨q, [], rfl, hpre⟩, hc, fun b hb r hr => ?_⟩
      rcases List.mem_append.mp hb with hb | hb
      · exact (hpre b hb r hr).le
      · rw [List.mem_singleton.mp hb] at hr
        exact hle r hr
    | empty hr hb => exact absurd hr hne

/-- R262: what the replay queue reports. -/
theorem parkedTrap_reports (live : Mask) (epc : DWord) (q : List Access) (h : allFaulted q) (hq : q ≠ []) :
    ∃ p pre a post, parkedTrap live epc q = some p ∧ q = pre ++ a :: post ∧ p.epc = epc ∧ p.kset = [] ∧
      (∃ r ∈ a.lanes, r.cause = p.cause) ∧ (∀ b ∈ q, ∀ r ∈ b.lanes, p.cause ≤ r.cause) ∧
      (∀ b ∈ pre, ∀ r ∈ b.lanes, p.cause < r.cause) ∧
      (a.isTile = true → p.lanes = live) ∧
      (a.isTile = false → a.uniform = false → a.kind ≠ .save → a.kind ≠ .restore →
        ∀ l < 32, laneIn p.lanes l = true ↔ ∃ r ∈ a.lanes, r.cause = p.cause ∧ r.lane = l) := by
  rcases lowestParked_cases q h with ⟨hnil, -⟩ | ⟨c, a, hsome, ⟨pre, post, hsplit, hpre⟩, hholds, hleast⟩
  · exact absurd hnil hq
  · refine ⟨_, pre, a, post, by rw [parkedTrap, hsome]; rfl, hsplit, rfl, rfl, hholds, hleast, hpre, fun ht => ?_,
      fun ht hu hs hr l hl => ?_⟩
    · simp only [ht, if_true]
    · have hsave : (a.kind == .save) = false := by simpa using hs
      have hrestore : (a.kind == .restore) = false := by simpa using hr
      simp only [ht, hu, hsave, hrestore, Bool.or_false, Bool.false_eq_true, if_false]
      rw [laneIn_maskOf _ _ hl]
      simp

theorem parkedTrap_some (live : Mask) (epc : DWord) (q : List Access) (h : allFaulted q) (hq : q ≠ []) :
    ∃ p, parkedTrap live epc q = some p := by
  obtain ⟨p, -, -, -, hp, -⟩ := parkedTrap_reports live epc q h hq
  exact ⟨p, hp⟩

/-! Words that have no trap of their own. -/

theorem freeOne_same (fr : Frame) (n : Nat) (plain : Bool) :
    (fr.freeOne n plain).span = fr.span ∧ (fr.freeOne n plain).noLines = fr.noLines := by
  rw [Frame.freeOne]
  split
  · exact ⟨rfl, rfl⟩
  · split <;> exact ⟨rfl, rfl⟩

theorem free_same (fr : Frame) (b : Bool) (wd n : Nat) :
    (fr.free b wd n).span = fr.span ∧ (fr.free b wd n).noLines = fr.noLines := by
  rw [Frame.free]
  split
  · exact ⟨rfl, rfl⟩
  · split
    · obtain ⟨hs, hl⟩ := freeOne_same fr n false
      obtain ⟨hs', hl'⟩ := freeOne_same (fr.freeOne n false) (n + 1) false
      exact ⟨hs'.trans hs, hl'.trans hl⟩
    · exact freeOne_same fr n false

/-- A frame of a strip in a launch with registers. -/
def Frame.writable (fr : Frame) : Prop := fr.span = false ∧ fr.noLines = false

theorem Frame.writable.free {fr : Frame} (h : fr.writable) (b : Bool) (wd n : Nat) : (fr.free b wd n).writable := by
  obtain ⟨hs, hl⟩ := free_same fr b wd n
  exact ⟨hs.trans h.1, hl.trans h.2⟩

section
variable {fr : Frame} (h : fr.writable)
include h

theorem setReg_ok (d : BitVec 6) (v : Val) : ∃ fr2, fr.setReg d.toNat v = .ok fr2 := by
  obtain ⟨fr2, hok, -⟩ := dst_writes 32 v (.inl rfl) h.1 h.2 d.isLt nofun
  exact ⟨fr2, hok⟩

theorem dst_ok {wd : Nat} (hwd : wd = 32 ∨ wd = 64) {d : BitVec 6} (he : wd = 64 → d.toNat % 2 = 0) (v : Val) :
    ∃ fr2, fr.dst wd d.toNat v = .ok fr2 := by
  obtain ⟨fr2, hok, -⟩ := dst_writes wd v hwd h.1 h.2 d.isLt he
  exact ⟨fr2, hok⟩

theorem body3_ok {wd : Nat} (hwd : wd = 32 ∨ wd = 64) {v : W3} (he : wd = 64 → v.d.toNat % 2 = 0)
    (f : Frame → Val → Val → Val) : ∃ fr2, body3 wd v f fr = .ok fr2 :=
  dst_ok ((h.free ..).free ..) hwd he _

theorem body4_ok {wd : Nat} (hwd : wd = 32 ∨ wd = 64) {v : W3} (he : wd = 64 → v.d.toNat % 2 = 0)
    (f : Frame → Val → Val → Val → Val) : ∃ fr2, body4 wd v f fr = .ok fr2 :=
  dst_ok (((h.free ..).free ..).free ..) hwd he _

theorem body2_ok (v : W2) (f : Frame → Val → Val) : ∃ fr2, body2 v f fr = .ok fr2 := setReg_ok (h.free ..) v.d _

theorem bodyImm_ok (v : WImm) (f : Frame → Val → Val → Val) : ∃ fr2, bodyImm v f fr = .ok fr2 := setReg_ok (h.free ..) v.d _

end

/-- The own part of a word of a strip with the turn is an alteration of its frame, which does not trap. -/
def Seat.PlainPart (w : Seat) (s : State) (i : Instr) : Prop :=
  ∃ body fr2, exec i s = .next (w.issues s i (fun _ => []) body) ∧ body w = w.done (.ok fr2)

section
variable {s : State} {i : Instr} {w : Seat} (h : s.turned i = some w) (hf : w.fr.writable)
include h

theorem plain_of {f : Info → Frame → Do Frame} (he : exec i s = runAlu i f s) (hok : ∃ fr2, f w.info w.fr = .ok fr2) :
    w.PlainPart s i := by
  obtain ⟨fr2, hok⟩ := hok
  exact ⟨_, fr2, he.trans (runAlu_turned h f), congrArg w.done hok⟩

include hf

theorem plain_body3 {wd : Nat} {v : W3} {f : Frame → Val → Val → Val} (he : exec i s = runAlu i (fun _ => body3 wd v f) s)
    (hl : (w.form i).legal = true) (hwd : wd = 32 ∨ wd = 64) (hd : (w.form i).dsts = [⟨v.d, regsOf wd⟩]) : w.PlainPart s i :=
  plain_of h he (body3_ok hf hwd (fun h64 => even_of_aligned ((legal_parts hl).2.2 ⟨v.d, regsOf wd⟩ (by simp [hd])) h64) f)

theorem plain_body4 {wd : Nat} {v : W3} {f : Frame → Val → Val → Val → Val}
    (he : exec i s = runAlu i (fun _ => body4 wd v f) s)
    (hl : (w.form i).legal = true) (hwd : wd = 32 ∨ wd = 64) (hd : (w.form i).dsts = [⟨v.d, regsOf wd⟩]) : w.PlainPart s i :=
  plain_of h he (body4_ok hf hwd (fun h64 => even_of_aligned ((legal_parts hl).2.2 ⟨v.d, regsOf wd⟩ (by simp [hd])) h64) f)

theorem plain_arithmetic (hl : (w.form i).legal = true) (ha : (w.arithmetic i).isSome = true) : w.PlainPart s i := by
  unfold Seat.arithmetic at ha
  split at ha
  case h_1 t v => exact plain_body3 h hf (rfl : _ = execAdd t v s) hl (typeWidth_cases t) (by cases t <;> rfl)
  case h_2 t v => exact plain_body3 h hf (rfl : _ = execSub t v s) hl (typeWidth_cases t) (by cases t <;> rfl)
  case h_3 t v => exact plain_body3 h hf (rfl : _ = execMul t v s) hl (typeWidth_cases t) (by cases t <;> rfl)
  case h_4 t v => exact plain_body3 h hf (rfl : _ = execMulh t v s) hl (typeWidth_cases t) (by cases t <;> rfl)
  case h_5 t v => exact plain_body3 h hf (rfl : _ = execMin t v s) hl (typeWidth_cases t) (by cases t <;> rfl)
  case h_6 t v => exact plain_body3 h hf (rfl : _ = execMax t v s) hl (typeWidth_cases t) (by cases t <;> rfl)
  case h_7 t v => exact plain_body3 h hf (rfl : _ = execAddc t v s) hl (typeWidth_cases t) (by cases t <;> rfl)
  case h_8 t v => exact plain_body4 h hf (rfl : _ = execMad t v s) hl (typeWidth_cases t) (by cases t <;> rfl)
  case h_9 => cases ha

theorem plain_logic (hl : (w.form i).legal = true) (ha : (w.logic i).isSome = true) : w.PlainPart s i := by
  unfold Seat.logic at ha
  split at ha
  case h_1 v => exact plain_body3 h hf (rfl : _ = execAnd v s) hl (.inl rfl) rfl
  case h_2 v => exact plain_body3 h hf (rfl : _ = execOr v s) hl (.inl rfl) rfl
  case h_3 v => exact plain_body3 h hf (rfl : _ = execXor v s) hl (.inl rfl) rfl
  case h_4 v => exact plain_body3 h hf (rfl : _ = execAndn v s) hl (.inl rfl) rfl
  case h_5 v => exact plain_body3 h hf (rfl : _ = execShl v s) hl (.inl rfl) rfl
  case h_6 v => exact plain_body3 h hf (rfl : _ = execShr v s) hl (.inl rfl) rfl
  case h_7 v => exact plain_body3 h hf (rfl : _ = execSar v s) hl (.inl rfl) rfl
  case h_8 v => exact plain_of h (rfl : _ = execFclass v s) (body2_ok hf v _)
  case h_9 v => exact plain_of h (rfl : _ = execPopc v s) (body2_ok hf v _)
  case h_10 v => exact plain_of h (rfl : _ = execClz v s) (body2_ok hf v _)
  case h_11 v => exact plain_of h (rfl : _ = execBrev v s) (body2_ok hf v _)
  case h_12 v => exact plain_body3 h hf (rfl : _ = execBfx v s) hl (.inl rfl) rfl
  case h_13 v => exact plain_body4 h hf (rfl : _ = execBfi v s) hl (.inl rfl) rfl
  case h_14 v => exact plain_body4 h hf (rfl : _ = execPrmt v s) hl (.inl rfl) rfl
  case h_15 v => exact plain_body4 h hf (rfl : _ = execLea v s) hl (.inl rfl) rfl
  case h_16 => cases ha

theorem plain_immediate (ha : (w.immediate i).isSome = true) : w.PlainPart s i := by
  unfold Seat.immediate at ha
  split at ha
  case h_1 v => exact plain_of h (rfl : _ = execAddi v s) (bodyImm_ok hf v _)
  case h_2 v => exact plain_of h (rfl : _ = execMuli v s) (bodyImm_ok hf v _)
  case h_3 v => exact plain_of h (rfl : _ = execAndi v s) (bodyImm_ok hf v _)
  case h_4 v => exact plain_of h (rfl : _ = execOri v s) (bodyImm_ok hf v _)
  case h_5 v => exact plain_of h (rfl : _ = execXori v s) (bodyImm_ok hf v _)
  case h_6 v => exact plain_of h (rfl : _ = execShli v s) (bodyImm_ok hf v _)
  case h_7 v => exact plain_of h (rfl : _ = execShri v s) (bodyImm_ok hf v _)
  case h_8 v => exact plain_of h (rfl : _ = execSari v s) (bodyImm_ok hf v _)
  case h_9 v => exact plain_of h (rfl : _ = execMovi v s) (setReg_ok hf v.d _)
  case h_10 => cases ha

end

/-! Vectors at the queue. -/

/-- A user-mode strip stops at its queue without a trap of its own. -/
theorem stop_parked {s : State} {w : Seat} {t : Strip} {p : TrapInfo} (ht : t.priv = false) (hi : t.idx = w.t.idx)
    (hh : handlerOf s w.g.ctx ≠ 0) (epc : DWord) (hp : parkedTrap t.live epc t.replay = some p) :
    stopStrip s w.g t w.l.hdr none epc = w.trapped s t p := by
  simp only [stopStrip, ht, hp, trapTaken, vectorWith, Bool.false_eq_true, if_false, landAll_priv, if_neg hh, hi,
    Seat.trapped]
  rfl

theorem encoded_of_allowed {w : Seat} {i : Instr} (ha : w.allowed i = true) : w.encoded i = true := by
  simp only [Seat.allowed, Bool.and_eq_true] at ha
  exact ha.1.1

section
variable {s : State} {i : Instr} {w : Seat} (h : s.turned i = some w) (ha : w.allowed i = true) (hg : w.unevenG i = false)
  (hv : w.vectors) (hl : w.fr.active ≠ 0)
include h ha hg hv hl

/-- A word that names a register which a parked access has still to write. -/
theorem stops_before {body : Seat → Done} {spots : Seat → List (Nat × Nat)} {p : TrapInfo}
    (hr : ∃ a ∈ w.t.replay, ∃ k < a.regs, a.dst + k ∈ roleRegs false ((w.form i).srcs ++ (w.form i).dsts))
    (hp : parkedTrap w.t.live w.t.pc w.t.replay = some p) (ho : ownTrap (body w) = none) :
    w.issues s i spots body = w.trapped s w.t p := by
  obtain ⟨a, hmem, k, hk, hreg⟩ := hr
  have hne : w.t.replay.isEmpty = false := by
    cases hq : w.t.replay with
    | nil => rw [hq] at hmem; cases hmem
    | cons => rfl
  have hnames : (roleRegs false ((w.form i).srcs ++ (w.form i).dsts)).any (parkedRegs w.t.replay).contains = true := by
    refine List.any_eq_true.mpr ⟨_, hreg, List.contains_iff_mem.mpr (List.mem_flatMap.mpr ⟨a, hmem, ?_⟩)⟩
    exact List.mem_append_left _ (List.mem_map.mpr ⟨k, List.mem_range.mpr hk, rfl⟩)
  have hstop : stopsAtQueue w (w.form i) i false (spots w) = true := by
    simp [stopsAtQueue, hv.1, hne, hnames]
  have hh : handlerOf s w.g.ctx ≠ 0 := turned_handler h ▸ hv.2
  simp only [Seat.issues, encoded_of_allowed ha, early_none ha hl hg, skip_of_lanes hl, hstop, ho, Bool.not_true,
    Bool.false_eq_true, if_false, if_true]
  exact stop_parked hv.1 rfl hh _ hp

end

theorem turned_writable {s : State} {i : Instr} {w : Seat} (h : s.turned i = some w) (hr : w.l.hdr.regs ≠ 0) : w.fr.writable := by
  obtain ⟨gid, k, g, t, l, x, ht⟩ := turned_facts h
  rw [ht.seat] at hr ⊢
  exact ⟨rfl, by simpa [seatOf, stripFrame] using hr⟩

theorem turned_withFrame {s : State} {i : Instr} {w : Seat} (h : s.turned i = some w) : w.t.withFrame w.fr = w.t := by
  obtain ⟨gid, k, g, t, l, x, ht⟩ := turned_facts h
  rw [ht.seat]
  rfl

/-! A strip that is held takes a trap as it would otherwise. -/

/-- A strip that is held at the end of a region. -/
def Strip.held (t : Strip) : Strip := { t with parked := true }

theorem foldl_held {α : Type} {f : Strip → α → Strip} (hf : ∀ t a, f t.held a = (f t a).held) (l : List α) (t : Strip) :
    l.foldl f t.held = (l.foldl f t).held := by
  induction l generalizing t with
  | nil => rfl
  | cons a l ih => rw [List.foldl_cons, List.foldl_cons, hf, ih]

theorem landPart_held (c : Nat → Nat × Nat × Nat) (t : Strip) (p : RegPart) : landPart c t.held p = (landPart c t p).held := by
  rw [landPart, landPart]
  split
  · split <;> rfl
  · rfl

theorem freeUnlocked_held (t : Strip) : freeUnlocked t.held = (freeUnlocked t).held := by
  refine foldl_held (fun t n => ?_) _ t
  show (if (t.lateFree.getLsbD n && !t.locks.getLsbD n) = true then _ else _) = _
  split <;> rfl

theorem land_held (c : Nat → Nat × Nat × Nat) (t : Strip) (x : Landing) : land c t.held x = (land c t x).held := by
  rw [land, land, foldl_held (landPart_held c), ← freeUnlocked_held]
  rfl

theorem landAll_held (c : Nat → Nat × Nat × Nat) (t : Strip) : landAll c t.held = (landAll c t).held :=
  foldl_held (land_held c) t.outstanding { t with outstanding := [] }

theorem vectored_held (c : Nat → Nat × Nat × Nat) (h : DWord) (t : Strip) (p : TrapInfo) :
    t.held.vectored c h p = t.vectored c h p := by
  simp only [Strip.vectored, landAll_held, writeTrapState_eq]
  rfl

theorem trapped_held (w : Seat) (s : State) (t : Strip) (p : TrapInfo) : w.trapped s t.held p = w.trapped s t p := by
  rw [Seat.trapped, vectored_held]
  rfl

/-- R262, R265: NOP with its S bit issues and then stops the strip at the end of the region. -/
theorem nop_stops {s : State} {w : Seat} {p : TrapInfo} (h : s.turned (.nop true) = some w) (ha : w.allowed (.nop true) = true)
    (hg : w.unevenG (.nop true) = false) (hv : w.vectors) (hl : w.fr.active ≠ 0) (hq : w.t.replay.length ≤ 8)
    (hne : w.t.replay ≠ []) (hp : parkedTrap w.t.live w.pcNext w.t.replay = some p) :
    exec (.nop true) s = .next (w.trapped w.s ({ w.t with pc := w.pcNext }.counted w.x.cfg.sstep) p) := by
  have hex : exec (.nop true) s = .next (w.issues s (.nop true) (fun _ => []) fun w => w.done (.ok w.fr)) :=
    (runAlu_turned h fun _ fr => .ok fr : execNop true s = _)
  have hstop : stopsAtQueue w (w.form (.nop true)) (.nop true) false [] = false := by
    simp [stopsAtQueue, Seat.form, formOf, Form.bare, endsRegion, ordersAccesses, roleRegs, pagesOf, touchesSo]
  have hlock : w.locked (.nop true) = false := rfl
  have hrel : w.unreleased (.nop true) = false := rfl
  have hbusy : (!w.t.priv && decide (8 < ({ w.t with pc := w.pcNext } : Strip).queued)) = false := by
    simp [Strip.queued, turned_wait h, hq]
  have hwhole : (!w.t.replay.isEmpty && !w.t.priv) = true := by
    simp [hv.1, hne]
  rw [hex]
  simp only [Seat.issues, encoded_of_allowed ha, early_none ha hl hg, skip_of_lanes hl, hstop, hlock, hrel, Bool.not_true,
    Bool.false_eq_true, if_false, Seat.done, turned_withFrame h, settle, hbusy]
  rw [finishIssue, if_pos (by rfl), regionEnd]
  have hwait : ¬ ({ ({ w.t with pc := w.pcNext } : Strip).counted w.x.cfg.sstep with parked := true } : Strip).wait ≠ .none :=
    fun hc => hc (turned_wait h)
  rw [if_neg hwait, if_pos (by exact hwhole)]
  exact congrArg Host.Outcome.next ((stop_parked (p := p)
    (t := { ({ w.t with pc := w.pcNext } : Strip).counted w.x.cfg.sstep with parked := true }) hv.1 rfl hv.2 _ hp).trans
      (trapped_held w _ _ p))

/-- Settles O15: the search for the lowest parked cause, and the places at which a strip stops. -/
theorem parkedTraps : Obligations.ParkedTraps := by
  unfold Obligations.ParkedTraps
  refine ⟨fun s i w h ha hg hv hl hne hq hf => ⟨fun hi => ?_, fun hword hregs hnamed => ?_⟩, parkedTrap_reports, ?_, ?_⟩
  · subst hi
    obtain ⟨p, hp⟩ := parkedTrap_some w.t.live w.pcNext w.t.replay hf hne
    exact ⟨p, hp, nop_stops h ha hg hv hl hq hne hp⟩
  · obtain ⟨p, hp⟩ := parkedTrap_some w.t.live w.t.pc w.t.replay hf hne
    have hlegal : (w.form i).legal = true := by
      simp only [Seat.allowed, Bool.and_eq_true] at ha
      exact ha.1.2
    have hw := turned_writable h hregs
    have hplain : w.PlainPart s i := by
      simp only [Bool.or_eq_true] at hword
      rcases hword with (hword | hword) | hword
      · exact plain_arithmetic h hw hlegal hword
      · exact plain_logic h hw hlegal hword
      · exact plain_immediate h hw hword
    obtain ⟨body, fr2, hex, hbody⟩ := hplain
    exact ⟨p, hp, by rw [hex, stops_before h ha hg hv hl hnamed hp (by rw [hbody]; rfl)]⟩
  · intro own parked hlt
    rw [trapTaken, if_pos hlt]
  · intro own parked hle
    rw [trapTaken, if_neg (Nat.not_lt.mpr hle)]

end Sys2Proof.Machine
end

section
/-! EXIT, ELECT and ELEND, and the end of a gang (R133, R134, R198, R324, R325). -/

namespace Sys2Proof.Machine

/-! The pops of EXIT. -/

/-- Where a popped entry goes on. -/
def StackEntry.onward (e : StackEntry) : DWord := if e.isPath then e.pc - 1 else if e.isCall then e.pc - 2 else e.pc + 4

theorem onward_eq (e : StackEntry) :
    (if e.pc.getLsbD 0 then e.pc - 1 else if e.pc.getLsbD 1 then e.pc - 2 else e.pc + 4) = e.onward := by
  rw [StackEntry.onward, StackEntry.isPath, StackEntry.isCall]
  cases h : e.pc.getLsbD 0 with
  | false => rw [Bool.not_false, Bool.true_and]
  | true => rfl

theorem popUntilActive_pop (fuel : Nat) {t : Strip} {e : StackEntry} {rest : List StackEntry} (ha : t.active = 0)
    (hs : t.stack = e :: rest) : popUntilActive (fuel + 1) t = popUntilActive fuel (t.resumed e rest e.onward) := by
  rw [popUntilActive, if_neg (not_not.mpr ha), hs]
  dsimp only
  rw [onward_eq]
  rfl

theorem popUntilActive_active (fuel : Nat) {t : Strip} (ha : t.active ≠ 0) : popUntilActive (fuel + 1) t = t := by
  rw [popUntilActive, if_pos ha]

/-- The strip goes on at the first entry with live lanes. -/
theorem popUntilActive_resumes (pre : List StackEntry) {e : StackEntry} {rest : List StackEntry} (fuel : Nat) (t : Strip)
    (ha : t.active = 0) (hs : t.stack = pre ++ e :: rest) (hpre : ∀ d ∈ pre, d.mask &&& t.live = 0)
    (he : e.mask &&& t.live ≠ 0) (hf : pre.length + 2 ≤ fuel) :
    popUntilActive fuel t = t.resumed e rest e.onward := by
  induction pre generalizing fuel t with
  | nil =>
    obtain ⟨fuel, rfl⟩ := Nat.exists_eq_add_of_le' hf
    rw [show fuel + (([] : List StackEntry).length + 2) = fuel + 1 + 1 from rfl, popUntilActive_pop _ ha hs,
      popUntilActive_active _ he]
  | cons d pre ih =>
    obtain ⟨fuel, rfl⟩ := Nat.exists_eq_add_of_le' hf
    have hdead : d.mask &&& t.live = 0 := hpre d List.mem_cons_self
    rw [show fuel + ((d :: pre).length + 2) = fuel + (pre.length + 2) + 1 by simp; omega, popUntilActive_pop _ ha hs]
    exact ih _ (t.resumed d (pre ++ e :: rest) d.onward) hdead rfl (fun c hc => hpre c (List.mem_cons_of_mem _ hc)) he
      (Nat.le_add_left _ _)

/-- The strip retires where no entry has a live lane. -/
theorem popUntilActive_retires (fuel : Nat) (t : Strip) (ha : t.active = 0) (hs : ∀ d ∈ t.stack, d.mask &&& t.live = 0)
    (hf : t.stack.length + 1 ≤ fuel) :
    let u := popUntilActive fuel t
    u.retired = true ∧ u.active = 0 ∧ u.stack = [] ∧ u.live = t.live ∧ u.idx = t.idx := by
  induction fuel generalizing t with
  | zero => omega
  | succ fuel ih =>
    cases hst : t.stack with
    | nil =>
      rw [popUntilActive, if_neg (not_not.mpr ha), hst]
      exact ⟨rfl, rfl, rfl, rfl, rfl⟩
    | cons e rest =>
      rw [hst] at hs hf
      rw [popUntilActive_pop _ ha hst]
      exact ih (t.resumed e rest e.onward) (hs e List.mem_cons_self) (fun d hd => hs d (List.mem_cons_of_mem _ hd))
        (Nat.le_of_succ_le_succ hf)

/-! EXIT. -/

theorem exit_out {s : State} {w : Seat} {st : Bool} {x : Option XWord} (hi : s.issuing (.exit st x) = some w) :
    exec (.exit st x) s = .next (settle w (.exit st x) (w.form (.exit st x)) (exitBody w)) := by
  show execExit st x s = _
  rw [execExit, runBoth_issuing hi]

@[simp] theorem landAll_stack (c : Nat → Nat × Nat × Nat) (t : Strip) : (landAll c t).stack = t.stack := by
  have h := landAll_core c t
  have h' : (landAll c t).core.stack = t.core.stack := by rw [h]
  exact h'

@[simp] theorem landAll_retired (c : Nat → Nat × Nat × Nat) (t : Strip) : (landAll c t).retired = t.retired := by
  have h := landAll_core c t
  have h' : (landAll c t).core.retired = t.core.retired := by rw [h]
  exact h'

theorem turned_live {s : State} {i : Instr} {w : Seat} (h : s.turned i = some w) : w.t.retired = false := by
  obtain ⟨gid, k, g, t, l, x, ht⟩ := turned_facts h
  have hready := ht.ready
  rw [ht.seat]
  simp only [stripReady, Bool.and_eq_true, Bool.not_eq_true'] at hready
  tauto

theorem issuing_turned {s : State} {i : Instr} {w : Seat} (h : s.issuing i = some w) : s.turned i = some w := by
  unfold State.issuing at h
  obtain ⟨v, hv, h⟩ := Option.bind_eq_some_iff.mp h
  split_ifs at h
  exact hv.trans h

/-- What EXIT does in a strip of user mode outside an ELECT region. -/
theorem exitBody_eq {w : Seat} (hp : w.t.priv = false) (he : w.t.elect = none) : exitBody w =
    let t := popUntilActive (w.left.stack.length + 1) w.left
    if t.retired then .gone (retireGang (w.s.setStrip w.g.id t) w.g.id) else .moved w.s t := by
  rw [exitBody, hp, he]
  show Done.of (if _ then _ else _) = _
  dsimp only [Seat.left]
  split <;> rfl

theorem left_course (w : Seat) : w.left.wait = w.t.wait ∧ w.left.parked = w.t.parked ∧ w.left.priv = w.t.priv ∧
    w.left.replay = w.t.replay := by
  have hcore := landAll_core w.coord w.t
  have hwait := congrArg Strip.wait hcore
  have hparked := congrArg Strip.parked hcore
  have hpriv := congrArg Strip.priv hcore
  have hreplay := congrArg Strip.replay hcore
  exact ⟨hwait, hparked, hpriv, hreplay⟩

section
variable {s : State} {w : Seat} {st : Bool} {x : Option XWord} (hi : s.issuing (.exit st x) = some w)
  (hp : w.t.priv = false) (he : w.t.elect = none)
include hi hp he

omit hp he in
theorem left_retired : w.left.retired = false := (landAll_retired _ _).trans (turned_live (issuing_turned hi))

theorem exit_goes {t : Strip} (ht : popUntilActive (w.left.stack.length + 1) w.left = t)
    (hcore : t.wait = w.left.wait ∧ t.parked = w.left.parked ∧ t.priv = w.left.priv ∧ t.replay = w.left.replay ∧
      t.retired = w.left.retired) : exec (.exit st x) s = .next (w.moved (.exit st x) w.s t) := by
  obtain ⟨hwait, hparked, hpriv, hreplay, hretired⟩ := hcore
  have hbody : exitBody w = .moved w.s t := by
    rw [exitBody_eq hp he]
    dsimp only
    rw [ht, if_neg (by rw [hretired, left_retired hi]; exact Bool.false_ne_true)]
  obtain ⟨hwait', hparked', hpriv', hreplay'⟩ := left_course w
  exact moves_of (seat_facts hi) (exit_out hi) hbody (hwait.trans hwait') (hparked.trans hparked') (hpriv.trans hpriv')
    (hreplay.trans hreplay')

theorem exit_stays (ha : w.left.active ≠ 0) : exec (.exit st x) s = .next (w.moved (.exit st x) w.s w.left) :=
  exit_goes hi hp he (popUntilActive_active _ ha) ⟨rfl, rfl, rfl, rfl, rfl⟩

theorem exit_resumes (ha : w.left.active = 0) {pre : List StackEntry} {e : StackEntry} {rest : List StackEntry}
    (hs : w.t.stack = pre ++ e :: rest) (hpre : ∀ d ∈ pre, d.mask &&& w.left.live = 0) (hl : e.mask &&& w.left.live ≠ 0) :
    exec (.exit st x) s = .next (w.moved (.exit st x) w.s (w.left.resumed e rest e.onward)) := by
  have hstack : w.left.stack = pre ++ e :: rest := (landAll_stack _ _).trans hs
  refine exit_goes hi hp he (popUntilActive_resumes pre _ _ ha hstack hpre hl ?_) ⟨rfl, rfl, rfl, rfl, rfl⟩
  rw [hstack, List.length_append, List.length_cons]
  omega

theorem exit_retires (ha : w.left.active = 0) (hs : ∀ d ∈ w.t.stack, d.mask &&& w.left.live = 0) :
    ∃ t, t.retired = true ∧ t.active = 0 ∧ t.stack = [] ∧ t.live = w.left.live ∧ t.idx = w.left.idx ∧
      exec (.exit st x) s = .next (retireGang (w.s.setStrip w.g.id t) w.g.id) := by
  have hstack : w.left.stack = w.t.stack := landAll_stack _ _
  obtain ⟨hret, hact, hst, hlive, hidx⟩ := popUntilActive_retires (w.left.stack.length + 1) w.left ha (hstack ▸ hs) le_rfl
  refine ⟨_, hret, hact, hst, hlive, hidx, ?_⟩
  have hbody := exitBody_eq hp he
  dsimp only at hbody
  rw [if_pos hret] at hbody
  rw [exit_out hi, hbody]
  rfl

end

/-! The end of a gang. -/

theorem gangUnacked_length (s : State) (g : Gang) : (gangUnacked s g).length =
    (g.strips.map (·.unacked)).sum + ((s.progs.filter fun p => p.gang == g.id).map (·.unacked)).sum := by
  simp [gangUnacked, List.length_flatMap]

/-- R198: a gang whose programs have ended, none stopped, goes without a trace but for its unacknowledged writes. -/
theorem retireGang_ended {s : State} {g : Gang} (hg : s.gang? g.id = some g) (hs : ∀ t ∈ g.strips, t.retired = true)
    (hp : ∀ p ∈ s.progs, p.gang = g.id → p.status = .ended) :
    retireGang s g.id = { s.mapLaunch g.launch fun l => { l with unacked := l.unacked ++ gangUnacked s g } with
      gangs := s.gangs.filter fun o => o.id != g.id
      progs := s.progs.filter fun p => p.gang != g.id } := by
  have hended : ∀ p ∈ s.progs.filter (·.gang == g.id), p.status = .ended := by
    intro p hm
    obtain ⟨hm, hgang⟩ := List.mem_filter.mp hm
    exact hp p hm (by simpa using hgang)
  have hstrips : g.strips.all (·.retired) = true := List.all_eq_true.mpr hs
  have hover : (s.progs.filter (·.gang == g.id)).all Prog.over = true :=
    List.all_eq_true.mpr fun p hm => by rw [Prog.over, hended p hm]
  have none (f : Prog → Bool) (hf : ∀ p ∈ s.progs.filter (·.gang == g.id), f p = false) :
      (s.progs.filter (·.gang == g.id)).filter f = [] := List.filter_eq_nil_iff.mpr fun p hm => by rw [hf p hm]; simp
  rw [retireGang, hg]
  simp only [hstrips, hover, Bool.and_self, if_true]
  rw [none]
  · rfl
  · intro p hm
    rw [hended p hm]
    rfl

/-! ELECT and ELEND. -/

/-- The leader of an ELECT region is the lowest active lane. -/
theorem lowestLane_eq {m : Mask} (hm : m ≠ 0) : ∃ l, l < 32 ∧ laneIn m l = true ∧ (∀ k < l, laneIn m k = false) ∧
    lowestLane m = BitVec.ofNat 32 (2 ^ l) := by
  have hsome : ∃ l, l < 32 ∧ laneIn m l = true := by
    by_contra hc
    refine hm (mask_ext fun l hl => ?_)
    have hoff : laneIn m l ≠ true := fun hon => hc ⟨l, hl, hon⟩
    rw [Bool.eq_false_of_not_eq_true hoff]
    simp [laneIn]
  have hp : ∃ l, laneIn m l = true := hsome.imp fun l hl => hl.2
  have hlow := Nat.find_spec hp
  have hmin (k : Nat) (hk : k < Nat.find hp) : laneIn m k = false := Bool.eq_false_of_not_eq_true (Nat.find_min hp hk)
  generalize Nat.find hp = l at hlow hmin
  have hl : l < 32 := by
    by_contra hc
    rw [laneIn, BitVec.getLsbD_of_ge _ _ (by omega)] at hlow
    cases hlow
  refine ⟨l, hl, hlow, hmin, ?_⟩
  have hhead : (lanesOf m).head? = some l := by
    rw [lanesOf, List.head?_filter]
    refine List.find?_range_eq_some.mpr ⟨hlow, by simpa using hl, fun k hk => by simp [hmin k hk]⟩
  refine mask_ext fun k hk => ?_
  rw [lowestLane, laneIn_maskOf _ _ hk, hhead, laneIn, BitVec.getLsbD_ofNat, Nat.testBit_two_pow]
  simp [hk]
  rfl

theorem elect_lanes {s : State} {i : Instr} {w : Seat} (h : SeatFacts s i w) : w.t.active ≠ 0 := by
  intro ha
  obtain ⟨gd, hgd⟩ := h.gd
  refine h.lanes ?_
  rw [hgd]
  cases gd with
  | absent => exact ha
  | uniform b => cases b <;> simp [stripFrame, ha]
  | lanes m => simp [stripFrame, ha]

theorem electBody_eq (w : Seat) : electBody w = if w.t.elect.isSome then .trap (plainTrap w.t 0x0C) else
    .next w.s { w.t with elect := some (w.t.active, w.t.stack.length), active := lowestLane w.t.active } := by
  cases he : w.t.elect <;> simp only [electBody, Seat.diverges, he] <;> rfl

theorem elect_out {s : State} {w : Seat} {st : Bool} (hi : s.issuing (.elect st) = some w) :
    exec (.elect st) s = .next (settle w (.elect st) (w.form (.elect st)) (electBody w)) := by
  show execElect st s = _
  rw [execElect, runStrip_issuing hi]

theorem elend_out {s : State} {w : Seat} {st : Bool} (hi : s.issuing (.elend st) = some w) :
    exec (.elend st) s = .next (settle w (.elend st) (w.form (.elend st)) (elendBody w)) := by
  show execElend st s = _
  rw [execElend, runStrip_issuing hi]

/-- The strip of a seat stands in the state in which its word works too. -/
theorem issuing_stands {s : State} {i : Instr} {w : Seat} (h : s.issuing i = some w) :
    w.s.ctx? w.g.ctx = some w.x ∧ ∃ u, w.s.strip? w.g.id w.t.idx = some u := by
  have hs := turned_stands (issuing_turned h)
  rw [turned_state (issuing_turned h)]
  split
  · exact hs
  · exact hs

/-- Settles O12: EXIT takes its lanes away, and ELECT and ELEND open and close a region. -/
theorem exitsAndElect : Obligations.ExitsAndElect := by
  unfold Obligations.ExitsAndElect
  refine ⟨fun s w st x hi hp he => ⟨exit_stays hi hp he, fun ha pre e rest hs hpre hl => exit_resumes hi hp he ha hs hpre hl,
    exit_retires hi hp he⟩, fun s w st x hi => ⟨fun he hv => ?_, fun hp => ?_⟩, fun s g hg hs hp => ?_,
    fun s w st => ⟨fun hi => ⟨fun he => ?_, fun he hv => ?_⟩, fun hi => ⟨fun m d he => ?_, fun he hv => ?_⟩⟩⟩
  · refine traps_of (seat_facts hi) hv (exit_out hi) ?_
    obtain ⟨e, he⟩ := Option.ne_none_iff_exists'.mp he
    rw [exitBody, hv.1, he]
    rfl
  · obtain ⟨u, r, hu, hfatal, hcause, hinner, hepc, hmask, hhalted⟩ := stop_halts (plainTrap w.t 0x08) (issuing_stands hi)
      (.inl hp) (fun hf => by rw [hp] at hf; cases hf)
    rw [hp] at hcause hinner hmask
    refine ⟨u, r, ?_, hfatal, hcause, hinner, hepc, hmask, hhalted⟩
    have hbody : exitBody w = .trap (plainTrap w.t 0x08) := by
      rw [exitBody, hp]
      rfl
    rw [exit_out hi, hbody, ← hu]
    rfl
  · exact ⟨gangUnacked s g, gangUnacked_length s g, retireGang_ended hg hs hp⟩
  · have h := seat_facts hi
    obtain ⟨l, hl, hon, hoff, hlow⟩ := lowestLane_eq (elect_lanes h)
    refine ⟨l, hl, hon, hoff, ?_⟩
    rw [← hlow]
    refine passes_of h (elect_out hi) ?_
    rw [electBody_eq, he]
    rfl
  · refine traps_of (seat_facts hi) hv (elect_out hi) ?_
    rw [electBody_eq, if_pos (Option.isSome_iff_ne_none.mpr he)]
  · refine passes_of (seat_facts hi) (elend_out hi) ?_
    rw [elendBody, he]
  · refine traps_of (seat_facts hi) hv (elend_out hi) ?_
    rw [elendBody, he]

end Sys2Proof.Machine
end

section
/-! ELOOP in a state in which two engine programs have one number (R203). -/

namespace Sys2Proof.Machine

/-- An engine program of gang 1 that runs, with a value in every e register. -/
def loopProg (n : DWord) : Prog :=
  { id := 2, ctx := 0, launch := 0, gang := 1, strip := 0, die := 0, cls := .cart, unit_ := 0, pc := 0x10000,
    e := Vector.replicate 16 n, scope := 0, priv := false, replay := false, fmt := 0, gen := Gen.mk 0 0, status := .running,
    since := 0, saved := false, unacked := 0, table := Vector.replicate 48 0, held := [], asked := [], added := none }

/-- A machine in which program 2 has the turn, and in which a second program has its number. -/
def loopMachine : State :=
  let s := place State.reset 32 0
  { s with cur := .prog 2, schedule := [], progs := [loopProg 0, loopProg 5] }

def loopWord : Instr := .eloop 0 0

theorem loopMachine_runs : (loopMachine.running loopWord).isSome = true := by decide

/-- The program with the turn. -/
def loopRunner : Prog := (loopMachine.running loopWord).get loopMachine_runs

theorem loopMachine_running : loopMachine.running loopWord = some loopRunner := (Option.some_get _).symm

/-- The second program counts down and goes back to its own word. -/
theorem exec_loopWord : ∃ u, exec loopWord loopMachine = .next u ∧ u.progs.map (·.pc) = [0x10004, 0x10000] :=
  ⟨_, rfl, by decide⟩

/-- Refutes O36: where a second program has the number of the one with the turn, ELOOP counts its register down too, and sends it
back although the register of the program with the turn is 0. -/
theorem not_engineControl : ¬ Obligations.EngineControl := by
  unfold Obligations.EngineControl
  rintro ⟨-, hloop, -, -⟩
  have hout := (hloop loopMachine loopRunner 0 0 loopMachine_running).1 (by decide)
  obtain ⟨u, hu, hpcs⟩ := exec_loopWord
  cases hu.symm.trans hout
  have hboth : (loopMachine.onward loopRunner id).progs.map (·.pc) = [0x10004, 0x10004] := by decide
  exact absurd (hpcs.symm.trans hboth) (by decide)

end Sys2Proof.Machine
end

section
/-! The words of an engine program with the turn (R91, R197, R200, R203, R370). -/

namespace Sys2Proof.Machine

/-- What becomes of an engine program whose command gives an answer (R200). -/
def Prog.answers (p : Prog) (s : State) (i : Instr) (r : Cmd (State × (Prog → Prog))) : State :=
  match r with
  | .ok (u, f) => u.performed p f
  | .error (.stop u sub a) => stopProg u p.id sub (low57 a)
  | .error (.wait _ links held) => s.mapProg p.id fun q => { q.asks s links with
      status := .waiting i
      table := p.table
      held := held
      since := if p.status == .running || (p.held.isEmpty && !held.isEmpty) then s.clock else q.since }

/-- What State.running says of its program. -/
structure RunningFacts (s : State) (i : Instr) (p q : Prog) : Prop where
  cur : s.cur = .prog q.id
  prog : s.prog? q.id = some q
  ready : progReady s q i = true
  eq : p = if q.status = .running then { q with table := tableOf s q.ctx } else q

theorem running_facts {s : State} {i : Instr} {p : Prog} (h : s.running i = some p) : ∃ q, RunningFacts s i p q := by
  unfold State.running at h
  split at h
  case h_2 => cases h
  case h_1 n hc =>
    obtain ⟨q, hq, hsome⟩ := Option.bind_eq_some_iff.mp h
    have hid : q.id = n := by simpa using List.find?_some hq
    subst hid
    by_cases hr : progReady s q i
    · rw [if_pos hr] at hsome
      exact ⟨q, hc, hq, hr, (Option.some.inj hsome).symm⟩
    · rw [if_neg hr] at hsome
      cases hsome

theorem stopProg_stops {s : State} {p : Prog} (h : s.prog? p.id = some p) (sub : Nat) (a : DWord) :
    stopProg s p.id sub a = p.stops s sub a := by
  rw [stopProg, h]
  rfl

section
variable {s : State} {i : Instr} {p : Prog} (h : s.running i = some p)
include h

/-- The program as it stands in the state differs by its table alone. -/
theorem running_stops (sub : Nat) (a : DWord) : stopProg s p.id sub a = p.stops s sub a := by
  obtain ⟨q, hq⟩ := running_facts h
  rw [hq.eq]
  split
  · exact stopProg_stops hq.prog sub a
  · exact stopProg_stops hq.prog sub a

theorem runCommand_running (cls : EngClass → Bool) (fields : Bool) (body : State → Prog → Cmd (State × (Prog → Prog))) :
    runCommand i cls fields body s =
      .next (if cls p.cls && fields then p.answers s i (body s p) else p.stops s 0x21 0) := by
  have hstop := running_stops h 0x21 0
  obtain ⟨q, hq⟩ := running_facts h
  have hid : p.id = q.id := by rw [hq.eq]; split <;> rfl
  have hcls : p.cls = q.cls := by rw [hq.eq]; split <;> rfl
  have hstatus : p.status = q.status := by rw [hq.eq]; split <;> rfl
  rw [← hstop, runCommand, runEngine, hq.cur]
  simp only [hq.prog, hq.ready, if_true]
  have hp : (if (q.status == .running) = true then { q with table := tableOf s q.ctx } else q) = p := by
    rw [hq.eq]
    simp only [beq_iff_eq]
  rw [hp, ← hcls, ← hid, ← hstatus]
  congr 1
  cases hc : cls p.cls && fields
  · rfl
  · simp only [Bool.not_true, Bool.false_eq_true, if_false, if_true]
    rcases body s p with (⟨u, sub, a⟩ | ⟨bs, ls, hs⟩) | ⟨u, f⟩ <;> rfl

theorem foreign_stops (he : isEvent i = false) (hn : isEngineWord i = false) : exec i s = .next (p.stops s 0x21 0) := by
  have hstop := running_stops h 0x21 0
  obtain ⟨spots, body, inSpan, hrun⟩ := exec_word he hn
  obtain ⟨q, hq⟩ := running_facts h
  have hid : p.id = q.id := by rw [hq.eq]; split <;> rfl
  rw [hrun s, runWord, hq.cur, ← hstop, hid]
  simp only [foreignWord, hq.prog, hq.ready, if_true]

/-- A command of another class. -/
theorem class_stops {cls : EngClass → Bool} {fields : Bool} {body : State → Prog → Cmd (State × (Prog → Prog))}
    (he : exec i s = runCommand i cls fields body s) (hc : cls p.cls = false) : exec i s = .next (p.stops s 0x21 0) := by
  rw [he, runCommand_running h, hc]
  rfl

/-- A command whose checks fail. -/
theorem check_stops {cls : EngClass → Bool} {fields : Bool} {body : State → Prog → Cmd (State × (Prog → Prog))} {sub : Nat}
    {a : DWord} (he : exec i s = runCommand i cls fields body s) (hc : (cls p.cls && fields) = true)
    (hb : body s p = .error (.stop s sub a)) : exec i s = .next (p.stops s sub (low57 a)) := by
  rw [he, runCommand_running h, hc, if_pos rfl, hb, ← running_stops h]
  rfl

end

theorem checkAll_high (s : State) {a : DWord} (h : 2 ^ 57 ≤ a.toNat) (ok : Bool) :
    checkAll s [a] ok = .error (.stop s 0x10 (low57 a)) := by
  have hf : [a].filter (fun a => decide (2 ^ 57 ≤ a.toNat)) = [a] :=
    List.filter_cons_of_pos (by simpa using h)
  rw [checkAll, hf]
  rfl

theorem checkAll_low (s : State) {a : DWord} (h : a.toNat < 2 ^ 57) (ok : Bool) : checkAll s [a] ok = stopIf s (!ok) 0x22 0 := by
  have hf : [a].filter (fun a => decide (2 ^ 57 ≤ a.toNat)) = [] :=
    List.filter_cons_of_neg (by simpa using h)
  rw [checkAll, hf]
  rfl

theorem low57_low57 (a : DWord) : low57 (low57 a) = low57 a := by simp [low57, BitVec.and_assoc]

/-- A word's address that is bad is found first. -/
theorem address_stops {s : State} {i : Instr} {p : Prog} (h : s.running i = some p) {cls : EngClass → Bool} {fields : Bool}
    {body : State → Prog → Cmd (State × (Prog → Prog))} {a : DWord} (he : exec i s = runCommand i cls fields body s)
    (hc : (cls p.cls && fields) = true) {rest : Cmd (State × (Prog → Prog))}
    (hb : body s p = checkAll s [a] (wordAddr a) >>= fun _ => rest) :
    (2 ^ 57 ≤ a.toNat → exec i s = .next (p.stops s 0x10 (a &&& 0x01FFFFFFFFFFFFFF))) ∧
      (a.toNat < 2 ^ 57 → a.toNat % 4 ≠ 0 ∨ inTwinWindow a.toNat = true → exec i s = .next (p.stops s 0x22 0)) := by
  refine ⟨fun hhigh => ?_, fun hlow hbad => ?_⟩
  · have hstop := check_stops h he hc (hb.trans (by rw [checkAll_high s hhigh]; rfl))
    rwa [low57_low57] at hstop
  · have hword : wordAddr a = false := by
      rw [wordAddr]
      rcases hbad with hbad | hbad
      · simp [hbad]
      · simp [hbad]
    exact check_stops h he hc (hb.trans (by rw [checkAll_low s hlow, hword]; rfl))

/-- Settles O37: what an engine program stops at before its command does anything. -/
theorem engineStops : Obligations.EngineStops := by
  unfold Obligations.EngineStops
  intro s p i h
  refine ⟨foreign_stops h, ?_, ?_, ?_, ?_, ?_, ?_⟩
  · rintro (⟨dims, cv, sg, ss, e, rfl⟩ | ⟨bd, e, rfl⟩) hc
    · exact class_stops h (rfl : _ = execCpy dims cv sg ss e s) (by simpa using hc)
    · exact class_stops h (rfl : _ = execRdst bd e s) (by simpa using hc)
  · rintro ⟨a, b, c, rfl⟩ hc
    exact class_stops h (rfl : _ = execMerge a b c s) (by simpa using hc)
  · rintro ⟨o, e, rfl⟩ hc
    exact class_stops h (rfl : _ = execTmma o e s) (by simpa using hc)
  · rintro ⟨o, e, rfl⟩ hc
    refine class_stops h (rfl : _ = execSmv o e s) ?_
    cases hcls : p.cls with
    | stack n => exact absurd hcls (hc n)
    | _ => rfl
  · rintro ⟨op, red, a, b, c, rfl⟩ hc
    exact class_stops h (rfl : _ = execColl op red a b c s) (by simpa using hc)
  · rintro ea eb (rfl | ⟨cond, hc, rfl⟩)
    · exact address_stops h (rfl : _ = execEsig ea eb s) rfl rfl
    · exact address_stops h (rfl : _ = execEwait ea eb cond s) (by simp [hc]) rfl

end Sys2Proof.Machine
end

section
/-! Memory words in a state whose memory is not in canonical form: a byte is listed twice there, and writing 0 to it brings
forward the second value (R166, R364). -/

namespace Sys2Proof.Machine

set_option Elab.async false

/-- Device memory with a byte that is listed twice, as 0 and as 7. -/
def State.listedTwice (s : State) (a : Nat) : State :=
  { s with device := { s.device with cells := (a, 0) :: (a, 7) :: s.device.cells } }

/-- A machine in which strip 0 of gang 1 has the turn, with U words in its registers and
lane 0 alone live and active. -/
def wordMachine (regs : List (Nat × Word)) : State :=
  let s := place State.reset 32 0
  { s with
    cur := .strip 1 0
    schedule := []
    gangs := s.gangs.map fun g => { g with
      strips := g.strips.map fun t => { t with live := 1, active := 1, regs := regs.foldl (fun v r => vset v r.1 (.u r.2)) t.regs } } }

/-- v8 points at the byte. -/
def storeMachine : State := (wordMachine [(8, 0x12000)]).listedTwice 0x12000

/-- A store of one byte of v4. -/
def byteStore : WMem := WMem.mk false 4 8 false 0 0 none

theorem storeMachine_issues : (storeMachine.issuing (.st byteStore)).isSome = true := by decide +kernel

/-- The seat in which the strip issues it. -/
def storeSeat : Seat := (storeMachine.issuing (.st byteStore)).get storeMachine_issues

theorem storeMachine_issuing : storeMachine.issuing (.st byteStore) = some storeSeat := (Option.some_get _).symm

/-- Whether a part goes through plainly, as a test. -/
def Plan.plainly (s : State) (c : Nat) (rd : Bool) (p : Plan) : Bool :=
  p.req.cause == 0 && !p.waits && p.segs.all fun g => !leafTw g.leaf && !leafTwin g.leaf && segTrouble s c rd g == .none &&
    (match g.tgt with
     | .device pa => !tdiRefuses s c pa g.len && !inShadow s pa
     | .peer _ _ => false
     | _ => true)

theorem plain_of_plainly {s : State} {c : Nat} {rd : Bool} {p : Plan} (h : p.plainly s c rd = true) : p.plain s c rd := by
  simp only [Plan.plainly, Bool.and_eq_true, beq_iff_eq, Bool.not_eq_true', List.all_eq_true] at h
  obtain ⟨⟨hcause, hwaits⟩, hsegs⟩ := h
  refine ⟨hcause, hwaits, fun g hg => ?_⟩
  obtain ⟨⟨⟨htw, htwin⟩, htrouble⟩, htgt⟩ := hsegs g hg
  refine ⟨htw, htwin, htrouble, ?_⟩
  cases hg : g.tgt <;> simp_all

/-- The byte at a place after a step. -/
def byteAfter (o : Out) (x : Target) : Byte :=
  match o with
  | .next u => u.byteAt x
  | _ => 0

theorem byteAfter_passed (w : Seat) (i : Instr) (m : State) (t : Strip) (x : Target) :
    byteAfter (.next (w.passed i m t)) x = m.byteAt x := by
  cases x <;> rfl

theorem exec_byteStore : byteAfter (exec (.st byteStore) storeMachine) (.device 0x12000) = 7 := by decide +kernel

/-- The store's one part, and the state after its walk. -/
def storeParts : List LaneReq := storeSeat.parts false byteStore (storeSeat.storeData byteStore none) fun _ => []
def storePlans : List Plan × State := storeSeat.plans .write true storeParts

theorem storePlans_plainly : (storePlans.1.all fun p => p.plainly storePlans.2 storeSeat.g.ctx false) = true := by decide +kernel

theorem storePlans_data : setBytes storePlans.2.byteAt (storePlans.1.flatMap fun p => p.targets.zip p.req.data) (.device 0x12000) = 0 := by
  decide +kernel

/-- Refutes O26: a store of 0 to a byte that memory lists twice leaves the second value there. -/
theorem not_stores : ¬ Obligations.Stores := by
  unfold Obligations.Stores
  intro h
  have hwin : (storeParts.all fun r => !inTwinWindow r.addr.toNat) = true := by decide +kernel
  obtain ⟨m, t, hex, -, -, -, hbytes, -⟩ := h storeMachine storeSeat (.st byteStore) byteStore false none storeMachine_issuing
    (.inl ⟨rfl, rfl⟩) (.inl ⟨by decide, rfl⟩) nofun (fun r hr => by simpa using List.all_eq_true.mp hwin r hr)
    fun p hp => plain_of_plainly (List.all_eq_true.mp storePlans_plainly p hp)
  have hbyte : m.byteAt (.device 0x12000) = 7 := by
    rw [← exec_byteStore, hex, byteAfter_passed]
  exact absurd ((hbyte.symm.trans (hbytes _)).trans storePlans_data) (by decide)

end Sys2Proof.Machine
end

section
/-! The same of ATOM (R166, R314). -/

namespace Sys2Proof.Machine

set_option Elab.async false

/-- An extension word that says nothing. -/
def plainX : XWord := XWord.mk 63 0 false 0 false false false 0 0

/-- An atomic addition of v10, which is 0, to the word at v8. -/
def wordAtom : WMem := WMem.mk false 4 8 false 0 2 (some { plainX with vc := 10 })

theorem atomMachine_issues : (storeMachine.issuing (.atom wordAtom)).isSome = true := by decide +kernel

def atomSeat : Seat := (storeMachine.issuing (.atom wordAtom)).get atomMachine_issues

theorem atomMachine_issuing : storeMachine.issuing (.atom wordAtom) = some atomSeat := (Option.some_get _).symm

theorem exec_wordAtom : byteAfter (exec (.atom wordAtom) storeMachine) (.device 0x12000) = 7 := by decide +kernel

/-- The atomic's one part, the state after its walk, and what its step leaves. -/
def atomParts : List LaneReq := atomSeat.parts false wordAtom (fun l => atomSeat.bytes (vcOf wordAtom.x) 4 l) fun _ => []
def atomPlans : List Plan × State := atomSeat.plans .both true atomParts
def atomFold : List (List Byte) × (Target → Byte) :=
  atomicFold (fun p old => some (toBytes (atomicOp (rndOf wordAtom.x) 4 (ofBytes old) (ofBytes p.req.data)) 4)) atomPlans.1
    atomPlans.2.byteAt

/-- Whether a part has no byte in host memory. -/
def Plan.offHost (p : Plan) : Bool := p.segs.all fun g => match g.tgt with
  | .host _ => false
  | _ => true

theorem atomPlans_plainly : (atomPlans.1.all fun p => p.plainly atomPlans.2 atomSeat.g.ctx true && p.offHost) = true := by
  decide +kernel

theorem atomFold_byte : atomFold.2 (.device 0x12000) = 0 := by decide +kernel

/-- Refutes O27: an atomic addition of 0 to a word that memory lists twice leaves the second value there. -/
theorem not_atomics : ¬ Obligations.Atomics := by
  unfold Obligations.Atomics
  intro h
  have hparts : (atomParts.all fun r => !inTwinWindow r.addr.toNat && r.addr.toNat % 2 ^ wordAtom.sz.toNat == 0) = true := by decide +kernel
  have hplans := List.all_eq_true.mp atomPlans_plainly
  simp only [Bool.and_eq_true] at hplans
  obtain ⟨m, t, x, hex, -, -, hbytes, -, -⟩ := h storeMachine atomSeat (.atom wordAtom) wordAtom atomMachine_issuing (.inl rfl)
    (by decide +kernel) (fun r hr => by simpa using List.all_eq_true.mp hparts r hr)
    (fun p hp => plain_of_plainly (hplans p hp).1)
    (fun p hp g hg a ha => by
      have hoff := List.all_eq_true.mp (hplans p hp).2 g hg
      rw [ha] at hoff
      cases hoff)
  have hbyte : m.byteAt (.device 0x12000) = 7 := by
    rw [← exec_wordAtom, hex, byteAfter_passed]
  have hfold : m.byteAt = atomFold.2 := hbytes
  exact absurd ((hbyte.symm.trans (congrFun hfold _)).trans atomFold_byte) (by decide)

end Sys2Proof.Machine
end

section
/-! The same of STT (R366, R367). -/

namespace Sys2Proof.Machine

set_option Elab.async false

/-- v8 points at the byte, and v10 is a stride of 64. -/
def tileMachine : State := (wordMachine [(8, 0x12000), (10, 64)]).listedTwice 0x12000

/-- A store of the block in v32 to v39, which hold 0. -/
def blockStore : WTile := WTile.mk false 32 8 10 false none

theorem tileMachine_issues : (tileMachine.issuing (.stt blockStore)).isSome = true := by decide +kernel

def tileSeat : Seat := (tileMachine.issuing (.stt blockStore)).get tileMachine_issues

theorem tileMachine_issuing : tileMachine.issuing (.stt blockStore) = some tileSeat := (Option.some_get _).symm

theorem exec_blockStore : byteAfter (exec (.stt blockStore) tileMachine) (.device 0x12000) = 7 := by decide +kernel

/-- The block's rows, and their parts with the state after their walks. -/
def tileParts : List LaneReq := (List.range 16).map fun n =>
  laneReq n (0x12000 + BitVec.ofNat 64 n * (loOf (64 : DWord)).signExtend 64) 64 (blockRow tileSeat.fr blockStore.d.toNat n) []
def tilePlans : List Plan × State :=
  { tileSeat with s := tileSeat.s.bump (choiceCount tileParts) }.plans .write true
    (chooseBytes tileSeat.s.tick [16, 8] tileParts)

theorem tilePlans_plainly : (tilePlans.1.all fun p => p.plainly tilePlans.2 tileSeat.g.ctx false) = true := by decide +kernel

/-- Every byte that the rows store is 0, and the byte that memory lists twice is one of theirs. -/
theorem tileParts_zero : (tileParts.all fun r => r.data.all (· == 0)) = true := by decide +kernel
theorem tilePlans_reach : (tilePlans.1.any fun p => p.targets.contains (.device 0x12000)) = true := by decide +kernel

/-- Whether a value is a U word. -/
def Val.isWord (v : Val) (n : DWord) : Bool :=
  match v with
  | .u m => m == n
  | _ => false

theorem Val.eq_of_isWord {v : Val} {n : DWord} (h : v.isWord n = true) : v = .u n := by
  cases v with
  | u m => rw [eq_of_beq h]
  | a f => cases h
  | l f => cases h

/-- Refutes O30: a store of rows of 0 over a byte that memory lists twice leaves the second value there. -/
theorem not_tileStores : ¬ Obligations.TileStores := by
  unfold Obligations.TileStores
  rintro ⟨h, -, -⟩
  have hwin : (tileParts.all fun r => !inTwinWindow r.addr.toNat) = true := by decide +kernel
  have hpair : tileSeat.fr.pair blockStore.a.toNat = .u 0x12000 := Val.eq_of_isWord (by decide +kernel)
  have hstride : tileSeat.fr.reg blockStore.b.toNat = .u 64 := Val.eq_of_isWord (by decide +kernel)
  have h := h tileMachine tileSeat (.stt blockStore) blockStore tileParts tileMachine_issuing
    (by decide +kernel) (.inl ⟨0x12000, 64, rfl, hpair, hstride, rfl⟩)
  have hplainly := tilePlans_plainly
  have hreach := tilePlans_reach
  rw [tilePlans] at hplainly hreach
  generalize { tileSeat with s := tileSeat.s.bump (choiceCount tileParts) }.plans .write true
    (chooseBytes tileSeat.s.tick [16, 8] tileParts) = plans at h hplainly hreach
  obtain ⟨ps, u⟩ := plans
  obtain ⟨m, hex, -, -, hput⟩ := h (fun r hr => by simpa using List.all_eq_true.mp hwin r hr)
    fun p hp => plain_of_plainly (List.all_eq_true.mp hplainly p hp)
  obtain ⟨p, hp, hx⟩ := List.any_eq_true.mp hreach
  obtain ⟨-, -, -, -, r, hr, k, b, hb, -, hbyte⟩ := hput (.device 0x12000) p hp (List.contains_iff_mem.mp hx)
  have hzero : b = 0 := by
    have hdata := List.all_eq_true.mp (List.all_eq_true.mp tileParts_zero r hr) b (List.mem_of_getElem? hb)
    simpa using hdata
  have hseven : m.byteAt (.device 0x12000) = 7 := by
    rw [← exec_blockStore, hex, byteAfter_passed]
  rw [hzero] at hbyte
  exact absurd (hseven.symm.trans hbyte) (by decide)

end Sys2Proof.Machine
end

section
/-! The same of LD under LAST, which gives a line up (R170, R179, R343). -/

namespace Sys2Proof.Machine

set_option Elab.async false

/-- The line of the byte is dirty: backing memory holds 0 in all of it. -/
def loadMachine : State :=
  { storeMachine with device := { storeMachine.device with dirty := [{ line := 0x240, old := List.replicate 128 0, acct := none }] } }

/-- A load under LAST of the word at v8. -/
def wordLoad : WMem := WMem.mk false 4 8 false 0 2 (some { plainX with cls := 2 })

theorem wordLoad_last : lastOf wordLoad.x = true := by decide

theorem loadMachine_issues : (loadMachine.issuing (.ld wordLoad)).isSome = true := by decide +kernel

theorem exec_wordLoad : byteAfter (exec (.ld wordLoad) loadMachine) (.device 0x12000) = 7 := by decide +kernel

def loadSeat : Seat := (loadMachine.issuing (.ld wordLoad)).get loadMachine_issues

theorem loadMachine_issuing : loadMachine.issuing (.ld wordLoad) = some loadSeat := (Option.some_get _).symm

/-- The load's one part, and its places with the state after its walk. -/
def loadParts : List LaneReq := loadSeat.parts false wordLoad (fun _ => []) fun _ => []
def loadPlans : List Plan × State := loadSeat.plans .read false loadParts

theorem loadPlans_plainly : (loadPlans.1.all fun p => p.plainly loadPlans.2 loadSeat.g.ctx true) = true := by decide +kernel

/-- Both the cached byte and the one in backing memory are 0. -/
theorem loadPlans_byte : loadPlans.2.byteAt (.device 0x12000) = 0 ∧ loadPlans.2.backing (.device 0x12000) = some 0 := by
  decide +kernel

/-- Refutes O25: where memory lists a byte twice, the line that a load under LAST gives up has the second value there. -/
theorem not_loads : ¬ Obligations.Loads := by
  unfold Obligations.Loads
  intro h
  have hwin : (loadParts.all fun r => !inTwinWindow r.addr.toNat) = true := by decide +kernel
  obtain ⟨m, t, x, hex, -, -, hbytes, -⟩ := h loadMachine loadSeat (.ld wordLoad) wordLoad false none loadMachine_issuing
    (.inl ⟨rfl, rfl⟩) (by decide +kernel) (.inl ⟨by decide, rfl⟩) nofun
    (fun r hr => by simpa using List.all_eq_true.mp hwin r hr)
    fun p hp => plain_of_plainly (List.all_eq_true.mp loadPlans_plainly p hp)
  have hseven : m.byteAt (.device 0x12000) = 7 := by
    rw [← exec_wordLoad, hex, byteAfter_passed]
  rcases hbytes (.device 0x12000) with hsame | ⟨-, -, hback⟩
  · exact absurd ((hseven.symm.trans hsame).trans loadPlans_byte.1) (by decide)
  · rw [hseven] at hback
    exact absurd (hback.symm.trans loadPlans_byte.2) (by decide)

end Sys2Proof.Machine
end

section
/-! The same of LDT under LAST (R170, R179, R345). -/

namespace Sys2Proof.Machine

set_option Elab.async false

/-- v8 points at the byte, whose line is dirty, and v10 is a stride of 64. -/
def blockMachine : State := { tileMachine with device := loadMachine.device }

/-- A load under LAST of a block of bytes into v32 to v39. -/
def blockLoad : WTile := WTile.mk false 32 8 10 false (some { plainX with cls := 2 })

theorem blockMachine_issues : (blockMachine.issuing (.ldt blockLoad)).isSome = true := by decide +kernel

def blockSeat : Seat := (blockMachine.issuing (.ldt blockLoad)).get blockMachine_issues

theorem blockMachine_issuing : blockMachine.issuing (.ldt blockLoad) = some blockSeat := (Option.some_get _).symm

theorem exec_blockLoad : byteAfter (exec (.ldt blockLoad) blockMachine) (.device 0x12000) = 7 := by decide +kernel

/-- The block's rows, and their parts with the state after their walks. -/
def loadRows : List LaneReq :=
  ldtRows blockSeat.x.fmtTable blockLoad.t ((none : Option DWord).map Ent.of) 0x12000 ((loOf (64 : DWord)).signExtend 64)
def blockPlans : List Plan × State := blockSeat.plans .read false loadRows

theorem blockPlans_plainly : (blockPlans.1.all fun p => p.plainly blockPlans.2 blockSeat.g.ctx true) = true := by decide +kernel

theorem blockPlans_byte : blockPlans.2.byteAt (.device 0x12000) = 0 ∧ blockPlans.2.backing (.device 0x12000) = some 0 := by
  decide +kernel

/-- Refutes O29: where memory lists a byte twice, the line that a block load under LAST gives up has the second value there. -/
theorem not_tileLoads : ¬ Obligations.TileLoads := by
  unfold Obligations.TileLoads
  intro h
  have hwin : (loadRows.all fun r => !inTwinWindow r.addr.toNat) = true := by decide +kernel
  have hpair : blockSeat.fr.pair blockLoad.a.toNat = .u 0x12000 := Val.eq_of_isWord (by decide +kernel)
  have hstride : blockSeat.fr.reg blockLoad.b.toNat = .u 64 := Val.eq_of_isWord (by decide +kernel)
  have h := h blockMachine blockSeat blockLoad none 0x12000 64 blockMachine_issuing (by decide +kernel) (by decide +kernel)
    hpair hstride (.inl ⟨by decide, rfl, rfl⟩)
  have hplainly := blockPlans_plainly
  have hbyte := blockPlans_byte
  rw [blockPlans, loadRows] at hplainly hbyte
  rw [loadRows] at hwin
  dsimp only at h
  generalize blockSeat.plans .read false _ = plans at h hplainly hbyte
  obtain ⟨ps, u⟩ := plans
  obtain ⟨hcached, hbacking⟩ := hbyte
  obtain ⟨m, t, x, hex, -, -, hbytes, -⟩ := h (fun r hr => by simpa using List.all_eq_true.mp hwin r hr)
    fun p hp => plain_of_plainly (List.all_eq_true.mp hplainly p hp)
  have hseven : m.byteAt (.device 0x12000) = 7 := by
    rw [← exec_blockLoad, hex, byteAfter_passed]
  rcases hbytes (.device 0x12000) with hsame | ⟨-, -, hback⟩
  · exact absurd ((hseven.symm.trans hsame).trans hcached) (by decide)
  · rw [hseven] at hback
    exact absurd (hback.symm.trans hbacking) (by decide)

end Sys2Proof.Machine
end

section
/-! The same of count words (R223, R224). -/

namespace Sys2Proof.Machine

set_option Elab.async false

/-- A machine whose count word at 0 has a byte that memory lists twice. -/
def countMachine : State := State.reset.listedTwice 2

/-- Refutes O35: a first use of a block leaves the second value of the byte in its count. -/
theorem not_twinAccesses : ¬ Obligations.TwinAccesses := by
  unfold Obligations.TwinAccesses
  rintro ⟨h, -⟩
  obtain ⟨huses, -, -⟩ := h countMachine 0 1 (by decide) (by decide)
  obtain ⟨-, -, hcount, -⟩ := huses (by decide +kernel)
  have hseven : countUses (addUses countMachine 0 1) 0 = 0x70001 := by decide +kernel
  have hone : 1 + (if countState countMachine 0 = 1 then countUses countMachine 0 else 0) = 1 := by decide +kernel
  exact absurd ((hseven.symm.trans hcount).trans hone) (by decide)

end Sys2Proof.Machine
end

section
/-! The same of engine commands (R204 to R208). -/

namespace Sys2Proof.Machine

set_option Elab.async false

/-! Commands that go through plainly, as a test. -/

/-- The parts of a command's reads and writes, and the state after their walks and the reads. -/
def Prog.accesses (p : Prog) (s : State) (reads writes : List (DWord × Nat)) : List Plan × List Plan × State :=
  let r := planAll s p.ctx .read p.priv false ((engReqs reads).map (keptReq p.held))
  let w := planAll r.2 p.ctx .write p.priv true (engReqs writes)
  (r.1, w.1, w.2.readSegs (p.acct w.2) none (r.1.flatMap (·.segs)))

/-- Whether they go through plainly. -/
def Prog.plainly (p : Prog) (s : State) (rmw : Bool) (reads writes : List (DWord × Nat)) : Bool :=
  let a := p.accesses s reads writes
  a.1.all (·.plainly a.2.2 p.ctx true) && a.2.1.all (·.plainly a.2.2 p.ctx rmw) && (!onStack p.cls || a.1.all fun q => !q.onTier)

theorem passes_of_plainly {p : Prog} {s : State} {rmw : Bool} {reads writes : List (DWord × Nat)}
    (h : p.plainly s rmw reads writes = true) :
    p.passes s rmw reads writes (p.accesses s reads writes).1 (p.accesses s reads writes).2.1 (p.accesses s reads writes).2.2 := by
  simp only [Prog.plainly, Bool.and_eq_true, List.all_eq_true, Bool.or_eq_true, Bool.not_eq_true'] at h
  obtain ⟨⟨hread, hwritten⟩, hnear⟩ := h
  refine ⟨⟨_, _, rfl, rfl, rfl⟩, fun q hq => plain_of_plainly (hread q hq), fun q hq => plain_of_plainly (hwritten q hq),
    fun hs q hq => ?_⟩
  rcases hnear with hn | hn
  · rw [hs] at hn
    cases hn
  · exact hn q hq

/-! CPY. -/

/-- A machine in which program 2 has the turn, with values in its e registers; a descriptor is at 0x14000, and a byte at 0x13000
is listed twice. -/
def engineMachine (c : EngClass) (e : List DWord) (descriptor : List Byte) : State :=
  let s := place State.reset 32 0
  let p := { loopProg 0 with cls := c, e := Vector.ofFn fun k : Fin 16 => e.getD k.val 0 }
  let s := { s with
    cur := .prog 2
    schedule := []
    progs := [p]
    device := { s.device with cells := cellsWrite s.device.cells 0x14000 descriptor } }
  s.listedTwice 0x13000

/-- A copy of a byte from 0x12000 to 0x13000. -/
def copyMachine : State := engineMachine .cart [0x12000, 0x13000, 0x14000]
  (toBytes 1 4 ++ toBytes 1 2 ++ toBytes 1 2 ++ toBytes (63 + 63 * 256) 4 ++ toBytes 0 52)

def copyFields : WEng := WEng.mk 0 1 2 3
def copyWord : Instr := .cpy 0 false false false copyFields

theorem copyMachine_runs : (copyMachine.running copyWord).isSome = true := by decide +kernel

def copyProg : Prog := (copyMachine.running copyWord).get copyMachine_runs

theorem copyMachine_running : copyMachine.running copyWord = some copyProg := (Option.some_get _).symm

theorem exec_copyWord : byteAfter (exec copyWord copyMachine) (.device 0x13000) = 7 := by decide +kernel

/-! The descriptor's part with the state after its read, and the parts of the box's rows with the state after theirs. -/

def copyHead : List Plan × List Plan × State := copyProg.accesses copyMachine [(0x14000, 64)] []
def copyBytes : List Byte := (bytesOf copyHead.2.2 copyHead.1).headD []
def copyBox : Copy := copyOf copyProg copyBytes
def copyFrom : List (DWord × Nat) := boxRanges copyProg.table none 0x12000 copyBox.sy copyBox.sz copyBox.nx (copyRows copyBox)
def copyInto : List (DWord × Nat) := boxRanges copyProg.table none 0x13000 copyBox.dy copyBox.dz copyBox.nx (copyRows copyBox)
def copyMoves : List Plan × List Plan × State := copyProg.accesses copyHead.2.2 copyFrom copyInto

theorem copyHead_plainly : copyProg.plainly copyMachine false [(0x14000, 64)] [] = true := by decide +kernel
theorem copyMoves_plainly : copyProg.plainly copyHead.2.2 false copyFrom copyInto = true := by decide +kernel

theorem copyMoves_apart :
    ((copyMoves.1.flatMap (·.targets)).all fun x => !(copyMoves.2.1.flatMap (·.targets)).contains x) = true := by decide +kernel

theorem not_placesMeet_of {ps qs : List Plan} (h : ((ps.flatMap (·.targets)).all fun x => !(qs.flatMap (·.targets)).contains x) = true) :
    ¬ placesMeet ps qs := by
  rintro ⟨x, hp, hq⟩
  have hout := List.all_eq_true.mp h x hp
  rw [List.contains_iff_mem.mpr hq] at hout
  cases hout

theorem copyInto_apart : rowsApart copyInto := by
  unfold rowsApart
  decide +kernel

theorem copyMoves_data : setBytes copyMoves.2.2.byteAt
    ((copyMoves.2.1.zip (copyData copyProg.table copyProg copyBox false (copyRows copyBox) (bytesOf copyMoves.2.2 copyMoves.1))).flatMap
      fun (q, d) => q.targets.zip d) (.device 0x13000) = 0 := by decide +kernel

/-- Refutes O38: a copy of 0 to a byte that memory lists twice leaves the second value there. -/
theorem not_engineCopies : ¬ Obligations.EngineCopies := by
  unfold Obligations.EngineCopies
  rintro ⟨h, -⟩
  obtain ⟨m, hstored, hex, -, -⟩ := h copyMachine copyProg 0 false false false copyFields copyHead.1 copyMoves.1 copyMoves.2.1
    copyHead.2.2 copyMoves.2.2 copyMachine_running (by decide +kernel) (by decide) nofun (by decide +kernel) (by decide +kernel)
    (by decide +kernel) (by decide +kernel) nofun (passes_of_plainly copyHead_plainly) (by decide +kernel)
    (passes_of_plainly copyMoves_plainly) (not_placesMeet_of copyMoves_apart) copyInto_apart
  have hbyte : m.byteAt (.device 0x13000) = 7 := by
    rw [← exec_copyWord, copyWord, hex rfl]
    rfl
  exact absurd ((hbyte.symm.trans (hstored.bytes _)).trans copyMoves_data) (by decide)

end Sys2Proof.Machine
end

section
/-! The same of a reduction's barrier word (R206). -/

namespace Sys2Proof.Machine

set_option Elab.async false

/-- A machine in which program 2 has still to take 1 off the barrier word at 0x13000, which holds 1, and whose low byte is
listed as 7 too. -/
def barrierMachine : State :=
  let s := engineMachine .cart [] []
  { s with
    progs := s.progs.map fun p => { p with added := some 0x13000 }
    device := { s.device with cells := (0x13000, 1) :: (0x13000, 7) :: (place State.reset 32 0).device.cells } }

def barrierWord : Instr := .rdst true copyFields

theorem barrierMachine_runs : (barrierMachine.running barrierWord).isSome = true := by decide +kernel

def barrierProg : Prog := (barrierMachine.running barrierWord).get barrierMachine_runs

theorem barrierMachine_running : barrierMachine.running barrierWord = some barrierProg := (Option.some_get _).symm

theorem exec_barrierWord : byteAfter (exec barrierWord barrierMachine) (.device 0x13000) = 7 := by decide +kernel

/-- The word's part, with the state after its read. -/
def barrierParts : List Plan × List Plan × State := barrierProg.accesses barrierMachine [] [(0x13000, 4)]

theorem barrierParts_plainly : barrierProg.plainly barrierMachine true [] [(0x13000, 4)] = true := by decide +kernel

theorem barrierParts_data : setBytes barrierParts.2.2.byteAt ((barrierParts.2.1.zip
    [toBytes (wordOf ((bytesOf barrierParts.2.2 barrierParts.2.1).headD []) - 1).toNat 4]).flatMap
      fun (q, d) => q.targets.zip d) (.device 0x13000) = 0 := by decide +kernel

/-- Refutes O39: a barrier word that memory lists twice is 7 after a decrease from 1. -/
theorem not_engineReductions : ¬ Obligations.EngineReductions := by
  unfold Obligations.EngineReductions
  rintro ⟨-, h, -⟩
  obtain ⟨-, hadd⟩ := h barrierMachine barrierProg copyFields 0x13000 barrierParts.2.1 barrierParts.2.2 barrierMachine_running
    (by decide +kernel) (by decide +kernel)
  have hparts : barrierParts.1 = [] := by decide +kernel
  obtain ⟨m, hex, hstored⟩ := hadd (by decide +kernel) (hparts ▸ passes_of_plainly barrierParts_plainly)
  have hbyte : m.byteAt (.device 0x13000) = 7 := by
    rw [← exec_barrierWord, barrierWord, hex]
    rfl
  exact absurd ((hbyte.symm.trans (hstored.bytes _)).trans barrierParts_data) (by decide)

end Sys2Proof.Machine
end

section
/-! The same of matrices and collectives (R212, R214). -/

namespace Sys2Proof.Machine

set_option Elab.async false

/-! TMMA. -/

/-- A machine in which program 2 multiplies a 1 × 0 by a 0 × 1 matrix of FP8 into 0x13000. -/
def matrixMachine : State :=
  let s := engineMachine .mill [0x14000, 1, 1, 0]
    (toBytes 0 16 ++ toBytes 0x13000 8 ++ toBytes 0 24 ++ toBytes (5 + 5 * 2 ^ 8 + 5 * 2 ^ 16 + 2 ^ 22) 8 ++ toBytes 0 8)
  { s with progs := s.progs.map fun p => { p with table := freshTable } }

def matrixWord : Instr := .tmma true copyFields

theorem matrixMachine_runs : (matrixMachine.running matrixWord).isSome = true := by decide +kernel

def matrixProg : Prog := (matrixMachine.running matrixWord).get matrixMachine_runs

theorem matrixMachine_running : matrixMachine.running matrixWord = some matrixProg := (Option.some_get _).symm

theorem exec_matrixWord : byteAfter (exec matrixWord matrixMachine) (.device 0x13000) = 7 := by decide +kernel

/-- The descriptor's part with the state after its read, and the part of C's row with the state after its walk. -/
def matrixHead : List Plan × List Plan × State := matrixProg.accesses matrixMachine [(0x14000, 64)] []
def matrixMul : Mul := mulOf matrixProg ((bytesOf matrixHead.2.2 matrixHead.1).headD [])
def matrixParts : List Plan × List Plan × State := matrixProg.accesses matrixHead.2.2 [] [(0x13000, 1)]

theorem matrixHead_plainly : matrixProg.plainly matrixMachine false [(0x14000, 64)] [] = true := by decide +kernel
theorem matrixParts_plainly : matrixProg.plainly matrixHead.2.2 false [] [(0x13000, 1)] = true := by decide +kernel

theorem matrixParts_data : setBytes matrixParts.2.2.byteAt ((matrixParts.2.1.zip [[0]]).flatMap
      fun (q, d) => q.targets.zip d) (.device 0x13000) = 0 := by decide +kernel

/-- Refutes O40: a product of 0 into a byte that memory lists twice leaves the second value there. -/
theorem not_engineMatrices : ¬ Obligations.EngineMatrices := by
  unfold Obligations.EngineMatrices
  rintro ⟨h, -⟩
  have h := h matrixMachine matrixProg true copyFields matrixHead.1 matrixHead.2.2 matrixMachine_running (by decide +kernel)
    (by decide +kernel) (by decide +kernel) (passes_of_plainly matrixHead_plainly) (by decide +kernel) (by decide +kernel)
    (by decide +kernel) (by decide +kernel)
  obtain ⟨-, h⟩ := h
  have hparts : matrixParts.1 = [] := by decide +kernel
  have hpass := passes_of_plainly matrixParts_plainly
  obtain ⟨u, hex, hstored⟩ := h (by decide +kernel) (by decide +kernel) [] [] [] [] [] matrixParts.2.1 matrixParts.2.2
    (by decide +kernel) (by decide +kernel) (by decide +kernel) (by decide +kernel) (hparts ▸ hpass)
    (List.pairwise_singleton _ _)
  have hbyte : u.byteAt (.device 0x13000) = 7 := by
    rw [← exec_matrixWord, matrixWord, hex]
    rfl
  exact absurd ((hbyte.symm.trans (hstored.bytes _)).trans matrixParts_data) (by decide)

/-! COLL. -/

/-- A machine in which program 2 is alone in its collective, with a buffer of one FP8 element at 0x13000. -/
def collMachine : State :=
  let s := engineMachine .weav [0x13000, 1, 0x14000] (toBytes 0 4 ++ toBytes (5 + 5 * 2 ^ 8 + 2 ^ 16) 4 ++ toBytes 0 24)
  { s with progs := s.progs.map fun p => { p with table := freshTable } }

def collWord : Instr := .coll .allReduce 0 0 1 2

theorem collMachine_runs : (collMachine.running collWord).isSome = true := by decide +kernel

def collProg : Prog := (collMachine.running collWord).get collMachine_runs

theorem collMachine_running : collMachine.running collWord = some collProg := (Option.some_get _).symm

theorem collMachine_launched : (collMachine.launch? collProg.launch).isSome = true := by decide +kernel

def collLaunch : Launch := (collMachine.launch? collProg.launch).get collMachine_launched

theorem exec_collWord : byteAfter (exec collWord collMachine) (.device 0x13000) = 7 := by decide +kernel

/-- The descriptor's part with the state after its read, this rank's part, and the parts of its buffer with the state after
theirs. -/
def collHead : List Plan × List Plan × State := collProg.accesses collMachine [(0x14000, 32)] []
def collOwn : CollPeer := collPart collProg collLaunch .allReduce 0 0x14000 0x13000 1 ((bytesOf collHead.2.2 collHead.1).headD [])
def collParts : List Plan × List Plan × State := collProg.accesses collHead.2.2 [(0x13000, 1)] [(0x13000, 1)]

theorem collHead_plainly : collProg.plainly collMachine false [(0x14000, 32)] [] = true := by decide +kernel
theorem collParts_plainly : collProg.plainly collHead.2.2 false [(0x13000, 1)] [(0x13000, 1)] = true := by decide +kernel

def collResult : List Byte :=
  let f := Ent.of collOwn.bfmt
  spanPut ((bytesOf collParts.2.2 collParts.2.1).headD []) 0 f.wid 0 ((List.range 1).map fun j =>
    (f.round 1 false 0 ((Ent.of collOwn.wfmt).decode ((Ent.of collOwn.wfmt).round collOwn.rnd.toNat collOwn.sat
      (engDraw collProg collOwn.rnd.toNat j)
      (f.decode (spanCode ((bytesOf collParts.2.2 collParts.1).headD []) 0 f.wid j))).1)).1)

theorem collParts_data : setBytes collParts.2.2.byteAt ((collParts.2.1.zip [collResult]).flatMap
      fun (q, d) => q.targets.zip d) (.device 0x13000) = 0 := by decide +kernel

/-- Refutes O41: a collective of one rank that puts 0 into a byte that memory lists twice leaves the second value there. -/
theorem not_engineCollectives : ¬ Obligations.EngineCollectives := by
  unfold Obligations.EngineCollectives
  rintro ⟨h, -⟩
  obtain ⟨-, -, h⟩ := h collMachine collProg .allReduce 0 0 1 2 collHead.1 collHead.2.2 collLaunch collMachine_running
    (by decide +kernel) (by decide) nofun (by decide +kernel) (passes_of_plainly collHead_plainly) (Option.some_get _).symm
  obtain ⟨m, hex, hstored⟩ := h (by decide +kernel) (by decide +kernel) (by decide +kernel) (by decide +kernel) collParts.1
    collParts.2.1 collParts.2.2 (passes_of_plainly collParts_plainly)
  have hbyte : m.byteAt (.device 0x13000) = 7 := by
    rw [← exec_collWord, collWord, hex]
    rfl
  exact absurd ((hbyte.symm.trans (hstored.bytes _)).trans collParts_data) (by decide)

end Sys2Proof.Machine
end

section
/-! The same of a page-table entry that PGMAP writes (R255). -/

namespace Sys2Proof.Machine

set_option Elab.async false

/-- A machine in which a strip in supervisor mode has an address of the second 2 MiB and a leaf in its registers; the leaf's slot is
empty, and its byte 4 is listed twice. -/
def mapMachine : State :=
  let s := (wordMachine [(8, 0x200000), (10, 0x3B)]).listedTwice 0x40000C
  { s with gangs := s.gangs.map fun g => { g with strips := g.strips.map fun t => { t with priv := true } } }

def mapFields : WAddr2 := WAddr2.mk false 8 10 none
def mapWord : Instr := .pgmapL1 mapFields

theorem mapMachine_issues : (mapMachine.issuing mapWord).isSome = true := by decide +kernel

def mapSeat : Seat := (mapMachine.issuing mapWord).get mapMachine_issues

theorem mapMachine_issuing : mapMachine.issuing mapWord = some mapSeat := (Option.some_get _).symm

theorem mapSeat_slot : slotFor mapSeat.s mapSeat.g.ctx mapSeat.x.root 0x200000 1 = some 0x400008 := by decide +kernel
theorem mapSeat_entry : entryRead mapSeat.s mapSeat.g.ctx 0x400008 = some 0 := by decide +kernel

/-- The entry at an address after a step. -/
def entryAfter (o : Out) (c pa : Nat) : Option DWord :=
  match o with
  | .next u => entryRead u c pa
  | _ => none

theorem exec_mapWord : entryAfter (exec mapWord mapMachine) mapSeat.g.ctx 0x400008 = some 0x70000003B := by decide +kernel

theorem entryAfter_passed (w : Seat) (i : Instr) (m : State) (t : Strip) (c pa : Nat) :
    entryAfter (.next (w.passed i m t)) c pa = entryRead m c pa := rfl

/-- Refutes O33: an entry written over a byte that memory lists twice does not read back. -/
theorem not_pageTables : ¬ Obligations.PageTables := by
  unfold Obligations.PageTables
  rintro ⟨h, -⟩
  obtain ⟨hwrites, -, -⟩ := h mapMachine mapSeat mapWord mapFields 1 0x200000 0x3B mapMachine_issuing (.inr ⟨rfl, rfl⟩)
    (Val.eq_of_isWord (by decide +kernel)) (Val.eq_of_isWord (by decide +kernel))
  obtain ⟨u, hex, -, -, hread, -⟩ := hwrites (by decide +kernel) 0x400008 0 mapSeat_slot mapSeat_entry (by decide)
  rw [← entryAfter_passed mapSeat mapWord u mapSeat.t, ← hex, exec_mapWord] at hread
  exact absurd (Option.some.inj hread) (by decide)

end Sys2Proof.Machine
end

section
/-! The same of a checkpoint's header and of an image line that is evicted (R62, R237). -/

namespace Sys2Proof.Machine

set_option Elab.async false

/-! CKPT. -/

/-- A machine in which the one strip waits at the recompute barrier with a CKPT to 0x12000; the header's byte at 0x12008 is listed
twice. -/
def checkpointMachine : State :=
  let s := (wordMachine []).listedTwice 0x12008
  { s with gangs := s.gangs.map fun g => { g with
      recompute := [RecArrival.mk 0 .ckpt 0x12000]
      strips := g.strips.map fun t => { t with wait := .phase 16 0 4 } } }

theorem checkpointMachine_gang : (checkpointMachine.gang? 1).isSome = true := by decide +kernel

def checkpointGang : Gang := (checkpointMachine.gang? 1).get checkpointMachine_gang

theorem checkpointMachine_runs : (runningLaunch checkpointMachine checkpointGang).isSome = true := by decide +kernel

def checkpointLaunch : Launch := (runningLaunch checkpointMachine checkpointGang).get checkpointMachine_runs

theorem checkpointGang_strip : checkpointGang.strips.head?.isSome = true := by decide +kernel

def checkpointStrip : Strip := checkpointGang.strips.head?.get checkpointGang_strip

theorem exec_checkpoint : byteAfter (exec (.barrierPhaseComplete 1 16) checkpointMachine) (.device 0x12008) = 7 := by
  decide +kernel

theorem checkpointGang_facts : checkpointGang.id = 1 ∧ checkpointGang.recompute = [RecArrival.mk 0 .ckpt 0x12000] ∧
    checkpointGang.strips.length = 1 ∧ checkpointStrip.away = [] ∧ checkpointStrip.replay = [] ∧
    checkpointStrip.wait = .phase 16 0 4 ∧ checkpointStrip.idx = 0 ∧ checkpointStrip.retired = false := by
  decide +kernel

theorem checkpointGang_strips : checkpointGang.strips = [checkpointStrip] := by
  obtain ⟨t, ht⟩ := List.length_eq_one_iff.mp checkpointGang_facts.2.2.1
  simp [checkpointStrip, ht]

/-- The parts of the header and of the strip's record, with the state after their walks. -/
def checkpointParts : List Plan × State :=
  planAll (checkpointMachine.mapGang checkpointGang.id fun x =>
      { x with recompute := [], recPhase := x.recPhase + 1, replayMode := checkpointGang.replayMode })
    checkpointGang.ctx .write checkpointStrip.priv true
    [laneReq 0 0x12000 64 (slotHeader checkpointGang) [], laneReq 1 (0x12000 + 64 + BitVec.ofNat 64 (96 * checkpointStrip.idx)) 96
      (genBytes checkpointStrip) []]

theorem checkpointParts_plainly :
    (checkpointParts.1.all fun p => p.plainly checkpointParts.2 checkpointGang.ctx false) = true := by decide +kernel

theorem checkpointParts_apart : placesApart checkpointParts.1 := by
  unfold placesApart
  decide +kernel

theorem checkpointParts_data : setBytes checkpointParts.2.byteAt
    ((checkpointParts.1.zip [slotHeader checkpointGang, genBytes checkpointStrip]).flatMap fun (q, d) => q.targets.zip d)
      (.device 0x12008) = 0 := by decide +kernel

/-- Refutes O44: of a header written over a byte that memory lists twice the second value stays. -/
theorem not_phasesAndResults : ¬ Obligations.PhasesAndResults := by
  unfold Obligations.PhasesAndResults
  rintro ⟨-, h, -⟩
  obtain ⟨hid, hrec, -, haway, hreplay, hwait, hidx, hretired⟩ := checkpointGang_facts
  have hstrips := checkpointGang_strips
  have hall : ∀ t ∈ checkpointGang.strips, t = checkpointStrip := fun t ht => by simpa [hstrips] using ht
  have hgang : checkpointMachine.gang? checkpointGang.id = some checkpointGang := by
    rw [hid]
    exact (Option.some_get _).symm
  have hruns : runningLaunch checkpointMachine checkpointGang = some checkpointLaunch := (Option.some_get _).symm
  have hready : ∀ t ∈ checkpointGang.strips, t.away = [] ∧ (t.priv = true ∨ t.replay = []) ∧ (∀ a ∈ t.replay, a.pos < t.seq) ∧
      ((t.retired = true ∧ t.wait = .none) ∨
        ((∃ p k, t.wait = .phase 16 p k) ∧ ∃ q ∈ checkpointGang.recompute, q.strip = t.idx)) := fun t ht => by
    rw [hall t ht, haway, hreplay, hretired, hwait, hidx, hrec]
    exact ⟨rfl, .inr rfl, List.forall_mem_nil _, .inr ⟨⟨0, 4, rfl⟩, _, List.mem_singleton_self _, rfl⟩⟩
  have h := h checkpointMachine checkpointGang checkpointLaunch (RecArrival.mk 0 .ckpt 0x12000) [] hgang hruns hrec hready
  obtain ⟨-, h, -⟩ := h
  have h := h (List.forall_mem_nil _) rfl checkpointStrip hstrips hretired fun q hq => by
    rw [hidx]
    exact Nat.zero_le _
  have hplainly := checkpointParts_plainly
  have hapart := checkpointParts_apart
  have hdata := checkpointParts_data
  rw [checkpointParts] at hplainly hapart hdata
  dsimp only at h
  generalize planAll _ checkpointGang.ctx _ _ _ _ = parts at h hplainly hapart hdata
  obtain ⟨ps, u⟩ := parts
  obtain ⟨m, ⟨w, -, hex⟩, hstored⟩ := h (fun p hp => plain_of_plainly (List.all_eq_true.mp hplainly p hp)) hapart
  have hbyte : m.byteAt (.device 0x12008) = 7 := by
    rw [← exec_checkpoint, ← hid, hex]
    rfl
  exact absurd ((hbyte.symm.trans (hstored.bytes _)).trans hdata) (by decide)

/-! A line of a strip's image. -/

/-- A machine in which the one strip's v0 is in L form with a 1 in lane 0; v0's line in the strip's image is where two values
of byte 1 are listed. -/
def imageMachine : State :=
  let s := (wordMachine []).listedTwice (imageAt probeBlock 0 + 1)
  { s with gangs := s.gangs.map fun g => { g with
      strips := g.strips.map fun t => { t with regs := vset t.regs 0 (.l (Vector.replicate 32 1)) } } }

theorem imageMachine_gang : (imageMachine.gang? 1).isSome = true := by decide +kernel

def imageGang : Gang := (imageMachine.gang? 1).get imageMachine_gang

theorem imageMachine_strip : (imageMachine.strip? 1 0).isSome = true := by decide +kernel

def imageStrip : Strip := (imageMachine.strip? 1 0).get imageMachine_strip

/-- The word of device memory at an address after a step. -/
def wordAfter (o : Out) (pa : Nat) : Word :=
  match o with
  | .next u => u.device.word pa
  | _ => 0

theorem exec_eviction : wordAfter (exec (.lineEviction false (imageStrip.image / 128 + 0) false) imageMachine)
    (128 * (imageStrip.image / 128 + 0) + 4 * 0) = 0x701 := by decide +kernel

theorem imageStrip_facts : imageGang.id = 1 ∧ imageStrip.idx = 0 ∧ imageStrip.caches (imageStrip.image / 128 + 0) = true ∧
    vget imageStrip.regs 0 (.u 0) = .l (Vector.replicate 32 1) ∧
    ((imageMachine.gangs.flatMap fun o => (o.strips.filter (·.caches (imageStrip.image / 128 + 0))).map fun w => (o.id, w.idx)) =
      [(imageGang.id, imageStrip.idx)]) := by
  decide +kernel

/-- Refutes O46: of an image line written back over a byte that memory lists twice the second value stays. -/
theorem not_residency : ¬ Obligations.Residency := by
  unfold Obligations.Residency
  rintro ⟨-, -, -, -, -, -, h, -⟩
  obtain ⟨hid, hidx, hcaches, hreg, hone⟩ := imageStrip_facts
  have hstrip : imageMachine.strip? imageGang.id imageStrip.idx = some imageStrip := by
    rw [hid, hidx]
    exact (Option.some_get _).symm
  obtain ⟨u, hex, -, -, hword, -⟩ := h imageMachine imageGang imageStrip 0 false hstrip (by decide) hcaches hone
  have hone := hword _ (by decide) hreg 0 (by decide)
  have hseven : u.device.word (128 * (imageStrip.image / 128 + 0) + 4 * 0) = 0x701 := by
    rw [← exec_eviction, hex]
    rfl
  exact absurd (hseven.symm.trans hone) (by decide)

end Sys2Proof.Machine
end

section
/-! The same of what the command processor, the host and the peers write (R144, R287, R280, R293). -/

namespace Sys2Proof.Machine

set_option Elab.async false

/-! The state of a node. -/

/-- A machine with a record at 0x12000 whose CODE is listed twice. -/
def recordMachine : State := (place State.reset 32 0).listedTwice 0x12045

/-- The part of a write of STATE and CODE with the state after its walk. -/
def recordPart : Plan × State := planReq recordMachine 0 .write true true (laneReq 0 (0x12000 + 0x44) 2 [3, 0] [])

theorem recordPart_plainly : recordPart.1.plainly recordPart.2 0 false = true := by decide +kernel

theorem recordPart_data : setBytes recordPart.2.byteAt (([recordPart.1].zip [[3, 0]]).flatMap fun (q, d) => q.targets.zip d)
    (.device 0x12045) = 0 := by decide +kernel

theorem writeState_recordMachine : (writeState recordMachine 0 0x12000 .done 0 none 0).byteAt (.device 0x12045) = 7 := by
  decide +kernel

/-- Refutes O48: of a CODE of 0 written over a byte that memory lists twice the second value stays. -/
theorem not_nodeRecords : ¬ Obligations.NodeRecords := by
  unfold Obligations.NodeRecords
  rintro ⟨h, -⟩
  have h := h recordMachine 0 0x12000 .done 0 none 0
  have hplainly := recordPart_plainly
  have hdata := recordPart_data
  rw [recordPart] at hplainly hdata
  have hbytes : [BitVec.ofNat 8 NodeState.done.code, BitVec.ofNat 8 0] = [3, 0] := rfl
  dsimp only at h
  rw [hbytes] at h
  generalize planReq _ 0 _ _ _ _ = part at h hplainly hdata
  obtain ⟨p, u⟩ := part
  obtain ⟨-, h, -⟩ := h
  have hstored := h (fun ⟨w, hw, _⟩ => List.not_mem_nil hw) (plain_of_plainly hplainly)
  exact absurd ((writeState_recordMachine.symm.trans (hstored.bytes _)).trans hdata) (by decide)

/-! The status of a command. -/

/-- A machine whose host memory lists byte 1 of the STATUS at the queue's head twice. -/
def statusMachine : State := { State.reset with host := [(5, 0), (5, 7)] }

/-- Refutes O50: of a STATUS written over a byte that host memory lists twice the second value stays. -/
theorem not_hostCommands : ¬ Obligations.HostCommands := by
  unfold Obligations.HostCommands
  rintro ⟨⟨h, -⟩, -⟩
  obtain ⟨-, hstatus, -⟩ := h statusMachine false 1
  have hread : cellsRead (endCommand false 1 statusMachine).host
      ((statusMachine.queue false).base.toNat + 64 * (statusMachine.queue false).head + 4) 4 = [1, 7, 0, 0] := by decide +kernel
  exact absurd (hread.symm.trans hstatus) (by decide)

/-! A line that is lost, and a write of the host. -/

/-- A machine with a dirty line at 0, whose old bytes are 0, and whose byte 0 device memory lists twice. -/
def dirtyMachine : State :=
  let s := State.reset.listedTwice 0
  { s with device := { s.device with dirty := [DirtyLine.mk 0 (List.replicate 128 0) none] } }

/-- The bytes of device memory after a step. -/
def deviceAfter (o : Out) : Nat → Byte :=
  match o with
  | .next u => cellGet u.device.cells
  | _ => fun _ => 0

theorem exec_lineLost : deviceAfter (exec (.lineEviction false 0 true) dirtyMachine) 0 = 7 := by decide +kernel

/-- Refutes O52: of an old line put back over a byte that memory lists twice the second value stays. -/
theorem not_linkEvents : ¬ Obligations.LinkEvents := by
  unfold Obligations.LinkEvents
  rintro ⟨-, -, -, -, -, -, -, -, -, -, h, -⟩
  obtain ⟨-, h⟩ := h dirtyMachine false true 0 (DirtyLine.mk 0 (List.replicate 128 0) none) (.inr (by decide +kernel))
  obtain ⟨u, hex, -, hbad⟩ := h (by decide +kernel) nofun
  obtain ⟨v, hv, hu, -, -, hold, -⟩ := hbad rfl
  have howners : ownersOf v false (128 * 0) = [] := by
    rw [hv]
    rfl
  rw [howners] at hu
  have hcell : cellGet u.device.cells 0 = 7 := by
    rw [← exec_lineLost, hex]
    rfl
  have hread := congrArg (·.getD 0 0) (hold List.length_replicate)
  rw [show u = v from hu] at hcell
  have hzero : cellGet v.device.cells 0 = 0 := hread
  exact absurd (hcell.symm.trans hzero) (by decide)

/-- A machine under CXL whose byte 0 device memory lists twice. -/
def hostMachine : State :=
  let s := State.reset.listedTwice 0
  { s with dev := { s.dev with link := .up true 6 16 } }

def hostStore : HostAccess := HostAccess.mk 0 1 (some [0]) none

theorem exec_hostStore : deviceAfter (exec (.hdmAccess hostStore) hostMachine) 0 = 7 := by decide +kernel

/-- Refutes O53: of a byte that memory lists twice the second value stays where the host writes 0. -/
theorem not_outsideAccesses : ¬ Obligations.OutsideAccesses := by
  unfold Obligations.OutsideAccesses
  rintro ⟨h, -⟩
  obtain ⟨-, h⟩ := h hostMachine hostStore (true, .hdmAccess hostStore) (List.mem_cons_self ..)
  obtain ⟨-, -, -, h⟩ := h ⟨6, 16, rfl⟩ (by decide)
  obtain ⟨h, -⟩ := h [0] rfl (fun ⟨t, ht, _⟩ => List.not_mem_nil ht) rfl
  obtain ⟨u, hex, -, -, hbyte, -⟩ := h (by decide +kernel)
  have hseven : cellGet u.device.cells 0 = 7 := by
    rw [← exec_hostStore, hex]
    rfl
  exact absurd (hseven.symm.trans (hbyte 0 (by decide))) (by decide)

/-- A record that passes its check. -/
def plainRecord : Record := Record.mk true 0 [] 0 0 0 0

theorem exec_reset : deviceAfter (exec (.deviceReset plainRecord) dirtyMachine) 0 = 7 := by decide +kernel

/-- Refutes O54: a dirty line whose old bytes are 0 is put back at a reset, and a byte that memory lists twice keeps the second
value. -/
theorem not_bootAndErrors : ¬ Obligations.BootAndErrors := by
  unfold Obligations.BootAndErrors
  rintro ⟨⟨h, -⟩, -⟩
  obtain ⟨u, hex, -, hlost, -⟩ := h dirtyMachine plainRecord
  obtain ⟨-, -, -, hback⟩ := hlost State.device (.inl rfl)
  obtain ⟨hold, -⟩ := hback (by decide +kernel) (by decide +kernel)
  have hcell : cellGet u.device.cells 0 = 7 := by
    rw [← exec_reset, hex]
    rfl
  have hzero : cellGet u.device.cells 0 = 0 := congrArg (·.getD 0 0) (hold _ (List.mem_singleton_self _))
  exact absurd (hcell.symm.trans hzero) (by decide)

end Sys2Proof.Machine
end

section
/-! Spans that share a number (R125): a word that a span executes writes its registers into each of them. -/

namespace Sys2Proof.Machine

set_option Elab.async false

/-- A span of the launch. -/
def firstSpan : Span := newSpan (probeLaunch 0) 0 9

/-- A machine in which span 9 has the turn, and in which a second span has its number, with a 5 in v1. -/
def twoSpanMachine : State :=
  let s := place State.reset 32 0
  { s with
    cur := .span 9
    schedule := []
    spans := [firstSpan, { firstSpan with regs := vset firstSpan.regs 1 (.u 5) }] }

def zeroMove : WMovi := WMovi.mk false 0 0 none

theorem twoSpanMachine_parts : (twoSpanMachine.launch? firstSpan.launch).isSome = true ∧ (twoSpanMachine.ctx? firstSpan.ctx).isSome = true := by
  decide +kernel

def spanLaunch : Launch := (twoSpanMachine.launch? firstSpan.launch).get twoSpanMachine_parts.1
def spanCtx : Ctx := (twoSpanMachine.ctx? firstSpan.ctx).get twoSpanMachine_parts.2

theorem twoSpanMachine_turn : twoSpanMachine.spanTurn firstSpan spanLaunch spanCtx where
  turn := rfl
  span := rfl
  launch := (Option.some_get _).symm
  ctx := (Option.some_get _).symm
  runs := by decide +kernel

/-- v1 of each span after a step. -/
def spanRegs (o : Out) : List Reg :=
  match o with
  | .next u => u.spans.map fun q => vget q.regs 1 (.u 0)
  | _ => []

theorem exec_zeroMove : spanRegs (exec (.movi zeroMove) twoSpanMachine) = [.u 0, .u 0] := by decide +kernel

/-- Refutes O42: a MOVI of a span also writes its other registers into a second span with its number. -/
theorem not_spanWords : ¬ Obligations.SpanWords := by
  unfold Obligations.SpanWords
  intro h
  obtain ⟨-, -, -, hmove, -⟩ := h twoSpanMachine firstSpan spanLaunch spanCtx twoSpanMachine_turn
  have hex := hmove zeroMove (by decide +kernel)
  have hfive : spanRegs (exec (.movi zeroMove) twoSpanMachine) = [.u 0, .u 5] := by
    rw [hex]
    decide +kernel
  exact absurd (exec_zeroMove.symm.trans hfive) (by decide)

end Sys2Proof.Machine
end

section
/-! Contexts that share a number (R293): a start that waits for a peer keeps the clock of its request in each of them. -/

namespace Sys2Proof.Machine

set_option Elab.async false

/-- A node that is ready, whose header lies at a peer. -/
def farNode : Node :=
  Node.mk 0 (NodeRec.mk 0x200000 0 0 (Box.mk 0 0 0 32 1 1) 0 0 0 0 []) .waiting (some 0)

/-- A context with that node in slot 0 and a peer in its peer table. -/
def farCtx : Ctx := { newCtx 0 false { probeBlock with peertab := 0x15000, npeer := 1 } with slots := [Slot.mk 0 0 (some farNode)] }

/-- A machine with that context, and with a second one of its number that has asked the peer for the header since clock 5. The
second 2 MiB of its addresses lie at the peer, which no port reaches. -/
def farMachine : State :=
  let s := place State.reset 32 0
  { s with
    clock := 9
    ctxs := [farCtx, { farCtx with starting := some (0, [(0x200000, 5)]) }]
    device := { s.device with
      cells := cellsWrite (cellsWrite s.device.cells 0x400008 (toBytes (0x3B + 3 * 2 ^ 52) 8)) 0x15009 [1] } }

/-- The keys of the requests that an access of the command processor waits for. -/
def Reach.awaited {α : Type} : Reach α → Option (List Nat)
  | .waits keys => some keys
  | _ => none

theorem Reach.eq_waits {α : Type} {r : Reach α} {keys : List Nat} (h : r.awaited = some keys) : r = .waits keys := by
  cases r <;> simp_all [Reach.awaited]

/-- What the starts of the contexts have asked for after a step. -/
def startsAfter (o : Out) : List (Option (Nat × Asked)) :=
  match o with
  | .next u => u.ctxs.map (·.starting)
  | _ => []

theorem exec_farStart :
    startsAfter (exec (.nodeStart 0 0) farMachine) = [some (0, [(0x200000, 9)]), some (0, [(0x200000, 5)])] := by
  decide +kernel

/-- The state in which the header is read. -/
def farReading : State :=
  farMachine.mapCtx 0 fun _ => { farCtx.setSlot (Slot.mk 0 0 (some { farNode with state := .running })) with starting := none }

theorem farHeader_awaited :
    (readHeader (farCtx.startAsked farNode) 0 farReading 0 0x200000 farCtx.fmtTable).1.awaited = some [0x200000] := by
  decide +kernel

/-- Refutes O49: the second context of a number keeps a clock of its own. -/
theorem not_nodesRun : ¬ Obligations.NodesRun := by
  unfold Obligations.NodesRun
  rintro ⟨h, -⟩
  obtain ⟨-, -, h⟩ := h farMachine farCtx 0 0 farNode rfl rfl rfl rfl rfl rfl
    fun _ _ _ _ _ _ _ => Nat.zero_le _
  obtain ⟨h, -⟩ := h (by decide +kernel) rfl
  have hex := h [0x200000] _ (Prod.ext (Reach.eq_waits farHeader_awaited) rfl)
  have hsame : startsAfter (exec (.nodeStart 0 0) farMachine) = [some (0, [(0x200000, 9)]), some (0, [(0x200000, 9)])] :=
    (congrArg startsAfter hex).trans (by decide +kernel)
  exact absurd (exec_farStart.symm.trans hsame) (by decide)

end Sys2Proof.Machine
end

section
/-! The assay processor's answers, and TDIs (R296 to R298). -/

namespace Sys2Proof.Machine

/-! Poisoned ranges. -/

/-- A byte of a range is poisoned once the range is. -/
theorem Ram.poisoned_addPoison {r : Ram} {base size b n : Nat} (hlo : base ≤ b) (hhi : b < base + size) (hn : 0 < n) :
    (r.addPoison base size).poisoned b n = true := by
  have hsize : size ≠ 0 := by omega
  rw [Ram.addPoison, if_neg hsize]
  simp only [Ram.poisoned, List.any_cons, Bool.and_eq_true, bne_iff_ne, Bool.or_eq_true, decide_eq_true_eq]
  exact ⟨by omega, .inl ⟨by omega, by omega⟩⟩

/-- What is poisoned stays so. -/
theorem Ram.poisoned_addPoison_of {r : Ram} {base size b n : Nat} (h : r.poisoned b n = true) :
    (r.addPoison base size).poisoned b n = true := by
  unfold Ram.addPoison
  split
  · exact h
  · simp only [Ram.poisoned, List.any_cons, Bool.and_eq_true, Bool.or_eq_true] at h ⊢
    exact ⟨h.1, .inr h.2⟩

/-- The memory after every region of a list has been poisoned. -/
def poisonAll (rs : List Region) (r : Ram) : Ram := rs.foldl (fun r x => r.addPoison x.base x.size) r

theorem poisonAll_keeps {b n : Nat} (rs : List Region) : ∀ {r : Ram}, r.poisoned b n = true → (poisonAll rs r).poisoned b n = true := by
  induction rs with
  | nil => exact id
  | cons x rs ih => exact fun h => ih (Ram.poisoned_addPoison_of h)

theorem poisonAll_poisoned {x : Region} {b n : Nat} (hlo : x.base ≤ b) (hhi : b < x.base + x.size) (hn : 0 < n)
    (rs : List Region) : ∀ {r : Ram}, x ∈ rs → (poisonAll rs r).poisoned b n = true := by
  induction rs with
  | nil => exact fun h => absurd h List.not_mem_nil
  | cons y rs ih =>
    intro r hx
    rcases List.mem_cons.mp hx with rfl | hx
    · exact poisonAll_keeps rs (Ram.poisoned_addPoison hlo hhi hn)
    · exact ih hx

/-- Poisoning changes the poison alone. -/
theorem poisonAll_only (rs : List Region) : ∀ r : Ram, poisonAll rs r = { r with poison := (poisonAll rs r).poison } := by
  induction rs with
  | nil => exact fun _ => rfl
  | cons x rs ih =>
    intro r
    have hx : (r.addPoison x.base x.size) = { r with poison := (r.addPoison x.base x.size).poison } := by
      unfold Ram.addPoison
      split <;> rfl
    calc poisonAll rs (r.addPoison x.base x.size)
        = { r.addPoison x.base x.size with poison := (poisonAll rs (r.addPoison x.base x.size)).poison } := ih _
      _ = { r with poison := (poisonAll rs (r.addPoison x.base x.size)).poison } :=
        (congrArg (fun m : Ram => { m with poison := (poisonAll rs (r.addPoison x.base x.size)).poison }) hx :)

/-- The memory after a TDI has left RUN or been unlocked. -/
def Tdi.leaves (t : Tdi) (r : Ram) : Ram := if t.state == .run then poisonAll t.regions r else r

theorem stopTdi_eq (s : State) (t : Tdi) : stopTdi s t =
    { s with device := t.leaves s.device, dev := { s.dev with tdis := mapWhere (·.num == t.num) Tdi.leave s.dev.tdis } } := rfl

theorem Tdi.leaves_only (t : Tdi) (r : Ram) : t.leaves r = { r with poison := (t.leaves r).poison } := by
  unfold Tdi.leaves
  split
  · exact poisonAll_only t.regions r
  · rfl

/-! The certificate chain. -/

theorem certChain_holds_key : ∃ head tail, certChain = head ++ keyBytes ++ tail := ⟨_, _, rfl⟩

/-- A part of a list from an offset, with what follows it. -/
theorem part_of_drop (l : List Byte) (off len : Nat) (h : off < l.length) :
    let bs := (l.drop off).take len
    bs.length ≤ len ∧ off + bs.length + ((l.drop off).length - len) = l.length ∧
      (0 < (l.drop off).length - len → bs.length = len) ∧ ∀ k < bs.length, bs.getD k 0 = l.getD (off + k) 0 := by
  intro bs
  have hlen : bs.length = min len (l.length - off) := by simp [bs]
  have hrest : (l.drop off).length = l.length - off := List.length_drop
  refine ⟨by omega, by omega, by omega, fun k hk => ?_⟩
  have hk' : k < len := by omega
  simp [bs, List.getD_eq_getElem?_getD, List.getElem?_drop, hk']

/-! Measurements. -/

/-- The measurements with their indices, and those that an index names. -/
def Assay.indexed (a : Assay) : List (Nat × BitVec 384) := a.measurements.zipIdx.map fun (m, i) => (i + 1, m)
def Assay.named (a : Assay) (index : BitVec 8) : List (Nat × BitVec 384) :=
  if index = 0xFF then a.indexed else a.indexed.filter (·.1 == index.toNat)

/-- No measurement has index 0. -/
theorem Assay.named_zero (a : Assay) : a.named 0 = [] := by
  rw [Assay.named, if_neg (by decide), List.filter_eq_nil_iff]
  intro m hm
  obtain ⟨⟨v, i⟩, -, rfl⟩ := List.mem_map.mp hm
  simp

theorem measurementsAt_some {a : Assay} {index : BitVec 8} (h : index = 0 ∨ index = 0xFF ∨ a.named index ≠ []) :
    measurementsAt a index = some (a.named index) := by
  unfold measurementsAt
  by_cases hall : index = 0xFF
  · subst hall
    rfl
  by_cases hzero : index = 0
  · subst hzero
    rw [a.named_zero]
    rfl
  have hsome : a.named index ≠ [] := (h.resolve_left hzero).resolve_left hall
  rw [Assay.named, if_neg hall] at hsome ⊢
  rw [if_neg hall, if_neg hzero]
  obtain ⟨m, l, hl⟩ := List.exists_cons_of_ne_nil hsome
  rw [hl]
  exact (congrArg (fun l => match l with | [] => none | l => some l) hl :)

theorem measurementsAt_none {a : Assay} {index : BitVec 8} (hzero : index ≠ 0) (hall : index ≠ 0xFF) (h : a.named index = []) :
    measurementsAt a index = none := by
  rw [Assay.named, if_neg hall] at h
  unfold measurementsAt
  rw [if_neg hall, if_neg hzero]
  exact (congrArg (fun l => match l with | [] => none | l => some l) h :)

/-! Locking. -/

theorem regionOk_iff (r : Region) :
    regionOk r = true ↔ r.base % 2 ^ 21 = 0 ∧ r.size % 2 ^ 21 = 0 ∧ 0 < r.size ∧ r.base + r.size ≤ 2 ^ 40 := by
  simp [regionOk, and_assoc]

/-- What LOCK_INTERFACE asks for. -/
def State.mayLock (s : State) (n c : Nat) (rs : List Region) : Prop :=
  n < 64 ∧ s.ctx? c ≠ none ∧ rs.length ≤ 16 ∧ (∀ t, s.dev.tdis.find? (·.num == n) = some t → t.state = .stopped) ∧
    ∀ r ∈ rs, r.base % 2 ^ 21 = 0 ∧ r.size % 2 ^ 21 = 0 ∧ 0 < r.size ∧ r.base + r.size ≤ 2 ^ 40

theorem lockTdi_refuses_iff (s : State) (n c : Nat) (rs : List Region) :
    (decide (64 ≤ n) || (s.ctx? c).isNone || decide (16 < rs.length) || !rs.all regionOk ||
      ((s.tdi? n).map fun t => t.state != .stopped).getD false) = true ↔ ¬ s.mayLock n c rs := by
  have hregions : (rs.all regionOk = true) ↔ ∀ r ∈ rs, r.base % 2 ^ 21 = 0 ∧ r.size % 2 ^ 21 = 0 ∧ 0 < r.size ∧ r.base + r.size ≤ 2 ^ 40 := by
    simp only [List.all_eq_true, regionOk_iff]
  have hfree : (((s.tdi? n).map fun t => t.state != .stopped).getD false = false) ↔
      ∀ t, s.dev.tdis.find? (·.num == n) = some t → t.state = .stopped := by
    rw [State.tdi?]
    cases s.dev.tdis.find? (·.num == n) <;> simp
  rw [State.mayLock, ← hregions, ← hfree]
  cases hctx : s.ctx? c <;> cases rs.all regionOk <;>
    cases ((s.tdi? n).map fun t => t.state != .stopped).getD false <;> simp
  omega

/-! The requests of a connection. -/

/-- The versions that GET_CAPABILITIES may have. -/
theorem spdmVersions_contains (m : Byte) : spdmVersions.contains m.toNat = true ↔ m = 0x13 ∨ m = 0x12 := by
  simp only [spdmVersions, List.contains_cons, List.contains_nil, Bool.or_false, Bool.or_eq_true, beq_iff_eq]
  constructor
  · exact fun h => h.imp (fun h => BitVec.eq_of_toNat_eq h) (fun h => BitVec.eq_of_toNat_eq h)
  · rintro (rfl | rfl) <;> decide

theorem spdmCapabilities_eq (s : State) : spdmCapabilities s =
    if s.dev.spdm.version = 0x10 ∧ (s.mail = 0x13 ∨ s.mail = 0x12) then
      answer s .capabilities { s.dev.spdm with version := s.mail.toNat, caps := true } else refuseDoe s := by
  have hcond : (s.dev.spdm.version != spdmFirst || !spdmVersions.contains s.mail.toNat) = true ↔
      ¬ (s.dev.spdm.version = 0x10 ∧ (s.mail = 0x13 ∨ s.mail = 0x12)) := by
    rw [← spdmVersions_contains, Bool.or_eq_true, bne_iff_ne, Bool.not_eq_true', not_and_or, Bool.not_eq_true]
    rfl
  unfold spdmCapabilities
  by_cases h : s.dev.spdm.version = 0x10 ∧ (s.mail = 0x13 ∨ s.mail = 0x12)
  · rw [if_neg (fun hc => hcond.mp hc h), if_pos h]
  · rw [if_pos (hcond.mpr h), if_neg h]

theorem spdmCertificate_part {s : State} {off len : Nat} (halgs : s.dev.spdm.algs = true) (hoff : off < certChain.length) :
    spdmCertificate 0 off len s =
      answer s (.certificate ((certChain.drop off).take len) ((certChain.drop off).length - len)) s.dev.spdm := by
  have hrest : (certChain.drop off).isEmpty = false := by
    rw [List.isEmpty_eq_false_iff, ne_eq, List.drop_eq_nil_iff]
    omega
  unfold spdmCertificate
  simp only [halgs, hrest]
  rfl

theorem spdmCertificate_refused {s : State} {slot : BitVec 8} {off len : Nat}
    (h : s.dev.spdm.algs = false ∨ slot ≠ 0 ∨ certChain.length ≤ off) : spdmCertificate slot off len s = refuseDoe s := by
  have hcond : (!s.dev.spdm.algs || decide (slot ≠ 0) || (certChain.drop off).isEmpty) = true := by
    simp only [Bool.or_eq_true, Bool.not_eq_true', decide_eq_true_eq, List.isEmpty_iff, List.drop_eq_nil_iff, or_assoc]
    exact h
  exact if_pos (by simpa using hcond)

theorem spdmMeasurements_part {s : State} {index : BitVec 8} {nonce : BitVec 256} (halgs : s.dev.spdm.algs = true)
    (h : index = 0 ∨ index = 0xFF ∨ s.dev.assay.named index ≠ []) : spdmMeasurements index nonce s =
      answer (s.bump 1) (.measurements (s.dev.assay.named index) (drawSignature s)) s.dev.spdm := by
  unfold spdmMeasurements
  rw [measurementsAt_some h]
  exact if_pos halgs

theorem spdmMeasurements_refused {s : State} {index : BitVec 8} {nonce : BitVec 256}
    (h : s.dev.spdm.algs = false ∨ (index ≠ 0 ∧ index ≠ 0xFF ∧ s.dev.assay.named index = [])) :
    spdmMeasurements index nonce s = refuseDoe s := by
  unfold spdmMeasurements
  rcases h with halgs | ⟨hzero, hall, hnone⟩
  · cases measurementsAt s.dev.assay index with
    | none => rfl
    | some l => exact if_neg (by simp [halgs])
  · rw [measurementsAt_none hzero hall hnone]

/-! TDIs that stop. -/

theorem tdi_num {s : State} {n : Nat} {t : Tdi} (h : s.tdi? n = some t) : t.num = n := by
  simpa using List.find?_some h

theorem stopTdi_of {s : State} {n : Nat} {t : Tdi} (h : s.tdi? n = some t) : stopTdi s t =
    { s with device := t.leaves s.device, dev := { s.dev with tdis := mapWhere (·.num == n) Tdi.leave s.dev.tdis } } := by
  rw [stopTdi_eq, tdi_num h]

theorem Tdi.leaves_idle {t : Tdi} (h : t.state ≠ .run) (r : Ram) : t.leaves r = r :=
  if_neg (by simpa using h)

theorem Tdi.leaves_poisoned {t : Tdi} (h : t.state = .run) (r : Ram) {x : Region} (hx : x ∈ t.regions) {b k : Nat}
    (hlo : x.base ≤ b) (hhi : b < x.base + x.size) (hk : 0 < k) : (t.leaves r).poisoned b k = true := by
  rw [Tdi.leaves, if_pos (by simp [h])]
  exact poisonAll_poisoned hlo hhi hk _ hx

/-- Settles O55, request by request. -/
theorem trust : Obligations.Trust := by
  unfold Obligations.Trust
  refine ⟨certChain_holds_key, fun s => ⟨rfl, ?_, ?_, ?_, fun slot off len => ⟨?_, ?_⟩, fun slot nonce => ⟨?_, ?_⟩,
    fun index nonce => ⟨?_, ?_⟩, fun nonce id => ⟨?_, ?_⟩, fun id => ?_, fun id => ?_⟩, fun s n c rs => ⟨?_, ?_⟩,
    fun s n => ⟨?_, ?_⟩⟩
  · show Host.Outcome.next (spdmCapabilities s) = _
    rw [spdmCapabilities_eq]
    split <;> rfl
  · show Host.Outcome.next (spdmAlgorithms s) = _
    unfold spdmAlgorithms
    by_cases h : s.dev.spdm.caps = true
    · rw [if_pos h, if_neg (by simp [h])]
      rfl
    · rw [if_neg h, if_pos (by simpa using h)]
      rfl
  · show Host.Outcome.next (spdmDigests s) = _
    unfold spdmDigests
    by_cases h : s.dev.spdm.algs = true
    · rw [if_pos h, if_neg (by simp [h])]
      rfl
    · rw [if_neg h, if_pos (by simpa using h)]
      rfl
  · rintro halgs rfl hoff
    obtain ⟨hlen, hsum, hfull, hget⟩ := part_of_drop certChain off len hoff
    exact ⟨_, _, congrArg _ (spdmCertificate_part halgs hoff), hlen, hsum, hfull, hget⟩
  · exact fun h => congrArg _ (spdmCertificate_refused h)
  · rintro halgs rfl
    exact ⟨drawSignature s, congrArg _ (if_neg (by simp [halgs]) : spdmChallenge 0 nonce s = _)⟩
  · exact fun h => congrArg _ (if_pos (by simpa using h) : spdmChallenge slot nonce s = _)
  · exact fun halgs h => ⟨drawSignature s, congrArg _ (spdmMeasurements_part halgs h)⟩
  · exact fun h => congrArg _ (spdmMeasurements_refused h)
  · exact fun halgs => ⟨drawSignature s, congrArg _ (if_neg (by simp [halgs]) : spdmKeyExchange nonce id s = _)⟩
  · exact fun h => congrArg _ (if_pos (by simp [h]) : spdmKeyExchange nonce id s = _)
  · show Host.Outcome.next (spdmFinish id s) = _
    unfold spdmFinish
    split <;> rfl
  · show Host.Outcome.next (spdmEnd id s) = _
    unfold spdmEnd
    split <;> rfl
  · exact fun h => congrArg _ (if_pos ((lockTdi_refuses_iff s n c rs).mpr h) : lockTdi n c rs s = _)
  · exact fun h => ⟨(List.range rs.length).map fun i => Config.regionKey (s.tick + i), by simp,
      congrArg _ (if_neg (fun hb => (lockTdi_refuses_iff s n c rs).mp hb h) : lockTdi n c rs s = _)⟩
  · intro hnone
    have hnone : s.tdi? n = none := hnone
    refine ⟨congrArg _ (?_ : startTdi n s = _), congrArg _ (?_ : unlockTdi n s = _), congrArg _ (?_ : failTdi n s = _)⟩
    · rw [startTdi, hnone]
      rfl
    · rw [unlockTdi, hnone]
      rfl
    · rw [failTdi, hnone]
  · intro t ht
    have ht : s.tdi? n = some t := ht
    refine ⟨fun h => congrArg _ (?_ : startTdi n s = _), fun h => congrArg _ (?_ : startTdi n s = _), t.leaves s.device,
      congrArg _ (?_ : unlockTdi n s = _), congrArg _ (?_ : failTdi n s = _), t.leaves_only s.device,
      fun h => t.leaves_idle h s.device, fun h x hx b k => t.leaves_poisoned h s.device hx⟩
    · simp [startTdi, ht, h]
    · simp [startTdi, ht, h, refuseDoe]
    · simp only [unlockTdi, ht, stopTdi_of ht]
      rfl
    · simp only [failTdi, ht, stopTdi_of ht]
      rfl

end Sys2Proof.Machine
end

section
/-! The turns of a step (R72, R91, R96, R161, R250, R269, R370). -/

namespace Sys2Proof.Machine

/-- A step is the turn that has begun. -/
theorem step_begun {s v : State} {turn : Turn} (h : s.begun = (turn, v)) : step s = takeTurn turn v := by
  have hstep : step s = takeTurn s.begun.1 s.begun.2 := by
    unfold step nextTurn State.begun
    cases s.schedule <;> rfl
  rw [hstep, h]

/-! Strips. -/

/-- Lines that a strip's cache holds are not fetched. -/
theorem bringIn_held {s : State} {gid k : Nat} {g : Gang} {t : Strip} (hg : s.gang? gid = some g) (ht : g.strip? k = some t)
    (haway : t.away = []) : bringIn gid k s = s := by
  rw [bringIn, hg]
  simp only [ht]
  cases s.launch? g.launch with
  | none => rfl
  | some l => simp [haway]

/-- A strip in user mode with nothing parked vectors for a trap of its own. -/
theorem stopStrip_vectored {s : State} {g : Gang} {t : Strip} {h : Header} (hp : t.priv = false) (hr : t.replay = [])
    (hh : handlerOf s g.ctx ≠ 0) (p : TrapInfo) :
    stopStrip s g t h (some p) t.pc = s.setStrip g.id (t.vectored (g.coord h t.idx) (handlerOf s g.ctx) p) := by
  have hq : parkedTrap t.live t.pc t.replay = none := by rw [hr]; rfl
  simp only [stopStrip, hp, hq, trapTaken, vectorWith, Bool.false_eq_true, if_false, landAll_priv, if_neg hh]
  rfl

section
variable {v : State} {gid k : Nat} {g : Gang} {t : Strip} {l : Launch} {x : Ctx}

/-- What holds of a strip that has a turn and goes on. -/
structure StripTurn (v : State) (gid k : Nat) (g : Gang) (t : Strip) (l : Launch) (x : Ctx) : Prop where
  gang : v.gang? gid = some g
  strip : g.strip? k = some t
  launch : v.launch? g.launch = some l
  ctx : v.ctx? g.ctx = some x
  runs : mayRun v g.ctx = true
  held : t.away = []
  calm : debugHits x.cfg t = false

theorem turnStrip_fetches (h : StripTurn v gid k g t l x) (hw : t.wait = .none) (hr : stripReady v g t l x (.nop false) = true)
    {ws : List Word} {u : State}
    (hf : crack g.bench g.ctx t.pc.toNat (fetchInstr g.ctx t.priv (some g.bench) t.asked t.pc.toNat v) = (.words ws, u)) :
    turnStrip gid k v = match decode ws with
      | none => .next (stopStrip u g t l.hdr (some (plainTrap t 0x08)) t.pc)
      | some i => exec i { u.setStrip gid { t with asked := [] } with cur := .strip gid k } := by
  rw [turnStrip, bringIn_held h.gang h.strip h.held]
  simp only [h.gang, h.strip, h.launch, h.ctx, hw, hr, h.runs, h.calm, hf, Bool.not_true, Bool.or_self, Bool.false_eq_true,
    if_false] <;> rfl

theorem turnStrip_again (h : StripTurn v gid k g t l x) {r : Reason} {i : Instr} (hw : t.wait = .again r i)
    (hr : stripReady v g t l x i = true) : turnStrip gid k v = exec i { v with cur := .strip gid k } := by
  rw [turnStrip, bringIn_held h.gang h.strip h.held]
  simp only [h.gang, h.strip, h.launch, h.ctx, hw, hr, h.runs, h.calm, Bool.not_true, Bool.or_self, Bool.false_eq_true, if_false]

end

/-! Spans. -/

theorem turnSpan_debug {v : State} {n : Nat} {p : Span} (hp : v.span? n = some p) (hw : p.waiting = false)
    (hr : mayRun v p.ctx = true) (hd : spanDebug (v.cfg p.ctx) p = true) : turnSpan n v = .next (dealOut v p) := by
  simp only [turnSpan, hp, hw, hr, hd, Bool.not_true, Bool.or_self, Bool.false_eq_true, if_false, if_true]

theorem turnSpan_fetches {v u : State} {n : Nat} {p : Span} {ws : List Word} (hp : v.span? n = some p) (hw : p.waiting = false)
    (hr : mayRun v p.ctx = true) (hd : spanDebug (v.cfg p.ctx) p = false)
    (hf : fetchInstr p.ctx false none p.asked p.pc.toNat v = (.words ws, u)) :
    turnSpan n v = match decode ws with
      | none => .next (dealOut u p)
      | some i => exec i { u.mapSpan n (fun q => { q with asked := [] }) with cur := .span n } := by
  simp only [turnSpan, hp, hw, hr, hd, hf, Bool.not_true, Bool.or_self, Bool.false_eq_true, if_false] <;> rfl

/-! Engine programs. -/

theorem turnProg_fetches {v u : State} {n : Nat} {p : Prog} {word : Word} (hp : v.prog? n = some p) (hr : mayRun v p.ctx = true)
    (hs : p.status = .running) (hready : progReady v p (.nop false) = true)
    (hf : fetchWord (onStack p.cls) v p.ctx p.priv none p.asked p.pc.toNat = (.word word, u)) :
    turnProg n v = match (if extraWords word = 0 then decode [word] else none) with
      | none => .next (stopProg u n 0x21 0)
      | some i => exec i { u.mapProg n (fun q => { q with asked := [] }) with cur := .prog n } := by
  simp only [turnProg, hp, hr, hs, hready, hf, Bool.not_true, Bool.or_self, Bool.false_eq_true, if_false] <;> rfl

theorem turnProg_again {v : State} {n : Nat} {p : Prog} {i : Instr} (hp : v.prog? n = some p) (hr : mayRun v p.ctx = true)
    (hs : p.status = .waiting i) (hready : progReady v p i = true) : turnProg n v = exec i { v with cur := .prog n } := by
  simp only [turnProg, hp, hr, hs, hready, Bool.not_true, Bool.or_self, Bool.false_eq_true, if_false]

/-! Command processors. -/

theorem retryWrites_idle {s : State} (h : s.cpWrites = []) : retryWrites s = s := by
  unfold retryWrites
  rw [h, List.foldl_nil]
  exact (congrArg (fun l => { s with cpWrites := l }) h).symm

/-- What the command of an opcode does. -/
def commandRun (q : Bool) (op : Nat) (s : State) : Out :=
  match op with
  | 1 => execCreate q s
  | 2 => execDestroy q s
  | 3 => execConfig q s
  | 4 => execSubmit q s
  | 5 => execCancel q s
  | 6 => execUncancel q s
  | 7 => execHostIcinv q s
  | 8 => execResync q s
  | 9 => execTwclr q s
  | _ => .next (failCommand q 1 s)

/-- A command processor performs the command at its head. -/
theorem queueTurn_command {s : State} {q : Bool} {op : Nat} (hw : s.cpWrites = []) (hc : s.command q op ≠ none) :
    queueTurn q s = commandRun q op s := by
  obtain ⟨htakes, hop⟩ : takes s q = true ∧ opOf (headEntry s q) = op := by
    by_contra hnot
    refine hc (if_neg fun h => hnot ?_)
    simpa using h
  rw [queueTurn, retryWrites_idle hw]
  simp only [htakes, Bool.not_true, Bool.false_eq_true, if_false, hop] <;> rfl

/-! Fetching a word. -/

section
variable {s u : State} {c va pa : Nat} {priv stack : Bool} {asked : Asked} {leaf : DWord}

/-- What a word of device memory needs to be fetched. -/
structure Fetchable (s u : State) (c va pa : Nat) (priv : Bool) (leaf : DWord) : Prop where
  low : va + 4 ≤ 2 ^ 57
  translated : translate s c va .fetch priv = (.ok (leaf, .device pa), u)
  plain : inShadow u pa = false
  calm : segTrouble u c true (Seg.mk va 4 leaf (.device pa)) = .none

theorem fetchWord_memory (h : Fetchable s u c va pa priv leaf) :
    fetchWord stack s c priv none asked va = (.word (wordOf (u.device.read pa 4)), u) := by
  have hlow : ¬ va + 4 > 2 ^ 57 := Nat.not_lt.mpr h.low
  simp only [fetchWord, if_neg hlow, h.translated, h.calm, Seg.onTier, Bool.and_false, Bool.false_eq_true, if_false, readSeg, h.plain]

theorem fetchWord_line (h : Fetchable s u c va pa priv leaf) {b : Nat} (hb : ∀ f ∈ u.fetched, f.bench ≠ b) :
    fetchWord stack s c priv (some b) asked va = (.word (wordOf (u.device.read pa 4)),
      (keepLine b c va (lineWords u c (Seg.mk va 4 leaf (.device pa))) u).bump 0) := by
  have hold : cachedWords u b c va = [] := by
    rw [cachedWords, List.filter_eq_nil_iff.mpr fun f hf => by simp [hb f hf]]
    rfl
  have hlow : ¬ va + 4 > 2 ^ 57 := Nat.not_lt.mpr h.low
  simp only [fetchWord, if_neg hlow, h.translated, h.calm, Seg.onTier, Bool.and_false, Bool.false_eq_true, if_false, readSeg, h.plain, hold,
    pickFrom, List.length_nil]

end

/-- Keeping a line adds to the lines that a bench has. -/
theorem keepLine_keeps (b c va : Nat) (ws : List Word) (u : State) :
    ∃ l, keepLine b c va ws u = { u with fetched := l } ∧ u.fetched.Sublist l := by
  by_cases h : u.fetched.contains (FetchLine.mk b c (va / 128) ws) = true
  · exact ⟨u.fetched, if_pos h, List.Sublist.refl _⟩
  · exact ⟨_ :: u.fetched, if_neg h, List.sublist_cons_self _ _⟩

/-- Settles O56, agent by agent. -/
theorem stepRunsDecoded : Obligations.StepRunsDecoded := by
  unfold Obligations.StepRunsDecoded
  refine ⟨fun s v turn hb => ⟨?_, ?_, ?_, ?_, ?_, ?_, ?_⟩, fun s c va pa priv stack asked leaf u hlow htr _ hplain hcalm => ?_⟩
  · rintro gid k g t l x rfl hg ht hl hx hruns haway hcalm
    have hturn : StripTurn v gid k g t l x := ⟨hg, ht, hl, hx, hruns, haway, hcalm⟩
    have hid : g.id = gid := by simpa using List.find?_some hg
    refine ⟨fun hw hr ws u hf => ⟨fun i hi => ?_, fun hi hp hq hh => ?_⟩, fun r i hw hr => ?_⟩
    · rw [step_begun hb, takeTurn, turnStrip_fetches hturn hw hr hf, hi]
    · rw [step_begun hb, takeTurn, turnStrip_fetches hturn hw hr hf, hi]
      exact congrArg _ (stopStrip_vectored hp hq hh _)
    · rw [step_begun hb, takeTurn, turnStrip_again hturn hw hr]
  · rintro n p rfl hp hw hr
    refine ⟨fun hd => ?_, fun hd ws u hf => ⟨fun i hi => ?_, fun hi => ?_⟩⟩
    · rw [step_begun hb, takeTurn, turnSpan_debug hp hw hr hd]
    · rw [step_begun hb, takeTurn, turnSpan_fetches hp hw hr hd hf, hi]
    · rw [step_begun hb, takeTurn, turnSpan_fetches hp hw hr hd hf, hi]
  · rintro n p rfl hp hr
    refine ⟨fun hs hready word u hf => ⟨fun i hx hi => ?_, fun hbad hu => ?_⟩, fun i hs hready => ?_⟩
    · rw [step_begun hb, takeTurn, turnProg_fetches hp hr hs hready hf, if_pos hx, hi]
    · have hnone : (if extraWords word = 0 then decode [word] else none) = none := by
        split
        · exact hbad.resolve_left (by omega)
        · rfl
      have hid : p.id = n := by simpa using List.find?_some hu
      rw [step_begun hb, takeTurn, turnProg_fetches hp hr hs hready hf, hnone]
      subst hid
      exact congrArg _ (stopProg_stops hu 0x21 0)
    · rw [step_begun hb, takeTurn, turnProg_again hp hr hs hready]
  · rintro i rfl hi
    rw [step_begun hb, takeTurn, if_pos hi]
  · rintro q op ev rfl hw hmem hc
    rw [step_begun hb, takeTurn, queueTurn_command hw hc]
    simp only [List.mem_cons, Prod.mk.injEq, List.not_mem_nil, or_false] at hmem
    rcases hmem with ⟨rfl, rfl⟩ | ⟨rfl, rfl⟩ | ⟨rfl, rfl⟩ | ⟨rfl, rfl⟩ | ⟨rfl, rfl⟩ | ⟨rfl, rfl⟩ | ⟨rfl, rfl⟩ | ⟨rfl, rfl⟩ | ⟨rfl, rfl⟩ <;> rfl
  · rintro off rfl
    rw [step_begun hb, takeTurn]
  · rintro m rfl
    rw [step_begun hb, takeTurn]
  · have hf : Fetchable s u c va pa priv leaf := ⟨hlow, htr, hplain, hcalm⟩
    refine ⟨fetchWord_memory hf, fun b hb hsame => ?_⟩
    obtain ⟨l, hkept, hsub⟩ := keepLine_keeps b c va (lineWords u c (Seg.mk va 4 leaf (.device pa))) u
    exact ⟨{ u with fetched := l }.bump 0, by rw [fetchWord_line hf (hsame ▸ hb), hkept], rfl, hsub⟩

end Sys2Proof.Machine
end

section
/-! Spans that rejoin, and queues that close (R130, R155). -/

namespace Sys2Proof.Machine

/-! Boxes that are adjacent. -/

/-- Whether box b starts where box a ends along an axis, and both share their extent on the others. -/
def Box.before (a b : Box) (ax : Axis) : Prop :=
  a.lowOn ax + a.lenOn ax = b.lowOn ax ∧ ∀ c, c ≠ ax → a.lowOn c = b.lowOn c ∧ a.lenOn c = b.lenOn c

/-- Two boxes share their extent on the other axes. -/
theorem Box.withOn_eq_iff (a b : Box) (ax : Axis) :
    a.withOn ax 0 0 = b.withOn ax 0 0 ↔ ∀ c, c ≠ ax → a.lowOn c = b.lowOn c ∧ a.lenOn c = b.lenOn c := by
  cases ax with
  | x => exact ⟨fun h c hc => by cases c <;> simp_all [Box.withOn, Box.lowOn, Box.lenOn], fun h => by
      have hy := h .y (by decide)
      have hz := h .z (by decide)
      simp_all [Box.withOn, Box.lowOn, Box.lenOn]⟩
  | y => exact ⟨fun h c hc => by cases c <;> simp_all [Box.withOn, Box.lowOn, Box.lenOn], fun h => by
      have hx := h .x (by decide)
      have hz := h .z (by decide)
      simp_all [Box.withOn, Box.lowOn, Box.lenOn]⟩
  | z => exact ⟨fun h c hc => by cases c <;> simp_all [Box.withOn, Box.lowOn, Box.lenOn], fun h => by
      have hx := h .x (by decide)
      have hy := h .y (by decide)
      simp_all [Box.withOn, Box.lowOn, Box.lenOn]⟩

/-- Two boxes have no union along an axis on which neither is behind the other. -/
theorem Box.union?_none {a b : Box} {ax : Axis} (hab : ¬ a.before b ax) (hba : ¬ b.before a ax) : a.union? b ax = none := by
  by_cases hw : a.withOn ax 0 0 = b.withOn ax 0 0
  · have hsame := (Box.withOn_eq_iff a b ax).mp hw
    have hlow : a.lowOn ax + a.lenOn ax ≠ b.lowOn ax := fun h => hab ⟨h, hsame⟩
    have hhigh : b.lowOn ax + b.lenOn ax ≠ a.lowOn ax := fun h => hba ⟨h, fun c hc => ⟨(hsame c hc).1.symm, (hsame c hc).2.symm⟩⟩
    rw [Box.union?, if_neg (not_not.mpr hw), if_neg hlow, if_neg hhigh]
  · exact if_pos hw

/-- A box that is before another on an axis differs from it there, so on no other axis one is before the other. -/
theorem Box.not_before_other {a b : Box} {ax c : Axis} (h : a.before b ax) (hlen : 0 < a.lenOn ax) (hc : c ≠ ax) :
    ¬ a.before b c ∧ ¬ b.before a c := by
  have hne : a.lowOn ax ≠ b.lowOn ax := by
    have := h.1
    omega
  exact ⟨fun hn => hne (hn.2 ax hc.symm).1, fun hn => hne (hn.2 ax hc.symm).1.symm⟩

/-- Where two boxes have a union along one axis alone, it is their join. -/
theorem Box.joined?_of {a b d : Box} {ax : Axis} (h : a.union? b ax = some d) (hother : ∀ c, c ≠ ax → a.union? b c = none) :
    a.joined? b = some d := by
  cases ax with
  | x => simp [Box.joined?, h]
  | y => simp [Box.joined?, h, hother .x (by decide)]
  | z => simp [Box.joined?, h, hother .x (by decide), hother .y (by decide)]

theorem Box.joined?_before {a b : Box} {ax : Axis} (h : a.before b ax) (hlen : 0 < a.lenOn ax) :
    a.joined? b = some (a.withOn ax (a.lowOn ax) (a.lenOn ax + b.lenOn ax)) := by
  have hw := (Box.withOn_eq_iff a b ax).mpr h.2
  refine Box.joined?_of (ax := ax) ?_ fun c hc => ?_
  · rw [Box.union?, if_neg (not_not.mpr hw), if_pos h.1]
  · obtain ⟨hab, hba⟩ := Box.not_before_other h hlen hc
    exact Box.union?_none hab hba

theorem Box.joined?_behind {a b : Box} {ax : Axis} (h : b.before a ax) (hlen : 0 < b.lenOn ax) (hlen' : 0 < a.lenOn ax) :
    a.joined? b = some (a.withOn ax (b.lowOn ax) (a.lenOn ax + b.lenOn ax)) := by
  have hw : a.withOn ax 0 0 = b.withOn ax 0 0 := ((Box.withOn_eq_iff b a ax).mpr h.2).symm
  have hnot : a.lowOn ax + a.lenOn ax ≠ b.lowOn ax := by
    have := h.1
    omega
  refine Box.joined?_of (ax := ax) ?_ fun c hc => ?_
  · rw [Box.union?, if_neg (not_not.mpr hw), if_neg hnot, if_pos h.1]
  · obtain ⟨hba, hab⟩ := Box.not_before_other h hlen hc
    exact Box.union?_none hab hba

theorem Box.joined?_apart {a b : Box} (h : ∀ ax, ¬ a.before b ax ∧ ¬ b.before a ax) : a.joined? b = none := by
  have hnone (ax : Axis) : a.union? b ax = none := Box.union?_none (h ax).1 (h ax).2
  simp [Box.joined?, hnone]

/-! Spans of a join group. -/

/-- A span that goes on behind its JOIN. -/
def Span.behind (p : Span) : Span := { p with joins := p.joins.tail, waiting := false, pc := p.pc + 4 }

/-- Whether two spans may be one but for their boxes. -/
def Span.alike (p q : Span) : Prop := p.regs = q.regs ∧ p.preds = q.preds ∧ p.fmt = q.fmt ∧ p.mode = q.mode

theorem mergeSpans_behind {p q : Span} {d : Box} (h : p.alike q) (hd : p.box.joined? q.box = some d) :
    mergeSpans p.behind q.behind = some { p.behind with box := d, fpstat := p.fpstat ||| q.fpstat } := by
  have hc : p.behind.regs = q.behind.regs ∧ p.behind.preds = q.behind.preds ∧ p.behind.fmt = q.behind.fmt ∧
      p.behind.mode = q.behind.mode := h
  have hbox : p.behind.box.joined? q.behind.box = some d := hd
  rw [mergeSpans, if_pos hc, hbox]
  rfl

theorem mergeSpans_apart {p q : Span} (h : ¬ p.alike q ∨ p.box.joined? q.box = none) : mergeSpans p.behind q.behind = none := by
  unfold mergeSpans
  split
  case isTrue hc =>
    have hbox : p.behind.box.joined? q.behind.box = none := h.resolve_left (not_not.mpr hc)
    rw [hbox]
    rfl
  case isFalse => rfl

theorem mergeAll_one (p : Span) (n : Nat) : mergeAll n [p] = [p] := by
  cases n <;> rfl

/-- Two spans become one where they may. -/
theorem mergeAll_two {p q m : Span} (h : mergeSpans p q = some m) : mergeAll 2 [p, q] = [m] := by
  simp [mergeAll, mergeInto, h]

theorem mergeAll_apart {p q : Span} (h : mergeSpans p q = none) : mergeAll 2 [p, q] = [p, q] := by
  simp [mergeAll, mergeInto, h]

section
variable {s : State} {launch group : Nat}

/-- The spans of a join group, and the others. -/
def State.members (s : State) (launch group : Nat) : List Span :=
  s.spans.filter fun p => p.launch == launch && p.joins.any (·.group == group)
def State.bystanders (s : State) (launch group : Nat) : List Span :=
  s.spans.filter fun p => !(p.launch == launch && p.joins.any (·.group == group))

theorem Span.atJoin_iff (p : Span) (group : Nat) :
    p.atJoin group = true ↔ p.waiting = true ∧ p.joins.head?.map (·.group) = some group := by
  simp [Span.atJoin]

theorem joinSpans_eq (s : State) (launch group : Nat) : joinSpans launch group s =
    if (s.members launch group).all (·.atJoin group) then
      { s with spans := s.bystanders launch group ++ mergeAll (s.members launch group).length ((s.members launch group).map Span.behind) }
    else s := rfl

theorem joinSpans_waits {p : Span} (hp : p ∈ s.members launch group) (h : ¬ p.atJoin group = true) :
    joinSpans launch group s = s := by
  rw [joinSpans_eq, if_neg fun hall => h (List.all_eq_true.mp hall p hp)]

theorem joinSpans_none (h : s.members launch group = []) : joinSpans launch group s = s := by
  have hall : s.bystanders launch group = s.spans := by
    rw [State.bystanders, List.filter_eq_self]
    intro p hp
    have hno := (List.filter_eq_nil_iff.mp h) p hp
    rw [Bool.not_eq_true] at hno
    rw [hno]
    rfl
  rw [joinSpans_eq, h, hall]
  simp [mergeAll]

theorem joinSpans_one {p : Span} (h : s.members launch group = [p]) (hp : p.atJoin group = true) :
    joinSpans launch group s = { s with spans := s.bystanders launch group ++ [p.behind] } := by
  rw [joinSpans_eq, h, if_pos (by simp [hp])]
  rfl

theorem joinSpans_two {p q : Span} (h : s.members launch group = [p, q]) (hp : p.atJoin group = true) (hq : q.atJoin group = true) :
    joinSpans launch group s = { s with spans := s.bystanders launch group ++ mergeAll 2 [p.behind, q.behind] } := by
  rw [joinSpans_eq, h, if_pos (by simp [hp, hq])]
  rfl

end

/-! Queues that close. -/

/-- Whether nothing of a launch's share on this device goes on but by a record. -/
def State.idleShare (s : State) (l : Launch) : Prop :=
  (∀ p ∈ s.spans, p.launch ≠ l.id) ∧ ∀ g ∈ s.gangs, g.launch = l.id → ∀ t ∈ g.strips,
    t.retired = true ∨ (g.place ≠ none ∧ inQget t = true ∧ (stageQueue l g.stage).recs = [] ∧
      (stageQueue l g.stage).closed = false)

theorem drained_iff (s : State) (l : Launch) : drained s l = true ↔ s.idleShare l := by
  simp only [drained, State.idleShare, emptyOpen, Bool.and_eq_true, Bool.not_eq_true', List.any_eq_false, List.all_eq_true,
    List.mem_filter, beq_iff_eq, Bool.or_eq_true, and_imp, Option.isSome_iff_ne_none, List.isEmpty_iff, and_assoc]

/-- The strips of a launch that wait in QGET. -/
def State.getters (s : State) (id : Nat) : List (Gang × Strip) :=
  (s.gangs.filter (·.launch == id)).flatMap fun g => (g.strips.filter inQget).map fun t => (g, t)

/-- The launch's queues closed. -/
def State.closedQueues (s : State) (id : Nat) : State :=
  s.mapLaunch id fun l => { l with queues := l.queues.map fun u => { u with closed := true } }

theorem foldl_flatMap_map {α β σ : Type} (f : σ → α → β → σ) (ks : α → List β) (l : List α) : ∀ s : σ,
    l.foldl (fun s a => (ks a).foldl (fun s b => f s a b) s) s =
      (l.flatMap fun a => (ks a).map fun b => (a, b)).foldl (fun s x => f s x.1 x.2) s := by
  induction l with
  | nil => exact fun _ => rfl
  | cons a l ih => exact fun s => by simp [List.foldl_append, List.foldl_map, ih]

theorem closeQueues_eq {s : State} {l : Launch} (h : s.launch? l.id = some l) (hd : drained s l = true) :
    closeQueues l.id s =
      (s.getters l.id).foldl (fun s x => tryAgain x.1.id x.2.idx queueWord s) (s.closedQueues l.id) := by
  rw [closeQueues, h]
  simp only [hd, Bool.not_true, Bool.false_eq_true, if_false]
  exact foldl_flatMap_map (fun s (g : Gang) (t : Strip) => tryAgain g.id t.idx queueWord s) (fun g => g.strips.filter inQget) _ _

/-- A strip that waits in QGET has it performed again. -/
theorem tryAgain_qget {s : State} {g k : Nat} {t : Strip} {r : Reason} {i : Instr} (hs : s.strip? g k = some t)
    (hw : t.wait = .again r i) (ht : inQget t = true) :
    ∃ u, exec i { bringIn g k s with cur := .strip g k } = .next u ∧ tryAgain g k queueWord s = { u with cur := s.cur } := by
  unfold inQget at ht
  split at ht
  case h_1 st d x hget =>
    obtain ⟨-, rfl⟩ := Wait.again.inj (hw.symm.trans hget)
    refine ⟨_, rfl, ?_⟩
    simp only [tryAgain, hs, hw, queueWord]
    rfl
  case h_2 => cases ht

/-- Settles O47. -/
theorem joinsAndClosing : Obligations.JoinsAndClosing := by
  unfold Obligations.JoinsAndClosing
  refine ⟨fun s launch group => ⟨?_, fun p hm hp => ?_, fun p q hm hp hq hlen => ⟨fun ax hlike hnext => ?_,
    fun ax hlike hnext => ?_, fun hnot => ?_⟩⟩, fun s l hl => ⟨fun hnot => ?_, fun hd hnone => ?_, fun hd g t r i hone hs hw => ?_⟩⟩
  · rintro (⟨p, hp, hnot⟩ | hnone)
    · exact congrArg _ (joinSpans_waits hp fun h => hnot ((p.atJoin_iff group).mp h))
    · exact congrArg _ (joinSpans_none hnone)
  · exact congrArg _ (joinSpans_one hm ((p.atJoin_iff group).mpr hp))
  · have hjoin := Box.joined?_before hnext (hlen ax).1
    have hmerge := mergeAll_two (mergeSpans_behind hlike hjoin)
    have htwo := joinSpans_two hm ((p.atJoin_iff group).mpr hp) ((q.atJoin_iff group).mpr hq)
    rw [hmerge] at htwo
    exact congrArg _ htwo
  · have hjoin := Box.joined?_behind hnext (hlen ax).2 (hlen ax).1
    have hmerge := mergeAll_two (mergeSpans_behind hlike hjoin)
    have htwo := joinSpans_two hm ((p.atJoin_iff group).mpr hp) ((q.atJoin_iff group).mpr hq)
    rw [hmerge] at htwo
    exact congrArg _ htwo
  · have hapart := mergeAll_apart (mergeSpans_apart (p := p) (q := q) (hnot.imp_right Box.joined?_apart))
    have htwo := joinSpans_two hm ((p.atJoin_iff group).mpr hp) ((q.atJoin_iff group).mpr hq)
    rw [hapart] at htwo
    exact congrArg _ htwo
  · have hdrained : ¬ drained s l = true := fun h => hnot ((drained_iff s l).mp h)
    refine congrArg _ (?_ : closeQueues l.id s = s)
    rw [closeQueues, hl]
    simp [hdrained]
  · refine congrArg _ (?_ : closeQueues l.id s = _)
    rw [closeQueues_eq hl ((drained_iff s l).mpr hd), State.getters, hnone]
    rfl
  · have hmem : (g, t) ∈ s.getters l.id := by
      rw [State.getters, hone]
      exact List.mem_singleton_self _
    obtain ⟨g', -, hpair⟩ := List.mem_flatMap.mp hmem
    obtain ⟨t', ht', heq⟩ := List.mem_map.mp hpair
    have hget : inQget t = true := by
      obtain ⟨-, rfl⟩ := Prod.mk.inj heq
      exact (List.mem_filter.mp ht').2
    obtain ⟨u, hex, htry⟩ := tryAgain_qget (s := s.closedQueues l.id) hs hw hget
    refine ⟨u, hex, congrArg _ (?_ : closeQueues l.id s = _)⟩
    rw [closeQueues_eq hl ((drained_iff s l).mpr hd), State.getters, hone]
    exact htry

end Sys2Proof.Machine
end

section
/-! A load that waits for a block whose segment lies in the count shadow. -/

namespace Sys2Proof.Machine

set_option Elab.async false

/-- A part of 4 bytes of the twin window that lies at 0x1F00000, in the count shadow of a pool of 16 MiB at 0x1000000. -/
def shadowSeg : Seg := Seg.mk 0x80000000012000 4 0x80000000100001B (.device 0x1F00000)
def shadowReq : LaneReq := { laneReq 0 0x80000000012000 4 [] [] with held := [shadowSeg] }

/-- A load of lane 0 into v9 that stands at the home of that part. -/
def shadowLoad : Access where
  kind := .load
  pc := 0x10000
  pos := 0
  replayed := false
  bench := none
  lanes := [shadowReq]
  active := 1
  dst := 9
  regs := 1
  size := 4
  uniform := false
  whole := false
  op := 0
  entry := none
  trans := false
  scope := 0
  order := 0
  nc := false
  last := false
  flt := false
  counts := false
  priv := false
  srcs := []
  ftz := false
  since := 0

/-- A machine whose strip waits with that load: VA 0x12000 is a twin-enabled page, and memory holds a byte at 0x1F00000. -/
def shadowMachine (v : Byte) : State :=
  let s := wordMachine []
  { s with
    dev := { s.dev with twpool := 0x00010001 }
    device := { s.device with
      cells := (0x1F00000, v) ::
        cellsWrite (cellsWrite s.device.cells 0x400000 (toBytes 0x600001 8)) 0x600090 (toBytes 0x4000000001201B 8) }
    gangs := s.gangs.map fun g => { g with strips := g.strips.map fun t => { t with wait := .access [shadowLoad] } } }


theorem consume_gangs (s : State) (b : TwinBlock) : (consume s b).gangs = s.gangs := by
  unfold consume
  split <;> rfl

theorem recallSegs_gangs (bench : Option Nat) (gs : List Seg) (s : State) : (recallSegs bench gs s).gangs = s.gangs := by
  rw [(recallSegs_acts bench gs s).rest]

theorem chargeDram_gangs (acct : Nat) (wr : Bool) (gs : List Seg) (s : State) : (chargeDram acct wr gs s).gangs = s.gangs := by
  rw [(chargeDram_acts acct wr gs s).rest]

theorem chargeFabric_gangs (s : State) (acct n : Nat) : (chargeFabric s acct n).gangs = s.gangs := by
  rw [(chargeFabric_acts s acct n).rest]

theorem planReq_held {s : State} {c : Nat} {need : Need} {priv wr : Bool} {r : LaneReq} (h : r.held.isEmpty = false) :
    planReq s c need priv wr r = (Plan.mk r r.held false, s) := by
  simp [planReq, h]

/-- What a load of one part gives that meets nothing, not at its home either. -/
theorem performLoad_one {s u : State} {c : Nat} {a : Access} {r : LaneReq} {p : Plan} {once : Bool} (ha : a.lanes = [r])
    (hplan : planReq s c .read a.priv false r = (p, u)) (hw : p.waits = false)
    (hmeet : ((p.meet u c true false).late u c fun _ => a.asked).meetTwin u c false none = p)
    (hblocks : meetBlocks u a.flt [p] = [p]) (hc : a.counts = false) (hl : a.last = false) :
    ∃ m, m.gangs = u.gangs ∧ performLoad s c a false once = (performedOf [p] (Plan.read u c) false false, m) := by
  have hso : behindSo 1 [p] = [p] := by simp [behindSo, hw]
  have hall : planAll s c .read a.priv false [r] = ([p], u) := by simp only [planAll, hplan]
  refine ⟨recallSegs a.bench (performedOf [p] (Plan.read u c) false false).segs
    ((nub (blocksTouched u [p]) []).foldl consume u), (recallSegs_gangs ..).trans ?_, ?_⟩
  · exact List.foldlRecOn (motive := fun v : State => v.gangs = u.gangs) _ _ rfl fun v hv b _ => (consume_gangs v b).trans hv
  · simp only [performLoad, ha, hall, hc, hl, Bool.false_eq_true, if_false, wholeIf, Bool.not_false, if_true,
      List.map_cons, List.map_nil, hmeet, List.length_singleton, hso, hblocks]


def shadowGang : Gang := ((shadowMachine 0).gang? 1).getD (probeGang 0)
def shadowStrip : Strip := (shadowGang.strip? 0).get (by decide +kernel)

theorem shadowMachine_gang (v : Byte) : (shadowMachine v).gang? 1 = some shadowGang := rfl
theorem shadowMachine_strip : shadowGang.strip? 0 = some shadowStrip := rfl
theorem shadowMachine_runs (v : Byte) : ∃ l, runningLaunch (shadowMachine v) shadowGang = some l := ⟨_, rfl⟩

/-- The bytes of the part, as the count shadow reads. -/
def shadowBytes : List Byte := (List.range 4).map fun i => Config.shadowByte (shadowMachine 0).tick (0x1F00000 + i)

def shadowPlan : Plan := Plan.mk shadowReq [shadowSeg] false

/-- The load as the strip sends it. -/
def shadowSent : Access := { shadowLoad with bench := shadowGang.place.map (·.bench) }

/-- What the part meets, which is nothing. -/
def shadowMeets (v : Byte) : Bool :=
  let s := shadowMachine v
  (((shadowPlan.meet s 0 true false).late s 0 fun _ => shadowLoad.asked).meetTwin s 0 false none) == shadowPlan &&
    meetBlocks s false [shadowPlan] == [shadowPlan] && inShadow s 0x1F00000 &&
    (shadowMachine v).tick == (shadowMachine 0).tick

theorem shadowMeets_zero : shadowMeets 0 = true := by decide +kernel
theorem shadowMeets_one : shadowMeets 1 = true := by decide +kernel

/-- The result that the load leaves outstanding. -/
def shadowLanding : Landing :=
  Landing.mk [RegPart.mk 9 1 (Vector.ofFn fun l : Fin 32 => if l.val = 0 then wordOf shadowBytes else 0) false] 0 0 none

/-- A load that is performed as a whole, without a flag or a peer. -/
theorem takeAccess_one {s m : State} {g : Gang} {t : Strip} {a : Access} {r : LaneReq} {bs : List Byte} {gs : List Seg}
    (hk : a.kind = .load)
    (h : performLoad s g.ctx { a with bench := g.place.map (·.bench) } false a.uniform =
      (Performed.mk [(r, bs)] [] [] false 0 0 gs, m)) :
    ∃ (n : State) (coord : Nat → Nat × Nat × Nat), n.gangs = m.gangs ∧
      takeAccess s g t a =
        (n, (t.takes coord { a with bench := g.place.map (·.bench) } [(r, bs)]).covers a.pos [r], []) := by
  have hnfw : nfwReport m g.launch false = m := by
    unfold nfwReport
    split <;> rfl
  have hp : performAccess s g.ctx { a with bench := g.place.map (·.bench) } =
      (Performed.mk [(r, bs)] [] [] false 0 0 gs, m) := by
    rw [← h, performAccess, hk]
  simp only [takeAccess, hp, hnfw]
  refine ⟨_, _, ?_, rfl⟩
  rw [chargeDram_gangs, chargeFabric_gangs]

/-- One access that is performed as a whole. -/
theorem takeList_one {late : Access → Bool} {s n : State} {g : Gang} {t u : Strip} {a : Access} (ht : t.wait = .none)
    (hu : u.wait = .none) (h : takeAny s g t { a with flt := a.flt || late a } = (n, u, [])) :
    takeList late s g t [a] = (n, u, []) := by
  rw [takeList, List.foldl_cons, List.foldl_nil]
  simp only [ht, h, hu]
  rfl

theorem afterList_nil {s : State} {g : Gang} {t : Strip} {h : Header} (hp : t.parked = false) :
    afterList s g t h [] = s.setStrip g.id t := by
  show (if t.parked then regionEnd s g t h else s.setStrip g.id t) = _
  rw [if_neg (by simp [hp])]

theorem shadowMachine_served {v : Byte} (h : shadowMeets v = true) : ∃ m : State, m.gangs = (shadowMachine v).gangs ∧
    exec (.twinReadServed (.strip 1 0)) (shadowMachine v) =
      .next (m.setStrip 1 { shadowStrip with wait := .none, outstanding := shadowStrip.outstanding ++ [shadowLanding] }) := by
  simp only [shadowMeets, Bool.and_eq_true, beq_iff_eq] at h
  obtain ⟨⟨⟨hmeet, hblocks⟩, hin⟩, htick⟩ := h
  obtain ⟨m, hm, hload⟩ := performLoad_one (s := shadowMachine v) (c := 0) (a := shadowSent)
    (p := shadowPlan) (once := false) (r := shadowReq) rfl (planReq_held rfl) rfl hmeet hblocks rfl rfl
  have hread : shadowPlan.read (shadowMachine v) 0 = shadowBytes := by
    simp only [Plan.read, shadowPlan, shadowSeg, List.flatMap_singleton, readSeg, hin, if_true, htick, shadowBytes]
  have hperf : performedOf [shadowPlan] (Plan.read (shadowMachine v) 0) false false =
      Performed.mk [(shadowReq, shadowBytes)] [] [] false 0 0 [shadowSeg] := by
    rw [← hread]
    rfl
  rw [hperf] at hload
  obtain ⟨l, hrun⟩ := shadowMachine_runs v
  have htake : ∃ n : State, n.gangs = (shadowMachine v).gangs ∧
      takeAny (shadowMachine v) shadowGang { shadowStrip with wait := .none }
          { shadowLoad with flt := shadowLoad.flt || false } =
        (n, { shadowStrip with wait := .none, outstanding := shadowStrip.outstanding ++ [shadowLanding] }, []) := by
    obtain ⟨n, coord, hn, ht⟩ := takeAccess_one (g := shadowGang) (t := { shadowStrip with wait := .none })
      (a := shadowLoad) rfl hload
    exact ⟨n, hn.trans hm, ht⟩
  obtain ⟨n, hn, htake⟩ := htake
  refine ⟨n, hn, ?_⟩
  have hwait : shadowStrip.wait = .access [shadowLoad] := rfl
  show (.next (resendStrip (fun _ _ => false) 1 0 (shadowMachine v)) : Out) = _
  rw [resendStrip, bringIn_held (shadowMachine_gang v) shadowMachine_strip rfl]
  simp only [shadowMachine_gang, shadowMachine_strip, hrun, hwait]
  rw [takeList_one (late := fun _ => false) rfl rfl htake]
  have hid : shadowGang.id = 1 := by decide +kernel
  rw [← hid]
  have hparked : shadowStrip.parked = false := by decide +kernel
  generalize shadowStrip = t at hparked ⊢
  exact congrArg _ (afterList_nil hparked)

theorem shadow_lands {v : Byte} (h : shadowMeets v = true) {n : State} {x : Landing} (hn : n.gangs = (shadowMachine v).gangs)
    (hex : exec (.twinReadServed (.strip 1 0)) (shadowMachine v) =
      .next (n.setStrip 1 { shadowStrip with wait := .none, outstanding := shadowStrip.outstanding ++ [x] })) :
    x = shadowLanding := by
  obtain ⟨m, hm, hserved⟩ := shadowMachine_served h
  have hstrip {m : State} (hm : m.gangs = (shadowMachine v).gangs) : m.strip? 1 0 = some shadowStrip := by
    have hg : m.gang? 1 = some shadowGang := by
      rw [State.gang?, hm]
      exact shadowMachine_gang v
    rw [State.strip?, hg]
    exact shadowMachine_strip
  have heq := Host.Outcome.next.inj (hserved.symm.trans hex)
  have hset {m : State} (hm : m.gangs = (shadowMachine v).gangs) (y : Landing) :=
    State.strip?_setStrip (g := 1) (t := { shadowStrip with wait := .none, outstanding := shadowStrip.outstanding ++ [y] })
      (hstrip hm)
  have hleft := hset hm shadowLanding
  have hright := hset hn x
  rw [heq] at hleft
  have hout := congrArg Strip.outstanding (Option.some.inj (hleft.symm.trans hright))
  simpa using hout.symm

def shadowBlock : TwinBlock := TwinBlock.mk 0x1FE0000 0x1F00000 32

/-- What the statement asks of the segment and its block, and the word that memory holds there. -/
def shadowAsks (v : Byte) : Bool :=
  let s := shadowMachine v
  segTrouble s shadowGang.ctx true shadowSeg == .none && primalMatches s shadowGang.ctx shadowSeg &&
    blocksOf s shadowSeg == [shadowBlock] && countState s shadowBlock.key == 0 &&
    wordOf ((((shadowPlan.targets.map s.byteAt).drop 0).take 4)) == v.setWidth 32

theorem shadowAsks_zero : shadowAsks 0 = true := by decide +kernel
theorem shadowAsks_one : shadowAsks 1 = true := by decide +kernel

/-- Were the statement true, the count shadow would read there as memory does. -/
theorem shadow_word (h : Obligations.WaitsEnd) {v : Byte} (hmeets : shadowMeets v = true) (hasks : shadowAsks v = true) :
    wordOf shadowBytes = v.setWidth 32 := by
  unfold Obligations.WaitsEnd at h
  obtain ⟨-, -, -, h, -⟩ := h
  simp only [shadowAsks, Bool.and_eq_true, beq_iff_eq] at hasks
  obtain ⟨⟨⟨⟨htrouble, hprimal⟩, hblocks⟩, hstate⟩, hword⟩ := hasks
  obtain ⟨l, hrun⟩ := shadowMachine_runs v
  have hid : shadowGang.id = 1 := by decide +kernel
  have hidx : shadowStrip.idx = 0 := by decide +kernel
  have hres : (shadowMachine v).resident shadowGang.id shadowStrip.idx = some (shadowGang, shadowStrip, l) := by
    rw [hid, hidx, State.resident, shadowMachine_gang]
    simp only [Option.bind_some, shadowMachine_strip, hrun, Option.map_some]
  have h := h (shadowMachine v) shadowGang shadowStrip l shadowLoad shadowReq shadowSeg shadowBlock hres
    (by decide +kernel) rfl rfl rfl rfl rfl rfl rfl (by decide) rfl (by decide) (by decide +kernel) (by decide +kernel)
  have hplan : planReq (shadowMachine v) shadowGang.ctx .read shadowLoad.priv false shadowReq = (shadowPlan, shadowMachine v) :=
    planReq_held rfl
  rw [hplan, hid, hidx] at h
  obtain ⟨hready, -⟩ := h rfl rfl (by decide) (by decide) htrouble hprimal hblocks
  obtain ⟨x, hex, -, -, -, -, hparts⟩ := hready (by rw [hstate]; decide) rfl
  obtain rfl := shadow_lands hmeets (by rw [State.loadSegs, chargeDram_gangs, recallSegs_gangs, consume_gangs]) hex
  obtain ⟨-, -, -, hval⟩ := hparts 0 _ rfl
  exact (hval 0 (by decide) (by decide)).trans hword

/-- Refutes O45: a waiting load whose part stands at its home in the count shadow, which the statement does not except, gets
what the shadow reads as and not what memory holds. -/
theorem not_waitsEnd : ¬ Obligations.WaitsEnd := fun h =>
  absurd ((shadow_word h shadowMeets_zero shadowAsks_zero).symm.trans (shadow_word h shadowMeets_one shadowAsks_one))
    (by decide)

end Sys2Proof.Machine
end

section
/-! A load that begins below the twin window and ends in it (R230, R264). -/

namespace Sys2Proof.Machine

set_option Elab.async false

/-- v8 and v9 hold the address two bytes below the twin window. -/
def straddleMachine : State := wordMachine [(8, 0xFFFFFFFE), (9, 0x7FFFFF)]

/-- A load of four bytes there into v4. -/
def straddleLoad : WMem := WMem.mk false 4 8 false 0 2 none

theorem straddleMachine_issues : (straddleMachine.issuing (.ld straddleLoad)).isSome = true := by decide +kernel

def straddleSeat : Seat := (straddleMachine.issuing (.ld straddleLoad)).get straddleMachine_issues

theorem straddleMachine_issuing : straddleMachine.issuing (.ld straddleLoad) = some straddleSeat := (Option.some_get _).symm

/-- The load's one part, and the state after its walks, which both fault. -/
def straddleParts : List LaneReq := straddleSeat.parts false straddleLoad (fun _ => []) fun _ => []
def straddlePlans : List Plan × State := straddleSeat.plans .read false straddleParts

theorem straddlePlans_fault : (straddlePlans.1.all fun p => p.req.cause != 0 && p.segs.isEmpty) = true ∧
    straddlePlans.1 ≠ [] := by
  decide +kernel

/-- Whether strip 0 of gang 1 is in supervisor mode after a step. -/
def privAfter (o : Out) : Bool :=
  match o with
  | .next u => (u.strip? 1 0).any (·.priv)
  | _ => false

/-- The word traps, since its access is misaligned and touches the window. -/
theorem exec_straddleLoad : privAfter (exec (.ld straddleLoad) straddleMachine) = true := by decide +kernel

theorem State.Walks.gangs {s u : State} (h : s.Walks u) : u.gangs = s.gangs := by
  rw [h]

/-- A strip in user mode that passes a word stays there. -/
theorem privAfter_passed {w : Seat} {i : Instr} {m : State} {t : Strip} (hm : (m.strip? 1 0).isSome = true) (hg : w.g.id = 1)
    (ht : t.idx = 0) (hp : t.priv = false) : privAfter (.next (w.passed i m t)) = false := by
  obtain ⟨u, hu⟩ := Option.isSome_iff_exists.mp hm
  rw [← ht] at hu
  have hset := State.strip?_setStrip (t := { ({ t with pc := w.pcNext } : Strip).counted w.x.cfg.sstep with
    parked := w.ends i && !(decide (t.wait = .none) && t.outstanding.isEmpty) }) hu
  rw [privAfter, Seat.passed, Seat.moved, hg]
  rw [← ht]
  exact (congrArg (Option.any _) hset).trans hp

/-- Refutes O34: a load that begins below the twin window and ends in it traps for its alignment, which comes before the faults
of its walks; the statement excepts only the parts that begin in the window. -/
theorem not_parkedAccesses : ¬ Obligations.ParkedAccesses := by
  unfold Obligations.ParkedAccesses
  rintro ⟨h, -⟩
  have hwin : (straddleParts.all fun r => !inTwinWindow r.addr.toNat) = true := by decide +kernel
  have hplans := straddlePlans_fault
  have hwalks : straddleSeat.s.Walks straddlePlans.2 := planAll_walks ..
  have h := h straddleMachine straddleSeat straddleLoad straddleMachine_issuing (by decide +kernel) (by decide) (by decide) rfl
    (by decide +kernel)
  rw [straddlePlans, straddleParts] at hplans hwalks
  rw [straddleParts] at hwin
  dsimp only at h
  generalize straddleSeat.plans .read false _ = plans at h hplans hwalks
  obtain ⟨ps, u⟩ := plans
  obtain ⟨hfault, hne⟩ := hplans
  have hfault {p : Plan} (hp : p ∈ ps) : p.req.cause ≠ 0 ∧ p.segs = [] := by
    simpa using List.all_eq_true.mp hfault p hp
  obtain ⟨p, hp⟩ := List.exists_mem_of_ne_nil _ hne
  obtain ⟨m, t, a, o, hex, hread, ht, -⟩ := h (fun r hr => by simpa using List.all_eq_true.mp hwin r hr)
    (fun p hp => .inl (hfault hp)) ⟨p, hp, (hfault hp).1⟩
  have hgangs : m.gangs = straddleSeat.s.gangs := (congrArg State.gangs hread.memory.rest).trans hwalks.gangs
  have hstrip : (m.strip? 1 0).isSome = true := by
    rw [State.strip?, State.gang?, hgangs]
    exact (by decide +kernel : (straddleSeat.s.strip? 1 0).isSome = true)
  have hpass := privAfter_passed (i := .ld straddleLoad) hstrip (by decide +kernel : straddleSeat.g.id = 1)
    ((congrArg Strip.idx ht).trans (by decide +kernel : straddleSeat.t.idx = 0))
    ((congrArg Strip.priv ht).trans (by decide +kernel : straddleSeat.t.priv = false))
  rw [← hex, exec_straddleLoad] at hpass
  cases hpass

end Sys2Proof.Machine
end

section
/-! An ICINV whose range holds no byte (R259). -/

namespace Sys2Proof.Machine

set_option Elab.async false

/-- A fetch line of bench 0, of the addresses 0x12000 to 0x1207F. -/
def keptLine : FetchLine := FetchLine.mk 0 0 (0x12000 / 128) []

/-- v8 and v9 hold an address inside that line, and v10 the length 0. -/
def emptyMachine : State := { wordMachine [(8, 0x12001)] with fetched := [keptLine] }

/-- ICINV of the empty range there, which acts on bench 0. -/
def emptyRange : WAddr2 := WAddr2.mk false 8 10 none

theorem emptyMachine_issues : (emptyMachine.issuing (.icinv emptyRange)).isSome = true := by decide +kernel

def emptySeat : Seat := (emptyMachine.issuing (.icinv emptyRange)).get emptyMachine_issues

theorem emptyMachine_issuing : emptyMachine.issuing (.icinv emptyRange) = some emptySeat := (Option.some_get _).symm

/-- The fetch lines after a step. -/
def fetchedAfter (o : Out) : List FetchLine :=
  match o with
  | .next u => u.fetched
  | _ => []

/-- The line is dropped: it begins below the address and ends above it. -/
theorem exec_emptyRange : fetchedAfter (exec (.icinv emptyRange) emptyMachine) = [] := by decide +kernel

/-- Refutes O32: an ICINV of no byte at an address inside a fetch line drops the line. -/
theorem not_cacheMaintenance : ¬ Obligations.CacheMaintenance := by
  unfold Obligations.CacheMaintenance
  rintro ⟨h, -⟩
  obtain ⟨fl, dl, hex, -, -, hlines, -⟩ := h emptyMachine emptySeat emptyRange 0x12001 0 emptyMachine_issuing
    (Val.eq_of_isWord (by decide +kernel)) (Val.eq_of_isWord (by decide +kernel))
  have hkept : keptLine ∈ fl := (hlines keptLine (by decide +kernel : keptLine ∈ emptySeat.s.fetched)).mpr
    fun ⟨⟨j, hj, _⟩, _⟩ => absurd hj (Nat.not_lt_zero j)
  have hfl : fl = [] := by
    rw [← exec_emptyRange, hex]
    rfl
  rw [hfl] at hkept
  cases hkept

end Sys2Proof.Machine
end

section
/-! Spans dealt out (R123, R126, R127). -/

namespace Sys2Proof.Machine

/-! One axis. -/

/-- An item lies in the part of an axis that two intervals share where it lies in both. -/
theorem overlap_holds (a la b lb x : Nat) :
    ((overlap a la b lb).1 ≤ x ∧ x < (overlap a la b lb).1 + (overlap a la b lb).2) ↔
      (a ≤ x ∧ x < a + la) ∧ (b ≤ x ∧ x < b + lb) := by
  simp only [overlap]
  split <;> split <;> omega

/-- The tile of an item of an interval is one of those that meet the interval. -/
theorem tile_mem_tileRange {base shape lo len x : Nat} (hbase : base ≤ lo) (hlo : lo ≤ x) (hx : x < lo + len) :
    (x - base) / shape ∈ tileRange base shape lo len := by
  have hlow : (lo - base) / shape ≤ (x - base) / shape := Nat.div_le_div_right (by omega)
  have hhigh : (x - base) / shape ≤ (lo - base + len - 1) / shape := Nat.div_le_div_right (by omega)
  rw [tileRange, if_neg (by omega), List.mem_map]
  exact ⟨(x - base) / shape - (lo - base) / shape, List.mem_range.mpr (by omega), by omega⟩

theorem tileRange_nodup (base shape lo len : Nat) : (tileRange base shape lo len).Nodup := by
  unfold tileRange
  split
  · exact List.nodup_nil
  · exact List.nodup_range.map (add_right_injective _)

/-- An item lies in the tile that its distance from the stage's corner names, and in no other. -/
theorem tile_of_item {base shape t x : Nat} (h : base + t * shape ≤ x) (hx : x < base + t * shape + shape) :
    t = (x - base) / shape :=
  (Nat.div_eq_of_lt_le (by omega) (by rw [Nat.succ_mul]; omega)).symm

theorem item_in_tile {base shape x : Nat} (hs : 1 ≤ shape) (h : base ≤ x) :
    base + (x - base) / shape * shape ≤ x ∧ x < base + (x - base) / shape * shape + shape := by
  have hdiv := Nat.div_add_mod (x - base) shape
  have hmod := Nat.mod_lt (x - base) (by omega : shape > 0)
  rw [Nat.mul_comm] at hdiv
  omega

/-! Items and lanes. -/

/-- The number of an item in a tile. -/
def itemNumber (gx gy dx dy dz : Nat) : Nat := dx + gx * (dy + gy * dz)

theorem itemNumber_of_parts (gx gy n : Nat) : itemNumber gx gy (n % gx) (n / gx % gy) (n / (gx * gy)) = n := by
  rw [itemNumber, ← Nat.div_div_eq_div_mul, Nat.mod_add_div, Nat.mod_add_div]

theorem itemNumber_parts {gx gy dx dy dz : Nat} (hx : dx < gx) (hy : dy < gy) :
    itemNumber gx gy dx dy dz % gx = dx ∧ itemNumber gx gy dx dy dz / gx % gy = dy ∧
      itemNumber gx gy dx dy dz / (gx * gy) = dz := by
  have hdiv : itemNumber gx gy dx dy dz / gx = dy + gy * dz := by
    rw [itemNumber, Nat.add_mul_div_left _ _ (by omega), Nat.div_eq_of_lt hx, Nat.zero_add]
  refine ⟨?_, ?_, ?_⟩
  · rw [itemNumber, Nat.add_mul_mod_self_left, Nat.mod_eq_of_lt hx]
  · rw [hdiv, Nat.add_mul_mod_self_left, Nat.mod_eq_of_lt hy]
  · rw [← Nat.div_div_eq_div_mul, hdiv, Nat.add_mul_div_left _ _ (by omega), Nat.div_eq_of_lt hy, Nat.zero_add]

theorem itemNumber_lt {gx gy gz dx dy dz : Nat} (hx : dx < gx) (hy : dy < gy) (hz : dz < gz) :
    itemNumber gx gy dx dy dz < gx * gy * gz := by
  have hlow : dy + gy * dz + 1 ≤ gy * gz := by
    have := Nat.mul_le_mul_left gy hz
    rw [Nat.mul_succ] at this
    omega
  have := Nat.mul_le_mul_left gx hlow
  rw [Nat.mul_succ, ← Nat.mul_assoc] at this
  unfold itemNumber
  omega

/-- What a lane of a dealt gang's strip that is live says of its item. -/
theorem laneIn_liveLanes {h : Header} {cx cy cz : Nat} {box : Box} {k l : Nat} (hl : l < 32) :
    laneIn (liveLanes h cx cy cz box k) l = true ↔
      32 * k + l < h.gx * h.gy * h.gz ∧ box.holds (itemAt cx cy cz h.gx h.gy k l) = true := by
  rw [liveLanes, laneIn_maskOf _ _ hl, Bool.and_eq_true, decide_eq_true_eq]

theorem Box.holds_iff (b : Box) (c : Nat × Nat × Nat) : b.holds c = true ↔
    (b.ox ≤ c.1 ∧ c.1 < b.ox + b.ex) ∧ (b.oy ≤ c.2.1 ∧ c.2.1 < b.oy + b.ey) ∧
      (b.oz ≤ c.2.2 ∧ c.2.2 < b.oz + b.ez) := by
  simp only [Box.holds, Bool.and_eq_true, decide_eq_true_eq]
  tauto

/-- An item of a tile's part lies in the tile and in the box. -/
theorem tilePart_holds (h : Header) (stage box : Box) (tx ty tz : Nat) (c : Nat × Nat × Nat) :
    (tilePart h stage box tx ty tz).holds c = true ↔
      (stage.ox + tx * h.gx ≤ c.1 ∧ c.1 < stage.ox + tx * h.gx + h.gx) ∧
      (stage.oy + ty * h.gy ≤ c.2.1 ∧ c.2.1 < stage.oy + ty * h.gy + h.gy) ∧
      (stage.oz + tz * h.gz ≤ c.2.2 ∧ c.2.2 < stage.oz + tz * h.gz + h.gz) ∧ box.holds c = true := by
  rw [Box.holds_iff, Box.holds_iff]
  simp only [tilePart, overlap_holds]
  tauto

/-! Tiles and gangs. -/

/-- The tiles of a stage that meet a span's box. -/
def dealtTiles (h : Header) (stage box : Box) : List (Nat × Nat × Nat) :=
  (tileRange stage.oz h.gz box.oz box.ez).flatMap fun tz =>
    (tileRange stage.oy h.gy box.oy box.ey).flatMap fun ty =>
      (tileRange stage.ox h.gx box.ox box.ex).map fun tx => (tx, ty, tz)

theorem mem_dealtTiles {h : Header} {stage box : Box} {t : Nat × Nat × Nat} : t ∈ dealtTiles h stage box ↔
    t.1 ∈ tileRange stage.ox h.gx box.ox box.ex ∧ t.2.1 ∈ tileRange stage.oy h.gy box.oy box.ey ∧
      t.2.2 ∈ tileRange stage.oz h.gz box.oz box.ez := by
  obtain ⟨tx, ty, tz⟩ := t
  simp only [dealtTiles, List.mem_flatMap, List.mem_map, Prod.mk.injEq]
  constructor
  · rintro ⟨z, hz, y, hy, x, hx, rfl, rfl, rfl⟩
    exact ⟨hx, hy, hz⟩
  · rintro ⟨hx, hy, hz⟩
    exact ⟨tz, hz, ty, hy, tx, hx, rfl, rfl, rfl⟩

theorem dealtTiles_nodup (h : Header) (stage box : Box) : (dealtTiles h stage box).Nodup := by
  refine List.nodup_flatMap.mpr ⟨fun z _ => List.nodup_flatMap.mpr ⟨fun y _ => ?_, ?_⟩, ?_⟩
  · exact (tileRange_nodup ..).map fun a b hab => congrArg Prod.fst hab
  · refine (tileRange_nodup ..).imp fun {a b} hab => ?_
    simp only [Function.onFun, List.disjoint_left, List.mem_map]
    rintro t ⟨x, _, rfl⟩ ⟨x', _, heq⟩
    exact hab (congrArg (·.2.1) heq).symm
  · refine (tileRange_nodup ..).imp fun {a b} hab => ?_
    simp only [Function.onFun, List.disjoint_left, List.mem_flatMap, List.mem_map]
    rintro t ⟨y, _, x, _, rfl⟩ ⟨y', _, x', _, heq⟩
    exact hab (congrArg (·.2.2) heq).symm

/-- The gangs of tiles, numbered from an id on. -/
def dealtGangs (p : Span) (h : Header) (stage : Box) : Nat → List (Nat × Nat × Nat) → List Gang
  | _, [] => []
  | id, (tx, ty, tz) :: rest => newGang p h stage id tx ty tz :: dealtGangs p h stage (id + 1) rest

theorem dealtGangs_length (p : Span) (h : Header) (stage : Box) (tiles : List (Nat × Nat × Nat)) (id : Nat) :
    (dealtGangs p h stage id tiles).length = tiles.length := by
  induction tiles generalizing id with
  | nil => rfl
  | cons t rest ih => exact congrArg (· + 1) (ih (id + 1))

theorem dealtGangs_ids (p : Span) (h : Header) (stage : Box) (tiles : List (Nat × Nat × Nat)) (id : Nat) :
    (dealtGangs p h stage id tiles).map (·.id) = (List.range tiles.length).map (id + ·) := by
  induction tiles generalizing id with
  | nil => rfl
  | cons t rest ih =>
    rw [List.length_cons, List.range_succ_eq_map, List.map_cons, List.map_map]
    refine congrArg₂ List.cons rfl ((ih (id + 1)).trans (List.map_congr_left fun k _ => ?_))
    simp only [Function.comp_apply]
    omega

theorem mem_dealtGangs {p : Span} {h : Header} {stage : Box} {tiles : List (Nat × Nat × Nat)} {id : Nat} {g : Gang} :
    g ∈ dealtGangs p h stage id tiles ↔ ∃ k t, tiles[k]? = some t ∧ g = newGang p h stage (id + k) t.1 t.2.1 t.2.2 := by
  induction tiles generalizing id with
  | nil => simp [dealtGangs]
  | cons t rest ih =>
    rw [dealtGangs, List.mem_cons, ih]
    constructor
    · rintro (rfl | ⟨k, t', hk, rfl⟩)
      · exact ⟨0, t, rfl, rfl⟩
      · exact ⟨k + 1, t', hk, by rw [Nat.add_right_comm, Nat.add_assoc]⟩
    · rintro ⟨k, t', hk, rfl⟩
      cases k with
      | zero =>
        obtain rfl := Option.some.inj hk
        exact .inl rfl
      | succ k => exact .inr ⟨k, t', hk, by rw [Nat.add_right_comm, Nat.add_assoc]⟩

theorem dealOut_eq {s : State} {p : Span} {l : Launch} (hl : s.launch? p.launch = some l) :
    dealOut s p = { s with
      spans := s.spans.filter fun q => q.id != p.id
      gangs := s.gangs ++ dealtGangs p l.hdr (stageBox l p.stage) s.nextId (dealtTiles l.hdr (stageBox l p.stage) p.box)
      nextId := s.nextId + (dealtTiles l.hdr (stageBox l p.stage) p.box).length } := by
  have hfold (tiles : List (Nat × Nat × Nat)) (s : State) :
      tiles.foldl (fun (s : State) (t : Nat × Nat × Nat) =>
        { s with
          gangs := s.gangs ++ [newGang p l.hdr (stageBox l p.stage) s.nextId t.1 t.2.1 t.2.2]
          nextId := s.nextId + 1 }) s =
        { s with
          gangs := s.gangs ++ dealtGangs p l.hdr (stageBox l p.stage) s.nextId tiles
          nextId := s.nextId + tiles.length } := by
    induction tiles generalizing s with
    | nil => simp [dealtGangs]
    | cons t rest ih =>
      rw [List.foldl_cons, ih]
      simp only [dealtGangs, List.append_assoc, List.singleton_append, List.length_cons, Nat.add_assoc, Nat.add_comm 1]
  rw [dealOut, hl]
  exact hfold _ _

/-! The strips of a dealt gang. -/

/-- The live lanes of strip k of the gang of a tile. -/
def tileLanes (p : Span) (h : Header) (stage : Box) (tx ty tz k : Nat) : Mask :=
  liveLanes h (stage.ox + tx * h.gx) (stage.oy + ty * h.gy) (stage.oz + tz * h.gz) (tilePart h stage p.box tx ty tz) k

section
variable {p : Span} {h : Header} {stage : Box} {id tx ty tz : Nat}

theorem newGang_strips_nodup : ((newGang p h stage id tx ty tz).strips.map (·.idx)).Nodup := by
  have hidx : ((newGang p h stage id tx ty tz).strips.map (·.idx)) =
      (List.range (tilesAlong (h.gx * h.gy * h.gz) 32)).filter fun k =>
        tileLanes p h stage tx ty tz k != 0 := by
    rw [newGang, List.map_map]
    exact List.map_id _
  rw [hidx]
  exact List.nodup_range.filter _

/-- A strip of a dealt gang holds the live lanes of its number. -/
theorem mem_newGang_strips {t : Strip} : t ∈ (newGang p h stage id tx ty tz).strips ↔
    ∃ k, k < tilesAlong (h.gx * h.gy * h.gz) 32 ∧
      tileLanes p h stage tx ty tz k ≠ 0 ∧
      t = newStrip k (tileLanes p h stage tx ty tz k) p.pc p.regs p.preds p.fmt p.mode p.fpstat := by
  simp only [newGang, List.mem_map, List.mem_filter, List.mem_range, bne_iff_ne]
  constructor
  · rintro ⟨k, ⟨hk, hne⟩, rfl⟩
    exact ⟨k, hk, hne, rfl⟩
  · rintro ⟨k, hk, hne, rfl⟩
    exact ⟨k, ⟨hk, hne⟩, rfl⟩

/-- Two strips of a dealt gang of one number are the same. -/
theorem newGang_strip_ext {t u : Strip} (ht : t ∈ (newGang p h stage id tx ty tz).strips)
    (hu : u ∈ (newGang p h stage id tx ty tz).strips) (hidx : t.idx = u.idx) : t = u := by
  obtain ⟨k, -, -, rfl⟩ := mem_newGang_strips.mp ht
  obtain ⟨j, -, -, rfl⟩ := mem_newGang_strips.mp hu
  obtain rfl : k = j := hidx
  rfl

/-- The item in a live lane of a dealt gang's strip lies in the span's box; its tile and its number follow from it. -/
theorem newGang_item {t : Strip} (ht : t ∈ (newGang p h stage id tx ty tz).strips) {n : Nat} (hn : n < 32)
    (hlive : laneIn t.live n = true) : let c := (newGang p h stage id tx ty tz).coord h t.idx n
    p.box.holds c = true ∧ (tx, ty, tz) = ((c.1 - stage.ox) / h.gx, (c.2.1 - stage.oy) / h.gy, (c.2.2 - stage.oz) / h.gz) ∧
      32 * t.idx + n = itemNumber h.gx h.gy (c.1 - (stage.ox + tx * h.gx)) (c.2.1 - (stage.oy + ty * h.gy))
        (c.2.2 - (stage.oz + tz * h.gz)) := by
  obtain ⟨k, hk, -, rfl⟩ := mem_newGang_strips.mp ht
  obtain ⟨hbound, hpart⟩ := (laneIn_liveLanes hn).mp hlive
  obtain ⟨⟨hxl, hxh⟩, ⟨hyl, hyh⟩, ⟨hzl, hzh⟩, hbox⟩ := (tilePart_holds ..).mp hpart
  refine ⟨hbox, ?_, ?_⟩
  · exact Prod.ext (tile_of_item hxl hxh) (Prod.ext (tile_of_item hyl hyh) (tile_of_item hzl hzh))
  · have hnumber := itemNumber_of_parts h.gx h.gy (32 * k + n)
    simp only [Gang.coord, itemAt, newGang, newStrip, Nat.add_sub_cancel_left]
    exact hnumber.symm

/-- Every item of the span's box stands in a live lane of its tile's gang. -/
theorem newGang_holds {c : Nat × Nat × Nat} (hx : 1 ≤ h.gx) (hy : 1 ≤ h.gy) (hz : 1 ≤ h.gz) (hox : stage.ox ≤ c.1)
    (hoy : stage.oy ≤ c.2.1) (hoz : stage.oz ≤ c.2.2) (hbox : p.box.holds c = true)
    (htile : (tx, ty, tz) = ((c.1 - stage.ox) / h.gx, (c.2.1 - stage.oy) / h.gy, (c.2.2 - stage.oz) / h.gz)) :
    ∃ t ∈ (newGang p h stage id tx ty tz).strips, ∃ n < 32, laneIn t.live n = true ∧
      (newGang p h stage id tx ty tz).coord h t.idx n = c := by
  obtain ⟨rfl, rfl, rfl⟩ : tx = _ ∧ ty = _ ∧ tz = _ := by simpa using htile
  obtain ⟨hxl, hxh⟩ := item_in_tile hx hox
  obtain ⟨hyl, hyh⟩ := item_in_tile hy hoy
  obtain ⟨hzl, hzh⟩ := item_in_tile hz hoz
  generalize (c.1 - stage.ox) / h.gx = tx at *
  generalize (c.2.1 - stage.oy) / h.gy = ty at *
  generalize (c.2.2 - stage.oz) / h.gz = tz at *
  set n := itemNumber h.gx h.gy (c.1 - (stage.ox + tx * h.gx)) (c.2.1 - (stage.oy + ty * h.gy))
    (c.2.2 - (stage.oz + tz * h.gz)) with hn
  have hlt : n < h.gx * h.gy * h.gz := itemNumber_lt (by omega) (by omega) (by omega)
  obtain ⟨hpx, hpy, hpz⟩ := itemNumber_parts (gx := h.gx) (gy := h.gy) (dx := c.1 - (stage.ox + tx * h.gx))
    (dy := c.2.1 - (stage.oy + ty * h.gy)) (dz := c.2.2 - (stage.oz + tz * h.gz)) (by omega) (by omega)
  have hnum : 32 * (n / 32) + n % 32 = n := Nat.div_add_mod n 32
  have hcoord : itemAt (stage.ox + tx * h.gx) (stage.oy + ty * h.gy) (stage.oz + tz * h.gz) h.gx h.gy (n / 32) (n % 32) =
      c := by
    rw [← hn] at hpx hpy hpz
    simp only [itemAt, hnum, hpx, hpy, hpz, Nat.add_sub_cancel' hxl, Nat.add_sub_cancel' hyl, Nat.add_sub_cancel' hzl]
  have hlive : laneIn (tileLanes p h stage tx ty tz (n / 32)) (n % 32) = true := by
    rw [tileLanes, laneIn_liveLanes (Nat.mod_lt n (by decide)), hnum, hcoord, tilePart_holds]
    exact ⟨hlt, ⟨hxl, hxh⟩, ⟨hyl, hyh⟩, ⟨hzl, hzh⟩, hbox⟩
  refine ⟨_, mem_newGang_strips.mpr ⟨n / 32, ?_, ?_, rfl⟩, n % 32, Nat.mod_lt n (by decide), hlive, hcoord⟩
  · unfold tilesAlong
    omega
  · intro hzero
    rw [hzero] at hlive
    simp [laneIn] at hlive

end

/-- Settles O43: the gangs are those of the tiles that the span's box meets. -/
theorem spansDealtOut : Obligations.SpansDealtOut := by
  unfold Obligations.SpansDealtOut
  intro s p l hl hx hy hz stage u hox hoxe hoy hoye hoz hoze
  have hu : u = _ := dealOut_eq hl
  refine ⟨dealtGangs p l.hdr stage s.nextId (dealtTiles l.hdr stage p.box), ?_, ?_, ?_, ?_, ?_⟩
  · rw [hu]
  · rw [hu, dealtGangs_length]
  · rw [dealtGangs_length]
    exact dealtGangs_ids ..
  · intro g hg
    obtain ⟨k, tile, -, rfl⟩ := mem_dealtGangs.mp hg
    refine ⟨rfl, rfl, rfl, rfl, rfl, newGang_strips_nodup, fun t ht => ?_⟩
    have hitem := fun n hn hlive => (newGang_item ht (n := n) hn hlive).1
    obtain ⟨j, -, hne, rfl⟩ := mem_newGang_strips.mp ht
    exact ⟨rfl, rfl, rfl, rfl, rfl, rfl, rfl, hne, rfl, hitem⟩
  · intro c hc
    obtain ⟨⟨hxl, hxh⟩, ⟨hyl, hyh⟩, ⟨hzl, hzh⟩⟩ := (Box.holds_iff ..).mp hc
    obtain ⟨k, hk⟩ := List.getElem?_of_mem (mem_dealtTiles (h := l.hdr) (stage := stage) (box := p.box)
      (t := ((c.1 - stage.ox) / l.hdr.gx, (c.2.1 - stage.oy) / l.hdr.gy, (c.2.2 - stage.oz) / l.hdr.gz)).mpr
      ⟨tile_mem_tileRange hox hxl hxh, tile_mem_tileRange hoy hyl hyh, tile_mem_tileRange hoz hzl hzh⟩)
    obtain ⟨t, ht, n, hn, hlive, hcoord⟩ := newGang_holds (p := p) (id := s.nextId + k) hx hy hz (hox.trans hxl)
      (hoy.trans hyl) (hoz.trans hzl) hc rfl
    refine ⟨(_, t, n), ⟨mem_dealtGangs.mpr ⟨k, _, hk, rfl⟩, ht, hn, hlive, hcoord⟩, ?_⟩
    rintro ⟨g', t', n'⟩ ⟨hg', ht', hn', hlive', hcoord'⟩
    dsimp only at hg' ht' hn' hlive' hcoord'
    obtain ⟨k', tile, hk', rfl⟩ := mem_dealtGangs.mp hg'
    obtain ⟨-, htile, hnumber⟩ := newGang_item ht' hn' hlive'
    obtain ⟨-, -, hnum⟩ := newGang_item ht hn hlive
    simp only [hcoord'] at htile hnumber
    simp only [hcoord] at hnum
    obtain rfl : tile = _ := htile
    obtain rfl : k' = k := (List.getElem?_inj (List.getElem?_eq_some_iff.mp hk').1 (dealtTiles_nodup ..)).mp (hk'.trans hk.symm)
    have hlane : 32 * t'.idx + n' = 32 * t.idx + n := hnumber.trans hnum.symm
    obtain rfl : n' = n := by omega
    obtain rfl : t' = t := newGang_strip_ext ht' ht (by omega)
    rfl


end Sys2Proof.Machine
end

section
/-! Codes in the slots of a block (R56, R107, R345). -/

namespace Sys2Proof.Machine

theorem toBytes_drop (v n k : Nat) : (toBytes v n).drop k = toBytes (v / 256 ^ k) (n - k) := by
  induction n generalizing v k with
  | zero => simp [toBytes]
  | succ n ih =>
    cases k with
    | zero => simp
    | succ k =>
      rw [toBytes, List.drop_succ_cons, ih, Nat.div_div_eq_div_mul, ← Nat.pow_succ', Nat.add_sub_add_right]

theorem toBytes_take (v n k : Nat) (h : k ≤ n) : (toBytes v n).take k = toBytes v k := by
  induction k generalizing v n with
  | zero => rfl
  | succ k ih =>
    obtain ⟨m, rfl⟩ : ∃ m, n = m + 1 := ⟨n - 1, by omega⟩
    rw [toBytes, toBytes, List.take_succ_cons, ih _ _ (by omega)]

theorem toBytes_four (v : Nat) :
    toBytes v 4 = (List.range 4).map fun j => BitVec.ofNat 8 (v / 256 ^ j) := by
  simp [toBytes, List.range_succ, Nat.div_div_eq_div_mul]

/-- A byte of a word that stands in little-endian bytes. -/
theorem byte_of_word (v q j : Nat) (hj : j < 4) :
    (wordOf (toBytes (v / 256 ^ (4 * q)) 4)).extractLsb' (8 * j) 8 = BitVec.ofNat 8 (v / 256 ^ (4 * q + j)) := by
  apply BitVec.eq_of_toNat_eq
  rw [wordOf, ofBytes_toBytes, BitVec.extractLsb'_toNat, BitVec.toNat_ofNat, BitVec.toNat_ofNat, Nat.pow_add,
    ← Nat.div_div_eq_div_mul]
  generalize v / 256 ^ (4 * q) = x
  rw [Nat.shiftRight_eq_div_pow]
  obtain rfl | rfl | rfl | rfl : j = 0 ∨ j = 1 ∨ j = 2 ∨ j = 3 := by omega
  all_goals omega

/-- A slot that lies within four bytes. -/
theorem slot_bits (v b w : Nat) (h : b % 8 + w ≤ 32) :
    bitsOf (v / 256 ^ (b / 8) % 256 ^ 4) (b % 8) w = v / 2 ^ b % 2 ^ w := by
  have h256 (n : Nat) : 256 ^ n = 2 ^ (8 * n) := by rw [Nat.pow_mul]
  have hb : 8 * (b / 8) + b % 8 = b := Nat.div_add_mod b 8
  apply Nat.eq_of_testBit_eq
  intro k
  simp only [bitsOf, h256, ← Nat.shiftRight_eq_div_pow, Nat.testBit_mod_two_pow, Nat.testBit_shiftRight]
  by_cases hk : k < w
  · have hin : b % 8 + k < 8 * 4 := by omega
    simp only [hk, hin, decide_true, Bool.true_and, ← Nat.add_assoc, hb]
  · simp [hk]

/-- The number whose digits of w bits are codes. -/
def packedTotal (w : Nat) (codes : List Nat) : Nat := codes.foldr (fun c n => c % 2 ^ w + 2 ^ w * n) 0

theorem packedTotal_digit (w : Nat) (codes : List Nat) {k c : Nat} (hk : codes[k]? = some c) :
    packedTotal w codes / 2 ^ (w * k) % 2 ^ w = c % 2 ^ w := by
  have hpos : 0 < 2 ^ w := Nat.two_pow_pos w
  induction codes generalizing k with
  | nil => cases hk
  | cons d rest ih =>
    have htotal : packedTotal w (d :: rest) = d % 2 ^ w + 2 ^ w * packedTotal w rest := rfl
    cases k with
    | zero =>
      obtain rfl := Option.some.inj hk
      rw [htotal, Nat.mul_zero, Nat.pow_zero, Nat.div_one, Nat.add_mul_mod_self_left, Nat.mod_mod]
    | succ k =>
      have hdiv : packedTotal w (d :: rest) / 2 ^ w = packedTotal w rest := by
        rw [htotal, Nat.add_mul_div_left _ _ hpos, Nat.div_eq_of_lt (Nat.mod_lt _ hpos), Nat.zero_add]
      rw [Nat.mul_succ, Nat.add_comm, Nat.pow_add, ← Nat.div_div_eq_div_mul, hdiv]
      exact ih hk

theorem slotBytes_eq (w : Nat) (codes : List Nat) : slotBytes w codes = toBytes (packedTotal w codes) 64 := rfl

section
variable {dst : Nat} {rows : List (List Byte)} {x : Landing} (hx : x.parts = blockParts dst rows)
include hx

theorem block_isBlock : x.isBlock dst := by
  rw [Landing.isBlock, hx, blockParts]
  refine ⟨by simp, fun k p hp => ?_⟩
  obtain ⟨r, hr, rfl⟩ := List.getElem?_map .. ▸ hp |> Option.map_eq_some_iff.mp
  obtain ⟨hk, rfl⟩ := List.getElem?_eq_some_iff.mp hr
  exact ⟨by simp, rfl, rfl⟩

theorem block_byte {i v c : Nat} (hi : i < 16) (hrow : rows[i]? = some (toBytes v 64)) (hc : c < 64) :
    x.blockByte i c = BitVec.ofNat 8 (v / 256 ^ c) := by
  have hn : (16 * i + c / 4) / 32 < 8 := by omega
  have hword : 32 * ((16 * i + c / 4) / 32) + (16 * i + c / 4) % 32 = 16 * i + c / 4 := Nat.div_add_mod ..
  have hrow' : rows.getD ((16 * i + c / 4) / 16) [] = toBytes v 64 := by
    rw [show (16 * i + c / 4) / 16 = i by omega, List.getD_eq_getElem?_getD, hrow, Option.getD_some]
  rw [Landing.blockByte, hx, blockParts]
  simp only [List.getElem?_map, List.getElem?_range hn, Option.map_some, Option.getD_some]
  rw [vget_ofFn _ _ _ (Nat.mod_lt _ (by decide))]
  simp only [hword, hrow']
  rw [toBytes_drop, toBytes_take _ _ _ (by omega), show (16 * i + c / 4) % 16 = c / 4 by omega,
    byte_of_word _ _ _ (Nat.mod_lt _ (by decide)), Nat.div_add_mod]

/-- A slot of a block whose row holds codes. -/
theorem block_slot {i k c w : Nat} {codes : List Nat} (hi : i < 16) (hw : w = 4 ∨ w = 8 ∨ w = 16 ∨ w = 32) (hk : k < 16)
    (hrow : rows[i]? = some (slotBytes w codes)) (hcode : codes[k]? = some c) : x.blockSlot w i k = c % 2 ^ w := by
  rw [slotBytes_eq] at hrow
  have hbytes : ((List.range 4).map fun j => x.blockByte i (w * k / 8 + j)) =
      toBytes (packedTotal w codes / 256 ^ (w * k / 8)) 4 := by
    rw [toBytes_four]
    refine List.map_congr_left fun j hj => ?_
    have hj := List.mem_range.mp hj
    rw [block_byte hx hi hrow (by rcases hw with rfl | rfl | rfl | rfl <;> omega), Nat.pow_add, Nat.div_div_eq_div_mul]
  rw [Landing.blockSlot, hbytes, ofBytes_toBytes, slot_bits _ _ _ (by rcases hw with rfl | rfl | rfl | rfl <;> omega),
    packedTotal_digit w codes hcode]

end

end Sys2Proof.Machine
end

section
/-! The mill and the accumulator tiles (R84, R107, R115 to R117, R210, R308, R309, R348, R363). -/

namespace Sys2Proof.Machine

theorem foldl_map_or {α : Type} (l : List α) (f : α → Nat × Word) (a : Word) :
    (l.map f).foldl (fun x r => x ||| r.2) a = l.foldl (fun x n => x ||| (f n).2) a := List.foldl_map

/-! What a seat's words see. -/

theorem withFrame_self {s : State} {i : Instr} {w : Seat} (h : SeatFacts s i w) : w.t.withFrame w.fr = w.t := by
  obtain ⟨gd, hgd⟩ := h.gd
  rw [hgd]
  rfl

/-- A tile word's draws, with the strip whose generator has advanced. -/
theorem tileDraws_eq {s : State} {i : Instr} {w : Seat} (h : SeatFacts s i w) (mode : Nat) :
    (tileDraws w.fr mode).1 = w.draw mode ∧ w.t.withFrame (tileDraws w.fr mode).2 = { w.t with
      gens := if mode = 6 then vset w.t.gens w.fr.srg ((vget w.t.gens w.fr.srg (Gen.mk 0 0)).advance 256) else w.t.gens } := by
  obtain ⟨gd, hgd⟩ := h.gd
  unfold tileDraws
  split
  · next h6 =>
    refine ⟨?_, ?_⟩
    · funext l
      rw [Seat.draw, if_pos h6, hgd]
      rfl
    · rw [hgd]
      rfl
  · next h6 =>
    refine ⟨?_, ?_⟩
    · funext l
      rw [Seat.draw, if_neg h6]
    · rw [hgd]
      rfl

theorem seat_acct {s : State} {i : Instr} {w : Seat} (hi : s.issuing i = some w) : acctOf w.s w.g.launch = w.l.rcd.acct := by
  obtain ⟨gid, k, g, t, l, x, h⟩ := issuing_facts hi
  have hl : w.s.launch? g.launch = some l := by
    rw [(seat_facts hi).state, ← h.launch]
    split <;> rfl
  have hg : w.g = g := by rw [h.seat]; rfl
  have hwl : w.l = l := by rw [h.seat]; rfl
  rw [acctOf, hg, hl, hwl]
  rfl

theorem collective_ok {w : Seat} (h : w.fr.active = w.t.live) : w.collective = .ok () := by
  simp [Seat.collective, refuseIf, h]

theorem entry_eq {s : State} {i : Instr} {w : Seat} (h : SeatFacts s i w) {code : Nat} {e : DWord}
    (he : entryOf w.x.fmtTable w.t.fmt code = some e) : w.fr.entry code = .ok e := by
  obtain ⟨htable, hfmt⟩ := seat_table h
  rw [Frame.entry, htable, hfmt, he]

theorem accEntry_ok {s : State} {i : Instr} {w : Seat} (h : SeatFacts s i w) {x : Option XWord} {e : DWord}
    (he : w.plainEntry (if x.isNone then 50 else fmtOf x) = some e) (h64 : (Ent.of e).wid ≠ 64) (h0 : (Ent.of e).wid ≠ 0) :
    accEntry w.fr x = .ok (Ent.of e) := by
  rw [accEntry, plainEntry_eq h, he]
  show (if (decide ((Ent.of e).wid = 64) || decide ((Ent.of e).wid = 0)) = true then illegalFormat else .ok (Ent.of e)) = _
  rw [if_neg (by simp [h64, h0])]

/-! The mill. -/

theorem foldl_ofFn (n : Nat) (f : Nat → Nat × Word) :
    (Vector.ofFn fun i : Fin n => f i.val).toList.foldl (fun x r => x ||| r.2) 0 =
      (List.range n).foldl (fun fl i => fl ||| (f i).2) 0 := by
  have hlist : (Vector.ofFn fun i : Fin n => f i.val).toList = (List.range n).map f := by
    rw [Vector.toList_ofFn]
    exact List.ofFn_eq_map .. |>.trans (by simp [← List.map_coe_finRange_eq_range])
  rw [hlist, foldl_map_or]

theorem millTile_get (k : Nat) (old : Nat → Nat) (a b : Nat → Nat → Num) {n : Nat} (hn : n < 256) :
    vget (millTile k old a b).1 n 0 = BitVec.ofNat 48 (millElement k (old n) fun j => (a (n / 16) j, b (n % 16) j)).1 := by
  simp [millTile, vget, hn]

theorem millTile_flags (k : Nat) (old : Nat → Nat) (a b : Nat → Nat → Num) : (millTile k old a b).2 =
    (List.range 256).foldl (fun fl n => fl ||| (millElement k (old n) fun j => (a (n / 16) j, b (n % 16) j)).2) 0 := by
  simp only [millTile]
  rw [foldl_ofFn 256 fun n => millElement k (old n) fun j => (a (n / 16) j, b (n % 16) j)]

/-- MMA, and SMMA as a sparse one. -/
theorem mma_passes {s : State} {w : Seat} {i : Instr} {v : WMma} {sparse : Bool} {ea eb : DWord} (hi : s.issuing i = some w)
    (hout : exec i s = .next (settle w i (w.form i) (mmaBody v sparse w))) (hact : w.fr.active = w.t.live)
    (hea : entryOf w.x.fmtTable w.t.fmt 48 = some ea) (heb : entryOf w.x.fmtTable w.t.fmt 49 = some eb)
    (hmill : millAccepts (Ent.of ea) (Ent.of eb) = true) :
    let k := depthOf (Ent.of ea).wid (Ent.of ea).blk
    let kept (b : Nat) : Bool := !sparse || bitmapBit w.fr (vcOf v.x).toNat b
    let pair (n j : Nat) : Machine.Num × Machine.Num :=
      (if kept (k * (n / 16) + j) then blockNum w.fr (Ent.of ea) v.a.toNat (n / 16) j else .fin false 0 0,
        if kept (16 * k + k * (n % 16) + j) then blockNum w.fr (Ent.of eb) v.b.toNat (n % 16) j else .fin false 0 0)
    let old (n : Nat) : Nat := if v.ovw then 0 else (vget (w.g.tileAt v.acc.toNat) n 0).toNat
    let element (n : Nat) : Nat × Word := millElement k (old n) (pair n)
    let locks := blockLocks w.fr v.a.toNat 8 ||| blockLocks w.fr v.b.toNat 8 |||
      (if sparse then blockLocks w.fr (vcOf v.x).toNat 4 else 0)
    let t := if v.ovw then w.t else setMillFlags (fun x => x.tile == some v.acc.toNat) w.t
    ∃ tile, (∀ n < 256, vget tile n 0 = BitVec.ofNat 48 (element n).1) ∧
      exec i s = .next (w.passed i
        (charge (w.s.mapGang w.g.id fun g => { g with tiles := g.tiles.set v.acc.toNat tile }) w.l.rcd.acct
          fun x => { x with macs := x.macs + BitVec.ofNat 64 (256 * k) })
        { t with
          locks := w.t.locks ||| locks
          outstanding := t.outstanding ++
            [Landing.mk [] locks ((List.range 256).foldl (fun fl n => fl ||| (element n).2) 0) (some v.acc.toNat)] }) := by
  intro k kept pair old element locks t
  have h := seat_facts hi
  let a (i j : Nat) : Machine.Num := if kept (k * i + j) then blockNum w.fr (Ent.of ea) v.a.toNat i j else .fin false 0 0
  let b (i j : Nat) : Machine.Num :=
    if kept (16 * k + k * i + j) then blockNum w.fr (Ent.of eb) v.b.toNat i j else .fin false 0 0
  refine ⟨(millTile k old a b).1, fun n hn => millTile_get _ _ _ _ hn, ?_⟩
  have hflags : (millTile k old a b).2 = (List.range 256).foldl (fun fl n => fl ||| (element n).2) 0 := millTile_flags k old a b
  have hlocks : t.locks = w.t.locks := by
    simp only [t]
    split <;> rfl
  have hacct (f : Gang → Gang) : acctOf (w.s.mapGang w.g.id f) w.g.launch = w.l.rcd.acct := seat_acct hi
  rw [← hflags, ← hlocks]
  have hcalm : t.wait = w.t.wait ∧ t.parked = w.t.parked ∧ t.priv = w.t.priv ∧ t.replay = w.t.replay := by
    simp only [t]
    split <;> exact ⟨rfl, rfl, rfl, rfl⟩
  obtain ⟨hwait, hparked, hpriv, hreplay⟩ := hcalm
  refine passes_of h hout ?_ hwait hparked hpriv hreplay
  rw [mmaBody]
  simp only [entry_eq h hea, entry_eq h heb, hmill, if_true, collective_ok hact, Seat.part, done_ok, withFrame_self h, hacct]
  rfl

/-! Accumulator tiles. -/

theorem accwrZero_passes {s : State} {w : Seat} {st : Bool} {acc : BitVec 4} {x : Option XWord}
    (hi : s.issuing (.accwrZero st acc x) = some w) (hact : w.fr.active = w.t.live) :
    exec (.accwrZero st acc x) s = .next (w.passed (.accwrZero st acc x)
      (w.s.mapGang w.g.id fun g => { g with tiles := g.tiles.set acc.toNat (Vector.replicate 256 0) }) w.t) := by
  have h := seat_facts hi
  show execAccwrZero st acc x s = _
  rw [execAccwrZero, runStrip_issuing hi]
  refine passes_of h rfl ?_
  rw [accwrZeroBody, collective_ok hact, done_ok, withFrame_self h]
  rfl

theorem slotWidth_cases (e : DWord) (h64 : (Ent.of e).wid ≠ 64) (h0 : (Ent.of e).wid ≠ 0) :
    slotWidth (Ent.of e).wid = 4 ∨ slotWidth (Ent.of e).wid = 8 ∨ slotWidth (Ent.of e).wid = 16 ∨
      slotWidth (Ent.of e).wid = 32 := by
  have hw : ∀ c < 16, widthOfCode c ≠ 64 → widthOfCode c ≠ 0 →
      slotWidth (widthOfCode c) = 4 ∨ slotWidth (widthOfCode c) = 8 ∨ slotWidth (widthOfCode c) = 16 ∨
        slotWidth (widthOfCode c) = 32 := by decide
  exact hw _ (Nat.mod_lt _ (by decide)) h64 h0

/-- The sixteen codes of a tile's row. -/
def tileCodes (f : Nat → Nat × Word) (i : Nat) : List Nat := ((((List.range 256).map f).drop (16 * i)).take 16).map (·.1)

theorem tileCodes_get (f : Nat → Nat × Word) {i k : Nat} (hi : i < 16) (hk : k < 16) :
    (tileCodes f i)[k]? = some (f (16 * i + k)).1 := by
  simp only [tileCodes, List.getElem?_map, List.getElem?_take, hk, if_true, List.getElem?_drop,
    List.getElem?_range (by omega : 16 * i + k < 256), Option.map_some]

theorem accrd_passes {s : State} {w : Seat} {i : Instr} {v : WAcc} {zero : Bool} {e : DWord} (hi : s.issuing i = some w)
    (hout : exec i s = .next (settle w i (w.form i) (accrdBody v zero w))) (hr : w.l.hdr.regs ≠ 0)
    (hact : w.fr.active = w.t.live) (he : w.plainEntry (if v.x.isNone then 50 else fmtOf v.x) = some e)
    (h64 : (Ent.of e).wid ≠ 64) (h0 : (Ent.of e).wid ≠ 0) :
    let f := Ent.of e
    let mode := w.mode v.x
    let tile := w.g.tileAt v.acc.toNat
    let element (n : Nat) : Nat × Word := f.round mode (satOf v.x) (w.draw mode n) (Ent.acc.decode (vget tile n 0).toNat)
    let m := if zero then w.s.mapGang w.g.id fun g => { g with tiles := g.tiles.set v.acc.toNat (Vector.replicate 256 0) }
      else w.s
    let old := setMillFlags (fun x => x.tile == some v.acc.toNat) w.t
    ∃ x, x.isBlock (w.slot v.r) ∧ x.locks = 0 ∧ x.tile = some v.acc.toNat ∧
      x.flags = (List.range 256).foldl (fun fl n => fl ||| (element n).2) 0 ∧
      (∀ n < 256, x.blockSlot (slotWidth f.wid) (n / 16) (n % 16) = (element n).1 % 2 ^ slotWidth f.wid) ∧
      exec i s = .next (w.passed i m { old with
        gens := if mode = 6 then vset w.t.gens w.fr.srg ((vget w.t.gens w.fr.srg (Gen.mk 0 0)).advance 256) else w.t.gens
        outstanding := old.outstanding ++ [x] }) := by
  intro f mode tile element m old
  have h := seat_facts hi
  obtain ⟨hdraw, hgens⟩ := tileDraws_eq h mode
  let rows := (List.range 16).map fun i => slotBytes (slotWidth f.wid) (tileCodes element i)
  obtain ⟨fl, hfl⟩ : ∃ fl, fl = (List.range 256).foldl (fun fl n => fl ||| (element n).2) 0 := ⟨_, rfl⟩
  refine ⟨Landing.mk (blockParts (w.slot v.r) rows) 0 fl (some v.acc.toNat), block_isBlock rfl, rfl, rfl, hfl,
    fun n hn => ?_, ?_⟩
  · have hrow : rows[n / 16]? = some (slotBytes (slotWidth f.wid) (tileCodes element (n / 16))) := by
      simp only [rows, List.getElem?_map, List.getElem?_range (by omega : n / 16 < 16), Option.map_some]
    have hcode := tileCodes_get element (by omega : n / 16 < 16) (Nat.mod_lt n (by decide : 16 > 0))
    rw [Nat.div_add_mod] at hcode
    exact block_slot rfl (by omega) (slotWidth_cases e h64 h0) (Nat.mod_lt n (by decide)) hrow hcode
  · refine passes_of h hout ?_
    rw [accrdBody]
    simp only [lineFor_ok h hr, accEntry_ok h he h64 h0, collective_ok hact, Seat.part, done_ok]
    rw [show w.fr.rounding (rndOf v.x) = mode from rfl]
    simp only [hdraw, hgens]
    rw [foldl_map_or, ← hfl]
    rfl

theorem accwr_passes {s : State} {w : Seat} {v : WAcc} {e : DWord} (hi : s.issuing (.accwr v) = some w)
    (hact : w.fr.active = w.t.live) (he : w.plainEntry (if v.x.isNone then 50 else fmtOf v.x) = some e)
    (h64 : (Ent.of e).wid ≠ 64) (h0 : (Ent.of e).wid ≠ 0) :
    let f := Ent.of e
    let mode := w.mode v.x
    let element (n : Nat) : Nat × Word := Ent.acc.round mode (satOf v.x) (w.draw mode n)
      (f.decode (blockSlot w.fr v.r.toNat (slotWidth f.wid) (n / 16) (n % 16) % 2 ^ f.wid))
    ∃ tile, (∀ n < 256, vget tile n 0 = BitVec.ofNat 48 (element n).1) ∧
      exec (.accwr v) s = .next (w.passed (.accwr v)
        (w.s.mapGang w.g.id fun g => { g with tiles := g.tiles.set v.acc.toNat tile })
        { w.t with
          gens := if mode = 6 then vset w.t.gens w.fr.srg ((vget w.t.gens w.fr.srg (Gen.mk 0 0)).advance 256) else w.t.gens
          outstanding := w.t.outstanding ++
            [Landing.mk [] 0 ((List.range 256).foldl (fun fl n => fl ||| (element n).2) 0) (some v.acc.toNat)] }) := by
  intro f mode element
  have h := seat_facts hi
  obtain ⟨hdraw, hgens⟩ := tileDraws_eq h mode
  refine ⟨(Vector.ofFn fun n : Fin 256 => element n.val).map fun r => BitVec.ofNat 48 r.1, fun n hn => ?_, ?_⟩
  · simp [vget, hn]
  · show execAccwr v s = _
    rw [execAccwr, runStrip_issuing hi]
    refine passes_of h rfl ?_
    rw [accwrBody]
    simp only [accEntry_ok h he h64 h0, collective_ok hact, Seat.part, done_ok]
    rw [show w.fr.rounding (rndOf v.x) = mode from rfl]
    simp only [hdraw, hgens]
    rw [← foldl_ofFn 256 element]
    rfl

/-- Settles O31. -/
theorem millAndTiles : Obligations.MillAndTiles := by
  unfold Obligations.MillAndTiles
  refine ⟨fun s w i v sparse ea eb hi hcase hact hea heb hmill => ?_, fun s w i v zero e hi hcase hr hact he h64 h0 => ?_,
    fun s w v e hi hact he h64 h0 => accwr_passes hi hact he h64 h0, fun s w st acc x hi hact => accwrZero_passes hi hact⟩
  · rcases hcase with ⟨rfl, rfl⟩ | ⟨rfl, rfl⟩
    · exact mma_passes hi ((rfl : _ = execMma v s).trans (runStrip_issuing hi _)) hact hea heb hmill
    · exact mma_passes hi ((rfl : _ = execSmma v s).trans (runStrip_issuing hi _)) hact hea heb hmill
  · rcases hcase with ⟨rfl, rfl⟩ | ⟨rfl, rfl⟩
    · exact accrd_passes hi ((rfl : _ = execAccrd v s).trans (runStrip_issuing hi _)) hr hact he h64 h0
    · exact accrd_passes hi ((rfl : _ = execAccrdZero v s).trans (runStrip_issuing hi _)) hr hact he h64 h0

end Sys2Proof.Machine
end

section
/-! Words of the scratchpad (R164, R165, R315, R343, R364). -/

namespace Sys2Proof.Machine

/-! What a load of lanes leaves outstanding. -/

theorem find?_map_self {β : Type} (ls : List Nat) (f : Nat → β) {l : Nat} (hl : l ∈ ls) :
    (ls.map fun k => (k, f k)).find? (·.1 == l) = some (l, f l) := by
  induction ls with
  | nil => cases hl
  | cons k ks ih =>
    by_cases hk : k = l
    · subst hk
      simp
    · rw [List.map_cons, List.find?_cons_of_neg (by simpa using hk)]
      exact ih ((List.mem_cons.mp hl).resolve_left (Ne.symm hk))

/-- A load of every lane of a mask, each of its own bytes. -/
theorem parts_of_lanes {a : Access} {m : Mask} (hk : a.kind ≠ .loadT) (hu : a.uniform = false) (hr : a.regs ≠ 0)
    (hm : m ≠ 0)
    {req : Nat → LaneReq} (hreq : ∀ l, (req l).lane = l) (bytes : Nat → List Byte) :
    let done := (lanesOf m).map fun l => (req l, bytes l)
    (a.parts done).1.isEmpty = false ∧
    (a.parts done).2 = (lanesOf m).foldl (fun fl l => fl ||| (a.words (bytes l)).2) 0 ∧
    (Landing.mk (a.parts done).1 0 0 none).holds a.dst a.regs m false fun l k => (a.words (bytes l)).1.getD k 0 := by
  intro done
  have hdone : done.isEmpty = false := by simpa [done] using lanesOf_ne hm
  have hws : (done.map fun (r, bs) => (r.lane, a.words bs)) = (lanesOf m).map fun l => (l, a.words (bytes l)) := by
    simp [done, hreq, Function.comp_def]
  have hkt : (a.kind == .loadT) = false := by simpa using hk
  have hr0 : (a.regs == 0) = false := by simpa using hr
  have hmask : (maskOf fun l => ((lanesOf m).map fun l => (l, a.words (bytes l))).any (·.1 == l)) = m := by
    refine mask_ext fun l hl => ?_
    rw [laneIn_maskOf _ _ hl]
    cases hin : laneIn m l with
    | true => simpa using mem_lanesOf.mpr ⟨hl, hin⟩
    | false => simpa [mem_lanesOf] using fun k _ hk hkl => absurd hk (by rw [hkl, hin]; decide)
  have hparts : a.parts done = ((List.range a.regs).map fun i => RegPart.mk (a.dst + i) m
      (Vector.ofFn fun l : Fin 32 => ((((lanesOf m).map fun l => (l, a.words (bytes l))).find? (·.1 == l.val)).map
        fun (_, v, _) => v.getD i 0).getD 0) false, (lanesOf m).foldl (fun fl l => fl ||| (a.words (bytes l)).2) 0) := by
    unfold Access.parts
    simp only [hdone, hkt, hr0, Bool.or_self, Bool.false_eq_true, if_false, hu, Bool.false_and]
    rw [hws, List.foldl_map, hmask]
  rw [hparts]
  refine ⟨by simpa using hr, rfl, rfl, rfl, rfl, by simp, fun k p hp => ?_⟩
  obtain ⟨i, hi, rfl⟩ := List.getElem?_map .. ▸ hp |> Option.map_eq_some_iff.mp
  obtain ⟨hlt, rfl⟩ := List.getElem?_eq_some_iff.mp hi
  refine ⟨by simp, rfl, rfl, fun l hl hin => ?_⟩
  rw [vget_ofFn _ _ _ hl]
  simp only [find?_map_self _ _ (mem_lanesOf.mpr ⟨hl, hin⟩), Option.map_some, Option.getD_some, List.getElem_range]

/-! Typed accesses. -/

theorem typedEntry_ok {s : State} {i : Instr} {w : Seat} (h : SeatFacts s i w) {v : WMem} {e : Option DWord}
    (ht : w.typed v e) :
    typedEntry w.fr v.x v.sz = .ok e := by
  rcases ht with ⟨h63, rfl⟩ | ⟨h63, f, hf, rfl, hw⟩
  · rw [typedEntry, if_pos h63]
  · rw [typedEntry, if_neg h63, plainEntry_eq h, hf, ok_bind]
    have hpos := Nat.two_pow_pos v.sz.toNat
    show (if (decide ((Ent.of f).wid = 8 * szBytes v.sz) && decide (8 ≤ (Ent.of f).wid)) = true then .ok (some f)
      else illegalFormat) = _
    rw [if_pos]
    simp only [hw, szBytes, Bool.and_eq_true, decide_eq_true_eq]
    exact ⟨trivial, by omega⟩

/-- The sizes of a typed access. -/
theorem typed_size {f : DWord} {k : Nat} (hw : (Ent.of f).wid = 8 * 2 ^ k) : k ≤ 3 := by
  have hle : ∀ c < 16, widthOfCode c ≤ 64 := by decide
  have hwid : (Ent.of f).wid ≤ 64 := hle _ (Nat.mod_lt _ (by decide))
  by_contra hk
  have : 2 ^ 4 ≤ 2 ^ k := Nat.pow_le_pow_right (by decide) (by omega)
  omega

theorem hiOf_ofNat (c : Nat) : hiOf (BitVec.ofNat 64 c) = BitVec.ofNat 32 (c / 2 ^ 32) := by
  apply BitVec.eq_of_toNat_eq
  simp only [hiOf, BitVec.extractLsb'_toNat, BitVec.toNat_ofNat, Nat.shiftRight_eq_div_pow]
  omega

theorem loOf_ofNat (c : Nat) : loOf (BitVec.ofNat 64 c) = BitVec.ofNat 32 c := by
  apply BitVec.eq_of_toNat_eq
  simp only [loOf, BitVec.extractLsb'_toNat, BitVec.toNat_ofNat, Nat.shiftRight_eq_div_pow]
  omega

/-- The registers and flags of a load's bytes, raw or converted. -/
theorem words_loaded {a : Access} {w : Seat} {v : WMem} (ht : w.typed v a.entry) (hr : a.regs = szCount v.sz) (bs : List Byte)
    {k : Nat} (hk : k < a.regs) :
    (a.words bs).1.getD k 0 = loadedWord a.ftz a.entry bs k ∧ (a.words bs).2 = loadedFlags a.ftz a.entry bs := by
  rcases ht with ⟨-, he⟩ | ⟨-, f, -, he, hw⟩
  · simp [Access.words, loadedWord, loadedFlags, he, hk]
  · have hsz := typed_size hw
    simp only [Access.words, loadedWord, loadedFlags, he]
    split
    · next hkind =>
      cases k <;> simp
    · next hkind =>
      by_cases h64 : (Ent.of f).wid = 64
      · have h3 : v.sz.toNat = 3 := by
          generalize v.sz.toNat = n at hw hsz
          interval_cases n <;> omega
        have hk2 : k < 2 := by rw [hr, szCount, szBytes, h3] at hk; simpa using hk
        simp only [h64, if_true, loOf_ofNat, hiOf_ofNat, and_true]
        obtain rfl | rfl : k = 0 ∨ k = 1 := by omega
        · simp
        · simp
      · have h2 : v.sz.toNat ≤ 2 := by
          by_contra hgt
          exact h64 (by rw [hw, show v.sz.toNat = 3 by omega]; rfl)
        have hk0 : k = 0 := by
          rw [hr, szCount, if_pos h2] at hk
          omega
        subst hk0
        simp [h64]

/-! Words that leave a result outstanding. -/

section
variable {s : State} {i : Instr} {w : Seat} (h : SeatFacts s i w)
include h

/-- A strip that has freed registers takes what an access read as its last outstanding result. -/
theorem takes_of_freed {fr1 : Frame} {ns : List Nat} (hf : Freed w.fr fr1 ns) {a : Access} {done : List (LaneReq × List Byte)}
    (hrep : a.replayed = false) (hne : (a.parts done).1.isEmpty = false) :
    let t := (w.t.withFrame fr1).takes w.coord a done
    t = { w.onlyRegs t with fpstat := w.t.fpstat ||| (a.parts done).2 } ∧
      w.lands t (Landing.mk (a.parts done).1 0 0 none) ns := by
  obtain ⟨hkeeps, hrest⟩ := keeps_of_freed h (Based.refl w) hf
  obtain ⟨hfp, hgens, -⟩ := seat_based h
  have htakes : (w.t.withFrame fr1).takes w.coord a done = { w.t.withFrame fr1 with
      fpstat := (w.t.withFrame fr1).fpstat ||| (a.parts done).2
      outstanding := (w.t.withFrame fr1).outstanding ++ [Landing.mk (a.parts done).1 0 0 none] } := by
    simp only [Strip.takes, hrep, hne, Bool.false_eq_true, if_false]
  have hfp1 : (w.t.withFrame fr1).fpstat = w.t.fpstat := by rw [hrest, hfp]
  refine ⟨?_, (w.t.withFrame fr1).outstanding, by rw [htakes], ?_⟩
  · rw [htakes, hfp1]
    generalize (w.t.withFrame fr1).outstanding ++ [Landing.mk (a.parts done).1 0 0 none] = o
    rw [hrest, hgens]
    rfl
  · rw [htakes]
    exact ⟨hkeeps.vregs, hkeeps.kregs, hkeeps.pending⟩

/-- A word whose part ends normally and has changed registers and flags alone. -/
theorem passes_registers {out : Out} {d : Done} {u : State} {t t' : Strip} {fp : Word}
    (hout : out = .next (settle w i (w.form i) d)) (hd : d = .next u t) (ht : t = { w.onlyRegs t' with fpstat := fp }) :
    out = .next (w.passed i u t) :=
  passes_of h hout hd (by rw [ht]; rfl) (by rw [ht]; rfl) (by rw [ht]; rfl) (by rw [ht]; rfl)

end

/-- A result is read in the lanes of its mask and the registers of its group alone. -/
theorem Landing.holds_congr {x : Landing} {dst n : Nat} {m : Mask} {uniform : Bool} {val val' : Nat → Nat → Word}
    (hx : x.holds dst n m uniform val) (hval : ∀ l k, k < n → val l k = val' l k) : x.holds dst n m uniform val' := by
  obtain ⟨hlocks, hflags, htile, hlen, hparts⟩ := hx
  refine ⟨hlocks, hflags, htile, hlen, fun k p hp => ?_⟩
  obtain ⟨hreg, hmask, huni, hvals⟩ := hparts k p hp
  have hk : k < n := by
    rw [← hlen]
    exact (List.getElem?_eq_some_iff.mp hp).1
  exact ⟨hreg, hmask, huni, fun l hl hin => (hvals l hl hin).trans (hval l k hk)⟩

theorem scratchAddr_eq (w : Seat) (v : WMem) (l : Nat) : scratchAddr w.fr v l = w.offset v l := by
  rw [scratchAddr, Seat.offset, loOf, BitVec.extractLsb'_toNat, Nat.shiftRight_zero]
  rfl

/-- The access of a scratchpad load. -/
def Seat.scratchLoad (w : Seat) (v : WMem) (e : Option DWord) : Access :=
  { (w.blank .load).ofWord w.fr v.x v.d (szCount v.sz) with entry := e }

theorem szCount_pos (sz : BitVec 3) : szCount sz ≠ 0 := by
  have hall : ∀ sz : BitVec 3, szCount sz ≠ 0 := by decide
  exact hall sz

theorem lds_lands {s : State} {w : Seat} {v : WMem} {e : Option DWord} (hi : s.issuing (.lds v) = some w)
    (hr : w.l.hdr.regs ≠ 0) (ht : w.typed v e) :
    let bytes (l : Nat) : List Byte := scratchRead w.g w.l.hdr.scratch (w.offset v l) (2 ^ v.sz.toNat)
    ∃ t x, exec (.lds v) s = .next (w.passed (.lds v) w.s t) ∧
      t = { w.onlyRegs t with
        fpstat := w.t.fpstat ||| (lanesOf w.fr.active).foldl (fun fl l => fl ||| loadedFlags w.fr.ftz e (bytes l)) 0 } ∧
      w.lands t x (w.lastRead v.la v.a 1) ∧
      x.holds (w.slot v.d) (szCount v.sz) w.fr.active false fun l k => loadedWord w.fr.ftz e (bytes l) k := by
  intro bytes
  have h := seat_facts hi
  obtain ⟨hne, hflags, hholds⟩ := parts_of_lanes (a := w.scratchLoad v e) (m := w.fr.active) nofun rfl
    (szCount_pos v.sz) h.lanes (req := fun l => laneReq l 0 (2 ^ v.sz.toNat) [] []) (fun _ => rfl) bytes
  obtain ⟨hrest, hlands⟩ := takes_of_freed h ((Freed.refl w.fr).freeReg v.la v.a) (a := w.scratchLoad v e) rfl hne
  have hwords (l : Nat) {k : Nat} (hk : k < szCount v.sz) := words_loaded (a := w.scratchLoad v e) ht rfl (bytes l) hk
  refine ⟨_, _, ?_, hrest.trans ?_, hlands, ?_⟩
  · show execLds v s = _
    rw [execLds, runStrip_issuing hi]
    refine passes_registers h rfl ?_ hrest
    rw [ldsBody]
    simp only [lineFor_ok h hr, typedEntry_ok h ht, Seat.part, done_ok, Seat.scratchDone, scratchAddr_eq]
    rfl
  · have hfl : (lanesOf w.fr.active).foldl (fun fl l => fl ||| ((w.scratchLoad v e).words (bytes l)).2) 0 =
        (lanesOf w.fr.active).foldl (fun fl l => fl ||| loadedFlags w.fr.ftz e (bytes l)) 0 :=
      congrArg (fun f : Nat → Word => (lanesOf w.fr.active).foldl (fun fl l => fl ||| f l) 0)
        (funext fun l => (hwords l (Nat.pos_of_ne_zero (szCount_pos v.sz))).2)
    rw [hflags, hfl]
  · exact Landing.holds_congr hholds fun l k hk => (hwords l hk).1

/-! Bytes of the scratchpad. -/

theorem find?_cellSet (m : List Host.Cell) (a x : Nat) (b : Byte) :
    (cellSet m a b).find? (·.1 == x) = if x = a then some (a, b) else m.find? (·.1 == x) := by
  induction m with
  | nil =>
    by_cases hx : x = a
    · simp [cellSet, hx]
    · simp [cellSet, hx, Ne.symm hx]
  | cons c rest ih =>
    obtain ⟨y, v⟩ := c
    by_cases hx : x = a
    · subst hx
      rw [if_pos rfl] at ih ⊢
      unfold cellSet
      split_ifs with hlt heq
      · simp
      · simp
      · rw [List.find?_cons_of_neg (by simpa using Ne.symm heq), ih]
    · have hax : (a == x) = false := by simpa using Ne.symm hx
      rw [if_neg hx] at ih ⊢
      unfold cellSet
      split_ifs with hlt heq
      · rw [List.find?_cons_of_neg (by simp [hax])]
      · subst heq
        rw [List.find?_cons_of_neg (by simp [hax]), List.find?_cons_of_neg (by simp [hax])]
      · rw [List.find?_cons, List.find?_cons, ih]

theorem le_pow2From (n : Nat) : n ≤ pow2From n := by
  unfold pow2From
  split
  · assumption
  · have := Nat.lt_log2_self (n := n - 1)
    omega

/-- Stores of bytes in order; those at or above the allocation are dropped. -/
def scratchPuts (size : Nat) (g : Gang) (xs : List (Nat × Byte)) : Gang :=
  xs.foldl (fun g x => if size ≤ x.1 then g else { g with scratch := cellSet g.scratch x.1 x.2 }) g

theorem scratchPut_eq (size a : Nat) (g : Gang) (bs : List Byte) : scratchPut size a g bs =
    scratchPuts size g (bs.zipIdx.map fun (b, i) => ((a + i) % 2 ^ 32 % pow2From size, b)) := by
  rw [scratchPut, scratchPuts, List.foldl_map]

theorem scratchPuts_rest (size : Nat) (g : Gang) (xs : List (Nat × Byte)) :
    scratchPuts size g xs = { g with scratch := (scratchPuts size g xs).scratch } := by
  induction xs generalizing g with
  | nil => rfl
  | cons x rest ih =>
    rw [scratchPuts, List.foldl_cons, ← scratchPuts]
    split
    · exact ih g
    · rw [ih]

theorem scratchGet_puts {size a : Nat} (ha : a < size) (g : Gang) (xs : List (Nat × Byte)) :
    scratchGet (scratchPuts size g xs) size a = ((xs.reverse.find? (·.1 == a)).map (·.2)).getD (scratchGet g size a) := by
  have hmod : a % pow2From size = a := Nat.mod_eq_of_lt (ha.trans_le (le_pow2From size))
  induction xs using List.reverseRecOn with
  | nil => rfl
  | append_singleton xs x ih =>
    rw [scratchPuts, List.foldl_concat, ← scratchPuts, List.reverse_append, List.reverse_singleton, List.singleton_append]
    split
    · next hx =>
      rw [List.find?_cons_of_neg (by simp; omega), ih]
    · next hx =>
      by_cases hxa : x.1 = a
      · simp [scratchGet, hmod, find?_cellSet, hxa, Nat.not_le.mpr ha]
      · rw [List.find?_cons_of_neg (by simpa using hxa), ← ih]
        simp only [scratchGet, hmod, find?_cellSet, if_neg (Ne.symm hxa)]

/-! Data of stores. -/

theorem toBytes_mod (v : Nat) {n m : Nat} (h : n ≤ m) : toBytes (v % 256 ^ m) n = toBytes v n := by
  induction n generalizing v m with
  | zero => rfl
  | succ n ih =>
    obtain ⟨m, rfl⟩ : ∃ k, m = k + 1 := ⟨m - 1, by omega⟩
    have hlow : BitVec.ofNat 8 (v % 256 ^ (m + 1)) = BitVec.ofNat 8 v := by
      apply BitVec.eq_of_toNat_eq
      rw [BitVec.toNat_ofNat, BitVec.toNat_ofNat]
      exact Nat.mod_mod_of_dvd v (by rw [Nat.pow_succ]; exact Dvd.intro_left _ rfl)
    have hhigh : v % 256 ^ (m + 1) / 256 = v / 256 % 256 ^ m := by
      rw [Nat.pow_succ', Nat.mod_mul_right_div_self]
    rw [toBytes, toBytes, hlow, hhigh, ih _ (by omega)]

theorem groupBytes_eq (w : Seat) (r : BitVec 6) (sz : BitVec 3) (l : Nat) (hsz : sz.toNat ≤ 4) :
    groupBytes w.fr r.toNat (szBytes sz) l = w.bytes r (2 ^ sz.toNat) l := by
  have hword (x : Word) : toBytes x.toNat 4 = (List.range 4).map fun j => x.extractLsb' (8 * j) 8 := by
    rw [toBytes_four]
    refine List.map_congr_left fun j _ => ?_
    apply BitVec.eq_of_toNat_eq
    rw [BitVec.toNat_ofNat, BitVec.extractLsb'_toNat, Nat.shiftRight_eq_div_pow, Nat.pow_mul]
  have hcases : ∀ n ≤ 4, n = 0 ∨ n = 1 ∨ n = 2 ∨ n = 3 ∨ n = 4 := by omega
  rw [groupBytes, Seat.bytes, szBytes]
  simp only [hword]
  rcases hcases _ hsz with h | h | h | h | h <;> rw [h] <;> rfl

/-- A typed store's part of a word: what it reads, with the flags and the generator that it has used. -/
def Seat.storeOp (w : Seat) (v : WMem) (e : DWord) : FloatOp where
  wd := 32
  dst := v.d
  mode := w.mode v.x
  eval l dw := (Ent.of e).round (w.mode v.x) (satOf v.x) dw
    (storeNum w.fr (Ent.of e) (w.src (if (Ent.of e).wid = 64 then 64 else 32) v.d l))
  freed := []

section
variable {s : State} {i : Instr} {w : Seat} (h : SeatFacts s i w)
include h

theorem seat_draws (mode : Nat) : w.fr.draw mode = w.draw mode ∧ w.fr.drawn mode = w.drawn mode := by
  obtain ⟨-, hgens, -⟩ := seat_based h
  refine ⟨funext fun l => ?_, ?_⟩
  · unfold Frame.draw Seat.draw
    rw [hgens]
  · unfold Frame.drawn Seat.drawn
    rw [hgens]

/-- The data of a typed store that meets no twin, and the frame after its rounding. -/
theorem storeTyped_ok (v : WMem) {e : DWord} (hw : (Ent.of e).wid = 8 * 2 ^ v.sz.toNat) :
    ∃ data, storeTyped w.fr v (Ent.of e) (fun _ => false) = .ok (data, w.roundedFrame (w.storeOp v e)) ∧
      ∀ l, data l = w.storeData v (some e) l := by
  obtain ⟨x, hok, hx⟩ := rounded_spec (fr := w.fr) (w.mode v.x) false (w.storeOp v e).eval (seat_span h) h.lanes nofun
  refine ⟨fun l => toBytes (x.at_ w.fr l).toNat ((Ent.of e).wid / 8), ?_, fun l => ?_⟩
  · unfold storeTyped
    simp only [Bool.false_eq_true, if_false]
    rw [show (fun (l : Nat) (dw : Word) => (Ent.of e).round (w.fr.rounding (rndOf v.x)) (satOf v.x) dw
      (storeNum w.fr (Ent.of e) ((w.fr.src (if (Ent.of e).wid = 64 then 64 else 32) v.d.toNat).at_ w.fr l))) =
      (w.storeOp v e).eval from rfl, show w.fr.rounding (rndOf v.x) = w.mode v.x from rfl, hok]
    rfl
  · have hsz := typed_size hw
    have hn : (Ent.of e).wid / 8 = 2 ^ v.sz.toNat := by rw [hw, Nat.mul_div_cancel_left _ (by decide)]
    have hle : 2 ^ v.sz.toNat ≤ 8 := Nat.pow_le_pow_right (by decide) hsz
    simp only [hx, hn, BitVec.toNat_ofNat]
    rw [show (2 : Nat) ^ 64 = 256 ^ 8 by decide, toBytes_mod _ hle, (seat_draws h _).1]
    rfl

end

/-! STS. -/

/-- The bytes that a scratchpad store puts, in order. -/
def Seat.scratchStored (w : Seat) (v : WMem) (data : Nat → List Byte) : List (Nat × Byte) :=
  (lanesOf w.fr.active).flatMap fun l =>
    (data l).zipIdx.map fun (b, j) => ((w.offset v l + j) % 2 ^ 32 % pow2From w.l.hdr.scratch, b)

theorem scratchStored_puts (w : Seat) (v : WMem) (data : Nat → List Byte) (g : Gang) :
    (lanesOf w.fr.active).foldl (fun g l => scratchPut w.l.hdr.scratch (scratchAddr w.fr v l) g (data l)) g =
      scratchPuts w.l.hdr.scratch g (w.scratchStored v data) := by
  simp only [scratchAddr_eq, scratchPut_eq, scratchPuts, Seat.scratchStored]
  rw [List.foldl_flatMap]

/-- What the own part of STS gives: the data that the lanes store, and the frame after a rounding. -/
theorem stsBody_ok {s : State} {w : Seat} {v : WMem} {e : Option DWord} (hi : s.issuing (.sts v) = some w) (ht : w.typed v e) :
    ∃ fr0, Based w fr0 ∧ fr0.fpstat = (w.afterStore v e w.t).fpstat ∧ fr0.gens = (w.afterStore v e w.t).gens ∧
      stsBody v w = .next
        (noteWrote w.g.ctx ((lanesOf w.fr.active).flatMap (w.storeData v e))
          (w.s.mapGang w.g.id fun g => scratchPuts w.l.hdr.scratch g (w.scratchStored v (w.storeData v e))))
        (w.t.withFrame (fr0.free v.la 32 v.a.toNat)) := by
  have h := seat_facts hi
  obtain ⟨hfp, hgens, -⟩ := seat_based h
  have htyped := typedEntry_ok h ht
  rcases ht with ⟨-, rfl⟩ | ⟨-, f, -, rfl, hw⟩
  · have hsz : v.sz.toNat ≤ 4 := by
      have := h.legal
      simp [Seat.form, formOf, formStore, Form.legal] at this
      omega
    have hraw : (fun l => groupBytes w.fr v.d.toNat (szBytes v.sz) l) = w.storeData v none :=
      funext fun l => groupBytes_eq w v.d v.sz l hsz
    refine ⟨w.fr, Based.refl w, hfp, hgens, ?_⟩
    rw [stsBody]
    simp only [htyped, Seat.part, done_ok, hraw, scratchStored_puts]
    rfl
  · obtain ⟨data, hok, hdata⟩ := storeTyped_ok h v hw
    obtain rfl : data = w.storeData v (some f) := funext hdata
    obtain ⟨hdraw, hdrawn⟩ := seat_draws h (w.mode v.x)
    refine ⟨w.roundedFrame (w.storeOp v f), ⟨rfl⟩, ?_, hdrawn, ?_⟩
    · show w.fr.fpstat ||| w.fr.flags _ = _
      rw [hfp]
      show _ ||| w.fr.flags (fun l => ((w.storeOp v f).eval l (w.fr.draw (w.mode v.x) l)).2) = _
      rw [hdraw]
      rfl
    · rw [stsBody]
      simp only [htyped, hok, Seat.part, done_ok, scratchStored_puts]
      rfl

/-- A word that frees registers after a rounding. -/
theorem freed_based {w : Seat} {fr0 : Frame} (hb : Based w fr0) (bit : Bool) (r : BitVec 6) :
    Freed fr0 (fr0.free bit 32 r.toNat) (w.lastRead bit r 1) := by
  have hfree := (Freed.refl fr0).free bit 32 r.toNat r.isLt (by simp)
  have hread : fr0.lastRead bit 32 r.toNat = w.fr.lastRead bit 32 r.toNat := by rw [hb.rest]; rfl
  rwa [hread, lastRead_eq] at hfree

theorem sts_passes {s : State} {w : Seat} {v : WMem} {e : Option DWord} (hi : s.issuing (.sts v) = some w) (ht : w.typed v e) :
    let size := w.l.hdr.scratch
    let stored := (lanesOf w.fr.active).flatMap fun l =>
      (w.storeData v e l).zipIdx.map fun (b, j) => ((w.offset v l + j) % 2 ^ 32 % pow2From size, b)
    ∃ F W t, exec (.sts v) s = .next (w.passed (.sts v) { w.s.mapGang w.g.id F with wrote := W } (w.afterStore v e t)) ∧
      t = w.onlyRegs t ∧
      Keeps w t [] (w.lastRead v.la v.a 1) ∧ F w.g = { w.g with scratch := (F w.g).scratch } ∧
      ∀ a < size, scratchGet (F w.g) size a =
        ((stored.reverse.find? (·.1 == a)).map (·.2)).getD (scratchGet w.g size a) := by
  intro size stored
  have h := seat_facts hi
  obtain ⟨fr0, hb, hfp, hgens, hbody⟩ := stsBody_ok hi ht
  obtain ⟨hkeeps, hrest⟩ := keeps_of_freed h hb (freed_based hb v.la v.a)
  generalize fr0.free v.la 32 v.a.toNat = fr1 at hbody hkeeps hrest
  let t : Strip := { w.t.withFrame fr1 with fpstat := w.t.fpstat, gens := w.t.gens }
  have hafter : w.afterStore v e t = w.t.withFrame fr1 := by
    have hfp1 : (w.t.withFrame fr1).fpstat = (w.afterStore v e w.t).fpstat := by rw [hrest, hfp]
    have hgens1 : (w.t.withFrame fr1).gens = (w.afterStore v e w.t).gens := by rw [hrest, hgens]
    have heta : { w.t.withFrame fr1 with fpstat := (w.afterStore v e w.t).fpstat, gens := (w.afterStore v e w.t).gens } =
        w.t.withFrame fr1 := by rw [← hfp1, ← hgens1]
    cases e <;> exact heta
  let F (g : Gang) : Gang := scratchPuts size g (w.scratchStored v (w.storeData v e))
  refine ⟨F, (noteWrote w.g.ctx ((lanesOf w.fr.active).flatMap (w.storeData v e)) (w.s.mapGang w.g.id F)).wrote, t, ?_, ?_,
    ⟨hkeeps.vregs, hkeeps.kregs, hkeeps.pending⟩, scratchPuts_rest _ _ _, fun a ha => scratchGet_puts ha _ _⟩
  · show execSts v s = _
    rw [execSts, runStrip_issuing hi, hafter, hbody, settle_withFrame h]
    exact congrArg (fun u => Host.Outcome.next (w.passed _ u _)) (noteWrote_same _ _ _)
  · show t = w.onlyRegs t
    simp only [t]
    rw [hrest]
    rfl

/-! Atomic steps on the scratchpad. -/

theorem scratchGet_mod (g : Gang) (size a : Nat) :
    scratchGet g size a = if size ≤ a % pow2From size then 0 else scratchGet g size (a % pow2From size) := by
  unfold scratchGet
  simp only [Nat.mod_mod]
  split <;> rfl

/-- Places with the bytes stored there, from a list of bytes. -/
theorem range_map_zip {α β : Type} (f : Nat → α) (bs : List β) :
    ((List.range bs.length).map f).zip bs = bs.zipIdx.map fun (b, j) => (f j, b) := by
  apply List.ext_getElem <;> simp

/-- What a list of lanes has read, found by the lane. -/
theorem zip_eq_map {β : Type} (b0 : β) {ls : List Nat} {xs : List β} (hn : ls.Nodup) (hlen : xs.length = ls.length) :
    ls.zip xs = ls.map fun l => (l, (((ls.zip xs).find? (·.1 == l)).map (·.2)).getD b0) := by
  induction ls generalizing xs with
  | nil => rfl
  | cons l ls ih =>
    obtain ⟨x, xs, rfl⟩ := List.exists_cons_of_length_eq_add_one hlen
    obtain ⟨hl, hn⟩ := List.nodup_cons.mp hn
    rw [List.zip_cons_cons, List.map_cons]
    congr 1
    · simp
    · refine (ih hn (by simpa using hlen)).trans (List.map_congr_left fun k hk => ?_)
      have hne : l ≠ k := fun h => hl (h ▸ hk)
      rw [List.find?_cons_of_neg (by simpa using hne)]

/-- The places of the scratchpad that a lane's access has (R164). -/
def Seat.scratchPlaces (w : Seat) (v : WMem) (l : Nat) : List Nat :=
  (List.range (2 ^ v.sz.toNat)).map fun j => (w.offset v l + j) % 2 ^ 32 % pow2From w.l.hdr.scratch

/-- What a lane of ATOMS reads where the scratchpad holds m, and what it stores. -/
def Seat.scratchOld (w : Seat) (v : WMem) (m : Nat → Byte) (l : Nat) : List Byte :=
  (w.scratchPlaces v l).map fun a => if w.l.hdr.scratch ≤ a then 0 else m a
def Seat.scratchNew (w : Seat) (v : WMem) (m : Nat → Byte) (l : Nat) : List Byte :=
  toBytes (atomicOp (rndOf v.x) (2 ^ v.sz.toNat) (ofBytes (w.scratchOld v m l))
    (ofBytes (w.bytes (vcOf v.x) (2 ^ v.sz.toNat) l))) (2 ^ v.sz.toNat)

/-- The scratchpad after a lane of ATOMS. -/
def Seat.scratchNext (w : Seat) (v : WMem) (m : Nat → Byte) (l : Nat) (a : Nat) : Byte :=
  if w.l.hdr.scratch ≤ a then m a else
    ((((w.scratchPlaces v l).zip (w.scratchNew v m l)).reverse.find? (·.1 == a)).map (·.2)).getD (m a)

theorem scratchFold_cons (w : Seat) (v : WMem) (l : Nat) (ls : List Nat) (m : Nat → Byte) :
    w.scratchFold v (l :: ls) m =
      (w.scratchOld v m l :: (w.scratchFold v ls (w.scratchNext v m l)).1, (w.scratchFold v ls (w.scratchNext v m l)).2) := rfl

section
variable {w : Seat} {v : WMem} {g : Gang} {m : Nat → Byte}
  (hm : ∀ a < w.l.hdr.scratch, scratchGet g w.l.hdr.scratch a = m a)
include hm

theorem scratchRead_old (l : Nat) :
    scratchRead g w.l.hdr.scratch (scratchAddr w.fr v l) (szBytes v.sz) = w.scratchOld v m l := by
  rw [scratchRead, Seat.scratchOld, Seat.scratchPlaces, List.map_map, scratchAddr_eq]
  refine List.map_congr_left fun j _ => ?_
  show scratchGet g _ _ = if w.l.hdr.scratch ≤ (w.offset v l + j) % 2 ^ 32 % pow2From w.l.hdr.scratch then 0 else m _
  rw [scratchGet_mod]
  split
  · rfl
  · next hlt => exact hm _ (Nat.not_le.mp hlt)

theorem scratchPut_next (l : Nat) : ∀ a < w.l.hdr.scratch,
    scratchGet (scratchPut w.l.hdr.scratch (scratchAddr w.fr v l) g (w.scratchNew v m l)) w.l.hdr.scratch a =
      w.scratchNext v m l a := by
  intro a ha
  have hzip := range_map_zip (fun j => (w.offset v l + j) % 2 ^ 32 % pow2From w.l.hdr.scratch) (w.scratchNew v m l)
  rw [show (w.scratchNew v m l).length = 2 ^ v.sz.toNat from toBytes_length _ _] at hzip
  rw [Seat.scratchNext, if_neg (Nat.not_le.mpr ha), scratchAddr_eq, scratchPut_eq, scratchGet_puts ha, hm a ha, ← hzip]
  rfl

theorem atomsGo_cons (hsz : v.sz.toNat ≤ 4) (l : Nat) (ls : List Nat) :
    let went := atomsGo v w.fr w.l.hdr.scratch ls
      (scratchPut w.l.hdr.scratch (scratchAddr w.fr v l) g (w.scratchNew v m l))
    atomsGo v w.fr w.l.hdr.scratch (l :: ls) g =
      ((laneReq l 0 (szBytes v.sz) [] [], w.scratchOld v m l) :: went.1, went.2.1, w.scratchNew v m l ++ went.2.2) := by
  intro went
  rw [atomsGo, scratchRead_old hm, groupBytes_eq w (vcOf v.x) v.sz l hsz]
  rfl

end

/-- The lanes of ATOMS in order: what each has read, and the scratchpad afterwards. -/
theorem atomsGo_fold {w : Seat} {v : WMem} (hsz : v.sz.toNat ≤ 4) (ls : List Nat) {g : Gang} {m : Nat → Byte}
    (hm : ∀ a < w.l.hdr.scratch, scratchGet g w.l.hdr.scratch a = m a) :
    let went := atomsGo v w.fr w.l.hdr.scratch ls g
    let fold := w.scratchFold v ls m
    fold.1.length = ls.length ∧ went.1 = (ls.zip fold.1).map (fun x => (laneReq x.1 0 (szBytes v.sz) [] [], x.2)) ∧
      went.2.1 = { g with scratch := went.2.1.scratch } ∧
      ∀ a < w.l.hdr.scratch, scratchGet went.2.1 w.l.hdr.scratch a = fold.2 a := by
  induction ls generalizing g m with
  | nil => exact ⟨rfl, rfl, rfl, hm⟩
  | cons l ls ih =>
    obtain ⟨hlen, hdone, hrest, hget⟩ := ih (scratchPut_next (v := v) hm l)
    rw [scratchFold_cons, atomsGo_cons hm hsz]
    refine ⟨by simpa using hlen, by simpa using hdone, hrest.trans ?_, hget⟩
    rw [scratchPut_eq, scratchPuts_rest]

/-- What ATOMS has read in a lane. -/
def Seat.atomsRead (w : Seat) (v : WMem) (l : Nat) : List Byte :=
  (((((lanesOf w.fr.active).zip (w.scratchFold v (lanesOf w.fr.active) (scratchGet w.g w.l.hdr.scratch)).1).find?
    (·.1 == l)).map (·.2)).getD [])

theorem atoms_size {s : State} {w : Seat} {v : WMem} (hi : s.issuing (.atoms v) = some w) :
    v.sz.toNat = 2 ∨ v.sz.toNat = 3 := by
  have hok := (legal_parts (seat_facts hi).legal).1
  simp only [Seat.form, formOf, formAtomic, Bool.or_eq_true, beq_iff_eq] at hok
  exact hok.imp (fun h => by rw [h]; rfl) (fun h => by rw [h]; rfl)

/-- What the own part of ATOMS gives. -/
theorem atomsBody_ok {s : State} {w : Seat} {v : WMem} (hi : s.issuing (.atoms v) = some w) (hr : w.l.hdr.regs ≠ 0)
    (ha : ∀ l < 32, laneIn w.fr.active l = true → w.offset v l % 2 ^ v.sz.toNat = 0) :
    ∃ g wrote, g = { w.g with scratch := g.scratch } ∧
      (∀ a < w.l.hdr.scratch, scratchGet g w.l.hdr.scratch a =
        (w.scratchFold v (lanesOf w.fr.active) (scratchGet w.g w.l.hdr.scratch)).2 a) ∧
      atomsBody v w = w.scratchDone (noteWrote w.g.ctx wrote (w.s.mapGang w.g.id fun _ => g)) (atomicFreed v 1 w.fr)
        ((w.blank .atomic).ofWord w.fr v.x v.d (szCount v.sz))
        ((lanesOf w.fr.active).map fun l => (laneReq l 0 (szBytes v.sz) [] [], w.atomsRead v l)) := by
  have h := seat_facts hi
  have hsz := atoms_size hi
  obtain ⟨hlen, hdone, hrest, hget⟩ := atomsGo_fold (v := v) (by omega) (lanesOf w.fr.active)
    (fun a (_ : a < w.l.hdr.scratch) => (rfl : scratchGet w.g w.l.hdr.scratch a = _))
  refine ⟨_, (atomsGo v w.fr w.l.hdr.scratch (lanesOf w.fr.active) w.g).2.2, hrest, hget, ?_⟩
  have hnodup : (lanesOf w.fr.active).Nodup := List.nodup_range.filter _
  rw [zip_eq_map [] hnodup hlen, List.map_map] at hdone
  have haligned : (((lanesOf w.fr.active).map fun l => (l, BitVec.ofNat 64 (scratchAddr w.fr v l))).filter
      fun x => x.2.toNat % szBytes v.sz != 0) = [] := by
    rw [List.filter_eq_nil_iff]
    intro x hx
    obtain ⟨l, hl, rfl⟩ := List.mem_map.mp hx
    obtain ⟨hlt, hin⟩ := mem_lanesOf.mp hl
    have hword : w.offset v l < 2 ^ 32 := by rw [← scratchAddr_eq]; exact BitVec.isLt _
    have hwide : (BitVec.ofNat 64 (w.offset v l)).toNat = w.offset v l := by
      rw [BitVec.toNat_ofNat]
      exact Nat.mod_eq_of_lt (by omega)
    simp only [scratchAddr_eq, hwide]
    simpa [szBytes] using ha l hlt hin
  rw [atomsBody]
  simp only [lineFor_ok h hr, Seat.part, done_ok, haligned, List.isEmpty_nil, Bool.not_true, refuseIf, Bool.false_eq_true,
    if_false, hdone]
  rfl

/-- The registers that ATOMS frees. -/
theorem atomicFreed_one {s : State} {w : Seat} {v : WMem} (hi : s.issuing (.atoms v) = some w) :
    Freed w.fr (atomicFreed v 1 w.fr) (w.lastRead v.la v.a 1 ++ w.lastRead (lcOf v.x) (vcOf v.x) (szCount v.sz)) := by
  have h := seat_facts hi
  have haddr : Freed w.fr (w.fr.free v.la 32 v.a.toNat) (w.lastRead v.la v.a 1) := (Freed.refl w.fr).freeReg v.la v.a
  have hne : v.sz ≠ 4 := fun h4 => by rcases atoms_size hi with hsz | hsz <;> rw [h4] at hsz <;> cases hsz
  rw [atomicFreed, if_neg hne]
  rcases atoms_size hi with hsz | hsz
  · have hcount : szCount v.sz = 1 := by simp [szCount, hsz]
    rw [szBytes, hsz, hcount]
    exact haddr.freeReg (lcOf v.x) (vcOf v.x)
  · have hcount : szCount v.sz = 2 := by simp [szCount, szBytes, hsz]
    rw [szBytes, hsz, hcount]
    exact haddr.freeSrc h (wd := 64) (lcOf v.x) (by simp [Seat.form, formOf, formAtomic, szRegs, hsz, regsOf])

theorem atoms_lands {s : State} {w : Seat} {v : WMem} (hi : s.issuing (.atoms v) = some w) (hr : w.l.hdr.regs ≠ 0)
    (ha : ∀ l < 32, laneIn w.fr.active l = true → w.offset v l % 2 ^ v.sz.toNat = 0) :
    ∃ F W t x, exec (.atoms v) s = .next (w.passed (.atoms v) { w.s.mapGang w.g.id F with wrote := W } t) ∧
      t = w.onlyRegs t ∧
      F w.g = { w.g with scratch := (F w.g).scratch } ∧
      w.lands t x (w.lastRead v.la v.a 1 ++ w.lastRead (lcOf v.x) (vcOf v.x) (szCount v.sz)) ∧
      (∀ a < w.l.hdr.scratch, scratchGet (F w.g) w.l.hdr.scratch a =
        (w.scratchFold v (lanesOf w.fr.active) (scratchGet w.g w.l.hdr.scratch)).2 a) ∧
      x.holds (w.slot v.d) (szCount v.sz) w.fr.active false fun l k => wordOf (((w.atomsRead v l).drop (4 * k)).take 4) := by
  have h := seat_facts hi
  obtain ⟨g, wrote, hrest, hget, hbody⟩ := atomsBody_ok hi hr ha
  let acc := (w.blank .atomic).ofWord w.fr v.x v.d (szCount v.sz)
  obtain ⟨hne, hflags, hholds⟩ := parts_of_lanes (a := acc) (m := w.fr.active) nofun rfl (szCount_pos v.sz) h.lanes
    (req := fun l => laneReq l 0 (szBytes v.sz) [] []) (fun _ => rfl) (w.atomsRead v)
  obtain ⟨hregs, hlands⟩ := takes_of_freed h (atomicFreed_one hi) (a := acc) rfl hne
  have hwords (bs : List Byte) : acc.words bs = ((List.range acc.regs).map fun i => wordOf ((bs.drop (4 * i)).take 4), 0) := rfl
  have hflags0 : (acc.parts ((lanesOf w.fr.active).map fun l =>
      (laneReq l 0 (szBytes v.sz) [] [], w.atomsRead v l))).2 = 0 := by
    rw [hflags]
    simp [hwords]
  refine ⟨fun _ => g, (noteWrote w.g.ctx wrote (w.s.mapGang w.g.id fun _ => g)).wrote, _, _, ?_, hregs.trans ?_, hrest,
    hlands, hget, Landing.holds_congr hholds fun l k hk => ?_⟩
  · show execAtoms v s = _
    rw [execAtoms, runStrip_issuing hi, hbody]
    exact (passes_registers h rfl rfl hregs).trans
      (congrArg (fun u => Host.Outcome.next (w.passed _ u _)) (noteWrote_same _ _ _))
  · rw [hflags0]
    simp [Seat.onlyRegs]
  · simp [hwords, show k < acc.regs from hk]

/-- Settles O28: the scratchpad takes stores byte by byte, and each lane of ATOMS finds what the lanes before it left. -/
theorem scratchpad : Obligations.Scratchpad := by
  unfold Obligations.Scratchpad
  refine ⟨fun s w v e hi hr ht => lds_lands hi hr ht, fun s w v e hi ht => sts_passes hi ht, fun s w v hi hr => ?_⟩
  intro n ha
  obtain ⟨F, W, t, x, hout, ht, hF, hlands, hget, hholds⟩ := atoms_lands hi hr ha
  exact ⟨F, W, t, x, hout, ht, hF, hlands, hget, hholds⟩

end Sys2Proof.Machine
end

section
/-! Codes of FP32, what they stand for, and what rounding makes of a value between two of them (R100, R110, R112). -/

namespace Sys2Proof.Machine

theorem entFp32_eq : entFp32 = Ent.mk 1 true 8 23 127 0 0 0 32 := by decide

theorem maxMag_fp32 : entFp32.maxMag = 255 * 8388608 - 1 := by rw [entFp32_eq]; rfl

/-- The exponent 127 − 1 below the exponent field 1 is that of the smallest normal magnitude. -/
theorem emin_fp32 : entFp32.emin = -126 := by rw [entFp32_eq]; rfl

/-! The code sequence: n units of 2^(k − 149) have the code n + k · 2^23. -/

/-- Whether n units of 2^(k − 149) are what a code stands for, or the sum of one and its unit. -/
def FpUnits (n k : Nat) : Prop := n ≤ 16777216 ∧ (k = 0 ∨ 8388608 ≤ n)

theorem mag_fp32 (c : Nat) :
    entFp32.mag c = if c < 8388608 then (c, -149) else (8388608 + c % 8388608, ((c / 8388608 : Nat) : ℤ) - 150) := by
  rw [entFp32_eq, Ent.mag]
  simp only [Ent.pure, show (2 : Nat) ^ 23 = 8388608 from rfl]
  by_cases h : c < 8388608
  · simp [h, Nat.div_eq_of_lt h, Nat.mod_eq_of_lt h]
  · have : c / 8388608 ≠ 0 := by omega
    simp [h, this]
    omega

theorem magnitude_units {n k : Nat} (h : FpUnits n k) : magnitude (n + k * 8388608) = (n : ℚ) * 2 ^ ((k : ℤ) - 149) := by
  obtain ⟨hn, hk⟩ := h
  rw [magnitude, mag_fp32]
  rcases Nat.lt_or_ge (n + k * 8388608) 8388608 with hlt | hge
  · obtain rfl : k = 0 := by omega
    rw [if_pos hlt]
    simp
  · rw [if_neg (by omega)]
    rcases hn.lt_or_eq with hn | rfl
    · have hdiv : (n + k * 8388608) / 8388608 = k + 1 := by omega
      have hmod : 8388608 + (n + k * 8388608) % 8388608 = n := by omega
      rw [hdiv, hmod]
      congr 2
      push_cast
      ring
    · have hdiv : (16777216 + k * 8388608) / 8388608 = k + 2 := by omega
      have hmod : 8388608 + (16777216 + k * 8388608) % 8388608 = 8388608 := by omega
      rw [hdiv, hmod, show (((k + 2 : Nat) : ℤ) - 150) = (k - 149) + 1 by push_cast; ring, zpow_add_one₀ (by norm_num)]
      push_cast
      ring

theorem units_of_code (c : Nat) : ∃ n k, c = n + k * 8388608 ∧ n < 16777216 ∧ (k = 0 ∨ 8388608 ≤ n) := by
  by_cases h : c < 16777216
  · exact ⟨c, 0, by omega, h, .inl rfl⟩
  · exact ⟨8388608 + c % 8388608, c / 8388608 - 1, by omega, by omega, .inr (by omega)⟩

theorem magnitude_strictMono : StrictMono magnitude := by
  refine strictMono_nat_of_lt_succ fun c => ?_
  obtain ⟨n, k, rfl, hn, hk⟩ := units_of_code c
  rw [show n + k * 8388608 + 1 = (n + 1) + k * 8388608 by omega, magnitude_units ⟨by omega, hk⟩,
    magnitude_units ⟨by omega, by omega⟩]
  gcongr
  simp

theorem log2_units {n : Nat} (h : 8388608 ≤ n) (hn : n < 16777216) : n.log2 = 23 :=
  (Nat.log2_eq_iff (by omega)).mpr ⟨h, hn⟩

theorem codeOf_units {n k : Nat} (h : FpUnits n k) : entFp32.codeOf n ((k : ℤ) - 149) = (n + k * 8388608 : Nat) := by
  obtain ⟨hn, hk⟩ := h
  rw [Ent.codeOf, emin_fp32, entFp32_eq]
  simp only [Ent.pure, exponentOf, show (2 : Nat) ^ 23 = 8388608 from rfl, show (2 : ℤ) ^ 23 = 8388608 from rfl]
  by_cases h0 : n = 0
  · obtain rfl : k = 0 := by omega
    simp [h0]
  rw [if_neg h0, if_neg (by decide), if_neg (by decide)]
  rcases Nat.lt_or_ge n 8388608 with hlt | hge
  · obtain rfl : k = 0 := by omega
    have hlog : n.log2 < 23 := (Nat.log2_lt h0).mpr hlt
    rw [if_pos (by omega)]
    simp
  · rcases hn.lt_or_eq with hn | rfl
    · rw [log2_units hge hn, if_neg (by omega)]
      simp only [show (2 : Nat) ^ 23 = 8388608 from rfl]
      omega
    · rw [show Nat.log2 16777216 = 24 by decide, if_neg (by omega)]
      omega

/-! A magnitude, cut at the unit in the last place. -/

/-- The unit of FP32 at a value, by its place in the code sequence (R110). -/
def fpPlace (m : Nat) (e : ℤ) : Nat := ((if exponentOf m e < -126 then -126 else exponentOf m e) + 126).toNat

/-- What rounding has at the value m · 2^e: the smaller neighbour in units, the rest and what the rest is a part of. -/
def fpCut (m : Nat) (e : ℤ) : Nat × Nat × Nat := cutAt m e ((fpPlace m e : ℤ) - 149)

theorem cut_units {m : Nat} (e : ℤ) (hm : m ≠ 0) :
    (fpCut m e).1 < 16777216 ∧ (fpPlace m e = 0 ∨ 8388608 ≤ (fpCut m e).1) := by
  have hlo : 2 ^ m.log2 ≤ m := Nat.log2_self_le hm
  have hhi : m < 2 ^ (m.log2 + 1) := Nat.lt_log2_self
  rw [fpCut, cutAt]
  generalize hk : fpPlace m e = k
  have hplace : (m.log2 : ℤ) + e ≤ k - 126 ∧ (k = 0 ∨ (m.log2 : ℤ) + e = k - 126) := by
    rw [fpPlace, exponentOf] at hk
    split at hk <;> omega
  generalize m.log2 = L at *
  split
  · next hge =>
    obtain ⟨d, hd⟩ : ∃ d : Nat, e - (k - 149) = d := ⟨(e - (k - 149)).toNat, by omega⟩
    rw [hd, Int.toNat_natCast]
    constructor
    · calc m * 2 ^ d < 2 ^ (L + 1) * 2 ^ d := by gcongr
        _ = 2 ^ (L + 1 + d) := (Nat.pow_add ..).symm
        _ ≤ 2 ^ 24 := Nat.pow_le_pow_right (by decide) (by omega)
    · refine hplace.2.imp_right fun heq => ?_
      calc 2 ^ 23 = 2 ^ (L + d) := by congr 1; omega
        _ = 2 ^ L * 2 ^ d := Nat.pow_add ..
        _ ≤ m * 2 ^ d := by gcongr
  · next hlt =>
    obtain ⟨d, hd⟩ : ∃ d : Nat, (k - 149 : ℤ) - e = d := ⟨((k - 149 : ℤ) - e).toNat, by omega⟩
    rw [hd, Int.toNat_natCast]
    constructor
    · refine (Nat.div_lt_iff_lt_mul (Nat.two_pow_pos d)).mpr (hhi.trans_le ?_)
      calc 2 ^ (L + 1) ≤ 2 ^ (24 + d) := Nat.pow_le_pow_right (by decide) (by omega)
        _ = 16777216 * 2 ^ d := Nat.pow_add 2 24 d
    · refine hplace.2.imp_right fun heq => (Nat.le_div_iff_mul_le (Nat.two_pow_pos d)).mpr (le_trans ?_ hlo)
      calc 8388608 * 2 ^ d = 2 ^ (23 + d) := (Nat.pow_add 2 23 d).symm
        _ ≤ 2 ^ L := Nat.pow_le_pow_right (by decide) (by omega)

/-- The code of a rounded magnitude: the smaller neighbour's or the one above it, or what has overflowed (R110, R112). -/
theorem roundMag_fp32 {m : Nat} (e : ℤ) (hm : m ≠ 0) (mode : Nat) (neg : Bool) (w : Word) :
    let c := fpCut m e
    let n := if roundUp mode neg (c.1 % 2 == 1) c.2.1 c.2.2 w then c.1 + 1 else c.1
    let code := n + fpPlace m e * 8388608
    entFp32.roundMag mode false neg w m e =
      if entFp32.maxMag < code then
        ((entFp32.overflow mode false true neg).1, (entFp32.overflow mode false true neg).2 ||| flagOF ||| flagNX)
      else (entFp32.withSign neg code,
        flagIf (c.2.1 != 0) flagNX ||| flagIf (c.2.1 != 0 && entFp32.tiny mode neg m e w) flagUF) := by
  intro c n code
  obtain ⟨hlt, hk⟩ := cut_units e hm
  have hunits : FpUnits n (fpPlace m e) := by
    have hn : n = c.1 ∨ n = c.1 + 1 := by
      simp only [n]
      split <;> simp
    have hc : c.1 = (fpCut m e).1 := rfl
    refine ⟨by omega, by omega⟩
  have hq : (if exponentOf m e < (-126 : ℤ) then (-126 : ℤ) else exponentOf m e) - ((23 : Nat) : ℤ) =
      (fpPlace m e : ℤ) - 149 := by
    rw [fpPlace]
    split <;> omega
  have hcode := codeOf_units hunits
  have hodd (k : Nat) (q : ℤ) : entFp32.oddAt k q = (k % 2 == 1) := by rw [entFp32_eq]; simp [Ent.oddAt]
  have hpure : entFp32.pure = false := by rw [entFp32_eq]; rfl
  have hkind : entFp32.kind ≠ 4 := by rw [entFp32_eq]; decide
  have hfw : entFp32.fw = 23 := by rw [entFp32_eq]
  rw [Ent.roundMag]
  simp only [hpure, Bool.false_and, Bool.false_eq_true, if_false, if_neg hkind, emin_fp32, hfw, hq, hodd]
  show (if decide (entFp32.codeOf n _ > (entFp32.maxMag : ℤ)) = true then _ else _ : Nat × Word) = _
  rw [hcode]
  simp only [decide_eq_true_eq, gt_iff_lt, Nat.cast_lt]
  split
  · rfl
  · show (entFp32.withSign neg (entFp32.codeOf n _).toNat, _) = _
    rw [hcode, Int.toNat_natCast]
    rfl

theorem roundUp_exact (mode : Nat) (neg odd : Bool) (w : Word) : roundUp mode neg odd 0 1 w = false := by
  unfold roundUp
  split <;> simp

/-- A magnitude that a code stands for. -/
theorem roundMag_exact {m n : Nat} (e : ℤ) (hm : m ≠ 0) (mode : Nat) (neg : Bool) (w : Word) (hcut : fpCut m e = (n, 0, 1))
    (hmax : n + fpPlace m e * 8388608 ≤ entFp32.maxMag) :
    entFp32.roundMag mode false neg w m e = (entFp32.withSign neg (n + fpPlace m e * 8388608), 0) := by
  rw [roundMag_fp32 e hm]
  simp only [hcut, roundUp_exact, Bool.false_eq_true, if_false, if_neg (Nat.not_lt.mpr hmax)]
  simp [flagIf]

/-! A value between two whole multiples of a unit, of which the rounding sees the middle. -/

theorem sticky_div {q s : Nat} (t : Nat) (hs : s ≤ 1) :
    let n := (2 * q + s) / 2 ^ (t + 2)
    let rem := (2 * q + s) % 2 ^ (t + 2)
    n * 2 ^ (t + 1) ≤ q ∧ q + 1 ≤ (n + 1) * 2 ^ (t + 1) ∧ (2 ^ (t + 2) ≤ 2 * rem → (2 * n + 1) * 2 ^ t ≤ q) ∧
      (2 * rem ≤ 2 ^ (t + 2) → q + 1 ≤ (2 * n + 1) * 2 ^ t ∨ (s = 0 ∧ q ≤ (2 * n + 1) * 2 ^ t)) := by
  intro n rem
  have hdiv : 2 ^ (t + 2) * n + rem = 2 * q + s := Nat.div_add_mod _ _
  have hrem : rem < 2 ^ (t + 2) := Nat.mod_lt _ (Nat.two_pow_pos _)
  have hpow : 2 ^ (t + 1) = 2 * 2 ^ t ∧ 2 ^ (t + 2) = 4 * 2 ^ t := by constructor <;> ring
  generalize n = n at *
  rw [hpow.2] at hdiv hrem ⊢
  rw [hpow.1]
  generalize 2 ^ t = p at *
  have h1 : n * (2 * p) = 2 * (n * p) := by ring
  have h2 : (n + 1) * (2 * p) = 2 * (n * p) + 2 * p := by ring
  have h3 : (2 * n + 1) * p = 2 * (n * p) + p := by ring
  have h4 : 4 * p * n = 4 * (n * p) := by ring
  rw [h1, h2, h3]
  rw [h4] at hdiv
  generalize n * p = a at *
  omega

/-- What rounding has of a quotient or root q · 2^e with its sticky bit: the neighbours and the middle between them,
compared with the whole multiples of 2^e next to the exact value. -/
theorem sticky_cut {q s : Nat} (e : ℤ) (hs : s ≤ 1) (hq : 2 ^ 25 ≤ q) :
    let c := fpCut (2 * q + s) (e - 1)
    let u : ℚ := 2 ^ ((fpPlace (2 * q + s) (e - 1) : ℤ) - 149)
    (c.1 : ℚ) * u ≤ q * 2 ^ e ∧ ((q : ℚ) + 1) * 2 ^ e ≤ (c.1 + 1) * u ∧
      (c.2.2 ≤ 2 * c.2.1 → ((c.1 : ℚ) + 1 / 2) * u ≤ q * 2 ^ e) ∧
      (2 * c.2.1 ≤ c.2.2 → ((q : ℚ) + 1) * 2 ^ e ≤ (c.1 + 1 / 2) * u ∨
        (s = 0 ∧ (q : ℚ) * 2 ^ e ≤ (c.1 + 1 / 2) * u)) := by
  intro c u
  have hlog : 26 ≤ (2 * q + s).log2 := (Nat.le_log2 (by omega)).mpr (by omega)
  obtain ⟨t, ht⟩ : ∃ t : Nat, (fpPlace (2 * q + s) (e - 1) : ℤ) - 149 = e + (t + 1 : Nat) := by
    refine ⟨((fpPlace (2 * q + s) (e - 1) : ℤ) - 149 - e - 1).toNat, ?_⟩
    rw [fpPlace, exponentOf]
    split <;> omega
  have hc : c = ((2 * q + s) / 2 ^ (t + 2), (2 * q + s) % 2 ^ (t + 2), 2 ^ (t + 2)) := by
    simp only [c]
    rw [fpCut, cutAt, ht, if_neg (by omega), show (e + (t + 1 : Nat) - (e - 1)).toNat = t + 2 by omega]
  have hu : u = 2 ^ (t + 1) * 2 ^ e := by
    simp only [u]
    rw [ht, zpow_add₀ (by norm_num), zpow_natCast, mul_comm]
  obtain ⟨h1, h2, h3, h4⟩ := sticky_div t hs (q := q)
  rw [hc, hu]
  have hpos : (0 : ℚ) < 2 ^ e := by positivity
  generalize (2 * q + s) / 2 ^ (t + 2) = n at *
  generalize (2 * q + s) % 2 ^ (t + 2) = r at *
  have hhalf : ((n : ℚ) + 1 / 2) * (2 ^ (t + 1) * 2 ^ e) = ((2 * n + 1) * 2 ^ t) * 2 ^ e := by ring
  have hmul {a b : ℚ} (h : a ≤ b) : a * 2 ^ e ≤ b * 2 ^ e := mul_le_mul_of_nonneg_right h hpos.le
  rw [hhalf]
  simp only [← mul_assoc]
  refine ⟨hmul (by exact_mod_cast h1), hmul (by exact_mod_cast h2), fun h => hmul (by exact_mod_cast h3 h), fun h => ?_⟩
  exact (h4 h).imp (fun h => hmul (by exact_mod_cast h)) (And.imp_right fun h => hmul (by exact_mod_cast h))

/-! Signs and overflows of FP32. -/

theorem withSign_fp32 (neg : Bool) (mag : Nat) : entFp32.withSign neg mag = (if neg then 2147483648 else 0) + mag := by
  rw [entFp32_eq]
  cases neg <;> simp [Ent.withSign]

theorem signed_code (neg : Bool) {mag : Nat} (h : mag < 2147483648) :
    ((if neg then 2147483648 else 0) + mag) / 2 ^ 31 = (if neg then 1 else 0) ∧
      ((if neg then 2147483648 else 0) + mag) % 2 ^ 31 = mag := by
  cases neg <;> simp <;> omega

theorem overflow_fp32 (mode : Nat) (neg : Bool) :
    ∃ mag, (entFp32.overflow mode false true neg).1 = (if neg then 2147483648 else 0) + mag ∧ mag < 2147483648 ∧
      (mode = 2 → mag = entFp32.maxMag) ∧ (mode = 1 → entFp32.maxMag < mag) := by
  have hpol : entFp32.pol = 0 := by rw [entFp32_eq]
  have hinf : (2 ^ entFp32.ew - 1) * 2 ^ entFp32.fw = 2139095040 := by rw [entFp32_eq]; rfl
  have hkind : entFp32.kind ≠ 4 := by rw [entFp32_eq]; decide
  rw [Ent.overflow]
  simp only [hpol, Bool.true_and, Bool.false_or]
  split
  · next hmax =>
    refine ⟨entFp32.maxMag, ?_, by rw [maxMag_fp32]; decide, fun _ => rfl, fun h => ?_⟩
    · rw [Ent.maxCode, if_neg hkind, withSign_fp32]
    · subst h
      simp at hmax
  · next hmax =>
    refine ⟨2139095040, ?_, by decide, fun h => ?_, fun _ => by rw [maxMag_fp32]; decide⟩
    · rw [Ent.infCode, hinf, withSign_fp32]
    · subst h
      simp at hmax

/-! Brackets: where a rounded quotient or root lies (R333). -/

section
variable {fn : Nat} {a b x : ℚ} (hx : 0 ≤ x) (ha : 0 ≤ a) (hab : a ≤ b)
include hx ha hab

theorem rootAtMost_mono (h : rootAtMost fn b x) : rootAtMost fn a x := by
  have h1 : a * x ≤ b * x := by gcongr
  have h2 : a ^ 2 ≤ b ^ 2 := by gcongr
  have h3 : a ^ 2 * x ≤ b ^ 2 * x := by gcongr
  unfold rootAtMost at *
  split_ifs at * <;> linarith

theorem rootAbove_mono (h : rootAbove fn a x) : rootAbove fn b x := by
  have h1 : a * x ≤ b * x := by gcongr
  have h2 : a ^ 2 ≤ b ^ 2 := by gcongr
  have h3 : a ^ 2 * x ≤ b ^ 2 * x := by gcongr
  unfold rootAbove at *
  split_ifs at * <;> linarith

theorem rootAtLeast_mono (h : rootAtLeast fn a x) : rootAtLeast fn b x := by
  have h1 : a * x ≤ b * x := by gcongr
  have h2 : a ^ 2 ≤ b ^ 2 := by gcongr
  have h3 : a ^ 2 * x ≤ b ^ 2 * x := by gcongr
  unfold rootAtLeast at *
  split_ifs at * <;> linarith

end

theorem rootAbove.atLeast {fn : Nat} {a x : ℚ} (h : rootAbove fn a x) : rootAtLeast fn a x := by
  unfold rootAbove at h
  unfold rootAtLeast
  split_ifs at * <;> exact h.le

theorem magnitude_nonneg (c : Nat) : 0 ≤ magnitude c := by unfold magnitude; positivity

theorem midAbove_le {c : Nat} (hc : 0 < c) : midAbove (c - 1) ≤ magnitude c := by
  have h := magnitude_strictMono.monotone (show c - 1 ≤ c by omega)
  rw [midAbove, show c - 1 + 1 = c by omega]
  linarith

theorem le_midAbove (c : Nat) : magnitude c ≤ midAbove c := by
  have h := magnitude_strictMono.monotone (show c ≤ c + 1 by omega)
  rw [midAbove]
  linarith

theorem midAbove_units {n k : Nat} (hn : n < 16777216) (hk : k = 0 ∨ 8388608 ≤ n) :
    midAbove (n + k * 8388608) = ((n : ℚ) + 1 / 2) * 2 ^ ((k : ℤ) - 149) := by
  rw [midAbove, show n + k * 8388608 + 1 = (n + 1) + k * 8388608 by omega, magnitude_units ⟨by omega, hk⟩,
    magnitude_units ⟨by omega, by omega⟩]
  push_cast
  ring

theorem midAbove_nonneg (c : Nat) : 0 ≤ midAbove c := (magnitude_nonneg c).trans (le_midAbove c)

/-- An exact result between the whole multiples q and q + 1 of 2^e, at the first where s is 0. -/
structure RootBetween (fn q s : Nat) (e : ℤ) (x : ℚ) : Prop where
  atMost : rootAtMost fn (q * 2 ^ e) x
  above : rootAbove fn ((q + 1) * 2 ^ e) x
  exact_ : s = 0 → rootAtLeast fn (q * 2 ^ e) x

theorem brackets_of_between {fn q s : Nat} {e : ℤ} {x : Word} (mode : Nat) {neg : Bool} (w : Word) (hneg : neg = x.getLsbD 31)
    (hs : s ≤ 1) (hq : 2 ^ 25 ≤ q) (hr : RootBetween fn q s e (magnitude (x.toNat % 2 ^ 31))) :
    Brackets fn mode x (entFp32.roundMag mode false neg w (2 * q + s) (e - 1)).1 := by
  obtain ⟨hlo, hhi, hup, hdown⟩ := sticky_cut e hs hq
  obtain ⟨hlt, hk⟩ := cut_units (m := 2 * q + s) (e - 1) (by omega)
  rw [roundMag_fp32 (e - 1) (by omega)]
  generalize fpCut (2 * q + s) (e - 1) = c at *
  generalize fpPlace (2 * q + s) (e - 1) = k at *
  have hx := magnitude_nonneg (x.toNat % 2 ^ 31)
  have hmag := magnitude_units (n := c.1) (k := k) ⟨by omega, hk⟩
  have hmag' := magnitude_units (n := c.1 + 1) (k := k) ⟨by omega, by omega⟩
  have hmid := midAbove_units hlt hk
  have hQ : (0 : ℚ) ≤ q * 2 ^ e := by positivity
  have hQ' : (0 : ℚ) ≤ (q + 1) * 2 ^ e := by positivity
  have hatMost {a : ℚ} (h0 : 0 ≤ a) (h : a ≤ q * 2 ^ e) := rootAtMost_mono (fn := fn) hx h0 h hr.atMost
  have habove {a : ℚ} (h : (q + 1) * 2 ^ e ≤ a) := rootAbove_mono (fn := fn) hx hQ' h hr.above
  push_cast at hmag'
  generalize hn : (if roundUp mode neg (c.1 % 2 == 1) c.2.1 c.2.2 w then c.1 + 1 else c.1) = n
  have hmode2 (h : mode = 2) : n = c.1 := by rw [← hn, h]; rfl
  have hmode1 (h : mode = 1) : (n = c.1 ∧ 2 * c.2.1 ≤ c.2.2) ∨ (n = c.1 + 1 ∧ c.2.2 ≤ 2 * c.2.1) := by
    rw [← hn, h]
    simp only [roundUp, Bool.or_eq_true, Bool.and_eq_true, decide_eq_true_eq, beq_iff_eq]
    split_ifs with hup'
    · exact .inr ⟨rfl, by omega⟩
    · exact .inl ⟨rfl, by omega⟩
  have hfloor (h : mode = 2) {a : Nat} (ha : a ≤ n + k * 8388608) :
      rootAtMost fn (magnitude a) (magnitude (x.toNat % 2 ^ 31)) := by
    refine hatMost (magnitude_nonneg _) ((magnitude_strictMono.monotone ha).trans ?_)
    rw [hmode2 h, hmag]
    exact hlo
  split
  · next hover =>
    obtain ⟨mag, hcode, hsmall, hmax, hinf⟩ := overflow_fp32 mode neg
    obtain ⟨hsign, hlow⟩ := signed_code neg hsmall
    rw [hcode]
    refine ⟨by rw [hsign, hneg], fun h => ?_, fun h => by rw [hlow, hmax h], fun h hle => absurd (hinf h) ?_⟩
    · rw [hlow, hmax h]
      exact ⟨hfloor h hover.le, fun hlt => absurd hlt (lt_irrefl _)⟩
    · rw [hlow] at hle
      omega
  · next hin =>
    have hin := Nat.not_lt.mp hin
    obtain ⟨hsign, hlow⟩ := signed_code neg (mag := n + k * 8388608) (hin.trans_lt (by rw [maxMag_fp32]; decide))
    rw [withSign_fp32]
    refine ⟨by rw [hsign, hneg], fun h => ?_, fun h => by rw [hlow]; exact hin, fun h _ => ?_⟩
    · rw [hlow]
      refine ⟨hfloor h le_rfl, fun _ => habove ?_⟩
      rw [hmode2 h, show c.1 + k * 8388608 + 1 = c.1 + 1 + k * 8388608 by omega, hmag']
      exact hhi
    · rw [hlow]
      rcases hmode1 h with ⟨rfl, hle⟩ | ⟨rfl, hle⟩
      · refine ⟨fun hpos => hatMost ?_ ?_, ?_⟩
        · exact midAbove_nonneg _
        · exact (midAbove_le hpos).trans (hmag.trans_le hlo)
        · rw [hmid]
          rcases hdown hle with h1 | ⟨h0, h1⟩
          · exact (habove h1).atLeast
          · exact rootAtLeast_mono hx hQ h1 (hr.exact_ h0)
      · refine ⟨fun _ => hatMost ?_ ?_, ?_⟩
        · exact midAbove_nonneg _
        · rw [show c.1 + 1 + k * 8388608 - 1 = c.1 + k * 8388608 by omega, hmid]
          exact hup hle
        · refine (habove (hhi.trans ?_)).atLeast
          rw [← hmag']
          exact le_midAbove _

/-! Quotients and roots of a magnitude m · 2^e (R333). -/

theorem isqrtGo_spec (n k r : Nat) (hlo : r * r ≤ n) (hhi : n < (r + 2 ^ k) * (r + 2 ^ k)) :
    isqrtGo n k r * isqrtGo n k r ≤ n ∧ n < (isqrtGo n k r + 1) * (isqrtGo n k r + 1) := by
  induction k generalizing r with
  | zero => exact ⟨hlo, hhi⟩
  | succ k ih =>
    rw [isqrtGo]
    split
    · next hle => exact ih _ hle (by rwa [Nat.add_assoc, ← Nat.two_mul, ← Nat.pow_succ'])
    · next hgt => exact ih _ hlo (Nat.not_le.mp hgt)

theorem isqrt_spec (n : Nat) : isqrt n * isqrt n ≤ n ∧ n < (isqrt n + 1) * (isqrt n + 1) := by
  refine isqrtGo_spec n _ 0 (by simp) ?_
  have hlog : n < 2 ^ (n.log2 + 1) := Nat.lt_log2_self
  calc n < 2 ^ (n.log2 + 1) := hlog
    _ ≤ 2 ^ ((n.log2 / 2 + 1) + (n.log2 / 2 + 1)) := Nat.pow_le_pow_right (by decide) (by omega)
    _ = (0 + 2 ^ (n.log2 / 2 + 1)) * (0 + 2 ^ (n.log2 / 2 + 1)) := by rw [Nat.pow_add, Nat.zero_add]

/-- A root of at least 2^50 has at least 25 bits. -/
theorem isqrt_large {n : Nat} (h : 2 ^ 52 ≤ n) : 2 ^ 25 ≤ isqrt n := by
  obtain ⟨-, hhi⟩ := isqrt_spec n
  by_contra hlt
  have : (isqrt n + 1) * (isqrt n + 1) ≤ 2 ^ 26 * 2 ^ 26 := Nat.mul_le_mul (by omega) (by omega)
  omega

/-- The sticky bit of a quotient or root. -/
def stickyBit (exact : Bool) : Nat := if exact then 0 else 1

theorem stickyBit_le (exact : Bool) : stickyBit exact ≤ 1 := by cases exact <;> decide

theorem round_sticky (mode : Nat) (w : Word) (neg exact : Bool) {q : Nat} (e : ℤ) (hq : 2 ^ 25 ≤ q) :
    entFp32.round mode false w (stickyNum neg q exact e) =
      entFp32.roundMag mode false neg w (2 * q + stickyBit exact) (e - 1) := by
  have hkind : ¬ (entFp32.kind = 2 ∨ entFp32.kind = 3) := by rw [entFp32_eq]; decide
  have hsgn : entFp32.sgn = true := by rw [entFp32_eq]
  have hne : 2 * q + stickyBit exact ≠ 0 := by omega
  rw [stickyNum, Ent.round, if_neg hkind]
  show (if 2 * q + stickyBit exact = 0 then _ else _) = _
  rw [if_neg hne, hsgn]
  simp [stickyBit]

theorem recip_between {m : Nat} (hm : m ≠ 0) (e : ℤ) :
    let k := m.log2 + 100
    2 ^ 25 ≤ 2 ^ k / m ∧
      RootBetween 0 (2 ^ k / m) (stickyBit (2 ^ k % m == 0)) (-e - k) ((m : ℚ) * 2 ^ e) := by
  intro k
  have hlog : m < 2 ^ (m.log2 + 1) := Nat.lt_log2_self
  have hdiv : m * (2 ^ k / m) + 2 ^ k % m = 2 ^ k := Nat.div_add_mod _ _
  have hrem : 2 ^ k % m < m := Nat.mod_lt _ (Nat.pos_of_ne_zero hm)
  have hpow (a : ℚ) : a * 2 ^ (-e - k : ℤ) * (m * 2 ^ e) = a * m / 2 ^ k := by
    rw [zpow_sub₀ (by norm_num), zpow_neg, zpow_natCast]
    have : (2 : ℚ) ^ e ≠ 0 := by positivity
    field_simp
  refine ⟨?_, ?_, ?_, fun h => ?_⟩
  · refine (Nat.le_div_iff_mul_le (Nat.pos_of_ne_zero hm)).mpr ?_
    calc 2 ^ 25 * m ≤ 2 ^ 25 * 2 ^ (m.log2 + 1) := by gcongr
      _ = 2 ^ (25 + (m.log2 + 1)) := (Nat.pow_add ..).symm
      _ ≤ 2 ^ k := Nat.pow_le_pow_right (by decide) (by omega)
  all_goals generalize 2 ^ k % m = r at *; generalize 2 ^ k / m = q at *
  · show _ * _ ≤ _
    rw [hpow, div_le_one (by positivity)]
    have : q * m ≤ 2 ^ k := by rw [← hdiv, Nat.mul_comm]; exact Nat.le_add_right _ _
    exact_mod_cast this
  · show _ < _ * _
    rw [hpow, one_lt_div (by positivity)]
    have : 2 ^ k < (q + 1) * m := by rw [← hdiv, Nat.add_mul, Nat.mul_comm q]; omega
    exact_mod_cast this
  · show _ ≤ _ * _
    rw [hpow, one_le_div (by positivity)]
    have hr : r = 0 := by by_contra hr; simp [stickyBit, hr] at h
    have : 2 ^ k ≤ q * m := by rw [← hdiv, hr, Nat.mul_comm]; rfl
    exact_mod_cast this

/-- A magnitude m · 2^e with an even exponent. -/
def evenMant (m : Nat) (e : ℤ) : Nat := if e % 2 = 0 then m else 2 * m
def evenExp (e : ℤ) : ℤ := if e % 2 = 0 then e else e - 1

theorem even_value (m : Nat) (e : ℤ) : (m : ℚ) * 2 ^ e = evenMant m e * 2 ^ (2 * (evenExp e / 2)) := by
  rw [evenMant, evenExp]
  split
  · next h => rw [show 2 * (e / 2) = e by omega]
  · next h =>
    rw [show 2 * ((e - 1) / 2) = e - 1 by omega, zpow_sub_one₀ (by norm_num)]
    push_cast
    ring

theorem evenMant_ne {m : Nat} (hm : m ≠ 0) (e : ℤ) : evenMant m e ≠ 0 := by
  rw [evenMant]
  split <;> omega

theorem root_between {m : Nat} (hm : m ≠ 0) (h : ℤ) :
    let q := isqrt (m * 2 ^ 200)
    2 ^ 25 ≤ q ∧ RootBetween 2 q (stickyBit (q * q == m * 2 ^ 200)) (h - 100) ((m : ℚ) * 2 ^ (2 * h)) := by
  intro q
  obtain ⟨hlo, hhi⟩ : q * q ≤ m * 2 ^ 200 ∧ m * 2 ^ 200 < (q + 1) * (q + 1) := isqrt_spec (m * 2 ^ 200)
  have hscale : (0 : ℚ) < 2 ^ (2 * (h - 100)) := by positivity
  have hx : (m : ℚ) * 2 ^ (2 * h) = (m * 2 ^ 200 : Nat) * 2 ^ (2 * (h - 100)) := by
    rw [show 2 * h = 200 + 2 * (h - 100) by ring, zpow_add₀ (by norm_num)]
    push_cast
    rw [mul_assoc]
  have hsq (a : ℚ) : (a * 2 ^ (h - 100)) ^ 2 = a * a * 2 ^ (2 * (h - 100)) := by
    rw [mul_pow, ← zpow_natCast ((2 : ℚ) ^ (h - 100)), ← zpow_mul, mul_comm (h - 100)]
    push_cast
    ring
  have hlarge : 2 ^ 52 ≤ m * 2 ^ 200 := by
    calc 2 ^ 52 ≤ 1 * 2 ^ 200 := by norm_num
      _ ≤ m * 2 ^ 200 := by gcongr; omega
  have hq : 2 ^ 25 ≤ q := isqrt_large hlarge
  clear_value q
  refine ⟨hq, ?_, ?_, fun hex => ?_⟩
  all_goals rw [hx]; generalize m * 2 ^ 200 = n at *
  · show _ ^ 2 ≤ _
    rw [hsq]
    exact mul_le_mul_of_nonneg_right (by exact_mod_cast hlo) hscale.le
  · show _ < _ ^ 2
    rw [hsq]
    exact mul_lt_mul_of_pos_right (by exact_mod_cast hhi) hscale
  · show _ ≤ _ ^ 2
    rw [hsq]
    have heq : q * q = n := by by_contra hne; simp [stickyBit, hne] at hex
    exact mul_le_mul_of_nonneg_right (by exact_mod_cast heq.ge) hscale.le

theorem recipRoot_between {m : Nat} (hm : m ≠ 0) (h : ℤ) :
    let k := 2 * m.log2 + 100
    let q := isqrt (2 ^ (2 * k) / m)
    2 ^ 25 ≤ q ∧ RootBetween 1 q (stickyBit (q * q * m == 2 ^ (2 * k))) (-h - k) ((m : ℚ) * 2 ^ (2 * h)) := by
  intro k q
  obtain ⟨hlo, hhi⟩ := isqrt_spec (2 ^ (2 * k) / m)
  have hpos := Nat.pos_of_ne_zero hm
  have hlog : m < 2 ^ (m.log2 + 1) := Nat.lt_log2_self
  have hsq (a : ℚ) : (a * 2 ^ (-h - k : ℤ)) ^ 2 * (m * 2 ^ (2 * h)) = a * a * m / 2 ^ (2 * k) := by
    rw [mul_pow, ← zpow_natCast ((2 : ℚ) ^ (-h - k : ℤ)), ← zpow_mul,
      show (-h - k) * ((2 : Nat) : ℤ) = -(2 * h) - (2 * k : Nat) by push_cast; ring, zpow_sub₀ (by norm_num), zpow_neg, zpow_natCast]
    have : (2 : ℚ) ^ (2 * h) ≠ 0 := by positivity
    field_simp
  have hlarge : 2 ^ 52 ≤ 2 ^ (2 * k) / m := by
    refine (Nat.le_div_iff_mul_le hpos).mpr ?_
    calc 2 ^ 52 * m ≤ 2 ^ 52 * 2 ^ (m.log2 + 1) := by gcongr
      _ = 2 ^ (52 + (m.log2 + 1)) := (Nat.pow_add ..).symm
      _ ≤ 2 ^ (2 * k) := Nat.pow_le_pow_right (by decide) (by omega)
  have hlo' : q * q * m ≤ 2 ^ (2 * k) := (Nat.le_div_iff_mul_le hpos).mp hlo
  have hhi' : 2 ^ (2 * k) < (q + 1) * (q + 1) * m := (Nat.div_lt_iff_lt_mul hpos).mp hhi
  refine ⟨isqrt_large hlarge, ?_, ?_, fun hex => ?_⟩
  · show _ ^ 2 * _ ≤ _
    rw [hsq, div_le_one (by positivity)]
    exact_mod_cast hlo'
  · show _ < _ ^ 2 * _
    rw [hsq, one_lt_div (by positivity)]
    exact_mod_cast hhi'
  · show _ ≤ _ ^ 2 * _
    rw [hsq, one_le_div (by positivity)]
    have heq : q * q * m = 2 ^ (2 * k) := by by_contra hne; simp [stickyBit, hne] at hex
    exact_mod_cast heq.ge

end Sys2Proof.Machine
end

section
/-! Function words: the special inputs of their table, and the brackets of the other results (R333, R334). -/

namespace Sys2Proof.Machine

/-! Operands. -/

theorem bitAt_eq (n i : Nat) : bitAt n i = n.testBit i := by
  rw [bitAt, bitsOf, Nat.testBit_eq_decide_div_mod_eq, Nat.shiftRight_eq_div_pow, Nat.pow_one]
  rfl

theorem low31_toNat (x : Word) : (x &&& 0x7FFFFFFF).toNat = x.toNat % 2147483648 :=
  Nat.and_two_pow_sub_one_eq_mod x.toNat 31

theorem decode_fp32 (x : Word) :
    entFp32.decode x.toNat =
      let g := x.toNat % 2147483648
      if g / 8388608 = 255 then
        (if g % 8388608 = 0 then .inf (x.getLsbD 31) else .nan (!(x &&& 0x7FFFFFFF).getLsbD 22))
      else .fin (x.getLsbD 31) (entFp32.mag g).1 (entFp32.mag g).2 := by
  have hmod : x.toNat % 4294967296 = x.toNat := Nat.mod_eq_of_lt x.isLt
  have hquiet : bitAt (x.toNat % 2147483648 % 8388608) 22 = (x &&& 0x7FFFFFFF).getLsbD 22 := by
    rw [bitAt_eq, BitVec.getLsbD, low31_toNat, show 8388608 = 2 ^ 23 from rfl, Nat.testBit_mod_two_pow]
    rfl
  rw [entFp32_eq]
  simp only [Ent.decode, show (2 : Nat) ^ 32 = 4294967296 from rfl, show (2 : Nat) ^ (8 + 23) = 2147483648 from rfl,
    show (2 : Nat) ^ 23 = 8388608 from rfl, show 2 ^ 8 - 1 = 255 from rfl, hmod, hquiet]
  simp only [bitAt_eq, Bool.true_and]
  simp only [show ¬ ((0 : Nat) = 1) by decide, show ¬ ((0 : Nat) = 4) by decide, false_and, true_and, if_false]
  split_ifs <;> rfl

/-- Whether FP32 reads an operand as a subnormal one. -/
theorem subnormal_fp32 (c : Nat) :
    entFp32.subnormal c = (c % 2147483648 != 0 && decide (c % 2147483648 < 8388608)) := by
  rw [entFp32_eq]
  rfl

theorem operand_plain {ftz : Bool} {x : Word} (h : (ftz && entFp32.subnormal x.toNat) = false) :
    entFp32.operand ftz x.toNat = entFp32.decode x.toNat := by
  rw [Ent.operand, h]
  rfl

theorem not_subnormal {ftz : Bool} {x : Word} (h : ¬ (ftz = true ∧ x.toNat % 2147483648 < 8388608)) :
    (ftz && entFp32.subnormal x.toNat) = false := by
  rw [subnormal_fp32]
  cases ftz <;> simp_all

theorem operand_nan (ftz : Bool) {x : Word} (h : 2139095040 < x.toNat % 2147483648) :
    entFp32.operand ftz x.toNat = .nan (!(x &&& 0x7FFFFFFF).getLsbD 22) := by
  rw [operand_plain (not_subnormal (by omega)), decode_fp32]
  exact (if_pos (by omega)).trans (if_neg (by omega))

theorem operand_inf (ftz : Bool) {x : Word} (h : x.toNat % 2147483648 = 2139095040) :
    entFp32.operand ftz x.toNat = .inf (x.getLsbD 31) := by
  rw [operand_plain (not_subnormal (by omega)), decode_fp32]
  exact (if_pos (by omega)).trans (if_pos (by omega))

theorem operand_fin {ftz : Bool} {x : Word} (h : x.toNat % 2147483648 < 2139095040)
    (hftz : ¬ (ftz = true ∧ x.toNat % 2147483648 < 8388608)) :
    entFp32.operand ftz x.toNat =
      .fin (x.getLsbD 31) (entFp32.mag (x.toNat % 2147483648)).1 (entFp32.mag (x.toNat % 2147483648)).2 := by
  rw [operand_plain (not_subnormal hftz), decode_fp32]
  exact if_neg (by omega)

theorem operand_zero {ftz : Bool} {x : Word}
    (h : x.toNat % 2147483648 = 0 ∨ (ftz = true ∧ x.toNat % 2147483648 < 8388608)) :
    ∃ e, entFp32.operand ftz x.toNat = .fin (x.getLsbD 31) 0 e := by
  cases hsub : ftz && entFp32.subnormal x.toNat with
  | false =>
    have h0 : x.toNat % 2147483648 = 0 := by
      rw [subnormal_fp32] at hsub
      rcases h with h0 | ⟨hf, hlt⟩
      · exact h0
      · simpa [hf, hlt] using hsub
    refine ⟨-149, ?_⟩
    rw [operand_plain hsub, decode_fp32, h0]
    refine (if_neg (by decide)).trans ?_
    rw [mag_fp32]
    rfl
  | true =>
    refine ⟨0, ?_⟩
    rw [Ent.operand, if_pos hsub, bitAt_eq, entFp32_eq]
    rfl

/-! Results that every rounding mode gives. -/

theorem flush_large (ftz : Bool) {r : Nat × Word} (h : entFp32.subnormal r.1 = false) : entFp32.flush ftz r = r := by
  rw [Ent.flush, h, Bool.and_false]
  rfl

theorem round_nan (mode : Nat) (w : Word) (sig : Bool) :
    entFp32.round mode false w (.nan sig) = (0x7FC00000, flagNF ||| flagIf sig flagIV) := by
  rw [entFp32_eq]
  rfl

theorem round_inf (mode : Nat) (w : Word) (neg : Bool) :
    entFp32.round mode false w (.inf neg) = (if neg then 0xFF800000 else 0x7F800000, flagNF) := by
  rw [entFp32_eq]
  cases neg <;> rfl

theorem round_zero (mode : Nat) (w : Word) (neg : Bool) (e : ℤ) :
    entFp32.round mode false w (.fin neg 0 e) = (if neg then 0x80000000 else 0, 0) := by
  rw [entFp32_eq]
  cases neg <;> rfl

theorem round_one (mode : Nat) (w : Word) (neg : Bool) :
    entFp32.round mode false w (.fin neg 1 0) = (if neg then 0xBF800000 else 0x3F800000, 0) := by
  have hkind : ¬ (entFp32.kind = 2 ∨ entFp32.kind = 3) := by rw [entFp32_eq]; decide
  have hsgn : entFp32.sgn = true := by rw [entFp32_eq]
  have hround : entFp32.round mode false w (.fin neg 1 0) = entFp32.roundMag mode false neg w 1 0 := by
    rw [Ent.round, if_neg hkind]
    show (if (1 : Nat) = 0 then _ else _) = _
    rw [hsgn]
    simp
  rw [hround, roundMag_exact (n := 8388608) 0 (by decide) mode neg w (by decide) (by rw [maxMag_fp32]; decide), withSign_fp32]
  cases neg <;> rfl

/-- A number that every rounding mode takes to one code, which is not subnormal. -/
def FixedNum (v : Num) (c fl : Word) : Prop :=
  (∀ mode w, entFp32.round mode false w v = (c.toNat, fl)) ∧ entFp32.subnormal c.toNat = false

theorem fixed_nan : FixedNum (.nan false) 0x7FC00000 flagNF := ⟨fun mode w => round_nan mode w false, by decide⟩

theorem fixed_pole : FixedNum (.inf true) 0xFF800000 flagNF := ⟨fun mode w => round_inf mode w true, by decide⟩

theorem fixed_top : FixedNum (.inf false) 0x7F800000 flagNF := ⟨fun mode w => round_inf mode w false, by decide⟩

theorem fixed_minus (e : ℤ) : FixedNum (.fin true 0 e) 0x80000000 0 := ⟨fun mode w => round_zero mode w true e, by decide⟩

theorem fixed_plus (e : ℤ) : FixedNum (.fin false 0 e) 0 0 := ⟨fun mode w => round_zero mode w false e, by decide⟩

theorem fixed_one : FixedNum (.fin false 1 0) 0x3F800000 0 := ⟨fun mode w => round_one mode w false, by decide⟩

theorem fixed_minusOne : FixedNum (.fin true 1 0) 0xBF800000 0 := ⟨fun mode w => round_one mode w true, by decide⟩

/-! The table of R334. -/

/-- A function of a number gives what the table says of a code, whatever the rounding. -/
def TableRow (fn : Nat) (v : Num) (x : Word) : Prop :=
  ∃ u fl c fl', funcOf fn v = (.num u, fl) ∧ FixedNum u c fl' ∧ specialInput fn false x = some (c, fl ||| fl')

theorem inf_rows : ∀ (fn : Nat) (neg : Bool), fn < 8 → TableRow fn (.inf neg) (if neg then 0xFF800000 else 0x7F800000)
  | 0, true, _ => ⟨_, _, _, _, rfl, fixed_minus 0, rfl⟩
  | 0, false, _ => ⟨_, _, _, _, rfl, fixed_plus 0, rfl⟩
  | 1, true, _ => ⟨_, _, _, _, rfl, fixed_nan, rfl⟩
  | 1, false, _ => ⟨_, _, _, _, rfl, fixed_plus 0, rfl⟩
  | 2, true, _ => ⟨_, _, _, _, rfl, fixed_nan, rfl⟩
  | 2, false, _ => ⟨_, _, _, _, rfl, fixed_top, rfl⟩
  | 3, true, _ => ⟨_, _, _, _, rfl, fixed_plus 0, rfl⟩
  | 3, false, _ => ⟨_, _, _, _, rfl, fixed_top, rfl⟩
  | 4, true, _ => ⟨_, _, _, _, rfl, fixed_nan, rfl⟩
  | 4, false, _ => ⟨_, _, _, _, rfl, fixed_top, rfl⟩
  | 5, true, _ => ⟨_, _, _, _, rfl, fixed_nan, rfl⟩
  | 5, false, _ => ⟨_, _, _, _, rfl, fixed_nan, rfl⟩
  | 6, true, _ => ⟨_, _, _, _, rfl, fixed_nan, rfl⟩
  | 6, false, _ => ⟨_, _, _, _, rfl, fixed_nan, rfl⟩
  | 7, true, _ => ⟨_, _, _, _, rfl, fixed_minusOne, rfl⟩
  | 7, false, _ => ⟨_, _, _, _, rfl, fixed_one, rfl⟩
  | n + 8, _, h => absurd h (by omega)

theorem zero_rows (e : ℤ) :
    ∀ (fn : Nat) (neg : Bool), fn < 8 → TableRow fn (.fin neg 0 e) (if neg then 0x80000000 else 0)
  | 0, true, _ => ⟨_, _, _, _, rfl, fixed_pole, rfl⟩
  | 0, false, _ => ⟨_, _, _, _, rfl, fixed_top, rfl⟩
  | 1, true, _ => ⟨_, _, _, _, rfl, fixed_pole, rfl⟩
  | 1, false, _ => ⟨_, _, _, _, rfl, fixed_top, rfl⟩
  | 2, true, _ => ⟨_, _, _, _, rfl, fixed_minus 0, rfl⟩
  | 2, false, _ => ⟨_, _, _, _, rfl, fixed_plus 0, rfl⟩
  | 3, true, _ => ⟨_, _, _, _, rfl, fixed_one, rfl⟩
  | 3, false, _ => ⟨_, _, _, _, rfl, fixed_one, rfl⟩
  | 4, true, _ => ⟨_, _, _, _, rfl, fixed_pole, rfl⟩
  | 4, false, _ => ⟨_, _, _, _, rfl, fixed_pole, rfl⟩
  | 5, true, _ => ⟨_, _, _, _, rfl, fixed_minus 0, rfl⟩
  | 5, false, _ => ⟨_, _, _, _, rfl, fixed_plus 0, rfl⟩
  | 6, true, _ => ⟨_, _, _, _, rfl, fixed_one, rfl⟩
  | 6, false, _ => ⟨_, _, _, _, rfl, fixed_one, rfl⟩
  | 7, true, _ => ⟨_, _, _, _, rfl, fixed_minus 0, rfl⟩
  | 7, false, _ => ⟨_, _, _, _, rfl, fixed_plus 0, rfl⟩
  | n + 8, _, h => absurd h (by omega)

theorem specialInput_nan (fn : Nat) (ftz : Bool) {x : Word} (h : 2139095040 < x.toNat % 2147483648) :
    specialInput fn ftz x = some (0x7FC00000, if (x &&& 0x7FFFFFFF).getLsbD 22 then flagNF else flagIV ||| flagNF) :=
  if_pos (by rw [low31_toNat]; exact h)

theorem specialInput_inf (fn : Nat) (ftz : Bool) {x : Word} (h : x.toNat % 2147483648 = 2139095040) :
    specialInput fn ftz x = specialInput fn false (if x.getLsbD 31 then 0xFF800000 else 0x7F800000) := by
  have hmag : x &&& 0x7FFFFFFF = 0x7F800000 := BitVec.eq_of_toNat_eq (by rw [low31_toNat, h]; rfl)
  unfold specialInput
  simp only [hmag]
  cases x.getLsbD 31 <;> rfl

section
variable (fn : Nat) {ftz : Bool} {x : Word}

/-- An operand below infinity is none of the first two rows. -/
theorem specialInput_below (h : x.toNat % 2147483648 < 2139095040) :
    ¬ 0x7F800000 < (x &&& 0x7FFFFFFF).toNat ∧ x &&& 0x7FFFFFFF ≠ 0x7F800000 := by
  refine ⟨by rw [low31_toNat]; omega, fun heq => ?_⟩
  have hnat := congrArg BitVec.toNat heq
  rw [low31_toNat] at hnat
  exact absurd hnat (by simp; omega)

theorem specialInput_zero (h : x.toNat % 2147483648 = 0 ∨ (ftz = true ∧ x.toNat % 2147483648 < 8388608)) :
    specialInput fn ftz x = specialInput fn false (if x.getLsbD 31 then 0x80000000 else 0) := by
  obtain ⟨hnan, hinf⟩ := specialInput_below (x := x) (by omega)
  have hzero : x &&& 0x7FFFFFFF = 0 ∨ (ftz = true ∧ (x &&& 0x7FFFFFFF).toNat < 0x00800000) := by
    rw [low31_toNat]
    exact h.imp_left fun h0 => BitVec.eq_of_toNat_eq (by rw [low31_toNat, h0]; rfl)
  unfold specialInput
  simp only [if_neg hnan, if_neg hinf, if_pos hzero]
  cases x.getLsbD 31 <;> rfl

theorem specialInput_fin (h : x.toNat % 2147483648 < 2139095040)
    (h0 : ¬ (x.toNat % 2147483648 = 0 ∨ (ftz = true ∧ x.toNat % 2147483648 < 8388608))) :
    specialInput fn ftz x =
      if x.getLsbD 31 = true ∧ (fn = 1 ∨ fn = 2 ∨ fn = 4) then some (0x7FC00000, flagIV ||| flagNF) else none := by
  obtain ⟨hnan, hinf⟩ := specialInput_below h
  have hzero : ¬ (x &&& 0x7FFFFFFF = 0 ∨ (ftz = true ∧ (x &&& 0x7FFFFFFF).toNat < 0x00800000)) := by
    rw [low31_toNat]
    refine fun hz => h0 (hz.imp_left fun heq => ?_)
    rw [← low31_toNat, heq]
    rfl
  unfold specialInput
  simp only [if_neg hnan, if_neg hinf, if_neg hzero]

end

theorem mag_ne {c : Nat} (h : c ≠ 0) : (entFp32.mag c).1 ≠ 0 := by
  rw [mag_fp32]
  split
  · exact h
  · exact Nat.ne_of_gt (Nat.add_pos_left (by decide) _)

theorem funcOf_fin {fn m : Nat} (hm : m ≠ 0) (neg : Bool) (e : ℤ) :
    funcOf fn (.fin neg m e) =
      if neg && (fn == 1 || fn == 2 || fn == 4) then (.num (.nan false), flagIV) else (funcFinite fn neg m e, 0) :=
  if_neg hm

/-! Results of function words. -/

section
variable (fr : Frame) (fn mode : Nat) (dw : Word) (a : DWord)

/-- A function value that is a number, rounded. -/
theorem funcEval_num {u : Num} {fl : Word} (h : funcOf fn (entFp32.operand fr.ftz (loOf a).toNat) = (.num u, fl)) :
    funcEval fn fr mode dw a =
      ((entFp32.flush fr.ftz (entFp32.round mode false dw u)).1,
        fl ||| (entFp32.flush fr.ftz (entFp32.round mode false dw u)).2) := by
  have hlow : (low32 a).toNat = (loOf a).toNat := by
    rw [low32, BitVec.toNat_setWidth]
    exact Nat.mod_eq_of_lt ((loOf a).isLt.trans (by decide))
  have hin : floatIn fr false (low32 a) = entFp32.operand fr.ftz (loOf a).toNat := by rw [floatIn, hlow]; rfl
  rw [funcEval, hin, h]
  rfl

theorem funcEval_fixed {u : Num} {fl c fl' : Word} (h : funcOf fn (entFp32.operand fr.ftz (loOf a).toNat) = (.num u, fl))
    (hu : FixedNum u c fl') : funcEval fn fr mode dw a = (c.toNat, fl ||| fl') := by
  rw [funcEval_num fr fn mode dw a h, hu.1 mode dw, flush_large fr.ftz hu.2]

theorem funcEval_row {v : Num} {x : Word} (hv : entFp32.operand fr.ftz (loOf a).toNat = v) (hrow : TableRow fn v x)
    {r : Word × Word} (hr : specialInput fn false x = some r) : funcEval fn fr mode dw a = (r.1.toNat, r.2) := by
  obtain ⟨u, fl, c, fl', hfn, hu, hspecial⟩ := hrow
  obtain rfl := Option.some.inj (hspecial.symm.trans hr)
  exact funcEval_fixed fr fn mode dw a (by rw [hv, hfn]) hu

/-- A function word of a special input gives the result and the flags of the table. -/
theorem funcEval_special (hfn : fn < 8) {r : Word × Word} (hr : specialInput fn fr.ftz (loOf a) = some r) :
    funcEval fn fr mode dw a = (r.1.toNat, r.2) := by
  rcases lt_trichotomy ((loOf a).toNat % 2147483648) 2139095040 with hlt | heq | hgt
  · by_cases hz : (loOf a).toNat % 2147483648 = 0 ∨ (fr.ftz = true ∧ (loOf a).toNat % 2147483648 < 8388608)
    · obtain ⟨e, hv⟩ := operand_zero hz
      exact funcEval_row fr fn mode dw a hv (zero_rows e fn _ hfn) ((specialInput_zero fn hz).symm.trans hr)
    · rw [specialInput_fin fn hlt hz] at hr
      split at hr
      · next hneg =>
        obtain rfl := Option.some.inj hr
        refine funcEval_fixed fr fn mode dw a (fl := flagIV) ?_ fixed_nan
        rw [operand_fin hlt fun h => hz (.inr h), funcOf_fin (mag_ne fun h => hz (.inl h)), hneg.1, if_pos]
        simpa [or_assoc] using hneg.2
      · cases hr
  · exact funcEval_row fr fn mode dw a (operand_inf fr.ftz heq) (inf_rows fn _ hfn)
      ((specialInput_inf fn fr.ftz heq).symm.trans hr)
  · rw [specialInput_nan fn fr.ftz hgt] at hr
    obtain rfl := Option.some.inj hr
    rw [funcEval_num fr fn mode dw a (by rw [operand_nan fr.ftz hgt]; rfl), round_nan,
      flush_large fr.ftz (by show entFp32.subnormal 0x7FC00000 = false; decide)]
    cases (loOf a &&& 0x7FFFFFFF).getLsbD 22 <;> rfl

end

/-- The magnitude m · 2^e behind a function value that is a quotient or a root. -/
theorem funcFinite_between {fn : Nat} (hfn : fn < 3) {neg : Bool} {m : Nat} (e : ℤ) (hm : m ≠ 0)
    (hneg : neg = true → fn = 0) :
    ∃ q exact e', funcFinite fn neg m e = .num (stickyNum neg q exact e') ∧ 2 ^ 25 ≤ q ∧
      RootBetween fn q (stickyBit exact) e' ((m : ℚ) * 2 ^ e) := by
  match fn, hfn with
  | 0, _ => exact ⟨_, _, _, rfl, recip_between hm e⟩
  | 1, _ =>
    obtain rfl : neg = false := by cases neg <;> simp_all
    rw [even_value]
    exact ⟨_, _, _, rfl, recipRoot_between (evenMant_ne hm e) (evenExp e / 2)⟩
  | 2, _ =>
    obtain rfl : neg = false := by cases neg <;> simp_all
    rw [even_value]
    exact ⟨_, _, _, rfl, root_between (evenMant_ne hm e) (evenExp e / 2)⟩

/-- FRCP, FRSQ and FSQRT of an operand that is no special one (R333). -/
theorem funcEval_brackets {fr : Frame} (hftz : fr.ftz = false) {fn : Nat} (hfn : fn < 3) (mode : Nat) (dw : Word) {a : DWord}
    (hx : specialInput fn false (loOf a) = none) : Brackets fn mode (loOf a) (funcEval fn fr mode dw a).1 := by
  have hnospecial : ¬ ((loOf a).toNat % 2147483648 = 0 ∨ (false = true ∧ (loOf a).toNat % 2147483648 < 8388608)) := by
    intro hz
    obtain ⟨u, fl, c, fl', -, -, hs⟩ := zero_rows 0 fn ((loOf a).getLsbD 31) (by omega)
    rw [specialInput_zero fn hz, hs] at hx
    cases hx
  have hlt : (loOf a).toNat % 2147483648 < 2139095040 := by
    rcases lt_trichotomy ((loOf a).toNat % 2147483648) 2139095040 with hlt | heq | hgt
    · exact hlt
    · obtain ⟨u, fl, c, fl', -, -, hs⟩ := inf_rows fn ((loOf a).getLsbD 31) (by omega)
      rw [specialInput_inf fn false heq, hs] at hx
      cases hx
    · rw [specialInput_nan fn false hgt] at hx
      cases hx
  have hneg : (loOf a).getLsbD 31 = true → fn = 0 := by
    rw [specialInput_fin fn hlt hnospecial] at hx
    split at hx
    · cases hx
    · next hnot =>
      intro h
      by_contra h0
      exact hnot ⟨h, by omega⟩
  have hm := mag_ne fun h => hnospecial (.inl h)
  obtain ⟨q, exact_, e', hval, hq, hbetween⟩ :=
    funcFinite_between hfn (entFp32.mag ((loOf a).toNat % 2147483648)).2 hm hneg
  have hfunc : funcOf fn (entFp32.operand fr.ftz (loOf a).toNat) = (.num (stickyNum ((loOf a).getLsbD 31) q exact_ e'), 0) := by
    rw [hftz, operand_fin hlt (by simp), funcOf_fin hm, hval, if_neg]
    intro h
    obtain ⟨hsign, hroot⟩ := Bool.and_eq_true_iff.mp h
    rw [hneg hsign] at hroot
    cases hroot
  have hflush (r : Nat × Word) : entFp32.flush fr.ftz r = r := by rw [hftz]; rfl
  rw [funcEval_num fr fn mode dw a hfunc, hflush, round_sticky mode dw _ exact_ e' hq]
  exact brackets_of_between mode dw rfl (stickyBit_le _) hq hbetween

/-- A function word is a float word of one operand. -/
theorem functionWord_float {w : Seat} {i : Instr} {fn : Nat} {v : W2} (h : functionWord i = some (fn, v)) :
    fn < 8 ∧ w.float i = some (w.float1 v (funcEval fn)) := by
  unfold functionWord at h
  split at h
  case h_9 => cases h
  all_goals
    cases h
    exact ⟨by decide, rfl⟩

/-- Settles O7: every float word is one exact result that is rounded once. -/
theorem floatWords : Obligations.FloatWords := by
  unfold Obligations.FloatWords
  refine ⟨fun s i w f hi hf hr => ?_, fun s w fn v e f hi he hf hfits hslot hslot' hr => ?_, fun s w v e hi he hwid hr => ?_,
    fun s i w fn v hi hfn hr => ?_⟩
  · exact (float_rounds hi hf).gives (seat_facts hi) hr
  · have h := seat_facts hi
    refine (cvt_rounds h he hf hfits hslot hslot' hr ?_).gives h hr
    show execCvt fn v s = _
    rw [execCvt, runAlu_issuing hi]
  · have h := seat_facts hi
    refine (vdot_rounds h he hwid hr ?_).gives h hr
    show execVdot v s = _
    rw [execVdot, runAlu_issuing hi]
  · obtain ⟨hlt, hfloat⟩ := functionWord_float (w := w) hfn
    refine ⟨fun l dw => funcEval fn w.fr (w.mode v.x) dw (w.src 32 v.a l), ?_, fun l _ _ dw r hspecial => ?_,
      fun hroot hftz l _ _ dw hnone => ?_⟩
    · exact (float_rounds hi hfloat).gives (seat_facts hi) hr
    · exact funcEval_special w.fr fn (w.mode v.x) dw _ hlt hspecial
    · exact funcEval_brackets hftz hroot (w.mode v.x) dw hnone

end Sys2Proof.Machine
end

section
/-! Every memory stays in canonical form (log 2): what the shared operations make of a state. -/

namespace Sys2Proof.Machine

/-- Every memory of a state is in canonical form. -/
def State.Sound (s : State) : Prop := s.memoryWf = true

/-- What a state's memories hold. -/
def State.memories (s : State) : List Host.Cell × List Host.Cell × List Host.Cell × List Peer :=
  (s.device.cells, s.tier.cells, s.host, s.peers)

theorem State.Sound.of_cells {s u : State} (h : s.Sound) (hd : u.device.cells = s.device.cells)
    (ht : u.tier.cells = s.tier.cells) (hh : u.host = s.host) (hp : u.peers = s.peers) : u.Sound :=
  memoryWf_same h hd ht hh hp

/-- A state with another's memories. -/
theorem State.Sound.same {s u : State} (h : s.Sound) (hu : u.memories = s.memories) : u.Sound := by
  simp only [State.memories, Prod.mk.injEq] at hu
  obtain ⟨hd, ht, hh, hp⟩ := hu
  exact h.of_cells hd ht hh hp

theorem State.Acts.sound {s u : State} (h : s.Acts u) (hs : s.Sound) : u.Sound := h.wf hs

theorem State.Walks.sound {s u : State} (h : s.Walks u) (hs : s.Sound) : u.Sound := h.acts.sound hs

/-- A state with another device memory in canonical form. -/
theorem State.Sound.device {s : State} (h : s.Sound) {r : Ram}
    (hr : Memory.wf s.device.cells = true → Memory.wf r.cells = true) : State.Sound { s with device := r } :=
  (device_acts hr).sound h

theorem State.Sound.tier {s : State} (h : s.Sound) {r : Ram}
    (hr : Memory.wf s.tier.cells = true → Memory.wf r.cells = true) : State.Sound { s with tier := r } :=
  (tier_acts hr).sound h

theorem State.Sound.writeHost {s : State} (h : s.Sound) (a : Nat) (bs : List Byte) :
    State.Sound { s with host := cellsWrite s.host a bs } := by
  obtain ⟨hd, ht, hh, hp⟩ := memoryWf_parts h
  exact memoryWf_of hd ht (cellsWrite_wf a bs hh) hp

/-- A fold of steps that keep a state sound. -/
theorem foldl_sound {α : Type} {f : State → α → State} (hf : ∀ (s : State) a, s.Sound → (f s a).Sound) (l : List α) {s : State}
    (h : s.Sound) : (l.foldl f s).Sound := by
  induction l generalizing s with
  | nil => exact h
  | cons a l ih => exact ih (hf s a h)

section
variable {s : State} (h : s.Sound)
include h

theorem mapCtx_sound (c : Nat) (f : Ctx → Ctx) : (s.mapCtx c f).Sound := h.same rfl
theorem mapLaunch_sound (i : Nat) (f : Launch → Launch) : (s.mapLaunch i f).Sound := h.same rfl
theorem mapGang_sound (i : Nat) (f : Gang → Gang) : (s.mapGang i f).Sound := h.same rfl
theorem mapSpan_sound (i : Nat) (f : Span → Span) : (s.mapSpan i f).Sound := h.same rfl
theorem mapProg_sound (i : Nat) (f : Prog → Prog) : (s.mapProg i f).Sound := h.same rfl
theorem setStrip_sound (g : Nat) (t : Strip) : (s.setStrip g t).Sound := h.same rfl
theorem mapStrip_sound (g i : Nat) (f : Strip → Strip) : (s.mapStrip g i f).Sound := h.same rfl
theorem bump_sound (n : Nat) : (s.bump n).Sound := h.same rfl

theorem logError_sound (c kind code : Nat) (addr : DWord) (slot : Option Nat) : (logError s c kind code addr slot).Sound :=
  (logError_acts ..).sound h

theorem slotActs_sound (c : Nat) (acts : List SlotAct) : (slotActs s c acts).Sound := (slotActs_acts ..).sound h

/-! Launches and contexts that end. -/

theorem State.Ends.sound {u : State} (hu : s.Ends u) : u.Sound := hu.acts.sound (h.same rfl)

theorem stopLaunch_sound (l : Launch) (st : NodeState) (code : Nat) : (stopLaunch s l st code).Sound :=
  State.Ends.sound h (stopLaunch_ends ..)

theorem fatalCtx_sound (c : Nat) (r : FatalReport) (slot : Option Nat) : (fatalCtx s c r slot).Sound := by
  obtain ⟨v, hv, hu⟩ := fatalCtx_ends s c r slot
  exact State.Ends.sound (State.Sound.same (s := v) (u := v.halted c r) (hv.sound h) rfl) hu

theorem putRecord_sound (c : Nat) (rcd at_ : DWord) (bs : List Byte) (slot : Option Nat) (acct : Nat) :
    (putRecord s c rcd at_ bs slot acct).Sound := (putRecord_acts ..).sound h

theorem writeState_sound (c : Nat) (addr : DWord) (st : NodeState) (code : Nat) (slot : Option Nat) (acct : Nat) :
    (writeState s c addr st code slot acct).Sound := putRecord_sound h ..

theorem nfwReport_sound (launch : Nat) (nonfinite : Bool) : (nfwReport s launch nonfinite).Sound := by
  unfold nfwReport
  split
  · dsimp only
    split
    · exact slotActs_sound (putRecord_sound (mapLaunch_sound h ..) ..) ..
    · exact h
  · exact h

/-! Strips that stop or retire. -/

theorem haltStrip_sound (g : Gang) (t : Strip) (p : TrapInfo) (inner : Nat) : (haltStrip s g t p inner).Sound :=
  fatalCtx_sound (setStrip_sound h ..) ..

theorem vectorWith_sound (g : Gang) (t : Strip) (hdr : Header) (p : TrapInfo) : (vectorWith s g t hdr p).Sound := by
  unfold vectorWith
  dsimp only
  split
  · exact haltStrip_sound h ..
  · split
    · exact haltStrip_sound h ..
    · exact setStrip_sound h ..

theorem stopStrip_sound (g : Gang) (t : Strip) (hdr : Header) (own : Option TrapInfo) (epc : DWord) :
    (stopStrip s g t hdr own epc).Sound := by
  unfold stopStrip
  split
  · exact vectorWith_sound h ..
  · exact h

theorem regionEnd_sound (g : Gang) (t : Strip) (hdr : Header) : (regionEnd s g t hdr).Sound := by
  unfold regionEnd
  split
  · exact setStrip_sound h ..
  · split
    · exact stopStrip_sound h ..
    · exact setStrip_sound h ..

theorem finishIssue_sound (g : Gang) (t : Strip) (hdr : Header) (sstep ends : Bool) :
    (finishIssue s g t hdr sstep ends).Sound := by
  unfold finishIssue
  dsimp only
  split
  · exact regionEnd_sound h ..
  · exact setStrip_sound h ..

theorem retireGang_sound (id : Nat) : (retireGang s id).Sound := by
  unfold retireGang
  split
  · exact h
  · dsimp only
    split
    · refine State.Sound.same (foldl_sound (fun s p hs => ?_) _ h) rfl
      split
      · exact logError_sound hs ..
      · exact hs
    · exact h

theorem dealOut_sound (p : Span) : (dealOut s p).Sound := by
  unfold dealOut
  split
  · exact h
  · refine foldl_sound (fun s _ hs => ?_) _ ?_
    · exact hs.same rfl
    · exact h.same rfl

end

/-! Words that issue. -/

/-- Every state of an answer is sound. -/
def Done.Sound : Done → Prop
  | .next s _ | .moved s _ | .after s _ _ | .waits s _ _ | .gone s => s.Sound
  | .trap _ => True

/-- Whether the next state of a step is sound, where there is one. -/
def OutSound : Out → Prop
  | .next u => u.Sound
  | _ => True

/-- The own part of a word keeps a state sound. -/
def BodySound (body : Seat → Done) : Prop := ∀ w : Seat, w.s.Sound → (body w).Sound

theorem done_sound {w : Seat} (h : w.s.Sound) (r : Do Frame) : (w.done r).Sound := by
  unfold Seat.done
  split
  · exact h
  · exact trivial
  · exact trivial

theorem Done.of_sound {r : Except TrapInfo Done} (h : ∀ d, r = .ok d → d.Sound) : (Done.of r).Sound := by
  cases r with
  | ok d => exact h d rfl
  | error p => exact trivial

theorem settle_sound {w : Seat} (hw : w.s.Sound) (i : Instr) {f : Form} {d : Done} (hd : d.Sound) : (settle w i f d).Sound := by
  unfold settle
  cases d with
  | next u t =>
    dsimp only
    split
    · exact stopStrip_sound hw ..
    · exact finishIssue_sound hd ..
  | moved u t =>
    dsimp only
    split
    · exact stopStrip_sound hw ..
    · exact finishIssue_sound hd ..
  | trap p => exact stopStrip_sound hw ..
  | after u t p => exact vectorWith_sound hd ..
  | waits u t r => exact setStrip_sound hd ..
  | gone u => exact hd

section
variable {s : State} (h : s.Sound)
include h

theorem seatOf_sound (g : Gang) (t : Strip) (l : Launch) (x : Ctx) (gd : Guard) (f : Form) (i : Instr) :
    (seatOf s g t l x gd f i).s.Sound := by
  show State.Sound (if _ then s else s.bump 262144)
  split
  · exact h
  · exact bump_sound h _

theorem issueIn_sound (g : Gang) (t : Strip) (l : Launch) (x : Ctx) (i : Instr) (spots : Seat → List (Nat × Nat))
    {body : Seat → Done} (hb : BodySound body) : (issueIn s g t l x i spots body).Sound := by
  have hseat := seatOf_sound h g t l x
  unfold issueIn
  dsimp only
  split
  · exact stopStrip_sound h ..
  · split
    · exact stopStrip_sound h ..
    · split
      · exact stopStrip_sound h ..
      · split
        · exact finishIssue_sound h ..
        · split
          · exact setStrip_sound h ..
          · split
            · exact setStrip_sound h ..
            · exact settle_sound (hseat ..) _ (hb _ (hseat ..))

theorem issueStrip_sound (gid k : Nat) (i : Instr) (spots : Seat → List (Nat × Nat)) {body : Seat → Done}
    (hb : BodySound body) : (issueStrip s gid k i spots body).Sound := by
  unfold issueStrip
  split
  · exact h
  · split
    · split
      · exact issueIn_sound h _ _ _ _ _ _ hb
      · exact h
    · exact h

theorem issueSpan_sound (n : Nat) (i : Instr) (symbolic : Option (Info → Frame → Do Frame)) :
    (issueSpan s n i symbolic).Sound := by
  unfold issueSpan
  split
  · exact h
  · split
    · split
      · exact h
      · dsimp only
        split
        · split
          · exact dealOut_sound h _
          · exact mapSpan_sound h ..
        · exact dealOut_sound h _
        · split
          · exact mapSpan_sound h ..
          · exact dealOut_sound h _
        · exact dealOut_sound h _
    · exact h

theorem stopProg_sound (n sub : Nat) (addr : DWord) : (stopProg s n sub addr).Sound := by
  unfold stopProg
  split
  · exact h
  · exact retireGang_sound (mapProg_sound h ..) _

theorem foreignWord_sound (n : Nat) (i : Instr) : (foreignWord s n i).Sound := by
  unfold foreignWord
  split
  · split
    · exact stopProg_sound h ..
    · exact h
  · exact h

theorem runMem_sound (i : Instr) (spots : Seat → List (Nat × Nat)) {body : Seat → Done} (hb : BodySound body) :
    OutSound (runMem i spots body s) := by
  unfold runMem
  split
  · exact trivial
  · exact issueStrip_sound h _ _ _ _ hb
  · exact issueSpan_sound h ..
  · exact foreignWord_sound h ..

theorem runStrip_sound (i : Instr) {body : Seat → Done} (hb : BodySound body) : OutSound (runStrip i body s) :=
  runMem_sound h i _ hb

theorem runAlu_sound (i : Instr) (f : Info → Frame → Do Frame) : OutSound (runAlu i f s) := by
  unfold runAlu
  split
  · exact trivial
  · exact issueStrip_sound h _ _ _ _ fun w hw => done_sound hw _
  · exact issueSpan_sound h ..
  · exact foreignWord_sound h ..

theorem runBoth_sound (i : Instr) {inSpan : State → Nat → State} (hs : ∀ n, (inSpan s n).Sound) {body : Seat → Done}
    (hb : BodySound body) : OutSound (runBoth i inSpan body s) := by
  unfold runBoth
  split
  · exact trivial
  · exact issueStrip_sound h _ _ _ _ hb
  · exact hs _
  · exact foreignWord_sound h ..

theorem runEngine_sound (i : Instr) {body : State → Prog → State} (hb : ∀ p, (body s p).Sound) :
    OutSound (runEngine i body s) := by
  unfold runEngine
  split
  · exact trivial
  · exact issueStrip_sound h _ _ _ _ fun _ _ => trivial
  · exact issueSpan_sound h ..
  · show State.Sound _
    split
    · split
      · exact hb _
      · exact h
    · exact h

end

end Sys2Proof.Machine
end

section
/-! Every memory stays in canonical form (log 2): accesses at their home, and what follows from them. -/

namespace Sys2Proof.Machine

/-! Counts and accumulations of the twin (R223 to R228). -/

/-- What a store puts into one of its segments. -/
def depositOne (s : State) (c : Nat) (bench : Option Nat) (entry : Option DWord) (skip : List Nat) (g : Seg)
    (bs : List Byte) : State × Bool :=
  if leafTwin g.leaf then
    match g.tgt with
    | .device pa =>
      if tdiRefuses s c pa g.len then (s, false)
      else accumulateAll (twinEnt g.leaf) ((entry.map Ent.of).getD (twinEnt g.leaf)) g.len s pa bs
    | _ => (s, false)
  else (writeSegBy (noteWrote c bs s) c bench g (keptBytes s c skip g bs), false)

section
variable {s : State} (h : s.Sound)
include h

theorem setCount_sound (key st n : Nat) : (setCount s key st n).Sound :=
  h.device fun hd => cellsWrite_wf key _ hd

theorem addUses_sound (key n : Nat) : (addUses s key n).Sound := by
  unfold addUses
  split <;> exact setCount_sound h ..

theorem subUses_sound (key k : Nat) : (subUses s key k).Sound := by
  unfold subUses
  split <;> exact setCount_sound h ..

theorem consume_sound (b : TwinBlock) : (consume s b).Sound := by
  unfold consume
  split
  · exact setCount_sound (h.device fun hd => Ram.write_wf _ _ hd) ..
  · exact h

theorem countReads_sound (c : Nat) (once : Bool) (ps : List Plan) : (countReads s c once ps).Sound :=
  foldl_sound (fun _ a hs => addUses_sound hs a.1 a.2) _ h

theorem accumulate_sound (twf f : Ent) (pa : Nat) (code : List Byte) : (accumulate s twf f pa code).1.Sound :=
  h.device fun hd => Ram.write_wf _ _ hd

theorem accumulateAll_sound (twf f : Ent) (fuel pa : Nat) (bs : List Byte) : (accumulateAll twf f fuel s pa bs).1.Sound := by
  induction fuel generalizing s pa bs with
  | zero => exact h
  | succ fuel ih =>
    rw [accumulateAll]
    split
    · exact h
    · exact ih (accumulate_sound h ..) _ _

theorem noteWrote_sound (c : Nat) (bs : List Byte) : (noteWrote c bs s).Sound := (noteWrote_acts c bs s).sound h

theorem depositOne_sound (c : Nat) (bench : Option Nat) (entry : Option DWord) (skip : List Nat) (g : Seg) (bs : List Byte) :
    (depositOne s c bench entry skip g bs).1.Sound := by
  unfold depositOne
  split
  · split
    · split
      · exact h
      · exact accumulateAll_sound h ..
    · exact h
  · exact (writeSegBy_acts ..).sound (noteWrote_sound h ..)

theorem depositSegs_sound (c : Nat) (bench : Option Nat) (entry : Option DWord) (skip : List Nat) (gs : List Seg)
    (bs : List Byte) : (depositSegs s c bench entry skip gs bs).1.Sound := by
  induction gs generalizing s bs with
  | nil => exact h
  | cons g r ih => exact ih (depositOne_sound h c bench entry skip g _) _

theorem unpoisonBy_sound (c : Nat) (ps : List Plan) : (unpoisonBy s c ps).Sound := (unpoisonBy_acts s c ps).sound h

theorem discardLines_sound (ps : List Plan) : (discardLines s ps).Sound := by
  refine foldl_sound (fun s n hs => ?_) _ (foldl_sound (fun s n hs => ?_) _ h)
  · exact State.Sound.same (hs.tier fun ht => Ram.discard_wf n s.tick ht) rfl
  · exact State.Sound.same (hs.device fun hd => Ram.discard_wf n s.tick hd) rfl

theorem recallSegs_sound (bench : Option Nat) (gs : List Seg) : (recallSegs bench gs s).Sound := (recallSegs_acts ..).sound h

theorem writeSegs_sound (c : Nat) (gs : List Seg) (bs : List Byte) : (writeSegs s c gs bs).Sound :=
  (writeSegs_acts ..).sound h

theorem planAll_sound (c : Nat) (need : Need) (priv wr : Bool) (reqs : List LaneReq) :
    (planAll s c need priv wr reqs).2.Sound :=
  (planAll_walks ..).sound h

/-! Accesses of strips. -/

omit h in
/-- A fold that carries a state and something else. -/
theorem foldl_fst_sound {α β : Type} {f : State × β → α → State × β}
    (hf : ∀ (s : State) b a, s.Sound → (f (s, b) a).1.Sound) (l : List α) (b : β) (hs : s.Sound) :
    (l.foldl f (s, b)).1.Sound := by
  induction l generalizing s b with
  | nil => exact hs
  | cons a l ih => exact ih _ (hf s b a hs)

theorem performLoad_sound (c : Nat) (a : Access) (whole once : Bool) : (performLoad s c a whole once).2.Sound := by
  have hplan := planAll_sound h c .read a.priv false a.lanes
  unfold performLoad
  generalize planAll s c .read a.priv false a.lanes = x at hplan ⊢
  obtain ⟨ps, u⟩ := x
  dsimp only at hplan ⊢
  generalize wholeIf whole _ = qs
  have hcounted : (if a.counts = true then countReads u c once qs else u).Sound := by
    split
    · exact countReads_sound hplan ..
    · exact hplan
  have hrecalled := recallSegs_sound (foldl_sound (fun s b hs => consume_sound hs b) (nub (blocksTouched
    (if a.counts = true then countReads u c once qs else u) qs) []) hcounted) a.bench
    (performedOf qs (Plan.read u c) false false).segs
  split
  · exact discardLines_sound hrecalled _
  · exact hrecalled

theorem subAll_sound (uses : List (Nat × Nat)) : (uses.foldl (fun s (k, n) => subUses s k n) s).Sound :=
  foldl_sound (fun _ ⟨k, n⟩ hs => subUses_sound hs k n) _ h

theorem depositAll_sound (c : Nat) (a : Access) (ps : List Plan) :
    (ps.foldl (fun (s, nf) (p : Plan) =>
      let (s, b) := depositSegs s c a.bench a.entry p.req.skip p.segs p.req.data
      (s, nf || b)) (s, false)).1.Sound :=
  foldl_fst_sound (fun _ _ _ hs => depositSegs_sound hs ..) _ _ h

theorem performStore_sound (c : Nat) (a : Access) (whole once : Bool) : (performStore s c a whole once).2.Sound := by
  have hplan := planAll_sound h c .write a.priv true a.lanes
  unfold performStore
  generalize planAll s c .write a.priv true a.lanes = x at hplan ⊢
  obtain ⟨ps, u⟩ := x
  dsimp only at hplan ⊢
  generalize wholeIf whole _ = qs
  have hused := subAll_sound hplan (usesOf once (touchesOf (Plan.writtenKeys u c) qs))
  generalize List.foldl _ u _ = v at hused ⊢
  have hstored := depositAll_sound hused c a (qs.filter Plan.ok)
  generalize List.foldl _ (v, false) _ = y at hstored ⊢
  exact unpoisonBy_sound hstored ..

theorem atomicLane_sound (c : Nat) (a : Access) (p : Plan) : (atomicLane s c a p).2.2.Sound := by
  unfold atomicLane
  dsimp only
  split
  · split
    · exact writeSegs_sound h ..
    · exact h
  · exact writeSegs_sound h ..

theorem atomicLanes_sound (c : Nat) (a : Access) (ps : List Plan) : (atomicLanes c a ps s).2.2.Sound := by
  induction ps generalizing s with
  | nil => exact h
  | cons p r ih =>
    rw [atomicLanes]
    split
    · exact ih (atomicLane_sound h c a p)
    · exact ih h

theorem performAtomic_sound (c : Nat) (a : Access) : (performAtomic s c a).2.Sound := by
  have hplan := planAll_sound h c .both a.priv true a.lanes
  unfold performAtomic
  generalize planAll s c .both a.priv true a.lanes = x at hplan ⊢
  obtain ⟨ps, u⟩ := x
  refine recallSegs_sound (atomicLanes_sound ?_ ..) ..
  split
  · exact countReads_sound hplan ..
  · exact hplan

theorem performAccess_sound (c : Nat) (a : Access) : (performAccess s c a).2.Sound := by
  unfold performAccess
  split
  · exact performLoad_sound h ..
  · exact performLoad_sound h ..
  · exact performLoad_sound h ..
  · exact performStore_sound h ..
  · exact performStore_sound h ..
  · exact performStore_sound h ..
  · exact performStore_sound h ..
  · exact performAtomic_sound h ..
  · exact performAtomic_sound h ..

end

end Sys2Proof.Machine
end

section
/-! Every memory stays in canonical form (log 2): the own parts of words of a strip, from its accesses to its barriers. -/

namespace Sys2Proof.Machine

/-- A part that may trap and otherwise answers keeps a state sound. -/
def PartSound (r : Except TrapInfo Done) : Prop := ∀ d, r = .ok d → d.Sound

theorem PartSound.of {r : Except TrapInfo Done} (h : PartSound r) : (Done.of r).Sound := Done.of_sound h

theorem PartSound.ok {d : Done} (h : d.Sound) : PartSound (.ok d) := fun _ he => Except.ok.inj he ▸ h

theorem PartSound.error (p : TrapInfo) : PartSound (.error p) := fun _ he => by cases he

theorem PartSound.bind {α : Type} {x : Except TrapInfo α} {f : α → Except TrapInfo Done} (h :
    ∀ a, x = .ok a → PartSound (f a)) :
    PartSound (x >>= f) := by
  cases x with
  | error p => exact .error p
  | ok a => exact h a rfl

section
variable {s : State} (h : s.Sound)
include h

theorem chargeFabric_sound (acct n : Nat) : (chargeFabric s acct n).Sound := (chargeFabric_acts s acct n).sound h

theorem chargeDram_sound (acct : Nat) (wr : Bool) (gs : List Seg) : (chargeDram acct wr gs s).Sound :=
  (chargeDram_acts ..).sound h

theorem readDone_sound (g : Gang) (p : Plan) : (readDone s g p).Sound := by
  unfold readDone
  split
  · exact recallSegs_sound (chargeDram_sound (chargeFabric_sound h ..) ..) ..
  · exact h

theorem planReq_sound (c : Nat) (need : Need) (priv wr : Bool) (req : LaneReq) : (planReq s c need priv wr req).2.Sound :=
  (planReq_walks ..).sound h

/-! Accesses of a strip. -/

theorem takeAccess_sound (g : Gang) (t : Strip) (a : Access) : (takeAccess s g t a).1.Sound := by
  have hp := performAccess_sound h g.ctx { a with bench := g.place.map (·.bench) }
  unfold takeAccess
  dsimp only
  generalize performAccess s g.ctx _ = x at hp ⊢
  obtain ⟨p, u⟩ := x
  exact chargeDram_sound (chargeFabric_sound (nfwReport_sound hp ..) ..) ..

theorem takeRestore_sound (fuel : Nat) (g : Gang) (t : Strip) (a : Access) : (takeRestore fuel s g t a).1.Sound := by
  induction fuel generalizing s t a with
  | zero => exact h
  | succ fuel ih =>
    have hp := performAccess_sound h g.ctx { a with bench := g.place.map (·.bench) }
    rw [takeRestore]
    generalize performAccess s g.ctx _ = x at hp ⊢
    obtain ⟨p, u⟩ := x
    have hcharged := chargeDram_sound (chargeFabric_sound hp (acctOf u g.launch) p.peerBytes) (acctOf u g.launch) false p.segs
    dsimp only
    split
    · split
      · split
        · exact ih hcharged _ _
        · exact hcharged
      · exact hcharged
    · exact hcharged

theorem takeAny_sound (g : Gang) (t : Strip) (a : Access) : (takeAny s g t a).1.Sound := by
  unfold takeAny
  split
  · exact takeRestore_sound h ..
  · exact takeAccess_sound h ..

theorem takeList_sound (late : Access → Bool) (g : Gang) (t : Strip) (l : List Access) : (takeList late s g t l).1.Sound := by
  refine foldl_fst_sound (fun s ⟨t, bad⟩ a hs => ?_) l (t, []) h
  dsimp only
  split
  · exact hs
  · exact takeAny_sound hs ..

theorem afterList_sound (g : Gang) (t : Strip) (hdr : Header) (bad : List Access) : (afterList s g t hdr bad).Sound := by
  unfold afterList
  dsimp only
  split
  · exact vectorWith_sound h ..
  · split
    · exact regionEnd_sound h ..
    · exact setStrip_sound h ..

theorem accessAndGo_sound (g : Gang) (t : Strip) (hdr : Header) (a : Access) : (accessAndGo s g t hdr a).Sound := by
  have hl := takeList_sound h (fun _ => false) g { t with seq := t.seq + 1 } [a]
  unfold accessAndGo
  generalize takeList (fun _ => false) s g _ [a] = x at hl ⊢
  obtain ⟨u, t, bad⟩ := x
  exact afterList_sound hl ..

omit h in
theorem access_sound {w : Seat} (h : w.s.Sound) (fr : Frame) (a : Access) : (w.access fr a).Sound := by
  have ht := takeAccess_sound h w.g { w.t.withFrame fr with seq := w.t.seq + 1, replay := [] } { a with pos := w.t.seq }
  unfold Seat.access
  dsimp only
  generalize takeAccess w.s w.g _ _ = x at ht ⊢
  obtain ⟨u, t, faulted⟩ := x
  dsimp only
  split
  · exact ht
  · split
    · split
      · exact ht
      · exact ht
    · exact ht

/-! Barriers. -/

omit h in
theorem barSync_sound (n size : Nat) : BodySound (barSyncBody n size) := by
  intro w hw
  unfold barSyncBody
  dsimp only
  split
  · split
    · exact setStrip_sound hw ..
    · exact hw
  · split
    · exact hw
    · exact setStrip_sound (mapGang_sound hw ..) ..

omit h in
theorem barArrive_sound (n : Nat) : BodySound (barArriveBody n) := by
  intro w hw
  unfold barArriveBody
  split
  · exact hw
  · exact mapGang_sound hw ..

omit h in
theorem barWait_sound (n size : Nat) : BodySound (barWaitBody n size) := by
  intro w hw
  unfold barWaitBody
  dsimp only
  split
  · exact setStrip_sound hw ..
  · exact hw

theorem wakeAt_sound (hdr : Header) (g : Gang) (n : Nat) (t : Strip) : (wakeAt hdr g n s t).Sound := by
  unfold wakeAt
  split
  · split
    · exact finishIssue_sound h ..
    · exact h
  · split
    · exact setStrip_sound h ..
    · exact h
  · exact h

theorem completePhase_sound (g : Gang) (l : Launch) (n : Nat) : (completePhase s g l n).Sound := by
  unfold completePhase
  dsimp only
  split
  · exact h
  · exact foldl_sound (fun _ t hs => wakeAt_sound hs l.hdr g n t) _ (mapGang_sound h ..)

/-! WAIT and the fences. -/

omit h in
theorem wait_sound (c : WaitCond) (v : WAddr2) : BodySound (waitBody c v) := by
  intro w hw
  refine PartSound.of (.bind fun a _ => .bind fun b _ => .bind fun _ _ => .bind fun _ _ => ?_)
  have hp := planReq_sound hw w.g.ctx .read w.t.priv false (laneReq 0 a 4 [] [])
  dsimp only
  generalize planReq w.s w.g.ctx .read w.t.priv false (laneReq 0 a 4 [] []) = x at hp ⊢
  obtain ⟨p, u⟩ := x
  refine .bind fun _ _ => ?_
  dsimp only
  split
  · exact .ok (readDone_sound hp ..)
  · exact .ok (readDone_sound hp ..)

omit h in
theorem fence_sound (v : WFence) : BodySound (fenceBody v) := by
  intro w hw
  unfold fenceBody
  split <;> exact hw

omit h in
theorem tfence_sound : BodySound tfenceBody := by
  intro w hw
  unfold tfenceBody
  dsimp only
  split
  · exact trivial
  · exact hw

/-! The recompute barrier. -/

omit h in
theorem recomputeBody_sound (op : RecOp) (a : DWord) (size : Nat) : BodySound (recomputeBody op a size) := by
  intro w hw
  unfold recomputeBody
  dsimp only
  split
  · exact setStrip_sound hw ..
  · split
    · exact hw
    · exact setStrip_sound (mapGang_sound hw ..) ..

omit h in
theorem slotBody_sound (op : RecOp) (v : WAddr) (size : Nat) : BodySound (slotBody op v size) := fun w hw =>
  PartSound.of (.bind fun a _ => .bind fun _ _ => .bind fun _ _ => .ok (recomputeBody_sound op a size w hw))

theorem recomputeStrip_sound (hdr : Header) (g : Gang) (op : RecOp) (a : DWord) (t : Strip) :
    (recomputeStrip hdr g op a s t).Sound := by
  unfold recomputeStrip
  split
  · dsimp only
    split
    · exact accessAndGo_sound h ..
    · exact accessAndGo_sound h ..
    · exact finishIssue_sound h ..
  · exact h

theorem completeRecompute_sound (g : Gang) (l : Launch) : (completeRecompute s g l).Sound := by
  unfold completeRecompute
  dsimp only
  split
  · exact h
  · split
    · exact h
    · split
      · refine foldl_sound (fun s t hs => ?_) _ (mapGang_sound h ..)
        split
        · exact hs
        · exact stopStrip_sound (setStrip_sound hs ..) ..
      · exact foldl_sound (fun _ t hs => recomputeStrip_sound hs l.hdr g _ _ t) _ (mapGang_sound (mapGang_sound h ..) ..)

end

end Sys2Proof.Machine
end

section
/-! Every memory stays in canonical form (log 2): the own parts of queue, engine, memory and tile words of a strip. -/

namespace Sys2Proof.Machine

/-! Queues, LAUNCH and engine programs. -/

theorem qput_sound (d stage : BitVec 6) : BodySound (qputBody d stage) := by
  intro w hw
  refine PartSound.of (.bind fun _ _ => .bind fun _ _ => .bind fun _ _ => ?_)
  split
  · split
    · exact .ok hw
    · exact .ok (mapLaunch_sound hw ..)
  · exact .ok hw

theorem qget_sound (d : BitVec 6) : BodySound (qgetBody d) := by
  intro w hw
  refine PartSound.of (.bind fun _ _ => ?_)
  split
  · split
    · exact .bind fun _ _ => .ok hw
    · split
      · exact .bind fun _ _ => .ok (mapLaunch_sound hw ..)
      · exact .ok hw
  · exact .ok hw

/-! Nodes that are submitted. -/

section
variable {s : State} (h : s.Sound)
include h

theorem cpRead_sound (asked : Asked) (part : Nat) (acct : List Byte → Nat) (c : Nat) (va : DWord) (n : Nat) :
    (cpRead asked part acct s c va n).2.Sound := (cpRead_acts ..).sound h

theorem readSuccs_sound (asked : Asked) (acct c : Nat) (b : List Byte) : (readSuccs asked acct s c b).2.Sound := by
  have hread := cpRead_sound h asked 2 (fun _ => acct) c (dwordOf ((b.drop 0x18).take 8)) (4 * ofBytes ((b.drop 0x40).take 2))
  unfold readSuccs
  dsimp only
  split
  · exact h
  · split
    · exact h
    · split <;> rename_i heq <;> rw [heq] at hread <;> exact hread

theorem failUnslotted_sound (c : Nat) (addr : DWord) (r : NodeRec) (code : Nat) : (failUnslotted s c addr r code).Sound :=
  slotActs_sound (writeState_sound h ..) ..

theorem submitWith_sound (c : Nat) (addr : DWord) (b : List Byte) (r : NodeRec) (succs : Option (List Nat)) :
    (submitWith s c addr b r succs).Sound := by
  unfold submitWith
  split
  · exact failUnslotted_sound h ..
  · dsimp only
    split
    · exact failUnslotted_sound h ..
    · split
      · exact h
      · split
        · exact failUnslotted_sound h ..
        · exact slotActs_sound (writeState_sound (mapCtx_sound h ..) ..) ..

theorem submitRead_sound {asked : Asked} {c : Nat} {addr : DWord} {b : List Byte} {acct : Option Nat} {u : State}
    (hu : submitRead asked s c addr b acct = .got u) : u.Sound := by
  have hread := readSuccs_sound h asked (acct.getD (recordOf b).acct) c b
  unfold submitRead at hu
  dsimp only at hu
  split at hu <;> rename_i heq <;> rw [heq] at hread
  · cases hu
    exact submitWith_sound hread ..
  · cases hu
    exact submitWith_sound hread ..
  · cases hu

end

theorem launch_sound (v : WAddr) : BodySound (launchBody v) := by
  intro w hw
  refine PartSound.of (.bind fun a _ => .bind fun _ _ => .bind fun _ _ => ?_)
  split
  · exact .ok hw
  · have hp := planReq_sound hw w.g.ctx .read w.t.priv false (laneReq 0 a 80 [] [])
    dsimp only
    generalize planReq w.s w.g.ctx .read w.t.priv false (laneReq 0 a 80 [] []) = x at hp ⊢
    obtain ⟨p, u⟩ := x
    refine .bind fun _ _ => ?_
    split
    · exact .ok hp
    · split
      · next hgot => exact .ok (mapCtx_sound (submitRead_sound (readDone_sound hp ..) hgot) ..)
      · exact .ok hp

theorem fork_sound (v : WFork) : BodySound (forkBody v) := by
  intro w hw
  refine PartSound.of (.bind fun _ _ => ?_)
  dsimp only
  split
  · exact .bind fun _ _ => .ok (hw.same rfl)
  · exact .ok hw

theorem rdv_sound (v : WSrc) : BodySound (rdvBody v) := by
  intro w hw
  refine PartSound.of (.bind fun _ _ => ?_)
  dsimp only
  split
  · exact .ok hw
  · split
    · exact .error _
    · split
      · exact .ok hw
      · split
        · exact .ok hw
        · split
          · split
            · exact .ok (mapGang_sound hw ..)
            · exact .ok (mapGang_sound hw ..)
          · exact .ok (mapGang_sound hw ..)

/-! Memory words. -/

theorem load_sound (v : WMem) (g : Bool) : BodySound (loadBody v g) := by
  intro w hw
  refine PartSound.of (.bind fun _ _ => .bind fun e _ => ?_)
  dsimp only
  split
  · exact .bind fun _ _ => .bind fun _ _ => .ok (access_sound hw ..)
  · exact .bind fun _ _ => .ok (access_sound hw ..)

theorem store_sound (v : WMem) (g : Bool) : BodySound (storeBody v g) := by
  intro w hw
  refine PartSound.of (.bind fun e _ => ?_)
  dsimp only
  cases e with
  | none =>
    split
    · refine .bind fun _ _ => .bind fun _ _ => ?_
      split
      · exact .bind fun _ _ => .bind fun _ _ => .bind fun _ _ => .bind fun _ _ => .ok (access_sound hw ..)
      · exact .bind fun _ _ => .bind fun _ _ => .bind fun _ _ => .ok (access_sound hw ..)
    · exact .bind fun _ _ => .bind fun _ _ => .bind fun _ _ => .ok (access_sound hw ..)
  | some e =>
    split
    · refine .bind fun _ _ => .bind fun _ _ => ?_
      split
      · exact .bind fun _ _ => .bind fun _ _ => .bind fun _ _ => .bind fun _ _ => .ok (access_sound hw ..)
      · exact .bind fun _ _ => .bind fun _ _ => .bind fun _ _ => .ok (access_sound hw ..)
    · exact .bind fun _ _ => .bind fun _ _ => .bind fun _ _ => .ok (access_sound hw ..)

theorem atom_sound (v : WMem) : BodySound (atomBody v) := fun _ hw =>
  PartSound.of (.bind fun _ _ => .bind fun _ _ => .ok (access_sound hw ..))

theorem cas_sound (v : WMem) : BodySound (casBody v) := fun _ hw =>
  PartSound.of (.bind fun _ _ => .bind fun _ _ => .ok (access_sound hw ..))

theorem lds_sound (v : WMem) : BodySound (ldsBody v) := fun _ hw =>
  PartSound.of (.bind fun _ _ => .bind fun _ _ => .ok hw)

theorem sts_sound (v : WMem) : BodySound (stsBody v) := by
  intro w hw
  refine PartSound.of (.bind fun e _ => ?_)
  cases e with
  | none => exact .bind fun _ _ => .ok (noteWrote_sound (mapGang_sound hw ..) ..)
  | some e => exact .bind fun _ _ => .ok (noteWrote_sound (mapGang_sound hw ..) ..)

theorem atoms_sound (v : WMem) : BodySound (atomsBody v) := fun _ hw =>
  PartSound.of (.bind fun _ _ => .bind fun _ _ => .ok (noteWrote_sound (mapGang_sound hw ..) ..))

/-! Tile words. -/

theorem ldt_sound (v : WTile) : BodySound (ldtBody v) := fun _ hw =>
  PartSound.of (.bind fun _ _ => .bind fun _ _ => .bind fun _ _ => .bind fun _ _ => .bind fun _ _ => .bind fun _ _ =>
    .ok (access_sound hw ..))

theorem storeRows_sound {w : Seat} (hw : w.s.Sound) (k : AccKind) (r : BitVec 6) (x : Option XWord) (e : Option DWord)
    (rows : List LaneReq) : (w.storeRows k r x e rows).Sound :=
  access_sound (w := { w with s := w.s.bump (choiceCount rows) }) (bump_sound hw _) ..

theorem stt_sound (v : WTile) : BodySound (sttBody v) := by
  intro w hw
  unfold sttBody
  dsimp only
  refine PartSound.of (.bind fun base _ => .bind fun s _ => .bind fun _ _ => .bind fun _ _ => ?_)
  generalize sttRows v w.fr base (rowStride s) = rows
  exact .ok (storeRows_sound hw ..)

theorem stash_sound (v : WTile) : BodySound (stashBody v) := by
  intro w hw
  unfold stashBody
  dsimp only
  refine PartSound.of (.bind fun e _ => .bind fun a _ => .bind fun b _ => .bind fun c _ => .bind fun _ _ => .bind fun _ _ => ?_)
  generalize stashRows _ _ _ _ _ _ = rows
  exact .ok (storeRows_sound hw ..)

theorem charge_sound {s : State} (h : s.Sound) (acct : Nat) (f : Account → Account) : (charge s acct f).Sound := h.same rfl

theorem mma_sound (v : WMma) (sparse : Bool) : BodySound (mmaBody v sparse) := fun _ hw =>
  PartSound.of (.bind fun _ _ => .bind fun _ _ => .bind fun _ _ => .bind fun _ _ =>
    .ok (charge_sound (mapGang_sound hw ..) ..))

theorem accrd_sound (v : WAcc) (zero : Bool) : BodySound (accrdBody v zero) := by
  intro w hw
  refine PartSound.of (.bind fun _ _ => .bind fun _ _ => .bind fun _ _ => .ok ?_)
  show State.Sound (if _ then _ else _)
  split
  · exact mapGang_sound hw ..
  · exact hw

theorem accwr_sound (v : WAcc) : BodySound (accwrBody v) := fun _ hw =>
  PartSound.of (.bind fun _ _ => .bind fun _ _ => .ok (mapGang_sound hw ..))

theorem accwrZero_sound (acc : Nat) : BodySound (accwrZeroBody acc) := fun _ hw =>
  PartSound.of (.bind fun _ _ => .ok (mapGang_sound hw ..))

end Sys2Proof.Machine
end

section
/-! Every memory stays in canonical form (log 2): engine programs. -/

namespace Sys2Proof.Machine

/-- The state in which a command stops is sound. -/
def Halt.Sound : Halt → Prop
  | .stop s _ _ => s.Sound
  | .wait _ _ _ => True

/-- A part of a command that completes gives what has a property, and one that stops does so in a sound state. -/
def CmdSound {α : Type} (P : α → Prop) : Cmd α → Prop
  | .ok a => P a
  | .error h => h.Sound

theorem Halt.Sound.lower {h : Halt} {o : Option Halt} (hh : h.Sound) (ho : ∀ k, o = some k → k.Sound) : (h.lower o).Sound := by
  unfold Halt.lower
  split
  · split
    · exact ho _ rfl
    · exact hh
  · exact ho _ rfl
  · exact trivial
  · exact hh

namespace CmdSound

variable {α β : Type} {P : α → Prop} {Q : β → Prop}

theorem bind {c : Cmd α} {f : α → Cmd β} (hc : CmdSound P c) (hf : ∀ a, P a → CmdSound Q (f a)) : CmdSound Q (c >>= f) := by
  cases c with
  | ok a => exact hf a hc
  | error h => exact hc

theorem of_eq {c d : Cmd α} (hc : CmdSound P c) (hd : c = d) : CmdSound P d := hd ▸ hc

theorem haltOf {c : Cmd α} (hc : CmdSound P c) : ∀ k, haltOf c = some k → k.Sound := by
  intro k hk
  cases c with
  | ok a => cases hk
  | error h => exact Option.some.inj hk ▸ hc

theorem besides {c : Cmd α} {o : Option Halt} (hc : CmdSound P c) (ho : ∀ k, o = some k → k.Sound) :
    CmdSound P (besides c o) := by
  cases c with
  | ok a => exact hc
  | error h => exact hc.lower ho

end CmdSound

/-- A command of a program keeps a state sound, where it goes on and where it stops. -/
def CommandSound (body : State → Prog → Cmd (State × (Prog → Prog))) : Prop :=
  ∀ s p, s.Sound → CmdSound (fun r => r.1.Sound) (body s p)

section
variable {s : State} (h : s.Sound)
include h

theorem stopIf_sound (bad : Bool) (sub : Nat) (addr : DWord) : CmdSound (fun _ => True) (stopIf s bad sub addr) := by
  unfold stopIf
  split
  · exact h
  · exact trivial

theorem checkAll_sound (addrs : List DWord) (ok : Bool) : CmdSound (fun _ => True) (checkAll s addrs ok) := by
  unfold checkAll
  split
  · exact h
  · exact stopIf_sound h ..

theorem engAccess_sound (p : Prog) (counts rmw : Bool) (seen : List Nat) (reads writes : List LaneReq) (num : Option Nat) :
    CmdSound (fun t => t.s.Sound) (engAccess s p counts rmw seen reads writes num) := by
  have hr := planAll_sound h p.ctx .read p.priv false (reads.map (keptReq p.held))
  unfold engAccess
  dsimp only
  generalize planAll s p.ctx .read p.priv false (reads.map (keptReq p.held)) = x at hr ⊢
  obtain ⟨rp, u⟩ := x
  have hw := planAll_sound (s := u) hr p.ctx .write p.priv true writes
  dsimp only
  generalize planAll u p.ctx .write p.priv true writes = x at hw ⊢
  obtain ⟨wp, v⟩ := x
  dsimp only
  generalize failUses 0x15 true (addOverflows v) _ _ = rp
  generalize usesOf _ _ = uses
  have huses : (uses.foldl (fun s (k, n) => addUses s k n) v).Sound :=
    foldl_sound (fun _ ⟨k, n⟩ hs => addUses_sound hs k n) _ hw
  generalize List.foldl _ v uses = w at huses ⊢
  generalize nub (blocksTouched w _) _ = blocks
  have hused : (blocks.foldl consume w).Sound := foldl_sound (fun _ b hs => consume_sound hs b) _ huses
  generalize List.foldl consume w blocks = x at hused ⊢
  generalize failUses 0x14 true (subUnderflows x) _ _ = wp
  split
  · exact hw
  · split
    · exact hw
    · split
      · exact trivial
      · exact recallSegs_sound (chargeDram_sound (chargeFabric_sound hused ..) ..) ..

theorem engSent_sound (p : Prog) (writes : List Plan) (nonfinite : Bool) : (engSent s p writes nonfinite).Sound := by
  have hsent := chargeDram_sound (chargeFabric_sound (nfwReport_sound (unpoisonBy_sound h p.ctx writes) p.launch nonfinite)
    (acctOf s p.launch) (peerBytesOf writes)) (acctOf s p.launch) true (writes.flatMap (·.segs))
  unfold engSent
  dsimp only
  split
  · exact hsent
  · exact mapProg_sound hsent ..

theorem engPut_sound (p : Prog) (writes : List Plan) (make : State → Plan → Nat → List Byte) :
    (engPut s p writes make).Sound := by
  have hused := subAll_sound h (usesOf true (touchesOf (Plan.writtenKeys s p.ctx) writes))
  unfold engPut
  dsimp only
  generalize List.foldl _ s _ = u at hused ⊢
  have hput := foldl_fst_sound (f := fun ((s, nf) : State × Bool) ((q, i) : Plan × Nat) =>
      let (s, b) := depositSegs s p.ctx none none [] q.segs (make s q i)
      (s, nf || b)) (fun _ _ _ hs => depositSegs_sound hs ..) writes.zipIdx false hused
  exact engSent_sound hput ..

theorem engWrite_sound (p : Prog) (writes : List Plan) (data : List (List Byte)) : (engWrite s p writes data).Sound :=
  engPut_sound h ..

theorem engRows_sound (p : Prog) (writes : List Plan) (rows : List LaneReq) : (engRows s p writes rows).Sound :=
  engWrite_sound (bump_sound h _) ..

theorem engDesc_sound (p : Prog) (counts : Bool) (a : DWord) (n : Nat) :
    CmdSound (fun r => r.2.s.Sound) (engDesc s p counts a n) :=
  (checkAll_sound h ..).bind fun _ _ => (engAccess_sound h ..).bind fun _ ht => ht

theorem runCommand_sound (i : Instr) (cls : EngClass → Bool) (fields : Bool) {body : State → Prog → Cmd (State × (Prog → Prog))}
    (hb : CommandSound body) : OutSound (runCommand i cls fields body s) := by
  unfold runCommand
  refine runEngine_sound h i fun p => ?_
  dsimp only
  split
  · exact stopProg_sound h ..
  · generalize (if (p.status == .running) = true then { p with table := tableOf s p.ctx } else p) = q
    have hq := hb s q h
    split <;> rename_i heq <;> rw [heq] at hq
    · exact mapProg_sound (show State.Sound _ from hq) ..
    · exact stopProg_sound (show State.Sound _ from hq) ..
    · exact mapProg_sound h ..

end

/-! Words of every class (R203). -/

theorem ewait_sound (ea eb cond : BitVec 4) : CommandSound (ewaitBody ea eb cond) := fun s p h =>
  (checkAll_sound h ..).bind fun _ _ => (engAccess_sound h ..).bind fun t ht => by
    split
    · exact ht
    · exact trivial

theorem esig_sound (ea eb : BitVec 4) : CommandSound (esigBody ea eb) := fun s p h =>
  (checkAll_sound h ..).bind fun _ _ => by
    split
    · exact trivial
    · exact (engAccess_sound h ..).bind fun t ht => engWrite_sound (show State.Sound _ from ht) ..

/-! CPY (R204, R205). -/

section
variable {s : State} (h : s.Sound)
include h

theorem copyOne_sound (p : Prog) (k : Copy) (cv : Bool) (t : Taken) (i x : Nat) : (copyOne p k cv t i x s).Sound := by
  unfold copyOne
  dsimp only
  split
  · exact writeSegs_sound h ..
  · exact h

theorem copySignal_sound (p : Prog) (sg ss : Bool) (a : DWord) (v : Word) :
    CmdSound State.Sound (copySignal s p sg ss a v) := by
  unfold copySignal
  split
  · exact h
  · split
    · exact noteWrote_sound (mapGang_sound h ..) ..
    · exact (engAccess_sound h ..).bind fun t ht => engWrite_sound (show State.Sound _ from ht) ..

end

theorem copyMoving_sound (p : Prog) (k : Copy) (cv : Bool) {t : Taken} (ht : t.s.Sound) (rows : List BoxRow) :
    (copyMoving p k cv t rows).Sound :=
  engSent_sound (bump_sound (foldl_sound (fun _ ⟨i, x⟩ hs => copyOne_sound hs p k cv t i x) _ (bump_sound ht _)) _) ..

theorem cpy_sound (dims : BitVec 2) (cv sg ss : Bool) (w : WEng) : CommandSound (cpyBody dims cv sg ss w) := by
  intro s p h
  refine (engDesc_sound h ..).bind fun ⟨b, t⟩ ht => (checkAll_sound (show t.s.Sound from ht) ..).bind fun _ _ => ?_
  refine ((engAccess_sound (show t.s.Sound from ht) ..).besides
    (copySignal_sound (show t.s.Sound from ht) ..).haltOf).bind fun u hu => ?_
  have hcopied (data : List LaneReq) : (if copyOverlaps (copyOf p b) cv u then
      copyMoving p (copyOf p b) cv u (copyRows (copyOf p b)) else engRows u.s p u.writes data).Sound := by
    split
    · exact copyMoving_sound _ _ _ hu _
    · exact engRows_sound hu ..
  exact (copySignal_sound (hcopied _) ..).bind fun v hv => hv

/-! RDST (R206, R207, R231). -/

section
variable {s : State} (h : s.Sound)
include h

theorem readLog_sound (p : Prog) (base : DWord) : CmdSound (fun r => r.2.2.Sound) (readLog s p base) :=
  (engAccess_sound h ..).bind fun _ ht => ht

theorem reduceLog_sound (p : Prog) (seen : List Nat) (k : Reduce) (dst : DWord) (reads : List LaneReq) :
    CmdSound State.Sound (reduceLog s p seen k dst reads) := by
  have htile := (engAccess_sound h p true false seen reads [] none).haltOf
  refine ((readLog_sound h p _).besides htile).bind fun ⟨tail, count, u⟩ hu => ?_
  refine ((stopIf_sound (show u.Sound from hu) ..).besides htile).bind fun _ _ => ?_
  exact (engAccess_sound (show u.Sound from hu) ..).bind fun t ht => engWrite_sound (show t.s.Sound from ht) ..

theorem reduceAdd_sound (p : Prog) (seen : List Nat) (k : Reduce) (dst : DWord) (reads : List LaneReq) :
    CmdSound State.Sound (reduceAdd s p seen k dst reads) :=
  (engAccess_sound h ..).bind fun t ht => engPut_sound (show t.s.Sound from ht) ..

theorem reduceBarrier_sound (p : Prog) (a : DWord) : CmdSound State.Sound (reduceBarrier s p a) :=
  (engAccess_sound h ..).bind fun t ht => engPut_sound (show t.s.Sound from ht) ..

end

theorem rdst_sound (bd : Bool) (w : WEng) : CommandSound (rdstBody bd w) := by
  intro s p h
  unfold rdstBody
  split
  · split
    · exact trivial
    · exact (reduceBarrier_sound h ..).bind fun u hu => hu
  · refine (engDesc_sound h ..).bind fun ⟨b, t⟩ ht => (checkAll_sound (show t.s.Sound from ht) ..).bind fun _ _ => ?_
    refine CmdSound.bind (P := State.Sound) (CmdSound.besides ?_ ?_) fun u hu => ?_
    · split
      · exact reduceLog_sound ht ..
      · exact reduceAdd_sound ht ..
    · split
      · exact (reduceBarrier_sound ht ..).haltOf
      · exact fun _ hk => by cases hk
    · dsimp only
      generalize (if allTwins _ = true then 0 else (reduceOf p b).rnd) = rnd
      split
      · exact hu
      · split
        · exact hu
        · exact (reduceBarrier_sound hu ..).bind fun v hv => hv

/-! MERGE (R208). -/

/-- What MERGE has read of a log leaves a sound state, and so does what its reads stop with. -/
def Folded.Sound (r : Folded) : Prop := r.s.Sound ∧ ∀ k, r.halt = some k → k.Sound

theorem Folded.Sound.halts {r : Folded} (hr : r.Sound) {k : Halt} (hk : k.Sound) : (r.halts k).Sound :=
  ⟨hr.1, fun _ he => Option.some.inj he ▸ hk.lower hr.2⟩

theorem foldLog_sound (p : Prog) (n : Nat) (a : DWord) {r : Folded} (hr : r.Sound) : (foldLog p n a r).Sound := by
  induction n generalizing a r with
  | zero => exact hr
  | succ n ih =>
    have hhead := engAccess_sound hr.1 p false false [] (engReqs [(a, 32)]) [] none
    rw [foldLog]
    split <;> rename_i heq <;> rw [heq] at hhead
    · exact hr.halts hhead
    · rename_i t
      have ht : State.Sound t.s := hhead
      dsimp only
      refine ih _ ?_
      generalize engReqs [(a + 32, _)] = reqs
      have hels := engAccess_sound ht p false false [] reqs [] none
      cases hread : engAccess t.s p false false [] reqs [] none with
      | error k =>
        rw [hread] at hels
        exact Folded.Sound.halts (r := { r with s := t.s }) ⟨ht, hr.2⟩ hels
      | ok u =>
        rw [hread] at hels
        exact ⟨hels, hr.2⟩

theorem merge_sound (ea eb ec : BitVec 4) : CommandSound (mergeBody ea eb ec) := by
  intro s p h
  unfold mergeBody
  refine (engDesc_sound h ..).bind fun ⟨b, t⟩ ht => (checkAll_sound (show t.s.Sound from ht) ..).bind fun _ _ => ?_
  refine (readLog_sound (show t.s.Sound from ht) ..).bind fun ⟨_, count, u⟩ hu => ?_
  dsimp only
  generalize hlog : foldLog p _ _ _ = r
  have hr : r.Sound := hlog ▸ foldLog_sound _ _ _ ⟨hu, fun _ hk => by cases hk⟩
  generalize List.filter _ r.folds = fs
  generalize hfolded : (if fs.length = r.folds.length then r else r.halts (.stop r.s 0x22 0)) = q
  have hq : q.Sound := by
    rw [← hfolded]
    split
    · exact hr
    · exact hr.halts (show Halt.Sound (.stop r.s 0x22 0) from hr.1)
  have hdests := engAccess_sound hq.1 p false true []
  split
  · next k hk => exact (hq.2 k hk).lower (hdests ..).haltOf
  · refine (hdests ..).bind fun v hv => ?_
    show State.Sound (if _ then _ else _)
    split
    · exact engWrite_sound (engPut_sound (bump_sound hv _) ..) ..
    · exact engPut_sound (bump_sound hv _) ..

/-! Collectives (R214, R216). -/

theorem collFinish_sound {s : State} (h : s.Sound) (p : Prog) (l : Launch) (own : CollPeer) (joined : List CollPeer)
    (seen : List Nat) (buf : DWord) : CmdSound (fun r => r.1.Sound) (collFinish s p l own joined seen buf) :=
  (stopIf_sound h ..).bind fun _ _ => (engAccess_sound h ..).bind fun t ht =>
    chargeFabric_sound (engPut_sound (bump_sound (show t.s.Sound from ht) _) ..) ..

theorem coll_sound (i : Instr) (op : CollOp) (red : BitVec 2) (ea eb ec : BitVec 4) :
    CommandSound (collBody i op red ea eb ec) := by
  intro s p h
  unfold collBody
  refine (engDesc_sound h ..).bind fun ⟨b, t⟩ ht => ?_
  dsimp only
  split
  · exact trivial
  · split
    · exact trivial
    · split
      · exact collFinish_sound ht ..
      · exact ht

theorem joinColl_sound {s : State} (h : s.Sound) (n : Nat) (peer : CollPeer) : (joinColl n peer s).Sound := by
  unfold joinColl
  split
  · exact h
  · split
    · split
      · exact h
      · dsimp only
        split
        · exact mapProg_sound h ..
        · split <;> rename_i heq <;> have hc := (collFinish_sound h _ _ _ _ _ _).of_eq heq
          · exact mapProg_sound (show State.Sound _ from hc) ..
          · exact stopProg_sound (show State.Sound _ from hc) ..
          · exact mapProg_sound h ..
    · exact h

/-! Matrix commands (R212, R213). -/

theorem tmma_sound (ovw : Bool) (w : WEng) : CommandSound (tmmaBody ovw w) := by
  intro s p h
  unfold tmmaBody
  refine (engDesc_sound h ..).bind fun ⟨b, t⟩ ht => (checkAll_sound (show t.s.Sound from ht) ..).bind fun _ _ => ?_
  dsimp only
  split
  · exact ht
  · exact (engAccess_sound (show t.s.Sound from ht) ..).bind fun u hu =>
      charge_sound (engRows_sound (show u.s.Sound from hu) ..) ..

theorem smvPlace_sound {s : State} (h : s.Sound) (p : Prog) (ranges : List (DWord × Nat)) :
    CmdSound (fun _ => True) (smvPlace s p ranges) := by
  have hp := planAll_sound h p.ctx .read p.priv false (engReqs ranges)
  unfold smvPlace
  generalize planAll s p.ctx .read p.priv false (engReqs ranges) = x at hp ⊢
  obtain ⟨ps, u⟩ := x
  dsimp only
  split
  · exact hp
  · exact stopIf_sound hp ..

theorem smv_sound (wide : Bool) (w : WEng) : CommandSound (smvBody wide w) := by
  intro s p h
  unfold smvBody
  refine (engDesc_sound h ..).bind fun ⟨b, t⟩ ht => (checkAll_sound (show t.s.Sound from ht) ..).bind fun _ _ => ?_
  refine (smvPlace_sound (show t.s.Sound from ht) ..).bind fun _ _ => ?_
  exact (engAccess_sound (show t.s.Sound from ht) ..).bind fun u hu =>
    charge_sound (engRows_sound (show u.s.Sound from hu) ..) ..

end Sys2Proof.Machine
end

section
/-! Every memory stays in canonical form (log 2): system words and control flow. -/

namespace Sys2Proof.Machine

/-! Caches, translations and page tables. -/

@[simp] theorem writeBacks_cells (lines : List Nat) (r : Ram) : (lines.foldl Ram.writeBack r).cells = r.cells := by
  induction lines generalizing r with
  | nil => rfl
  | cons n lines ih => rw [List.foldl_cons, ih, Ram.writeBack_cells]

section
variable {s : State} (h : s.Sound)
include h

theorem translate_sound (c va : Nat) (need : Need) (priv : Bool) : (translate s c va need priv).2.Sound :=
  (translate_walks ..).sound h

theorem writeBackDevice_sound (line : Nat) : (writeBackDevice line s).Sound := by
  have hback : State.Sound { s with device := s.device.writeBack line } := h.of_cells (Ram.writeBack_cells ..) rfl rfl rfl
  unfold writeBackDevice
  dsimp only
  split
  · exact hback
  · exact hback.same rfl

theorem deviceWrite_sound (c : Nat) (acct : Option Nat) (pa : Nat) (bs : List Byte) : (deviceWrite s c acct pa bs).Sound :=
  (deviceWrite_acts ..).sound h

theorem dropFetch_sound (reach : Nat → Bool) (va len : Nat) : (dropFetch reach va len s).Sound := h.same rfl

theorem flushPart_sound (c : Nat) (priv system : Bool) (p : Nat × Nat) : (flushPart c priv system s p).Sound := by
  have hs := translate_sound h c p.1 .read priv
  unfold flushPart
  generalize translate s c p.1 .read priv = x at hs ⊢
  obtain ⟨r, u⟩ := x
  dsimp only
  split
  · split
    · exact hs
    · split
      · exact foldl_sound (fun _ n hu => writeBackDevice_sound hu n) _ hs
      · exact hs.of_cells (Ram.recall_cells ..) rfl rfl rfl
  · refine hs.tier fun ht => ?_
    split
    · rwa [writeBacks_cells]
    · rwa [Ram.recall_cells]
  · exact hs

theorem harvestPage_sound (c acct : Nat) (root : DWord) (p : Nat × Nat) : (harvestPage c acct root s p).Sound := by
  unfold harvestPage
  split
  · next e l _ =>
    dsimp only
    generalize (if leafTgt e = 0 then s.device else s.tier) = ram
    split
    · split
      · refine deviceWrite_sound ?_ ..
        split
        · exact h.same rfl
        · exact h.same rfl
      · split
        · exact h.same rfl
        · exact h.same rfl
    · exact h
  · exact h

end

theorem icinv_sound (w : WAddr2) : BodySound (icinvBody w) := fun _ hq =>
  PartSound.of (.bind fun _ _ => .bind fun _ _ => .ok (dropFetch_sound hq ..))

theorem cflush_sound (w : WAddr2) : BodySound (cflushBody w) := by
  intro q hq
  refine PartSound.of (.bind fun _ _ => .bind fun _ _ => ?_)
  dsimp only
  split
  · exact .ok hq
  · exact .ok (foldl_sound (fun _ p hs => flushPart_sound hs _ _ _ p) _ hq)

theorem bwset_sound (w : WSrc) (put : Word → Ctx → Ctx) : BodySound (bwsetBody w put) := fun _ hq =>
  PartSound.of (.bind fun _ _ => .bind fun _ _ => .ok (mapCtx_sound hq ..))

theorem bwsetMem_sound (w : WSrc) : BodySound (bwsetMemBody w) := fun q hq => bwset_sound w _ q hq

theorem tret_sound : BodySound tretBody := fun _ hq => setStrip_sound hq ..

theorem rqrel_sound : BodySound rqrelBody := fun q hq =>
  PartSound.of (.bind fun _ _ => .ok (takeList_sound hq (fun _ => false) q.g { q.t with replay := [] } _))

theorem pgmap_sound (level : Nat) (w : WAddr2) : BodySound (pgmapBody level w) := by
  intro q hq
  refine PartSound.of (.bind fun va _ => .bind fun e _ => .bind fun _ _ => ?_)
  split
  · split
    · exact .ok hq
    · exact .ok (noteWrote_sound (deviceWrite_sound hq ..) ..)
  · exact .ok hq

theorem tlbinvOf_sound (n : Named) : BodySound (tlbinvOf n) := by
  intro q hq
  unfold tlbinvOf
  split
  · exact hq
  · exact State.Sound.same hq rfl

theorem tlbinv_sound (w : WAddr) : BodySound (tlbinvBody w) := fun q hq =>
  PartSound.of (.bind fun _ _ => .ok (tlbinvOf_sound _ q hq))

theorem harvest_sound (w : WAddr2) : BodySound (harvestBody w) := fun _ hq =>
  PartSound.of (.bind fun _ _ => .bind fun _ _ => .ok (foldl_sound (fun _ p hs => harvestPage_sound hs _ _ _ p) _ hq))

/-! Control flow of strips. -/

theorem bra_sound (p : BitVec 5) (neg : Bool) (off : BitVec 16) (lit : Option Word) : BodySound (braBody p neg off lit) := by
  intro q hq
  unfold braBody
  dsimp only
  refine PartSound.of ?_
  split
  · exact .ok hq
  · split
    · exact .ok hq
    · cases lit with
      | none => exact .error _
      | some w => exact .bind fun _ _ => .ok hq

theorem join_sound : BodySound joinBody := by
  intro q hq
  unfold joinBody
  dsimp only
  split
  · exact hq
  · split
    · exact hq
    · split
      · exact hq
      · split
        · exact hq
        · exact hq

theorem call_sound (off : BitVec 16) (lit : Option Word) : BodySound (callBody off lit) := fun _ hq =>
  PartSound.of (.bind fun _ _ => .ok hq)

theorem ret_sound : BodySound retBody := by
  intro q hq
  unfold retBody
  dsimp only
  split
  · split
    · exact hq
    · exact trivial
  · exact trivial

theorem jmpi_sound (w : WSrc) : BodySound (jmpiBody w) := fun _ hq =>
  PartSound.of (.bind fun _ _ => .bind fun _ _ => .ok hq)

theorem exit_sound : BodySound exitBody := by
  intro q hq
  refine PartSound.of (.bind fun _ _ => .bind fun _ _ => ?_)
  dsimp only
  split
  · exact .ok (retireGang_sound (setStrip_sound hq ..) _)
  · exact .ok hq

theorem elect_sound : BodySound electBody := fun _ hq => PartSound.of (.bind fun _ _ => .ok hq)

theorem elend_sound : BodySound elendBody := by
  intro q hq
  unfold elendBody
  split
  · exact hq
  · exact trivial

theorem trap_sound (imm : BitVec 10) (lit : Option Word) : BodySound (trapBody imm lit) := fun _ hq => hq

/-! Control flow of spans. -/

section
variable {s : State} (h : s.Sound)
include h

theorem spanTurn_sound (n : Nat) {f : Span → Launch → Ctx → State} (hf : ∀ p l x, (f p l x).Sound) :
    (spanTurn s n f).Sound := by
  unfold spanTurn
  split
  · exact h
  · split
    · split
      · exact h
      · exact hf ..
    · exact h

theorem splitSpan_sound (p : Span) (taken other : Box) (target next j : DWord) :
    (splitSpan s p taken other target next j).Sound :=
  (h.same rfl)

theorem braSpan_sound (p : BitVec 5) (neg : Bool) (off : BitVec 16) (lit : Option Word) (size n : Nat) :
    (braSpan p neg off lit size s n).Sound := by
  refine spanTurn_sound h n fun sp _ _ => ?_
  dsimp only
  split
  · exact mapSpan_sound h ..
  · split
    · exact mapSpan_sound h ..
    · exact dealOut_sound h _
    · split
      · exact mapSpan_sound h ..
      · exact mapSpan_sound h ..
      · exact dealOut_sound h _
      · cases lit with
        | none => exact dealOut_sound h _
        | some w =>
          dsimp only
          split
          · exact dealOut_sound h _
          · exact splitSpan_sound h ..

theorem joinSpan_sound (n : Nat) : (joinSpan s n).Sound := by
  refine spanTurn_sound h n fun sp _ _ => ?_
  split
  · split
    · exact mapSpan_sound h ..
    · exact mapSpan_sound h ..
  · exact mapSpan_sound h ..

theorem dropSpan_sound (n : Nat) : State.Sound { s with spans := s.spans.filter (·.id != n) } := h.same rfl

theorem exitSpan_sound (x : Option XWord) (size n : Nat) : (exitSpan x size s n).Sound := by
  refine spanTurn_sound h n fun sp l c => ?_
  dsimp only
  split
  · exact dealOut_sound h _
  · cases x with
    | none => exact dropSpan_sound h n
    | some m =>
      dsimp only
      split
      · exact dropSpan_sound h n
      · split
        · split
          · exact dropSpan_sound h n
          · exact mapSpan_sound h ..
        · exact dealOut_sound h _
        · split
          · split
            · exact dropSpan_sound h n
            · exact mapSpan_sound h ..
          · split
            · exact mapSpan_sound h ..
            · exact dropSpan_sound h n
          · split
            · exact mapSpan_sound h ..
            · exact dealOut_sound h _
          · exact mapSpan_sound h ..

end

end Sys2Proof.Machine
end

section
/-! Every memory stays in canonical form (log 2): launches, the scheduler's events, and waits that end. -/

namespace Sys2Proof.Machine

/-- The state of an answer. -/
theorem State.Sound.of_pair {α : Type} {x : α × State} {a : α} {u : State} (h : x.2.Sound) (hx : x = (a, u)) : u.Sound := by
  subst hx
  exact h

section
variable {s : State} (h : s.Sound)
include h

/-! Nodes that start and end (R147). -/

theorem readHeader_sound (asked : Asked) (acct c : Nat) (addr : DWord) (table : Vector DWord 48) :
    (readHeader asked acct s c addr table).2.Sound := by
  have hhead := cpRead_sound h asked 0 (fun _ => acct) c addr 80
  unfold readHeader
  split
  · exact h
  · split <;> rename_i heq <;> rw [heq] at hhead
    · exact hhead
    · exact hhead
    · rename_i b u
      have hpre := cpRead_sound (s := u) hhead asked 1 (fun _ => acct) c (addr + 0x50) (16 * bitsOf (natAt b 16 4) 16 6)
      split <;> rename_i heq <;> rw [heq] at hpre <;> exact hpre

theorem readGroup_sound (asked : Asked) (acct c : Nat) (addr : DWord) : (readGroup asked acct s c addr).2.Sound := by
  have hhead := cpRead_sound h asked 2 (fun _ => acct) c addr 32
  unfold readGroup
  split
  · exact h
  · split
    · exact h
    · split <;> rename_i heq <;> rw [heq] at hhead
      · exact hhead
      · exact hhead
      · rename_i b u
        dsimp only
        have hlist := cpRead_sound (s := u) hhead asked 3 (fun _ => acct) c (addr + 32) (32 * natAt b 4 4)
        split
        · exact hhead
        · split <;> rename_i heq <;> rw [heq] at hlist <;> exact hlist

theorem launchReads_sound (asked : Asked) (c : Nat) (n : Node) (table : Vector DWord 48) :
    (launchReads asked s c n table).2.Sound := by
  have hhead := readHeader_sound h asked n.rcd.acct c n.rcd.header table
  unfold launchReads
  split <;> rename_i heq <;> rw [heq] at hhead
  · rename_i u
    have hgroup := readGroup_sound (s := u) hhead asked n.rcd.acct c n.rcd.pgt
    split <;> rename_i heq <;> rw [heq] at hgroup <;> exact hgroup
  · exact hhead
  · exact hhead

theorem startSpans_sound (l : Launch) : (startSpans s l).Sound := by
  refine foldl_sound (fun s k hs => ?_) _ h
  dsimp only
  split
  · refine dealOut_sound ?_ _
    exact hs.same rfl
  · exact hs.same rfl

theorem launchNode_sound (c slot : Nat) (n : Node) (found : Except Nat (Header × Group)) :
    (launchNode s c slot n found).Sound := by
  have hstarted (hdr : Header) : (s.mapCtx c (writePresets hdr)).Sound := mapCtx_sound h ..
  unfold launchNode
  dsimp only
  split
  · exact slotActs_sound h ..
  · next hdr g =>
    split
    · exact slotActs_sound (hstarted hdr) ..
    · split
      · exact slotActs_sound h ..
      · split
        · exact slotActs_sound (hstarted hdr) ..
        · split
          · exact slotActs_sound h ..
          · split
            · exact slotActs_sound h ..
            · refine startSpans_sound ?_ _
              exact (hstarted hdr).same rfl

theorem startNode_sound (c slot : Nat) : (startNode c slot s).Sound := by
  unfold startNode
  split
  · exact h
  · split
    · exact h
    · split
      · exact h
      · split
        · exact slotActs_sound h ..
        · dsimp only
          split <;> rename_i heq
          · refine launchNode_sound (writeState_sound ?_ ..) ..
            exact State.Sound.of_pair (launchReads_sound (mapCtx_sound h ..) ..) heq
          · exact mapCtx_sound h ..

theorem endLaunch_sound (l : Launch) (st : NodeState) (code : Nat) : (endLaunch s l st code).Sound := by
  refine slotActs_sound ?_ ..
  exact h.same rfl

theorem completeNode_sound (id : Nat) : (completeNode id s).Sound := by
  unfold completeNode
  split
  · exact h
  · split
    · exact h
    · exact endLaunch_sound h ..

theorem joinSpans_sound (launch group : Nat) : (joinSpans launch group s).Sound := by
  unfold joinSpans
  dsimp only
  split
  · exact h.same rfl
  · exact h

/-! Gangs on benches (R17, R274, R276). -/

theorem machineCheck_sound (g : Gang) (t : Strip) (hdr : Header) : (machineCheck s g t hdr).Sound := haltStrip_sound h ..

theorem bringIn_sound (gang idx : Nat) : (bringIn gang idx s).Sound := by
  unfold bringIn
  split
  · exact h
  · split
    · split
      · exact h
      · split
        · exact machineCheck_sound h ..
        · exact setStrip_sound h ..
    · exact h

theorem bringAll_sound (gang : Nat) (l : List Nat) : (l.foldl (fun s k => bringIn gang k s) s).Sound :=
  foldl_sound (fun _ k hs => bringIn_sound hs gang k) l h

omit h in
@[simp] theorem releaseLines_cells (bench room tick : Nat) (r : Ram) : (releaseLines bench room tick r).cells = r.cells :=
  Ram.recall_cells ..

theorem shrinkL1_sound (bench before : Nat) : (shrinkL1 bench before s).Sound := by
  unfold shrinkL1
  dsimp only
  split
  · exact h
  · exact h.of_cells (releaseLines_cells ..) (releaseLines_cells ..) rfl rfl

theorem placeOn_sound (g : Gang) (bench : Nat) : (placeOn s g bench).Sound := by
  unfold placeOn
  dsimp only
  generalize hv : s.mapGang g.id _ = v
  have hshrunk := shrinkL1_sound (hv ▸ mapGang_sound h .. : v.Sound) bench (l1Lines s bench)
  split
  · exact State.Sound.same hshrunk rfl
  · exact State.Sound.same hshrunk rfl

theorem placeAll_sound (l : List (Gang × Nat)) : (l.foldl (fun s (o, b) => placeOn s o b) s).Sound :=
  foldl_sound (fun _ ⟨o, b⟩ hs => placeOn_sound hs o b) l h

theorem placeGang_sound (id bench : Nat) : (placeGang id bench s).Sound := by
  unfold placeGang
  split
  · exact h
  · split
    · split
      · exact placeAll_sound h _
      · exact h
    · exact h

theorem settleParked_sound (hdr : Header) (id k : Nat) : (settleParked hdr id s k).Sound := by
  unfold settleParked
  split
  · split
    · split
      · exact regionEnd_sound h ..
      · exact h
    · exact h
  · exact h

theorem unplaceGang_sound (g : Gang) (hdr : Header) : (unplaceGang s g hdr).Sound := by
  have hin := bringAll_sound h g.id (g.strips.map (·.idx))
  unfold unplaceGang
  dsimp only
  split
  · exact hin
  · have hsettled := foldl_sound (fun _ k hs => settleParked_sound hs hdr g.id k) (g.strips.map (·.idx))
      (mapGang_sound hin g.id fun g => { g with strips := g.strips.map fun t => stopStripAt (g.coord hdr t.idx) t })
    exact State.Sound.same (mapGang_sound hsettled g.id fun g => { g with place := none, saved := true, die := g.onDie }) rfl

theorem preemptGang_sound (id : Nat) : (preemptGang id s).Sound := by
  unfold preemptGang
  split
  · exact h
  · split
    · exact h
    · dsimp only
      split
      · exact h
      · exact foldl_sound (fun _ o hs => unplaceGang_sound hs o _) _ h

theorem goOn_sound (late : Access → Bool) (g : Gang) (t : Strip) (hdr : Header) (l : List Access)
    (more : List Access → List Access) : (afterList (takeList late s g t l).1 g (takeList late s g t l).2.1 hdr
      (more (takeList late s g t l).2.2)).Sound := afterList_sound (takeList_sound h ..) ..

theorem reissue_sound (id : Nat) (hdr : Header) (k : Nat) : (reissue id hdr s k).Sound := by
  have hin := bringIn_sound h id k
  unfold reissue
  dsimp only
  split
  · exact hin
  · split
    · split
      · exact goOn_sound hin _ _ _ _ _ fun l => l
      · exact hin
    · exact hin

theorem bringBack_sound (hdr : Header) (l : List (Gang × Nat)) : (bringBack hdr s l).Sound := by
  refine foldl_sound (fun s ⟨g, _⟩ hs => ?_) l (placeAll_sound h l)
  dsimp only
  split
  · exact hs
  · refine foldl_sound (fun _ k hv => reissue_sound hv g.id hdr k) _ ?_
    split
    · exact hs.same rfl
    · exact hs

theorem resumeGang_sound (id bench : Nat) : (resumeGang id bench s).Sound := by
  unfold resumeGang
  split
  · exact h
  · split
    · exact h
    · split
      · split
        · exact bringBack_sound h ..
        · exact h
      · exact h

/-! The Drover (R156). -/

theorem weighStages_sound (die : Nat) : (weighStages die s).Sound := h.same rfl

theorem reassign_sound (die : Nat) : (reassign die s).Sound := by
  unfold reassign
  split
  · exact h
  · split
    · split
      · dsimp only
        split
        · exact unplaceGang_sound h ..
        · split
          · exact bringBack_sound (unplaceGang_sound h ..) ..
          · exact placeOn_sound (unplaceGang_sound h ..) ..
      · exact h
    · exact h

theorem droverAct_sound (die : Nat) : (droverAct die s).Sound := reassign_sound (weighStages_sound h die) die

end

/-! Strips and programs that go on. -/

/-- A word that is given to an agent keeps a state sound. -/
def WordSound (f : State → Out) : Prop := ∀ s : State, s.Sound → OutSound (f s)

/-- Every word that an event is for keeps a state sound. -/
def PickSound (pick : Instr → Option (State → Out)) : Prop := ∀ i f, pick i = some f → WordSound f

theorem execQput_sound (st : Bool) (d stage : BitVec 6) (x : Option XWord) : WordSound (execQput st d stage x) :=
  fun _ h => runStrip_sound h _ (qput_sound d stage)

theorem execQget_sound (st : Bool) (d : BitVec 6) (x : Option XWord) : WordSound (execQget st d x) :=
  fun _ h => runStrip_sound h _ (qget_sound d)

theorem execWait_sound (c : WaitCond) (w : WAddr2) : WordSound (execWait c w) := fun _ h => runMem_sound h _ _ (wait_sound c w)

theorem execRdv_sound (w : WSrc) : WordSound (execRdv w) := fun _ h => runStrip_sound h _ (rdv_sound w)

theorem execFork_sound (w : WFork) : WordSound (execFork w) := fun _ h => runStrip_sound h _ (fork_sound w)

theorem execLaunch_sound (w : WAddr) : WordSound (execLaunch w) := fun _ h => runMem_sound h _ _ (launch_sound w)

theorem queueWord_sound : PickSound queueWord := by
  intro i f hf
  unfold queueWord at hf
  split at hf
  · cases hf
    exact execQput_sound _ _ _ _
  · cases hf
    exact execQget_sound _ _ _
  · cases hf

theorem waitWord_sound : PickSound waitWord := by
  intro i f hf
  unfold waitWord at hf
  split at hf
  · cases hf
    exact execWait_sound _ _
  · cases hf

theorem rdvWord_sound : PickSound rdvWord := by
  intro i f hf
  unfold rdvWord at hf
  split at hf
  · cases hf
    exact execRdv_sound _
  · cases hf

theorem forkWord_sound : PickSound forkWord := by
  intro i f hf
  unfold forkWord at hf
  split at hf
  · cases hf
    exact execFork_sound _
  · cases hf

theorem launchWord_sound : PickSound launchWord := by
  intro i f hf
  unfold launchWord at hf
  split at hf
  · cases hf
    exact execLaunch_sound _
  · cases hf

theorem commandOf_sound {i : Instr} {body : State → Prog → Cmd (State × (Prog → Prog))} (hb : commandOf i = some body) :
    CommandSound body := by
  unfold commandOf at hb
  split at hb
  · cases hb
    exact cpy_sound _ _ _ _ _
  · cases hb
    exact rdst_sound _ _
  · cases hb
    exact merge_sound _ _ _
  · cases hb
    exact tmma_sound _ _
  · cases hb
    exact smv_sound _ _
  · cases hb
    exact coll_sound _ _ _ _ _ _
  · cases hb
    exact ewait_sound _ _ _
  · cases hb
    exact esig_sound _ _
  · cases hb

section
variable {s : State} (h : s.Sound)
include h

omit h in
/-- The next state of a step that keeps a state sound. -/
theorem OutSound.of_next {o : Out} {u : State} (ho : OutSound o) (hu : o = .next u) : u.Sound := by
  subst hu
  exact ho

/-- The agent whose turn it is is no memory. -/
theorem turnOf_sound (a : Agent) : State.Sound { s with cur := a } := h.same rfl

theorem giveStrip_sound (g k : Nat) {f : State → Out} (hf : WordSound f) : (giveStrip g k f s).Sound := by
  unfold giveStrip
  split <;> rename_i heq
  · exact turnOf_sound ((hf _ (turnOf_sound (bringIn_sound h g k) (.strip g k))).of_next heq) _
  · exact h

theorem tryAgain_sound (g k : Nat) {pick : Instr → Option (State → Out)} (hp : PickSound pick) :
    (tryAgain g k pick s).Sound := by
  unfold tryAgain
  split
  · split
    · split
      · next hf => exact giveStrip_sound h g k (hp _ _ hf)
      · exact h
    · exact h
  · exact h

theorem closeQueues_sound (id : Nat) : (closeQueues id s).Sound := by
  unfold closeQueues
  split
  · exact h
  · split
    · exact h
    · exact foldl_sound (fun _ _ hs => foldl_sound (fun _ _ hu => tryAgain_sound hu _ _ queueWord_sound) _ hs) _
        (mapLaunch_sound h ..)

theorem phaseComplete_sound (gang bar : Nat) : (phaseComplete gang bar s).Sound := by
  have hin := bringAll_sound h gang (((s.gang? gang).map fun g => g.strips.map (·.idx)).getD [])
  unfold phaseComplete
  dsimp only
  split
  · exact hin
  · split
    · exact hin
    · split
      · exact completePhase_sound hin ..
      · split
        · exact completeRecompute_sound hin ..
        · exact hin

theorem loadReturns_sound (gang idx k : Nat) : (loadReturns gang idx k s).Sound := by
  have hin := bringIn_sound h gang idx
  unfold loadReturns
  dsimp only
  split
  · exact hin
  · split
    · split
      · exact hin
      · split
        · exact regionEnd_sound hin ..
        · exact setStrip_sound hin ..
    · exact hin

theorem intakeRoom_sound (gang idx : Nat) : (intakeRoom gang idx s).Sound := by
  unfold intakeRoom
  split
  · exact h
  · exact tryAgain_sound (mapCtx_sound h ..) _ _ launchWord_sound

theorem progAgain_sound (n : Nat) (pick : Instr → Bool) : (progAgain n pick s).Sound := by
  unfold progAgain
  split
  · exact h
  · split
    · split
      · next hb =>
        split
        · split <;> rename_i heq
          · exact turnOf_sound ((runCommand_sound (turnOf_sound h (.prog n)) _ _ _ (commandOf_sound hb)).of_next heq) _
          · exact h
        · exact h
      · exact h
    · exact h

theorem rereadAgain_sound (ag : Agent) : (rereadAgain ag s).Sound := by
  unfold rereadAgain
  split
  · exact tryAgain_sound h _ _ waitWord_sound
  · exact progAgain_sound h ..
  · exact h

/-! Accesses that wait. -/

theorem resendStrip_sound (late : State → Access → Bool) (gang idx : Nat) : (resendStrip late gang idx s).Sound := by
  have hin := bringIn_sound h gang idx
  unfold resendStrip
  dsimp only
  split
  · exact hin
  · split
    · split
      · exact goOn_sound hin _ _ _ _ _ fun l => l
      · exact hin
    · exact hin

theorem sendAgain_sound (k : Nat × Nat) : (sendAgain k s).Sound := resendStrip_sound h ..

theorem twinServed_sound (ag : Agent) : (twinServed ag s).Sound := by
  unfold twinServed
  split
  · exact sendAgain_sound h _
  · exact progAgain_sound h ..
  · exact h

theorem twinTimesOut_sound (ag : Agent) : (twinTimesOut ag s).Sound := by
  unfold twinTimesOut
  split
  · split
    · exact resendStrip_sound h ..
    · exact h
  · split
    · dsimp only
      split
      · exact stopProg_sound h ..
      · exact h
    · exact h
  · exact h

theorem failReads_sound (lo len gang idx : Nat) : (failReads lo len gang idx s).Sound := by
  have hin := bringIn_sound h gang idx
  unfold failReads
  dsimp only
  split
  · exact hin
  · split
    · split
      · split
        · exact hin
        · exact afterList_sound (takeList_sound hin ..) ..
      · exact hin
    · exact hin

theorem sendAll_sound : (sendAll s).Sound :=
  foldl_sound (fun _ _ hs => progAgain_sound hs ..) _ (foldl_sound (fun _ k hs => sendAgain_sound hs k) _ h)

end

end Sys2Proof.Machine
end

section
/-! Every memory stays in canonical form (log 2): events of links and lines, accesses from outside, and host commands. -/

namespace Sys2Proof.Machine

theorem Ram.lose_wf {r : Ram} (line : Nat) (h : Memory.wf r.cells = true) : Memory.wf (r.lose line).cells = true := by
  unfold Ram.lose
  split
  · exact h
  · rw [Ram.addPoison_cells]
    exact cellsWrite_wf _ _ h

section
variable {s : State} (h : s.Sound)
include h

/-! The ports of the second tier, peers, and evictions. -/

theorem logAll_sound {α : Type} (kind code : Nat) (addr : DWord) (ctx : α → Nat) (l : List α) :
    (l.foldl (fun s a => logError s (ctx a) kind code addr none) s).Sound :=
  foldl_sound (fun _ a hs => logError_sound hs (ctx a) kind code addr none) l h

theorem logOwners_sound (kind : Nat) (tier : Bool) (pa : Nat) :
    (logOwners s kind tier pa).Sound := logAll_sound h _ _ _ (fun c => c) _

theorem logLink_sound (at_ : Nat) : (logLink at_ s).Sound := logAll_sound h _ _ _ (fun c => c) _

theorem loseLine_sound (tier : Bool) (line : Nat) : (loseLine s tier line).Sound := by
  refine logOwners_sound ?_ ..
  split
  · exact h.tier (Ram.lose_wf line)
  · exact h.device (Ram.lose_wf line)

theorem setPort_sound (p : Nat) (v : Port) : (s.setPort p v).Sound := h.same rfl

theorem retrain_sound (p : Nat) : (retrain s p).Sound := setPort_sound h ..

theorem tierDown_sound (p : Nat) : (tierDown p s).Sound := by
  unfold tierDown
  split
  · exact logLink_sound (retrain_sound h _) _
  · exact h

theorem cpWrite_sound (since : Option DWord) (acct c : Nat) (va : DWord) (bs : List Byte) :
    (cpWrite since acct s c va bs).2.Sound := (cpWrite_acts ..).sound h

theorem retryWrites_sound : (retryWrites s).Sound := by
  refine foldl_sound (fun s w hs => ?_) _ (h.same rfl)
  have hwritten := cpWrite_sound hs (some w.since) w.acct w.ctx w.addr w.bytes
  split
  · exact hs.same rfl
  · split <;> rename_i heq <;> rw [heq] at hwritten
    · exact hwritten
    · exact logError_sound (show State.Sound _ from hwritten) ..
    · exact State.Sound.same (show State.Sound _ from hwritten) rfl

theorem portTurns_sound (p : Nat) (v : Port) : (portTurns p v s).Sound :=
  sendAll_sound (retryWrites_sound (logLink_sound (setPort_sound h ..) _))

theorem tierUp_sound (p : Nat) : (tierUp p s).Sound := by
  unfold tierUp
  split
  · split
    · exact h
    · exact portTurns_sound h ..
  · exact h

theorem tierFails_sound (p : Nat) : (tierFails p s).Sound := by
  unfold tierFails
  split
  · split
    · exact h
    · exact foldl_sound (fun _ n hs => loseLine_sound hs true n) _ (portTurns_sound h ..)
  · exact h

theorem portsReset_sound (mask : BitVec 4) : (portsReset mask s).Sound := by
  refine foldl_sound (fun s p hs => ?_) _ h
  split
  · split
    · exact retrain_sound hs p
    · exact hs
  · exact hs

omit h in
theorem readWord_sound : PickSound readWord := by
  intro i f hf
  unfold readWord at hf
  cases hw : waitWord i with
  | some run =>
    rw [hw] at hf
    cases hf
    exact waitWord_sound i _ hw
  | none =>
    rw [hw] at hf
    exact launchWord_sound i f hf

theorem peerLate_sound (ag : Agent) : (peerLate ag s).Sound := by
  unfold peerLate
  split
  · exact sendAgain_sound (tryAgain_sound h _ _ readWord_sound) _
  · exact progAgain_sound h ..
  · exact retryWrites_sound h
  · exact h

theorem endStopped_sound : (endStopped s).Sound := by
  refine foldl_sound (fun s l hs => ?_) _ h
  split
  · exact endLaunch_sound hs ..
  · exact hs

theorem peerAck_sound (ag : Agent) : (peerAck ag s).Sound := by
  have hended := endStopped_sound
    (h.same rfl : State.Sound { s with launches := s.launches.map fun l => { l with unacked := l.unacked.erase ag } })
  unfold peerAck
  dsimp only
  split
  · exact mapStrip_sound hended ..
  · exact mapProg_sound hended ..
  · exact hended

theorem flitAgain_sound (port : Nat) (up : Bool) : (flitAgain port up s).Sound := by
  have hlogged := logLink_sound
    (h.same rfl : State.Sound { s with dev := { s.dev with fabricPorts := vset s.dev.fabricPorts port up } }) port
  unfold flitAgain
  split
  · exact h
  · dsimp only
    split
    · exact sendAll_sound (retryWrites_sound hlogged)
    · exact hlogged

theorem evictImage_sound (line : Nat) : (evictImage line s).Sound := by
  refine foldl_sound (fun s g hs => foldl_sound (fun s t hs => mapStrip_sound ?_ ..) _ hs) _ h
  split
  · exact deviceWrite_sound hs ..
  · exact hs

theorem evictHeld_sound (line : Nat) (bad : Bool) : (evictHeld line bad s).Sound := by
  have hout := evictImage_sound h line
  unfold evictHeld
  dsimp only
  split
  · refine logOwners_sound ?_ ..
    exact hout.of_cells (Ram.addPoison_cells ..) rfl rfl rfl
  · exact hout

theorem evictLine_sound (tier : Bool) (line : Nat) (bad : Bool) : (evictLine tier line bad s).Sound := by
  unfold evictLine
  dsimp only
  generalize (if tier = true then s.tier else s.device) = ram
  split
  · exact evictHeld_sound h ..
  · split
    · exact h
    · split
      · exact loseLine_sound h ..
      · split
        · exact h.of_cells rfl (Ram.writeBack_cells ..) rfl rfl
        · exact writeBackDevice_sound h _

/-! Accesses of the host and of peers. -/

theorem trainLink_sound (cxl : Bool) (gen width : Nat) : (trainLink cxl gen width s).Sound := by
  unfold trainLink
  split
  · exact h.same rfl
  · exact h

theorem chargeEnergy_sound (acct : Nat) : (chargeEnergy acct s).Sound := (chargeEnergy_acts acct s).sound h

theorem claimSegs_sound (acct : Option Nat) (gs : List Seg) : (claimSegs acct gs s).Sound := (claimSegs_acts acct gs s).sound h

theorem hostTouch_sound (wr : Bool) (pa len : Nat) : (hostTouch wr pa len s).Sound := by
  unfold hostTouch
  dsimp only
  generalize hu : (if wr = true then s else recallSegs none [Seg.mk pa len 0 (.device pa)] s) = u
  have hu : u.Sound := by
    rw [← hu]
    split
    · exact h
    · exact recallSegs_sound h ..
  split
  · exact chargeEnergy_sound (chargeDram_sound hu ..) _
  · split
    · exact claimSegs_sound hu ..
    · exact hu

theorem hostWritePart_sound (pa : Nat) (bs : List Byte) : (hostWritePart pa bs s).Sound := by
  unfold hostWritePart
  split
  · exact logOwners_sound h ..
  · refine hostTouch_sound (h.device fun hd => ?_) ..
    rw [Ram.unpoison_cells]
    exact Ram.write_wf _ _ hd

theorem hostWrite_sound (pa : Nat) (bs : List Byte) : (hostWrite pa bs s).Sound :=
  foldl_fst_sound (f := fun (st : State × List Byte) (p : Nat × Nat) =>
    (hostWritePart p.1 (st.2.take p.2) st.1, st.2.drop p.2)) (fun _ _ _ hs => hostWritePart_sound hs ..) _ bs h

theorem hostAccess_sound (a : HostAccess) :
    (hostAccess a s).Sound := by
  have htouched := foldl_sound (f := fun s (p : Nat × Nat) => hostTouch false p.1 p.2 s)
    (fun _ p hs => hostTouch_sound hs false p.1 p.2)
    (splitPages (a.len / 4096 + 2) a.addr a.len) h
  unfold hostAccess
  split
  · exact h.same rfl
  · split
    · split
      · exact h.same rfl
      · exact htouched.same rfl
    · split
      · exact h.same rfl
      · exact State.Sound.same (hostWrite_sound h ..) rfl

theorem hdmTouch_sound (a : HostAccess) : (hdmTouch a s).Sound := by
  unfold hdmTouch
  split
  · exact hostAccess_sound h a
  · exact h.same rfl

theorem bar2Touch_sound (a : HostAccess) : (bar2Touch a s).Sound := by
  unfold bar2Touch
  split
  · exact hostAccess_sound h a
  · exact h.same rfl

theorem peerTry_sound (r : PeerRequest) (lanes : List LaneReq) (old : List PeerLaneReply) : (peerTry r lanes old s).Sound := by
  have hp := performAccess_sound h r.ctx (peerAccess s r lanes)
  unfold peerTry
  generalize performAccess s r.ctx (peerAccess s r lanes) = x at hp ⊢
  obtain ⟨p, u⟩ := x
  refine State.Sound.same (s := if p.done.isEmpty then u else _) ?_ rfl
  split
  · exact hp
  · exact chargeEnergy_sound (chargeDram_sound (chargeFabric_sound hp ..) ..) _

theorem peerServe_sound (r : PeerRequest) : (peerServe r s).Sound := by
  unfold peerServe
  split
  · exact peerTry_sound h ..
  · split
    · exact h.same rfl
    · dsimp only
      split
      · exact h.same rfl
      · exact peerTry_sound h ..

/-! Queues and registers of the window. -/

theorem setQueue_sound (q : Bool) (u : Queue) : (s.setQueue q u).Sound := h.same rfl

theorem ring_sound (q : Bool) (tail : Word) : (ring q tail s).Sound := by
  unfold ring
  dsimp only
  split
  · exact setQueue_sound h ..
  · split
    · exact setQueue_sound h ..
    · exact setQueue_sound h ..

theorem clearQerr_sound (q : Bool) (bits : Word) : (clearQerr q bits s).Sound := setQueue_sound h ..

theorem configureQueue_sound (q size : Bool) (v : DWord) : (configureQueue q size v s).Sound := by
  unfold configureQueue
  dsimp only
  split
  · exact h
  · exact setQueue_sound h ..

theorem writeRegister_sound (offset : Nat) (v : BitVec 128) : (writeRegister offset v s).Sound := by
  unfold writeRegister
  dsimp only
  split
  · exact h.same rfl
  · split
    · exact h.same rfl
    · split
      · exact h.same rfl
      · split
        · exact h.same rfl
        · split
          · exact h.same rfl
          · exact h

theorem readRegister_sound (offset : Nat) : (readRegister offset s).Sound := h.same rfl

/-! Host commands (R286, R287). -/

theorem endCommand_sound (q : Bool) (status : Nat) : (endCommand q status s).Sound := (setQueue_sound h q _).writeHost ..

theorem failCommand_sound (q : Bool) (code : Nat) : (failCommand q code s).Sound := endCommand_sound h ..

theorem doneCommand_sound (q : Bool) : (doneCommand q s).Sound := endCommand_sound h ..

theorem waitCommand_sound (q : Bool) (keys : List Nat) :
    (waitCommand q keys s).Sound := setQueue_sound h ..

theorem takeOp_sound (q : Bool) (op : Nat) {f : List Byte → State → State} (hf : ∀ e, (f e s).Sound) :
    (takeOp q op f s).Sound := by
  unfold takeOp
  dsimp only
  split
  · exact h
  · split
    · exact failCommand_sound h ..
    · exact hf _

theorem forCtx_sound (q : Bool) {f : List Byte → Ctx → State → State} (e : List Byte) (hf : ∀ x, (f e x s).Sound) :
    (forCtx q f e s).Sound := by
  unfold forCtx
  split
  · exact failCommand_sound h ..
  · split
    · exact failCommand_sound h ..
    · exact hf _

theorem createCtx_sound (q : Bool) (e : List Byte) : (createCtx q e s).Sound := by
  unfold createCtx
  split
  · exact failCommand_sound h ..
  · split
    · exact failCommand_sound h ..
    · refine doneCommand_sound (deviceWrite_sound ?_ ..) _
      exact h.same rfl

theorem stopTdi_sound (t : Tdi) : (stopTdi s t).Sound := by
  have hregions (l : List Region) (r : Ram) : (l.foldl (fun (r : Ram) x => r.addPoison x.base x.size) r).cells = r.cells := by
    induction l generalizing r with
    | nil => rfl
    | cons x l ih => rw [List.foldl_cons, ih, Ram.addPoison_cells]
  refine h.of_cells ?_ rfl rfl rfl
  show Ram.cells (if _ then _ else _) = _
  split
  · exact hregions _ _
  · rfl

theorem stopCtx_sound (c : Nat) : (stopCtx c s).Sound := by
  have hstopped := foldl_sound (fun _ l hs => stopLaunch_sound hs l .cancelled 0) (s.launches.filter (·.ctx == c)) h
  unfold stopCtx
  dsimp only
  split
  · refine slotActs_sound ?_ ..
    exact hstopped.same rfl
  · exact hstopped.same rfl

theorem dropCtx_sound (c : Nat) : (dropCtx c s).Sound := by
  have hstopped := foldl_sound (fun _ t hs => stopTdi_sound hs t)
    (s.dev.tdis.filter fun t => t.ctx == c && t.state != .stopped) h
  exact State.Sound.same hstopped rfl

theorem removeCtx_sound (q : Bool) (c : Nat) : (removeCtx q c s).Sound := by
  unfold removeCtx
  dsimp only
  split
  · exact stopCtx_sound h c
  · exact doneCommand_sound (dropCtx_sound (stopCtx_sound h c) c) q

theorem configCtx_sound (q : Bool) (e : List Byte) (x : Ctx) : (configCtx q e x s).Sound := by
  unfold configCtx
  split
  · exact failCommand_sound h ..
  · exact doneCommand_sound (mapCtx_sound h ..) q

theorem submitNode_sound (q : Bool) (e : List Byte) (x : Ctx) : (submitNode q e x s).Sound := by
  have hread := cpRead_sound h (s.queue q).asked 0 (fun b => (recordOf b).acct) x.id (opnd e 0) 80
  unfold submitNode
  dsimp only
  split <;> rename_i heq <;> rw [heq] at hread
  · exact failCommand_sound (show State.Sound _ from hread) ..
  · exact waitCommand_sound (show State.Sound _ from hread) ..
  · split
    · exact failCommand_sound (show State.Sound _ from hread) ..
    · exact waitCommand_sound (show State.Sound _ from hread) ..
    · split
      · next hgot => exact doneCommand_sound (submitRead_sound (show State.Sound _ from hread) hgot) q
      · exact waitCommand_sound (show State.Sound _ from hread) ..

theorem cancelToken_sound (c t : Nat) : (cancelToken s c t).Sound := slotActs_sound h ..

theorem uncancelToken_sound (c t : Nat) : (uncancelToken s c t).Sound := mapCtx_sound h ..

theorem resyncHost_sound (q : Bool) (e : List Byte) : (resyncHost q e s).Sound := by
  refine doneCommand_sound ?_ q
  exact State.Sound.same (h.writeHost ..) rfl

theorem clearSector_sound (x : Nat) : (clearSector s x).Sound := by
  refine setCount_sound (h.device fun hd => ?_) ..
  rw [Ram.unpoison_cells]
  exact Ram.write_wf _ _ hd

theorem failRange_sound (lo len : Nat) : (failRange lo len s).Sound :=
  foldl_sound (fun _ k hs => stopProg_sound hs k.1 0x16 _) _
    (foldl_sound (fun _ k hs => failReads_sound hs lo len k.1 k.2) _ (h.same rfl))

theorem clearTwins_sound (q : Bool) (e : List Byte) : (clearTwins q e s).Sound := by
  unfold clearTwins
  dsimp only
  split
  · exact failCommand_sound h ..
  · exact doneCommand_sound (foldl_sound (fun _ i hs => clearSector_sound hs _) _ (failRange_sound h ..)) q

end

/-! The commands as events. -/

section
variable {s : State} (h : s.Sound) (q : Bool)
include h

theorem execCreate_sound : OutSound (execCreate q s) := takeOp_sound h q 1 fun e => createCtx_sound h q e

theorem execDestroy_sound : OutSound (execDestroy q s) :=
  takeOp_sound h q 2 fun e => forCtx_sound h q e fun x => removeCtx_sound h q x.id

theorem execConfig_sound : OutSound (execConfig q s) :=
  takeOp_sound h q 3 fun e => forCtx_sound h q e fun x => configCtx_sound h q e x

theorem execSubmit_sound : OutSound (execSubmit q s) :=
  takeOp_sound h q 4 fun e => forCtx_sound h q e fun x => submitNode_sound h q e x

theorem execCancel_sound : OutSound (execCancel q s) :=
  takeOp_sound h q 5 fun e => forCtx_sound h q e fun _ => doneCommand_sound (cancelToken_sound h ..) q

theorem execUncancel_sound : OutSound (execUncancel q s) :=
  takeOp_sound h q 6 fun e => forCtx_sound h q e fun _ => doneCommand_sound (uncancelToken_sound h ..) q

theorem execHostIcinv_sound : OutSound (execHostIcinv q s) :=
  takeOp_sound h q 7 fun e => forCtx_sound h q e fun _ => doneCommand_sound (dropFetch_sound h ..) q

theorem execResync_sound : OutSound (execResync q s) :=
  takeOp_sound h q 8 fun e => forCtx_sound h q e fun _ => resyncHost_sound h q e

theorem execTwclr_sound : OutSound (execTwclr q s) := takeOp_sound h q 9 fun e => clearTwins_sound h q e

theorem queueTurn_sound : OutSound (queueTurn q s) := by
  have hs := retryWrites_sound h
  unfold queueTurn
  dsimp only
  split
  · exact hs
  · split
    · exact execCreate_sound hs q
    · exact execDestroy_sound hs q
    · exact execConfig_sound hs q
    · exact execSubmit_sound hs q
    · exact execCancel_sound hs q
    · exact execUncancel_sound hs q
    · exact execHostIcinv_sound hs q
    · exact execResync_sound hs q
    · exact execTwclr_sound hs q
    · exact failCommand_sound hs ..

end

/-! FMTSET and SETSR. -/

theorem fmtset_sound (w : W2) : BodySound (fmtsetBody w) := by
  intro q hq
  unfold fmtsetBody
  dsimp only
  refine PartSound.of ?_
  split
  · exact .error _
  · split
    · exact .bind fun _ _ => .ok (mapCtx_sound hq ..)
    · exact .error _

theorem setsr_sound (w : W2) : BodySound (setsrBody w) := by
  intro q hq
  refine PartSound.of (.bind fun v _ => ?_)
  dsimp only
  split
  · split
    · exact .ok hq
    · exact .error _
  · split
    · exact .ok hq
    · exact .error _
  · exact .ok hq
  · exact .ok hq
  · exact .ok hq
  · exact .ok (mapCtx_sound hq ..)
  · generalize (if wideOf w.x = true then v else _) = new
    split
    · exact .error _
    · exact .ok hq

end Sys2Proof.Machine
end

section
/-! Every memory stays in canonical form (log 2): reset, trust and errors, and with them every instruction and event. -/

namespace Sys2Proof.Machine

section
variable {s : State} (h : s.Sound)
include h

/-! Reset, boot and firmware. -/

theorem resetDevice_sound (r : Record) : (resetDevice r s).Sound := by
  have hstopped := foldl_sound (fun _ t hs => stopTdi_sound hs t) (s.dev.tdis.filter (·.state == .run)) h
  unfold resetDevice
  dsimp only
  generalize List.foldl stopTdi s _ = u at hstopped ⊢
  obtain ⟨hd, ht, hh, hp⟩ := memoryWf_parts hstopped
  exact memoryWf_of (Ram.afterReset_wf hd) (Ram.afterReset_wf ht) hh hp

theorem zeroPool_sound : (zeroPool s).Sound := h.device fun hd => filter_wf _ hd

theorem startGroup_sound : (startGroup s).Sound := by
  have hcounted : State.Sound { s with dev := { s.dev with groups := s.dev.groups + 1 } } := h.same rfl
  unfold startGroup
  split
  · exact h
  · dsimp only
    split
    · exact State.Sound.same (zeroPool_sound hcounted) rfl
    · exact hcounted

/-- The flash is no memory. -/
theorem flashed_sound (a : Assay) : State.Sound { s with dev := { s.dev with assay := a } } := h.same rfl

theorem updateFirmware_sound (img : Image) (interrupted : Bool) : (updateFirmware img interrupted s).Sound := by
  unfold updateFirmware
  split
  · exact h
  · exact flashed_sound h _

theorem recover_sound (img : Image) (r : Record) (interrupted : Bool) : (recover img r interrupted s).Sound := by
  unfold recover
  split
  · exact h
  · exact resetDevice_sound (flashed_sound h _) r

/-! SPDM and TDIs. -/

theorem answer_sound (d : Doe) (p : Spdm) : (answer s d p).Sound := h.same rfl

theorem refuseDoe_sound : (refuseDoe s).Sound := h.same rfl

theorem spdmVersion_sound : (spdmVersion s).Sound := answer_sound h ..

theorem spdmCapabilities_sound : (spdmCapabilities s).Sound := by
  unfold spdmCapabilities
  split
  · exact refuseDoe_sound h
  · exact answer_sound h ..

theorem spdmAlgorithms_sound : (spdmAlgorithms s).Sound := by
  unfold spdmAlgorithms
  split
  · exact refuseDoe_sound h
  · exact answer_sound h ..

theorem spdmDigests_sound : (spdmDigests s).Sound := by
  unfold spdmDigests
  split
  · exact refuseDoe_sound h
  · exact answer_sound h ..

theorem spdmCertificate_sound (slot : BitVec 8) (off len : Nat) : (spdmCertificate slot off len s).Sound := by
  unfold spdmCertificate
  dsimp only
  split
  · exact refuseDoe_sound h
  · exact answer_sound h ..

theorem spdmChallenge_sound (slot : BitVec 8) (nonce : BitVec 256) : (spdmChallenge slot nonce s).Sound := by
  unfold spdmChallenge
  split
  · exact refuseDoe_sound h
  · exact answer_sound (bump_sound h _) ..

theorem spdmMeasurements_sound (index : BitVec 8) (nonce : BitVec 256) : (spdmMeasurements index nonce s).Sound := by
  unfold spdmMeasurements
  split
  · split
    · exact answer_sound (bump_sound h _) ..
    · exact refuseDoe_sound h
  · exact refuseDoe_sound h

theorem spdmKeyExchange_sound (nonce : BitVec 256) (session : BitVec 32) : (spdmKeyExchange nonce session s).Sound := by
  unfold spdmKeyExchange
  split
  · exact refuseDoe_sound h
  · exact answer_sound (bump_sound h _) ..

theorem spdmFinish_sound (session : BitVec 32) : (spdmFinish session s).Sound := by
  unfold spdmFinish
  split
  · exact answer_sound h ..
  · exact refuseDoe_sound h

theorem spdmEnd_sound (session : BitVec 32) : (spdmEnd session s).Sound := by
  unfold spdmEnd
  split
  · exact answer_sound h ..
  · exact refuseDoe_sound h

theorem lockTdi_sound (n c : Nat) (regions : List Region) : (lockTdi n c regions s).Sound := by
  unfold lockTdi
  dsimp only
  split
  · exact refuseDoe_sound h
  · exact State.Sound.same (bump_sound h regions.length) rfl

theorem startTdi_sound (n : Nat) : (startTdi n s).Sound := by
  unfold startTdi
  split
  · split
    · exact h.same rfl
    · exact refuseDoe_sound h
  · exact refuseDoe_sound h

theorem unlockTdi_sound (n : Nat) : (unlockTdi n s).Sound := by
  unfold unlockTdi
  split
  · next t _ => exact State.Sound.same (stopTdi_sound h t) rfl
  · exact refuseDoe_sound h

theorem failTdi_sound (n : Nat) : (failTdi n s).Sound := by
  unfold failTdi
  split
  · exact stopTdi_sound h _
  · exact h

/-! Errors and heat. -/

theorem correctError_sound (c : Nat) (addr : DWord) : (correctError c addr s).Sound := logError_sound h ..

theorem checkMachine_sound (gang idx : Nat) : (checkMachine gang idx s).Sound := by
  have hin := bringIn_sound h gang idx
  unfold checkMachine
  dsimp only
  split
  · exact hin
  · split
    · split
      · exact hin
      · exact machineCheck_sound hin ..
    · exact hin

theorem failDevice_sound : (failDevice s).Sound := by
  unfold failDevice
  split
  · exact h
  · generalize dumpBytes s = bs
    refine State.Sound.same (h.device (r := s.device.writeThrough s.dev.assay.rcd.dumpBase bs) fun hd => ?_) rfl
    unfold Ram.writeThrough
    rw [writeBacks_cells]
    exact Ram.write_wf _ _ hd

theorem throttleDie_sound (die : Nat) : (throttleDie die s).Sound := h.same rfl

theorem throttleBlock_sound (b : Block) : (throttleBlock b s).Sound := h.same rfl

theorem overheat_sound (b : Block) (celsius : Nat) : (overheat b celsius s).Sound := by
  unfold overheat
  split
  · exact h
  · exact State.Sound.same (failDevice_sound h) rfl

end

/-- Every instruction and event keeps every memory in canonical form. -/
theorem exec_sound (i : Instr) {s : State} (h : s.Sound) : OutSound (exec i s) := by
  cases i with
  | add | sub | mul | mulh | min | max | addc | mad | addG | subG | mulG | mulhG | minG | maxG | addcG | madG | and
  | or | xor | andn | shl | shr | sar | andG | orG | xorG | andnG | shlG | shrG | sarG | popc | clz | brev | bfx
  | bfi | prmt | lea | sel | icmp | icmpG | addi | muli | andi | ori | xori | shli | shri | sari | movi | addiG
  | moviG | mov | movs | pmovToReg | pmovToPred | movG | movsG | plop | fadd | fsub | fmul | fmin | fmax | ffma
  | fscl | fcmp | frcp | frsq | fsqrt | fexp2 | flog2 | fsin | fcos | ftanh | fclass | frnd | cvt | vdot | nop
  | fmtget | fmtselSlot | fmtselReg | modeset | modesetRm | modesetClr =>
    dsimp only [exec]
    exact runAlu_sound h ..
  | mku | shfl | voteAll | voteAny | voteMask | voteSame | reap | rng | rngseed =>
    exact runStrip_sound h _ fun _ hw => done_sound hw _
  | ld => exact runMem_sound h _ _ (load_sound _ _)
  | st => exact runMem_sound h _ _ (store_sound _ _)
  | lds => exact runStrip_sound h _ (lds_sound _)
  | sts => exact runStrip_sound h _ (sts_sound _)
  | atom => exact runMem_sound h _ _ (atom_sound _)
  | atoms => exact runStrip_sound h _ (atoms_sound _)
  | cas => exact runMem_sound h _ _ (cas_sound _)
  | pref => exact runStrip_sound h _ fun _ hw => hw
  | ldt => exact runMem_sound h _ _ (ldt_sound _)
  | stt => exact runMem_sound h _ _ (stt_sound _)
  | stash => exact runMem_sound h _ _ (stash_sound _)
  | mma => exact runStrip_sound h _ (mma_sound _ _)
  | smma => exact runStrip_sound h _ (mma_sound _ _)
  | accrd => exact runStrip_sound h _ (accrd_sound _ _)
  | accrdZero => exact runStrip_sound h _ (accrd_sound _ _)
  | accwr => exact runStrip_sound h _ (accwr_sound _)
  | accwrZero => exact runStrip_sound h _ (accwrZero_sound _)
  | ldG => exact runMem_sound h _ _ (load_sound _ _)
  | stG => exact runMem_sound h _ _ (store_sound _ _)
  | bra => exact runBoth_sound h _ (fun _ => braSpan_sound h ..) (bra_sound _ _ _ _)
  | join => exact runBoth_sound h _ (joinSpan_sound h) join_sound
  | call => exact runStrip_sound h _ (call_sound _ _)
  | ret => exact runStrip_sound h _ ret_sound
  | jmpi => exact runStrip_sound h _ (jmpi_sound _)
  | exit => exact runBoth_sound h _ (exitSpan_sound h _ _) exit_sound
  | barSync => exact runStrip_sound h _ (barSync_sound _ _)
  | barArrive => exact runStrip_sound h _ (barArrive_sound _)
  | barWait => exact runStrip_sound h _ (barWait_sound _ _)
  | elect => exact runStrip_sound h _ elect_sound
  | elend => exact runStrip_sound h _ elend_sound
  | fork => exact execFork_sound _ s h
  | rdv => exact execRdv_sound _ s h
  | fence => exact runStrip_sound h _ (fence_sound _)
  | tfence => exact runStrip_sound h _ tfence_sound
  | wait => exact execWait_sound _ _ s h
  | trap => exact runStrip_sound h _ (trap_sound _ _)
  | fmtset => exact runStrip_sound h _ (fmtset_sound _)
  | ckpt => exact runMem_sound h _ _ (slotBody_sound _ _ _)
  | replay => exact runMem_sound h _ _ (slotBody_sound _ _ _)
  | replend => exact runStrip_sound h _ (recomputeBody_sound _ _ _)
  | qput => exact execQput_sound _ _ _ _ s h
  | qget => exact execQget_sound _ _ _ s h
  | launch => exact execLaunch_sound _ s h
  | icinv => exact runStrip_sound h _ (icinv_sound _)
  | cflush => exact runMem_sound h _ _ (cflush_sound _)
  | cflushInv => exact runMem_sound h _ _ (cflush_sound _)
  | bwsetMem => exact runStrip_sound h _ (bwsetMem_sound _)
  | bwsetLink => exact runStrip_sound h _ (bwset_sound _ _)
  | tret => exact runStrip_sound h _ tret_sound
  | rqrel => exact runStrip_sound h _ rqrel_sound
  | pgmapL0 => exact runStrip_sound h _ (pgmap_sound _ _)
  | pgmapL1 => exact runStrip_sound h _ (pgmap_sound _ _)
  | tlbinv => exact runStrip_sound h _ (tlbinv_sound _)
  | tlbinvCtx => exact runStrip_sound h _ fun w hw => tlbinvOf_sound _ w hw
  | tlbinvAll => exact runStrip_sound h _ fun w hw => tlbinvOf_sound _ w hw
  | harvest => exact runStrip_sound h _ (harvest_sound _)
  | setsr => exact runStrip_sound h _ (setsr_sound _)
  | cpy =>
    dsimp only [exec]
    exact runCommand_sound h _ _ _ (cpy_sound _ _ _ _ _)
  | rdst =>
    dsimp only [exec]
    exact runCommand_sound h _ _ _ (rdst_sound _ _)
  | merge =>
    dsimp only [exec]
    exact runCommand_sound h _ _ _ (merge_sound _ _ _)
  | tmma =>
    dsimp only [exec]
    exact runCommand_sound h _ _ _ (tmma_sound _ _)
  | smv =>
    dsimp only [exec]
    exact runCommand_sound h _ _ _ (smv_sound _ _)
  | coll =>
    dsimp only [exec]
    exact runCommand_sound h _ _ _ (coll_sound _ _ _ _ _ _)
  | ewait =>
    dsimp only [exec]
    exact runCommand_sound h _ _ _ (ewait_sound _ _ _)
  | eloop =>
    dsimp only [exec]
    exact runCommand_sound h _ _ _ (fun _ _ hs => hs)
  | eend =>
    dsimp only [exec]
    exact runCommand_sound h _ _ _ (fun _ _ hs => retireGang_sound (mapProg_sound hs ..) _)
  | esig =>
    dsimp only [exec]
    exact runCommand_sound h _ _ _ (esig_sound _ _)
  | create => exact execCreate_sound h _
  | destroy => exact execDestroy_sound h _
  | config => exact execConfig_sound h _
  | submit => exact execSubmit_sound h _
  | cancel => exact execCancel_sound h _
  | uncancel => exact execUncancel_sound h _
  | hostIcinv => exact execHostIcinv_sound h _
  | resync => exact execResync_sound h _
  | twclr => exact execTwclr_sound h _
  | portreset => exact portsReset_sound h ..
  | qerrClear => exact clearQerr_sound h ..
  | queueConfigWrite => exact configureQueue_sound h ..
  | registerWrite => exact writeRegister_sound h ..
  | deviceReset => exact resetDevice_sound h ..
  | benchGroupStart => exact startGroup_sound h
  | firmwareUpdate => exact updateFirmware_sound h ..
  | recoveryImage => exact recover_sound h ..
  | getVersion => exact spdmVersion_sound h
  | getCapabilities => exact spdmCapabilities_sound h
  | negotiateAlgorithms => exact spdmAlgorithms_sound h
  | getDigests => exact spdmDigests_sound h
  | getCertificate => exact spdmCertificate_sound h ..
  | challenge => exact spdmChallenge_sound h ..
  | getMeasurements => exact spdmMeasurements_sound h ..
  | keyExchange => exact spdmKeyExchange_sound h ..
  | finish => exact spdmFinish_sound h ..
  | endSession => exact spdmEnd_sound h ..
  | lockInterface => exact lockTdi_sound h ..
  | stopInterface => exact unlockTdi_sound h ..
  | hostLinkTrain => exact trainLink_sound h ..
  | hdmAccess => exact hdmTouch_sound h ..
  | bar2Access => exact bar2Touch_sound h ..
  | peerAccess => exact peerServe_sound h ..
  | peerTimeout => exact peerLate_sound h ..
  | peerWriteAck => exact peerAck_sound h ..
  | flitResend => exact flitAgain_sound h ..
  | tierLinkDown => exact tierDown_sound h ..
  | expanderTimeout => exact tierDown_sound h ..
  | tierLinkUp => exact tierUp_sound h ..
  | tierTimeout => exact tierFails_sound h ..
  | nodeStart => exact startNode_sound h ..
  | nodeComplete => exact completeNode_sound h ..
  | spanJoin => exact joinSpans_sound h ..
  | gangPlace => exact placeGang_sound h ..
  | droverAction => exact droverAct_sound h ..
  | queueClose => exact closeQueues_sound h ..
  | barrierPhaseComplete => exact phaseComplete_sound h ..
  | waitConditionMet => exact tryAgain_sound h _ _ waitWord_sound
  | hostWaitReread => exact rereadAgain_sound h ..
  | ewaitConditionMet => exact progAgain_sound h ..
  | rdvReturn => exact tryAgain_sound h _ _ rdvWord_sound
  | queueRoom => exact tryAgain_sound h _ _ queueWord_sound
  | forkSlotFree => exact tryAgain_sound h _ _ forkWord_sound
  | loadReturn => exact loadReturns_sound h ..
  | twinReadServed => exact twinServed_sound h ..
  | twinTimeout => exact twinTimesOut_sound h ..
  | preempt => exact preemptGang_sound h ..
  | resume => exact resumeGang_sound h ..
  | lineEviction => exact evictLine_sound h ..
  | correctedError => exact correctError_sound h ..
  | machineCheck => exact checkMachine_sound h ..
  | deviceFatal => exact failDevice_sound h
  | thermalThrottle => exact throttleDie_sound h ..
  | powerThrottle => exact throttleBlock_sound h ..
  | overtempStop => exact overheat_sound h ..
  | dbell => exact ring_sound h ..
  | startInterface => exact startTdi_sound h ..
  | tdiError => exact failTdi_sound h ..
  | launchIntakeRoom => exact intakeRoom_sound h ..
  | collJoin => exact joinColl_sound h ..

end Sys2Proof.Machine
end

section
/-! Every memory stays in canonical form (log 2): fetching, turns, and the step. -/

namespace Sys2Proof.Machine

section
variable {s : State} (h : s.Sound)
include h

/-! Fetching words. -/

theorem keepLine_sound (bench c va : Nat) (ws : List Word) : (keepLine bench c va ws s).Sound := by
  unfold keepLine
  dsimp only
  split
  · exact h
  · exact h.same rfl

theorem fetchWord_sound (stack : Bool) (c : Nat) (priv : Bool) (bench : Option Nat) (asked : Asked) (va : Nat) :
    (fetchWord stack s c priv bench asked va).2.Sound := by
  have ht := translate_sound h c va .fetch priv
  unfold fetchWord
  split
  · exact h
  · split <;> rename_i heq <;> rw [heq] at ht
    · exact ht
    · dsimp only
      split
      · exact ht
      · split
        · split
          · exact ht
          · exact ht
        · exact ht
        · cases bench with
          | none => exact ht
          | some b => exact bump_sound (keepLine_sound (show State.Sound _ from ht) ..) _

theorem fetchWords_sound (c : Nat) (priv : Bool) (bench : Option Nat) (asked : Asked) (n va : Nat) :
    (fetchWords c priv bench asked n va s).2.Sound := by
  induction n generalizing va s with
  | zero => exact h
  | succ n ih =>
    rw [fetchWords]
    split <;> rename_i heq <;> have hw := (fetchWord_sound h ..).of_pair heq
    · exact hw
    · exact hw
    · split
      · next hws => exact (ih hw _).of_pair hws
      · exact ih hw _

theorem fetchInstr_sound (c : Nat) (priv : Bool) (bench : Option Nat) (asked : Asked) (va : Nat) :
    (fetchInstr c priv bench asked va s).2.Sound := by
  unfold fetchInstr
  split <;> rename_i heq <;> have hw := (fetchWord_sound h ..).of_pair heq
  · exact hw
  · exact hw
  · split
    · next hws => exact (fetchWords_sound hw ..).of_pair hws
    · exact fetchWords_sound hw ..

theorem keepDecoded_sound (bench c va : Nat) (ws : List Word) : (keepDecoded bench c va ws s).Sound := by
  unfold keepDecoded
  dsimp only
  split
  · exact h
  · exact h.same rfl

omit h in
theorem crack_sound (bench c va : Nat) {r : FetchedInstr × State} (hr : r.2.Sound) : (crack bench c va r).2.Sound := by
  unfold crack
  split
  · exact bump_sound (keepDecoded_sound hr ..) _
  · exact hr

/-! Turns. -/

theorem turnStrip_sound (gid k : Nat) : OutSound (turnStrip gid k s) := by
  have hin := bringIn_sound h gid k
  unfold turnStrip
  dsimp only
  generalize bringIn gid k s = s at hin ⊢
  split
  · exact hin
  · split
    · split
      · split
        · exact hin
        · split
          · exact stopStrip_sound hin ..
          · exact exec_sound _ (turnOf_sound hin _)
      · split
        · exact hin
        · split
          · exact stopStrip_sound hin ..
          · split <;> rename_i heq <;> have hf := (crack_sound _ _ _ (fetchInstr_sound hin ..)).of_pair heq
            · exact setStrip_sound hf ..
            · exact stopStrip_sound hf ..
            · split
              · exact stopStrip_sound hf ..
              · exact exec_sound _ (turnOf_sound (setStrip_sound hf ..) _)
    · exact hin

theorem turnSpan_sound (n : Nat) : OutSound (turnSpan n s) := by
  unfold turnSpan
  split
  · exact h
  · split
    · exact h
    · split
      · exact dealOut_sound h _
      · split <;> rename_i heq <;> have hf := (fetchInstr_sound h ..).of_pair heq
        · exact mapSpan_sound hf ..
        · exact dealOut_sound hf _
        · split
          · exact dealOut_sound hf _
          · exact exec_sound _ (turnOf_sound (mapSpan_sound hf ..) _)

theorem turnProg_sound (n : Nat) : OutSound (turnProg n s) := by
  unfold turnProg
  split
  · exact h
  · dsimp only
    split
    · split
      · exact h
      · exact exec_sound _ (turnOf_sound h _)
    · split
      · exact h
      · split <;> rename_i heq <;> have hf := (fetchWord_sound h ..).of_pair heq
        · exact mapProg_sound hf ..
        · exact stopProg_sound hf ..
        · generalize (if extraWords _ = 0 then decode _ else none) = decoded
          split
          · exact stopProg_sound hf ..
          · exact exec_sound _ (turnOf_sound (mapProg_sound hf ..) _)

theorem takeTurn_sound (t : Turn) : OutSound (takeTurn t s) := by
  unfold takeTurn
  split
  · exact h
  · exact turnStrip_sound h ..
  · exact turnSpan_sound h _
  · exact turnProg_sound h _
  · split
    · exact exec_sound _ (turnOf_sound h _)
    · exact h
  · exact queueTurn_sound h _
  · exact readRegister_sound h _
  · exact h.same rfl
  · exact h

theorem passClocks_sound (n : Nat) : (passClocks n s).Sound := h.same rfl

theorem nextTurn_sound : (nextTurn s).2.2.Sound := by
  unfold nextTurn
  split
  · exact h.same rfl
  · exact h

theorem step_sound : OutSound (step s) := takeTurn_sound (passClocks_sound (nextTurn_sound h) _) _

end

/-- Settles O58: everything that a step does keeps the memories in canonical form, since all of it writes them with the
operations that do. -/
theorem memoryStaysCanonical : Obligations.MemoryStaysCanonical := by
  unfold Obligations.MemoryStaysCanonical
  intro s u h hu
  exact (step_sound h).of_next hu

end Sys2Proof.Machine
end
